-- ==== Sys2Proof/Word.lean ====
section
/-! DEFINITION. The word types of the hub: a byte, a slot, a slot mask, an event counter, and the sizes the
spec fixes. Nothing here decides a bit layout: byte order and codes stand in Machine/Codes.lean. -/

namespace Sys2Proof

/-- One byte of a frame, a message or the configuration image. -/
abbrev Byte := BitVec 8

/-- A slot (00_scope section 5): slot number `n` of the spec, 1..12, is the element `n - 1`. -/
abbrev Slot := Fin 12

/-- A set of slots (00_scope section 5): bit `i` stands for slot number `i + 1`. The 16-bit layout of R188 is
made of it in Machine/Codes.lean. -/
abbrev SlotMask := BitVec 12

/-- An event counter: 32-bit, wrapping (00_scope section 5, Counters). -/
abbrev Counter := BitVec 32

/-- The twelve slots in ascending order. -/
def allSlots : List Slot := [0, 1, 2, 3, 4, 5, 6, 7, 8, 9, 10, 11]

/-- Nanoseconds in one hub second. -/
abbrev nsPerSec : Nat := 1000000000

/-- Nanoseconds between two frame boundaries (00_scope section 5). -/
abbrev nsPerFrame : Nat := 10000000

/-- Nanoseconds in one millisecond. -/
abbrev nsPerMs : Nat := 1000000

end Sys2Proof
end

