-- ==== Sys2Proof/Syntax.lean ====
section
/-! DEFINITION. The commands of the hub: one constructor per row of spec/opcode_table.json, in the table's order.
The table gives no row any field. An operand stands where the event carries something from outside the hub:
the slot it happens at, the level of a pin, the bytes on a wire, the outcome of the EEPROM, or the nanoseconds of the
reference oscillator since the command before (log entry 2). A request row has no operand: its operands are the body of
the request at the head of the inbound queue (R173, log entry 3). -/

namespace Sys2Proof

/-- A raw input of a slot at its new level (R58, R60). -/
inductive RawInput where
  /-- PRESENT: `true` when a card is seated. -/
  | present (level : Bool)
  /-- LATCH: `true` when the ejector latch is closed. -/
  | latch (closed : Bool)
  /-- The two PCODE pins: bit 1 is PCODE1, bit 0 is PCODE0, 1 is high. -/
  | pcode (pins : BitVec 2)
  deriving DecidableEq, Repr

/-- How the write of a CONFIG_SAVE ended at the EEPROM (R186). -/
inductive SaveEnd where
  /-- Every byte acknowledged, and the read-back equals the snapshot. -/
  | saved
  /-- No acknowledgement came, after `writes` bytes of the first three stages had been written; with all of them written, none
  came in the read-back. -/
  | noAck (writes : Nat)
  /-- Every byte acknowledged, but the read-back differs: the byte at each offset listed is the one written, exclusive-or
  its number + 1. -/
  | mismatch (flips : List (Fin 821 × Fin 255))
  deriving DecidableEq, Repr

/-- The commands. -/
inductive Instr where
  -- resets and start-up
  | powerOnReset (imageEn : Bool) (written : Nat)
  | hostPortReset
  | loadComplete (acknowledged : Bool)
  | startUpEvent
  -- inputs and limits of a slot
  | rawInputChange (n : Slot) (input : RawInput)
  | presencePresent (n : Slot)
  | presenceAbsent (n : Slot)
  | latchClosed (n : Slot)
  | latchOpen (n : Slot)
  | pwrGoodAsserted (n : Slot)
  | pwrGoodLost (n : Slot)
  | poweringTimeout (n : Slot)
  | resetHoldEnd (n : Slot)
  | linkingTimeout (n : Slot)
  | identifyAttemptTimeout (n : Slot)
  | powerWait (n : Slot)
  | recoveryWindowExpiry (n : Slot)
  | drainTimeout (n : Slot)
  | retryTimerExpiry (n : Slot)
  -- slot links
  | helloValid (n : Slot)
  | helloInvalid (n : Slot)
  | linkAlignmentLost (n : Slot)
  | linkResetHoldEnd (n : Slot)
  | frameReceived (n : Slot) (dt : Nat) (bytes : List Byte) (whole : Bool)
  -- switch, store and egress
  | frameClassification (n : Slot)
  | arbiterService
  | transmissionComplete (n : Slot) (dt : Nat)
  -- clock and references
  | frameBoundary
  | announceBoundary
  | secondJudgment
  | linkErrorsClear (n : Slot)
  | holdoverLimitReached
  | extrefPulse (dt : Nat)
  | extPulseLost
  -- dispatch of the agent inbox
  | identityReply
  | quiesced
  | probeReply
  | phaseReport
  | sourceReport
  | cardAlarm
  | sweepReply
  | invalidAgentFrame
  -- other events of the blocks
  | fenceSlot (n : Slot)
  | sweepTimeout
  | configSaveWriteEnd (result : SaveEnd)
  -- host port
  | writeTransfer (hprst : Bool) (bytes : List Byte)
  | readTransfer (hprst : Bool) (typeByte : Byte) (startedEmpty : Bool) (clocked : Nat)
  -- requests
  | unknownRequest
  | hubInfo
  | hubStatus
  | hubReset
  | slotPlanSet
  | slotQuery
  | slotPower
  | slotAdmit
  | slotRelease
  | slotFence
  | slotRestore
  | slotRestart
  | slotLinkReset
  | budgetSet
  | windowSet
  | windowGet
  | groupSet
  | groupGet
  | defaultTargetSet
  | portLimitSet
  | portCounts
  | refListSet
  | timingSet
  | timingStatus
  | timeSet
  | slotTimingQuery
  | asymmetrySet
  | alarmList
  | alarmAck
  | alarmPurge
  | kindSet
  | relaySet
  | sweep
  | sweepAbort
  | configSave
  deriving DecidableEq, Repr

end Sys2Proof
end

