-- ==== Sys2Proof/Config.lean ====
section
/-! DEFINITION. What the spec leaves to the part or does not state: constants with no body, so that nothing in
Lean can evaluate one or prove a value of it (log entries 5, 6 and 7). -/

namespace Sys2Proof.Config

/-- The family code that HUB_INFO returns (R177 names it and gives no value). Log entry 6. -/
opaque familyCode : BitVec 16

/-- The part code that HUB_INFO returns (R177 names it and gives no value). Log entry 6. -/
opaque partCode : BitVec 16

/-- The silicon revision number that HUB_INFO returns (R177 names it and gives no value). Log entry 6. -/
opaque siliconRevision : Byte

/-- A byte the spec does not state: byte `i` of the `draw`-th unstated text of this run (of which the values in the body of a refusal are made,
where no rule names them). Log entries 5 and 6. -/
opaque freeByte (draw i : Nat) : Byte

/-- A choice between two readings the spec leaves open (the reason of a TIMING_CHANGED notice for which two
reasons of R113 hold at once). Log entry 7. -/
opaque freeChoice (draw : Nat) : Bool

end Sys2Proof.Config
end

