-- ==== Sys2Proof/Machine/Types.lean ====
section
/-! DEFINITION. The plain data of the blocks (00_scope section 2.1), block by block, in the spec's names. An enumeration
lists its values in the order of the spec's own list or table, since R188 codes a value by its place there. -/

namespace Sys2Proof.Machine

/-! ## Time (00_scope section 5, R98) -/

/-- Hub time: whole seconds, 0..2^48−1, and nanoseconds, 0..999,999,999 (R98). -/
structure HubTime where
  sec : Nat := 0
  ns : Nat := 0
  deriving DecidableEq, Repr

/-- A time given as hub seconds and frame number (R55, R139). -/
structure Stamp where
  sec : Nat := 0
  frame : Nat := 0
  deriving DecidableEq, Repr

/-- The two sorts of boundary that the clock reaches by running (R98). -/
inductive BoundarySort where | frame | second
  deriving DecidableEq, Repr

/-- A boundary that the clock has reached, with the hub time at which it fell (R98). -/
structure Boundary where
  sort : BoundarySort
  time : HubTime
  deriving DecidableEq, Repr

/-- The hub clock (R98, R99) and the events it has reached and that are not yet taken (log entries 2 and 8). -/
structure Clock where
  /-- Hub time (R98). -/
  now : HubTime := {}
  /-- Elapsed time at the rate of the hub clock since the first reset, in ns: the reading that limits, timers and the
  pulse monitor measure by (R56, R101). No step moves it. The model's own field (log entry 8). -/
  elapsed : Nat := 0
  /-- The part of a nanosecond, in units of 10^−9 ns, by which hub time is ahead of `now` (R98, R110).
  The model's own field (log entry 8). -/
  carry : Nat := 0
  /-- The time-stepped flag (R99). -/
  timeStepped : Bool := false
  /-- The boundaries reached by running and not yet taken as events, in the order in which they fell (R98). The model's own
  field (log entry 8). -/
  due : List Boundary := []
  /-- The announce boundaries not yet taken, oldest first: for each the hub time of the frame boundary at which the announce
  counter reached N (R120 to R122). The model's own field (log entry 8). -/
  announces : List HubTime := []
  deriving DecidableEq, Repr

/-! ## Frames (R188, R189, section 1.2) -/

inductive TrafficClass where | timing | control | bulk
  deriving DecidableEq, Repr

/-- A backplane frame as the hub carries it: header fields and payload, no CRC (section 1.2). -/
structure Frame where
  cls : TrafficClass
  kind : BitVec 6
  source : Byte
  flags : Byte
  sequence : Byte
  dest : BitVec 32
  tag : BitVec 16
  payload : List Byte
  deriving DecidableEq, Repr

/-- An arrival timestamp (R12), with the elapsed reading at the same instant, by which ages are measured (the model's own
part, log entry 8). -/
structure Arrival where
  time : HubTime
  elapsed : Nat
  deriving DecidableEq, Repr

/-- A frame handed on by a Slot Link Interface, with its arrival timestamp when its class is TIMING (R10, R12). -/
structure HandedOn where
  frame : Frame
  arrival : Option Arrival
  deriving DecidableEq, Repr

/-! ## Slot links (R1, R5, R11) -/

inductive LinkState where | disabled | training | locked
  deriving DecidableEq, Repr

/-- Where the entry of the frame in flight stands at its port: the head of a queue, or the identify position. -/
inductive Place where | timing | control | bulk | identify
  deriving DecidableEq, Repr

/-- The transmit state IN_FLIGHT: the entry being sent and, for a TIMING-class frame, its transmit timestamp (R1, R13). -/
structure InFlight where
  place : Place
  id : Nat
  sentAt : Option HubTime
  deriving DecidableEq, Repr

/-- The 1 ms hold of a link reset (R5): the elapsed reading at which it ends, and whether the link then goes to
TRAINING (a disable during the hold cancels that, R2). -/
structure Hold where
  due : Nat
  thenTrain : Bool
  deriving DecidableEq, Repr

/-- The bytes of the frame the receiver is taking in (R6), and the hub time of the first of them (R12). -/
structure Partial where
  bytes : List Byte
  arrival : Arrival
  deriving DecidableEq, Repr

/-- The errored-frame monitor (R11); its threshold is a setting. `reached`: this second's count has reached the
threshold, LINK_ERRORS is raised and counting has stopped. -/
structure Monitor where
  errored : Nat := 0
  reached : Bool := false
  clearRun : Nat := 0
  deriving DecidableEq, Repr

/-- The link record of one slot (R1). -/
structure Link where
  state : LinkState := .disabled
  helloCount : Nat := 0
  tx : Option InFlight := none
  hold : Option Hold := none
  rx : Option Partial := none
  monitor : Monitor := {}
  deriving DecidableEq, Repr

/-! ## Frame Switch (section 2.1) -/

/-- Where a window sends the frames it claims. -/
inductive Target where
  | slot (n : Slot)
  | group (g : Fin 16)
  deriving DecidableEq, Repr

/-- A window's class filter: CONTROL, BULK, or both. -/
structure ClassFilter where
  control : Bool
  bulk : Bool
  deriving DecidableEq, Repr

/-- One entry of the Address Window Table (section 2.1). The size is kept as its exponent of two. -/
structure Window where
  enabled : Bool := false
  base : BitVec 32 := 0
  sizeExp : Nat := 8
  target : Target := .slot 0
  remap : Option (BitVec 32) := none
  classes : ClassFilter := ⟨true, true⟩
  sources : SlotMask := BitVec.allOnes 12
  deriving DecidableEq, Repr

/-! ## Frame Store and Egress (R34, R35, R37, R44, R51) -/

/-- A classified frame waiting at the admission arbiter (R37), with its target and its target set (R24). -/
structure PendingFrame where
  frame : Frame
  target : Target
  targets : SlotMask
  deriving DecidableEq, Repr

/-- A stored frame (R35). `id` names the record: the model's own field, the reference that an egress entry holds. -/
structure StoredFrame where
  id : Nat
  frame : Frame
  blocks : Nat
  refs : Nat
  /-- The frame's origin: agent-originated, or card-originated. -/
  fromAgent : Bool
  deriving DecidableEq, Repr

/-- The twelve counters of a port (section 3.7). -/
structure PortCounters where
  framesReceived : Counter := 0
  framesSent : Counter := 0
  errored : Counter := 0
  classViolations : Counter := 0
  sourceNotInService : Counter := 0
  unroutable : Counter := 0
  noReachableTarget : Counter := 0
  unreachable : Counter := 0
  portLimitDrops : Counter := 0
  storeFull : Counter := 0
  purged : Counter := 0
  aborted : Counter := 0
  deriving DecidableEq, Repr

/-- One port: its queues, its identify position and its counters, and what waits from its slot at the switch and
the arbiter. A queue entry is the `id` of a stored frame; the head of a list is the head of its queue. -/
structure Port where
  timingQ : List Nat := []
  controlQ : List Nat := []
  bulkQ : List Nat := []
  identify : Option Nat := none
  controlRun : Nat := 0
  counters : PortCounters := {}
  /-- Frames handed on by the slot's link and not yet classified, in order (R10, R19). The model's own field: the
  spec gives the hand-over and the classification as two events. -/
  handedOn : List HandedOn := []
  /-- The arbiter's CONTROL and BULK pending lists of this source (R37). -/
  pendControl : List PendingFrame := []
  pendBulk : List PendingFrame := []
  deriving DecidableEq, Repr

/-- The frame store and the arbiter's rotation points (R34, R35, R38). -/
structure Store where
  frames : List StoredFrame := []
  sharedUsed : Nat := 0
  reserveUsed : Nat := 0
  /-- The next record name: the model's own field. -/
  nextId : Nat := 0
  lastControl : Slot := 11
  lastBulk : Slot := 11
  deriving DecidableEq, Repr

/-! ## Slot Manager (R55, R57, R60) -/

inductive SlotState where
  | empty | seated | powering | resetHold | linking | identifying | awaitingAdmit | forwarding
  | recovering | draining | off | fenced | faulted
  deriving DecidableEq, Repr

inductive PowerClass where | a | b | c | d
  deriving DecidableEq, Repr

inductive FaultReason where | powerFail | linkTimeout | noIdentity | powerMismatch | linkLost
  deriving DecidableEq, Repr

inductive CardKind where | radio | baseband | timingSource | transport | powerFan | other
  deriving DecidableEq, Repr

/-- A capability set (R57). -/
structure Caps where
  timeSink : Bool
  timeSource : Bool
  radiates : Bool
  deriving DecidableEq, Repr

/-- The identity record of a card (R57). -/
structure Identity where
  kind : CardKind
  code : BitVec 16
  revision : Byte
  declared : PowerClass
  caps : Caps
  serial : List Byte
  deriving DecidableEq, Repr

/-- One entry of the slot plan (R57). -/
structure PlanEntry where
  expected : Bool := true
  kind : Option CardKind := none
  autoAdmit : Bool := true
  retryLimit : Nat := 1
  deriving DecidableEq, Repr

/-- A running debounce timer (R58): the elapsed reading at which it expires, and whether it has run since the load
completed, so that its change belongs to the start-up event (R59). -/
structure Debounce where
  due : Nat
  startUp : Bool
  deriving DecidableEq, Repr

/-- The slot record (R55), the slot's timers (R56), and its pins (00_scope section 2.4). -/
structure SlotRec where
  state : SlotState := .empty
  /-- Debounced PRESENT: `true` is PRESENT. -/
  presence : Bool := false
  /-- Debounced LATCH: `true` is CLOSED. -/
  latchClosed : Bool := false
  powerClass : Option PowerClass := none
  identity : Option Identity := none
  fault : Option FaultReason := none
  retries : Nat := 0
  entry : Stamp := {}
  attempt : Nat := 0
  autoAdmit : Bool := false
  waitStart : Option HubTime := none
  quiesced : Bool := false
  /-- Debounce timers of the two inputs (R58). -/
  presenceTimer : Option Debounce := none
  latchTimer : Option Debounce := none
  /-- The elapsed reading at which the limit of the present state expires (R56): 200 ms POWERING, 10 ms RESET_HOLD,
  1,000 ms LINKING, the attempt timer of IDENTIFYING, the recovery window, the drain timeout, the retry timer. -/
  limit : Option Nat := none
  /-- The elapsed reading at the join of the wait list (R62, R64). -/
  joined : Option Nat := none
  /-- POWER_WAIT has been raised during the present stay in the wait list (R64). -/
  waitRaised : Bool := false
  -- inputs at their raw levels
  rawPresent : Bool := false
  rawLatch : Bool := false
  pcode : BitVec 2 := 3
  pwrGood : Bool := false
  -- outputs
  pwrEn : Bool := false
  cardRst : Bool := true
  safe : Bool := false
  deriving DecidableEq, Repr

/-- What the Slot Manager holds for the cabinet (R62, R91, R59). -/
structure Manager where
  /-- The power wait list, oldest first (R62). -/
  waitList : List Slot := []
  /-- FENCE_SLOT actions handed over by the Alarm Unit and not yet taken (R91, R147). -/
  fenceRequests : List Slot := []
  /-- The elapsed reading at which the start-up event falls (R59), while it is to come. -/
  startUpDue : Option Nat := none
  /-- Hub time of the start-up event that followed the last reset (R177), once it has been taken. -/
  startUpAt : Option HubTime := none
  deriving DecidableEq, Repr

/-! ## Timing Unit (R100 to R110, R118) -/

inductive Source where
  | ext
  | slot (n : Slot)
  deriving DecidableEq, Repr

inductive CandStatus where | unavailable | qualifying | qualified
  deriving DecidableEq, Repr

/-- One entry of the candidate list (R100). -/
structure Candidate where
  source : Source
  status : CandStatus := .unavailable
  count : Nat := 0
  lastOffset : Option Int := none
  deriving DecidableEq, Repr

inductive Origin where | fresh | locked | lapsed
  deriving DecidableEq, Repr

inductive TimingState where
  | freeRun
  | acquiring (origin : Origin)
  | locked
  | holdover
  | holdoverLapsed
  deriving DecidableEq, Repr

/-- The previous pulse of the EXTREF monitor (R101). -/
structure Pulse where
  arrival : HubTime
  elapsed : Nat
  good : Bool
  deriving DecidableEq, Repr

/-- The latest SOURCE_REPORT of a slot (R102). `pending`: it is the slot's pending measurement. -/
structure Report where
  refSec : Nat
  traceable : Bool
  arrival : Arrival
  comp : Option Nat
  pending : Bool
  deriving DecidableEq, Repr

/-- An outstanding probe (R118); `t1` is absent until its transmission completes. -/
structure Probe where
  sequence : Byte
  t1 : Option HubTime
  deriving DecidableEq, Repr

/-- The timing record of one slot (R118), with the slot's latest report (R102). The asymmetry is a setting. -/
structure TimingRec where
  sequence : Byte := 0
  probe : Option Probe := none
  window : List Nat := []
  target : Option Nat := none
  applied : Option Nat := none
  misses : Nat := 0
  pathLost : Bool := false
  phaseOut : Nat := 0
  phaseIn : Nat := 0
  phaseCond : Bool := false
  lastPhase : Option Int := none
  /-- The transmit permit: `true` is GRANTED. -/
  granted : Bool := false
  accepted : Counter := 0
  rejected : Counter := 0
  stale : Counter := 0
  report : Option Report := none
  deriving DecidableEq, Repr

/-- What the Timing Unit holds for the hub (R100, R101, R106, R107, R110, R116, R118). -/
structure Timing where
  state : TimingState := .freeRun
  lockCount : Nat := 0
  unlockCount : Nat := 0
  /-- The holdover clock (R107). -/
  holdover : Nat := 0
  cands : List Candidate := []
  selection : Option Source := none
  /-- No offset of the present acquisition has been used yet (R106, R111). -/
  firstOffset : Bool := false
  /-- The correction k of the interval in progress, in ns (R110). -/
  correction : Int := 0
  pendingTime : Option Nat := none
  announceCount : Nat := 0
  pulse : Option Pulse := none
  /-- The pending EXT measurement: the pulse's arrival hub time less the cable delay, as a count of ns (R101, R108). -/
  extPending : Option Int := none
  /-- The Timing Unit holds REFERENCE_LOST raised (R112). -/
  refLost : Bool := false
  deriving DecidableEq, Repr

/-! ## Alarm Unit (R137, R139) -/

inductive Severity where | critical | major | minor | warning
  deriving DecidableEq, Repr

inductive AlarmKind where
  | linkErrors | linkLost | slotFault | surpriseExtraction | drainForced | powerWait | cardMismatch | unroutable
  | egressDrops | timingPathLost | phaseOutOfLimit | cardReported | referenceLost | holdoverActive | holdoverLapsed
  | storeExhausted | agentOverload | configImageInvalid | configSaveFailed | alarmTableFull
  deriving DecidableEq, Repr

inductive Action where | none | fenceSlot | withdrawPermit
  deriving DecidableEq, Repr

/-- One entry of the kind table (R137). -/
structure KindEntry where
  severity : Option Severity := .none
  notify : Bool := true
  action : Action := .none
  relay : Bool := false
  deriving DecidableEq, Repr

/-- The key of an alarm record (R139); source `none` is the hub, source 0. -/
structure AlarmKey where
  source : Option Slot
  kind : AlarmKind
  detail : BitVec 16 := 0
  deriving DecidableEq, Repr

/-- An alarm record (R139). `active`: state ACTIVE, else CLEARED. -/
structure AlarmRec where
  key : AlarmKey
  severity : Severity
  reported : Option Severity
  active : Bool
  acked : Bool
  firstRaised : Stamp
  lastChange : Stamp
  occurrences : Nat
  deriving DecidableEq, Repr

/-- The levels of the five cabinet outputs (R151, R152). -/
structure Lamps where
  crit : Bool := false
  maj : Bool := false
  min : Bool := false
  aud : Bool := false
  cabOk : Bool := false
  deriving DecidableEq, Repr

/-- The alarm table and the cabinet outputs (R139, R151, R152). -/
structure Alarms where
  /-- Position 0. -/
  full : Option AlarmRec := none
  /-- Positions 1 to 63, oldest first. -/
  recs : List AlarmRec := []
  changeNumber : Counter := 0
  lamps : Lamps := {}
  deriving DecidableEq, Repr

/-! ## Hub Agent (R156, R160, R163) -/

/-- A frame in the agent inbox (R156). -/
structure InboxFrame where
  frame : Frame
  slot : Slot
  arrival : Option Arrival
  deriving DecidableEq, Repr

inductive SweepItem where | status | temperature | alarmSummary | inventory
  deriving DecidableEq, Repr

inductive SweepFailure where | notInService | queryNotSent | leftService | noAnswer | aborted
  deriving DecidableEq, Repr

/-- The sweep context (R163). The reset values of the number, the item, the timeout, the clamped flag and the tag, which no rule gives, are
those below (DESIGN CHOICE, log entry 56). -/
structure Sweep where
  inFlight : Bool := false
  nextNumber : Byte := 0
  number : Byte := 0
  item : SweepItem := .status
  requested : SlotMask := 0
  pending : SlotMask := 0
  results : List (Slot × List Byte) := []
  failures : List (Slot × SweepFailure) := []
  timeout : Nat := 0
  clamped : Bool := false
  tag : Byte := 0
  /-- The elapsed reading at which the timeout expires (R163). -/
  due : Nat := 0
  deriving DecidableEq, Repr

/-- The agent's inbox, counters and sweep context (R156, R160, R163). -/
structure Agent where
  inbox : List InboxFrame := []
  formDiscards : Vector Counter 12 := Vector.replicate 12 0
  stateDiscards : Vector Counter 12 := Vector.replicate 12 0
  inboxOverflows : Counter := 0
  reserveRefusals : Counter := 0
  sweep : Sweep := {}
  deriving DecidableEq, Repr

/-! ## Settings (section 11.1) -/

/-- A port limit and an errored-frame threshold (R41, R11). -/
structure PortLimit where
  limit : Nat := 512
  threshold : Nat := 10
  deriving DecidableEq, Repr

/-- The nine parameters of R115. -/
structure TimingParams where
  q : Nat := 10
  holdoverLimit : Nat := 14400
  slewLimit : Nat := 100
  lockWindow : Nat := 100
  unlockThreshold : Nat := 500
  cableDelay : Nat := 0
  announceInterval : Nat := 10
  slewStep : Nat := 8
  phaseLimit : Nat := 1100
  deriving DecidableEq, Repr

/-- The default target (section 2.1): absent is NONE. -/
abbrev DefaultTarget := Option Target

/-- The kind table as the defaults give it (R137): NONE for every kind but CARD_REPORTED, the twelfth. -/
def builtinKinds : Vector KindEntry 20 :=
  (Vector.replicate 20 {}).set 11 { action := .fenceSlot }

/-- The configured settings, but for the candidates' sources, which the candidate list itself holds (section 11.1).
The field defaults are the built-in defaults. -/
structure Tables where
  plan : Vector PlanEntry 12 := Vector.replicate 12 {}
  budget : Nat := 600
  recoveryWindow : Nat := 200
  drainTimeout : Nat := 500
  windows : Vector Window 32 := Vector.replicate 32 {}
  groups : Vector SlotMask 16 := Vector.replicate 16 0
  defaultTarget : DefaultTarget := none
  ports : Vector PortLimit 12 := Vector.replicate 12 {}
  revertive : Bool := true
  timing : TimingParams := {}
  asymmetry : Vector Int 12 := Vector.replicate 12 0
  kinds : Vector KindEntry 20 := builtinKinds
  relay : Option Slot := none
  deriving DecidableEq, Repr

/-- Every setting of section 11.1: what an image holds and a save snapshots. -/
structure Settings where
  tables : Tables := {}
  sources : List Source := []
  deriving DecidableEq, Repr

/-! ## Configuration Store Interface (R182) -/

inductive ImageStatus where | valid | defaultsAfterFailure | defaultsByStrap
  deriving DecidableEq, Repr

inductive LoadFault where | noAck | badTag | badVersion | badLength | badCrc | badContent
  deriving DecidableEq, Repr

inductive SaveFault where | noAck | readBackMismatch
  deriving DecidableEq, Repr

inductive ResetKind where | powerOn | hub
  deriving DecidableEq, Repr

/-- The save in progress (R182, R185): its snapshot, its request's tag, and whether its reply is still to be
produced (R187). -/
structure Save where
  snapshot : Settings
  tag : Byte
  replyDue : Bool
  deriving DecidableEq, Repr

/-- The state of the Configuration Store Interface (R182). `save` absent is save state IDLE. -/
structure ConfigStore where
  strap : Bool := false
  status : ImageStatus := .defaultsByStrap
  fault : Option LoadFault := none
  version : Option Nat := none
  loading : Bool := true
  /-- The reset that began the last load (R184). -/
  lastReset : ResetKind := .powerOn
  save : Option Save := none
  deriving DecidableEq, Repr

end Sys2Proof.Machine
end

