-- ==== Sys2Proof/Machine/Messages.lean ====
section
/-! DEFINITION. What the host port carries (R170, R176, R180): statuses, the reasons of the notices, and the fields of
every reply and notice body in the order their rules name them. The bytes of a body are made of it in
Machine/Formats.lean. -/

namespace Sys2Proof.Machine

/-- The statuses of R176, in the order of their codes (R190). -/
inductive Status where | ok | clamped | badParam | badState | busy | badLength | unknownRequest
  deriving DecidableEq, Repr

/-- The reasons of SLOT_CHANGED in the order of R97's table; HOST_REQUEST carries the request's code. -/
inductive SlotReason where
  | inserted | removed | latchClosed | latchOpened | powerGranted | powerGood | resetDone | linkLocked | linkLost
  | identified | autoAdmitted
  | hostRequest (code : Byte)
  | alarmAction | timeout | powerLost | drainDone | retry
  deriving DecidableEq, Repr

/-- The reasons of TIMING_CHANGED in the order of R113. -/
inductive TimingReason where
  | selection | sourceLeft | lockAchieved | lockLost | holdoverExpired | hostRequest
  deriving DecidableEq, Repr

/-- The reasons of PERMIT_CHANGED in the order of R136's table. -/
inductive PermitReason where
  | slotState | timeSpecification | settled | path | phase | alarmAction
  deriving DecidableEq, Repr

/-- The reasons of ALARM_CHANGED in the order R149 names them. -/
inductive AlarmReason where | created | activated | cleared | acknowledged | severity
  deriving DecidableEq, Repr

/-- The inputs of the permit rule, in the order of R133, the first and the fourth split as R136 splits them. -/
structure PermitInputs where
  forwarding : Bool
  radiates : Bool
  inSpec : Bool
  settled : Bool
  pathOk : Bool
  phaseOk : Bool
  noAlarm : Bool
  deriving DecidableEq, Repr

/-- The body of HUB_STATUS's reply (R178). -/
structure HubStatusBody where
  now : HubTime
  timing : TimingState
  inSpec : Bool
  selection : Option Source
  states : Vector SlotState 12
  budget : Nat
  committed : Nat
  waitList : List Slot
  defaultTarget : DefaultTarget
  freeShared : Nat
  freeReserve : Nat
  inboxCount : Nat
  inboxOverflows : Counter
  reserveRefusals : Counter
  formDiscards : Vector Counter 12
  stateDiscards : Vector Counter 12
  sweepInFlight : Bool
  sweepNumber : Byte
  nextSweepNumber : Byte
  saving : Bool
  lamps : Lamps
  records : Nat
  activeRecords : Nat
  openCount : Nat
  replies : Nat
  notices : Nat
  overrun : Bool
  noticesLost : Bool
  requestsDiscarded : Counter
  noticesDiscarded : Counter
  lengthErrors : Counter
  truncatedWrites : Counter
  deriving DecidableEq, Repr

/-- The body of SLOT_QUERY's reply (R79). Of `record`, the bytes carry the parts of R55 and the raw levels. -/
structure SlotQueryBody where
  record : SlotRec
  plan : PlanEntry
  place : Nat
  /-- Milliseconds waited so far, for a slot in the wait list. -/
  waited : Option Nat
  link : LinkState
  budget : Nat
  committed : Nat
  waitList : List Slot
  deriving DecidableEq, Repr

/-- The body of PORT_COUNTS's reply (R52). -/
structure PortCountsBody where
  counters : PortCounters
  occupancy : Nat
  limits : PortLimit
  timingEntries : Nat
  controlEntries : Nat
  bulkEntries : Nat
  identify : Bool
  pendControl : Nat
  pendBulk : Nat
  freeShared : Nat
  freeReserve : Nat
  deriving DecidableEq, Repr

/-- The body of TIMING_STATUS's reply (R117). -/
structure TimingStatusBody where
  now : HubTime
  inSpec : Bool
  timing : Timing
  revertive : Bool
  timeStepped : Bool
  params : TimingParams
  deriving DecidableEq, Repr

/-- The body of SLOT_TIMING_QUERY's reply (R131). -/
structure SlotTimingBody where
  record : TimingRec
  asymmetry : Int
  least : Option Nat
  eligible : Bool
  settled : Bool
  caps : Option Caps
  inputs : PermitInputs
  announceCount : Nat
  announceInterval : Nat
  deriving DecidableEq, Repr

/-- The body of ALARM_LIST's reply (R155). -/
structure AlarmListBody where
  /-- Up to 8 records, each with its position. -/
  page : List (Nat × AlarmRec)
  records : Nat
  fullHeld : Bool
  /-- The next position to ask for; absent marks the end of the list. -/
  next : Option Nat
  changeNumber : Counter
  activeCritical : Nat
  activeMajor : Nat
  activeMinor : Nat
  activeWarning : Nat
  unacked : Nat
  lamps : Lamps
  relay : Option Slot
  deriving DecidableEq, Repr

/-- The body of a SWEEP reply (R168). -/
structure SweepBody where
  number : Byte
  item : SweepItem
  requested : SlotMask
  results : List (Slot × List Byte)
  remaining : SlotMask
  failures : List (Slot × SweepFailure)
  firstFailed : Option Slot
  timeout : Nat
  deriving DecidableEq, Repr

/-- The body of a reply or a notice. -/
inductive Body where
  /-- An empty body: BAD_LENGTH, UNKNOWN_REQUEST, and the replies for which no rule names a field. -/
  | empty
  /-- The body of a refusal for which no rule names a value (R176): the reply format of the request of that code, with the free values
  that `draw` numbers, SWEEP's as R168 binds them (log entry 5). -/
  | unstated (code : Byte) (draw : Nat)
  /-- The body of a refused PORT_COUNTS: the free counts, which R34 states for every reply, behind the free values that `draw` numbers
  (log entry 5). -/
  | portCountsRefused (draw freeShared freeReserve : Nat)
  -- replies
  | hubInfo (status : ImageStatus) (strap : Bool) (startUp : Option HubTime) (draw : Nat)
  | hubStatus (b : HubStatusBody)
  | slotPlan (entry : PlanEntry)
  | slotQuery (b : SlotQueryBody)
  | slotPower (state : SlotState) (place : Nat)
  | slotState (state : SlotState)
  | slotLink (state : SlotState) (link : LinkState)
  | budget (budget committed : Nat) (waitList : List Slot) (recoveryWindow drainTimeout : Nat)
  | window (w : Window)
  | windowGet (w : Window) (control bulk : SlotMask)
  | groupSet (g : Fin 16) (mask : SlotMask)
  | groupGet (mask reachable : SlotMask) (windows : BitVec 32) (isDefault : Bool)
  | defaultTarget (previous current : DefaultTarget)
  | portCounts (b : PortCountsBody)
  | portLimit (limits : PortLimit) (occupancy : Nat)
  | refList (cands : List Candidate) (selection : Option Source) (state : TimingState)
  | timingSet (params : TimingParams)
  | timingStatus (b : TimingStatusBody)
  | timeSet (boundary : HubTime)
  | slotTiming (b : SlotTimingBody)
  | asymmetry (before after : Int) (target applied : Option Nat)
  | alarmList (b : AlarmListBody)
  | alarmAck (acked cleared : Nat) (lamps : Lamps)
  | alarmPurge (removed remaining : Nat)
  | kindSet (entry : KindEntry) (records active : Nat)
  | relaySet (before after : Option Slot) (state : Option SlotState)
  | sweep (b : SweepBody)
  | configSave (fault : Option SaveFault) (written : Nat)
  -- notices
  | started (status : ImageStatus) (fault : Option LoadFault) (version : Option Nat) (strap : Bool) (kind : ResetKind)
  | slotChanged (n : Slot) (old new : SlotState) (reason : SlotReason) (fault : Option FaultReason) (entry : Stamp)
  | timingChanged (old new : TimingState) (oldSel newSel : Option (Nat × Source)) (inSpec : Bool) (holdover : Nat)
      (time : HubTime) (reason : TimingReason)
  | permitChanged (n : Slot) (old new : Bool) (time : Stamp) (reason : PermitReason)
  | alarmChanged (position : Nat) (record : AlarmRec) (reason : AlarmReason)
  deriving DecidableEq, Repr

/-- A message in the outbound queue (R190): a reply or a notice, its code, tag, status and the two flags of R174. -/
structure Message where
  isReply : Bool
  code : Byte
  tag : Byte
  status : Status
  overrun : Bool
  noticesLost : Bool
  body : Body
  deriving DecidableEq, Repr

/-- A request in the inbound queue, kept whole (R170): message kind, code, tag, the flags byte, the body length its
header states (equal to the body's own, R172) and the body. -/
structure Request where
  kind : Byte
  code : Byte
  tag : Byte
  flags : Byte
  body : List Byte
  deriving DecidableEq, Repr

/-- The state of the Host Message Port (R170). -/
structure HostPort where
  inbound : List Request := []
  outbound : List Message := []
  openCount : Nat := 0
  /-- The REQUEST_OVERRUN flag. -/
  overrun : Bool := false
  /-- The NOTICES_LOST flag. -/
  noticesLost : Bool := false
  resetPending : Bool := false
  requestsDiscarded : Counter := 0
  noticesDiscarded : Counter := 0
  lengthErrors : Counter := 0
  truncatedWrites : Counter := 0
  /-- The level of ATTN (R175). -/
  attn : Bool := false
  /-- The bytes with a meaning that the hub drove in the last read transfer (R175): the head message or the empty
  marker, as far as the host clocked. The model's own field (log entry 9). -/
  driven : List Byte := []
  deriving DecidableEq, Repr

end Sys2Proof.Machine
end

