-- ==== Sys2Proof/Machine/State.lean ====
section
/-! DEFINITION. The state of the hub and of the commands that wait for it, the reasons a step can stop, and the state right
after power-on reset. -/

namespace Sys2Proof.Machine

/-- The hub: what each block of 00_scope section 2.1 owns. -/
structure Hub where
  clock : Clock := {}
  links : Vector Link 12 := Vector.replicate 12 {}
  ports : Vector Port 12 := Vector.replicate 12 {}
  store : Store := {}
  slots : Vector SlotRec 12 := Vector.replicate 12 {}
  manager : Manager := {}
  timing : Timing := {}
  trecs : Vector TimingRec 12 := Vector.replicate 12 {}
  alarms : Alarms := {}
  agent : Agent := {}
  port : HostPort := {}
  config : ConfigStore := {}
  /-- The configured settings in force (section 11.1), but for the candidates' sources. -/
  tables : Tables := {}
  /-- How many free values this run has drawn: the model's own field (log entries 5 and 7). -/
  draws : Nat := 0
  deriving DecidableEq, Repr

/-- The machine: the commands that wait, first in, first out; the serial EEPROM behind the hub's two-wire port (chapter 11)
as (offset, byte) cells in canonical form; and the hub. -/
structure State where
  pending : List Instr := []
  eeprom : List Host.Cell := []
  hub : Hub := {}
  deriving DecidableEq, Repr

/-- Why a step faults. The spec names no command that stops the hub: a command that does not apply changes
nothing, and a request that does not apply is answered with a status. So there is no fault, and nothing raises one. -/
inductive Fault where
  deriving DecidableEq, Repr

/-- Why a step is refused. -/
inductive Refusal where
  /-- Raised by exec's arm of a row that has no meaning yet, and by nothing else (safe: the step does not happen). No
  arm raises it now. -/
  | notModelled (mnemonic : String)
  deriving DecidableEq, Repr

/-- The machine right after power-on reset (R182, R183): every setting at its built-in default, every other part at its reset
value, the load state LOADING, nothing waiting. The levels of the inputs, the strap, the image status before the first load and the
EEPROM's contents, for which the spec gives no reset value, are those of log entry 4. -/
def State.reset : State := {}

end Sys2Proof.Machine
end

