-- ==== Sys2Proof/Machine/Codes.lean ====
section
/-! DEFINITION. The encodings of R188 to R190: byte order, masks, optional fields, the codes of every enumeration, and the
codes of frame kinds, requests and notices; and the two CRCs (R189, R191). -/

namespace Sys2Proof.Machine

/-- A function applied to each record of a table. It goes through the list of the records, which Lean's kernel can evaluate. -/
def mapEach {α β : Type} {k : Nat} (f : α → β) (v : Vector α k) : Vector β k := ⟨(v.toList.map f).toArray, by simp⟩

@[simp] theorem mapEach_get {α β : Type} {k : Nat} (f : α → β) (v : Vector α k) (i : Nat) (h : i < k) : (mapEach f v)[i] = f v[i] := by
  simp [mapEach]


/-! ## Numbers and masks (R188) -/

/-- `k` bytes of an unsigned number, most significant first. -/
def be : Nat → Nat → List Byte
  | 0, _ => []
  | k + 1, v => BitVec.ofNat 8 (v / 256 ^ k) :: be k v

/-- `k` bytes of a signed number in two's complement. -/
def beInt (k : Nat) (v : Int) : List Byte := be k (v % (256 ^ k : Nat)).toNat

/-- The unsigned number that bytes spell, most significant first. -/
def ofBe (bs : List Byte) : Nat := bs.foldl (fun acc b => acc * 256 + b.toNat) 0

/-- The unsigned field of `len` bytes at `off`. -/
def fieldAt (bs : List Byte) (off len : Nat) : Nat := ofBe ((bs.drop off).take len)

/-- An unsigned `k`-byte field read as two's complement. -/
def toSigned (k v : Nat) : Int := if v < 256 ^ k / 2 then (v : Int) else (v : Int) - (256 ^ k : Nat)

/-- A tuning value clamped to its range (00_scope section 5). -/
def clampNat (lo hi v : Nat) : Nat := min hi (max lo v)

/-- A signed value clamped to ±`b`. -/
def clampInt (b v : Int) : Int := min b (max (-b) v)

/-- A slot as its number 1..12. -/
def Slot.number (n : Slot) : Nat := n.val + 1

/-- The slot of a number, when it lies in 1..12. -/
def Slot.ofNumber (v : Nat) : Option Slot := if h : 1 ≤ v ∧ v ≤ 12 then some ⟨v - 1, by omega⟩ else none

namespace Mask

/-- Membership of a slot. -/
def has (m : SlotMask) (n : Slot) : Bool := m.getLsbD n.val

/-- The mask of one slot. -/
def single (n : Slot) : SlotMask := 1#12 <<< n.val

def insert (m : SlotMask) (n : Slot) : SlotMask := m ||| single n

def erase (m : SlotMask) (n : Slot) : SlotMask := m &&& ~~~ single n

/-- The members in ascending order. -/
def slots (m : SlotMask) : List Slot := allSlots.filter (has m)

/-- The mask of the slots that satisfy a test. -/
def ofTest (p : Slot → Bool) : SlotMask := allSlots.foldl (fun m n => if p n then insert m n else m) 0

/-- R188: bit `n` of the 16-bit value stands for slot `n`. -/
def encode (m : SlotMask) : List Byte := be 2 (m.toNat * 2)

/-- R188: a 16-bit value with a bit outside slots 1..12 is no mask. -/
def ofValue (v : Nat) : Option SlotMask := if v % 2 = 0 ∧ v / 2 < 4096 then some (BitVec.ofNat 12 (v / 2)) else none

end Mask

/-- Booleans and presence bytes (R188): 1 yes, 0 no, nothing else. -/
def boolCode (b : Bool) : Nat := if b then 1 else 0

def boolOf (v : Nat) : Option Bool := if v = 0 then some false else if v = 1 then some true else none

/-- An optional field (R188): a presence byte, then the value's bytes, `size` bytes of 0 when absent. -/
def encOpt {α : Type} (size : Nat) (enc : α → List Byte) : Option α → List Byte
  | some a => be 1 1 ++ enc a
  | none => be 1 0 ++ List.replicate size 0

/-- The reading of an optional field: no value is read behind a presence byte of 0 (R188). -/
def optOf {α : Type} (presence : Nat) (value : Option α) : Option (Option α) :=
  if presence = 0 then some none else if presence = 1 then value.map some else none

/-! ## Enumerations (R188): the position in the defining list, counting from 1 -/

def codeIn {α : Type} [DecidableEq α] (l : List α) (a : α) : Nat := l.idxOf a + 1

def ofCode {α : Type} (l : List α) (v : Nat) : Option α := if v = 0 then none else l[v - 1]?

def slotStates : List SlotState :=
  [.empty, .seated, .powering, .resetHold, .linking, .identifying, .awaitingAdmit, .forwarding, .recovering, .draining,
   .off, .fenced, .faulted]

def linkStates : List LinkState := [.disabled, .training, .locked]

def powerClasses : List PowerClass := [.a, .b, .c, .d]

def cardKinds : List CardKind := [.radio, .baseband, .timingSource, .transport, .powerFan, .other]

def faultReasons : List FaultReason := [.powerFail, .linkTimeout, .noIdentity, .powerMismatch, .linkLost]

def severities : List Severity := [.critical, .major, .minor, .warning]

def alarmKinds : List AlarmKind :=
  [.linkErrors, .linkLost, .slotFault, .surpriseExtraction, .drainForced, .powerWait, .cardMismatch, .unroutable,
   .egressDrops, .timingPathLost, .phaseOutOfLimit, .cardReported, .referenceLost, .holdoverActive, .holdoverLapsed,
   .storeExhausted, .agentOverload, .configImageInvalid, .configSaveFailed, .alarmTableFull]

def actions : List Action := [.none, .fenceSlot, .withdrawPermit]

def candStatuses : List CandStatus := [.unavailable, .qualifying, .qualified]

def sweepItems : List SweepItem := [.status, .temperature, .alarmSummary, .inventory]

def sweepFailures : List SweepFailure := [.notInService, .queryNotSent, .leftService, .noAnswer, .aborted]

def imageStatuses : List ImageStatus := [.valid, .defaultsAfterFailure, .defaultsByStrap]

def loadFaults : List LoadFault := [.noAck, .badTag, .badVersion, .badLength, .badCrc, .badContent]

def saveFaults : List SaveFault := [.noAck, .readBackMismatch]

/-- The kind of reset that STARTED carries, coded as an enumeration (DESIGN CHOICE, log entry 64). -/
def resetKinds : List ResetKind := [.powerOn, .hub]

def timingReasons : List TimingReason :=
  [.selection, .sourceLeft, .lockAchieved, .lockLost, .holdoverExpired, .hostRequest]

def permitReasons : List PermitReason := [.slotState, .timeSpecification, .settled, .path, .phase, .alarmAction]

def alarmReasons : List AlarmReason := [.created, .activated, .cleared, .acknowledged, .severity]

/-- The place of a SLOT_CHANGED reason in R97's table. -/
def slotReasonCode : SlotReason → Nat
  | .inserted => 1 | .removed => 2 | .latchClosed => 3 | .latchOpened => 4 | .powerGranted => 5 | .powerGood => 6
  | .resetDone => 7 | .linkLocked => 8 | .linkLost => 9 | .identified => 10 | .autoAdmitted => 11 | .hostRequest _ => 12
  | .alarmAction => 13 | .timeout => 14 | .powerLost => 15 | .drainDone => 16 | .retry => 17

/-- FREE_RUN 1 to HOLDOVER_LAPSED 5 (R188). -/
def timingStateCode : TimingState → Nat
  | .freeRun => 1 | .acquiring _ => 2 | .locked => 3 | .holdover => 4 | .holdoverLapsed => 5

/-- FRESH 1, LOCKED 2, LAPSED 3, and 0 where the state is not ACQUIRING (R188). -/
def originCode : TimingState → Nat
  | .acquiring .fresh => 1 | .acquiring .locked => 2 | .acquiring .lapsed => 3 | _ => 0

/-- 0 EXT, 1..12 SLOT n (section 12.4). -/
def sourceCode : Source → Nat
  | .ext => 0 | .slot n => Slot.number n

def sourceOf (v : Nat) : Option Source := if v = 0 then some .ext else (Slot.ofNumber v).map .slot

/-- GRANTED 1, WITHHELD 2 (R118, R189). -/
def permitCode (granted : Bool) : Nat := if granted then 1 else 2

/-- Statuses OK 0 to UNKNOWN_REQUEST 6 (R190). -/
def statusCode : Status → Nat
  | .ok => 0 | .clamped => 1 | .badParam => 2 | .badState => 3 | .busy => 4 | .badLength => 5 | .unknownRequest => 6

/-- The place of an alarm kind in the kind table (section 8.1), counting from 0. -/
def AlarmKind.idx (k : AlarmKind) : Fin 20 := Fin.ofNat 20 (alarmKinds.idxOf k)

/-- CONTROL 1, BULK 2, both 3 (section 12.4). -/
def classFilterCode (c : ClassFilter) : Nat := boolCode c.control + 2 * boolCode c.bulk

def classFilterOf (v : Nat) : Option ClassFilter :=
  match v with
  | 1 => some ⟨true, false⟩
  | 2 => some ⟨false, true⟩
  | 3 => some ⟨true, true⟩
  | _ => none

/-- 1 TIMING, 2 CONTROL, 3 BULK; 0 is not a class (section 12.2). -/
def classCode : TrafficClass → Nat
  | .timing => 1 | .control => 2 | .bulk => 3

def classOf (v : Nat) : Option TrafficClass :=
  match v with
  | 1 => some .timing
  | 2 => some .control
  | 3 => some .bulk
  | _ => none

/-! ## Frame kinds (section 12.2), requests and notices (section 12.3) -/

namespace Kind
abbrev identify : BitVec 6 := 0x01#6
abbrev quiesce : BitVec 6 := 0x02#6
abbrev announce : BitVec 6 := 0x03#6
abbrev delayProbe : BitVec 6 := 0x04#6
abbrev permitUpdate : BitVec 6 := 0x05#6
abbrev alarmRelay : BitVec 6 := 0x06#6
abbrev sweepQuery : BitVec 6 := 0x07#6
abbrev identityReply : BitVec 6 := 0x11#6
abbrev quiesced : BitVec 6 := 0x12#6
abbrev probeReply : BitVec 6 := 0x13#6
abbrev phaseReport : BitVec 6 := 0x14#6
abbrev sourceReport : BitVec 6 := 0x15#6
abbrev cardAlarm : BitVec 6 := 0x16#6
abbrev sweepReply : BitVec 6 := 0x17#6
end Kind

namespace Code
abbrev hubInfo : Byte := 0x01#8
abbrev hubStatus : Byte := 0x02#8
abbrev hubReset : Byte := 0x03#8
abbrev slotPlanSet : Byte := 0x10#8
abbrev slotQuery : Byte := 0x11#8
abbrev slotPower : Byte := 0x12#8
abbrev slotAdmit : Byte := 0x13#8
abbrev slotRelease : Byte := 0x14#8
abbrev slotFence : Byte := 0x15#8
abbrev slotRestore : Byte := 0x16#8
abbrev slotRestart : Byte := 0x17#8
abbrev slotLinkReset : Byte := 0x18#8
abbrev budgetSet : Byte := 0x19#8
abbrev windowSet : Byte := 0x20#8
abbrev windowGet : Byte := 0x21#8
abbrev groupSet : Byte := 0x22#8
abbrev groupGet : Byte := 0x23#8
abbrev defaultTargetSet : Byte := 0x24#8
abbrev portLimitSet : Byte := 0x28#8
abbrev portCounts : Byte := 0x29#8
abbrev refListSet : Byte := 0x30#8
abbrev timingSet : Byte := 0x31#8
abbrev timingStatus : Byte := 0x32#8
abbrev timeSet : Byte := 0x33#8
abbrev slotTimingQuery : Byte := 0x34#8
abbrev asymmetrySet : Byte := 0x35#8
abbrev alarmList : Byte := 0x40#8
abbrev alarmAck : Byte := 0x41#8
abbrev alarmPurge : Byte := 0x42#8
abbrev kindSet : Byte := 0x43#8
abbrev relaySet : Byte := 0x44#8
abbrev sweep : Byte := 0x50#8
abbrev sweepAbort : Byte := 0x51#8
abbrev configSave : Byte := 0x60#8
abbrev started : Byte := 0x80#8
abbrev slotChanged : Byte := 0x81#8
abbrev timingChanged : Byte := 0x82#8
abbrev permitChanged : Byte := 0x83#8
abbrev alarmChanged : Byte := 0x84#8
/-- The type bytes of a transfer (R190). -/
abbrev writeType : Byte := 0xA1#8
abbrev readType : Byte := 0xA2#8
end Code

/-- The requests of the catalogue with the length of each one's body (section 12.3). REF_LIST_SET, whose body varies,
is judged on its own (R173). -/
def requestLengths : List (Byte × Nat) :=
  [(Code.hubInfo, 0), (Code.hubStatus, 0), (Code.hubReset, 0), (Code.slotPlanSet, 6), (Code.slotQuery, 1),
   (Code.slotPower, 1), (Code.slotAdmit, 1), (Code.slotRelease, 1), (Code.slotFence, 1), (Code.slotRestore, 1),
   (Code.slotRestart, 1), (Code.slotLinkReset, 1), (Code.budgetSet, 6), (Code.windowSet, 17), (Code.windowGet, 1),
   (Code.groupSet, 3), (Code.groupGet, 1), (Code.defaultTargetSet, 2), (Code.portLimitSet, 5), (Code.portCounts, 2),
   (Code.timingSet, 19), (Code.timingStatus, 0), (Code.timeSet, 6), (Code.slotTimingQuery, 1), (Code.asymmetrySet, 3),
   (Code.alarmList, 1), (Code.alarmAck, 6), (Code.alarmPurge, 0), (Code.kindSet, 6), (Code.relaySet, 2), (Code.sweep, 5),
   (Code.sweepAbort, 0), (Code.configSave, 0)]

/-- Whether a code names a request. -/
def isRequestCode (code : Byte) : Bool := code == Code.refListSet || requestLengths.any fun p => p.1 == code

/-- Whether a body's length is that of the request's body format (R173). -/
def bodyLengthOk (code : Byte) (body : List Byte) : Bool :=
  if code == Code.refListSet then
    fieldAt body 1 1 ≤ 4 && body.length == 2 + fieldAt body 1 1
  else requestLengths.any fun p => p.1 == code && p.2 == body.length

/-! ## CRCs -/

/-- One bit of the CRC-32 of section 12.2, most significant bit first. -/
def crc32Bit (c : BitVec 32) : BitVec 32 := if c.msb then (c <<< 1) ^^^ 0x04C11DB7#32 else c <<< 1

/-- CRC-32 (section 12.2): from FFFFFFFFh, final value complemented. -/
def crc32 (bs : List Byte) : BitVec 32 :=
  ~~~ bs.foldl (fun c b => Nat.repeat crc32Bit 8 (c ^^^ BitVec.shiftLeft (b.setWidth 32) 24)) 0xFFFFFFFF#32

/-- One bit of the CRC-16 of section 12.4. -/
def crc16Bit (c : BitVec 16) : BitVec 16 := if c.msb then (c <<< 1) ^^^ 0x1021#16 else c <<< 1

/-- CRC-16 (section 12.4): from FFFFh, no final complement. -/
def crc16 (bs : List Byte) : BitVec 16 :=
  bs.foldl (fun c b => Nat.repeat crc16Bit 8 (c ^^^ BitVec.shiftLeft (b.setWidth 16) 8)) 0xFFFF#16

end Sys2Proof.Machine
end

