-- ==== Sys2Proof/Machine/Memory.lean ====
section
/-! DEFINITION. The serial EEPROM behind the two-wire port (chapter 11): 8 KiB, as a list of (offset, byte) cells in one
canonical form: offsets strictly rising, below the size, and no cell equal to what an unlisted offset reads as. -/

namespace Sys2Proof.Machine

/-- The EEPROM holds 8 KiB (chapter 11). -/
abbrev eepromSize : Nat := 8192

/-- What an offset that nothing has written reads as: the spec gives no contents for a blank EEPROM (DESIGN CHOICE, log
entry 4). -/
abbrev blankByte : Byte := 0xFF#8

namespace Memory

/-- The canonical form from offset `lo` on. -/
def wfFrom : Nat → List Host.Cell → Bool
  | _, [] => true
  | lo, (a, b) :: rest => lo ≤ a && a < eepromSize && b != blankByte && wfFrom (a + 1) rest

/-- The canonical form. -/
def wf (m : List Host.Cell) : Bool := wfFrom 0 m

/-- The byte at an offset. -/
def read : List Host.Cell → Nat → Byte
  | [], _ => blankByte
  | (a, b) :: rest, x => if a = x then b else read rest x

/-- Write one byte of the EEPROM, keeping the canonical form. -/
def put : List Host.Cell → Nat → Byte → List Host.Cell
  | [], x, v => if v = blankByte then [] else [(x, v)]
  | (a, b) :: rest, x, v =>
    if x < a then (if v = blankByte then (a, b) :: rest else (x, v) :: (a, b) :: rest)
    else if x = a then (if v = blankByte then rest else (x, v) :: rest)
    else (a, b) :: put rest x v

/-- Write one byte: an offset outside the EEPROM holds nothing. The image lies in the first 4 KiB, so no stage of a save
asks for one. -/
def write (m : List Host.Cell) (x : Nat) (v : Byte) : List Host.Cell := if x < eepromSize then put m x v else m

/-- The `len` bytes from an offset on. -/
def bytes (m : List Host.Cell) (off : Nat) : Nat → List Byte
  | 0 => []
  | len + 1 => read m off :: bytes m (off + 1) len

/-- Writes made one after another. -/
def writeAll (m : List Host.Cell) (ws : List (Nat × Byte)) : List Host.Cell := ws.foldl (fun m w => write m w.1 w.2) m

end Memory

end Sys2Proof.Machine
end

