-- ==== Sys2Proof/Machine/Formats.lean ====
section
/-! DEFINITION. The byte formats of chapter 12: the backplane frame, the records that requests and image sections share, the
configuration image, and the bodies of replies, notices and relay frames. -/

namespace Sys2Proof.Machine

/-! ## The backplane frame (sections 1.2 and 12.2) -/

/-- The header's class byte. -/
def Frame.classByte (f : Frame) : Byte := BitVec.ofNat 8 (classCode f.cls * 64 + f.kind.toNat)

/-- Header and payload as they are sent (R13, R189). -/
def Frame.encode (f : Frame) : List Byte :=
  [f.classByte, f.source, f.flags, f.sequence] ++ be 4 f.dest.toNat ++ be 2 f.payload.length ++ be 2 f.tag.toNat
    ++ f.payload

/-- The bytes on the wire: header, payload and a freshly computed CRC-32 (R13). -/
def Frame.wire (f : Frame) : List Byte := f.encode ++ be 4 (crc32 f.encode).toNat

/-- The integrity check of R7: the frame when none of its five faults holds. -/
def Frame.check (bs : List Byte) : Option Frame :=
  let len := fieldAt bs 8 2
  if bs.length < 16 then none
  else if 1024 < len then none
  else if bs.length ≠ 16 + len then none
  else if fieldAt bs (12 + len) 4 ≠ (crc32 (bs.take (12 + len))).toNat then none
  else
    match classOf (fieldAt bs 0 1 / 64) with
    | none => none
    | some cls =>
      some { cls, kind := BitVec.ofNat 6 (fieldAt bs 0 1), source := bs.getD 1 0, flags := bs.getD 2 0,
             sequence := bs.getD 3 0, dest := BitVec.ofNat 32 (fieldAt bs 4 4), tag := BitVec.ofNat 16 (fieldAt bs 10 2),
             payload := (bs.drop 12).take len }

/-- The stored length in blocks of 64 bytes, rounded up (section 1.2). -/
def Frame.blocks (f : Frame) : Nat := (12 + f.payload.length + 63) / 64

/-- The hub agent range FFFFF000h..FFFFFFFFh (00_scope section 6). -/
def inAgentRange (a : BitVec 32) : Bool := 0xFFFFF000 ≤ a.toNat

/-- The frame the agent builds (R161): source 0, card tag 0, destination FFFFF000h plus the target slot number. -/
def agentFrame (cls : TrafficClass) (kind : BitVec 6) (flags sequence : Byte) (n : Slot) (payload : List Byte) : Frame :=
  { cls, kind, source := 0, flags, sequence, dest := BitVec.ofNat 32 (0xFFFFF000 + Slot.number n), tag := 0, payload }

/-! ## Times -/

/-- The frame number of the last frame boundary at or before a hub time (00_scope section 5). -/
def HubTime.frame (t : HubTime) : Nat := (t.sec * 100 + t.ns / nsPerFrame) % 1024

def encTime (t : HubTime) : List Byte := be 6 t.sec ++ be 4 t.ns

def encStamp (t : Stamp) : List Byte := be 6 t.sec ++ be 2 t.frame

/-! ## Records shared by requests and image sections (section 12.4) -/

def encPlan (p : PlanEntry) : List Byte :=
  be 1 (boolCode p.expected) ++ encOpt 1 (fun k => be 1 (codeIn cardKinds k)) p.kind ++ be 1 (boolCode p.autoAdmit)
    ++ be 1 p.retryLimit

/-- A plan entry of 5 bytes, its retry limit not yet clamped; none when a code lies outside its set (R78). -/
def parsePlan (bs : List Byte) : Option PlanEntry := do
  let expected ← boolOf (fieldAt bs 0 1)
  let kind ← optOf (fieldAt bs 1 1) (ofCode cardKinds (fieldAt bs 2 1))
  let autoAdmit ← boolOf (fieldAt bs 3 1)
  pure { expected, kind, autoAdmit, retryLimit := fieldAt bs 4 1 }

def PlanEntry.clamp (p : PlanEntry) : PlanEntry := { p with retryLimit := clampNat 0 3 p.retryLimit }

def encTarget : Target → List Byte
  | .slot n => be 1 1 ++ be 1 (Slot.number n)
  | .group g => be 1 2 ++ be 1 (g.val + 1)

def groupOf (v : Nat) : Option (Fin 16) := if h : 1 ≤ v ∧ v ≤ 16 then some ⟨v - 1, by omega⟩ else none

/-- A target of kind SLOT 1 or GROUP 2 with its number (R28). -/
def targetOf (kind number : Nat) : Option Target :=
  match kind with
  | 1 => (Slot.ofNumber number).map .slot
  | 2 => (groupOf number).map .group
  | _ => none

/-- The number of addresses of a window (section 2.1). -/
def Window.size (w : Window) : Nat := 2 ^ w.sizeExp

def encWindow (w : Window) : List Byte :=
  be 1 (boolCode w.enabled) ++ be 4 w.base.toNat ++ be 1 w.sizeExp ++ encTarget w.target
    ++ encOpt 4 (fun r => be 4 r.toNat) w.remap ++ be 1 (classFilterCode w.classes) ++ Mask.encode w.sources

/-- A window entry of 16 bytes; none when R28 refuses it. -/
def parseWindow (bs : List Byte) : Option Window := do
  let enabled ← boolOf (fieldAt bs 0 1)
  let base := fieldAt bs 1 4
  let exp := fieldAt bs 5 1
  let target ← targetOf (fieldAt bs 6 1) (fieldAt bs 7 1)
  let remap ← optOf (fieldAt bs 8 1) (some (fieldAt bs 9 4))
  let classes ← classFilterOf (fieldAt bs 13 1)
  let sources ← Mask.ofValue (fieldAt bs 14 2)
  if exp < 8 || 31 < exp then none
  else if base % 2 ^ exp != 0 then none
  else if remap.any (fun r => r % 2 ^ exp != 0) then none
  else pure { enabled, base := BitVec.ofNat 32 base, sizeExp := exp, target, remap := remap.map (BitVec.ofNat 32), classes, sources }

/-- A default target of 2 bytes: kind and number. The number byte of NONE, which a receiver does not read, is sent as 0, as R188 has it of what a
format marks unused (DESIGN CHOICE, log entry 78). -/
def encDefaultTarget : DefaultTarget → List Byte
  | none => be 1 1 ++ be 1 0
  | some (.slot n) => be 1 2 ++ be 1 (Slot.number n)
  | some (.group g) => be 1 3 ++ be 1 (g.val + 1)

/-- A default target record of 2 bytes: NONE 1, SLOT 2, GROUP 3; the number is not read for NONE (R32). -/
def parseDefaultTarget (bs : List Byte) : Option DefaultTarget :=
  match fieldAt bs 0 1 with
  | 1 => some none
  | 2 => (Slot.ofNumber (fieldAt bs 1 1)).map fun n => some (.slot n)
  | 3 => (groupOf (fieldAt bs 1 1)).map fun g => some (.group g)
  | _ => none

def encPortLimit (p : PortLimit) : List Byte := be 2 p.limit ++ be 2 p.threshold

def parsePortLimit (bs : List Byte) : PortLimit := { limit := fieldAt bs 0 2, threshold := fieldAt bs 2 2 }

/-- R41, section 1.4: the port limit to 17..1,984, the threshold to 1..1,000. -/
def PortLimit.clamp (p : PortLimit) : PortLimit :=
  { limit := clampNat 17 1984 p.limit, threshold := clampNat 1 1000 p.threshold }

def encTimingParams (p : TimingParams) : List Byte :=
  be 1 p.q ++ be 4 p.holdoverLimit ++ be 2 p.slewLimit ++ be 2 p.lockWindow ++ be 2 p.unlockThreshold ++ be 2 p.cableDelay
    ++ be 1 p.announceInterval ++ be 1 p.slewStep ++ be 4 p.phaseLimit

def parseTimingParams (bs : List Byte) : TimingParams :=
  { q := fieldAt bs 0 1, holdoverLimit := fieldAt bs 1 4, slewLimit := fieldAt bs 5 2, lockWindow := fieldAt bs 7 2,
    unlockThreshold := fieldAt bs 9 2, cableDelay := fieldAt bs 11 2, announceInterval := fieldAt bs 13 1,
    slewStep := fieldAt bs 14 1, phaseLimit := fieldAt bs 15 4 }

/-- The ranges of R115; the unlock threshold is clamped against the lock window applied. -/
def TimingParams.clamp (p : TimingParams) : TimingParams :=
  let lockWindow := clampNat 20 1000 p.lockWindow
  { q := clampNat 1 60 p.q, holdoverLimit := clampNat 60 86400 p.holdoverLimit, slewLimit := clampNat 10 1000 p.slewLimit,
    lockWindow, unlockThreshold := clampNat lockWindow 10000 p.unlockThreshold, cableDelay := clampNat 0 10000 p.cableDelay,
    announceInterval := clampNat 1 100 p.announceInterval, slewStep := clampNat 1 255 p.slewStep,
    phaseLimit := clampNat 100 100000 p.phaseLimit }

/-- The cabinet budget, the recovery window and the drain timeout (R61, R80). -/
structure BudgetRec where
  budget : Nat
  recoveryWindow : Nat
  drainTimeout : Nat
  deriving DecidableEq, Repr

def encBudget (b : BudgetRec) : List Byte := be 2 b.budget ++ be 2 b.recoveryWindow ++ be 2 b.drainTimeout

def parseBudget (bs : List Byte) : BudgetRec :=
  { budget := fieldAt bs 0 2, recoveryWindow := fieldAt bs 2 2, drainTimeout := fieldAt bs 4 2 }

def BudgetRec.clamp (b : BudgetRec) : BudgetRec :=
  { budget := clampNat 100 2000 b.budget, recoveryWindow := clampNat 50 2000 b.recoveryWindow,
    drainTimeout := clampNat 100 5000 b.drainTimeout }

/-- Whether a kind is slot-sourced (section 8.1). -/
def AlarmKind.slotSourced : AlarmKind → Bool
  | .linkErrors | .linkLost | .slotFault | .surpriseExtraction | .drainForced | .powerWait | .cardMismatch | .unroutable
  | .egressDrops | .timingPathLost | .phaseOutOfLimit | .cardReported => true
  | .referenceLost | .holdoverActive | .holdoverLapsed | .storeExhausted | .agentOverload | .configImageInvalid
  | .configSaveFailed | .alarmTableFull => false

def encKindEntry (k : KindEntry) : List Byte :=
  encOpt 1 (fun s => be 1 (codeIn severities s)) k.severity ++ be 1 (boolCode k.notify) ++ be 1 (codeIn actions k.action)
    ++ be 1 (boolCode k.relay)

/-- A kind entry of 5 bytes; none when R153 refuses it for the kind. -/
def parseKindEntry (kind : AlarmKind) (bs : List Byte) : Option KindEntry := do
  let severity ← optOf (fieldAt bs 0 1) (ofCode severities (fieldAt bs 1 1))
  let notify ← boolOf (fieldAt bs 2 1)
  let action ← ofCode actions (fieldAt bs 3 1)
  let relay ← boolOf (fieldAt bs 4 1)
  if action = .fenceSlot && !kind.slotSourced then none else pure { severity, notify, action, relay }

def encRelay (r : Option Slot) : List Byte := encOpt 1 (fun n => be 1 (Slot.number n)) r

/-- A relay slot record of 2 bytes: a flag and a slot number, not read behind a clear flag (R154). -/
def parseRelay (bs : List Byte) : Option (Option Slot) := optOf (fieldAt bs 0 1) (Slot.ofNumber (fieldAt bs 1 1))

/-- The sources a candidates record names, `count` of them from offset 2 on (R114, R191). -/
def parseSources (bs : List Byte) : Nat → Nat → Option (List Source)
  | _, 0 => some []
  | off, count + 1 => do
    let src ← sourceOf (fieldAt bs off 1)
    let rest ← parseSources bs (off + 1) count
    if rest.contains src then none else pure (src :: rest)

/-- A candidates record: revertive, count, sources; none for a code outside its set or a source listed twice (R114), and for a count above 4,
which a request cannot bring here (R173 finds BAD_LENGTH) and which makes an image BAD_CONTENT (DESIGN CHOICE, log entry 76). -/
def parseCandidates (bs : List Byte) : Option (Bool × List Source) := do
  let revertive ← boolOf (fieldAt bs 0 1)
  if 4 < fieldAt bs 1 1 then none
  else
    let sources ← parseSources bs 2 (fieldAt bs 1 1)
    pure (revertive, sources)

/-- A candidates record as the image holds it: four source bytes, those beyond the count unused and 0 (R188, R191). -/
def encCandidates (revertive : Bool) (sources : List Source) : List Byte :=
  be 1 (boolCode revertive) ++ be 1 sources.length
    ++ ((sources.map fun s => BitVec.ofNat 8 (sourceCode s)) ++ List.replicate 4 0).take 4

/-- An asymmetry in half-ns; none outside −4,000..+4,000 (R130). -/
def parseAsymmetry (bs : List Byte) : Option Int :=
  let a := toSigned 2 (fieldAt bs 0 2)
  if a < -4000 ∨ 4000 < a then none else some a

/-! ## The configuration image (section 12.4) -/

/-- The format tag, the version the part reads and writes, and the length CONFIG_SAVE writes. -/
abbrev imageTag : Nat := 0x47423431
abbrev imageVersion : Nat := 3
abbrev imageLength : Nat := 821
abbrev imageMaxLength : Nat := 4096

/-- The image up to its CRC: header and sections in their order (R191). -/
def imageBody (s : Settings) : List Byte :=
  be 4 imageTag ++ be 2 imageVersion ++ be 2 imageLength
    ++ s.tables.plan.toList.flatMap encPlan
    ++ encBudget ⟨s.tables.budget, s.tables.recoveryWindow, s.tables.drainTimeout⟩
    ++ s.tables.windows.toList.flatMap encWindow
    ++ s.tables.groups.toList.flatMap Mask.encode
    ++ encDefaultTarget s.tables.defaultTarget
    ++ s.tables.ports.toList.flatMap encPortLimit
    ++ encCandidates s.tables.revertive s.sources
    ++ encTimingParams s.tables.timing
    ++ s.tables.asymmetry.toList.flatMap (beInt 2)
    ++ s.tables.kinds.toList.flatMap encKindEntry
    ++ encRelay s.tables.relay

/-- The two CRC bytes that end an image. -/
def imageCrc (s : Settings) : List Byte := be 2 (crc16 (imageBody s)).toNat

/-- `k` records of `size` bytes each, from an offset on, all of which must parse. -/
def parseMany {α : Type} (parse : List Byte → Option α) (size : Nat) (bs : List Byte) (off : Nat) (k : Nat) :
    Option (Vector α k) :=
  match (List.range k).mapM fun i => parse ((bs.drop (off + i * size)).take size) with
  | none => none
  | some l => if h : l.length = k then some ⟨l.toArray, by simpa using h⟩ else none

/-- The kind entries of an image, in kind code order. -/
def parseKinds (bs : List Byte) (off : Nat) : Option (Vector KindEntry 20) :=
  match alarmKinds.mapM fun k => parseKindEntry k ((bs.drop (off + k.idx.val * 5)).take 5) with
  | none => none
  | some l => if h : l.length = 20 then some ⟨l.toArray, by simpa using h⟩ else none

/-- The sections of an image: none when a structural value is one that its request would refuse (BAD_CONTENT); tuning
values are clamped as their requests would clamp them (R183). -/
def parseSections (bs : List Byte) : Option Settings := do
  let plan ← parseMany parsePlan 5 bs 8 12
  let b := (parseBudget ((bs.drop 68).take 6)).clamp
  let windows ← parseMany parseWindow 16 bs 74 32
  let groups ← parseMany (fun r => Mask.ofValue (fieldAt r 0 2)) 2 bs 586 16
  let defaultTarget ← parseDefaultTarget ((bs.drop 618).take 2)
  let ports ← parseMany (fun r => some (parsePortLimit r)) 4 bs 620 12
  let cands ← parseCandidates ((bs.drop 668).take 6)
  let timing := (parseTimingParams ((bs.drop 674).take 19)).clamp
  let asymmetry ← parseMany parseAsymmetry 2 bs 693 12
  let kinds ← parseKinds bs 717
  let relay ← parseRelay ((bs.drop 817).take 2)
  pure {
    tables := {
      plan := mapEach PlanEntry.clamp plan, budget := b.budget, recoveryWindow := b.recoveryWindow,
      drainTimeout := b.drainTimeout, windows, groups, defaultTarget, ports := mapEach PortLimit.clamp ports,
      revertive := cands.1, timing, asymmetry, kinds, relay }
    sources := cands.2 }

/-- The judgment of a load over what the EEPROM holds, in R183's order, every byte acknowledged. -/
def judgeImage (m : List Host.Cell) : LoadFault ⊕ Settings :=
  let head := Memory.bytes m 0 8
  let length := fieldAt head 6 2
  if fieldAt head 0 4 ≠ imageTag then .inl .badTag
  else if fieldAt head 4 2 ≠ imageVersion then .inl .badVersion
  else if length < imageLength ∨ imageMaxLength < length then .inl .badLength
  else
    let bs := Memory.bytes m 0 length
    if fieldAt bs (length - 2) 2 ≠ (crc16 (bs.take (length - 2))).toNat then .inl .badCrc
    else
      match parseSections bs with
      | none => .inl .badContent
      | some s => .inr s

/-- Where the CRC field of the stored image stands: the last two bytes of the stored length, and of 821 when the
stored length is not one an image can have (R186; log entry 10). -/
def crcOffset (m : List Host.Cell) : Nat :=
  let length := fieldAt (Memory.bytes m 6 2) 0 2
  (if length < imageLength ∨ imageMaxLength < length then imageLength else length) - 2

/-- The stored image has a length that an image can have, and its CRC field agrees with the bytes before it (R183, R186). -/
def crcMatches (m : List Host.Cell) : Bool :=
  let length := fieldAt (Memory.bytes m 6 2) 0 2
  imageLength ≤ length && length ≤ imageMaxLength &&
    fieldAt (Memory.bytes m (length - 2) 2) 0 2 == (crc16 (Memory.bytes m 0 (length - 2))).toNat

/-- The bytes of the first three stages of a save, in the order they are written (R186). -/
def saveSequence (m : List Host.Cell) (s : Settings) : List (Nat × Byte) :=
  let off := crcOffset m
  [(off, ~~~ Memory.read m off), (off + 1, ~~~ Memory.read m (off + 1))]
    ++ ((imageBody s ++ imageCrc s).zipIdx.map fun p => (p.2, p.1))

/-! ## Bodies of replies, notices and relay frames (R188; widths of numbers no table lays out: log entry 11) -/

def encTimingState (t : TimingState) : List Byte := be 1 (timingStateCode t) ++ be 1 (originCode t)

def encSource (s : Source) : List Byte := be 1 (sourceCode s)

def encSlots (l : List Slot) : List Byte := be 1 l.length ++ l.flatMap fun n => be 1 (Slot.number n)

def encText (l : List Byte) : List Byte := be 1 l.length ++ l

def encCounter (count : Counter) : List Byte := be 4 count.toNat

def capsByte (c : Caps) : List Byte := be 1 (boolCode c.timeSink + 2 * boolCode c.timeSource + 4 * boolCode c.radiates)

def encIdentity (i : Identity) : List Byte :=
  be 1 (codeIn cardKinds i.kind) ++ be 2 i.code.toNat ++ [i.revision] ++ be 1 (codeIn powerClasses i.declared)
    ++ capsByte i.caps ++ encText i.serial

/-- The levels of the five cabinet outputs, 1 for asserted and 0 for not (DESIGN CHOICE, log entry 65). -/
def encLamps (l : Lamps) : List Byte :=
  be 1 (boolCode l.crit) ++ be 1 (boolCode l.maj) ++ be 1 (boolCode l.min) ++ be 1 (boolCode l.aud) ++ be 1 (boolCode l.cabOk)

/-- The parts of R55 in its order: ABSENT 1, PRESENT 2; OPEN 1, CLOSED 2. Seven bytes of 0 stand for an absent identity (DESIGN
CHOICE, log entries 31 and 44). -/
def encSlotRec (r : SlotRec) : List Byte :=
  be 1 (codeIn slotStates r.state) ++ be 1 (1 + boolCode r.presence) ++ be 1 (1 + boolCode r.latchClosed)
    ++ encOpt 1 (fun cls => be 1 (codeIn powerClasses cls)) r.powerClass ++ encOpt 7 encIdentity r.identity
    ++ encOpt 1 (fun f => be 1 (codeIn faultReasons f)) r.fault ++ be 1 r.retries ++ encStamp r.entry ++ be 1 r.attempt
    ++ be 1 (boolCode r.autoAdmit) ++ encOpt 10 encTime r.waitStart ++ be 1 (boolCode r.quiesced)

def encCandidate (c : Candidate) : List Byte :=
  encSource c.source ++ be 1 (codeIn candStatuses c.status) ++ be 1 c.count

def encCandidateFull (c : Candidate) : List Byte := encCandidate c ++ encOpt 10 (beInt 10) c.lastOffset

/-- The key of a record: source, kind, detail. -/
def encKey (k : AlarmKey) : List Byte :=
  be 1 ((k.source.map Slot.number).getD 0) ++ be 1 (codeIn alarmKinds k.kind) ++ be 2 k.detail.toNat

/-- The fields an ALARM_CHANGED notice and an ALARM_RELAY frame share, in the order of section 12.2. -/
def encAlarmChange (position : Nat) (r : AlarmRec) (reason : AlarmReason) : List Byte :=
  be 1 position ++ encKey r.key ++ be 1 (codeIn severities r.severity) ++ be 1 (if r.active then 1 else 2)
    ++ be 1 (boolCode r.acked) ++ be 1 r.occurrences ++ encStamp r.firstRaised ++ encStamp r.lastChange
    ++ be 1 (codeIn alarmReasons reason)

/-- A record of ALARM_LIST: its position and every field of R139. -/
def encAlarmRec (p : Nat × AlarmRec) : List Byte :=
  be 1 p.1 ++ encKey p.2.key ++ be 1 (codeIn severities p.2.severity)
    ++ encOpt 1 (fun s => be 1 (codeIn severities s)) p.2.reported ++ be 1 (if p.2.active then 1 else 2)
    ++ be 1 (boolCode p.2.acked) ++ encStamp p.2.firstRaised ++ encStamp p.2.lastChange ++ be 1 p.2.occurrences

def encCounters (c : PortCounters) : List Byte :=
  [c.framesReceived, c.framesSent, c.errored, c.classViolations, c.sourceNotInService, c.unroutable, c.noReachableTarget,
   c.unreachable, c.portLimitDrops, c.storeFull, c.purged, c.aborted].flatMap encCounter

/-- The five inputs of R133, in its order. -/
def encInputs (i : PermitInputs) : List Byte :=
  [i.forwarding && i.radiates, i.inSpec, i.settled, i.phaseOk && i.pathOk, i.noAlarm].flatMap fun b => be 1 (boolCode b)

/-- The body of HUB_STATUS's reply (R178). The discard counters go slot by slot, a slot's form discards and then its state discards (DESIGN
CHOICE, log entry 62); the selection is its source (DESIGN CHOICE, log entry 46). -/
def encHubStatus (b : HubStatusBody) : List Byte :=
  encTime b.now ++ be 2 b.now.frame ++ encTimingState b.timing ++ be 1 (boolCode b.inSpec) ++ encOpt 1 encSource b.selection
    ++ b.states.toList.flatMap (fun s => be 1 (codeIn slotStates s)) ++ be 2 b.budget ++ be 2 b.committed
    ++ encSlots b.waitList ++ encDefaultTarget b.defaultTarget ++ be 2 b.freeShared ++ be 1 b.freeReserve ++ be 1 b.inboxCount
    ++ encCounter b.inboxOverflows ++ encCounter b.reserveRefusals
    ++ allSlots.flatMap (fun n => encCounter b.formDiscards[n] ++ encCounter b.stateDiscards[n])
    ++ be 1 (boolCode b.sweepInFlight) ++ [b.sweepNumber, b.nextSweepNumber]
    ++ be 1 (boolCode b.saving) ++ encLamps b.lamps ++ be 1 b.records ++ be 1 b.activeRecords ++ be 1 b.openCount
    ++ be 1 b.replies ++ be 1 b.notices ++ be 1 (boolCode b.overrun) ++ be 1 (boolCode b.noticesLost)
    ++ encCounter b.requestsDiscarded ++ encCounter b.noticesDiscarded ++ encCounter b.lengthErrors
    ++ encCounter b.truncatedWrites

/-- The body of SLOT_QUERY's reply (R79), the time waited modulo 2^32 ms (DESIGN CHOICE, log entry 66). The codes of the raw levels, the order
of the two PCODE pins, PCODE1 then PCODE0, and the time waited as an optional field are the model's (DESIGN CHOICE, log entry 44). -/
def encSlotQuery (b : SlotQueryBody) : List Byte :=
  encSlotRec b.record ++ encPlan b.plan ++ be 1 b.place ++ encOpt 4 (be 4) b.waited ++ be 1 (codeIn linkStates b.link)
    ++ be 1 (boolCode b.record.rawPresent) ++ be 1 (boolCode b.record.rawLatch) ++ be 1 (boolCode b.record.pwrGood)
    ++ be 1 (b.record.pcode.toNat / 2) ++ be 1 (b.record.pcode.toNat % 2) ++ be 2 b.budget ++ be 2 b.committed
    ++ encSlots b.waitList

/-- The body of PORT_COUNTS's reply (R52). The number of frames in the two pending lists is sent as one number for each list, CONTROL then
BULK (DESIGN CHOICE, log entry 51). -/
def encPortCounts (b : PortCountsBody) : List Byte :=
  encCounters b.counters ++ be 2 b.occupancy ++ be 2 b.limits.limit ++ be 2 b.limits.threshold ++ be 2 b.timingEntries
    ++ be 2 b.controlEntries ++ be 2 b.bulkEntries ++ be 1 (boolCode b.identify) ++ be 1 b.pendControl ++ be 1 b.pendBulk
    ++ be 2 b.freeShared ++ be 1 b.freeReserve

/-- The body of TIMING_STATUS's reply (R117). The selection is its source, without its priority (DESIGN CHOICE, log entry 46); the pending
time setting is sent as an optional field (DESIGN CHOICE, log entry 60), and no previous pulse as one that is not good (DESIGN CHOICE, log
entry 69). -/
def encTimingStatus (b : TimingStatusBody) : List Byte :=
  encTime b.now ++ be 2 b.now.frame ++ encTimingState b.timing.state ++ be 1 (boolCode b.inSpec) ++ be 4 b.timing.holdover
    ++ be 4 b.params.holdoverLimit ++ be 1 b.timing.lockCount ++ be 1 b.timing.unlockCount
    ++ encOpt 1 encSource b.timing.selection ++ be 1 b.timing.cands.length ++ b.timing.cands.flatMap encCandidateFull
    ++ be 1 (boolCode b.revertive) ++ beInt 2 b.timing.correction ++ be 1 (boolCode b.timeStepped)
    ++ encOpt 6 (be 6) b.timing.pendingTime ++ be 1 (boolCode (b.timing.pulse.any (·.good))) ++ encTimingParams b.params

/-- The body of SLOT_TIMING_QUERY's reply (R131). The probe window, which R131 names twice, is sent once, at its place in the timing record
of R118, and the capability set whole and as an optional field (DESIGN CHOICE, log entry 54). R, the least window value, is sent as an
optional field, absent when the window is empty (DESIGN CHOICE, log entry 60). -/
def encSlotTiming (b : SlotTimingBody) : List Byte :=
  let r := b.record
  [r.sequence] ++ encOpt 12 (fun p => [p.sequence] ++ encOpt 10 encTime p.t1) r.probe
    ++ be 1 r.window.length ++ r.window.flatMap (be 2) ++ encOpt 2 (be 2) r.target ++ encOpt 2 (be 2) r.applied
    ++ beInt 2 b.asymmetry ++ be 1 r.misses ++ be 1 (boolCode r.pathLost) ++ be 1 r.phaseOut ++ be 1 r.phaseIn
    ++ be 1 (boolCode r.phaseCond) ++ encOpt 4 (beInt 4) r.lastPhase ++ be 1 (permitCode r.granted)
    ++ encCounter r.accepted ++ encCounter r.rejected ++ encCounter r.stale
    ++ encOpt 2 (be 2) b.least ++ be 1 (boolCode b.eligible) ++ be 1 (boolCode b.settled) ++ encOpt 1 capsByte b.caps
    ++ encInputs b.inputs ++ be 1 b.announceCount ++ be 1 b.announceInterval

/-- The body of ALARM_LIST's reply (R155). The next position is sent as an optional field, whose presence byte of 0 is the mark that the list
has reached its end (DESIGN CHOICE, log entry 60). -/
def encAlarmList (b : AlarmListBody) : List Byte :=
  be 1 b.page.length ++ b.page.flatMap encAlarmRec ++ be 1 b.records ++ be 1 (boolCode b.fullHeld)
    ++ encOpt 1 (be 1) b.next ++ encCounter b.changeNumber ++ be 1 b.activeCritical ++ be 1 b.activeMajor
    ++ be 1 b.activeMinor ++ be 1 b.activeWarning ++ be 1 b.unacked ++ encLamps b.lamps ++ encRelay b.relay

/-- The set of failed slots (R168). -/
def Sweep.remaining (w : Sweep) : SlotMask := w.failures.foldl (fun m p => Mask.insert m p.1) 0

/-- The body of the sweep's reply (R168). -/
def Sweep.body (w : Sweep) : SweepBody :=
  { number := w.number, item := w.item, requested := w.requested, results := w.results, remaining := w.remaining,
    failures := w.failures, firstFailed := (Mask.slots w.remaining).head?, timeout := w.timeout }

/-- The body of SWEEP's reply (R168). The first failed slot is sent as an optional field (DESIGN CHOICE, log entry 60). -/
def encSweep (b : SweepBody) : List Byte :=
  [b.number] ++ be 1 (codeIn sweepItems b.item) ++ Mask.encode b.requested
    ++ be 1 b.results.length ++ b.results.flatMap (fun p => be 1 (Slot.number p.1) ++ encText p.2)
    ++ Mask.encode b.remaining
    ++ be 1 b.failures.length ++ b.failures.flatMap (fun p => be 1 (Slot.number p.1) ++ be 1 (codeIn sweepFailures p.2))
    ++ encOpt 1 (fun n => be 1 (Slot.number n)) b.firstFailed ++ be 2 b.timeout

/-! ## The body of a refusal for which no rule names a value: the request's reply format with free values (R176, log entry 5) -/

/-- `k` free bytes of one draw, from place `i` on. -/
def freeBytes (draw i k : Nat) : List Byte := (List.range k).map fun j => Config.freeByte draw (i + j)

/-- A part of a format with free values: from a draw and the place of the next free byte, the bytes and the place after. -/
abbrev FreePart := Nat → Nat → List Byte × Nat

/-- A field that a function encodes from the number that `k` free bytes spell. -/
def FreePart.value (k : Nat) (enc : Nat → List Byte) : FreePart := fun draw i => (enc (ofBe (freeBytes draw i k)), i + k)

/-- An unsigned number of `k` bytes. -/
def FreePart.num (k : Nat) : FreePart := FreePart.value k (be k)

/-- One of at most 256 alternatives. -/
def FreePart.oneOf (l : List (List Byte)) : FreePart := FreePart.value 1 fun v => l.getD (v % l.length) []

/-- A number of one byte from `least` to `most`. -/
def FreePart.within (least most : Nat) : FreePart := FreePart.value 1 fun v => be 1 (least + v % (most - least + 1))

/-- A code of an enumeration (R188). -/
def FreePart.code {α : Type} (l : List α) : FreePart := FreePart.within 1 l.length

def FreePart.bool : FreePart := FreePart.within 0 1

def FreePart.slot : FreePart := FreePart.within 1 12

def FreePart.mask : FreePart := FreePart.value 2 fun v => Mask.encode (BitVec.ofNat 12 v)

/-- One part after another. -/
def FreePart.seq : List FreePart → FreePart
  | [] => fun _ i => ([], i)
  | p :: rest => fun draw i =>
    let first := p draw i
    let others := FreePart.seq rest draw first.2
    (first.1 ++ others.1, others.2)

/-- An optional field of `size` bytes when absent (R188). -/
def FreePart.opt (size : Nat) (p : FreePart) : FreePart := fun draw i =>
  if (Config.freeByte draw i).toNat % 2 = 1 then
    let value := p draw (i + 1)
    (be 1 1 ++ value.1, value.2)
  else (be 1 0 ++ List.replicate size 0, i + 1)

/-- A list of `least` to `most` items behind its count (R188). -/
def FreePart.many (least most : Nat) (item : FreePart) : FreePart := fun draw i =>
  let count := least + (Config.freeByte draw i).toNat % (most - least + 1)
  let items := FreePart.seq (List.replicate count item) draw (i + 1)
  (be 1 count ++ items.1, items.2)

def FreePart.time : FreePart := FreePart.seq [FreePart.num 6, FreePart.value 4 fun v => be 4 (v % nsPerSec)]

def FreePart.stamp : FreePart := FreePart.seq [FreePart.num 6, FreePart.value 2 fun v => be 2 (v % 1024)]

def FreePart.timingState : FreePart :=
  FreePart.oneOf (([.freeRun, .acquiring .fresh, .acquiring .locked, .acquiring .lapsed, .locked, .holdover, .holdoverLapsed]
    : List TimingState).map encTimingState)

/-- An asymmetry of −4,000..+4,000 (R130). -/
def FreePart.asymmetry : FreePart := FreePart.value 2 fun v => beInt 2 ((v % 8001 : Nat) - 4000)

def FreePart.source : FreePart := FreePart.within 0 12

def FreePart.lamps : FreePart := FreePart.seq (List.replicate 5 FreePart.bool)

/-- The five inputs of a permit (R133). -/
def FreePart.inputs : FreePart := FreePart.seq (List.replicate 5 FreePart.bool)

/-- The parts of `encPlan`. -/
def FreePart.plan : FreePart :=
  FreePart.seq [FreePart.bool, FreePart.opt 1 (FreePart.code cardKinds), FreePart.bool, FreePart.within 0 3]

/-- The parts of `encWindow`: the target a slot or a group, the class filter one of its three codes. -/
def FreePart.window : FreePart :=
  FreePart.seq [FreePart.bool, FreePart.num 4, FreePart.within 8 31,
    FreePart.oneOf ((allSlots.map Target.slot ++ (List.finRange 16).map Target.group).map encTarget),
    FreePart.opt 4 (FreePart.num 4), FreePart.within 1 3, FreePart.mask]

def FreePart.defaultTarget : FreePart :=
  FreePart.oneOf ((none :: (allSlots.map Target.slot ++ (List.finRange 16).map Target.group).map some).map encDefaultTarget)

/-- The parts of `encIdentity`. -/
def FreePart.identity : FreePart :=
  FreePart.seq [FreePart.code cardKinds, FreePart.num 2, FreePart.num 1, FreePart.code powerClasses, FreePart.within 0 7,
    FreePart.many 0 16 (FreePart.num 1)]

/-- The parts of `encSlotRec`. -/
def FreePart.slotRec : FreePart :=
  FreePart.seq [FreePart.code slotStates, FreePart.within 1 2, FreePart.within 1 2, FreePart.opt 1 (FreePart.code powerClasses),
    FreePart.opt 7 FreePart.identity, FreePart.opt 1 (FreePart.code faultReasons), FreePart.num 1, FreePart.stamp, FreePart.num 1,
    FreePart.bool, FreePart.opt 10 FreePart.time, FreePart.bool]

/-- The parts of `encSlotQuery`. -/
def FreePart.slotQuery : FreePart :=
  FreePart.seq [FreePart.slotRec, FreePart.plan, FreePart.within 0 12, FreePart.opt 4 (FreePart.num 4), FreePart.code linkStates,
    FreePart.bool, FreePart.bool, FreePart.bool, FreePart.bool, FreePart.bool, FreePart.num 2, FreePart.num 2,
    FreePart.many 0 12 FreePart.slot]

/-- The parts of REF_LIST_SET's reply: 0 to 4 candidates, the selection, the timing state. -/
def FreePart.refList : FreePart :=
  FreePart.seq [FreePart.many 0 4 (FreePart.seq [FreePart.source, FreePart.code candStatuses, FreePart.within 0 60]),
    FreePart.opt 1 FreePart.source, FreePart.timingState]

/-- The parts of `encSlotTiming`. -/
def FreePart.slotTiming : FreePart :=
  FreePart.seq [FreePart.num 1, FreePart.opt 12 (FreePart.seq [FreePart.num 1, FreePart.opt 10 FreePart.time]),
    FreePart.many 0 8 (FreePart.num 2), FreePart.opt 2 (FreePart.num 2), FreePart.opt 2 (FreePart.num 2), FreePart.asymmetry,
    FreePart.num 1, FreePart.bool, FreePart.num 1, FreePart.num 1, FreePart.bool, FreePart.opt 4 (FreePart.num 4),
    FreePart.within 1 2, FreePart.num 4, FreePart.num 4, FreePart.num 4, FreePart.opt 2 (FreePart.num 2), FreePart.bool,
    FreePart.bool, FreePart.opt 1 (FreePart.within 0 7), FreePart.inputs, FreePart.num 1,
    FreePart.within 1 100]

/-- The parts of `encKey`: a source of the kind's own type. -/
def FreePart.key : FreePart :=
  FreePart.seq [FreePart.oneOf (alarmKinds.flatMap fun k =>
      (if k.slotSourced then allSlots.map Slot.number else [0]).map fun n => be 1 n ++ be 1 (codeIn alarmKinds k)),
    FreePart.num 2]

/-- The parts of `encAlarmRec`. -/
def FreePart.alarmRec : FreePart :=
  FreePart.seq [FreePart.within 0 63, FreePart.key, FreePart.code severities, FreePart.opt 1 (FreePart.code severities),
    FreePart.within 1 2, FreePart.bool, FreePart.stamp, FreePart.stamp, FreePart.within 1 255]

/-- The parts of `encAlarmList`. -/
def FreePart.alarmList : FreePart :=
  FreePart.seq [FreePart.many 0 8 FreePart.alarmRec, FreePart.within 0 63, FreePart.bool, FreePart.opt 1 (FreePart.within 0 63),
    FreePart.num 4, FreePart.num 1, FreePart.num 1, FreePart.num 1, FreePart.num 1, FreePart.num 1, FreePart.lamps,
    FreePart.opt 1 FreePart.slot]

/-- A sweep with free values: each slot is free to be not requested, to have a result of 1 to 32 bytes, as the longest item allows, or to
have failed. So the results and the remaining mask are disjoint and together equal the requested mask, as R168 has them in every sweep
reply, and the lists are in ascending slot order. -/
def freeSweep (draw i : Nat) : Sweep :=
  let value (j : Nat) : Nat := (Config.freeByte draw (i + j)).toNat
  let place (n : Slot) : Nat := 4 + 34 * n.val
  let fate (n : Slot) : Nat := value (place n) % 3
  { number := Config.freeByte draw i
    item := sweepItems.getD (value 1 % 4) .status
    timeout := 10 + ofBe (freeBytes draw (i + 2) 2) % 991
    requested := (allSlots.filter fun n => fate n != 0).foldl Mask.insert 0
    results := (allSlots.filter fun n => fate n == 1).map fun n =>
      (n, freeBytes draw (i + place n + 2) (1 + value (place n + 1) % 32))
    failures := (allSlots.filter fun n => fate n == 2).map fun n => (n, sweepFailures.getD (value (place n + 1) % 5) .noAnswer) }

/-- The body of a refused SWEEP's reply (R168, R176). -/
def FreePart.sweep : FreePart := fun draw i => (encSweep (freeSweep draw i).body, i + (4 + 34 * 12))

/-- The parts of `encPortCounts` but for the free counts, which R34 states for every reply. -/
def FreePart.portCounts : FreePart := FreePart.seq [FreePart.num 60, FreePart.bool, FreePart.num 1, FreePart.num 1]

/-- The reply format of each request that is refused with no value that a rule names, by request code (R176). -/
def replyFormats : List (Byte × FreePart) :=
  let state := FreePart.code slotStates
  let slotLink := FreePart.seq [state, FreePart.code linkStates]
  [(Code.slotPlanSet, FreePart.plan), (Code.slotQuery, FreePart.slotQuery),
   (Code.slotPower, FreePart.seq [state, FreePart.within 0 12]), (Code.slotRelease, state), (Code.slotFence, slotLink),
   (Code.slotRestore, slotLink), (Code.slotLinkReset, slotLink), (Code.windowSet, FreePart.window),
   (Code.windowGet, FreePart.seq [FreePart.window, FreePart.mask, FreePart.mask]),
   (Code.groupSet, FreePart.seq [FreePart.within 1 16, FreePart.mask]),
   (Code.groupGet, FreePart.seq [FreePart.mask, FreePart.mask, FreePart.num 4, FreePart.bool]),
   (Code.defaultTargetSet, FreePart.seq [FreePart.defaultTarget, FreePart.defaultTarget]),
   (Code.portLimitSet, FreePart.seq [FreePart.num 2, FreePart.num 2, FreePart.num 2]),
   (Code.refListSet, FreePart.refList), (Code.timeSet, FreePart.time), (Code.slotTimingQuery, FreePart.slotTiming),
   (Code.asymmetrySet, FreePart.seq [FreePart.asymmetry, FreePart.asymmetry, FreePart.opt 2 (FreePart.num 2),
     FreePart.opt 2 (FreePart.num 2)]),
   (Code.alarmList, FreePart.alarmList),
   (Code.alarmAck, FreePart.seq [FreePart.num 1, FreePart.num 1, FreePart.lamps]),
   (Code.kindSet, FreePart.seq [FreePart.opt 1 (FreePart.code severities), FreePart.bool, FreePart.code actions, FreePart.bool,
     FreePart.num 1, FreePart.num 1]),
   (Code.relaySet, FreePart.seq [FreePart.opt 1 FreePart.slot, FreePart.opt 1 FreePart.slot, FreePart.opt 1 state]),
   (Code.sweep, FreePart.sweep),
   (Code.configSave, FreePart.seq [FreePart.within 1 2, FreePart.opt 1 (FreePart.code saveFaults), FreePart.num 2])]

/-- The body of a refusal for which no rule names a value: its reply format, each field free within its set and SWEEP's as R168 binds
them (R176, log entry 5). A request whose format has no field, as log entry 31 has them, is refused with an empty body. -/
def unstatedBody (code : Byte) (draw : Nat) : List Byte :=
  match replyFormats.find? fun p => p.1 == code with
  | some p => (p.2 draw 0).1
  | none => []

/-- The body of a refused PORT_COUNTS's reply: its reply format, with the free counts of R34 and the other fields free (R176, log entry 5). -/
def refusedPortCounts (draw freeShared freeReserve : Nat) : List Byte :=
  (FreePart.portCounts draw 0).1 ++ be 2 freeShared ++ be 1 freeReserve

/-- The bytes of a body (R188). REF_LIST_SET's carries the selection as its source and the timing state with its origin (DESIGN CHOICE, log
entry 46), and RELAY_SET's the state of the relay slot as an optional field (DESIGN CHOICE, log entry 55); so are CONFIG_SAVE's failure
cause, SLOT_CHANGED's request code and fault reason, and STARTED's failure cause and version (DESIGN CHOICE, log entry 60). A strap level
is 1 for high (DESIGN CHOICE, log entry 65), and TIME_SET's boundary is a whole hub time (DESIGN CHOICE, log entry 72). -/
def Body.encode : Body → List Byte
  | .empty => []
  | .unstated code draw => unstatedBody code draw
  | .portCountsRefused draw freeShared freeReserve => refusedPortCounts draw freeShared freeReserve
  | .hubInfo status strap startUp draw =>
    be 2 Config.familyCode.toNat ++ be 2 Config.partCode.toNat ++ [Config.siliconRevision]
      ++ be 1 12 ++ be 1 32 ++ be 1 16 ++ be 2 2048 ++ be 1 64 ++ be 1 64 ++ be 1 20 ++ be 1 16 ++ be 1 8 ++ be 1 32 ++ be 1 8
      ++ be 1 (codeIn imageStatuses status) ++ be 1 (boolCode strap)
      ++ (match startUp with
          | some t => encTime t ++ be 2 t.frame
          | none => freeBytes draw 0 12)
  | .hubStatus b => encHubStatus b
  | .slotPlan entry => encPlan entry
  | .slotQuery b => encSlotQuery b
  | .slotPower state place => be 1 (codeIn slotStates state) ++ be 1 place
  | .slotState state => be 1 (codeIn slotStates state)
  | .slotLink state link => be 1 (codeIn slotStates state) ++ be 1 (codeIn linkStates link)
  | .budget watts committed waitList recoveryWindow drainTimeout =>
    be 2 watts ++ be 2 committed ++ encSlots waitList ++ be 2 recoveryWindow ++ be 2 drainTimeout
  | .window w => encWindow w
  | .windowGet w control bulk => encWindow w ++ Mask.encode control ++ Mask.encode bulk
  | .groupSet g mask => be 1 (g.val + 1) ++ Mask.encode mask
  | .groupGet mask reachable windows isDefault =>
    Mask.encode mask ++ Mask.encode reachable ++ be 4 windows.toNat ++ be 1 (boolCode isDefault)
  | .defaultTarget previous current => encDefaultTarget previous ++ encDefaultTarget current
  | .portCounts b => encPortCounts b
  | .portLimit limits occupancy => be 2 occupancy ++ encPortLimit limits
  | .refList cands selection state =>
    be 1 cands.length ++ cands.flatMap encCandidate ++ encOpt 1 encSource selection ++ encTimingState state
  | .timingSet params => encTimingParams params
  | .timingStatus b => encTimingStatus b
  | .timeSet boundary => encTime boundary
  | .slotTiming b => encSlotTiming b
  | .asymmetry before after target applied =>
    beInt 2 before ++ beInt 2 after ++ encOpt 2 (be 2) target ++ encOpt 2 (be 2) applied
  | .alarmList b => encAlarmList b
  | .alarmAck acked cleared lamps => be 1 acked ++ be 1 cleared ++ encLamps lamps
  | .alarmPurge removed remaining => be 1 removed ++ be 1 remaining
  | .kindSet entry records active => encKindEntry entry ++ be 1 records ++ be 1 active
  | .relaySet before after state =>
    encRelay before ++ encRelay after ++ encOpt 1 (fun s => be 1 (codeIn slotStates s)) state
  | .sweep b => encSweep b
  | .configSave fault written =>
    be 1 (if fault.isNone then 1 else 2) ++ encOpt 1 (fun f => be 1 (codeIn saveFaults f)) fault ++ be 2 written
  | .started status fault version strap kind =>
    be 1 (codeIn imageStatuses status) ++ encOpt 1 (fun f => be 1 (codeIn loadFaults f)) fault ++ encOpt 2 (be 2) version
      ++ be 1 (boolCode strap) ++ be 1 (codeIn resetKinds kind)
  | .slotChanged n old new reason fault entry =>
    be 1 (Slot.number n) ++ be 1 (codeIn slotStates old) ++ be 1 (codeIn slotStates new) ++ be 1 (slotReasonCode reason)
      ++ encOpt 1 (fun c => [c]) (match reason with | .hostRequest c => some c | _ => none)
      ++ encOpt 1 (fun f => be 1 (codeIn faultReasons f)) fault ++ encStamp entry
  | .timingChanged old new oldSel newSel inSpec holdover time reason =>
    encTimingState old ++ encTimingState new
      ++ encOpt 2 (fun p => be 1 p.1 ++ encSource p.2) oldSel ++ encOpt 2 (fun p => be 1 p.1 ++ encSource p.2) newSel
      ++ be 1 (boolCode inSpec) ++ be 4 holdover ++ encTime time ++ be 2 time.frame ++ be 1 (codeIn timingReasons reason)
  | .permitChanged n old new time reason =>
    be 1 (Slot.number n) ++ be 1 (permitCode old) ++ be 1 (permitCode new) ++ encStamp time
      ++ be 1 (codeIn permitReasons reason)
  | .alarmChanged position record reason => encAlarmChange position record reason

/-- The flags and status byte of a message header (section 12.3). -/
def Message.flagByte (m : Message) : Byte :=
  BitVec.ofNat 8 (statusCode m.status + 64 * boolCode m.overrun + 128 * boolCode m.noticesLost)

/-- A message as it is driven: header and body (section 12.3). -/
def Message.encode (m : Message) : List Byte :=
  be 1 (if m.isReply then 2 else 3) ++ [m.code, m.tag, m.flagByte] ++ be 2 m.body.encode.length ++ m.body.encode

/-- The empty marker: six bytes of 0 (R190). -/
def emptyMarker : List Byte := List.replicate 6 0

end Sys2Proof.Machine
end

