-- ==== Sys2Proof/Machine/Flags.lean ====
section
/-! DEFINITION. The conditions the rules compute from the state: in specification, reachable, eligible, settled, committed
power, port occupancy, the inputs of the permit rule, and the levels of the cabinet outputs. Nothing here changes state. -/

namespace Sys2Proof.Machine

/-! ## Slots and power -/

/-- A slot is reachable while it is in FORWARDING or RECOVERING (R25). -/
def SlotState.reachable : SlotState → Bool
  | .forwarding | .recovering => true
  | _ => false

/-- The states that count in committed power (R61). -/
def SlotState.powered : SlotState → Bool
  | .powering | .resetHold | .linking | .identifying | .awaitingAdmit | .forwarding | .recovering | .draining | .fenced => true
  | .empty | .seated | .off | .faulted => false

/-- The states in which a loss of PWR_GOOD is a fault (R92). -/
def SlotState.readsPowerLoss : SlotState → Bool
  | .resetHold | .linking | .identifying | .awaitingAdmit | .forwarding | .recovering | .draining | .fenced => true
  | _ => false

/-- The states of bring-up that a release takes to OFF at once (R74). -/
def SlotState.bringUp : SlotState → Bool
  | .seated | .powering | .resetHold | .linking | .identifying | .awaitingAdmit => true
  | _ => false

/-- The states in which a loss of presence raises SURPRISE_EXTRACTION (R89). -/
def SlotState.inService : SlotState → Bool
  | .forwarding | .recovering | .draining | .fenced => true
  | _ => false

/-- Class wattages (R60). -/
def PowerClass.watts : PowerClass → Nat
  | .a => 20
  | .b => 45
  | .c => 90
  | .d => 160

/-- The class that the PCODE pins code: bit 1 PCODE1, bit 0 PCODE0 (R60). -/
def classOfPins (pins : BitVec 2) : PowerClass :=
  match pins.toNat with
  | 0 => .a
  | 1 => .b
  | 2 => .c
  | _ => .d

/-- A slot's wattage, at its coded class (R61). -/
def SlotRec.watts (r : SlotRec) : Nat := (r.powerClass.map PowerClass.watts).getD 0

/-- Committed power: the sum of the wattages of the slots whose state counts (R61). -/
def Hub.committed (h : Hub) : Nat :=
  (allSlots.map fun n => if h.slots[n].state.powered then h.slots[n].watts else 0).sum

/-- Place of a slot in the power wait list, 1..12, or 0 (R75). -/
def Hub.waitPlace (h : Hub) (n : Slot) : Nat := if n ∈ h.manager.waitList then h.manager.waitList.idxOf n + 1 else 0

/-! ## Store -/

/-- The reference of an entry. -/
def Store.find (st : Store) (id : Nat) : Option StoredFrame := st.frames.find? fun f => f.id == id

/-- The entries of a port's three egress queues. -/
def Port.entries (p : Port) : List Nat := p.timingQ ++ p.controlQ ++ p.bulkQ

/-- The blocks an entry counts in its port's occupancy: those of a card-originated frame (R41). -/
def Store.cardBlocks (st : Store) (id : Nat) : Nat :=
  match st.find id with
  | some f => if f.fromAgent then 0 else f.blocks
  | none => 0

/-- A port's occupancy (R41). -/
def Hub.occupancy (h : Hub) (n : Slot) : Nat := (h.ports[n].entries.map h.store.cardBlocks).sum

/-- Free blocks of the two pools (R34). -/
def Store.freeShared (st : Store) : Nat := 1984 - st.sharedUsed

def Store.freeReserve (st : Store) : Nat := 64 - st.reserveUsed

/-- Whether an entry is a QUIESCE (R84, R85). -/
def Store.isQuiesce (st : Store) (id : Nat) : Bool :=
  (st.find id).any fun f => f.fromAgent && f.frame.kind == Kind.quiesce

/-! ## Timing -/

/-- Hub time is in specification in LOCKED, in HOLDOVER and in ACQUIRING with origin LOCKED (section 6.4). -/
def TimingState.inSpec : TimingState → Bool
  | .locked | .holdover | .acquiring .locked => true
  | .freeRun | .holdoverLapsed | .acquiring .fresh | .acquiring .lapsed => false

def Hub.inSpec (h : Hub) : Bool := h.timing.state.inSpec

/-- The running states of the holdover clock (R107). -/
def TimingState.running : TimingState → Bool
  | .holdover | .acquiring .locked => true
  | _ => false

/-- HOLDOVER_LAPSED is active in HOLDOVER_LAPSED and in ACQUIRING (LAPSED) (R112). -/
def TimingState.lapsed : TimingState → Bool
  | .holdoverLapsed | .acquiring .lapsed => true
  | _ => false

/-- What a slot's card declares (R57). -/
def Hub.hasCap (h : Hub) (n : Slot) (p : Caps → Bool) : Bool := h.slots[n].identity.any fun i => p i.caps

/-- A slot is eligible for timing while it is FORWARDING and has TIME_SINK or TIME_SOURCE (R119). -/
def Hub.eligible (h : Hub) (n : Slot) : Bool :=
  h.slots[n].state == .forwarding && h.hasCap n fun c => c.timeSink || c.timeSource

/-- A slot is settled while its window holds at least 4 values (R129). -/
def TimingRec.settled (r : TimingRec) : Bool := 4 ≤ r.window.length

/-- The smallest value of a window (R127). -/
def least : List Nat → Option Nat
  | [] => none
  | v :: rest =>
    match least rest with
    | none => some v
    | some w => some (min v w)

/-! ## Alarms, permits and outputs -/

/-- The kind table's entry of a kind (R137). -/
def Hub.kindEntry (h : Hub) (k : AlarmKind) : KindEntry := h.tables.kinds[k.idx]

/-- Default severities (section 8.1); CARD_REPORTED's is carried in the report, and WARNING stands where none is. -/
def AlarmKind.defaultSeverity : AlarmKind → Severity
  | .phaseOutOfLimit | .holdoverLapsed => .critical
  | .linkLost | .slotFault | .surpriseExtraction | .timingPathLost | .referenceLost | .configImageInvalid
  | .configSaveFailed | .alarmTableFull => .major
  | .linkErrors | .drainForced | .cardMismatch | .egressDrops | .holdoverActive | .storeExhausted | .agentOverload => .minor
  | .powerWait | .unroutable | .cardReported => .warning

/-- EVENT kinds are never cleared by their owner (section 8.1). -/
def AlarmKind.isEvent : AlarmKind → Bool
  | .surpriseExtraction | .drainForced | .unroutable | .egressDrops | .storeExhausted | .agentOverload
  | .configImageInvalid | .configSaveFailed | .alarmTableFull => true
  | _ => false

/-- The effective severity of a record (R138). -/
def effectiveSeverity (e : KindEntry) (k : AlarmKind) (reported : Option Severity) : Severity :=
  match e.severity with
  | some s => s
  | none => if k = .cardReported then reported.getD k.defaultSeverity else k.defaultSeverity

/-- Whether a kind's action applies to a record: for CARD_REPORTED only at CRITICAL (R137). -/
def actionApplies (k : AlarmKind) (sev : Severity) : Bool := k != .cardReported || sev == .critical

/-- Whether a record counts against the permit rule (R148). -/
def AlarmRec.counts (e : KindEntry) (r : AlarmRec) : Bool :=
  r.active && e.action == .withdrawPermit && actionApplies r.key.kind r.severity

/-- Every record of the table, position 0 first. -/
def Alarms.all (a : Alarms) : List AlarmRec := a.full.toList ++ a.recs

/-- A record counting under R148 has the slot or the hub as source (R133). -/
def Hub.alarmWithholds (h : Hub) (n : Slot) : Bool :=
  h.alarms.all.any fun r => r.counts (h.kindEntry r.key.kind) && (r.key.source == none || r.key.source == some n)

/-- The inputs of a slot's permit as they stand (R133). -/
def Hub.permitInputs (h : Hub) (n : Slot) : PermitInputs :=
  { forwarding := h.slots[n].state == .forwarding, radiates := h.hasCap n (·.radiates), inSpec := h.inSpec,
    settled := h.trecs[n].settled, pathOk := !h.trecs[n].pathLost, phaseOk := !h.trecs[n].phaseCond,
    noAlarm := !h.alarmWithholds n }

/-- GRANTED only while all inputs hold (R133). -/
def PermitInputs.all (i : PermitInputs) : Bool :=
  i.forwarding && i.radiates && i.inSpec && i.settled && i.pathOk && i.phaseOk && i.noAlarm

/-- The first input that fails, in the order of R136's table. -/
def PermitInputs.firstFailing (i : PermitInputs) : PermitReason :=
  if !(i.forwarding && i.radiates) then .slotState
  else if !i.inSpec then .timeSpecification
  else if !i.settled then .settled
  else if !i.pathOk then .path
  else if !i.phaseOk then .phase
  else .alarmAction

/-- At least one ACTIVE record has the severity. -/
def anyActive (l : List AlarmRec) (sev : Severity) : Bool := l.any fun r => r.active && r.severity == sev

/-- CAB_OK (R152): every expected slot FORWARDING, hub time in specification, no CRITICAL record ACTIVE. -/
def Hub.cabOkLevel (h : Hub) : Bool :=
  (allSlots.all fun n => !h.tables.plan[n].expected || h.slots[n].state == .forwarding)
    && h.inSpec && !anyActive h.alarms.all .critical

/-- The levels of the five cabinet outputs (R151, R152). -/
def Hub.lampLevels (h : Hub) : Lamps :=
  { crit := anyActive h.alarms.all .critical, maj := anyActive h.alarms.all .major, min := anyActive h.alarms.all .minor,
    aud := h.alarms.all.any fun r => r.active && !r.acked && (r.severity == .critical || r.severity == .major),
    cabOk := h.cabOkLevel }

/-! ## Settings -/

/-- Every setting of section 11.1 as it stands (R185). -/
def Hub.settings (h : Hub) : Settings := { tables := h.tables, sources := h.timing.cands.map (·.source) }

end Sys2Proof.Machine
end

