-- ==== Sys2Proof/Machine/Ops.lean ====
section
/-! DEFINITION. The named operations over the hub's records: time, messages, the frame store and its schedulers, agent frames,
alarm records with what follows a change of one, transmit permits, and the sweep context. The meanings and the slot
changes are made of them. -/

namespace Sys2Proof.Machine

/-! ## Records by slot -/

def Hub.modSlot (h : Hub) (n : Slot) (f : SlotRec → SlotRec) : Hub := { h with slots := h.slots.set n (f h.slots[n]) }

def Hub.modLink (h : Hub) (n : Slot) (f : Link → Link) : Hub := { h with links := h.links.set n (f h.links[n]) }

def Hub.modPort (h : Hub) (n : Slot) (f : Port → Port) : Hub := { h with ports := h.ports.set n (f h.ports[n]) }

def Hub.modTrec (h : Hub) (n : Slot) (f : TimingRec → TimingRec) : Hub := { h with trecs := h.trecs.set n (f h.trecs[n]) }

/-- Change a port's counters (R51). -/
def Hub.count (h : Hub) (n : Slot) (f : PortCounters → PortCounters) : Hub :=
  h.modPort n fun p => { p with counters := f p.counters }

/-- A command's effect on the hub alone: the queue of waiting commands and the EEPROM stay. -/
def State.onHub (s : State) (f : Hub → Hub) : Host.Outcome State Fault Refusal := .next { s with hub := f s.hub }

/-! ## Time (R98, R99) -/

/-- A full hub time as a count of ns (R12, R109). -/
def HubTime.total (t : HubTime) : Nat := nsPerSec * t.sec + t.ns

/-- The hub time of a count of ns; the seconds count wraps at 2^48 (R98). -/
def HubTime.ofTotal (v : Nat) : HubTime := { sec := v / nsPerSec % 2 ^ 48, ns := v % nsPerSec }

/-- The last frame boundary at or before a hub time. -/
def HubTime.boundary (t : HubTime) : HubTime := { t with ns := t.ns / nsPerFrame * nsPerFrame }

/-- The present time as entry times, alarm records and permits record it (R55, R139). -/
def Hub.stamp (h : Hub) : Stamp := { sec := h.clock.now.sec, frame := h.clock.now.frame }

/-- What `dt` ns of the reference oscillator add to hub time at the correction `k`, in units of 10^−9 ns, with the part of
a ns already gained (R98, R110). -/
def Clock.gain (c : Clock) (k : Int) (dt : Nat) : Nat := ((dt : Int) * (nsPerSec + k)).toNat + c.carry

/-- The boundaries that fall at a count of ns: a frame boundary, and a second boundary with it where the nanosecond count is
0 (R98). -/
def boundariesAt (total : Nat) : List Boundary :=
  let time := HubTime.ofTotal total
  { sort := .frame, time } :: if time.ns = 0 then [{ sort := .second, time }] else []

/-- The boundaries that hub time reaches by running `gap` ns on from a count of ns, in order (R98). -/
def boundariesPassed (total gap : Nat) : List Boundary :=
  (List.range ((total + gap) / nsPerFrame - total / nsPerFrame)).flatMap fun i =>
    boundariesAt ((total / nsPerFrame + 1 + i) * nsPerFrame)

/-- The clock run on by `gap` ns of hub time: each boundary that this reaches is due, as an event of its own (R98). -/
def Clock.advance (c : Clock) (gap carry : Nat) : Clock :=
  { c with now := HubTime.ofTotal (c.now.total + gap), elapsed := c.elapsed + gap, carry,
           due := c.due ++ boundariesPassed c.now.total gap }

/-- The clock after `dt` ns of the reference oscillator (R98, R110). -/
def Clock.run (c : Clock) (k : Int) (dt : Nat) : Clock := c.advance (c.gain k dt / nsPerSec) (c.gain k dt % nsPerSec)

/-- The clock run on to its next frame boundary (R98). -/
def Clock.toFrame (c : Clock) : Clock := c.advance (nsPerFrame - c.now.ns % nsPerFrame) 0

/-- The first boundary of a sort that is due (R98). -/
def Clock.first (c : Clock) (sort : BoundarySort) : Option Boundary := c.due.find? fun b => b.sort == sort

/-- The first boundary of a sort is taken. -/
def Clock.take (c : Clock) (sort : BoundarySort) : Clock := { c with due := c.due.eraseP fun b => b.sort == sort }

def Hub.run (h : Hub) (dt : Nat) : Hub := { h with clock := h.clock.run h.timing.correction dt }

/-- The elapsed reading `ms` milliseconds from now (R56). -/
def Hub.dueIn (h : Hub) (ms : Nat) : Nat := h.clock.elapsed + ms * nsPerMs

/-- One frame boundary, of hub time `time`, counted by the announce counter; at N it is an announce boundary (R120). Those reached while the
load runs count too (DESIGN CHOICE, log entry 73). -/
def Hub.countFrame (h : Hub) (time : HubTime) : Hub :=
  if h.tables.timing.announceInterval ≤ h.timing.announceCount + 1 then
    { h with timing := { h.timing with announceCount := 0 }
             clock := { h.clock with announces := h.clock.announces ++ [time] } }
  else { h with timing := { h.timing with announceCount := h.timing.announceCount + 1 } }

/-! ## Messages (R174, R180) -/

def HostPort.replies (p : HostPort) : Nat := (p.outbound.filter (·.isReply)).length

def HostPort.notices (p : HostPort) : Nat := (p.outbound.filter fun m => !m.isReply).length

/-- A notice is produced: discarded and counted when 24 wait, else queued with the NOTICES_LOST flag it finds (R174). -/
def HostPort.notice (p : HostPort) (code : Byte) (body : Body) : HostPort :=
  if 24 ≤ p.notices then { p with noticesDiscarded := p.noticesDiscarded + 1, noticesLost := true }
  else
    { p with
      outbound := p.outbound ++ [{ isReply := false, code, tag := 0, status := .ok, overrun := false,
                                   noticesLost := p.noticesLost, body }]
      noticesLost := false, attn := true }

/-- A reply is produced, carrying the REQUEST_OVERRUN flag it finds (R174). -/
def HostPort.reply (p : HostPort) (tag code : Byte) (status : Status) (body : Body) : HostPort :=
  { p with
    outbound := p.outbound ++ [{ isReply := true, code, tag, status, overrun := p.overrun, noticesLost := false, body }]
    overrun := false, attn := true }

def Hub.notice (h : Hub) (code : Byte) (body : Body) : Hub := { h with port := h.port.notice code body }

def Hub.reply (h : Hub) (tag code : Byte) (status : Status) (body : Body) : Hub :=
  { h with port := h.port.reply tag code status body }

/-! ## Store and egress (R34 to R49) -/

/-- A frame stored, with as many references as entries made for it (R35). -/
def Store.put (st : Store) (frame : Frame) (fromAgent : Bool) (refs : Nat) : Store :=
  { st with
    frames := st.frames ++ [{ id := st.nextId, frame, blocks := frame.blocks, refs, fromAgent }]
    sharedUsed := if fromAgent then st.sharedUsed else st.sharedUsed + frame.blocks
    reserveUsed := if fromAgent then st.reserveUsed + frame.blocks else st.reserveUsed
    nextId := st.nextId + 1 }

/-- One entry of a frame is gone: at its last reference the record is removed and its blocks return to their pool (R34,
R36). -/
def Store.deref (st : Store) (id : Nat) : Store :=
  match st.find id with
  | none => st
  | some f =>
    if f.refs ≤ 1 then
      { st with
        frames := st.frames.filter fun g => g.id != id
        sharedUsed := if f.fromAgent then st.sharedUsed else st.sharedUsed - f.blocks
        reserveUsed := if f.fromAgent then st.reserveUsed - f.blocks else st.reserveUsed }
    else { st with frames := st.frames.map fun g => if g.id = id then { g with refs := g.refs - 1 } else g }

/-- A frame in flight is aborted: counted once, its entry left where it stands (R15, R48). -/
def Hub.abort (h : Hub) (n : Slot) : Hub :=
  if h.links[n].tx.isSome then
    (h.modLink n fun l => { l with tx := none }).count n fun c => { c with aborted := c.aborted + 1 }
  else h

/-- A purge of a port (R49): nothing happens at a port that holds no entry. -/
def Hub.purge (h : Hub) (n : Slot) : Hub :=
  let ids := h.ports[n].entries ++ h.ports[n].identify.toList
  if ids.isEmpty then h
  else
    let h := h.abort n
    { h with store := ids.foldl Store.deref h.store }.modPort n fun p =>
      { p with timingQ := [], controlQ := [], bulkQ := [], identify := none, controlRun := 0,
               counters := { p.counters with purged := p.counters.purged + BitVec.ofNat 32 ids.length } }

/-- The frame of an identify position is removed as by a purge (R43). -/
def Hub.clearIdentify (h : Hub) (n : Slot) : Hub :=
  match h.ports[n].identify with
  | none => h
  | some id =>
    let h := if h.links[n].tx.any (·.place == .identify) then h.abort n else h
    { h with store := h.store.deref id }.modPort n fun p =>
      { p with identify := none, counters := { p.counters with purged := p.counters.purged + 1 } }

/-- The QUIESCE at the head of the CONTROL queue is held while another queue holds an entry (R85). -/
def Hub.quiesceHeld (h : Hub) (n : Slot) : Bool :=
  let p := h.ports[n]
  h.slots[n].state == .draining && p.controlQ.head?.any h.store.isQuiesce && !(p.timingQ.isEmpty && p.bulkQ.isEmpty)

/-- The entry a port's scheduler chooses (R46). -/
def Hub.choose (h : Hub) (n : Slot) : Option (Place × Nat) :=
  let p := h.ports[n]
  match h.slots[n].state with
  | .identifying => p.identify.map (Place.identify, ·)
  | .forwarding | .draining =>
    match p.timingQ with
    | id :: _ => some (.timing, id)
    | [] =>
      match p.controlQ, p.bulkQ with
      | _, id :: _ => if p.controlRun = 8 ∨ p.controlQ = [] ∨ h.quiesceHeld n then some (.bulk, id) else (p.controlQ.head?).map (Place.control, ·)
      | id :: _, [] => some (.control, id)
      | [], [] => none
  | _ => none

/-- The scheduler's judgment (R45): with the link LOCKED and nothing in flight, the chosen entry is handed over; a
TIMING-class frame takes its transmit timestamp (R13). -/
def Hub.schedule (h : Hub) (n : Slot) : Hub :=
  if h.links[n].state == .locked && h.links[n].tx.isNone then
    match h.choose n with
    | none => h
    | some (place, id) =>
      let sentAt := if (h.store.find id).any (·.frame.cls == .timing) then some h.clock.now else none
      h.modLink n fun l => { l with tx := some { place, id, sentAt } }
  else h

/-- The queue of a port with an entry appended (R40, R42). -/
def Port.enter (p : Port) (place : Place) (id : Nat) : Port :=
  match place with
  | .timing => { p with timingQ := p.timingQ ++ [id] }
  | .control => { p with controlQ := p.controlQ ++ [id] }
  | .bulk => { p with bulkQ := p.bulkQ ++ [id] }
  | .identify => { p with identify := some id }

/-! ## Agent frames (R42, R43, R161, R162) -/

/-- The states in which an agent frame may be placed (R42). -/
def SlotState.takesAgent (st : SlotState) : Place → Bool
  | .identify => st == .identifying
  | _ => st == .forwarding || st == .recovering || st == .draining

/-- The key of a hub-sourced alarm. -/
def AlarmKey.hub (kind : AlarmKind) : AlarmKey := { source := none, kind }

/-- The key of a slot-sourced alarm. -/
def AlarmKey.slot (n : Slot) (kind : AlarmKind) : AlarmKey := { source := some n, kind }

/-- An agent frame is placed, or refused: the slot's state first, then the reserve, with AGENT_OVERLOAD raised by `again` (R42,
R43, R162), whole and before what follows in the event (DESIGN CHOICE, log entry 77). The answer says whether it was placed. -/
def Hub.placeWith (again : AlarmKey → Hub → Hub) (h : Hub) (n : Slot) (place : Place) (frame : Frame) : Hub × Bool :=
  if !h.slots[n].state.takesAgent place then (h, false)
  else
    let h := if place = .identify then h.clearIdentify n else h
    if h.store.freeReserve = 0 then
      (again (.hub .agentOverload) { h with agent := { h.agent with reserveRefusals := h.agent.reserveRefusals + 1 } }, false)
    else
      (({ h with store := h.store.put frame true 1 }.modPort n (·.enter place h.store.nextId)).schedule n, true)

/-! ## Permits (R133 to R136) -/

/-- The PERMIT_UPDATE of a withdrawal (R134). -/
def permitUpdate (n : Slot) (reason : PermitReason) (t : Stamp) : Frame :=
  agentFrame .timing Kind.permitUpdate 0 0 n (be 1 2 ++ be 1 (codeIn permitReasons reason) ++ encStamp t)

/-- What a judgment of a slot's permit changes (R133): nothing, or the record with its PERMIT_CHANGED notice (R134 to R136). `cause`
is the input that came true, for a grant's reason. -/
def Hub.changePermit (cause : PermitReason) (h : Hub) (n : Slot) : Hub :=
  let inputs := h.permitInputs n
  if inputs.all = h.trecs[n].granted then h
  else
    (h.modTrec n fun r => { r with granted := inputs.all }).notice Code.permitChanged
      (.permitChanged n h.trecs[n].granted inputs.all h.stamp (if inputs.all then cause else inputs.firstFailing))

/-- The reason of the PERMIT_UPDATE that a judgment owes a slot (R134): one that takes the permit of a slot still FORWARDING. -/
def Hub.owedUpdate (h : Hub) (n : Slot) : Option PermitReason :=
  let inputs := h.permitInputs n
  if h.trecs[n].granted && !inputs.all && inputs.forwarding then some inputs.firstFailing else none

/-- The permits of the slots listed are re-judged in one event (R133): the records change and the notices follow in the order of
the list, then the PERMIT_UPDATE frames are placed in it (R134, R136). The order of a notice and of the AGENT_OVERLOAD that
a frame's refusal raises is the model's (DESIGN CHOICE, log entry 39). -/
def Hub.judgePermitsWith (again : AlarmKey → Hub → Hub) (cause : PermitReason) (slots : List Slot) (h : Hub) : Hub :=
  let owed := slots.filterMap fun n => (h.owedUpdate n).map (n, ·)
  owed.foldl (fun g p => (g.placeWith again p.1 .timing (permitUpdate p.1 p.2 h.stamp)).1) (slots.foldl (Hub.changePermit cause) h)

/-! ## Alarm records (R140 to R150) -/

/-- The record of a key with its position (R139). -/
def Alarms.find (a : Alarms) (key : AlarmKey) : Option (Nat × AlarmRec) :=
  if key.kind = .alarmTableFull then a.full.map (0, ·)
  else
    match a.recs.find? fun r => r.key == key with
    | some r => some (a.recs.findIdx (fun r => r.key == key) + 1, r)
    | none => none

/-- Every record of a key changed by a function. -/
def Alarms.update (a : Alarms) (key : AlarmKey) (f : AlarmRec → AlarmRec) : Alarms :=
  if key.kind = .alarmTableFull then { a with full := a.full.map f }
  else { a with recs := a.recs.map fun r => if r.key = key then f r else r }

/-- The position from which a full table makes room: the oldest CLEARED and acknowledged record, else the oldest CLEARED
one (R141). -/
def evictIdx (l : List AlarmRec) : Option Nat :=
  match l.findIdx? fun r => !r.active && r.acked with
  | some i => some i
  | none => l.findIdx? fun r => !r.active

/-- A record put at the first free position of 1 to 63, room made first when they are full; none when all 63 are ACTIVE
(R141). -/
def Alarms.create (a : Alarms) (r : AlarmRec) : Option Alarms :=
  if r.key.kind = .alarmTableFull then some { a with full := some r, changeNumber := a.changeNumber + 1 }
  else if a.recs.length < 63 then some { a with recs := a.recs ++ [r], changeNumber := a.changeNumber + 1 }
  else (evictIdx a.recs).map fun i => { a with recs := a.recs.eraseIdx i ++ [r], changeNumber := a.changeNumber + 2 }

/-- The cabinet outputs judged (R151, R152). -/
def Hub.judgeOutputs (h : Hub) : Hub := { h with alarms := { h.alarms with lamps := h.lampLevels } }

/-- The ALARM_CHANGED notice of a record at its position, when its kind notifies (R149). -/
def Hub.alarmNotice (h : Hub) (position : Nat) (r : AlarmRec) (reason : AlarmReason) : Hub :=
  if (h.kindEntry r.key.kind).notify then h.notice Code.alarmChanged (.alarmChanged position r reason) else h

/-- The ALARM_RELAY frame of a record at its position, when its kind is relayed and the relay slot is FORWARDING (R150). -/
def Hub.relayWith (again : AlarmKey → Hub → Hub) (h : Hub) (position : Nat) (r : AlarmRec) (reason : AlarmReason) : Hub :=
  match h.tables.relay with
  | some n =>
    if (h.kindEntry r.key.kind).relay && h.slots[n].state == .forwarding then
      (h.placeWith again n .control (agentFrame .control Kind.alarmRelay 0 0 n (encAlarmChange position r reason))).1
    else h
  | none => h

/-- What is told of a changed record: its notice, then its relay frame (R149, R150). `changed` is the record with its position as
they stand after the change, so that nothing that follows in the event alters them. An AGENT_OVERLOAD that a refused relay frame raises is
taken whole here, before the event's further results (DESIGN CHOICE, log entry 77). -/
def Hub.tellWith (again : AlarmKey → Hub → Hub) (reason : AlarmReason) (h : Hub) (changed : Nat × AlarmRec) : Hub :=
  (h.alarmNotice changed.1 changed.2 reason).relayWith again changed.1 changed.2 reason

/-- The permits whose alarm input differs from what it was in `old` are re-judged, in ascending slot number (R148). -/
def Hub.judgeWithheldWith (again : AlarmKey → Hub → Hub) (old h : Hub) : Hub :=
  h.judgePermitsWith again .alarmAction (allSlots.filter fun n => old.alarmWithholds n != h.alarmWithholds n)

/-- A fence request handed to the Slot Manager for a record that has become ACTIVE (R147). -/
def Hub.fireFence (h : Hub) (key : AlarmKey) : Hub :=
  match h.alarms.find key, key.source with
  | some (_, r), some n =>
    if (h.kindEntry key.kind).action == .fenceSlot && actionApplies key.kind r.severity then
      { h with manager := { h.manager with fenceRequests := h.manager.fenceRequests ++ [n] } }
    else h
  | _, _ => h

/-- What follows one change of a record, in the order of section 8.6: the action, the permits, the outputs, the notice, the
relay frame. `old` is the hub before the change. An AGENT_OVERLOAD that a refused PERMIT_UPDATE raises is taken whole inside the permits, so
its notice and its relay frame come before the record's own (DESIGN CHOICE, log entry 70). -/
def Hub.changedWith (again : AlarmKey → Hub → Hub) (old : Hub) (key : AlarmKey) (reason : AlarmReason) (h : Hub) : Hub :=
  let changed := h.alarms.find key
  let h := if reason = .created ∨ reason = .activated then h.fireFence key else h
  changed.toList.foldl (Hub.tellWith again reason) (Hub.judgeWithheldWith again old h).judgeOutputs

/-- A record's fields after a raise of it (R140). -/
def AlarmRec.raised (r : AlarmRec) (e : KindEntry) (reported : Option Severity) (t : Stamp) : AlarmRec :=
  { r with active := true, acked := false, occurrences := min 255 (r.occurrences + 1), lastChange := t, reported,
           severity := effectiveSeverity e r.key.kind reported }

/-- A raise (R140, R141). `again` takes the raises that follow from it: ALARM_TABLE_FULL and AGENT_OVERLOAD. A CLEARED record raised with
another severity is one change, ACTIVATED (DESIGN CHOICE, log entry 71). -/
def Hub.raiseWith (again : AlarmKey → Hub → Hub) (key : AlarmKey) (reported : Option Severity) (h : Hub) : Hub :=
  let e := h.kindEntry key.kind
  match h.alarms.find key with
  | some (_, r) =>
    let new := { h with alarms := h.alarms.update key (·.raised e reported h.stamp) }
    if !r.active then Hub.changedWith again h key .activated new
    else if (r.raised e reported h.stamp).severity ≠ r.severity then Hub.changedWith again h key .severity new
    else new.judgeOutputs
  | none =>
    let r : AlarmRec :=
      { key, severity := effectiveSeverity e key.kind reported, reported, active := true, acked := false,
        firstRaised := h.stamp, lastChange := h.stamp, occurrences := 1 }
    match h.alarms.create r with
    | some a => Hub.changedWith again h key .created { h with alarms := a }
    | none => again (.hub .alarmTableFull) h

/-- A raise, the raises that follow from it to the depth given. A chain of raises ends by itself: AGENT_OVERLOAD and
ALARM_TABLE_FULL each become ACTIVE at their first, and a raise of an ACTIVE record causes none (R141, R150). -/
def Hub.raiseAt : Nat → AlarmKey → Option Severity → Hub → Hub
  | 0, _, _, h => h
  | depth + 1, key, reported, h => h.raiseWith (fun k h => Hub.raiseAt depth k none h) key reported

/-- A raise of a key with a reported severity (R140). -/
def Hub.raiseReported (h : Hub) (key : AlarmKey) (reported : Option Severity) : Hub := Hub.raiseAt 8 key reported h

/-- A raise of a key (R140). -/
def Hub.raise (h : Hub) (key : AlarmKey) : Hub := h.raiseReported key none

/-- The raise that operations outside the Alarm Unit use. -/
def raiseAgain (k : AlarmKey) (h : Hub) : Hub := h.raise k

def Hub.place (h : Hub) (n : Slot) (place : Place) (frame : Frame) : Hub × Bool := h.placeWith raiseAgain n place frame

/-- One slot's permit re-judged (R133). -/
def Hub.judgePermit (h : Hub) (cause : PermitReason) (n : Slot) : Hub := h.judgePermitsWith raiseAgain cause [n]

/-- Every slot's permit re-judged, in ascending slot number (R133). -/
def Hub.judgePermits (h : Hub) (cause : PermitReason) : Hub := h.judgePermitsWith raiseAgain cause allSlots

def Hub.changed (old : Hub) (key : AlarmKey) (reason : AlarmReason) (h : Hub) : Hub :=
  Hub.changedWith raiseAgain old key reason h

/-- A clear (R143): only an ACTIVE record changes. -/
def Hub.clear (h : Hub) (key : AlarmKey) : Hub :=
  match h.alarms.find key with
  | some (_, r) =>
    if r.active then
      Hub.changed h key .cleared
        { h with alarms := h.alarms.update key fun r => { r with active := false, lastChange := h.stamp } }
    else h
  | none => h

/-- Whether the record of a key is ACTIVE. -/
def Hub.isActive (h : Hub) (key : AlarmKey) : Bool := (h.alarms.find key).any (·.2.active)

/-- Every ACTIVE CARD_REPORTED record of a slot is cleared, in position order (R146). -/
def Hub.clearReported (h : Hub) (n : Slot) : Hub :=
  ((h.alarms.recs.filter fun r => r.active && r.key.kind == .cardReported && r.key.source == some n).map (·.key)).foldl
    Hub.clear h

/-! ## Errored frames (R11) -/

/-- An errored frame counted at its port and in the monitor; at the threshold LINK_ERRORS is raised and the monitor stops for
the second (R7, R11). -/
def Hub.countErrored (h : Hub) (n : Slot) : Hub :=
  let h := h.count n fun c => { c with errored := c.errored + 1 }
  let m := h.links[n].monitor
  if m.reached then h
  else if h.tables.ports[n].threshold ≤ m.errored + 1 then
    (h.modLink n fun l => { l with monitor := { m with errored := m.errored + 1, reached := true } }).raise (.slot n .linkErrors)
  else h.modLink n fun l => { l with monitor := { m with errored := m.errored + 1 } }

/-- The judgment of one link's second just ended (R11). A second that ends while the load runs is judged and counted in the clear run like
any other (DESIGN CHOICE, log entry 75). -/
def Hub.judgeErrored (h : Hub) (n : Slot) : Hub :=
  let m := h.links[n].monitor
  let cleared := !m.reached && 10 ≤ m.clearRun + 1 && h.isActive (.slot n .linkErrors)
  let clearRun := if m.reached || cleared then 0 else min 10 (m.clearRun + 1)
  let h := h.modLink n fun l => { l with monitor := { errored := 0, reached := false, clearRun } }
  if cleared then h.clear (.slot n .linkErrors) else h

/-- Every link's second is judged, in ascending slot number (R11 gives no order; DESIGN CHOICE, log entry 47). -/
def Hub.judgeErroredSeconds (h : Hub) : Hub := allSlots.foldl Hub.judgeErrored h

/-- A step of hub time (R99): the flag, and one boundary of each sort that a step forward passes. Hub time is set first, so that what the
judgment of the errored seconds clears carries the time after the step (DESIGN CHOICE, log entry 49). -/
def Hub.stepTo (h : Hub) (target : Int) : Hub :=
  let old : Int := h.clock.now.total
  let h := { h with clock := { h.clock with
    now := HubTime.ofTotal (target % (2 ^ 48 * nsPerSec : Nat)).toNat, timeStepped := true } }
  let h := if old / nsPerSec < target / nsPerSec then h.judgeErroredSeconds else h
  if old / nsPerFrame < target / nsPerFrame then h.countFrame h.clock.now.boundary else h

/-! ## Sweeps (R163 to R168) -/

/-- A pair put at its place in ascending slot order (R165). -/
def insertSlot {α : Type} (n : Slot) (a : α) : List (Slot × α) → List (Slot × α)
  | [] => [(n, a)]
  | p :: rest => if n < p.1 then (n, a) :: p :: rest else p :: insertSlot n a rest

/-- A slot fails, and is pending no longer (R164, R166, R167). -/
def Sweep.fail (w : Sweep) (n : Slot) (reason : SweepFailure) : Sweep :=
  { w with pending := Mask.erase w.pending n, failures := insertSlot n reason w.failures }

def Hub.setSweep (h : Hub) (w : Sweep) : Hub := { h with agent := { h.agent with sweep := w } }

/-- The sweep ends: its deferred reply is produced and the flag cleared (R168). -/
def Hub.endSweep (h : Hub) : Hub :=
  let w := h.agent.sweep
  (h.reply w.tag Code.sweep (if w.clamped then .clamped else .ok) (.sweep w.body)).setSweep { w with inFlight := false }

/-- The sweep ends when its pending mask is empty (R165, R166). -/
def Hub.endSweepIfDone (h : Hub) : Hub := if h.agent.sweep.pending = 0 then h.endSweep else h

/-- Every pending slot fails, and the sweep ends (R167). -/
def Hub.failSweep (h : Hub) (reason : SweepFailure) : Hub :=
  (h.setSweep ((Mask.slots h.agent.sweep.pending).foldl (fun w n => w.fail n reason) h.agent.sweep)).endSweep

/-- A slot that leaves FORWARDING while pending fails with LEFT_SERVICE (R166). -/
def Hub.leaveSweep (h : Hub) (n : Slot) : Hub :=
  if h.agent.sweep.inFlight && Mask.has h.agent.sweep.pending n then
    (h.setSweep (h.agent.sweep.fail n .leftService)).endSweepIfDone
  else h

end Sys2Proof.Machine
end

