-- ==== Sys2Proof/Machine/Reference.lean ====
section
/-! DEFINITION. The Timing Unit's work on the reference and on the slots' timing records: candidates, selection and timing
state, holdover, offset and correction (chapter 6), probe windows and compensation (chapter 7). The functions over
Timing and TimingRec are pure; those over Hub hand on the results in the order of R113. -/

namespace Sys2Proof.Machine

/-! ## Candidates and selection (R100, R103, R105, R106) -/

/-- The QUALIFIED entry of highest priority (R105). -/
def Timing.best (t : Timing) : Option Source := (t.cands.find? fun c => c.status == .qualified).map (·.source)

/-- The selected source is listed and QUALIFIED. -/
def Timing.selectionHolds (t : Timing) : Bool :=
  t.cands.any fun c => c.status == .qualified && t.selection == some c.source

/-- The result of a re-evaluation (R105). -/
def Timing.newSelection (t : Timing) (revertive : Bool) : Option Source :=
  if !revertive && t.selectionHolds then t.selection else t.best

/-- The timing state when a selection appears (R106). -/
def TimingState.appear : TimingState → TimingState
  | .freeRun => .acquiring .fresh
  | .holdover => .acquiring .locked
  | .holdoverLapsed => .acquiring .lapsed
  | .acquiring o => .acquiring o
  | .locked => .acquiring .locked

/-- The timing state when one reference replaces another (R106). -/
def TimingState.change : TimingState → TimingState
  | .locked => .acquiring .locked
  | s => s

/-- The timing state when the selection is lost (R106). -/
def TimingState.lose : TimingState → TimingState
  | .acquiring .fresh => .freeRun
  | .acquiring .locked => .holdover
  | .acquiring .lapsed => .holdoverLapsed
  | .locked => .holdover
  | s => s

/-- The correction applies in ACQUIRING and LOCKED only (R106, R110). -/
def TimingState.corrected : TimingState → Bool
  | .acquiring _ | .locked => true
  | .freeRun | .holdover | .holdoverLapsed => false

/-- A re-evaluation of the selection with the change of state that follows (R105, R106). -/
def Timing.reselect (t : Timing) (revertive : Bool) : Timing :=
  let new := t.newSelection revertive
  if new = t.selection then t
  else if t.selection.isNone then { t with selection := new, state := t.state.appear, lockCount := 0, firstOffset := true }
  else if new.isSome then { t with selection := new, state := t.state.change, lockCount := 0, firstOffset := true }
  else { t with selection := none, state := t.state.lose, correction := 0 }

/-- A slot candidate loses validity at once (R104). -/
def Timing.loseSource (t : Timing) (n : Slot) : Timing :=
  { t with cands := t.cands.map fun c => if c.source = .slot n then { c with status := .unavailable, count := 0 } else c }

/-- Counts brought to the qualification period in force (R115). -/
def Candidate.normal (c : Candidate) (q : Nat) : Candidate :=
  { c with count := if c.status = .qualified then q else min c.count q }

/-- One candidate's judgment (R103, third part). -/
def Candidate.judge (c : Candidate) (q : Nat) (valid : Bool) : Candidate :=
  let c := c.normal q
  if !valid then { c with status := .unavailable, count := 0 }
  else if q ≤ c.count + 1 then { c with status := .qualified, count := q }
  else { c with status := .qualifying, count := c.count + 1 }

/-- Every candidate's judgment (R103, third part). -/
def Timing.judgeCands (t : Timing) (q : Nat) (valid : Source → Bool) : Timing :=
  { t with cands := t.cands.map fun c => c.judge q (valid c.source) }

/-- Whether a source is valid at a second judgment (R101, R102). -/
def Hub.sourceValid (h : Hub) : Source → Bool
  | .ext => h.timing.pulse.any fun p => p.good && h.clock.elapsed ≤ p.elapsed + 1100 * nsPerMs
  | .slot n =>
    h.slots[n].state == .forwarding && h.hasCap n (·.timeSource) && h.trecs[n].settled
      && h.trecs[n].report.any fun r => r.traceable && h.clock.elapsed ≤ r.arrival.elapsed + 1100 * nsPerMs

/-! ## Holdover (R107) -/

/-- The holdover clock at its limit: held there, with the change of state or origin (R106, R107). -/
def Timing.holdoverLimit (t : Timing) (limit : Nat) : Timing :=
  match t.state with
  | .holdover => { t with holdover := limit, state := .holdoverLapsed }
  | .acquiring .locked => { t with holdover := limit, state := .acquiring .lapsed, firstOffset := true }
  | _ => t

/-- The second part of a judgment (R103, R107). -/
def Timing.advanceHoldover (t : Timing) (limit : Nat) : Timing :=
  if !t.state.running then t
  else if limit ≤ t.holdover + 1 then t.holdoverLimit limit
  else { t with holdover := t.holdover + 1 }

/-- A new holdover limit (R107, R115). -/
def Timing.setHoldoverLimit (t : Timing) (limit : Nat) : Timing :=
  if t.state.running then (if limit ≤ t.holdover then t.holdoverLimit limit else t)
  else if t.state.lapsed then { t with holdover := limit }
  else t

/-! ## Offset and correction (R108 to R111) -/

/-- The offset of EXT from its pending measurement (R108). -/
def extOffset (p : Int) : Int :=
  let f := p % nsPerSec
  if f < 500000000 then -f else nsPerSec - f

/-- The offset of a slot reference: from T_ref, the arrival as a count of ns, and the compensation (R109). -/
def slotOffset (refSec arrival comp : Nat) : Int := (2 * ((refSec * nsPerSec : Nat) - (arrival : Int)) + comp).tdiv 2

/-- The offset that the selected source's pending measurement gives, if it has one (R103, R108, R109). -/
def Hub.measuredOffset (h : Hub) : Option Int :=
  match h.timing.selection with
  | none => none
  | some .ext => h.timing.extPending.map extOffset
  | some (.slot n) =>
    match h.trecs[n].report with
    | some r => if r.pending && r.traceable then r.comp.map (slotOffset r.refSec r.arrival.time.total) else none
    | none => none

/-- A slot's pending measurement is used or discarded; its latest report stays (R103, R116). -/
def TimingRec.dropMeasurement (r : TimingRec) : TimingRec :=
  { r with report := r.report.map fun p => { p with pending := false } }

/-- The measurement of the selected source is consumed by its use (R103). -/
def Hub.consumeMeasurement (h : Hub) : Hub :=
  match h.timing.selection with
  | some .ext => { h with timing := { h.timing with extPending := none } }
  | some (.slot n) => h.modTrec n TimingRec.dropMeasurement
  | none => h

/-- The first offset of an acquisition that steps hub time (R111). -/
def Timing.steps (t : Timing) (offset : Int) : Bool :=
  t.firstOffset && (t.state == .acquiring .fresh || t.state == .acquiring .lapsed) && 1000 < offset.natAbs

/-- Hub time locks (R106, R107). -/
def Timing.lock (t : Timing) : Timing := { t with state := .locked, unlockCount := 0, holdover := 0 }

/-- The lock and unlock counts after an offset (R110). -/
def Timing.countOffset (t : Timing) (p : TimingParams) (offset : Int) : Timing :=
  match t.state with
  | .acquiring _ =>
    if offset.natAbs ≤ p.lockWindow then
      let t := { t with lockCount := t.lockCount + 1 }
      if 8 ≤ t.lockCount then t.lock else t
    else { t with lockCount := 0 }
  | .locked =>
    if p.unlockThreshold < offset.natAbs then
      if 3 ≤ t.unlockCount + 1 then
        { t with unlockCount := 3, state := .acquiring .locked, lockCount := 0, firstOffset := true }
      else { t with unlockCount := t.unlockCount + 1 }
    else { t with unlockCount := 0 }
  | _ => t

/-- The last offset recorded at the selected entry (R110). -/
def Timing.recordOffset (t : Timing) (offset : Int) : Timing :=
  { t with cands := t.cands.map fun c => if t.selection = some c.source then { c with lastOffset := some offset } else c }

/-- The fifth part of a judgment, but for the step of hub time itself (R103, R110, R111). -/
def Timing.useOffset (t : Timing) (p : TimingParams) : Option Int → Timing
  | none => { t with correction := 0 }
  | some offset =>
    let t := t.recordOffset offset
    if t.steps offset then { t with correction := 0, lockCount := 0, firstOffset := false }
    else { t with correction := clampInt p.slewLimit offset, firstOffset := false }.countOffset p offset

/-! ## What follows a change of timing state (R112, R113, R133) -/

/-- A selection with its priority, as the notice carries it (R113). -/
def Timing.selected (t : Timing) : Option (Nat × Source) :=
  t.selection.map fun s => (t.cands.findIdx (fun c => c.source == s) + 1, s)

/-- The TIMING_CHANGED notice of an event that changed the timing state, its origin or the selection (R113). `old` is the
Timing Unit before the event, `new` after it. -/
def Hub.timingNotice (h : Hub) (old new : Timing) (reason : TimingReason) : Hub :=
  if old.state = new.state ∧ old.selection = new.selection then h
  else
    h.notice Code.timingChanged
      (.timingChanged old.state new.state old.selected new.selected new.state.inSpec new.holdover h.clock.now reason)

/-- A condition that the Timing Unit holds for the hub, raised or cleared as its cause begins or ends (R112). -/
def Hub.follow (h : Hub) (kind : AlarmKind) (was is : Bool) : Hub :=
  if is && !was then h.raise (.hub kind) else if was && !is then h.clear (.hub kind) else h

/-- REFERENCE_LOST is due: there is a list and no selection (R112). -/
def Timing.lost (t : Timing) : Bool := !t.cands.isEmpty && t.selection.isNone

/-- REFERENCE_LOST followed (R112): raised where `mayRaise` says that its cause has begun. -/
def Hub.followReference (h : Hub) (mayRaise : Bool) : Hub :=
  let was := h.timing.refLost
  let is := h.timing.lost && (was || mayRaise)
  { h with timing := { h.timing with refLost := is } }.follow .referenceLost was is

/-- The three conditions of R112, in the order of its table (DESIGN CHOICE, log entry 45), then the permits and CAB_OK for a change of the
in-specification condition (R107, R113). A grant for which hub time enters specification and a counting record of one of the three ends
carries ALARM_ACTION (DESIGN CHOICE, log entry 68). -/
def Hub.timingResults (h : Hub) (old : TimingState) (mayRaise : Bool) : Hub :=
  let new := h.timing.state
  let h := h.followReference mayRaise
  let h := h.follow .holdoverActive (old == .holdover) (new == .holdover)
  let h := h.follow .holdoverLapsed old.lapsed new.lapsed
  if old.inSpec = new.inSpec then h else (h.judgePermits .timeSpecification).judgeOutputs

/-- One event of the Timing Unit outside a judgment: a new Timing taken over, with its notice and results (R113). -/
def Hub.setTiming (h : Hub) (new : Timing) (reason : TimingReason) (mayRaise : Bool) : Hub :=
  let old := h.timing
  ({ h with timing := new }.timingNotice old new reason).timingResults old.state mayRaise

/-- A listed slot candidate loses validity in the event of its slot's change (R104). -/
def Hub.sourceLeft (h : Hub) (n : Slot) : Hub :=
  if h.timing.cands.any fun c => c.source == .slot n then
    let new := (h.timing.loseSource n).reselect h.tables.revertive
    h.setTiming new .sourceLeft (h.timing.selection.isSome && new.selection.isNone)
  else h

/-! ## Timing records (R119, R123 to R132) -/

/-- A reset of the probe window (R129, R102). -/
def TimingRec.resetWindow (r : TimingRec) : TimingRec :=
  { r with window := [], target := none, applied := none, probe := none, report := none }

/-- The record when eligibility ends (R119, R102). -/
def TimingRec.endEligible (r : TimingRec) : TimingRec :=
  { r with probe := none, misses := 0, phaseOut := 0, phaseIn := 0, lastPhase := none, pathLost := false, phaseCond := false,
           report := none }

/-- The Timing Unit takes a window reset (R129). -/
def Hub.windowReset (h : Hub) (n : Slot) : Hub :=
  ((h.modTrec n TimingRec.resetWindow).sourceLeft n).judgePermit .settled n

/-- A miss counted; at the third in a row the path is lost (R124). -/
def Hub.miss (h : Hub) (n : Slot) : Hub :=
  let r := h.trecs[n]
  let misses := min 3 (r.misses + 1)
  if misses = 3 && !r.pathLost then
    ((h.modTrec n fun r => { r with misses, pathLost := true }).raise (.slot n .timingPathLost)).judgePermit .path n
  else h.modTrec n fun r => { r with misses }

/-- The target compensation of a window (R127). -/
def targetComp (window : List Nat) (asymmetry : Int) : Option Nat :=
  (least window).map fun r => (min 65535 (max 0 ((r : Int) + asymmetry))).toNat

/-- The applied compensation after a used sample (R128). -/
def slewComp (applied : Option Nat) (target slewStep : Nat) : Nat :=
  match applied with
  | none => target
  | some c => ((c : Int) + clampInt slewStep ((target : Int) - c)).toNat

/-- A used sample (R127, R128, R124). -/
def TimingRec.useSample (r : TimingRec) (rtt : Nat) (asymmetry : Int) (slewStep : Nat) : TimingRec :=
  let window := (if r.window.length < 8 then r.window else r.window.drop 1) ++ [rtt]
  let target := targetComp window asymmetry
  { r with window, target, applied := target.map (slewComp r.applied · slewStep), accepted := r.accepted + 1, misses := 0,
           pathLost := false, probe := none }

/-- The round trip of an answer (R126). -/
def roundTrip (t1 t4 : HubTime) (turnaround : Nat) : Int :=
  (((t4.total : Int) - t1.total) % (2 ^ 32 : Nat)) - turnaround

/-- The sample of an answer is rejected (R126). -/
def sampleRejected (rtt : Int) (turnaround : Nat) : Bool := 1000000 < turnaround || rtt < 0 || 65535 < rtt

/-- A phase report judged (R132): the phase error clamped and stored, and the counts; the conditions follow. -/
def TimingRec.phase (r : TimingRec) (error : Int) (limit : Nat) : TimingRec :=
  let e := clampInt 1000000 error
  if limit < e.natAbs then { r with lastPhase := some e, phaseOut := min 3 (r.phaseOut + 1), phaseIn := 0 }
  else { r with lastPhase := some e, phaseIn := min 3 (r.phaseIn + 1), phaseOut := 0 }

/-- The ANNOUNCE for a slot of the announce boundary at hub time `b` (R122). -/
def Hub.announceFrame (h : Hub) (b : HubTime) (n : Slot) : Frame :=
  let r := h.trecs[n]
  let flags := boolCode r.applied.isSome + 2 * boolCode h.inSpec + 4 * boolCode h.clock.timeStepped + 8 * boolCode r.granted
  agentFrame .timing Kind.announce (BitVec.ofNat 8 flags) 0 n
    (be 2 b.frame ++ encTime b ++ be 2 (r.applied.getD 0) ++ encTimingState h.timing.state)

/-- A probe attempt (R123). -/
def Hub.probeAttempt (h : Hub) (n : Slot) : Hub :=
  let sequence := h.trecs[n].sequence + 1
  let (h, placed) :=
    (h.modTrec n fun r => { r with sequence }).place n .timing (agentFrame .timing Kind.delayProbe 0 sequence n [])
  if placed then h.modTrec n fun r => { r with probe := some { sequence, t1 := none } } else h.miss n

/-- The work of an announce boundary for one slot (R121). -/
def Hub.announceSlot (b : HubTime) (h : Hub) (n : Slot) : Hub :=
  let h := if h.trecs[n].probe.isSome then (h.modTrec n fun r => { r with probe := none }).miss n else h
  (h.place n .timing (h.announceFrame b n)).1.probeAttempt n

/-- The event of the announce boundary at hub time `b` (R121). -/
def Hub.announce (h : Hub) (b : HubTime) : Hub :=
  let h := (allSlots.filter h.eligible).foldl (Hub.announceSlot b) h
  { h with clock := { h.clock with timeStepped := false } }

/-! ## The second judgment (R103) -/

/-- A pending TIME_SET applied at its boundary (R116). -/
def Hub.applyTimeSet (h : Hub) : Hub :=
  match h.timing.pendingTime with
  | none => h
  | some sec =>
    let h := { h with
      timing := { h.timing with pendingTime := none, extPending := none }
      trecs := mapEach TimingRec.dropMeasurement h.trecs }
    h.stepTo (sec * nsPerSec : Nat)

/-- The reasons of R113 that hold for a judgment: before it, after its fourth part, and after its fifth. -/
def judgmentReasons (old mid new : Timing) : List TimingReason :=
  (if old.state.running && !mid.state.running && mid.state.lapsed then [TimingReason.holdoverExpired] else [])
    ++ (if old.selection ≠ mid.selection then [.selection] else [])
    ++ (if mid.state ≠ new.state then (if new.state = .locked then [.lockAchieved] else [.lockLost]) else [])

/-- One of the reasons that hold: where there are several, the spec does not say which (log entry 7). -/
def pickReason (draw : Nat) : List TimingReason → TimingReason
  | [] => .selection
  | [r] => r
  | r :: rest => if Config.freeChoice draw then r else pickReason draw rest

/-- The second judgment (R103). The notice carries the state that the whole judgment leaves; the alarms and permits of the first
four parts are judged before the fifth may step hub time (R113, R133). -/
def Hub.secondJudgment (h : Hub) : Hub :=
  let h := (h.judgeErroredSeconds).applyTimeSet
  let old := h.timing
  let q := h.tables.timing.q
  let held := old.advanceHoldover h.tables.timing.holdoverLimit
  let mid := (held.judgeCands q h.sourceValid).reselect h.tables.revertive
  let h := { h with timing := mid }
  let offset := h.measuredOffset
  let new := mid.useOffset h.tables.timing offset
  let reasons := judgmentReasons old mid new
  let h := h.timingNotice old new (pickReason h.draws reasons)
  let h := if 1 < reasons.length then { h with draws := h.draws + 1 } else h
  let h := h.timingResults old.state true
  let h := { h with timing := { new with refLost := h.timing.refLost } }
  let h := match offset with
    | none => h
    | some o => let h := h.consumeMeasurement; if mid.steps o then h.stepTo (h.clock.now.total + o) else h
  h.timingResults mid.state false

end Sys2Proof.Machine
end

