-- ==== Sys2Proof/Machine/Slots.lean ====
section
/-! DEFINITION. The Slot Manager's changes of state: the power wait list, the links it orders, the entry to each slot state with
all that R96 hands on with it, in its order, and the reports it takes from the links (chapters 4 and 5). -/

namespace Sys2Proof.Machine

/-! ## The links the Slot Manager orders (R2, R5) -/

/-- An enable of a link (R2). -/
def Hub.enableLink (h : Hub) (n : Slot) : Hub :=
  h.modLink n fun l =>
    match l.hold with
    | some hold => { l with hold := some { hold with thenTrain := true } }
    | none => if l.state = .disabled then { l with state := .training, helloCount := 0 } else l

/-- A frame partly received is discarded and counted as errored (R4, R5, R6). -/
def Hub.dropPartial (h : Hub) (n : Slot) : Hub :=
  if h.links[n].rx.isSome then (h.modLink n fun l => { l with rx := none }).countErrored n else h

/-- A disable of a link (R2). -/
def Hub.disableLink (h : Hub) (n : Slot) : Hub :=
  let h := (h.abort n).modLink n fun l =>
    { l with state := .disabled, helloCount := 0, hold := l.hold.map fun hold => { hold with thenTrain := false } }
  h.dropPartial n

/-- A link reset (R5): the purge, then the link DISABLED and held for 1 ms. The 1 ms is measured by the elapsed reading, so that no step
of hub time moves its end (DESIGN CHOICE, log entry 48). -/
def Hub.resetLink (h : Hub) (n : Slot) : Hub :=
  let h := ((h.purge n).abort n).modLink n fun l =>
    { l with state := .disabled, helloCount := 0, hold := some { due := h.dueIn 1, thenTrain := true } }
  h.dropPartial n

/-! ## The power wait list (R62, R63, R64) -/

/-- A slot joins the tail of the wait list, unless it is in it (R62). -/
def Hub.join (h : Hub) (n : Slot) : Hub :=
  if n ∈ h.manager.waitList then h
  else
    { h with manager := { h.manager with waitList := h.manager.waitList ++ [n] } }.modSlot n fun r =>
      { r with waitStart := some h.clock.now, joined := some h.clock.elapsed, waitRaised := false }

/-- A slot leaves the wait list from wherever it stands (R62). -/
def Hub.unjoin (h : Hub) (n : Slot) : Hub :=
  { h with manager := { h.manager with waitList := h.manager.waitList.filter (· != n) } }.modSlot n fun r =>
    { r with waitStart := none, joined := none, waitRaised := false }

/-- The head of the list enters POWERING, and RESET_HOLD at once where PWR_GOOD is asserted (R67). -/
def Hub.grant (h : Hub) (n : Slot) : Hub :=
  (h.unjoin n).modSlot n fun r =>
    { r with state := if r.pwrGood then .resetHold else .powering, entry := h.stamp, pwrEn := true,
             limit := some (h.dueIn (if r.pwrGood then 10 else 200)), attempt := 0, autoAdmit := false }

/-- The wait list served to the depth given (R63): the hub, and the slots granted with whether POWER_WAIT had been raised. -/
def Hub.serveAt : Nat → Hub → Hub × List (Slot × Bool)
  | 0, h => (h, [])
  | depth + 1, h =>
    match h.manager.waitList with
    | [] => (h, [])
    | n :: _ =>
      if h.committed + h.slots[n].watts ≤ h.tables.budget then
        let rest := Hub.serveAt depth (h.grant n)
        (rest.1, (n, h.slots[n].waitRaised) :: rest.2)
      else (h, [])

/-- The service of the wait list (R63): as many steps as it holds slots. -/
def Hub.serve (h : Hub) : Hub × List (Slot × Bool) := Hub.serveAt h.manager.waitList.length h

/-! ## What a change hands on (R96, R97) -/

/-- The SLOT_CHANGED notice of a change (R97). -/
def Hub.slotNotice (h : Hub) (n : Slot) (old new : SlotState) (reason : SlotReason) : Hub :=
  let r := h.slots[n]
  h.notice Code.slotChanged (.slotChanged n old new reason (if new = .faulted then r.fault else none) r.entry)

/-- POWER_WAIT is cleared where it was raised (R64). -/
def Hub.clearWait (h : Hub) (n : Slot) (raised : Bool) : Hub := if raised then h.clear (.slot n .powerWait) else h

/-- What the service of the list hands on for one granted slot: a service is complete before any notice (R63), so this
follows it (log entry 17). -/
def Hub.announceGrant (h : Hub) (g : Slot × Bool) : Hub :=
  let h := (h.clearWait g.1 g.2).slotNotice g.1 .seated .powering .powerGranted
  if h.slots[g.1].state = .resetHold then h.slotNotice g.1 .powering .resetHold .powerGood else h

def Hub.announceGrants (h : Hub) (gs : List (Slot × Bool)) : Hub := gs.foldl Hub.announceGrant h

/-- The entry to a state (R55, R56): the time of entry is taken and the limit of the state left is cancelled. -/
def Hub.enter (h : Hub) (n : Slot) (state : SlotState) (f : SlotRec → SlotRec) : Hub :=
  h.modSlot n fun r => f { r with state, entry := h.stamp, limit := none, attempt := 0, autoAdmit := false }

/-- The outputs of a slot without power (R55, R88, R93). -/
def SlotRec.unpower (r : SlotRec) (safe : Bool) : SlotRec := { r with pwrEn := false, cardRst := true, safe }

/-- A condition of a timing record is cleared with its alarm (R119). -/
def Hub.clearIf (h : Hub) (held : Bool) (key : AlarmKey) : Hub := if held then h.clear key else h

/-- An alarm is raised where its cause has come. -/
def Hub.raiseIf (h : Hub) (cause : Bool) (key : AlarmKey) : Hub := if cause then h.raise key else h

/-- What the other blocks do when a slot leaves FORWARDING (R96): the Timing Unit ends its eligibility, its validity as a
candidate and its permit (R102, R104, R119, R133); CAB_OK is judged (R152); a sweep fails it (R166). -/
def Hub.leaveForwarding (h : Hub) (n : Slot) : Hub :=
  let r := h.trecs[n]
  let h := h.modTrec n TimingRec.endEligible
  let h := (h.clearIf r.pathLost (.slot n .timingPathLost)).clearIf r.phaseCond (.slot n .phaseOutOfLimit)
  (((h.sourceLeft n).judgePermit .slotState n).judgeOutputs).leaveSweep n

/-- Step 4 of R96 for a change from `old`: what follows the slot's leaving FORWARDING, and the link's leaving LOCKED (R129). R96 gives the
report that a link disabled in LOCKED has left it (R2) no place among its steps; it is taken here, after the alarms and after what
follows the leaving of FORWARDING (DESIGN CHOICE, log entry 53). -/
def Hub.handOn (h : Hub) (n : Slot) (old : SlotState) (linkLeft : Bool) : Hub :=
  let h := if old = .forwarding then h.leaveForwarding n else h
  if linkLeft then h.windowReset n else h

/-! ## Entries to the states -/

/-- A slot goes to a state without power, before the wait list is served: the purge, its place in the wait list given up, the record, and
the link disabled (R62, R88, R89, R93). The Alarm Unit is told of what the disable counts only once the state is set, so that
no slot is EMPTY, OFF or FAULTED with frames queued (log entry 13). -/
def Hub.powerDown (h : Hub) (n : Slot) (state : SlotState) (f : SlotRec → SlotRec) : Hub :=
  (((h.purge n).unjoin n).enter n state f).disableLink n

/-- OFF (R74, R88, R94), with DRAIN_FORCED raised first of its alarms where the drain timeout forces it (R86, R96). Every entry serves
the wait list, one that frees no power too: a SEATED head that leaves the list hands it on (R63; DEDUCED, log entry 40). From FAULTED,
CARD_MISMATCH is cleared before SLOT_FAULT (DESIGN CHOICE, log entry 67). -/
def Hub.enterOffWith (forced : Bool) (h : Hub) (n : Slot) (reason : SlotReason) : Hub :=
  let r := h.slots[n]
  let wasLocked := h.links[n].state == .locked
  let (h, grants) := (h.powerDown n .off fun r => { r.unpower true with identity := none }).serve
  let h := ((h.raiseIf forced (.slot n .drainForced)).clearWait n r.waitRaised).clear (.slot n .cardMismatch)
  let h := h.clearIf (r.state == .faulted) (.slot n .slotFault)
  let h := (h.clearReported n).handOn n r.state wasLocked
  (h.slotNotice n r.state .off reason).announceGrants grants

/-- OFF, the drain timeout apart. -/
def Hub.enterOff (h : Hub) (n : Slot) (reason : SlotReason) : Hub := h.enterOffWith false n reason

/-- FAULTED (R93), and OFF in the same event when the debounced latch is OPEN. -/
def Hub.enterFaulted (h : Hub) (n : Slot) (fault : FaultReason) (reason : SlotReason) : Hub :=
  let r := h.slots[n]
  let wasLocked := h.links[n].state == .locked
  let (h, grants) := (h.powerDown n .faulted fun r => { r.unpower false with fault := some fault }).serve
  let h := h.raise (.slot n .slotFault)
  let h := h.clearIf (r.state == .recovering) (.slot n .linkLost)
  let h := h.modSlot n fun r => { r with limit := some (h.dueIn 2000) }
  let h := (h.clearReported n).handOn n r.state wasLocked
  let h := (h.slotNotice n r.state .faulted reason).announceGrants grants
  if h.slots[n].latchClosed then h else h.enterOff n .latchOpened

/-- The record of an empty slot: the card's parts are gone (R55, R88, R89). The quiesced flag goes with them from OFF too, which R88
does not list (DESIGN CHOICE, log entry 41). -/
def SlotRec.emptied (r : SlotRec) : SlotRec :=
  { r.unpower false with identity := none, powerClass := none, fault := none, retries := 0, quiesced := false }

/-- EMPTY: surprise extraction (R89), or a card taken from an OFF slot (R88), in the order of R89. -/
def Hub.enterEmpty (h : Hub) (n : Slot) : Hub :=
  let r := h.slots[n]
  let wasLocked := h.links[n].state == .locked
  let (h, grants) := (h.powerDown n .empty SlotRec.emptied).serve
  let h := (h.clearWait n r.waitRaised).clear (.slot n .cardMismatch)
  let h := h.clearIf (r.state == .recovering) (.slot n .linkLost)
  let h := h.clearIf (r.state == .faulted) (.slot n .slotFault)
  let h := ((h.raiseIf r.state.inService (.slot n .surpriseExtraction)).clearReported n).handOn n r.state wasLocked
  (h.slotNotice n r.state .empty .removed).announceGrants grants

/-- The record and place of a slot that enters SEATED, and the wait list it joins (R57, R62, R66). `joins`: the cause of entry is
SLOT_POWER or a fault retry. -/
def Hub.seat (h : Hub) (n : Slot) (joins : Bool) : Hub :=
  let h := h.enter n .seated fun r => { r.unpower false with identity := none }
  if joins || (h.tables.plan[n].expected && h.slots[n].latchClosed) then h.join n else h

/-- SEATED (R65, R66, R94). -/
def Hub.enterSeated (h : Hub) (n : Slot) (joins : Bool) (reason : SlotReason) : Hub :=
  let old := h.slots[n].state
  let (h, grants) := (h.seat n joins).serve
  let h := h.clearIf (old == .faulted) (.slot n .slotFault)
  (h.notice Code.slotChanged (.slotChanged n old .seated reason none h.slots[n].entry)).announceGrants grants

/-- RESET_HOLD from POWERING (R67, R68). -/
def Hub.enterResetHold (h : Hub) (n : Slot) : Hub :=
  let h := h.enter n .resetHold fun r => { r with limit := some (h.dueIn 10) }
  h.slotNotice n .powering .resetHold .powerGood

/-- LINKING (R69). -/
def Hub.enterLinking (h : Hub) (n : Slot) : Hub :=
  let h := h.enter n .linking fun r => { r with cardRst := false, limit := some (h.dueIn 1000) }
  (h.enableLink n).slotNotice n .resetHold .linking .resetDone

/-- The IDENTIFY of an attempt (R70, R161). -/
def identifyFrame (n : Slot) (attempt : Nat) (cls : PowerClass) : Frame :=
  agentFrame .control Kind.identify 0 (BitVec.ofNat 8 attempt) n (be 1 (Slot.number n) ++ be 1 (codeIn powerClasses cls))

/-- An identify attempt (R70). -/
def Hub.identifyAttempt (h : Hub) (n : Slot) : Hub :=
  let h := h.modSlot n fun r => { r with attempt := r.attempt + 1, limit := some (h.dueIn 100) }
  let r := h.slots[n]
  (h.place n .identify (identifyFrame n r.attempt (r.powerClass.getD .d))).1

/-- IDENTIFYING (R70): the first IDENTIFY is placed, and AGENT_OVERLOAD raised where that fails, before the notice of the entry (DESIGN
CHOICE, log entry 52). -/
def Hub.enterIdentifying (h : Hub) (n : Slot) : Hub :=
  ((h.enter n .identifying id).identifyAttempt n).slotNotice n .linking .identifying .linkLocked

/-- FORWARDING (R73, R82, R91): the slot's scheduler judges the change of state, and a lock that came with it, at once, before anything
that the event places for the slot (R45; DEDUCED, log entry 22); then LINK_LOST is cleared, and the permit and CAB_OK are judged. -/
def Hub.enterForwarding (h : Hub) (n : Slot) (reason : SlotReason) : Hub :=
  let old := h.slots[n].state
  let h := (h.enter n .forwarding fun r => { r with fault := none }).schedule n
  let h := h.clearIf (old == .recovering) (.slot n .linkLost)
  let h := (h.judgePermit .slotState n).judgeOutputs
  h.slotNotice n old .forwarding reason

/-- AWAITING_ADMIT after a valid reply, and FORWARDING in the same event with auto admission and the link LOCKED (R71, R72). -/
def Hub.enterAwaiting (h : Hub) (n : Slot) (autoAdmit mismatch : Bool) : Hub :=
  let h := (h.clearIdentify n).enter n .awaitingAdmit fun r => { r with autoAdmit }
  let h := h.raiseIf mismatch (.slot n .cardMismatch)
  let h := h.slotNotice n .identifying .awaitingAdmit .identified
  if autoAdmit && h.links[n].state == .locked then h.enterForwarding n .autoAdmitted else h

/-- RECOVERING (R81). -/
def Hub.enterRecovering (h : Hub) (n : Slot) (reason : SlotReason) : Hub :=
  let h := h.enter n .recovering fun r => { r with limit := some (h.dueIn h.tables.recoveryWindow) }
  let h := (h.raise (.slot n .linkLost)).leaveForwarding n
  h.slotNotice n .forwarding .recovering reason

/-- DRAINING (R84): the QUIESCE is placed in the event of entry. -/
def Hub.enterDraining (h : Hub) (n : Slot) (reason : SlotReason) : Hub :=
  let old := h.slots[n].state
  let h := h.enter n .draining fun r => { r with quiesced := false, limit := some (h.dueIn h.tables.drainTimeout) }
  let h := ((h.place n .control (agentFrame .control Kind.quiesce 0 0 n [])).1).schedule n
  let h := h.clearIf (old == .recovering) (.slot n .linkLost)
  (h.handOn n old false).slotNotice n old .draining reason

/-- FENCED (R90): the Timing Unit resets the window with the change. -/
def Hub.enterFenced (h : Hub) (n : Slot) (reason : SlotReason) : Hub :=
  let old := h.slots[n].state
  let h := (h.purge n).enter n .fenced id
  let h := h.clearIf (old == .recovering) (.slot n .linkLost)
  (h.handOn n old true).slotNotice n old .fenced reason

/-! ## Events that several commands share -/

/-- A release: SLOT_RELEASE, or latch OPEN in the states whose outcome is OFF or DRAINING (R74, R83, R94). -/
def Hub.release (h : Hub) (n : Slot) (reason : SlotReason) : Hub :=
  match h.slots[n].state with
  | .seated | .powering | .resetHold | .linking | .identifying | .awaitingAdmit | .faulted => h.enterOff n reason
  | .forwarding | .recovering | .fenced => h.enterDraining n reason
  | .empty | .draining | .off => h

/-- A fence, of a slot in FORWARDING or RECOVERING (R90, R91). -/
def Hub.fence (h : Hub) (n : Slot) (reason : SlotReason) : Hub :=
  match h.slots[n].state with
  | .forwarding | .recovering => h.enterFenced n reason
  | _ => h

/-- The report "link locked" (R3, R69, R72, R82, R85). -/
def Hub.linkLocked (h : Hub) (n : Slot) : Hub :=
  let r := h.slots[n]
  match r.state with
  | .linking => h.enterIdentifying n
  | .recovering => h.enterForwarding n .linkLocked
  | .awaitingAdmit => if r.autoAdmit then h.enterForwarding n .linkLocked else h
  | _ => h.schedule n

/-- The report "link lost", then the link's leaving LOCKED taken by the Timing Unit (R4, R81, R91, R129). Section 7.8 leaves open which of the
two is taken first; here the Slot Manager's change comes first, so that a permit is withdrawn with reason SLOT_STATE (DESIGN CHOICE, log
entry 58). -/
def Hub.linkLeft (h : Hub) (n : Slot) (reason : SlotReason) : Hub :=
  let h :=
    match h.slots[n].state with
    | .forwarding => h.enterRecovering n reason
    | .fenced => h.enterFaulted n .linkLost reason
    | _ => h
  h.windowReset n

/-- The drain completes when the quiesced flag is set, the queues are empty and nothing is in flight (R86). -/
def Hub.drainDone (h : Hub) (n : Slot) : Bool :=
  h.slots[n].state == .draining && h.slots[n].quiesced && h.ports[n].entries.isEmpty && h.links[n].tx.isNone

/-- Whether SLOT_LINK_RESET is accepted in a state (R95). -/
def SlotState.takesLinkReset : SlotState → Bool
  | .linking | .identifying | .awaitingAdmit | .forwarding | .recovering | .fenced => true
  | _ => false

end Sys2Proof.Machine
end

