-- ==== Sys2Proof/Machine/Operands.lean ====
section
/-! DEFINITION. The operands of the commands that read them from a queue: the request at the head of the inbound queue with
the port's judgments of it (R173, R176), and the frame at the head of the agent inbox with the agent's two judgments of
it (R158, R159) and the bodies of the kinds that a card sends (section 12.2). -/

namespace Sys2Proof.Machine

/-! ## Requests (R173, R176) -/

/-- The reply to a request (R176). -/
def Hub.answer (h : Hub) (r : Request) (status : Status) (body : Body) : Hub := h.reply r.tag r.code status body

/-- The body of a refusal whose own rule names no value: of the request's reply format (R176), its values free but for those that a rule states
for every reply to the request, which are the free counts in PORT_COUNTS's (R34; log entry 5). -/
def Hub.refusalBody (h : Hub) (code : Byte) : Body :=
  if code = Code.portCounts then .portCountsRefused h.draws h.store.freeShared h.store.freeReserve else .unstated code h.draws

/-- A refusal whose own rule names no value of the body (R176, log entry 5). -/
def Hub.refuse (h : Hub) (r : Request) (status : Status) : Hub :=
  { h with draws := h.draws + 1 }.answer r status (h.refusalBody r.code)

/-- A request leaves the inbound queue (R173). -/
def Hub.popRequest (h : Hub) (rest : List Request) : Hub := { h with port := { h.port with inbound := rest } }

/-- Taking the request at the head of the inbound queue, when it is one of the row's code and no hub reset is pending:
a body of the wrong length is refused, else the owner acts on it (R173). -/
def Hub.take (code : Byte) (act : Request → Hub → Hub) (h : Hub) : Hub :=
  match h.port.inbound with
  | [] => h
  | r :: rest =>
    if h.port.resetPending || r.kind != 1 || r.code != code then h
    else if bodyLengthOk code r.body then act r (h.popRequest rest)
    else (h.popRequest rest).answer r .badLength .empty

/-- A request whose first byte is a slot number: BAD_PARAM outside 1..12. -/
def Hub.withSlot (r : Request) (act : Slot → Hub → Hub) (h : Hub) : Hub :=
  match Slot.ofNumber (fieldAt r.body 0 1) with
  | none => h.refuse r .badParam
  | some n => act n h

/-- OK, or CLAMPED when a value was clamped. -/
def clampStatus (clamped : Bool) : Status := if clamped then .clamped else .ok

/-! ## Bodies of management frames from the cards (section 12.2) -/

/-- An IDENTITY_REPLY's body; none when it is not well formed (R71). -/
def parseIdentity (p : List Byte) : Option Identity := do
  let kind ← ofCode cardKinds (fieldAt p 0 1)
  let declared ← ofCode powerClasses (fieldAt p 4 1)
  let caps := p.getD 5 0
  let len := fieldAt p 6 1
  if p.length < 7 || 16 < len || p.length != 7 + len then none
  else
    pure { kind, code := BitVec.ofNat 16 (fieldAt p 1 2), revision := p.getD 3 0, declared,
           caps := { timeSink := caps.getLsbD 0, timeSource := caps.getLsbD 1, radiates := caps.getLsbD 2 },
           serial := p.drop 7 }

/-- A SOURCE_REPORT's body: T_ref and the traceable flag (R102). -/
def parseSourceReport (p : List Byte) : Option (Nat × Bool) :=
  if p.length = 7 then (boolOf (fieldAt p 6 1)).map (fieldAt p 0 6, ·) else none

/-- A CARD_ALARM's body: code, RAISE or not, severity (R146). -/
def parseCardAlarm (p : List Byte) : Option (BitVec 16 × Bool × Severity) :=
  if p.length = 4 then
    match fieldAt p 2 1, ofCode severities (fieldAt p 3 1) with
    | 1, some sev => some (BitVec.ofNat 16 (fieldAt p 0 2), true, sev)
    | 2, some sev => some (BitVec.ofNat 16 (fieldAt p 0 2), false, sev)
    | _, _ => none
  else none

/-- The value lengths of an item (section 9.4). -/
def SweepItem.fits : SweepItem → Nat → Bool
  | .status, len | .alarmSummary, len => len == 4
  | .temperature, len => len == 2
  | .inventory, len => 1 ≤ len && len ≤ 32

/-- A SWEEP_REPLY's value; none when its length does not agree or does not fit (R158). -/
def parseSweepReply (w : Sweep) (p : List Byte) : Option (List Byte) :=
  let len := fieldAt p 0 1
  if p.length = 1 + len && 1 ≤ len && (if w.inFlight then w.item.fits len else len ≤ 32) then some (p.drop 1) else none

/-! ## The agent's judgments (R158, R159) -/

/-- The first judgment: the frame's form (R158). -/
def Hub.formOk (h : Hub) (f : Frame) : Bool :=
  if f.kind = Kind.identityReply then f.cls == .control && (parseIdentity f.payload).isSome
  else if f.kind = Kind.quiesced then f.cls == .control && f.payload.isEmpty
  else if f.kind = Kind.probeReply then f.cls == .timing && f.payload.length == 4
  else if f.kind = Kind.phaseReport then f.cls == .control && f.payload.length == 4
  else if f.kind = Kind.sourceReport then f.cls == .timing && (parseSourceReport f.payload).isSome
  else if f.kind = Kind.cardAlarm then f.cls == .control && (parseCardAlarm f.payload).isSome
  else if f.kind = Kind.sweepReply then f.cls == .control && (parseSweepReply h.agent.sweep f.payload).isSome
  else false

/-- The second judgment: the state of the frame's slot and of its owner's records (R159). -/
def Hub.accepts (h : Hub) (f : Frame) (n : Slot) : Bool :=
  let st := h.slots[n].state
  if f.kind = Kind.identityReply then st == .identifying
  else if f.kind = Kind.quiesced then st == .draining
  else if f.kind = Kind.probeReply then h.trecs[n].probe.isSome
  else if f.kind = Kind.phaseReport then h.eligible n
  else if f.kind = Kind.sourceReport then st == .forwarding
  else if f.kind = Kind.cardAlarm then st == .forwarding || st == .draining || st == .fenced
  else h.agent.sweep.inFlight && Mask.has h.agent.sweep.pending n && f.sequence == h.agent.sweep.number

/-- A form discard (R158, R160). -/
def Hub.formDiscard (h : Hub) (n : Slot) : Hub :=
  { h with agent := { h.agent with formDiscards := h.agent.formDiscards.set n (h.agent.formDiscards[n] + 1) } }

/-- A state discard (R159, R160). -/
def Hub.stateDiscard (h : Hub) (n : Slot) : Hub :=
  { h with agent := { h.agent with stateDiscards := h.agent.stateDiscards.set n (h.agent.stateDiscards[n] + 1) } }

/-- A frame leaves the inbox (R157). -/
def Hub.popInbox (h : Hub) (rest : List InboxFrame) : Hub := { h with agent := { h.agent with inbox := rest } }

/-- The dispatch of the frame at the head of the inbox, when it is one of the row's kind: discarded under R158 or R159, or handed to
its owner (R157). -/
def Hub.dispatch (kind : BitVec 6) (act : InboxFrame → Hub → Hub) (h : Hub) : Hub :=
  match h.agent.inbox with
  | [] => h
  | e :: rest =>
    if e.frame.kind != kind then h
    else
      let h := h.popInbox rest
      if !h.formOk e.frame then h.formDiscard e.slot
      else if !h.accepts e.frame e.slot then h.stateDiscard e.slot
      else act e h

end Sys2Proof.Machine
end

