-- ==== Sys2Proof/Machine/AlarmRequests.lean ====
section
/-! DEFINITION. The requests of the Alarm Unit (sections 8.3 and 8.8). -/

namespace Sys2Proof.Machine

/-- The records from a position on, with their positions, in order (R155). -/
def Alarms.fromPosition (a : Alarms) (start : Nat) : List (Nat × AlarmRec) :=
  (a.full.toList.map (0, ·) ++ a.recs.zipIdx.map fun (p : AlarmRec × Nat) => (p.2 + 1, p.1)).filter fun p => start ≤ p.1

/-- How many ACTIVE records have a severity (R155). -/
def Alarms.activeAt (a : Alarms) (sev : Severity) : Nat := (a.all.filter fun r => r.active && r.severity == sev).length

/-- The body of ALARM_LIST's reply (R155). -/
def Hub.alarmListBody (h : Hub) (start : Nat) : AlarmListBody :=
  let a := h.alarms
  let found := a.fromPosition start
  { page := found.take 8, records := a.recs.length, fullHeld := a.full.isSome, next := (found[8]?).map (·.1),
    changeNumber := a.changeNumber, activeCritical := a.activeAt .critical, activeMajor := a.activeAt .major,
    activeMinor := a.activeAt .minor, activeWarning := a.activeAt .warning,
    unacked := (a.all.filter fun r => r.active && !r.acked).length, lamps := a.lamps, relay := h.tables.relay }

/-- ALARM_LIST (R155). -/
def Hub.alarmList (r : Request) (h : Hub) : Hub :=
  if fieldAt r.body 0 1 < 64 then h.answer r .ok (.alarmList (h.alarmListBody (fieldAt r.body 0 1)))
  else h.refuse r .badParam

def execAlarmList (s : State) : Host.Outcome State Fault Refusal := s.onHub (Hub.take Code.alarmList Hub.alarmList)

/-- The source of an alarm as a request names it: 0 the hub, 1..12 a slot; none for a number outside (R144). -/
def alarmSource (v : Nat) : Option (Option Slot) := if v = 0 then some none else (Slot.ofNumber v).map some

/-- The keys that an ALARM_ACK selects, in position order; none when it is refused (R144). -/
def Hub.ackKeys (h : Hub) (body : List Byte) : Option (List AlarmKey) :=
  match fieldAt body 0 1 with
  | 1 =>
    match alarmSource (fieldAt body 1 1), ofCode alarmKinds (fieldAt body 2 1) with
    | some source, some kind =>
      let key : AlarmKey := { source, kind, detail := BitVec.ofNat 16 (fieldAt body 3 2) }
      if source.isSome = kind.slotSourced ∧ h.alarms.all.any (fun r => r.key == key) then some [key] else none
    | _, _ => none
  | 2 =>
    match ofCode severities (fieldAt body 5 1) with
    | some sev =>
      some ((h.alarms.all.filter fun r => codeIn severities sev ≤ codeIn severities r.severity).map (·.key))
    | none => none
  | _ => none

/-- An acknowledged record: an ACTIVE one of an EVENT kind becomes CLEARED (R144). -/
def AlarmRec.ack (r : AlarmRec) (t : Stamp) : AlarmRec :=
  { r with acked := true, lastChange := t, active := r.active && !r.key.kind.isEvent }

/-- What follows the change of several records in one event: the permits, the outputs once, then each record's notice and relay
frame in position order, as the change left it (R144, R149, R153). R144 gives that order for ALARM_ACK; for KIND_SET, where R153 gives none,
it is the model's (DESIGN CHOICE, log entry 61). An AGENT_OVERLOAD that one record's refused relay frame raises is taken whole, its notice too,
before the next record's notice, which still shows its record as the change left it (DESIGN CHOICE, log entry 77). `old` is the hub before
the change. -/
def Hub.changedAll (old : Hub) (keys : List AlarmKey) (reason : AlarmReason) (h : Hub) : Hub :=
  (keys.filterMap h.alarms.find).foldl (Hub.tellWith raiseAgain reason) (Hub.judgeWithheldWith raiseAgain old h).judgeOutputs

/-- The records acknowledged that a list of keys selects (R144). -/
def Hub.ackAll (h : Hub) (keys : List AlarmKey) : Hub :=
  let a := keys.foldl (fun (a : Alarms) key => a.update key (·.ack h.stamp)) h.alarms
  Hub.changedAll h keys .acknowledged { h with alarms := a }

/-- ALARM_ACK (R144). -/
def Hub.alarmAck (r : Request) (h : Hub) : Hub :=
  match h.ackKeys r.body with
  | none => h.refuse r .badParam
  | some keys =>
    let fresh := h.alarms.all.filter fun rec => rec.key ∈ keys && !rec.acked
    let cleared := fresh.filter fun rec => rec.active && rec.key.kind.isEvent
    let h := h.ackAll (fresh.map (·.key))
    h.answer r .ok (.alarmAck fresh.length cleared.length h.alarms.lamps)

def execAlarmAck (s : State) : Host.Outcome State Fault Refusal := s.onHub (Hub.take Code.alarmAck Hub.alarmAck)

/-- A record that a purge removes (R145). -/
def AlarmRec.purgeable (r : AlarmRec) : Bool := !r.active && r.acked

/-- The table after a purge (R145). -/
def Alarms.purge (a : Alarms) : Alarms :=
  { a with full := a.full.filter fun r => !r.purgeable
           recs := a.recs.filter fun r => !r.purgeable
           changeNumber := a.changeNumber + BitVec.ofNat 32 (a.all.filter (·.purgeable)).length }

/-- ALARM_PURGE (R145). -/
def Hub.alarmPurge (r : Request) (h : Hub) : Hub :=
  let new := { h with alarms := h.alarms.purge }.judgeOutputs
  new.answer r .ok (.alarmPurge (h.alarms.all.filter (·.purgeable)).length new.alarms.all.length)

def execAlarmPurge (s : State) : Host.Outcome State Fault Refusal := s.onHub (Hub.take Code.alarmPurge Hub.alarmPurge)

/-- The effective severities of a kind's records formed again (R138, R153). -/
def Alarms.reform (a : Alarms) (kind : AlarmKind) (e : KindEntry) : Alarms :=
  let f (r : AlarmRec) : AlarmRec :=
    if r.key.kind = kind then { r with severity := effectiveSeverity e kind r.reported } else r
  { a with full := a.full.map f, recs := a.recs.map f }

/-- A kind's entry replaced with all that follows (R153). -/
def Hub.setKind (h : Hub) (kind : AlarmKind) (e : KindEntry) : Hub :=
  let changed := h.alarms.all.filter fun r => r.key.kind = kind ∧ r.severity ≠ effectiveSeverity e kind r.reported
  Hub.changedAll h (changed.map (·.key)) .severity
    { h with tables := { h.tables with kinds := h.tables.kinds.set kind.idx e }, alarms := h.alarms.reform kind e }

/-- KIND_SET (R153). -/
def Hub.kindSet (r : Request) (h : Hub) : Hub :=
  match ofCode alarmKinds (fieldAt r.body 0 1) with
  | none => h.refuse r .badParam
  | some kind =>
    match parseKindEntry kind (r.body.drop 1) with
    | none => h.refuse r .badParam
    | some e =>
      let h := h.setKind kind e
      let recs := h.alarms.all.filter fun rec => rec.key.kind == kind
      h.answer r .ok (.kindSet e recs.length (recs.filter (·.active)).length)

def execKindSet (s : State) : Host.Outcome State Fault Refusal := s.onHub (Hub.take Code.kindSet Hub.kindSet)

/-- RELAY_SET (R154). -/
def Hub.relaySet (r : Request) (h : Hub) : Hub :=
  match parseRelay r.body with
  | none => h.refuse r .badParam
  | some relay =>
    { h with tables := { h.tables with relay } }.answer r .ok
      (.relaySet h.tables.relay relay (relay.map fun (n : Slot) => h.slots[n].state))

def execRelaySet (s : State) : Host.Outcome State Fault Refusal := s.onHub (Hub.take Code.relaySet Hub.relaySet)

end Sys2Proof.Machine
end

