-- ==== Sys2Proof/Machine/ClockEvents.lean ====
section
/-! DEFINITION. The events of the hub clock and of EXTREF (chapters 6 and 7), and of the monitors that count by them. -/

namespace Sys2Proof.Machine

/-- FRAME_BOUNDARY (R98, R120): the first frame boundary that is due, or else the one that the clock now runs on to. -/
def Hub.frameBoundary (h : Hub) : Hub :=
  let clock := if (h.clock.first .frame).isSome then h.clock else h.clock.toFrame
  match clock.first .frame with
  | some b => { h with clock := clock.take .frame }.countFrame b.time
  | none => h

def execFrameBoundary (s : State) : Host.Outcome State Fault Refusal := s.onHub Hub.frameBoundary

/-- The first announce boundary that is due is taken (R121). -/
def Hub.takeAnnounce (h : Hub) : Hub :=
  match h.clock.announces with
  | [] => h
  | time :: rest => { h with clock := { h.clock with announces := rest } }.announce time

/-- ANNOUNCE_BOUNDARY (R120, R121): the first announce boundary that is due; or the frame boundary that FRAME_BOUNDARY would take, where
that one brings the announce counter to N. -/
def Hub.announceBoundary (h : Hub) : Hub :=
  if h.clock.announces = [] ∧ h.tables.timing.announceInterval ≤ h.timing.announceCount + 1 then h.frameBoundary.takeAnnounce
  else h.takeAnnounce

def execAnnounceBoundary (s : State) : Host.Outcome State Fault Refusal := s.onHub Hub.announceBoundary

/-- The clock's own events up to the next second boundary, one after another, to the depth given: an announce boundary that is
due, else the frame boundary that is due or that the clock runs on to (R98, R120). -/
def Hub.towardsSecond : Nat → Hub → Hub
  | 0, h => h
  | depth + 1, h =>
    if h.clock.announces ≠ [] then Hub.towardsSecond depth h.takeAnnounce
    else if (h.clock.first .second).isSome then h
    else Hub.towardsSecond depth h.frameBoundary

/-- A second holds 100 frame boundaries, each perhaps an announce boundary too. -/
def Clock.eventsInSecond (c : Clock) : Nat := 2 * (c.due.length + 100) + c.announces.length

/-- SECOND_JUDGMENT (R98, R103): the first second boundary that is due; or else the clock runs on to the next one, and every frame
boundary and announce boundary on the way is taken as the event it is. -/
def Hub.takeSecond (h : Hub) : Hub :=
  let h := if (h.clock.first .second).isSome then h else h.towardsSecond h.clock.eventsInSecond
  { h with clock := h.clock.take .second }.secondJudgment

def execSecondJudgment (s : State) : Host.Outcome State Fault Refusal := s.onHub Hub.takeSecond

/-- LINK_ERRORS_CLEAR (R11): the clear run of a link reaches 10 with the second in progress, and the record is ACTIVE. As a row of its own it
ends that link's second, so that a SECOND_JUDGMENT at the same boundary judges a second of its own (DESIGN CHOICE, log entry 74). -/
def Hub.linkErrorsClear (h : Hub) (n : Slot) : Hub :=
  let m := h.links[n].monitor
  if !m.reached && 10 ≤ m.clearRun + 1 && h.isActive (.slot n .linkErrors) then h.judgeErrored n else h

def execLinkErrorsClear (n : Slot) (s : State) : Host.Outcome State Fault Refusal := s.onHub (·.linkErrorsClear n)

/-- HOLDOVER_LIMIT_REACHED (R107): the holdover clock reaches its limit with this second. -/
def Hub.holdoverReached (h : Hub) : Hub :=
  if h.timing.state.running && h.tables.timing.holdoverLimit ≤ h.timing.holdover + 1 then
    h.setTiming (h.timing.holdoverLimit h.tables.timing.holdoverLimit) .holdoverExpired false
  else h

def execHoldoverLimitReached (s : State) : Host.Outcome State Fault Refusal := s.onHub Hub.holdoverReached

/-- A pulse is good when one came before it within 1 s ± 1,000 ns of elapsed time (R101). -/
def Timing.goodPulse (t : Timing) (elapsed : Nat) : Bool :=
  t.pulse.any fun p => p.elapsed + (nsPerSec - 1000) ≤ elapsed && elapsed ≤ p.elapsed + (nsPerSec + 1000)

/-- A pulse taken (R101), while the load runs too (DESIGN CHOICE, log entry 63). Where the `dt` before it passes 1.1 s after the previous pulse,
the pulse is taken first: no pulse-lost event falls, and a measurement still pending stays (DESIGN CHOICE, log entry 79). -/
def Hub.takePulse (h : Hub) : Hub :=
  let good := h.timing.goodPulse h.clock.elapsed
  { h with timing := { h.timing with
    pulse := some { arrival := h.clock.now, elapsed := h.clock.elapsed, good }
    extPending := if good then some ((h.clock.now.total : Int) - h.tables.timing.cableDelay) else h.timing.extPending } }

/-- EXTREF_PULSE (R101), after `dt` ns of the reference oscillator (log entries 2 and 79). -/
def execExtrefPulse (dt : Nat) (s : State) : Host.Outcome State Fault Refusal := s.onHub fun h => (h.run dt).takePulse

/-- EXT_PULSE_LOST (R101). -/
def Hub.pulseLost (h : Hub) : Hub := { h with timing := { h.timing with pulse := none, extPending := none } }

def execExtPulseLost (s : State) : Host.Outcome State Fault Refusal := s.onHub Hub.pulseLost

end Sys2Proof.Machine
end

