-- ==== Sys2Proof/Machine/HubRequests.lean ====
section
/-! DEFINITION. The requests of the hub, the sweeps and the configuration (sections 9.4, 10.3, 10.6 and 11.3). -/

namespace Sys2Proof.Machine

/-- UNKNOWN_REQUEST (R173): the request at the head has another message kind, or a code that names no request. -/
def Hub.unknownRequest (h : Hub) : Hub :=
  match h.port.inbound with
  | [] => h
  | r :: rest =>
    if h.port.resetPending || (r.kind == 1 && isRequestCode r.code) then h
    else (h.popRequest rest).answer r .unknownRequest .empty

def execUnknownRequest (s : State) : Host.Outcome State Fault Refusal := s.onHub Hub.unknownRequest

/-- HUB_INFO (R177). Before the start-up event its time is not stated (log entry 6). -/
def Hub.hubInfo (r : Request) (h : Hub) : Hub :=
  { h with draws := h.draws + 1 }.answer r .ok (.hubInfo h.config.status h.config.strap h.manager.startUpAt h.draws)

def execHubInfo (s : State) : Host.Outcome State Fault Refusal := s.onHub (Hub.take Code.hubInfo Hub.hubInfo)

/-- The body of HUB_STATUS's reply (R178). The sweep number is that of the last sweep while none is in flight (DESIGN CHOICE, log entry
57). -/
def Hub.statusBody (h : Hub) : HubStatusBody :=
  { now := h.clock.now, timing := h.timing.state, inSpec := h.inSpec, selection := h.timing.selection,
    states := mapEach (·.state) h.slots, budget := h.tables.budget, committed := h.committed, waitList := h.manager.waitList,
    defaultTarget := h.tables.defaultTarget, freeShared := h.store.freeShared, freeReserve := h.store.freeReserve,
    inboxCount := h.agent.inbox.length, inboxOverflows := h.agent.inboxOverflows,
    reserveRefusals := h.agent.reserveRefusals, formDiscards := h.agent.formDiscards,
    stateDiscards := h.agent.stateDiscards, sweepInFlight := h.agent.sweep.inFlight, sweepNumber := h.agent.sweep.number,
    nextSweepNumber := h.agent.sweep.nextNumber, saving := h.config.save.isSome, lamps := h.alarms.lamps,
    records := h.alarms.all.length, activeRecords := (h.alarms.all.filter (·.active)).length,
    openCount := h.port.openCount, replies := h.port.replies, notices := h.port.notices, overrun := h.port.overrun,
    noticesLost := h.port.noticesLost, requestsDiscarded := h.port.requestsDiscarded,
    noticesDiscarded := h.port.noticesDiscarded, lengthErrors := h.port.lengthErrors,
    truncatedWrites := h.port.truncatedWrites }

/-- HUB_STATUS (R178). -/
def Hub.hubStatus (r : Request) (h : Hub) : Hub := h.answer r .ok (.hubStatus h.statusBody)

def execHubStatus (s : State) : Host.Outcome State Fault Refusal := s.onHub (Hub.take Code.hubStatus Hub.hubStatus)

/-- HUB_RESET (R179). -/
def Hub.hubReset (r : Request) (h : Hub) : Hub :=
  if h.config.save.isSome then h.answer r .busy .empty
  else
    let h := h.answer r .ok .empty
    { h with port := { h.port with resetPending := true } }

def execHubReset (s : State) : Host.Outcome State Fault Refusal := s.onHub (Hub.take Code.hubReset Hub.hubReset)

/-! ## Sweeps (R164, R167) -/

/-- The SWEEP_QUERY of a sweep for a slot (R164). -/
def Sweep.query (w : Sweep) (n : Slot) : Frame :=
  agentFrame .control Kind.sweepQuery 0 w.number n (be 1 (codeIn sweepItems w.item))

/-- One requested slot at the taking of a sweep (R164, steps 4 and 5). -/
def Hub.querySlot (h : Hub) (n : Slot) : Hub :=
  if h.slots[n].state ≠ .forwarding then h.setSweep (h.agent.sweep.fail n .notInService)
  else
    let (h, placed) := h.place n .control (h.agent.sweep.query n)
    let w := h.agent.sweep
    h.setSweep (if placed then { w with pending := Mask.insert w.pending n } else w.fail n .queryNotSent)

/-- A sweep taken (R164). -/
def Hub.startSweep (h : Hub) (tag : Byte) (item : SweepItem) (mask : SlotMask) (timeout : Nat) : Hub :=
  let applied := clampNat 10 1000 timeout
  let w := h.agent.sweep
  let h := h.setSweep
    { inFlight := true, nextNumber := w.nextNumber + 1, number := w.nextNumber, item, requested := mask, timeout := applied,
      clamped := applied != timeout, tag, due := h.dueIn applied }
  ((Mask.slots mask).foldl Hub.querySlot h).endSweepIfDone

/-- SWEEP (R164). -/
def Hub.sweepRequest (r : Request) (h : Hub) : Hub :=
  match ofCode sweepItems (fieldAt r.body 0 1), Mask.ofValue (fieldAt r.body 1 2) with
  | some item, some mask =>
    if mask = 0 then h.refuse r .badParam
    else if h.agent.sweep.inFlight then h.refuse r .busy
    else h.startSweep r.tag item mask (fieldAt r.body 3 2)
  | _, _ => h.refuse r .badParam

def execSweep (s : State) : Host.Outcome State Fault Refusal := s.onHub (Hub.take Code.sweep Hub.sweepRequest)

/-- SWEEP_ABORT (R167): the sweep's reply is queued first. -/
def Hub.sweepAbort (r : Request) (h : Hub) : Hub :=
  if h.agent.sweep.inFlight then (h.failSweep .aborted).answer r .ok .empty else h.answer r .badState .empty

def execSweepAbort (s : State) : Host.Outcome State Fault Refusal := s.onHub (Hub.take Code.sweepAbort Hub.sweepAbort)

/-! ## Saving (R185) -/

/-- CONFIG_SAVE (R185). -/
def Hub.configSave (r : Request) (h : Hub) : Hub :=
  if h.config.save.isSome then h.refuse r .busy
  else { h with config := { h.config with save := some { snapshot := h.settings, tag := r.tag, replyDue := true } } }

def execConfigSave (s : State) : Host.Outcome State Fault Refusal := s.onHub (Hub.take Code.configSave Hub.configSave)

end Sys2Proof.Machine
end

