-- ==== Sys2Proof/Machine/Inbox.lean ====
section
/-! DEFINITION. The dispatch of the agent inbox, one row for each kind that a card sends and one for what the agent does not accept
(chapter 9), and the sweep's timeout. -/

namespace Sys2Proof.Machine

/-- A higher power class than another, in the order A, B, C, D (R71). -/
def PowerClass.higher (x y : PowerClass) : Bool := codeIn powerClasses y < codeIn powerClasses x

/-- A valid reply judged (R71). -/
def Hub.identified (h : Hub) (n : Slot) (i : Identity) : Hub :=
  let h := h.modSlot n fun r => { r with identity := some i }
  let plan := h.tables.plan[n]
  if i.declared.higher (h.slots[n].powerClass.getD .d) then h.enterFaulted n .powerMismatch .identified
  else if plan.kind.any (· != i.kind) then h.enterAwaiting n false true
  else h.enterAwaiting n plan.autoAdmit false

/-- IDENTITY_REPLY (R71, R159). -/
def execIdentityReply (s : State) : Host.Outcome State Fault Refusal :=
  s.onHub (Hub.dispatch Kind.identityReply fun e h =>
    match parseIdentity e.frame.payload with
    | some i => h.identified e.slot i
    | none => h)

/-- QUIESCED (R85, R86). -/
def Hub.quiesce (h : Hub) (n : Slot) : Hub :=
  let h := h.modSlot n fun r => { r with quiesced := true }
  if h.drainDone n then h.enterOff n .drainDone else h

def execQuiesced (s : State) : Host.Outcome State Fault Refusal :=
  s.onHub (Hub.dispatch Kind.quiesced fun e h => h.quiesce e.slot)

/-- An answer's sample: used, or rejected (R126, R127). A grant for which the path and the window come true at once carries PATH (DEDUCED,
log entry 33); one that waits for the counting record of TIMING_PATH_LOST too, under the action WITHDRAW_PERMIT, is judged inside the
clear and carries ALARM_ACTION (DESIGN CHOICE, log entry 68). -/
def Hub.takeSample (h : Hub) (n : Slot) (t1 t4 : HubTime) (turnaround : Nat) : Hub :=
  let rtt := roundTrip t1 t4 turnaround
  if sampleRejected rtt turnaround then h.modTrec n fun r => { r with probe := none, rejected := r.rejected + 1 }
  else
    let lost := h.trecs[n].pathLost
    let h := h.modTrec n (·.useSample rtt.toNat h.tables.asymmetry[n] h.tables.timing.slewStep)
    let h := if lost then h.clear (.slot n .timingPathLost) else h
    h.judgePermit (if lost then .path else .settled) n

/-- PROBE_REPLY (R125). -/
def Hub.probeReply (h : Hub) (e : InboxFrame) : Hub :=
  match h.trecs[e.slot].probe, e.arrival with
  | some { sequence, t1 := some t1 }, some t4 =>
    if e.frame.sequence = sequence then h.takeSample e.slot t1 t4.time (fieldAt e.frame.payload 0 4)
    else h.modTrec e.slot fun r => { r with stale := r.stale + 1 }
  | _, _ => h.modTrec e.slot fun r => { r with stale := r.stale + 1 }

def execProbeReply (s : State) : Host.Outcome State Fault Refusal :=
  s.onHub (Hub.dispatch Kind.probeReply fun e h => h.probeReply e)

/-- PHASE_REPORT (R132). A grant for which the phase condition and its own counting record, under the action WITHDRAW_PERMIT, end in this
event carries ALARM_ACTION (DESIGN CHOICE, log entry 68). -/
def Hub.phaseReport (h : Hub) (n : Slot) (error : Int) : Hub :=
  let h := h.modTrec n (·.phase error h.tables.timing.phaseLimit)
  let r := h.trecs[n]
  if r.phaseOut = 3 ∧ !r.phaseCond then
    ((h.modTrec n fun r => { r with phaseCond := true }).raise (.slot n .phaseOutOfLimit)).judgePermit .phase n
  else if r.phaseIn = 3 ∧ r.phaseCond then
    ((h.modTrec n fun r => { r with phaseCond := false }).clear (.slot n .phaseOutOfLimit)).judgePermit .phase n
  else h

def execPhaseReport (s : State) : Host.Outcome State Fault Refusal :=
  s.onHub (Hub.dispatch Kind.phaseReport fun e h => h.phaseReport e.slot (toSigned 4 (fieldAt e.frame.payload 0 4)))

/-- SOURCE_REPORT (R102): a report taken while there is no applied compensation carries no measurement. -/
def Hub.sourceReport (h : Hub) (e : InboxFrame) (refSec : Nat) (traceable : Bool) : Hub :=
  h.modTrec e.slot fun r =>
    { r with report := e.arrival.map fun arrival =>
        { refSec, traceable, arrival, comp := r.applied, pending := r.applied.isSome } }

def execSourceReport (s : State) : Host.Outcome State Fault Refusal :=
  s.onHub (Hub.dispatch Kind.sourceReport fun e h =>
    match parseSourceReport e.frame.payload with
    | some (refSec, traceable) => h.sourceReport e refSec traceable
    | none => h)

/-- CARD_ALARM (R146). -/
def Hub.cardAlarm (h : Hub) (n : Slot) (code : BitVec 16) (isRaise : Bool) (sev : Severity) : Hub :=
  let key : AlarmKey := { source := some n, kind := .cardReported, detail := code }
  if isRaise then h.raiseReported key (some sev) else h.clear key

def execCardAlarm (s : State) : Host.Outcome State Fault Refusal :=
  s.onHub (Hub.dispatch Kind.cardAlarm fun e h =>
    match parseCardAlarm e.frame.payload with
    | some (code, isRaise, sev) => h.cardAlarm e.slot code isRaise sev
    | none => h)

/-- SWEEP_REPLY (R165). -/
def Hub.sweepReply (h : Hub) (n : Slot) (value : List Byte) : Hub :=
  let w := h.agent.sweep
  (h.setSweep { w with pending := Mask.erase w.pending n, results := insertSlot n value w.results }).endSweepIfDone

def execSweepReply (s : State) : Host.Outcome State Fault Refusal :=
  s.onHub (Hub.dispatch Kind.sweepReply fun e h =>
    match parseSweepReply h.agent.sweep e.frame.payload with
    | some value => h.sweepReply e.slot value
    | none => h)

/-- INVALID_AGENT_FRAME (R158): the frame at the head of the inbox fails the judgment of its form. -/
def Hub.invalidFrame (h : Hub) : Hub :=
  match h.agent.inbox with
  | [] => h
  | e :: rest => if h.formOk e.frame then h else (h.popInbox rest).formDiscard e.slot

def execInvalidAgentFrame (s : State) : Host.Outcome State Fault Refusal := s.onHub Hub.invalidFrame

/-- SWEEP_TIMEOUT (R167). -/
def execSweepTimeout (s : State) : Host.Outcome State Fault Refusal :=
  s.onHub fun h => if h.agent.sweep.inFlight then h.failSweep .noAnswer else h

end Sys2Proof.Machine
end

