-- ==== Sys2Proof/Machine/Inputs.lean ====
section
/-! DEFINITION. The events at a slot's inputs and the expiries of its limits (chapters 4 and 5). A debounce or a limit that does not run,
or a state that the event does not belong to, leaves everything as it is (R56). -/

namespace Sys2Proof.Machine

/-! ## Raw inputs and debounce (R58) -/

/-- A debounce timer after a change of its raw input: it runs, afresh, while the raw value differs (R58). -/
def Hub.debounce (h : Hub) (raw debounced : Bool) : Option Debounce :=
  if raw != debounced && !h.config.loading then some { due := h.dueIn 50, startUp := false } else none

/-- RAW_INPUT_CHANGE (R58, R60). While the load runs no debounce has begun (R59, R183). -/
def Hub.rawInput (h : Hub) (n : Slot) : RawInput → Hub
  | .present level =>
    if h.slots[n].rawPresent = level then h
    else h.modSlot n fun r => { r with rawPresent := level, presenceTimer := h.debounce level r.presence }
  | .latch closed =>
    if h.slots[n].rawLatch = closed then h
    else h.modSlot n fun r => { r with rawLatch := closed, latchTimer := h.debounce closed r.latchClosed }
  | .pcode pins => h.modSlot n fun r => { r with pcode := pins }

def execRawInputChange (n : Slot) (input : RawInput) (s : State) : Host.Outcome State Fault Refusal :=
  s.onHub fun h => h.rawInput n input

/-- A debounce of presence ends at a level (R58): a timer of its own runs, and the raw input has the level. -/
def SlotRec.presenceEnds (r : SlotRec) (level : Bool) : Bool :=
  r.presenceTimer.any (fun d => !d.startUp) && r.rawPresent == level

def SlotRec.latchEnds (r : SlotRec) (closed : Bool) : Bool :=
  r.latchTimer.any (fun d => !d.startUp) && r.rawLatch == closed

/-- PRESENCE_PRESENT (R60, R65). -/
def Hub.presencePresent (h : Hub) (n : Slot) : Hub :=
  if !h.slots[n].presenceEnds true then h
  else
    let h := h.modSlot n fun r => { r with presence := true, presenceTimer := none }
    if h.slots[n].state = .empty then
      (h.modSlot n fun r => { r with powerClass := some (classOfPins r.pcode) }).enterSeated n false .inserted
    else h

def execPresencePresent (n : Slot) (s : State) : Host.Outcome State Fault Refusal := s.onHub (·.presencePresent n)

/-- PRESENCE_ABSENT (R88, R89). -/
def Hub.presenceAbsent (h : Hub) (n : Slot) : Hub :=
  if !h.slots[n].presenceEnds false then h
  else
    let h := h.modSlot n fun r => { r with presence := false, presenceTimer := none }
    if h.slots[n].state = .empty then h else h.enterEmpty n

def execPresenceAbsent (n : Slot) (s : State) : Host.Outcome State Fault Refusal := s.onHub (·.presenceAbsent n)

/-- LATCH_CLOSED (R66, R88): a SEATED slot that is expected joins the wait list, and an OFF slot with a card enters SEATED. -/
def Hub.latchCloses (h : Hub) (n : Slot) : Hub :=
  if !h.slots[n].latchEnds true then h
  else
    let h := h.modSlot n fun r => { r with latchClosed := true, latchTimer := none }
    match h.slots[n].state with
    | .seated =>
      if h.tables.plan[n].expected then
        let served := (h.join n).serve
        served.1.announceGrants served.2
      else h
    | .off => if h.slots[n].presence then h.enterSeated n false .latchClosed else h
    | _ => h

def execLatchClosed (n : Slot) (s : State) : Host.Outcome State Fault Refusal := s.onHub (·.latchCloses n)

/-- LATCH_OPEN (R74, R83, R94). -/
def Hub.latchOpens (h : Hub) (n : Slot) : Hub :=
  if !h.slots[n].latchEnds false then h
  else (h.modSlot n fun r => { r with latchClosed := false, latchTimer := none }).release n .latchOpened

def execLatchOpen (n : Slot) (s : State) : Host.Outcome State Fault Refusal := s.onHub (·.latchOpens n)

/-! ## PWR_GOOD (R67, R92) -/

/-- PWR_GOOD_ASSERTED (R67). -/
def Hub.pwrGoodAsserted (h : Hub) (n : Slot) : Hub :=
  let h := h.modSlot n fun r => { r with pwrGood := true }
  if h.slots[n].state = .powering then h.enterResetHold n else h

def execPwrGoodAsserted (n : Slot) (s : State) : Host.Outcome State Fault Refusal := s.onHub (·.pwrGoodAsserted n)

/-- PWR_GOOD_LOST (R92): a change of the line, which only the powered states read. -/
def Hub.pwrGoodLost (h : Hub) (n : Slot) : Hub :=
  let lost := h.slots[n].pwrGood
  let h := h.modSlot n fun r => { r with pwrGood := false }
  if lost && h.slots[n].state.readsPowerLoss then h.enterFaulted n .powerFail .powerLost else h

def execPwrGoodLost (n : Slot) (s : State) : Host.Outcome State Fault Refusal := s.onHub (·.pwrGoodLost n)

/-! ## Limits of the states (R56) -/

/-- The limit of a state expires: nothing happens unless it runs (R56). -/
def Hub.expire (h : Hub) (n : Slot) (state : SlotState) (act : Hub → Hub) : Hub :=
  if h.slots[n].state = state ∧ h.slots[n].limit.isSome then act h else h

/-- POWERING_TIMEOUT (R67). -/
def execPoweringTimeout (n : Slot) (s : State) : Host.Outcome State Fault Refusal :=
  s.onHub fun h => h.expire n .powering (·.enterFaulted n .powerFail .timeout)

/-- RESET_HOLD_END (R68, R69). -/
def execResetHoldEnd (n : Slot) (s : State) : Host.Outcome State Fault Refusal :=
  s.onHub fun h => h.expire n .resetHold (·.enterLinking n)

/-- LINKING_TIMEOUT (R69). -/
def execLinkingTimeout (n : Slot) (s : State) : Host.Outcome State Fault Refusal :=
  s.onHub fun h => h.expire n .linking (·.enterFaulted n .linkTimeout .timeout)

/-- IDENTIFY_ATTEMPT_TIMEOUT (R70). -/
def Hub.identifyTimeout (h : Hub) (n : Slot) : Hub :=
  if h.slots[n].attempt < 3 then h.identifyAttempt n else h.enterFaulted n .noIdentity .timeout

def execIdentifyAttemptTimeout (n : Slot) (s : State) : Host.Outcome State Fault Refusal :=
  s.onHub fun h => h.expire n .identifying (·.identifyTimeout n)

/-- POWER_WAIT (R64): once per stay in the wait list. -/
def Hub.powerWait (h : Hub) (n : Slot) : Hub :=
  if n ∈ h.manager.waitList ∧ !h.slots[n].waitRaised then
    (h.modSlot n fun r => { r with waitRaised := true }).raise (.slot n .powerWait)
  else h

def execPowerWait (n : Slot) (s : State) : Host.Outcome State Fault Refusal := s.onHub (·.powerWait n)

/-- RECOVERY_WINDOW_EXPIRY (R82). -/
def execRecoveryWindowExpiry (n : Slot) (s : State) : Host.Outcome State Fault Refusal :=
  s.onHub fun h => h.expire n .recovering (·.enterFaulted n .linkLost .timeout)

/-- DRAIN_TIMEOUT (R86): the purge, the disable of the link, DRAIN_FORCED and OFF, in the order of R96. -/
def Hub.drainForced (h : Hub) (n : Slot) : Hub := h.enterOffWith true n .timeout

def execDrainTimeout (n : Slot) (s : State) : Host.Outcome State Fault Refusal :=
  s.onHub fun h => h.expire n .draining (·.drainForced n)

/-- RETRY_TIMER_EXPIRY (R94): a fault retry within the plan's limit; else the slot stays FAULTED and no timer runs. -/
def Hub.retry (h : Hub) (n : Slot) : Hub :=
  if h.slots[n].retries < h.tables.plan[n].retryLimit then
    (h.modSlot n fun r => { r with retries := r.retries + 1 }).enterSeated n true .retry
  else h.modSlot n fun r => { r with limit := none }

def execRetryTimerExpiry (n : Slot) (s : State) : Host.Outcome State Fault Refusal :=
  s.onHub fun h => h.expire n .faulted (·.retry n)

/-- FENCE_SLOT (R91, R147): the Slot Manager takes a fence request for the slot. -/
def Hub.takeFence (h : Hub) (n : Slot) : Hub :=
  if n ∈ h.manager.fenceRequests then
    { h with manager := { h.manager with fenceRequests := h.manager.fenceRequests.erase n } }.fence n .alarmAction
  else h

def execFenceSlot (n : Slot) (s : State) : Host.Outcome State Fault Refusal := s.onHub (·.takeFence n)

end Sys2Proof.Machine
end

