-- ==== Sys2Proof/Machine/Links.lean ====
section
/-! DEFINITION. The events of the slot links: hellos, alignment, the end of a reset's hold, and frames received (chapter 1). -/

namespace Sys2Proof.Machine

/-- A LOCKED link loses alignment (R4). Where the frame partly received raises LINK_ERRORS and that withdraws the permit, the withdrawal
carries the reason of that first judgment, though the slot then leaves FORWARDING in the same event (DESIGN CHOICE, log entry 59). -/
def Hub.loseAlignment (h : Hub) (n : Slot) : Hub :=
  let h := (h.abort n).modLink n fun l => { l with state := .training, helloCount := 0 }
  (h.dropPartial n).linkLeft n .linkLost

/-- HELLO_VALID (R3, R4): it counts on a TRAINING link, locks it at the second in a row, and shows on a LOCKED link that
the far end has lost lock. -/
def Hub.helloValid (h : Hub) (n : Slot) : Hub :=
  match h.links[n].state with
  | .disabled => h
  | .training =>
    if h.links[n].helloCount + 1 < 2 then h.modLink n fun l => { l with helloCount := l.helloCount + 1 }
    else (h.modLink n fun l => { l with state := .locked, helloCount := 0 }).linkLocked n
  | .locked => h.loseAlignment n

def execHelloValid (n : Slot) (s : State) : Host.Outcome State Fault Refusal := s.onHub (·.helloValid n)

/-- HELLO_INVALID (R3, R4): it takes the count of a TRAINING link to 0; on a LOCKED link any hello received, whatever its check
sequence, shows that the far end has lost lock. -/
def Hub.helloInvalid (h : Hub) (n : Slot) : Hub :=
  match h.links[n].state with
  | .disabled => h
  | .training => h.modLink n fun l => { l with helloCount := 0 }
  | .locked => h.loseAlignment n

def execHelloInvalid (n : Slot) (s : State) : Host.Outcome State Fault Refusal := s.onHub (·.helloInvalid n)

/-- LINK_ALIGNMENT_LOST (R3, R4): it takes the count of a TRAINING link to 0, and a LOCKED link back to TRAINING. -/
def Hub.alignmentLost (h : Hub) (n : Slot) : Hub :=
  match h.links[n].state with
  | .disabled => h
  | .training => h.modLink n fun l => { l with helloCount := 0 }
  | .locked => h.loseAlignment n

def execLinkAlignmentLost (n : Slot) (s : State) : Host.Outcome State Fault Refusal := s.onHub (·.alignmentLost n)

/-- LINK_RESET_HOLD_END (R5). -/
def Hub.holdEnd (h : Hub) (n : Slot) : Hub :=
  match h.links[n].hold with
  | none => h
  | some hold =>
    h.modLink n fun l =>
      { l with hold := none, helloCount := 0, state := if hold.thenTrain then .training else .disabled }

def execLinkResetHoldEnd (n : Slot) (s : State) : Host.Outcome State Fault Refusal := s.onHub (·.holdEnd n)

/-! ## Frames received (R6 to R12) -/

/-- A whole frame goes through the three checks of section 1.3, and is handed on when it passes them. -/
def Hub.checkFrame (h : Hub) (n : Slot) (bytes : List Byte) (arrival : Arrival) : Hub :=
  match Frame.check bytes with
  | none => h.countErrored n
  | some f =>
    let f := { f with source := BitVec.ofNat 8 (Slot.number n) }
    if f.cls = .timing ∧ !inAgentRange f.dest then h.count n fun c => { c with classViolations := c.classViolations + 1 }
    else
      h.modPort n fun p =>
        { p with handedOn := p.handedOn ++ [{ frame := f, arrival := if f.cls = .timing then some arrival else none }]
                 counters := { p.counters with framesReceived := p.counters.framesReceived + 1 } }

/-- The bytes taken in with those of the frame so far; the time of the first of them is the arrival (R6, R12). -/
def Link.received (l : Link) (now : Arrival) (bytes : List Byte) : Partial :=
  match l.rx with
  | some p => { p with bytes := p.bytes ++ bytes }
  | none => { bytes, arrival := now }

/-- Bytes of a frame on a link: in LOCKED they are kept until the frame is whole, otherwise they belong to no frame
(R6). -/
def Hub.receive (h : Hub) (n : Slot) (bytes : List Byte) (whole : Bool) : Hub :=
  if h.links[n].state = .locked then
    let got := h.links[n].received { time := h.clock.now, elapsed := h.clock.elapsed } bytes
    if whole then (h.modLink n fun l => { l with rx := none }).checkFrame n got.bytes got.arrival
    else h.modLink n fun l => { l with rx := some got }
  else h

/-- FRAME_RECEIVED (R6), after `dt` ns of the reference oscillator (log entries 2 and 79). -/
def execFrameReceived (n : Slot) (dt : Nat) (bytes : List Byte) (whole : Bool) (s : State) :
    Host.Outcome State Fault Refusal :=
  s.onHub fun h => (h.run dt).receive n bytes whole

end Sys2Proof.Machine
end

