-- ==== Sys2Proof/Machine/Resets.lean ====
section
/-! DEFINITION. The resets, the configuration load and start-up, and the end of a save (chapters 10 and 11). -/

namespace Sys2Proof.Machine

/-- The input levels of a slot that a reset leaves as they are: they are driven from outside. -/
def SlotRec.afterReset (r : SlotRec) : SlotRec :=
  { rawPresent := r.rawPresent, rawLatch := r.rawLatch, pcode := r.pcode, pwrGood := r.pwrGood }

/-- The hub right after a reset (R179, R182): every part at its reset value, the load state LOADING. What stays: the
input levels, and the outcome of the last load until the next one ends. -/
def Hub.afterReset (h : Hub) (kind : ResetKind) (strap : Bool) : Hub :=
  { slots := mapEach SlotRec.afterReset h.slots
    config := { strap, status := h.config.status, fault := h.config.fault, version := h.config.version,
                loading := true, lastReset := kind }
    port := { driven := h.port.driven }
    draws := h.draws }

/-- The bytes that a save writes in its first three stages (R186): the two of the CRC field, and the image. -/
def saveWrites : Nat := 2 + imageLength

/-- How many bytes of a save's stages are stored once `writes` of them have been written: the two bytes of the length, the ninth and
the tenth, are stored together (DESIGN CHOICE, log entry 27). -/
def storedWrites (writes : Nat) : Nat := if writes = 9 then 8 else writes

/-- A stored image that its CRC fits is kept from loading, its CRC field complemented as the first stage of a save does; any other
stands (DESIGN CHOICE, log entry 27). -/
def unmatched (m : List Host.Cell) : List Host.Cell :=
  if crcMatches m then
    let off := crcOffset m
    Memory.writeAll m [(off, ~~~ Memory.read m off), (off + 1, ~~~ Memory.read m (off + 1))]
  else m

/-- The EEPROM after a save whose write stops once `written` bytes of its stages have been written (R186, R187): from the first byte on
the stored CRC does not match, whatever the image before it was, until the last byte has been written, after which the new image stands. -/
def saveCutOff (m : List Host.Cell) (snapshot : Settings) (written : Nat) : List Host.Cell :=
  let left := Memory.writeAll m ((saveSequence m snapshot).take (storedWrites written))
  if 1 ≤ written ∧ written < saveWrites then unmatched left else left

/-- POWER_ON_RESET (R182, R187): IMAGE_EN is sampled, and a save in progress is cut off after the bytes it has written. -/
def execPowerOnReset (imageEn : Bool) (written : Nat) (s : State) : Host.Outcome State Fault Refusal :=
  .next { s with
    eeprom := match s.hub.config.save with
      | some save => saveCutOff s.eeprom save.snapshot written
      | none => s.eeprom
    hub := s.hub.afterReset .powerOn imageEn }

/-- The host port after a host-port reset (R181): the counters keep their values. -/
def HostPort.reset (p : HostPort) : HostPort :=
  { requestsDiscarded := p.requestsDiscarded, noticesDiscarded := p.noticesDiscarded, lengthErrors := p.lengthErrors,
    truncatedWrites := p.truncatedWrites }

/-- A sweep ended by a host-port reset: its number and the next are kept (R169). -/
def Sweep.drop (w : Sweep) : Sweep :=
  if w.inFlight then { w with inFlight := false, pending := 0, results := [], failures := [] } else w

/-- HOST_PORT_RESET (R181). -/
def Hub.hostPortReset (h : Hub) : Hub :=
  { h with
    port := h.port.reset
    agent := { h.agent with sweep := h.agent.sweep.drop }
    timing := { h.timing with pendingTime := none }
    config := { h.config with save := h.config.save.map fun save => { save with replyDue := false } } }

def execHostPortReset (s : State) : Host.Outcome State Fault Refusal := s.onHub Hub.hostPortReset

/-- The settings of a load taken over by every block at once (R184). -/
def Hub.applySettings (h : Hub) (s : Settings) : Hub :=
  { h with tables := s.tables, timing := { h.timing with cands := s.sources.map fun source => { source } } }

/-- The debounce that begins at the end of a load (R59): the timers of the inputs that differ from ABSENT and OPEN. -/
def Hub.beginDebounce (h : Hub) : Hub :=
  let timer (differs : Bool) : Option Debounce := if differs then some { due := h.dueIn 50, startUp := true } else none
  { h with
    slots := mapEach (fun r => { r with presenceTimer := timer (r.rawPresent != r.presence),
                                        latchTimer := timer (r.rawLatch != r.latchClosed) }) h.slots
    manager := { h.manager with startUpDue := some (h.dueIn 50) } }

/-- The image status and the load fault code after a load (R183, R184). -/
def ConfigStore.afterLoad (c : ConfigStore) (outcome : Option (LoadFault ⊕ Settings)) : ConfigStore :=
  match outcome with
  | none => { c with loading := false, status := .defaultsByStrap, fault := none, version := none }
  | some (.inl fault) => { c with loading := false, status := .defaultsAfterFailure, fault := some fault, version := none }
  | some (.inr _) => { c with loading := false, status := .valid, fault := none, version := some imageVersion }

/-- The start of management once the settings hold: STARTED, CONFIG_IMAGE_INVALID after a failed load, and the debouncing (R184). -/
def Hub.started (h : Hub) : Hub :=
  let c := h.config
  let h := h.notice Code.started (.started c.status c.fault c.version c.strap c.lastReset)
  let h := if c.status = .defaultsAfterFailure then h.raise (.hub .configImageInvalid) else h
  h.beginDebounce

/-- The end of a load (R184), in its order. -/
def Hub.loadDone (h : Hub) (outcome : Option (LoadFault ⊕ Settings)) : Hub :=
  let h := match outcome with
    | some (.inr settings) => h.applySettings settings
    | _ => h
  { h with config := h.config.afterLoad outcome }.started

/-- What a load finds (R183): nothing is read with the strap level low. -/
def loadOutcome (strap acknowledged : Bool) (m : List Host.Cell) : Option (LoadFault ⊕ Settings) :=
  if !strap then none else if acknowledged then some (judgeImage m) else some (.inl .noAck)

/-- LOAD_COMPLETE (R183, R184), while the load state is LOADING. -/
def execLoadComplete (acknowledged : Bool) (s : State) : Host.Outcome State Fault Refusal :=
  s.onHub fun h => if h.config.loading then h.loadDone (loadOutcome h.config.strap acknowledged s.eeprom) else h

/-- The debounced values after the first expiry: the timers that have run since the load take the raw values (R58, R59). -/
def SlotRec.startUp (r : SlotRec) : SlotRec :=
  let presence := r.presenceTimer.any (·.startUp)
  let latch := r.latchTimer.any (·.startUp)
  { r with
    presence := if presence then r.rawPresent else r.presence
    presenceTimer := if presence then none else r.presenceTimer
    latchClosed := if latch then r.rawLatch else r.latchClosed
    latchTimer := if latch then none else r.latchTimer }

/-- START_UP_EVENT (R59): every change of the first expiry, the slots found PRESENT seated and those expected with latch
CLOSED joined in ascending slot number, the list served, then the notices. -/
def Hub.startUp (h : Hub) : Hub :=
  let found := allSlots.filter fun n => h.slots[n].presenceTimer.any (·.startUp) && h.slots[n].rawPresent
  let h := { h with slots := mapEach SlotRec.startUp h.slots,
                    manager := { h.manager with startUpDue := none, startUpAt := some h.clock.now } }
  let h := found.foldl (fun h n => (h.modSlot n fun r => { r with powerClass := some (classOfPins r.pcode) }).seat n false) h
  let (h, grants) := h.serve
  let h := found.foldl (fun h n => h.notice Code.slotChanged (.slotChanged n .empty .seated .inserted none h.slots[n].entry)) h
  h.announceGrants grants

def execStartUpEvent (s : State) : Host.Outcome State Fault Refusal :=
  s.onHub fun h => if h.manager.startUpDue.isSome then h.startUp else h

/-! ## The end of a save (R186, R187) -/

/-- How many bytes of the image a save has written after `writes` bytes of its stages: two precede the image. -/
def imageBytesWritten (writes : Nat) : Nat := min imageLength (storedWrites writes - 2)

/-- A byte that the read-back finds otherwise than it was written: held so after the tag, the version and the length, and only read so in
them (DESIGN CHOICE, log entry 27). -/
def flipByte (m : List Host.Cell) (p : Fin 821 × Fin 255) : List Host.Cell :=
  if 8 ≤ p.1.val then Memory.write m p.1.val (Memory.read m p.1.val ^^^ BitVec.ofNat 8 (p.2.val + 1)) else m

/-- The EEPROM after a save that ended this way (R186): after a failure past the first byte written the stored CRC does not match. -/
def saveEnded (m : List Host.Cell) (snapshot : Settings) : SaveEnd → List Host.Cell
  | .saved => Memory.writeAll m (saveSequence m snapshot)
  | .noAck writes => if writes < saveWrites then saveCutOff m snapshot writes else unmatched (saveCutOff m snapshot writes)
  | .mismatch flips => unmatched (flips.foldl flipByte (Memory.writeAll m (saveSequence m snapshot)))

/-- The failure cause of a save and the image bytes written (R186). -/
def saveResult : SaveEnd → Option SaveFault × Nat
  | .saved => (none, imageLength)
  | .noAck writes => (some .noAck, imageBytesWritten writes)
  | .mismatch _ => (some .readBackMismatch, imageLength)

/-- The event in which a write ends (R186): the alarm of a failure, then the deferred reply unless it was cancelled. -/
def Hub.saveDone (h : Hub) (save : Save) (result : Option SaveFault × Nat) : Hub :=
  let h := { h with config := { h.config with save := none } }
  let h := if result.1.isSome then h.raise (.hub .configSaveFailed) else h
  if save.replyDue then h.reply save.tag Code.configSave .ok (.configSave result.1 result.2) else h

/-- CONFIG_SAVE_WRITE_END (R186), while the save state is SAVING. -/
def execConfigSaveWriteEnd (result : SaveEnd) (s : State) : Host.Outcome State Fault Refusal :=
  match s.hub.config.save with
  | none => .next s
  | some save =>
    .next { s with eeprom := saveEnded s.eeprom save.snapshot result, hub := s.hub.saveDone save (saveResult result) }

end Sys2Proof.Machine
end

