-- ==== Sys2Proof/Machine/SlotRequests.lean ====
section
/-! DEFINITION. The requests of the Slot Manager (sections 4.7, 5.3, 5.6 to 5.8) and its budget. -/

namespace Sys2Proof.Machine

/-- SLOT_PLAN_SET (R78): CAB_OK is judged on a change of the expected field. -/
def Hub.planSet (r : Request) (n : Slot) (h : Hub) : Hub :=
  match parsePlan (r.body.drop 1) with
  | none => h.refuse r .badParam
  | some entry =>
    let applied := entry.clamp
    let h := { h with tables := { h.tables with plan := h.tables.plan.set n applied } }.judgeOutputs
    h.answer r (clampStatus (applied != entry)) (.slotPlan applied)

def execSlotPlanSet (s : State) : Host.Outcome State Fault Refusal :=
  s.onHub (Hub.take Code.slotPlanSet fun r => Hub.withSlot r (Hub.planSet r))

/-- The body of SLOT_QUERY's reply (R79); the time waited runs from the join (R62), in whole milliseconds,
rounded down (DESIGN CHOICE, log entry 66). -/
def Hub.slotQueryBody (h : Hub) (n : Slot) : SlotQueryBody :=
  let r := h.slots[n]
  { record := r, plan := h.tables.plan[n], place := h.waitPlace n,
    waited := r.joined.map fun t => (h.clock.elapsed - t) / nsPerMs, link := h.links[n].state,
    budget := h.tables.budget, committed := h.committed, waitList := h.manager.waitList }

/-- SLOT_QUERY (R79). -/
def execSlotQuery (s : State) : Host.Outcome State Fault Refusal :=
  s.onHub (Hub.take Code.slotQuery fun r => Hub.withSlot r fun n h => h.answer r .ok (.slotQuery (h.slotQueryBody n)))

/-- What SLOT_POWER does in a state, and whether it applies (R75). -/
def Hub.power (h : Hub) (n : Slot) : Hub × Bool :=
  match h.slots[n].state, h.slots[n].latchClosed with
  | .seated, true =>
    if n ∈ h.manager.waitList then (h, true)
    else
      let served := (h.join n).serve
      (served.1.announceGrants served.2, true)
  | .off, true => (h.enterSeated n true (.hostRequest Code.slotPower), true)
  | _, _ => (h, false)

/-- The status of a request that applies or does not. -/
def stateStatus (applies : Bool) : Status := if applies then .ok else .badState

/-- SLOT_POWER (R75). -/
def Hub.slotPower (r : Request) (n : Slot) (h : Hub) : Hub :=
  let (h, applies) := h.power n
  h.answer r (stateStatus applies) (.slotPower h.slots[n].state (h.waitPlace n))

def execSlotPower (s : State) : Host.Outcome State Fault Refusal :=
  s.onHub (Hub.take Code.slotPower fun r => Hub.withSlot r (Hub.slotPower r))

/-- SLOT_ADMIT (R76): no rule names a field of its reply. -/
def Hub.slotAdmit (r : Request) (n : Slot) (h : Hub) : Hub :=
  if h.slots[n].state = .awaitingAdmit ∧ h.links[n].state = .locked then
    (h.enterForwarding n (.hostRequest Code.slotAdmit)).answer r .ok .empty
  else h.answer r .badState .empty

def execSlotAdmit (s : State) : Host.Outcome State Fault Refusal :=
  s.onHub (Hub.take Code.slotAdmit fun r => Hub.withSlot r (Hub.slotAdmit r))

/-- SLOT_RELEASE (R74, R83, R94). -/
def Hub.slotRelease (r : Request) (n : Slot) (h : Hub) : Hub :=
  let applies := h.slots[n].state != .empty
  let h := h.release n (.hostRequest Code.slotRelease)
  h.answer r (stateStatus applies) (.slotState h.slots[n].state)

def execSlotRelease (s : State) : Host.Outcome State Fault Refusal :=
  s.onHub (Hub.take Code.slotRelease fun r => Hub.withSlot r (Hub.slotRelease r))

/-- The reply that carries a slot's state and link state (R91, R95). -/
def Hub.answerLink (h : Hub) (r : Request) (n : Slot) (applies : Bool) : Hub :=
  h.answer r (stateStatus applies) (.slotLink h.slots[n].state h.links[n].state)

/-- SLOT_FENCE (R91). -/
def Hub.slotFence (r : Request) (n : Slot) (h : Hub) : Hub :=
  let st := h.slots[n].state
  (h.fence n (.hostRequest Code.slotFence)).answerLink r n (st == .forwarding || st == .recovering || st == .fenced)

def execSlotFence (s : State) : Host.Outcome State Fault Refusal :=
  s.onHub (Hub.take Code.slotFence fun r => Hub.withSlot r (Hub.slotFence r))

/-- SLOT_RESTORE (R91). -/
def Hub.slotRestore (r : Request) (n : Slot) (h : Hub) : Hub :=
  if h.slots[n].state = .fenced ∧ h.links[n].state = .locked then
    (h.enterForwarding n (.hostRequest Code.slotRestore)).answerLink r n true
  else h.answerLink r n false

def execSlotRestore (s : State) : Host.Outcome State Fault Refusal :=
  s.onHub (Hub.take Code.slotRestore fun r => Hub.withSlot r (Hub.slotRestore r))

/-- SLOT_RESTART (R94): no rule names a field of its reply. -/
def Hub.slotRestart (r : Request) (n : Slot) (h : Hub) : Hub :=
  if h.slots[n].state = .faulted then
    let h := h.modSlot n fun r => { r with retries := 0 }
    (h.enterSeated n false (.hostRequest Code.slotRestart)).answer r .ok .empty
  else h.answer r .badState .empty

def execSlotRestart (s : State) : Host.Outcome State Fault Refusal :=
  s.onHub (Hub.take Code.slotRestart fun r => Hub.withSlot r (Hub.slotRestart r))

/-- SLOT_LINK_RESET (R5, R95): the link's report is taken before the reply. -/
def Hub.slotLinkReset (r : Request) (n : Slot) (h : Hub) : Hub :=
  if h.slots[n].state.takesLinkReset then
    let wasLocked := h.links[n].state == .locked
    let h := h.resetLink n
    (if wasLocked then h.linkLeft n (.hostRequest Code.slotLinkReset) else h).answerLink r n true
  else h.answerLink r n false

def execSlotLinkReset (s : State) : Host.Outcome State Fault Refusal :=
  s.onHub (Hub.take Code.slotLinkReset fun r => Hub.withSlot r (Hub.slotLinkReset r))

/-- The body of BUDGET_SET's reply (R77, R80). -/
def Hub.budgetBody (h : Hub) : Body :=
  .budget h.tables.budget h.committed h.manager.waitList h.tables.recoveryWindow h.tables.drainTimeout

/-- BUDGET_SET (R77, R80): the budget is clamped, then held against committed power; a higher one serves the wait list. -/
def Hub.budgetSet (r : Request) (h : Hub) : Hub :=
  let asked := parseBudget r.body
  let b := asked.clamp
  if b.budget < h.committed then h.answer r .badState h.budgetBody
  else
    let old := h.tables.budget
    let h := { h with tables := { h.tables with budget := b.budget, recoveryWindow := b.recoveryWindow,
                                                drainTimeout := b.drainTimeout } }
    let h := if old < b.budget then let served := h.serve; served.1.announceGrants served.2 else h
    h.answer r (clampStatus (b != asked)) h.budgetBody

def execBudgetSet (s : State) : Host.Outcome State Fault Refusal := s.onHub (Hub.take Code.budgetSet Hub.budgetSet)

end Sys2Proof.Machine
end

