-- ==== Sys2Proof/Machine/Switch.lean ====
section
/-! DEFINITION. Classification at the Frame Switch, service by the admission arbiter, and completed transmissions (chapters 2 and
3). -/

namespace Sys2Proof.Machine

/-! ## Classification (R17 to R24) -/

/-- The ingress state filter (R19). -/
def SlotRec.admits (r : SlotRec) (agentBound : Bool) (kind : BitVec 6) : Bool :=
  match r.state with
  | .forwarding => true
  | .draining => agentBound || !r.quiesced
  | .fenced => agentBound && kind == Kind.cardAlarm
  | _ => agentBound

/-- A window contains an address (section 2.1). -/
def Window.contains (w : Window) (a : BitVec 32) : Bool := w.base.toNat ≤ a.toNat && a.toNat < w.base.toNat + w.size

def ClassFilter.includes (c : ClassFilter) : TrafficClass → Bool
  | .timing => false
  | .control => c.control
  | .bulk => c.bulk

/-- A window matches a frame (R20). -/
def Window.claims (w : Window) (f : Frame) (n : Slot) : Bool :=
  w.enabled && w.contains f.dest && w.classes.includes f.cls && Mask.has w.sources n

/-- The destination rewritten by a window with a remap base (R21). -/
def Window.rewrite (w : Window) (f : Frame) : Frame :=
  match w.remap with
  | some base => { f with dest := base + (f.dest - w.base) }
  | none => f

/-- The target a frame gets and the frame as it goes on: the first window that matches, else the default target; none when it
is unroutable (R20 to R23). -/
def Tables.route (t : Tables) (f : Frame) (n : Slot) : Option (Target × Frame) :=
  match t.windows.toList.find? fun w => w.claims f n with
  | some w => some (w.target, w.rewrite f)
  | none => t.defaultTarget.map (·, f)

/-- The target set of a frame from a source (R24). -/
def Tables.targetSet (t : Tables) (target : Target) (source : Slot) : SlotMask :=
  match target with
  | .slot n => Mask.single n
  | .group g => Mask.erase t.groups[g] source

/-- A frame joins the agent inbox, or is dropped with AGENT_OVERLOAD (R156). -/
def Hub.inboxJoin (h : Hub) (n : Slot) (e : HandedOn) : Hub :=
  if h.agent.inbox.length < 16 then
    { h with agent := { h.agent with inbox := h.agent.inbox ++ [{ frame := e.frame, slot := n, arrival := e.arrival }] } }
  else { h with agent := { h.agent with inboxOverflows := h.agent.inboxOverflows + 1 } }.raise (.hub .agentOverload)

/-- A frame dropped for lack of store at its source (R37, R40, R54). -/
def Hub.storeFull (h : Hub) (n : Slot) : Hub :=
  (h.count n fun c => { c with storeFull := c.storeFull + 1 }).raise (.hub .storeExhausted)

/-- A frame joins its source's pending list of its class, or is dropped at a full list (R37). -/
def Hub.pendingJoin (h : Hub) (n : Slot) (p : PendingFrame) : Hub :=
  if p.frame.cls = .bulk then
    if h.ports[n].pendBulk.length < 4 then h.modPort n fun q => { q with pendBulk := q.pendBulk ++ [p] } else h.storeFull n
  else
    if h.ports[n].pendControl.length < 4 then h.modPort n fun q => { q with pendControl := q.pendControl ++ [p] }
    else h.storeFull n

/-- The classification of one frame (R17). -/
def Hub.classify (h : Hub) (n : Slot) (e : HandedOn) : Hub :=
  let agentBound := inAgentRange e.frame.dest
  if !h.slots[n].admits agentBound e.frame.kind then
    h.count n fun c => { c with sourceNotInService := c.sourceNotInService + 1 }
  else if agentBound then h.inboxJoin n e
  else
    match h.tables.route e.frame n with
    | none => (h.count n fun c => { c with unroutable := c.unroutable + 1 }).raise (.slot n .unroutable)
    | some (target, frame) => h.pendingJoin n { frame, target, targets := h.tables.targetSet target n }

/-- FRAME_CLASSIFICATION of the first frame that the slot's link has handed on (R17). -/
def Hub.classifyNext (h : Hub) (n : Slot) : Hub :=
  match h.ports[n].handedOn with
  | [] => h
  | e :: rest => (h.modPort n fun p => { p with handedOn := rest }).classify n e

def execFrameClassification (n : Slot) (s : State) : Host.Outcome State Fault Refusal := s.onHub (·.classifyNext n)

/-! ## The admission arbiter (R38 to R41) -/

/-- The slots in cyclic order from the one after a rotation point (R38). -/
def rotation (last : Slot) : List Slot := (List.range 12).map fun i => Fin.ofNat 12 (last.val + 1 + i)

/-- One refusal for lack of port room (R39, R54). -/
def Hub.egressDrop (h : Hub) (n : Slot) : Hub :=
  (h.count n fun c => { c with portLimitDrops := c.portLimitDrops + 1 }).raise (.slot n .egressDrops)

/-- A slot has room for a frame (R39). -/
def Hub.hasRoom (h : Hub) (blocks : Nat) (n : Slot) : Bool := h.occupancy n + blocks ≤ h.tables.ports[n].limit

/-- The shared pool takes a frame of a class (R40). -/
def Store.passes (st : Store) (cls : TrafficClass) (blocks : Nat) : Bool :=
  if cls = .bulk then 64 + blocks ≤ st.freeShared else blocks ≤ st.freeShared

/-- The queue of a card frame's class. -/
def TrafficClass.place : TrafficClass → Place
  | .timing => Place.timing
  | .control => Place.control
  | .bulk => Place.bulk

/-- A frame stored once and entered at each accepting member, whose schedulers then judge (R40, R45). -/
def Hub.takeIn (h : Hub) (f : Frame) (members : List Slot) : Hub :=
  let id := h.store.nextId
  let h := { h with store := h.store.put f false members.length }
  members.foldl (fun h n => (h.modPort n (·.enter f.cls.place id)).schedule n) h

/-- The service of one pending frame (R39, R40). The reachable members are judged for room in ascending slot number, an order R39 does
not give (DESIGN CHOICE, log entry 43). -/
def Hub.serveFrame (h : Hub) (source : Slot) (p : PendingFrame) : Hub :=
  let reachable := (Mask.slots p.targets).filter fun n => h.slots[n].state.reachable
  if reachable.isEmpty then
    match p.target with
    | .slot n => h.count n fun c => { c with unreachable := c.unreachable + 1 }
    | .group _ => h.count source fun c => { c with noReachableTarget := c.noReachableTarget + 1 }
  else
    let blocks := p.frame.blocks
    let members := reachable.filter (h.hasRoom blocks)
    let h := (reachable.filter fun n => !h.hasRoom blocks n).foldl Hub.egressDrop h
    if members.isEmpty then h
    else if h.store.passes p.frame.cls blocks then h.takeIn p.frame members
    else h.storeFull source

/-- One service: CONTROL before BULK, the sources of the class in rotation (R38). -/
def Hub.arbitrate (h : Hub) : Hub :=
  match (rotation h.store.lastControl).find? fun n => !h.ports[n].pendControl.isEmpty with
  | some n =>
    match h.ports[n].pendControl with
    | [] => h
    | p :: rest =>
      ({ h with store := { h.store with lastControl := n } }.modPort n fun q => { q with pendControl := rest }).serveFrame n p
  | none =>
    match (rotation h.store.lastBulk).find? fun n => !h.ports[n].pendBulk.isEmpty with
    | some n =>
      match h.ports[n].pendBulk with
      | [] => h
      | p :: rest =>
        ({ h with store := { h.store with lastBulk := n } }.modPort n fun q => { q with pendBulk := rest }).serveFrame n p
    | none => h

/-- ARBITER_SERVICE (R38). -/
def execArbiterService (s : State) : Host.Outcome State Fault Refusal := s.onHub Hub.arbitrate

/-! ## Completed transmissions (R14, R46, R47) -/

/-- The control run after a completion (R46): `p` is the port with the entry gone. -/
def Port.runAfter (p : Port) : Place → Nat
  | .timing => p.controlRun
  | .bulk => 0
  | .control | .identify => if p.bulkQ.isEmpty then 0 else min 8 (p.controlRun + 1)

/-- The port with the entry of the completed frame gone (R47). -/
def Port.leave (p : Port) : Place → Port
  | .timing => { p with timingQ := p.timingQ.drop 1 }
  | .control => { p with controlQ := p.controlQ.drop 1 }
  | .bulk => { p with bulkQ := p.bulkQ.drop 1 }
  | .identify => { p with identify := none }

/-- The Timing Unit takes the report of a TIMING-class completion: the t1 of the outstanding probe (R14, R123). -/
def TimingRec.sent (r : TimingRec) (f : Frame) (sentAt : Option HubTime) : TimingRec :=
  match r.probe with
  | some p =>
    if f.kind = Kind.delayProbe ∧ f.sequence = p.sequence ∧ p.t1.isNone then { r with probe := some { p with t1 := sentAt } }
    else r
  | none => r

/-- A transmission completes (R14, R47); a completed drain takes the slot to OFF (R86). -/
def Hub.complete (h : Hub) (n : Slot) : Hub :=
  match h.links[n].tx with
  | none => h
  | some t =>
    let sent : Option StoredFrame := h.store.find t.id
    let h := h.modLink n fun l => { l with tx := none }
    let h := { h with store := h.store.deref t.id }.modPort n fun p =>
      let q := p.leave t.place
      { q with controlRun := q.runAfter t.place, counters := { p.counters with framesSent := p.counters.framesSent + 1 } }
    let h : Hub := match sent with
      | some f => if f.frame.cls = .timing then h.modTrec n (·.sent f.frame t.sentAt) else h
      | none => h
    if h.drainDone n then h.enterOff n .drainDone else h.schedule n

/-- TRANSMISSION_COMPLETE (R14), after `dt` ns of the reference oscillator (log entries 2 and 79). -/
def execTransmissionComplete (n : Slot) (dt : Nat) (s : State) : Host.Outcome State Fault Refusal :=
  s.onHub fun h => (h.run dt).complete n

end Sys2Proof.Machine
end

