-- ==== Sys2Proof/Machine/TableRequests.lean ====
section
/-! DEFINITION. The requests of the Frame Switch and of the Frame Store and Egress block (sections 2.6, 3.7 and 3.8). -/

namespace Sys2Proof.Machine

/-- An index of a table with `size` entries, counted from 0. -/
def indexOf (size v : Nat) : Option (Fin size) := if h : v < size then some ⟨v, h⟩ else none

/-- WINDOW_SET (R28). -/
def Hub.windowSet (r : Request) (h : Hub) : Hub :=
  match indexOf 32 (fieldAt r.body 0 1), parseWindow (r.body.drop 1) with
  | some i, some w =>
    { h with tables := { h.tables with windows := h.tables.windows.set i w } }.answer r .ok (.window w)
  | _, _ => h.refuse r .badParam

def execWindowSet (s : State) : Host.Outcome State Fault Refusal := s.onHub (Hub.take Code.windowSet Hub.windowSet)

/-- A window contains the whole of another's address block (R29). -/
def Window.covers (w v : Window) : Bool :=
  w.base.toNat ≤ v.base.toNat && v.base.toNat + v.size ≤ w.base.toNat + w.size

/-- The claim mask of a window for a class: its sources less those that a lower enabled window containing its whole
block claims first (R29). -/
def claimMask (lower : List Window) (w : Window) (cls : TrafficClass) : SlotMask :=
  if w.enabled && w.classes.includes cls then
    lower.foldl (fun m v => if v.enabled && v.covers w && v.classes.includes cls then m &&& ~~~ v.sources else m) w.sources
  else 0

/-- WINDOW_GET (R29). -/
def Hub.windowGet (r : Request) (h : Hub) : Hub :=
  match indexOf 32 (fieldAt r.body 0 1) with
  | some i =>
    let w := h.tables.windows[i]
    let lower := h.tables.windows.toList.take i.val
    h.answer r .ok (.windowGet w (claimMask lower w .control) (claimMask lower w .bulk))
  | none => h.refuse r .badParam

def execWindowGet (s : State) : Host.Outcome State Fault Refusal := s.onHub (Hub.take Code.windowGet Hub.windowGet)

/-- GROUP_SET (R30). -/
def Hub.groupSet (r : Request) (h : Hub) : Hub :=
  match groupOf (fieldAt r.body 0 1), Mask.ofValue (fieldAt r.body 1 2) with
  | some g, some mask =>
    { h with tables := { h.tables with groups := h.tables.groups.set g mask } }.answer r .ok (.groupSet g mask)
  | _, _ => h.refuse r .badParam

def execGroupSet (s : State) : Host.Outcome State Fault Refusal := s.onHub (Hub.take Code.groupSet Hub.groupSet)

/-- The windows whose target is a group (R31): bit i stands for the window of index i (DESIGN CHOICE, log entry 42). -/
def Tables.referencing (t : Tables) (g : Fin 16) : BitVec 32 :=
  t.windows.toList.zipIdx.foldl (fun m p => if p.1.target = .group g then m ||| (1#32 <<< p.2) else m) 0

/-- GROUP_GET (R31). -/
def Hub.groupGet (r : Request) (h : Hub) : Hub :=
  match groupOf (fieldAt r.body 0 1) with
  | some g =>
    let mask := h.tables.groups[g]
    let reachable := Mask.ofTest fun n => Mask.has mask n && h.slots[n].state.reachable
    h.answer r .ok (.groupGet mask reachable (h.tables.referencing g) (h.tables.defaultTarget == some (.group g)))
  | none => h.refuse r .badParam

def execGroupGet (s : State) : Host.Outcome State Fault Refusal := s.onHub (Hub.take Code.groupGet Hub.groupGet)

/-- DEFAULT_TARGET_SET (R32). -/
def Hub.defaultTargetSet (r : Request) (h : Hub) : Hub :=
  match parseDefaultTarget r.body with
  | some target =>
    { h with tables := { h.tables with defaultTarget := target } }.answer r .ok (.defaultTarget h.tables.defaultTarget target)
  | none => h.refuse r .badParam

def execDefaultTargetSet (s : State) : Host.Outcome State Fault Refusal :=
  s.onHub (Hub.take Code.defaultTargetSet Hub.defaultTargetSet)

/-- PORT_LIMIT_SET (R53): the limit is clamped, then held against the occupancy. -/
def Hub.portLimitSet (r : Request) (n : Slot) (h : Hub) : Hub :=
  let asked := parsePortLimit (r.body.drop 1)
  let limits := asked.clamp
  if limits.limit < h.occupancy n then h.answer r .badState (.portLimit h.tables.ports[n] (h.occupancy n))
  else
    let new := { h with tables := { h.tables with ports := h.tables.ports.set n limits } }
    new.answer r (if limits != asked then .clamped else .ok) (.portLimit limits (h.occupancy n))

def execPortLimitSet (s : State) : Host.Outcome State Fault Refusal :=
  s.onHub (Hub.take Code.portLimitSet fun r => Hub.withSlot r (Hub.portLimitSet r))

/-- The body of PORT_COUNTS's reply (R52). -/
def Hub.portCountsBody (h : Hub) (n : Slot) : PortCountsBody :=
  let p := h.ports[n]
  { counters := p.counters, occupancy := h.occupancy n, limits := h.tables.ports[n], timingEntries := p.timingQ.length,
    controlEntries := p.controlQ.length, bulkEntries := p.bulkQ.length, identify := p.identify.isSome,
    pendControl := p.pendControl.length, pendBulk := p.pendBulk.length, freeShared := h.store.freeShared,
    freeReserve := h.store.freeReserve }

/-- PORT_COUNTS (R52): the counters are read and cleared in the one event. -/
def Hub.portCounts (r : Request) (n : Slot) (h : Hub) : Hub :=
  match boolOf (fieldAt r.body 1 1) with
  | none => h.refuse r .badParam
  | some clear =>
    let new := if clear then h.count n fun _ => {} else h
    new.answer r .ok (.portCounts (h.portCountsBody n))

def execPortCounts (s : State) : Host.Outcome State Fault Refusal :=
  s.onHub (Hub.take Code.portCounts fun r => Hub.withSlot r (Hub.portCounts r))

end Sys2Proof.Machine
end

