-- ==== Sys2Proof/Machine/TimingRequests.lean ====
section
/-! DEFINITION. The requests of the Timing Unit (sections 6.7 and 7.5). -/

namespace Sys2Proof.Machine

/-- The candidate list as a REF_LIST_SET leaves it: a source listed before keeps its entry (R114). -/
def Timing.relist (t : Timing) (sources : List Source) : Timing :=
  { t with cands := sources.map fun source => (t.cands.find? fun c => c.source == source).getD { source } }

/-- REF_LIST_SET (R114): REFERENCE_LOST begins where the list was empty or a selection is lost (R112). -/
def Hub.refListSet (r : Request) (h : Hub) : Hub :=
  match parseCandidates r.body with
  | none => h.refuse r .badParam
  | some (revertive, sources) =>
    let old := h.timing
    let new := (old.relist sources).reselect revertive
    let h := { h with tables := { h.tables with revertive } }.setTiming new .hostRequest
      (old.cands.isEmpty || (old.selection.isSome && new.selection.isNone))
    h.answer r .ok (.refList h.timing.cands h.timing.selection h.timing.state)

def execRefListSet (s : State) : Host.Outcome State Fault Refusal := s.onHub (Hub.take Code.refListSet Hub.refListSet)

/-- TIMING_SET (R115): a holdover limit at or below the count is reached in this event (R107). -/
def Hub.timingSet (r : Request) (h : Hub) : Hub :=
  let asked := parseTimingParams r.body
  let params := asked.clamp
  let h := { h with tables := { h.tables with timing := params } }.setTiming
    (h.timing.setHoldoverLimit params.holdoverLimit) .hostRequest false
  h.answer r (if params != asked then .clamped else .ok) (.timingSet params)

def execTimingSet (s : State) : Host.Outcome State Fault Refusal := s.onHub (Hub.take Code.timingSet Hub.timingSet)

/-- TIMING_STATUS (R117). -/
def Hub.timingStatus (r : Request) (h : Hub) : Hub :=
  h.answer r .ok (.timingStatus {
    now := h.clock.now, inSpec := h.inSpec, timing := h.timing, revertive := h.tables.revertive,
    timeStepped := h.clock.timeStepped, params := h.tables.timing })

def execTimingStatus (s : State) : Host.Outcome State Fault Refusal := s.onHub (Hub.take Code.timingStatus Hub.timingStatus)

/-- The second boundary at which a time setting will apply: the one reached and not yet judged, or the next (R116). -/
def Clock.nextSecond (c : Clock) : HubTime :=
  match c.first .second with
  | some b => b.time
  | none => { sec := (c.now.sec + 1) % 2 ^ 48, ns := 0 }

/-- TIME_SET (R116). The reply carries the boundary as a whole hub time (DESIGN CHOICE, log entry 72). -/
def Hub.timeSet (r : Request) (h : Hub) : Hub :=
  if h.timing.state = .freeRun ∨ h.timing.state = .holdoverLapsed then
    { h with timing := { h.timing with pendingTime := some (fieldAt r.body 0 6) } }.answer r .ok (.timeSet h.clock.nextSecond)
  else h.refuse r .badState

def execTimeSet (s : State) : Host.Outcome State Fault Refusal := s.onHub (Hub.take Code.timeSet Hub.timeSet)

/-- The body of SLOT_TIMING_QUERY's reply (R131). -/
def Hub.slotTimingBody (h : Hub) (n : Slot) : SlotTimingBody :=
  let r := h.trecs[n]
  { record := r, asymmetry := h.tables.asymmetry[n], least := least r.window, eligible := h.eligible n, settled := r.settled,
    caps := h.slots[n].identity.map (·.caps), inputs := h.permitInputs n, announceCount := h.timing.announceCount,
    announceInterval := h.tables.timing.announceInterval }

/-- SLOT_TIMING_QUERY (R131). -/
def execSlotTimingQuery (s : State) : Host.Outcome State Fault Refusal :=
  s.onHub (Hub.take Code.slotTimingQuery fun r =>
    Hub.withSlot r fun n h => h.answer r .ok (.slotTiming (h.slotTimingBody n)))

/-- ASYMMETRY_SET (R130). -/
def Hub.asymmetrySet (r : Request) (n : Slot) (h : Hub) : Hub :=
  match parseAsymmetry (r.body.drop 1) with
  | none => h.refuse r .badParam
  | some a =>
    { h with tables := { h.tables with asymmetry := h.tables.asymmetry.set n a } }.answer r .ok
      (.asymmetry h.tables.asymmetry[n] a h.trecs[n].target h.trecs[n].applied)

def execAsymmetrySet (s : State) : Host.Outcome State Fault Refusal :=
  s.onHub (Hub.take Code.asymmetrySet fun r => Hub.withSlot r (Hub.asymmetrySet r))

end Sys2Proof.Machine
end

