-- ==== Sys2Proof/Machine/Transfers.lean ====
section
/-! DEFINITION. The transfers of the host port (R171, R172, R175), each one event at the release of chip-select. -/

namespace Sys2Proof.Machine

/-- The request that a write's bytes after the type byte spell (R190). -/
def requestOf (bs : List Byte) : Request :=
  { kind := bs.getD 0 0, code := bs.getD 1 0, tag := bs.getD 2 0, flags := bs.getD 3 0, body := bs.drop 6 }

/-- A write is well sized (R172). -/
def wellSized (bs : List Byte) : Bool := fieldAt bs 4 2 ≤ 1024 && bs.length == 6 + fieldAt bs 4 2

/-- A write judged (R172): `bs` are the bytes after the type byte. -/
def HostPort.write (p : HostPort) (loading : Bool) (bs : List Byte) : HostPort :=
  if bs.length < 6 then { p with truncatedWrites := p.truncatedWrites + 1 }
  else if loading || 8 ≤ p.openCount then { p with requestsDiscarded := p.requestsDiscarded + 1, overrun := true }
  else if wellSized bs then { p with openCount := p.openCount + 1, inbound := p.inbound ++ [requestOf bs] }
  else
    { p with openCount := p.openCount + 1, lengthErrors := p.lengthErrors + 1 }.reply (requestOf bs).tag (requestOf bs).code
      .badLength .empty

/-- A chip-select period in which the host wrote these bytes (R171). While HPRST is asserted chip-select is ignored (R181). -/
def Hub.writeBytes (h : Hub) (hprst : Bool) : List Byte → Hub
  | [] => h
  | t :: bs => if hprst || t != Code.writeType then h else { h with port := h.port.write h.config.loading bs }

/-- WRITE_TRANSFER (R171, R172): every byte of the period, the type byte first. -/
def execWriteTransfer (hprst : Bool) (bytes : List Byte) (s : State) : Host.Outcome State Fault Refusal :=
  s.onHub (·.writeBytes hprst bytes)

/-- The reply of an accepted HUB_RESET, whose reading takes the reset (R179). -/
def Message.isResetReply (m : Message) : Bool := m.isReply && m.code == Code.hubReset && m.status == .ok

/-- The head message read whole (R175, R179). -/
def Hub.readWhole (h : Hub) (m : Message) (rest : List Message) : Hub :=
  let p := h.port
  let h := { h with port := { p with outbound := rest, openCount := if m.isReply then p.openCount - 1 else p.openCount,
                                     attn := !rest.isEmpty } }
  if m.isResetReply && p.resetPending then h.afterReset .hub h.config.strap else h

/-- A read of `clocked` bytes after the type byte; `startedEmpty`: the queue was empty at the start of the transfer (R175). -/
def Hub.readBytes (h : Hub) (startedEmpty : Bool) (clocked : Nat) : Hub :=
  match h.port.outbound with
  | [] => { h with port := { h.port with driven := emptyMarker.take clocked } }
  | m :: rest =>
    if startedEmpty then { h with port := { h.port with driven := emptyMarker.take clocked } }
    else
      let h := { h with port := { h.port with driven := m.encode.take clocked } }
      if m.encode.length ≤ clocked then h.readWhole m rest else h

/-- READ_TRANSFER (R171, R175). While HPRST is asserted chip-select is ignored (R181). -/
def execReadTransfer (hprst : Bool) (typeByte : Byte) (startedEmpty : Bool) (clocked : Nat) (s : State) :
    Host.Outcome State Fault Refusal :=
  s.onHub fun h => if hprst || typeByte != Code.readType then h else h.readBytes startedEmpty clocked

end Sys2Proof.Machine
end

