-- ==== Sys2Proof/Machine/Dispatch.lean ====
section
/-! DEFINITION. One arm for each command: its meaning. -/

namespace Sys2Proof.Machine

/-- The effect of a command on everything but the queue of waiting commands. -/
def exec (i : Instr) (s : State) : Host.Outcome State Fault Refusal :=
  match i with
  | .powerOnReset imageEn written => Sys2Proof.Machine.execPowerOnReset imageEn written s
  | .hostPortReset => Sys2Proof.Machine.execHostPortReset s
  | .loadComplete acknowledged => Sys2Proof.Machine.execLoadComplete acknowledged s
  | .startUpEvent => Sys2Proof.Machine.execStartUpEvent s
  | .rawInputChange n input => Sys2Proof.Machine.execRawInputChange n input s
  | .presencePresent n => Sys2Proof.Machine.execPresencePresent n s
  | .presenceAbsent n => Sys2Proof.Machine.execPresenceAbsent n s
  | .latchClosed n => Sys2Proof.Machine.execLatchClosed n s
  | .latchOpen n => Sys2Proof.Machine.execLatchOpen n s
  | .pwrGoodAsserted n => Sys2Proof.Machine.execPwrGoodAsserted n s
  | .pwrGoodLost n => Sys2Proof.Machine.execPwrGoodLost n s
  | .poweringTimeout n => Sys2Proof.Machine.execPoweringTimeout n s
  | .resetHoldEnd n => Sys2Proof.Machine.execResetHoldEnd n s
  | .linkingTimeout n => Sys2Proof.Machine.execLinkingTimeout n s
  | .identifyAttemptTimeout n => Sys2Proof.Machine.execIdentifyAttemptTimeout n s
  | .powerWait n => Sys2Proof.Machine.execPowerWait n s
  | .recoveryWindowExpiry n => Sys2Proof.Machine.execRecoveryWindowExpiry n s
  | .drainTimeout n => Sys2Proof.Machine.execDrainTimeout n s
  | .retryTimerExpiry n => Sys2Proof.Machine.execRetryTimerExpiry n s
  | .helloValid n => Sys2Proof.Machine.execHelloValid n s
  | .helloInvalid n => Sys2Proof.Machine.execHelloInvalid n s
  | .linkAlignmentLost n => Sys2Proof.Machine.execLinkAlignmentLost n s
  | .linkResetHoldEnd n => Sys2Proof.Machine.execLinkResetHoldEnd n s
  | .frameReceived n dt bytes whole => Sys2Proof.Machine.execFrameReceived n dt bytes whole s
  | .frameClassification n => Sys2Proof.Machine.execFrameClassification n s
  | .arbiterService => Sys2Proof.Machine.execArbiterService s
  | .transmissionComplete n dt => Sys2Proof.Machine.execTransmissionComplete n dt s
  | .frameBoundary => Sys2Proof.Machine.execFrameBoundary s
  | .announceBoundary => Sys2Proof.Machine.execAnnounceBoundary s
  | .secondJudgment => Sys2Proof.Machine.execSecondJudgment s
  | .linkErrorsClear n => Sys2Proof.Machine.execLinkErrorsClear n s
  | .holdoverLimitReached => Sys2Proof.Machine.execHoldoverLimitReached s
  | .extrefPulse dt => Sys2Proof.Machine.execExtrefPulse dt s
  | .extPulseLost => Sys2Proof.Machine.execExtPulseLost s
  | .identityReply => Sys2Proof.Machine.execIdentityReply s
  | .quiesced => Sys2Proof.Machine.execQuiesced s
  | .probeReply => Sys2Proof.Machine.execProbeReply s
  | .phaseReport => Sys2Proof.Machine.execPhaseReport s
  | .sourceReport => Sys2Proof.Machine.execSourceReport s
  | .cardAlarm => Sys2Proof.Machine.execCardAlarm s
  | .sweepReply => Sys2Proof.Machine.execSweepReply s
  | .invalidAgentFrame => Sys2Proof.Machine.execInvalidAgentFrame s
  | .fenceSlot n => Sys2Proof.Machine.execFenceSlot n s
  | .sweepTimeout => Sys2Proof.Machine.execSweepTimeout s
  | .configSaveWriteEnd result => Sys2Proof.Machine.execConfigSaveWriteEnd result s
  | .writeTransfer hprst bytes => Sys2Proof.Machine.execWriteTransfer hprst bytes s
  | .readTransfer hprst typeByte startedEmpty clocked => Sys2Proof.Machine.execReadTransfer hprst typeByte startedEmpty clocked s
  | .unknownRequest => Sys2Proof.Machine.execUnknownRequest s
  | .hubInfo => Sys2Proof.Machine.execHubInfo s
  | .hubStatus => Sys2Proof.Machine.execHubStatus s
  | .hubReset => Sys2Proof.Machine.execHubReset s
  | .slotPlanSet => Sys2Proof.Machine.execSlotPlanSet s
  | .slotQuery => Sys2Proof.Machine.execSlotQuery s
  | .slotPower => Sys2Proof.Machine.execSlotPower s
  | .slotAdmit => Sys2Proof.Machine.execSlotAdmit s
  | .slotRelease => Sys2Proof.Machine.execSlotRelease s
  | .slotFence => Sys2Proof.Machine.execSlotFence s
  | .slotRestore => Sys2Proof.Machine.execSlotRestore s
  | .slotRestart => Sys2Proof.Machine.execSlotRestart s
  | .slotLinkReset => Sys2Proof.Machine.execSlotLinkReset s
  | .budgetSet => Sys2Proof.Machine.execBudgetSet s
  | .windowSet => Sys2Proof.Machine.execWindowSet s
  | .windowGet => Sys2Proof.Machine.execWindowGet s
  | .groupSet => Sys2Proof.Machine.execGroupSet s
  | .groupGet => Sys2Proof.Machine.execGroupGet s
  | .defaultTargetSet => Sys2Proof.Machine.execDefaultTargetSet s
  | .portLimitSet => Sys2Proof.Machine.execPortLimitSet s
  | .portCounts => Sys2Proof.Machine.execPortCounts s
  | .refListSet => Sys2Proof.Machine.execRefListSet s
  | .timingSet => Sys2Proof.Machine.execTimingSet s
  | .timingStatus => Sys2Proof.Machine.execTimingStatus s
  | .timeSet => Sys2Proof.Machine.execTimeSet s
  | .slotTimingQuery => Sys2Proof.Machine.execSlotTimingQuery s
  | .asymmetrySet => Sys2Proof.Machine.execAsymmetrySet s
  | .alarmList => Sys2Proof.Machine.execAlarmList s
  | .alarmAck => Sys2Proof.Machine.execAlarmAck s
  | .alarmPurge => Sys2Proof.Machine.execAlarmPurge s
  | .kindSet => Sys2Proof.Machine.execKindSet s
  | .relaySet => Sys2Proof.Machine.execRelaySet s
  | .sweep => Sys2Proof.Machine.execSweep s
  | .sweepAbort => Sys2Proof.Machine.execSweepAbort s
  | .configSave => Sys2Proof.Machine.execConfigSave s

end Sys2Proof.Machine
end

