-- ==== Sys2Proof/Machine/Idle.lean ====
section
/-! DEFINITION. What the hub does by itself while no command waits (log entry 1): the first event of its own that is due,
else one ns of the reference oscillator. -/

namespace Sys2Proof.Machine

/-- The rows of the requests, by code (section 12.3). -/
def requestRows : List (Byte × Instr) :=
  [(Code.hubInfo, .hubInfo), (Code.hubStatus, .hubStatus), (Code.hubReset, .hubReset), (Code.slotPlanSet, .slotPlanSet),
   (Code.slotQuery, .slotQuery), (Code.slotPower, .slotPower), (Code.slotAdmit, .slotAdmit), (Code.slotRelease, .slotRelease),
   (Code.slotFence, .slotFence), (Code.slotRestore, .slotRestore), (Code.slotRestart, .slotRestart),
   (Code.slotLinkReset, .slotLinkReset), (Code.budgetSet, .budgetSet), (Code.windowSet, .windowSet),
   (Code.windowGet, .windowGet), (Code.groupSet, .groupSet), (Code.groupGet, .groupGet),
   (Code.defaultTargetSet, .defaultTargetSet), (Code.portLimitSet, .portLimitSet), (Code.portCounts, .portCounts),
   (Code.refListSet, .refListSet), (Code.timingSet, .timingSet), (Code.timingStatus, .timingStatus), (Code.timeSet, .timeSet),
   (Code.slotTimingQuery, .slotTimingQuery), (Code.asymmetrySet, .asymmetrySet), (Code.alarmList, .alarmList),
   (Code.alarmAck, .alarmAck), (Code.alarmPurge, .alarmPurge), (Code.kindSet, .kindSet), (Code.relaySet, .relaySet),
   (Code.sweep, .sweep), (Code.sweepAbort, .sweepAbort), (Code.configSave, .configSave)]

/-- The row that takes a request (R173). -/
def requestRow (r : Request) : Instr :=
  if r.kind = 1 then
    match requestRows.find? fun p => p.1 == r.code with
    | some p => p.2
    | none => .unknownRequest
  else .unknownRequest

/-- The row that dispatches a frame of the inbox (R157, R158). -/
def Hub.inboxRow (h : Hub) (f : Frame) : Instr :=
  if !h.formOk f then .invalidAgentFrame
  else if f.kind = Kind.identityReply then .identityReply
  else if f.kind = Kind.quiesced then .quiesced
  else if f.kind = Kind.probeReply then .probeReply
  else if f.kind = Kind.phaseReport then .phaseReport
  else if f.kind = Kind.sourceReport then .sourceReport
  else if f.kind = Kind.cardAlarm then .cardAlarm
  else .sweepReply

/-- The event that the expiry of a state's limit is (R56). -/
def limitRow (n : Slot) : SlotState → Option Instr
  | .powering => some (.poweringTimeout n)
  | .resetHold => some (.resetHoldEnd n)
  | .linking => some (.linkingTimeout n)
  | .identifying => some (.identifyAttemptTimeout n)
  | .recovering => some (.recoveryWindowExpiry n)
  | .draining => some (.drainTimeout n)
  | .faulted => some (.retryTimerExpiry n)
  | _ => none

/-- A timer whose reading is reached. -/
def Hub.reached (h : Hub) (due : Option Nat) : Bool := due.any (· ≤ h.clock.elapsed)

/-- A debounce of its own whose timer is reached (R58). -/
def Hub.debounced (h : Hub) (d : Option Debounce) : Bool := d.any fun d => !d.startUp && d.due ≤ h.clock.elapsed

/-- The timers of one slot that are reached, the first of them as its event: presence, latch, the limit of the state, POWER_WAIT and the hold of
a link reset in that order, where R56 lets either of two be first (DESIGN CHOICE, log entry 1). -/
def Hub.slotEvent (h : Hub) (n : Slot) : Option Instr :=
  let r := h.slots[n]
  if h.debounced r.presenceTimer then some (if r.rawPresent then .presencePresent n else .presenceAbsent n)
  else if h.debounced r.latchTimer then some (if r.rawLatch then .latchClosed n else .latchOpen n)
  else if h.reached r.limit && (limitRow n r.state).isSome then limitRow n r.state
  else if n ∈ h.manager.waitList ∧ !r.waitRaised ∧ h.reached (r.joined.map (· + 10000 * nsPerMs)) then some (.powerWait n)
  else if h.reached (h.links[n].hold.map (·.due)) then some (.linkResetHoldEnd n)
  else none

/-- The boundaries of the clock that are due, in the order in which they fell: an announce boundary follows the frame boundary
that it is (R98, R120; log entry 8). -/
def Hub.clockEvent (h : Hub) : Option Instr :=
  if h.clock.announces ≠ [] then some .announceBoundary
  else
    match h.clock.due with
    | { sort := .frame, .. } :: _ => some .frameBoundary
    | { sort := .second, .. } :: _ => some .secondJudgment
    | [] => none

/-- What waits in the hub's own queues: fence requests, requests, the agent inbox, frames to classify, frames at the
arbiter. Of several slots with a frame to classify, which section 2.2 does not order, the one of lowest number comes first (DESIGN CHOICE,
log entry 50). -/
def Hub.queueEvent (h : Hub) : Option Instr :=
  match h.manager.fenceRequests, (if h.port.resetPending then [] else h.port.inbound), h.agent.inbox with
  | n :: _, _, _ => some (.fenceSlot n)
  | [], r :: _, _ => some (requestRow r)
  | [], [], e :: _ => some (h.inboxRow e.frame)
  | [], [], [] =>
    match allSlots.find? fun n => !h.ports[n].handedOn.isEmpty with
    | some n => some (.frameClassification n)
    | none =>
      if allSlots.any fun n => !(h.ports[n].pendControl.isEmpty && h.ports[n].pendBulk.isEmpty) then some .arbiterService
      else none

/-- The timers of the hub that are reached. -/
def Hub.timerEvent (h : Hub) : Option Instr :=
  if h.reached h.manager.startUpDue then some .startUpEvent
  else if h.agent.sweep.inFlight && h.agent.sweep.due ≤ h.clock.elapsed then some .sweepTimeout
  else if h.timing.pulse.any fun p => p.elapsed + 1100 * nsPerMs ≤ h.clock.elapsed then some .extPulseLost
  else allSlots.findSome? h.slotEvent

/-- The first event of the hub's own that is due; a load with the strap level low completes at once (R183). -/
def Hub.ownEvent (h : Hub) : Option Instr :=
  if h.config.loading && !h.config.strap then some (.loadComplete true)
  else
    match h.clockEvent with
    | some i => some i
    | none =>
      match h.queueEvent with
      | some i => some i
      | none => h.timerEvent

/-- One step of the hub with no command waiting. -/
def idle (s : State) : Host.Outcome State Fault Refusal :=
  match s.hub.ownEvent with
  | some i => exec i s
  | none => s.onHub fun h => { h with clock := h.clock.run h.timing.correction 1 }

end Sys2Proof.Machine
end

