-- ==== Sys2Proof/Safety.lean ====
section
/-! DEFINITION. What counts as a safe run, in the terms that claims use: what the spec promises of the hub's state between two
events, block by block; and the words in which a statement says that a request is taken and answered. Each promise is an
abbreviation of a decidable proposition, so that a test can decide it on a concrete state. -/

namespace Sys2Proof.Machine

/-! ## Promises of the blocks -/

/-- Hub time is a legal time: seconds 0..2^48−1, nanoseconds 0..999,999,999 (R98). -/
abbrev HubTime.Legal (t : HubTime) : Prop := t.sec < 2 ^ 48 ∧ t.ns < nsPerSec

/-- A link sends and takes in frames only while LOCKED, and a link reset holds it DISABLED (R1, R4 to R6, R13). -/
abbrev Link.Legal (l : Link) : Prop :=
  (l.tx.isSome → l.state = .locked) ∧ (l.rx.isSome → l.state = .locked) ∧ (l.hold.isSome → l.state = .disabled)

/-- The states in which CARD_RST is released: every powered state from LINKING on (R67 to R69). -/
def SlotState.released : SlotState → Bool
  | .linking | .identifying | .awaitingAdmit | .forwarding | .recovering | .draining | .fenced => true
  | _ => false

/-- The slot's outputs follow its state (R55, R67 to R69, R88, R89, R93): PWR_EN is on in the states that count in
committed power, CARD_RST is released from LINKING on, and SAFE is lit in OFF and nowhere else. -/
abbrev SlotRec.OutputsLegal (r : SlotRec) : Prop :=
  r.pwrEn = r.state.powered ∧ r.cardRst = !r.state.released ∧ r.safe = (r.state == .off)

/-- Every slot's outputs follow its state. -/
abbrev Hub.OutputsLegal (h : Hub) : Prop := ∀ n : Slot, h.slots[n].OutputsLegal

/-- The power wait list holds each slot at most once and only slots in SEATED, and the wait start is present exactly
while the slot is in it (R55, R62). -/
abbrev Hub.WaitListLegal (h : Hub) : Prop :=
  h.manager.waitList.Nodup ∧
    ∀ n : Slot, (n ∈ h.manager.waitList → h.slots[n].state = .seated) ∧
      (h.slots[n].waitStart.isSome ↔ n ∈ h.manager.waitList)

/-- Committed power does not exceed the cabinet budget (R61). -/
abbrev Hub.WithinBudget (h : Hub) : Prop := h.committed ≤ h.tables.budget

/-- The blocks in use in a pool are those of the stored frames drawn from it, and neither pool is exceeded; the records'
names are distinct and the next one is new (R34; the names are the model's own, log entry 12). -/
abbrev Store.Legal (st : Store) : Prop :=
  (st.frames.map (·.id)).Nodup ∧ (∀ f ∈ st.frames, f.id < st.nextId) ∧
    st.sharedUsed = ((st.frames.filter fun f => !f.fromAgent).map (·.blocks)).sum ∧
    st.reserveUsed = ((st.frames.filter fun f => f.fromAgent).map (·.blocks)).sum ∧
    st.sharedUsed ≤ 1984 ∧ st.reserveUsed ≤ 64

/-- A source's pending lists hold at most 4 frames each, and the control run stays within 0..8 (R37, R44). -/
abbrev Port.Legal (p : Port) : Prop := p.pendControl.length ≤ 4 ∧ p.pendBulk.length ≤ 4 ∧ p.controlRun ≤ 8

/-- A selected reference is listed and QUALIFIED (R105). -/
abbrev Timing.SelectionLegal (t : Timing) : Prop :=
  t.selection.isSome → ∃ c ∈ t.cands, c.status = .qualified ∧ t.selection = some c.source

/-- At most four candidates, each source once (R100, R114). -/
abbrev Timing.ListLegal (t : Timing) : Prop := t.cands.length ≤ 4 ∧ (t.cands.map (·.source)).Nodup

/-- A timing record's window and compensations stay within their ranges (R118, R126 to R128), as do its counts (R124, R132). -/
abbrev TimingRec.Legal (r : TimingRec) : Prop :=
  r.window.length ≤ 8 ∧ (∀ v ∈ r.window, v ≤ 65535) ∧ (∀ v ∈ r.target, v ≤ 65535) ∧ (∀ v ∈ r.applied, v ≤ 65535) ∧
    r.misses ≤ 3 ∧ r.phaseOut ≤ 3 ∧ r.phaseIn ≤ 3

/-- The alarm table: ALARM_TABLE_FULL at position 0 and nowhere else, at most 63 other records, one for each key
(R139, R141, R142). -/
abbrev Alarms.Legal (a : Alarms) : Prop :=
  (∀ r ∈ a.full, r.key.kind = .alarmTableFull) ∧ (∀ r ∈ a.recs, r.key.kind ≠ .alarmTableFull) ∧ a.recs.length ≤ 63 ∧
    (a.recs.map (·.key)).Nodup

/-- While a sweep is in flight, the results, the failures and the pending mask together hold exactly the requested mask, and
no slot stands in two of them (R163, section 9.4). -/
abbrev Sweep.Legal (w : Sweep) : Prop :=
  w.inFlight = true →
    (w.results.map (·.1) ++ w.failures.map (·.1)).Nodup ∧
      ∀ n : Slot, (Mask.has w.requested n ↔ Mask.has w.pending n ∨ n ∈ w.results.map (·.1) ++ w.failures.map (·.1)) ∧
        (Mask.has w.pending n → n ∉ w.results.map (·.1) ++ w.failures.map (·.1))

/-- A GRANTED permit has all its inputs (R133). -/
abbrev Hub.PermitsLegal (h : Hub) : Prop := ∀ n : Slot, h.trecs[n].granted → (h.permitInputs n).all

/-- Every input of the permit rule holds for slot `n`: it is FORWARDING and has RADIATES, hub time is in specification, the window holds at
least 4 values, the path is not lost and the phase not out, and no ACTIVE record of the slot or of the hub has the action
WITHDRAW_PERMIT, a CARD_REPORTED record counting only at CRITICAL (R133, R148). -/
def Hub.MayRadiate (h : Hub) (n : Slot) : Prop :=
  h.slots[n].state = .forwarding ∧ h.slots[n].identity.any (·.caps.radiates) = true ∧
    (h.timing.state = .locked ∨ h.timing.state = .holdover ∨ h.timing.state = .acquiring .locked) ∧
    4 ≤ h.trecs[n].window.length ∧ h.trecs[n].pathLost = false ∧ h.trecs[n].phaseCond = false ∧
    ∀ x ∈ h.alarms.full.toList ++ h.alarms.recs, (x.key.source = none ∨ x.key.source = some n) → x.active = true →
      h.tables.kinds[x.key.kind.idx].action = .withdrawPermit → x.key.kind = .cardReported ∧ x.severity ≠ .critical

/-- The cabinet outputs are those that the ACTIVE records, the plan and the timing state give; and while the load runs, which may change the
plan, the timing state is FREE_RUN, so that CAB_OK is low either way (R151, R152, R183). -/
abbrev Hub.LampsLegal (h : Hub) : Prop :=
  h.alarms.lamps = h.lampLevels ∧ (h.config.loading = true → h.timing.state = .freeRun)

/-- The alarm table is legal and has room for the records that one event may add before the one a statement speaks of. -/
abbrev Hub.AlarmRoom (h : Hub) : Prop := h.alarms.Legal ∧ h.alarms.recs.length < 60

/-- Every reference to a stored frame: the entries of the egress queues and the identify positions of all ports (R35, R43). -/
def Hub.references (h : Hub) : List Nat := allSlots.flatMap fun n => h.ports[n].entries ++ h.ports[n].identify.toList

/-- The entry that stands at a place of a port: the head of a queue, or the identify position. -/
def Port.headOf (p : Port) : Place → Option Nat
  | .timing => p.timingQ.head?
  | .control => p.controlQ.head?
  | .bulk => p.bulkQ.head?
  | .identify => p.identify

/-- A stored frame has as many references as entries refer to it, and at least one; every entry refers to a stored frame; a frame in
flight stands at its place; no port holds more than its limit; and while the load runs, which may change the limits, no
port holds an entry (R35, R36, R41, R45, R183). -/
abbrev Hub.EntriesLegal (h : Hub) : Prop :=
  (∀ f ∈ h.store.frames, f.refs = h.references.count f.id ∧ 0 < f.refs) ∧
    (∀ id ∈ h.references, id ∈ h.store.frames.map (·.id)) ∧
    (∀ n : Slot, ∀ x ∈ h.links[n].tx, h.ports[n].headOf x.place = some x.id) ∧
    (∀ n : Slot, h.occupancy n ≤ h.tables.ports[n].limit) ∧ (h.config.loading = true → h.references = [])

/-! ## Promises of the host port -/

/-- The requests whose reply is deferred: that of the sweep in flight and that of the save in progress (R164, R185). -/
def Hub.deferred (h : Hub) : Nat :=
  (if h.agent.sweep.inFlight then 1 else 0) + (if h.config.save.any (·.replyDue) then 1 else 0)

/-- Every open request waits in the inbound queue, has its reply in the outbound queue, or has its reply deferred; and at
most 8 are open (R170, R173, R174). -/
abbrev Hub.RequestsLegal (h : Hub) : Prop :=
  h.port.openCount = h.port.inbound.length + h.port.replies + h.deferred ∧ h.port.openCount ≤ 8

/-- At most 24 notices wait (R170, R174), and at most 16 frames stand in the agent inbox (R156). -/
abbrev Hub.QueuesLegal (h : Hub) : Prop := h.port.notices ≤ 24 ∧ h.agent.inbox.length ≤ 16

/-! ## Promises of the settings -/

/-- A window entry is one that could be enabled as it stands (R28). -/
abbrev Window.Legal (w : Window) : Prop :=
  8 ≤ w.sizeExp ∧ w.sizeExp ≤ 31 ∧ w.base.toNat % w.size = 0 ∧ (∀ r ∈ w.remap, r.toNat % w.size = 0) ∧
    (w.classes.control || w.classes.bulk) = true

/-- The nine parameters of R115 lie within their ranges. -/
abbrev TimingParams.Legal (p : TimingParams) : Prop :=
  (1 ≤ p.q ∧ p.q ≤ 60) ∧ (60 ≤ p.holdoverLimit ∧ p.holdoverLimit ≤ 86400) ∧ (10 ≤ p.slewLimit ∧ p.slewLimit ≤ 1000) ∧
    (20 ≤ p.lockWindow ∧ p.lockWindow ≤ 1000) ∧ (p.lockWindow ≤ p.unlockThreshold ∧ p.unlockThreshold ≤ 10000) ∧
    p.cableDelay ≤ 10000 ∧ (1 ≤ p.announceInterval ∧ p.announceInterval ≤ 100) ∧ (1 ≤ p.slewStep ∧ p.slewStep ≤ 255) ∧
    (100 ≤ p.phaseLimit ∧ p.phaseLimit ≤ 100000)

/-- Every configured setting lies within the range its request holds it to (R11, R28, R41, R57, R61, R80, R115, R130,
R137). -/
abbrev Tables.Legal (t : Tables) : Prop :=
  (∀ n : Slot, t.plan[n].retryLimit ≤ 3) ∧ (100 ≤ t.budget ∧ t.budget ≤ 2000) ∧
    (50 ≤ t.recoveryWindow ∧ t.recoveryWindow ≤ 2000) ∧ (100 ≤ t.drainTimeout ∧ t.drainTimeout ≤ 5000) ∧
    (∀ i : Fin 32, t.windows[i].Legal) ∧
    (∀ n : Slot, 17 ≤ t.ports[n].limit ∧ t.ports[n].limit ≤ 1984 ∧ 1 ≤ t.ports[n].threshold ∧ t.ports[n].threshold ≤ 1000) ∧
    t.timing.Legal ∧ (∀ n : Slot, -4000 ≤ t.asymmetry[n] ∧ t.asymmetry[n] ≤ 4000) ∧
    ∀ k ∈ alarmKinds, t.kinds[k.idx].action = .fenceSlot → k.slotSourced = true

/-! ## Words for slots -/

/-- A record on entry to a state, but for what the state itself sets: the time of entry is taken, no limit of the state left runs,
and the parts that belong to IDENTIFYING and AWAITING_ADMIT are gone (R55, R56, R70). -/
def SlotRec.entering (r : SlotRec) (state : SlotState) (t : Stamp) : SlotRec :=
  { r with state, entry := t, limit := none, attempt := 0, autoAdmit := false }

/-- A record out of the wait list (R62, R64). -/
def SlotRec.notWaiting (r : SlotRec) : SlotRec := { r with waitStart := none, joined := none, waitRaised := false }

/-- The record of a slot that has entered OFF (R74, R88). -/
def SlotRec.inOff (r : SlotRec) (t : Stamp) : SlotRec :=
  { (r.entering .off t).notWaiting with pwrEn := false, cardRst := true, safe := true, identity := none }

/-- The record of a slot that has entered FAULTED, its retry timer due at `due` (R93, R94). -/
def SlotRec.inFaulted (r : SlotRec) (t : Stamp) (fault : FaultReason) (due : Nat) : SlotRec :=
  { (r.entering .faulted t).notWaiting with pwrEn := false, cardRst := true, safe := false, fault := some fault, limit := some due }

/-- The record of a slot that has entered EMPTY (R55, R88, R89). -/
def SlotRec.inEmpty (r : SlotRec) (t : Stamp) : SlotRec :=
  { (r.entering .empty t).notWaiting with
    pwrEn := false, cardRst := true, safe := false, identity := none, powerClass := none, fault := none, retries := 0,
    quiesced := false }

/-- The record of a slot held in SEATED (R66). -/
def SlotRec.inSeated (r : SlotRec) (t : Stamp) : SlotRec :=
  { r.entering .seated t with pwrEn := false, cardRst := true, safe := false, identity := none }

/-- The record of a slot that has joined the wait list at a hub time and an elapsed reading (R62). -/
def SlotRec.waiting (r : SlotRec) (now : HubTime) (elapsed : Nat) : SlotRec :=
  { r with waitStart := some now, joined := some elapsed, waitRaised := false }

/-- The record of a slot that the service of the wait list takes to POWERING, and on to RESET_HOLD where PWR_GOOD is asserted (R63,
R67, R68). -/
def Hub.powered (h : Hub) (r : SlotRec) : SlotRec :=
  { (r.entering (if r.pwrGood then .resetHold else .powering) h.stamp).notWaiting with
    pwrEn := true, limit := some (h.dueIn (if r.pwrGood then 10 else 200)) }

/-- Every slot but `n` has the record it had, or is one that waited for power and has been given it (R63); and the settings, the clock
and the configuration store are as they were. -/
def Hub.OthersStand (h g : Hub) (n : Slot) : Prop :=
  (∀ m : Slot, m ≠ n → g.slots[m] = h.slots[m] ∨ (m ∈ h.manager.waitList ∧ g.slots[m] = h.powered h.slots[m])) ∧
    g.tables = h.tables ∧ g.clock = h.clock ∧ g.config = h.config

/-- What a change of one slot without a service of the wait list leaves as it was: every other slot's record, the settings, the clock,
the configuration store and the wait list. -/
def Hub.OthersKept (h g : Hub) (n : Slot) : Prop :=
  (∀ m : Slot, m ≠ n → g.slots[m] = h.slots[m]) ∧ g.tables = h.tables ∧ g.clock = h.clock ∧ g.config = h.config ∧
    g.manager.waitList = h.manager.waitList

/-- The head of the wait list, where there is one, does not fit under the budget (R63). -/
def Hub.ListServed (h : Hub) : Prop :=
  ∀ m : Slot, h.manager.waitList.head? = some m → h.tables.budget < h.committed + h.slots[m].watts

/-- Slot `n`, with record `r`, has joined the wait list and the list has been served: the slot waits in it, or it has been given power
(R62, R63). -/
def Hub.Joined (h g : Hub) (n : Slot) (r : SlotRec) : Prop :=
  let waits := r.waiting h.clock.now h.clock.elapsed
  g.ListServed ∧
    (n ∈ g.manager.waitList ∧ g.slots[n] = waits ∨ n ∉ g.manager.waitList ∧ g.slots[n] = h.powered waits)

/-- Slot `n`, whose record was `r`, has entered SEATED: it is held there, or it has joined the wait list; and every other slot stands
(R57, R62, R66). -/
def Hub.Seated (h g : Hub) (n : Slot) (r : SlotRec) (joins : Bool) : Prop :=
  (if joins || (h.tables.plan[n].expected && r.latchClosed) then Hub.Joined h g n (r.inSeated h.stamp)
    else g.slots[n] = r.inSeated h.stamp) ∧ Hub.OthersStand h g n

/-- The slot's link is DISABLED and sends nothing, and its port holds no entry (R2, R49). -/
def Hub.ShutOff (h : Hub) (n : Slot) : Prop :=
  h.links[n].state = .disabled ∧ h.links[n].tx = none ∧ h.ports[n].entries = [] ∧ h.ports[n].identify = none

/-! ## Words for requests -/

/-- The request `r` at the head of the inbound queue is one that the row of a code takes: no hub reset is pending, the request is of
that code, and its body has the length of the code's format (R173). -/
abbrev Hub.Takes (h : Hub) (code : Byte) (r : Request) (rest : List Request) : Prop :=
  h.port.inbound = r :: rest ∧ h.port.resetPending = false ∧ r.kind = 1 ∧ r.code = code ∧ bodyLengthOk code r.body = true

/-- The port once a request has left its queue and been answered (R173, R174). -/
def HostPort.answered (p : HostPort) (r : Request) (rest : List Request) (status : Status) (body : Body) : HostPort :=
  { p with inbound := rest }.reply r.tag r.code status body

/-- The same for a request whose body starts with the number of slot `n`. -/
abbrev Hub.TakesFor (h : Hub) (code : Byte) (r : Request) (rest : List Request) (n : Slot) : Prop :=
  h.Takes code r rest ∧ Slot.ofNumber (fieldAt r.body 0 1) = some n

/-- The last message queued is the reply to a request that has left the inbound queue (R173, R174). -/
def HostPort.Replied (p : HostPort) (r : Request) (rest : List Request) (status : Status) (body : Body) : Prop :=
  p.inbound = rest ∧ ∃ m, p.outbound.getLast? = some m ∧ m.isReply = true ∧ m.code = r.code ∧ m.tag = r.tag ∧
    m.status = status ∧ m.body = body

/-- The hub where a request has been refused with a body and nothing else has changed: its reply carries the status and the body (R176). -/
def Hub.RefusedWith (h g : Hub) (r : Request) (rest : List Request) (status : Status) (body : Body) : Prop :=
  ∃ draws, g = { h with port := h.port.answered r rest status body, draws }

/-- The same where the statement says nothing of the body, which the spec does not state (R176; log entry 5). -/
def Hub.Refused (h g : Hub) (r : Request) (rest : List Request) (status : Status) : Prop :=
  ∃ body, h.RefusedWith g r rest status body

/-- What R168 says of every sweep reply: the results and the remaining mask are disjoint and together equal the requested mask. -/
def SweepBody.Accounts (b : SweepBody) : Prop :=
  ∀ n : Slot, (Mask.has b.requested n = true ↔ n ∈ b.results.map (·.1) ∨ Mask.has b.remaining n = true) ∧
    ¬ (n ∈ b.results.map (·.1) ∧ Mask.has b.remaining n = true)

/-! ## Start-up -/

/-- While the load runs, every slot is EMPTY with no debounce begun, no request waits and there is no candidate and no selection (R59,
R172, R182, R183); and a slot whose presence belongs to the start-up event is EMPTY (R59). -/
abbrev Hub.StartUpLegal (h : Hub) : Prop :=
  (h.config.loading = true → (∀ n : Slot, h.slots[n].state = .empty ∧ h.slots[n].presenceTimer = none ∧ h.slots[n].latchTimer = none) ∧
    h.port.inbound = [] ∧ h.timing.cands = [] ∧ h.timing.selection = none) ∧
  ∀ n : Slot, h.slots[n].presenceTimer.any (·.startUp) = true → h.slots[n].state = .empty

end Sys2Proof.Machine
end

