-- ==== Sys2Proof/Certificates/Slice0/Obligations.lean ====
section
/-! DEFINITION. The statements for the provers: what the hub's commands do and what every step keeps, rule by rule of the spec.
`h` is the hub before the command, `t` the machine after it. -/

open Sys2Proof Sys2Proof.Machine

/-! ## The machine -/

/-- A step runs the command at the front of the queue on the machine with the queue's rest. -/
def Obligations.StepRunsTheFrontCommand : Prop :=
  ∀ (c : Instr) (rest : List Instr) (s : State), s.pending = c :: rest → step s = exec c { s with pending := rest }

/-- With no command waiting, a step is the first event of the hub's own that is due; with none due, one ns of the reference
oscillator, in which hub time gains 1 + k·10⁻⁹ ns at the correction k (section 6.5; the order of the hub's own events and the ns as
the unit of an idle step are the model's, log entries 1 and 8). -/
def Obligations.IdleStepIsAnOwnEventOrATick : Prop :=
  ∀ s : State, s.pending = [] →
    let h := s.hub
    let k := h.timing.correction
    (∀ i, h.ownEvent = some i → step s = exec i s) ∧
      (h.ownEvent = none → ∃ c : Clock, step s = .next { s with hub := { h with clock := c } } ∧
        (h.clock.now.Legal → h.clock.now.sec + 1 < 2 ^ 48 → h.clock.carry < nsPerSec → -1000 ≤ k → k ≤ 1000 →
          ((c.now.total * nsPerSec + c.carry : Nat) : Int) = (h.clock.now.total * nsPerSec + h.clock.carry : Nat) + (nsPerSec + k) ∧
            c.carry < nsPerSec ∧ c.elapsed + h.clock.now.total = h.clock.elapsed + c.now.total))

/-- Right after power-on reset: no command waits, every slot is EMPTY with its link DISABLED, its port empty and its permit WITHHELD, the
store holds no frame, hub time is 0, the timing state is FREE_RUN with no candidate, the alarm table is empty with CAB_OK low, no
sweep is in flight, the host port's queues are empty, every setting is at its built-in default and the load runs. -/
def Obligations.ResetLeavesTheResetValues : Prop :=
  let h := State.reset.hub
  State.reset.pending = [] ∧
    (∀ n : Slot, h.slots[n].state = .empty ∧ h.slots[n].presence = false ∧ h.slots[n].latchClosed = false ∧
      h.slots[n].powerClass = none ∧ h.slots[n].identity = none ∧ h.slots[n].fault = none ∧ h.slots[n].retries = 0 ∧
      h.slots[n].pwrEn = false ∧ h.slots[n].cardRst = true ∧ h.slots[n].safe = false ∧
      h.links[n].state = .disabled ∧ h.ports[n] = {} ∧ h.trecs[n] = {}) ∧
    h.manager.waitList = [] ∧ h.committed = 0 ∧
    h.store.frames = [] ∧ h.store.sharedUsed = 0 ∧ h.store.reserveUsed = 0 ∧
    h.clock.now = ⟨0, 0⟩ ∧ h.timing.state = .freeRun ∧ h.timing.cands = [] ∧ h.timing.selection = none ∧ h.timing.correction = 0 ∧
    h.alarms.all = [] ∧ h.alarms.changeNumber = 0 ∧ h.alarms.lamps = {} ∧
    h.agent.inbox = [] ∧ h.agent.sweep.inFlight = false ∧ h.agent.sweep.nextNumber = 0 ∧
    h.port.inbound = [] ∧ h.port.outbound = [] ∧ h.port.openCount = 0 ∧ h.port.attn = false ∧
    h.tables = {} ∧ h.config.loading = true ∧ h.config.save = none

/-- The machine right after power-on reset meets every promise that the statements below show every step to keep. -/
def Obligations.ResetMeetsEveryPromise : Prop :=
  let h := State.reset.hub
  Memory.wf State.reset.eeprom ∧ h.clock.now.Legal ∧
    (∀ n : Slot, h.links[n].Legal ∧ h.ports[n].Legal ∧ h.trecs[n].Legal) ∧ h.OutputsLegal ∧ h.WaitListLegal ∧ h.WithinBudget ∧
    h.store.Legal ∧ h.timing.SelectionLegal ∧ h.timing.ListLegal ∧ h.alarms.Legal ∧ h.agent.sweep.Legal ∧ h.RequestsLegal ∧
    h.QueuesLegal ∧ h.tables.Legal ∧ h.StartUpLegal ∧ h.PermitsLegal ∧ h.LampsLegal ∧ h.EntriesLegal ∧
    ∀ n : Slot, h.trecs[n].granted = true ↔ h.MayRadiate n

/-- Every command completes and leaves the queue of waiting commands; and it leaves every byte of the EEPROM but those of the image's
821 and of the two of the CRC field (chapter 11). -/
def Obligations.EveryCommandCompletes : Prop :=
  ∀ (c : Instr) (s : State), ∃ t, exec c s = .next t ∧ t.pending = s.pending ∧
    (Memory.wf s.eeprom = true → ∀ a, imageLength ≤ a → a ≠ crcOffset s.eeprom → a ≠ crcOffset s.eeprom + 1 →
      Memory.read t.eeprom a = Memory.read s.eeprom a)

/-- A command other than the end of a load, a reset, the read that takes a hub reset and the request that sets it leaves a setting of
section 11.1 as it is. -/
def Obligations.SettingsChangeByTheirOwnRequest : Prop :=
  ∀ (c : Instr) (s t : State), exec c s = .next t →
    (∀ e w, c ≠ .powerOnReset e w) → (∀ a, c ≠ .loadComplete a) → (∀ p b e k, c ≠ .readTransfer p b e k) →
    let a := s.hub.tables
    let b := t.hub.tables
    (c ≠ .slotPlanSet → b.plan = a.plan) ∧
      (c ≠ .budgetSet → b.budget = a.budget ∧ b.recoveryWindow = a.recoveryWindow ∧ b.drainTimeout = a.drainTimeout) ∧
      (c ≠ .windowSet → b.windows = a.windows) ∧ (c ≠ .groupSet → b.groups = a.groups) ∧
      (c ≠ .defaultTargetSet → b.defaultTarget = a.defaultTarget) ∧ (c ≠ .portLimitSet → b.ports = a.ports) ∧
      (c ≠ .refListSet → b.revertive = a.revertive ∧
        t.hub.timing.cands.map (·.source) = s.hub.timing.cands.map (·.source)) ∧
      (c ≠ .timingSet → b.timing = a.timing) ∧ (c ≠ .asymmetrySet → b.asymmetry = a.asymmetry) ∧
      (c ≠ .kindSet → b.kinds = a.kinds) ∧ (c ≠ .relaySet → b.relay = a.relay)

/-! ## What every step keeps -/

/-- The EEPROM's list of cells keeps its canonical form; hub time stays a legal time; a link that is not LOCKED sends and takes in nothing; a
source's pending lists hold at most four frames and a control run stays within 0..8; a timing record's window, compensations and counts stay
within their ranges. -/
def Obligations.RecordsStayLegal : Prop :=
  ∀ s t : State, step s = .next t →
    (Memory.wf s.eeprom = true → Memory.wf t.eeprom = true) ∧
      (s.hub.clock.now.Legal → t.hub.clock.now.Legal) ∧
      ((∀ n : Slot, s.hub.links[n].Legal) → ∀ n : Slot, t.hub.links[n].Legal) ∧
      ((∀ n : Slot, s.hub.ports[n].Legal) → ∀ n : Slot, t.hub.ports[n].Legal) ∧
      ((∀ n : Slot, s.hub.trecs[n].Legal) → ∀ n : Slot, t.hub.trecs[n].Legal)

/-- PWR_EN, CARD_RST and SAFE of every slot follow its state. A slot in the wait list is SEATED (WaitListStaysLegal). -/
def Obligations.OutputsStayLegal : Prop :=
  ∀ s t : State, step s = .next t → s.hub.WaitListLegal → s.hub.OutputsLegal → t.hub.OutputsLegal

/-- The power wait list holds each slot at most once and only slots in SEATED, and the wait start is present exactly in it. -/
def Obligations.WaitListStaysLegal : Prop :=
  ∀ s t : State, step s = .next t → s.hub.WaitListLegal → t.hub.WaitListLegal

/-- The committed power of the cabinet never exceeds the cabinet budget. While the load runs every slot is EMPTY (StartUpStaysLegal), so
that the budget it brings is met. -/
def Obligations.PowerStaysWithinBudget : Prop :=
  ∀ s t : State, step s = .next t → s.hub.StartUpLegal → s.hub.WithinBudget → t.hub.WithinBudget

/-- The blocks in use in each pool are those of the stored frames drawn from it, and neither pool is ever exceeded. Each stored frame has as
many references as queue entries and identify positions refer to it, and every entry refers to a stored frame; a frame in flight
stands at the head of its queue; and no port's occupancy exceeds its port limit. -/
def Obligations.StoreStaysLegal : Prop :=
  ∀ s t : State, step s = .next t → s.hub.store.Legal →
    t.hub.store.Legal ∧ (s.hub.StartUpLegal → s.hub.EntriesLegal → t.hub.EntriesLegal)

/-- ALARM_TABLE_FULL stands at position 0 and nowhere else; at most 63 other records, one for each key. After every step the cabinet outputs are
those that the rules give: ALM_CRIT, ALM_MAJ and ALM_MIN while a record of the severity is ACTIVE, ALM_AUD while a MAJOR or CRITICAL one
is not acknowledged, CAB_OK while every expected slot is FORWARDING, hub time is in specification and no CRITICAL record is ACTIVE. -/
def Obligations.AlarmTableStaysLegal : Prop :=
  ∀ s t : State, step s = .next t →
    (s.hub.alarms.Legal → t.hub.alarms.Legal) ∧
    (s.hub.WaitListLegal → s.hub.StartUpLegal → s.hub.LampsLegal → t.hub.LampsLegal ∧
      let active (x : AlarmRec) (sev : Severity) : Prop := x ∈ t.hub.alarms.all ∧ x.active = true ∧ x.severity = sev
      let lamps := t.hub.alarms.lamps
      (lamps.crit = true ↔ ∃ x, active x .critical) ∧ (lamps.maj = true ↔ ∃ x, active x .major) ∧
      (lamps.min = true ↔ ∃ x, active x .minor) ∧
      (lamps.aud = true ↔ ∃ x, (active x .critical ∨ active x .major) ∧ x.acked = false) ∧
      (lamps.cabOk = true ↔ (∀ n : Slot, t.hub.tables.plan[n].expected = true → t.hub.slots[n].state = .forwarding) ∧
        t.hub.inSpec = true ∧ ¬ ∃ x, active x .critical))

/-- At most four candidates, each source once; and a selected reference is listed and QUALIFIED. While the load runs nothing is
selected (StartUpStaysLegal). -/
def Obligations.SelectionStaysLegal : Prop :=
  ∀ s t : State, step s = .next t → s.hub.StartUpLegal → s.hub.timing.ListLegal → s.hub.timing.SelectionLegal →
    t.hub.timing.ListLegal ∧ t.hub.timing.SelectionLegal

/-- Every setting stays within the range its request holds it to. -/
def Obligations.SettingsStayLegal : Prop :=
  ∀ s t : State, step s = .next t → s.hub.tables.Legal → t.hub.tables.Legal

/-- Every open request waits, has its reply queued or has it deferred; at most 8 are open, at most 24 notices wait, and at most 16 frames
stand in the agent inbox. -/
def Obligations.QueuesStayLegal : Prop :=
  ∀ s t : State, step s = .next t → (s.hub.RequestsLegal → t.hub.RequestsLegal) ∧ (s.hub.QueuesLegal → t.hub.QueuesLegal)

/-- While a sweep is in flight, its results, its failures and its pending mask together hold the requested mask, and no slot stands in
two of them. -/
def Obligations.SweepStaysLegal : Prop :=
  ∀ s t : State, step s = .next t → s.hub.agent.sweep.Legal → t.hub.agent.sweep.Legal

/-- While the load runs every slot is EMPTY with no debounce begun, no request waits and nothing is selected; and a slot whose presence
belongs to the start-up event is EMPTY. -/
def Obligations.StartUpStaysLegal : Prop :=
  ∀ s t : State, step s = .next t → s.hub.WaitListLegal → s.hub.StartUpLegal → t.hub.StartUpLegal

/-- A slot's permit is GRANTED only while all the inputs of the permit rule hold; and where every permit is GRANTED exactly while they hold, a step
keeps it so, so that each event that brings the last input about grants the permit, and each that ends one withdraws it. -/
def Obligations.PermitsStayLegal : Prop :=
  ∀ s t : State, step s = .next t → s.hub.WaitListLegal → s.hub.StartUpLegal →
    (s.hub.PermitsLegal → t.hub.PermitsLegal) ∧
    (s.hub.alarms.Legal → (∀ n : Slot, s.hub.trecs[n].granted = true ↔ s.hub.MayRadiate n) →
      ∀ n : Slot, t.hub.trecs[n].granted = true ↔ t.hub.MayRadiate n)

/-! ## Resets, loads and start-up -/

/-- POWER_ON_RESET samples the strap and brings every setting and every part to its value after reset: what stays is the levels of the slot
inputs, driven from outside (log entry 4), the bytes last driven to the host (log entry 9), and what the last load found, until the next one ends.
Of a save in progress the EEPROM keeps the bytes written so far, its CRC kept from matching (log entry 27). HUB_RESET is answered OK with the
reset pending, or BUSY while a save runs; while it is pending no request of any row is taken; and the read that takes its whole reply resets the
hub in the same way, the strap as it was sampled, and a load under way. (The reply's empty body, R188 giving a body the fields that its rule
names, is the model's choice, log entry 31.) -/
def Obligations.PowerOnAndHubReset : Prop :=
  (∀ (s : State) (strap : Bool) (written : Nat), ∃ t, exec (.powerOnReset strap written) s = .next t ∧
    t.pending = s.pending ∧ (s.hub.config.save = none → t.eeprom = s.eeprom) ∧
    (∀ save, s.hub.config.save = some save → t.eeprom = saveCutOff s.eeprom save.snapshot written) ∧
    t.hub.tables = {} ∧ t.hub.links = State.reset.hub.links ∧ t.hub.ports = State.reset.hub.ports ∧ t.hub.store = {} ∧
    t.hub.manager = {} ∧ t.hub.timing = {} ∧ t.hub.trecs = State.reset.hub.trecs ∧ t.hub.alarms = {} ∧ t.hub.agent = {} ∧
    t.hub.clock = {} ∧ t.hub.port = { driven := s.hub.port.driven } ∧
    t.hub.config = { strap, status := s.hub.config.status, fault := s.hub.config.fault, version := s.hub.config.version,
                     loading := true, lastReset := .powerOn, save := none } ∧
    ∀ n : Slot, t.hub.slots[n] = { rawPresent := s.hub.slots[n].rawPresent, rawLatch := s.hub.slots[n].rawLatch,
                                   pcode := s.hub.slots[n].pcode, pwrGood := s.hub.slots[n].pwrGood }) ∧
  (∀ (s : State) (r : Request) (rest : List Request),
    let h := s.hub
    (h.Takes Code.hubReset r rest →
      exec .hubReset s =
        (if h.config.save.isSome then .next { s with hub := { h with port := h.port.answered r rest .busy .empty } }
        else .next { s with hub := { h with port := { h.port.answered r rest .ok .empty with resetPending := true } } })) ∧
    (h.port.resetPending = true → ∀ c, (∃ code, (code, c) ∈ requestRows) ∨ c = .unknownRequest → exec c s = .next s) ∧
    ∀ (m : Message) (later : List Message) (clocked : Nat), h.port.outbound = m :: later → h.port.resetPending = true →
      m.isReply = true → m.code = Code.hubReset → m.status = .ok → m.encode.length ≤ clocked →
      ∃ t, exec (.readTransfer false Code.readType false clocked) s = .next t ∧ t.eeprom = s.eeprom ∧ t.pending = s.pending ∧
        t.hub.tables = {} ∧ t.hub.links = State.reset.hub.links ∧ t.hub.ports = State.reset.hub.ports ∧ t.hub.store = {} ∧
        t.hub.manager = {} ∧ t.hub.timing = {} ∧ t.hub.trecs = State.reset.hub.trecs ∧ t.hub.alarms = {} ∧ t.hub.agent = {} ∧
        t.hub.clock = {} ∧
        t.hub.port = { inbound := [], outbound := [], openCount := 0, overrun := false, noticesLost := false, resetPending := false,
                       requestsDiscarded := 0, noticesDiscarded := 0, lengthErrors := 0, truncatedWrites := 0, attn := false,
                       driven := m.encode } ∧
        t.hub.config = { strap := h.config.strap, status := h.config.status, fault := h.config.fault, version := h.config.version,
                         loading := true, lastReset := .hub, save := none } ∧
        ∀ n : Slot, t.hub.slots[n] = {
          state := .empty, presence := false, latchClosed := false, powerClass := none, identity := none, fault := none, retries := 0,
          entry := {}, attempt := 0, autoAdmit := false, waitStart := none, quiesced := false, presenceTimer := none, latchTimer := none,
          limit := none, joined := none, waitRaised := false, pwrEn := false, cardRst := true, safe := false,
          rawPresent := h.slots[n].rawPresent, rawLatch := h.slots[n].rawLatch, pcode := h.slots[n].pcode,
          pwrGood := h.slots[n].pwrGood })

/-- HOST_PORT_RESET empties both queues, takes the open count to 0, clears the flags and ATTN and keeps the four counters; it ends a sweep
in flight without a reply, discards a pending time setting, and lets a save run on without its reply; and it changes nothing else. -/
def Obligations.HostPortReset : Prop :=
  ∀ s : State,
    let h := s.hub
    let p := h.port
    let w := h.agent.sweep
    exec .hostPortReset s = .next { s with hub := { h with
      port := { inbound := [], outbound := [], openCount := 0, overrun := false, noticesLost := false, resetPending := false,
                requestsDiscarded := p.requestsDiscarded, noticesDiscarded := p.noticesDiscarded, lengthErrors := p.lengthErrors,
                truncatedWrites := p.truncatedWrites, attn := false, driven := [] }
      agent := { h.agent with sweep := if w.inFlight then { w with inFlight := false, pending := 0, results := [], failures := [] }
                                       else w }
      timing := { h.timing with pendingTime := none }
      config := { h.config with save := h.config.save.map fun save => { save with replyDue := false } } } }

/-- LOAD_COMPLETE ends the load: with the strap level low the settings stay at their defaults; with an image that passes every check they
take its values; with any fault they stay, the fault is reported and CONFIG_IMAGE_INVALID is raised. Either way the host is told by
STARTED, and every debounce begins, to end together 50 ms later. Outside a load the command changes nothing. -/
def Obligations.LoadComplete : Prop :=
  ∀ (s : State) (acknowledged : Bool),
    let h := s.hub
    let found : LoadFault ⊕ Settings := if acknowledged then judgeImage s.eeprom else .inl .noAck
    (h.config.loading = false → exec (.loadComplete acknowledged) s = .next s) ∧
    (h.config.loading = true → ∃ t, exec (.loadComplete acknowledged) s = .next t ∧ t.eeprom = s.eeprom ∧ t.pending = s.pending ∧
      t.hub.config.loading = false ∧ t.hub.config.save = h.config.save ∧ t.hub.clock = h.clock ∧
      t.hub.manager.startUpDue = some (h.clock.elapsed + 50 * nsPerMs) ∧
      (∀ n : Slot, t.hub.slots[n] = { h.slots[n] with
        presenceTimer := if h.slots[n].rawPresent != h.slots[n].presence then some { due := h.clock.elapsed + 50 * nsPerMs, startUp := true } else none
        latchTimer := if h.slots[n].rawLatch != h.slots[n].latchClosed then some { due := h.clock.elapsed + 50 * nsPerMs, startUp := true } else none }) ∧
      (h.port.notices < 24 → ∃ m ∈ t.hub.port.outbound,
        m.body = .started t.hub.config.status t.hub.config.fault t.hub.config.version h.config.strap h.config.lastReset) ∧
      (h.config.strap = false → t.hub.config.status = .defaultsByStrap ∧ t.hub.config.fault = none ∧ t.hub.tables = h.tables) ∧
      (h.config.strap = true → ∀ f, found = .inl f →
        t.hub.config.status = .defaultsAfterFailure ∧ t.hub.config.fault = some f ∧ t.hub.tables = h.tables ∧
        (h.AlarmRoom → t.hub.isActive (.hub .configImageInvalid) = true)) ∧
      (h.config.strap = true → ∀ v, found = .inr v →
        t.hub.config.status = .valid ∧ t.hub.config.fault = none ∧ t.hub.config.version = some 3 ∧ t.hub.tables = v.tables ∧
        t.hub.timing.cands = v.sources.map fun source => { source }))

/-- START_UP_EVENT: every slot whose input differed at the load takes it; each slot found PRESENT reads its power class and enters SEATED,
those expected and CLOSED join the wait list in ascending slot number, and the list is served. -/
def Obligations.StartUpEvent : Prop :=
  ∀ s : State,
    let h := s.hub
    let found (n : Slot) : Bool := h.slots[n].presenceTimer.any (·.startUp) && h.slots[n].rawPresent
    let seated (n : Slot) : SlotRec := { h.slots[n].startUp with powerClass := some (classOfPins h.slots[n].pcode) }.inSeated h.stamp
    let joins (n : Slot) : Bool := found n && h.tables.plan[n].expected && h.slots[n].startUp.latchClosed
    h.manager.startUpDue.isSome = true → h.manager.waitList = [] →
      ∃ t, exec .startUpEvent s = .next t ∧ t.hub.manager.startUpDue = none ∧ t.hub.manager.startUpAt = some h.clock.now ∧
        t.hub.clock = h.clock ∧ t.hub.tables = h.tables ∧ t.hub.ListServed ∧
        (∃ k, t.hub.manager.waitList = (allSlots.filter joins).drop k) ∧
        ∀ n : Slot,
          (found n = false → t.hub.slots[n] = h.slots[n].startUp) ∧
          (found n = true → joins n = false → t.hub.slots[n] = seated n) ∧
          (joins n = true →
            if n ∈ t.hub.manager.waitList then t.hub.slots[n] = (seated n).waiting h.clock.now h.clock.elapsed
            else t.hub.slots[n] = h.powered ((seated n).waiting h.clock.now h.clock.elapsed))

/-! ## The configuration image -/

/-- An image of settings that are within their ranges, with at most four sources, each once, is read back as those settings. -/
def Obligations.ImageIsReadBack : Prop :=
  ∀ (m : List Host.Cell) (v : Settings), v.tables.Legal → v.sources.length ≤ 4 → v.sources.Nodup →
    Memory.bytes m 0 imageLength = imageBody v ++ imageCrc v → judgeImage m = .inr v

/-- CONFIG_SAVE takes a snapshot of every setting and goes on to SAVING, its reply deferred; while a save runs it is refused with BUSY. A
write that ends with every byte acknowledged leaves the EEPROM holding the snapshot's image and is answered with its 821 bytes; one that
ends in a failure is answered with its cause and raises CONFIG_SAVE_FAILED, and the save state is IDLE again. A failure after the first byte
written leaves a stored image whose CRC does not match, whatever stood there before; no load takes it, and where the stored tag, version and
length were good, or have been written, the load finds BAD_CRC. -/
def Obligations.ConfigSave : Prop :=
  ∀ (s : State) (r : Request) (rest : List Request),
    let h := s.hub
    (h.Takes Code.configSave r rest → h.config.save = none →
      exec .configSave s = .next { s with hub := { h with
        port := { h.port with inbound := rest }
        config := { h.config with save := some { snapshot := h.settings, tag := r.tag, replyDue := true } } } }) ∧
    (h.Takes Code.configSave r rest → h.config.save.isSome = true →
      ∃ t, exec .configSave s = .next t ∧ h.Refused t.hub r rest .busy) ∧
    ∀ (save : Save) (result : SaveEnd), h.config.save = some save →
      ∃ t, exec (.configSaveWriteEnd result) s = .next t ∧ t.hub.config = { h.config with save := none } ∧
        t.hub.slots = h.slots ∧ t.hub.tables = h.tables ∧ t.hub.clock = h.clock ∧
        (result = .saved → t.hub = { h with
            config := { h.config with save := none }
            port := if save.replyDue then h.port.reply save.tag Code.configSave .ok (.configSave none imageLength) else h.port } ∧
          (Memory.wf s.eeprom = true →
            Memory.bytes t.eeprom 0 imageLength = imageBody save.snapshot ++ imageCrc save.snapshot)) ∧
        (∀ written, result = .noAck written → written < 823 → t.eeprom = saveCutOff s.eeprom save.snapshot written) ∧
        ∀ fault, (saveResult result).1 = some fault →
          (h.AlarmRoom → t.hub.isActive (.hub .configSaveFailed) = true) ∧
          (Memory.wf s.eeprom = true → result ≠ .noAck 0 →
            crcMatches t.eeprom = false ∧ (∃ found, judgeImage t.eeprom = .inl found) ∧
              ((∀ found, judgeImage s.eeprom = .inl found → found = .badCrc ∨ found = .badContent) ∨
                  (∀ written, result = .noAck written → 10 ≤ written) →
                judgeImage t.eeprom = .inl .badCrc)) ∧
          (save.replyDue = true → ∃ m, t.hub.port.outbound.getLast? = some m ∧ m.isReply = true ∧ m.tag = save.tag ∧
            m.body = .configSave (some fault) (saveResult result).2)

/-- A save of which power takes away the rest, after its first byte and before its last, leaves an image that no load takes, whatever stood
there before it; where the tag, the version and the length were good, or have been written, the next load finds BAD_CRC. Once the last byte has
been written the new image stands, and the next load takes it as VALID. -/
def Obligations.CutOffSaveIsFound : Prop :=
  ∀ (m : List Host.Cell) (v : Settings) (written : Nat), Memory.wf m = true →
    (1 ≤ written → written < 823 →
      crcMatches (saveCutOff m v written) = false ∧ (∃ found, judgeImage (saveCutOff m v written) = .inl found) ∧
        ((∀ found, judgeImage m = .inl found → found = .badCrc ∨ found = .badContent) ∨ 10 ≤ written →
          judgeImage (saveCutOff m v written) = .inl .badCrc)) ∧
    (823 ≤ written → v.tables.Legal → v.sources.length ≤ 4 → v.sources.Nodup → judgeImage (saveCutOff m v written) = .inr v)

/-! ## Inputs and bring-up of a slot -/

/-- RAW_INPUT_CHANGE: a change of PRESENT or of LATCH is taken, and the 50 ms debounce runs afresh while the raw value differs from the
debounced one, once the load is over; a change of the PCODE pins is taken at once. Nothing else changes. -/
def Obligations.RawInputChange : Prop :=
  ∀ (s : State) (n : Slot),
    let h := s.hub
    let r := h.slots[n]
    let timer (raw debounced : Bool) : Option Debounce :=
      if raw != debounced && !h.config.loading then some { due := h.clock.elapsed + 50 * nsPerMs, startUp := false } else none
    (∀ level, exec (.rawInputChange n (.present level)) s = .next (if r.rawPresent = level then s else
      { s with hub := { h with slots := h.slots.set n { r with rawPresent := level, presenceTimer := timer level r.presence } } })) ∧
    (∀ closed, exec (.rawInputChange n (.latch closed)) s = .next (if r.rawLatch = closed then s else
      { s with hub := { h with slots := h.slots.set n { r with rawLatch := closed, latchTimer := timer closed r.latchClosed } } })) ∧
    ∀ pins, exec (.rawInputChange n (.pcode pins)) s =
      .next { s with hub := { h with slots := h.slots.set n { r with pcode := pins } } }

/-- The ends of a debounce. PRESENCE_PRESENT: an EMPTY slot reads its power class and enters SEATED; in any other state only the debounced value
changes. LATCH_CLOSED: a SEATED slot that the plan expects joins the wait list, which is served; an OFF slot with a card enters SEATED; in
any other state only the debounced value changes. PRESENCE_ABSENT: in every state but EMPTY the slot enters EMPTY, its card's parts gone,
its link DISABLED and its port empty; the other slots stand; and SURPRISE_EXTRACTION is raised from a state in service, and from no other.
That the entry to EMPTY from OFF clears the quiesced flag too, which R88 does not name, is the model's choice (log entry 41); and so is that
a command whose debounce does not end, and PRESENCE_PRESENT outside EMPTY, leave the slot's state as it is (log entry 15). -/
def Obligations.PresenceAndLatch : Prop :=
  (∀ (s : State) (n : Slot),
    let h := s.hub
    let r := { h.slots[n] with presence := true, presenceTimer := none }
    (h.slots[n].presenceEnds true = true → h.slots[n].state = .empty → n ∉ h.manager.waitList →
      ∃ t, exec (.presencePresent n) s = .next t ∧ t.eeprom = s.eeprom ∧
        Hub.Seated h t.hub n { r with powerClass := some (classOfPins r.pcode) } false) ∧
    (h.slots[n].presenceEnds true = true → h.slots[n].state ≠ .empty →
      exec (.presencePresent n) s = .next { s with hub := { h with slots := h.slots.set n r } }) ∧
    (h.slots[n].presenceEnds true = false → exec (.presencePresent n) s = .next s)) ∧
  (∀ (s : State) (n : Slot),
    let h := s.hub
    let r := { h.slots[n] with latchClosed := true, latchTimer := none }
    let onlyTheValue : Prop := exec (.latchClosed n) s = .next { s with hub := { h with slots := h.slots.set n r } }
    h.slots[n].latchEnds true = true →
    (h.slots[n].state = .seated → h.tables.plan[n].expected = true → n ∉ h.manager.waitList →
      ∃ t, exec (.latchClosed n) s = .next t ∧ t.eeprom = s.eeprom ∧ Hub.Joined h t.hub n r ∧ Hub.OthersStand h t.hub n) ∧
    (h.slots[n].state = .seated → h.tables.plan[n].expected = false → onlyTheValue) ∧
    (h.slots[n].state = .off → h.slots[n].presence = true → n ∉ h.manager.waitList →
      ∃ t, exec (.latchClosed n) s = .next t ∧ t.eeprom = s.eeprom ∧ Hub.Seated h t.hub n r false) ∧
    (h.slots[n].state = .off → h.slots[n].presence = false → onlyTheValue) ∧
    (h.slots[n].state ≠ .seated → h.slots[n].state ≠ .off → onlyTheValue)) ∧
  (∀ (s : State) (n : Slot),
    let h := s.hub
    let r := { h.slots[n] with presence := false, presenceTimer := none }
    h.slots[n].presenceEnds false = true →
    (h.slots[n].state ≠ .empty → ∃ t, exec (.presenceAbsent n) s = .next t ∧ t.eeprom = s.eeprom ∧
      t.hub.slots[n] = r.inEmpty h.stamp ∧ t.hub.ShutOff n ∧ Hub.OthersStand h t.hub n ∧
      (h.AlarmRoom → t.hub.isActive (.slot n .surpriseExtraction) =
        (h.slots[n].state.inService || h.isActive (.slot n .surpriseExtraction)))) ∧
    (h.slots[n].state = .empty →
      exec (.presenceAbsent n) s = .next { s with hub := { h with slots := h.slots.set n r } }))

/-- The service of the power wait list: slots leave it from its head, in order, each into POWERING or, where PWR_GOOD is asserted already, on
into RESET_HOLD; it ends when the list is empty or its head no longer fits; the slots behind keep their order and their records. -/
def Obligations.WaitListService : Prop :=
  ∀ h : Hub, h.WaitListLegal →
    let t := h.serve.1
    t.ListServed ∧ (h.committed ≤ h.tables.budget → t.committed ≤ t.tables.budget) ∧
      ∃ k, t.manager.waitList = h.manager.waitList.drop k ∧ h.serve.2.map (·.1) = h.manager.waitList.take k ∧
        (∀ n : Slot, n ∈ h.manager.waitList.take k → t.slots[n] = h.powered h.slots[n]) ∧
        (∀ n : Slot, n ∉ h.manager.waitList.take k → t.slots[n] = h.slots[n]) ∧
        t = { h with slots := t.slots, manager := { h.manager with waitList := t.manager.waitList } }

/-- POWER_WAIT is raised once for a slot's stay in the wait list, and nothing of its record changes but that. -/
def Obligations.PowerWait : Prop :=
  ∀ (s : State) (n : Slot),
    let h := s.hub
    (n ∈ h.manager.waitList → h.slots[n].waitRaised = false → ∃ t, exec (.powerWait n) s = .next t ∧
      t.hub.slots = h.slots.set n { h.slots[n] with waitRaised := true } ∧ t.hub.tables = h.tables ∧ t.hub.clock = h.clock ∧
      t.hub.manager.waitList = h.manager.waitList ∧
      ((h.alarms.recs.length < 63 ∨ h.alarms.find (.slot n .powerWait) ≠ none) → t.hub.isActive (.slot n .powerWait) = true)) ∧
    (n ∉ h.manager.waitList ∨ h.slots[n].waitRaised = true → exec (.powerWait n) s = .next s)

/-- The bring-up of a powered slot: PWR_GOOD takes POWERING to RESET_HOLD for 10 ms; the end of the hold releases CARD_RST, enables the link and
takes the slot to LINKING for 1,000 ms; each with its SLOT_CHANGED notice and nothing else. The second valid hello in a row locks the link:
a LINKING slot enters IDENTIFYING and sends the first IDENTIFY; in a state that the lock does not change, AWAITING_ADMIT without auto
admission, IDENTIFYING, DRAINING and FENCED among them, only the link changes, and its scheduler judges. An attempt that times out before
the third sends the next. An IDENTIFY still unsent leaves the identify position first, counted as purged, and as aborted where it is in
flight; then the new one is placed where a reserve block is free, and otherwise AGENT_OVERLOAD is raised and the position stays empty. -/
def Obligations.BringUp : Prop :=
  (∀ (s : State) (n : Slot),
    let h := s.hub
    let r := h.slots[n]
    (r.state = .powering → exec (.pwrGoodAsserted n) s = .next { s with hub := { h with
      slots := h.slots.set n { r.entering .resetHold h.stamp with pwrGood := true, limit := some (h.clock.elapsed + 10 * nsPerMs) }
      port := h.port.notice Code.slotChanged (.slotChanged n .powering .resetHold .powerGood none h.stamp) } }) ∧
    (r.state ≠ .powering → exec (.pwrGoodAsserted n) s =
      .next { s with hub := { h with slots := h.slots.set n { r with pwrGood := true } } }) ∧
    (r.state = .resetHold → r.limit.isSome = true → h.links[n].state = .disabled → h.links[n].hold = none →
      exec (.resetHoldEnd n) s = .next { s with hub := { h with
        slots := h.slots.set n { r.entering .linking h.stamp with cardRst := false, limit := some (h.clock.elapsed + 1000 * nsPerMs) }
        links := h.links.set n { h.links[n] with state := .training, helloCount := 0 }
        port := h.port.notice Code.slotChanged (.slotChanged n .resetHold .linking .resetDone none h.stamp) } })) ∧
  (∀ (s : State) (n : Slot),
    let h := s.hub
    let r := h.slots[n]
    let cls := r.powerClass.getD .d
    let c := h.ports[n].counters
    let placed (t : Hub) (attempt : Nat) : Prop :=
      let left : Store := match h.ports[n].identify with | none => h.store | some id => h.store.deref id
      (left.freeReserve ≠ 0 → t.store = left.put (identifyFrame n attempt cls) true 1 ∧ t.ports[n].identify = some left.nextId) ∧
      (left.freeReserve = 0 → t.store = left ∧ t.ports[n].identify = none ∧ (h.AlarmRoom → t.isActive (.hub .agentOverload) = true)) ∧
      t.ports[n].counters = if h.ports[n].identify = none then c else
        { c with purged := c.purged + 1, aborted := if h.links[n].tx.any (·.place == .identify) then c.aborted + 1 else c.aborted }
    (r.state = .linking → h.links[n].state = .training → h.links[n].helloCount = 1 →
      ∃ t, exec (.helloValid n) s = .next t ∧
        t.hub.slots = h.slots.set n { r.entering .identifying h.stamp with attempt := 1, limit := some (h.clock.elapsed + 100 * nsPerMs) } ∧
        t.hub.links[n].state = .locked ∧ t.hub.links[n].helloCount = 0 ∧ t.hub.tables = h.tables ∧ placed t.hub 1) ∧
    (r.state ≠ .linking → r.state ≠ .recovering → ¬ (r.state = .awaitingAdmit ∧ r.autoAdmit = true) →
      h.links[n].state = .training → h.links[n].helloCount = 1 →
      ∃ t, exec (.helloValid n) s = .next t ∧ t.eeprom = s.eeprom ∧ t.hub = { h with links := t.hub.links } ∧
        t.hub.links[n].state = .locked ∧ t.hub.links[n].helloCount = 0 ∧ (∀ m : Slot, m ≠ n → t.hub.links[m] = h.links[m]) ∧
        (h.links[n].tx = none → t.hub.links[n].tx.map (fun x => (x.place, x.id)) = h.choose n)) ∧
    (r.state = .identifying → r.limit.isSome = true → r.attempt < 3 →
      ∃ t, exec (.identifyAttemptTimeout n) s = .next t ∧
        t.hub.slots = h.slots.set n { r with attempt := r.attempt + 1, limit := some (h.clock.elapsed + 100 * nsPerMs) } ∧
        t.hub.tables = h.tables ∧ placed t.hub (r.attempt + 1)))

/-- A valid IDENTITY_REPLY, taken while its slot is IDENTIFYING, is recorded. A card that declares a higher class than the slot's coded one is
FAULTED for POWER_MISMATCH; a card of another kind than the plan's waits for the host, with CARD_MISMATCH raised; any other goes by the plan:
with auto admission and a LOCKED link into FORWARDING, else to AWAITING_ADMIT. -/
def Obligations.IdentityReply : Prop :=
  ∀ (s : State) (e : InboxFrame) (rest : List InboxFrame) (i : Identity),
    let h := s.hub
    let n := e.slot
    let r := { h.slots[n] with identity := some i }
    let plan := h.tables.plan[n]
    let tooHigh := i.declared.higher (r.powerClass.getD .d)
    let waits (auto : Bool) := { r.entering .awaitingAdmit h.stamp with autoAdmit := auto }
    h.agent.inbox = e :: rest → e.frame.kind = Kind.identityReply → e.frame.cls = .control →
      parseIdentity e.frame.payload = some i → h.slots[n].state = .identifying →
    ∃ t, exec .identityReply s = .next t ∧ t.eeprom = s.eeprom ∧ t.hub.agent.inbox = rest ∧ t.hub.tables = h.tables ∧
      (tooHigh = true → r.latchClosed = true →
        t.hub.slots[n] = r.inFaulted h.stamp .powerMismatch (h.dueIn 2000) ∧ t.hub.ShutOff n ∧ Hub.OthersStand h t.hub n) ∧
      (tooHigh = true → r.latchClosed = false → t.hub.slots[n] = { r.inOff h.stamp with fault := some .powerMismatch }) ∧
      (tooHigh = false → plan.kind.any (· != i.kind) = true → t.hub.slots[n] = waits false ∧ Hub.OthersKept h t.hub n ∧
        (h.AlarmRoom → t.hub.isActive (.slot n .cardMismatch) = true)) ∧
      (tooHigh = false → plan.kind.any (· != i.kind) = false →
        Hub.OthersKept h t.hub n ∧
          t.hub.slots[n] = if plan.autoAdmit && h.links[n].state == .locked then
            { (waits true).entering .forwarding h.stamp with fault := none } else waits plan.autoAdmit)

/-! ## Service, and the way out of it -/

/-- The entries to FORWARDING: SLOT_ADMIT of an identified card on a LOCKED link, SLOT_RESTORE of a FENCED one, and the lock of a link in
RECOVERING, or in AWAITING_ADMIT with auto admission. The fault reason is cleared, no limit runs, and every other slot stays; LINK_LOST is cleared
on the way back from RECOVERING. In any other state, or with the link not LOCKED, the two requests are refused with BAD_STATE. (That the body of
SLOT_ADMIT's replies is empty, R188 giving a body the fields that its rule names and R73 and R76 naming none, is the model's choice, log entry
31.) -/
def Obligations.EnterForwarding : Prop :=
  ∀ (s : State) (n : Slot) (r : Request) (rest : List Request),
    let h := s.hub
    let inService (t : State) : Prop :=
      t.hub.slots[n] = { h.slots[n].entering .forwarding h.stamp with fault := none } ∧ Hub.OthersKept h t.hub n ∧
        t.hub.links[n].state = .locked
    let ready (state : SlotState) : Prop := h.slots[n].state = state ∧ h.links[n].state = .locked
    (h.TakesFor Code.slotAdmit r rest n → ready .awaitingAdmit →
      ∃ t, exec .slotAdmit s = .next t ∧ inService t ∧ t.hub.port.Replied r rest .ok .empty) ∧
    (h.TakesFor Code.slotAdmit r rest n → ¬ ready .awaitingAdmit →
      exec .slotAdmit s = .next { s with hub := { h with port := h.port.answered r rest .badState .empty } }) ∧
    (h.TakesFor Code.slotRestore r rest n → ready .fenced →
      ∃ t, exec .slotRestore s = .next t ∧ inService t ∧ t.hub.port.Replied r rest .ok (.slotLink .forwarding .locked)) ∧
    (h.TakesFor Code.slotRestore r rest n → ¬ ready .fenced →
      exec .slotRestore s = .next { s with hub := { h with
        port := h.port.answered r rest .badState (.slotLink h.slots[n].state h.links[n].state) } }) ∧
    (h.links[n].state = .training → h.links[n].helloCount = 1 →
      (h.slots[n].state = .recovering ∨ h.slots[n].state = .awaitingAdmit ∧ h.slots[n].autoAdmit = true) →
      ∃ t, exec (.helloValid n) s = .next t ∧ inService t ∧
        (h.slots[n].state = .recovering → h.alarms.Legal → t.hub.isActive (.slot n .linkLost) = false))

/-- A LOCKED link that loses alignment, or on which a hello shows that the far end has lost lock, goes to TRAINING and sends nothing: a
FORWARDING slot enters RECOVERING for the recovery window in force, with LINK_LOST raised, a FENCED one FAULTED for LINK_LOST, with
SLOT_FAULT raised, and any other state stays. The slot's probe window is reset with it. -/
def Obligations.LinkLost : Prop :=
  ∀ (s : State) (n : Slot) (c : Instr), c = .linkAlignmentLost n ∨ c = .helloValid n ∨ c = .helloInvalid n →
    let h := s.hub
    let r := h.slots[n]
    h.links[n].state = .locked →
    ∃ t, exec c s = .next t ∧ t.eeprom = s.eeprom ∧ t.hub.links[n].tx = none ∧ t.hub.links[n].rx = none ∧
      t.hub.trecs[n].window = [] ∧ t.hub.trecs[n].applied = none ∧ t.hub.trecs[n].probe = none ∧
      (r.state ≠ .fenced → t.hub.links[n].state = .training ∧ t.hub.links[n].helloCount = 0 ∧ Hub.OthersKept h t.hub n) ∧
      (r.state = .forwarding →
        t.hub.slots[n] = { r.entering .recovering h.stamp with limit := some (h.dueIn h.tables.recoveryWindow) } ∧
        (h.AlarmRoom → t.hub.isActive (.slot n .linkLost) = true)) ∧
      (r.state = .fenced → r.latchClosed = true →
        t.hub.slots[n] = r.inFaulted h.stamp .linkLost (h.dueIn 2000) ∧ t.hub.ShutOff n ∧ Hub.OthersStand h t.hub n ∧
        (h.AlarmRoom → t.hub.isActive (.slot n .slotFault) = true)) ∧
      (r.state ≠ .forwarding → r.state ≠ .fenced → t.hub.slots = h.slots)

/-- SLOT_RELEASE of a slot in service, or its latch OPEN, enters DRAINING for the drain timeout in force, the quiesced flag clear, with a QUIESCE
stored and placed at the tail of the slot's CONTROL queue, or, with no free reserve block, AGENT_OVERLOAD raised; the other slots stay. In
DRAINING and OFF a release is answered OK and changes nothing, in EMPTY it is refused with BAD_STATE, and in the three the latch OPEN changes the
debounced value alone. QUIESCED sets the quiesced flag of a DRAINING slot; the drain completes when the flag is set, the three queues are empty
and nothing is in flight, and the slot is then OFF. -/
def Obligations.Draining : Prop :=
  (∀ (s : State) (n : Slot) (r : Request) (rest : List Request),
    let h := s.hub
    let drains (before : SlotRec) (t : State) : Prop :=
      t.hub.slots[n] = { before.entering .draining h.stamp with quiesced := false, limit := some (h.dueIn h.tables.drainTimeout) } ∧
        Hub.OthersKept h t.hub n ∧
        (h.store.freeReserve ≠ 0 → t.hub.ports[n].controlQ = h.ports[n].controlQ ++ [h.store.nextId] ∧
          { id := h.store.nextId, frame := agentFrame .control Kind.quiesce 0 0 n [], blocks := 1, refs := 1, fromAgent := true }
            ∈ t.hub.store.frames) ∧
        (h.store.freeReserve = 0 → t.hub.ports[n].controlQ = h.ports[n].controlQ ∧
          (h.AlarmRoom → t.hub.isActive (.hub .agentOverload) = true))
    let opened := { h.slots[n] with latchClosed := false, latchTimer := none }
    ((h.slots[n].state = .forwarding ∨ h.slots[n].state = .recovering ∨ h.slots[n].state = .fenced) →
      (h.TakesFor Code.slotRelease r rest n →
        ∃ t, exec .slotRelease s = .next t ∧ drains h.slots[n] t ∧ t.hub.port.Replied r rest .ok (.slotState .draining)) ∧
      (h.slots[n].latchEnds false = true → ∃ t, exec (.latchOpen n) s = .next t ∧ drains opened t)) ∧
    ((h.slots[n].state = .empty ∨ h.slots[n].state = .draining ∨ h.slots[n].state = .off) →
      (h.TakesFor Code.slotRelease r rest n →
        exec .slotRelease s = .next { s with hub := { h with
          port := h.port.answered r rest (if h.slots[n].state = .empty then .badState else .ok) (.slotState h.slots[n].state) } }) ∧
      (h.slots[n].latchEnds false = true →
        exec (.latchOpen n) s = .next { s with hub := { h with slots := h.slots.set n opened } }))) ∧
  (∀ (s : State) (e : InboxFrame) (rest : List InboxFrame),
    let h := s.hub
    let n := e.slot
    let r := { h.slots[n] with quiesced := true }
    h.agent.inbox = e :: rest → e.frame.kind = Kind.quiesced → e.frame.cls = .control → e.frame.payload = [] →
      h.slots[n].state = .draining →
    (h.ports[n].entries = [] ∧ h.links[n].tx = none → ∃ t, exec .quiesced s = .next t ∧ t.hub.agent.inbox = rest ∧
      t.hub.slots[n] = r.inOff h.stamp ∧ t.hub.ShutOff n ∧ Hub.OthersStand h t.hub n) ∧
    (¬ (h.ports[n].entries = [] ∧ h.links[n].tx = none) →
      exec .quiesced s = .next { s with hub := { h with agent := { h.agent with inbox := rest }, slots := h.slots.set n r } }))

/-- The entries to FENCED: SLOT_FENCE, and a fence request taken, of a slot in FORWARDING or RECOVERING. Its record enters FENCED, its port is
purged (the three queues and the identify position empty, nothing in flight, every entry counted as purged and a frame in flight as
aborted), its probe window, the target and the applied compensation are gone, LINK_LOST is cleared on the way out of RECOVERING, and every
other slot stays. A slot already FENCED is answered OK and stays; in any other state the request is refused
with BAD_STATE, and a fence request taken does nothing. -/
def Obligations.EnterFenced : Prop :=
  ∀ (s : State) (n : Slot) (r : Request) (rest : List Request),
    let h := s.hub
    let serving : Prop := h.slots[n].state = .forwarding ∨ h.slots[n].state = .recovering
    let fenced (t : State) : Prop :=
      t.hub.slots[n] = h.slots[n].entering .fenced h.stamp ∧ Hub.OthersKept h t.hub n ∧
        t.hub.trecs[n].window = [] ∧ t.hub.trecs[n].probe = none ∧ t.hub.trecs[n].applied = none ∧ t.hub.trecs[n].target = none ∧
        t.hub.ports[n].entries = [] ∧ t.hub.ports[n].identify = none ∧
        (h.EntriesLegal → t.hub.links[n].tx = none ∧
          let c := h.ports[n].counters
          t.hub.ports[n].counters = { c with
            purged := c.purged + BitVec.ofNat 32 (h.ports[n].entries.length + h.ports[n].identify.toList.length)
            aborted := if h.links[n].tx.isSome then c.aborted + 1 else c.aborted }) ∧
        (h.slots[n].state = .recovering → h.alarms.Legal → t.hub.isActive (.slot n .linkLost) = false)
    (h.TakesFor Code.slotFence r rest n → serving →
      ∃ t, exec .slotFence s = .next t ∧ fenced t ∧
        t.hub.port.Replied r rest .ok (.slotLink .fenced h.links[n].state)) ∧
    (h.TakesFor Code.slotFence r rest n → ¬ serving →
      exec .slotFence s = .next { s with hub := { h with
        port := h.port.answered r rest (if h.slots[n].state = .fenced then .ok else .badState)
          (.slotLink h.slots[n].state h.links[n].state) } }) ∧
    (n ∈ h.manager.fenceRequests → serving → ∃ t, exec (.fenceSlot n) s = .next t ∧ fenced t) ∧
    (n ∈ h.manager.fenceRequests → ¬ serving → exec (.fenceSlot n) s =
      .next { s with hub := { h with manager := { h.manager with fenceRequests := h.manager.fenceRequests.erase n } } })

/-- The entries to OFF: SLOT_RELEASE or the latch OPEN in bring-up or in FAULTED, and the drain timeout. PWR_EN off, CARD_RST asserted, SAFE lit,
the identity gone and the wait list left; the link DISABLED and the port empty; the other slots stand. The drain timeout raises
DRAIN_FORCED. -/
def Obligations.EnterOff : Prop :=
  ∀ (s : State) (n : Slot) (r : Request) (rest : List Request),
    let h := s.hub
    let off (before : SlotRec) (t : State) : Prop :=
      t.hub.slots[n] = before.inOff h.stamp ∧ t.hub.ShutOff n ∧ Hub.OthersStand h t.hub n
    let goesOff : Prop := h.slots[n].state.bringUp = true ∨ h.slots[n].state = .faulted
    (goesOff → h.TakesFor Code.slotRelease r rest n →
      ∃ t, exec .slotRelease s = .next t ∧ off h.slots[n] t ∧ t.hub.port.Replied r rest .ok (.slotState .off)) ∧
    (goesOff → h.slots[n].latchEnds false = true →
      ∃ t, exec (.latchOpen n) s = .next t ∧ off { h.slots[n] with latchClosed := false, latchTimer := none } t) ∧
    (h.slots[n].state = .draining → h.slots[n].limit.isSome = true → ∃ t, exec (.drainTimeout n) s = .next t ∧ off h.slots[n] t ∧
      (h.AlarmRoom → t.hub.isActive (.slot n .drainForced) = true))

/-- The entries to FAULTED: a loss of PWR_GOOD in a powered state, and the limits of POWERING, of LINKING, of the third IDENTIFYING attempt and of
the recovery window. The fault reason is recorded, PWR_EN off, CARD_RST asserted, the link DISABLED, the port empty and the retry timer
running for 2,000 ms, and SLOT_FAULT is raised; with the latch OPEN the slot goes on to OFF, keeps the reason, and SLOT_FAULT is
cleared. -/
def Obligations.EnterFaulted : Prop :=
  ∀ (s : State) (n : Slot),
    let h := s.hub
    let r := h.slots[n]
    let faults (c : Instr) (before : SlotRec) (fault : FaultReason) : Prop :=
      ∃ t, exec c s = .next t ∧ t.eeprom = s.eeprom ∧
        (before.latchClosed = true → t.hub.slots[n] = before.inFaulted h.stamp fault (h.dueIn 2000) ∧ t.hub.ShutOff n ∧
          Hub.OthersStand h t.hub n ∧ (h.AlarmRoom → t.hub.isActive (.slot n .slotFault) = true)) ∧
        (before.latchClosed = false → t.hub.slots[n] = { before.inOff h.stamp with fault := some fault } ∧ t.hub.ShutOff n ∧
          t.hub.isActive (.slot n .slotFault) = false)
    let runsOut (state : SlotState) : Prop := r.state = state ∧ r.limit.isSome = true
    (r.pwrGood = true → r.state.readsPowerLoss = true → faults (.pwrGoodLost n) { r with pwrGood := false } .powerFail) ∧
      (runsOut .powering → faults (.poweringTimeout n) r .powerFail) ∧
      (runsOut .linking → faults (.linkingTimeout n) r .linkTimeout) ∧
      (runsOut .identifying → 3 ≤ r.attempt → faults (.identifyAttemptTimeout n) r .noIdentity) ∧
      (runsOut .recovering → faults (.recoveryWindowExpiry n) r .linkLost)

/-- The entries to SEATED from FAULTED and OFF: a fault retry within the plan's limit, counted; SLOT_RESTART, the retry count taken to 0;
SLOT_POWER of an OFF slot with the latch CLOSED. A retry and SLOT_POWER join the wait list whatever the plan says. SLOT_POWER of a
SEATED slot with the latch CLOSED joins it too, and one that waits in it already keeps its place. The way out of FAULTED clears SLOT_FAULT.
A retry past the limit leaves the slot FAULTED with no timer. (That the retry timer's row acts whenever the timer runs is the model's choice,
log entry 15; so is the empty body of SLOT_RESTART's replies, R188 giving a body the fields that its rule names, log entry 31.) -/
def Obligations.SeatedAgain : Prop :=
  ∀ (s : State) (n : Slot) (r : Request) (rest : List Request),
    let h := s.hub
    let before := h.slots[n]
    (h.TakesFor Code.slotPower r rest n → before.state = .seated → before.latchClosed = true → n ∈ h.manager.waitList →
      exec .slotPower s = .next { s with hub := { h with
        port := h.port.answered r rest .ok (.slotPower .seated (h.manager.waitList.idxOf n + 1)) } }) ∧
    (n ∉ h.manager.waitList →
    (before.state = .faulted → before.limit.isSome = true → before.retries < h.tables.plan[n].retryLimit →
      ∃ t, exec (.retryTimerExpiry n) s = .next t ∧ Hub.Seated h t.hub n { before with retries := before.retries + 1 } true ∧
        (h.alarms.Legal → t.hub.isActive (.slot n .slotFault) = false)) ∧
    (before.state = .faulted → before.limit.isSome = true → h.tables.plan[n].retryLimit ≤ before.retries →
      exec (.retryTimerExpiry n) s = .next { s with hub := { h with slots := h.slots.set n { before with limit := none } } }) ∧
    (h.TakesFor Code.slotRestart r rest n → before.state = .faulted →
      ∃ t, exec .slotRestart s = .next t ∧ Hub.Seated h t.hub n { before with retries := 0 } false ∧
        t.hub.port.Replied r rest .ok .empty ∧ (h.alarms.Legal → t.hub.isActive (.slot n .slotFault) = false)) ∧
    (h.TakesFor Code.slotRestart r rest n → before.state ≠ .faulted →
      exec .slotRestart s = .next { s with hub := { h with port := h.port.answered r rest .badState .empty } }) ∧
    (h.TakesFor Code.slotPower r rest n → before.state = .off → before.latchClosed = true →
      ∃ t, exec .slotPower s = .next t ∧ Hub.Seated h t.hub n before true ∧
        t.hub.port.Replied r rest .ok (.slotPower t.hub.slots[n].state (t.hub.waitPlace n))) ∧
    (h.TakesFor Code.slotPower r rest n → before.state = .seated → before.latchClosed = true →
      ∃ t, exec .slotPower s = .next t ∧ Hub.Joined h t.hub n before ∧ Hub.OthersStand h t.hub n ∧
        t.hub.port.Replied r rest .ok (.slotPower t.hub.slots[n].state (t.hub.waitPlace n))) ∧
    (h.TakesFor Code.slotPower r rest n → (before.state ≠ .off ∧ before.state ≠ .seated ∨ before.latchClosed = false) →
      exec .slotPower s = .next { s with hub := { h with
        port := h.port.answered r rest .badState (.slotPower before.state 0) } }))

/-! ## Slot links -/

/-- HELLO_VALID counts on a TRAINING link, HELLO_INVALID and LINK_ALIGNMENT_LOST take the count to 0, and none does anything on a DISABLED link;
the end of a link reset's hold takes the link to TRAINING, or leaves it DISABLED where a disable came in the hold. SLOT_LINK_RESET, in the states
that take it, leaves the link DISABLED and sending nothing, to train again after 1 ms: a slot in FORWARDING on a LOCKED link enters RECOVERING,
with LINK_LOST raised, one in FENCED is FAULTED for LINK_LOST, which disables the link for good, one in bring-up keeps its state; on a link that
is not LOCKED no slot record changes and the port's queues are empty. In any other state it is refused with BAD_STATE. (That the 1 ms of R5 is
measured by the elapsed reading is the model's choice, log entry 48.) -/
def Obligations.SlotLinks : Prop :=
  (∀ (s : State) (n : Slot),
    let h := s.hub
    let l := h.links[n]
    let onlyTheLink (l' : Link) : Host.Outcome State Fault Refusal := .next { s with hub := { h with links := h.links.set n l' } }
    (l.state = .training → l.helloCount = 0 → exec (.helloValid n) s = onlyTheLink { l with helloCount := 1 }) ∧
    (l.state = .training → exec (.helloInvalid n) s = onlyTheLink { l with helloCount := 0 } ∧
      exec (.linkAlignmentLost n) s = onlyTheLink { l with helloCount := 0 }) ∧
    (l.state = .disabled → exec (.helloValid n) s = .next s ∧ exec (.helloInvalid n) s = .next s ∧
      exec (.linkAlignmentLost n) s = .next s) ∧
    (∀ hold, l.hold = some hold → exec (.linkResetHoldEnd n) s =
      onlyTheLink { l with hold := none, helloCount := 0, state := if hold.thenTrain then .training else .disabled })) ∧
  (∀ (s : State) (n : Slot) (r : Request) (rest : List Request),
    let h := s.hub
    let held (t : State) : Prop := t.hub.links[n].state = .disabled ∧ t.hub.links[n].tx = none ∧
      t.hub.links[n].hold = some { due := h.clock.elapsed + nsPerMs, thenTrain := true }
    h.TakesFor Code.slotLinkReset r rest n →
    (h.slots[n].state.takesLinkReset = true → h.links[n].state ≠ .locked → h.links[n].Legal →
      ∃ t, exec .slotLinkReset s = .next t ∧ held t ∧ t.hub.slots = h.slots ∧ t.hub.ports[n].entries = [] ∧
        t.hub.port.Replied r rest .ok (.slotLink h.slots[n].state .disabled)) ∧
    (h.slots[n].state = .forwarding → h.links[n].state = .locked →
      ∃ t, exec .slotLinkReset s = .next t ∧ held t ∧ Hub.OthersKept h t.hub n ∧ t.hub.trecs[n].window = [] ∧
        t.hub.slots[n] = { h.slots[n].entering .recovering h.stamp with limit := some (h.dueIn h.tables.recoveryWindow) } ∧
        (h.AlarmRoom → t.hub.isActive (.slot n .linkLost) = true) ∧ t.hub.port.Replied r rest .ok (.slotLink .recovering .disabled)) ∧
    (h.slots[n].state = .fenced → h.links[n].state = .locked → h.slots[n].latchClosed = true →
      ∃ t, exec .slotLinkReset s = .next t ∧ t.hub.slots[n] = h.slots[n].inFaulted h.stamp .linkLost (h.dueIn 2000) ∧
        t.hub.ShutOff n ∧ t.hub.links[n].hold = some { due := h.clock.elapsed + nsPerMs, thenTrain := false } ∧
        Hub.OthersStand h t.hub n ∧ (h.AlarmRoom → t.hub.isActive (.slot n .slotFault) = true) ∧
        t.hub.port.Replied r rest .ok (.slotLink .faulted .disabled)) ∧
    (h.slots[n].state = .linking ∨ h.slots[n].state = .identifying ∨ h.slots[n].state = .awaitingAdmit → h.links[n].state = .locked →
      ∃ t, exec .slotLinkReset s = .next t ∧ held t ∧ t.hub.slots = h.slots ∧ t.hub.trecs[n].window = []) ∧
    (h.slots[n].state.takesLinkReset = false → exec .slotLinkReset s = .next { s with hub := { h with
      port := h.port.answered r rest .badState (.slotLink h.slots[n].state h.links[n].state) } }))


/-! ## Frames through the hub -/

/-- The integrity check passes a frame exactly where the bytes are its header, a payload of at most 1,024 bytes and its CRC-32, as they are
sent. -/
def Obligations.FrameIsReadBack : Prop :=
  ∀ (bytes : List Byte) (f : Frame), Frame.check bytes = some f ↔ f.payload.length ≤ 1024 ∧ bytes = f.wire

/-- FRAME_RECEIVED. On a link that is not LOCKED the bytes belong to no frame. On a LOCKED one they are kept until the frame is whole, each piece
behind those before it, with the arrival time of the first; a whole frame
that passes the integrity check gets its arrival slot as source, and is handed on with the arrival time of its first byte where its class
is TIMING, or is dropped as a class violation where it is TIMING and not for the hub agent; one that fails the check counts as
errored, at its port and, until the threshold is reached in the second, in the monitor; the one that reaches it raises LINK_ERRORS. (That a
frame may come in pieces is the model's choice, log entry 20.) -/
def Obligations.FrameReceived : Prop :=
  ∀ (s : State) (n : Slot) (dt : Nat) (bytes : List Byte),
    let h := s.hub
    let l := h.links[n]
    let p := h.ports[n]
    let clock := h.clock.run h.timing.correction dt
    let arrival : Arrival := { time := clock.now, elapsed := clock.elapsed }
    let got := l.received arrival bytes
    let done (p' : Port) : Host.Outcome State Fault Refusal :=
      .next { s with hub := { h with clock, links := h.links.set n { l with rx := none }, ports := h.ports.set n p' } }
    (∀ whole, l.state ≠ .locked → exec (.frameReceived n dt bytes whole) s = .next { s with hub := { h with clock } }) ∧
    (l.rx = none → got = { bytes, arrival }) ∧
    (∀ begun, l.rx = some begun → got = { bytes := begun.bytes ++ bytes, arrival := begun.arrival }) ∧
    (l.state = .locked → exec (.frameReceived n dt bytes false) s =
      .next { s with hub := { h with clock, links := h.links.set n { l with rx := some got } } }) ∧
    (l.state = .locked → ∀ f, Frame.check got.bytes = some f → f.cls = .timing → inAgentRange f.dest = false →
      exec (.frameReceived n dt bytes true) s =
        done { p with counters := { p.counters with classViolations := p.counters.classViolations + 1 } }) ∧
    (l.state = .locked → ∀ f, Frame.check got.bytes = some f → ¬ (f.cls = .timing ∧ inAgentRange f.dest = false) →
      exec (.frameReceived n dt bytes true) s = done { p with
        handedOn := p.handedOn ++ [{ frame := { f with source := BitVec.ofNat 8 (Slot.number n) }
                                     arrival := if f.cls = .timing then some got.arrival else none }]
        counters := { p.counters with framesReceived := p.counters.framesReceived + 1 } }) ∧
    (l.state = .locked → Frame.check got.bytes = none → ∃ t, exec (.frameReceived n dt bytes true) s = .next t ∧
      t.hub.links[n].rx = none ∧ t.hub.ports[n].handedOn = p.handedOn ∧ t.hub.slots = h.slots ∧ t.hub.clock = clock ∧
      t.hub.ports[n].counters = { p.counters with errored := p.counters.errored + 1 } ∧
      (l.monitor.reached = false → t.hub.links[n].monitor = { l.monitor with
        errored := l.monitor.errored + 1, reached := decide (h.tables.ports[n].threshold ≤ l.monitor.errored + 1) }) ∧
      (l.monitor.reached = false → h.tables.ports[n].threshold ≤ l.monitor.errored + 1 → h.AlarmRoom →
        t.hub.isActive (.slot n .linkErrors) = true) ∧
      (l.monitor.reached = true → t.hub.links[n].monitor = l.monitor))

/-- The window lookup: a window matches a frame where it is enabled, the destination lies in its block of 2^exponent bytes, its class filter has
the frame's class, CONTROL or BULK, and its source filter the source; the matching window of lowest index claims a frame, which a remap base moves
by its offset in the window and keeps inside one block; with no match the default target decides, and without one the frame is unroutable. -/
def Obligations.WindowLookup : Prop :=
  ∀ (t : Tables) (f : Frame) (n : Slot),
    (∀ w : Window, w.claims f n = true ↔ w.enabled = true ∧ w.base.toNat ≤ f.dest.toNat ∧ f.dest.toNat < w.base.toNat + 2 ^ w.sizeExp ∧
      (f.cls = .control ∧ w.classes.control = true ∨ f.cls = .bulk ∧ w.classes.bulk = true) ∧ Mask.has w.sources n = true) ∧
    (∀ i : Fin 32, t.windows[i].claims f n = true → (∀ j : Fin 32, j < i → t.windows[j].claims f n = false) →
      t.windows[i].Legal →
      ∃ g : Frame, t.route f n = some (t.windows[i].target, g) ∧ g = { f with dest := g.dest } ∧
        match t.windows[i].remap with
        | none => g.dest = f.dest
        | some base => g.dest.toNat = base.toNat + (f.dest.toNat - t.windows[i].base.toNat) ∧
            g.dest.toNat < base.toNat + t.windows[i].size) ∧
    ((∀ i : Fin 32, t.windows[i].claims f n = false) →
      t.route f n = match t.defaultTarget with | none => none | some target => some (target, f))

/-- FRAME_CLASSIFICATION of the first frame that a slot's link has handed on: the ingress state filter (a FORWARDING slot sends anything, a
DRAINING one too until it has quiesced, a FENCED one only CARD_ALARM to the agent, any other only to the agent), the agent range from FFFFF000h,
the window lookup, and the arbiter's pending list of the frame's class with the slot of the target, or the members of its group but for the
source, in that order; each drop is counted at the source port, but for an overflow of the inbox, which the agent counts. An overflow raises
AGENT_OVERLOAD, an unroutable frame UNROUTABLE at its source, and a full pending list STORE_EXHAUSTED. With no frame handed on the command changes
nothing, which is the model's choice (log entry 15). -/
def Obligations.FrameClassification : Prop :=
  ∀ (s : State) (n : Slot) (e : HandedOn) (rest : List HandedOn),
    let h := s.hub
    let p := { h.ports[n] with handedOn := rest }
    let onPort (p' : Port) : Host.Outcome State Fault Refusal := .next { s with hub := { h with ports := h.ports.set n p' } }
    let agentBound := inAgentRange e.frame.dest
    let passes := h.slots[n].admits agentBound e.frame.kind
    (agentBound = true ↔ 0xFFFFF000 ≤ e.frame.dest.toNat) ∧
    (passes = true ↔ match h.slots[n].state with
      | .forwarding => True
      | .draining => agentBound = true ∨ h.slots[n].quiesced = false
      | .fenced => agentBound = true ∧ e.frame.kind = Kind.cardAlarm
      | _ => agentBound = true) ∧
    (∀ m k : Slot, Mask.has (h.tables.targetSet (.slot m) n) k = true ↔ k = m) ∧
    (∀ (g : Fin 16) (k : Slot), Mask.has (h.tables.targetSet (.group g) n) k = true ↔ Mask.has h.tables.groups[g] k = true ∧ k ≠ n) ∧
    (h.ports[n].handedOn = [] → exec (.frameClassification n) s = .next s) ∧
    (h.ports[n].handedOn = e :: rest →
      (passes = false → exec (.frameClassification n) s =
        onPort { p with counters := { p.counters with sourceNotInService := p.counters.sourceNotInService + 1 } }) ∧
      (passes = true → agentBound = true → h.agent.inbox.length < 16 → exec (.frameClassification n) s =
        .next { s with hub := { h with
          ports := h.ports.set n p
          agent := { h.agent with inbox := h.agent.inbox ++ [{ frame := e.frame, slot := n, arrival := e.arrival }] } } }) ∧
      (passes = true → agentBound = true → 16 ≤ h.agent.inbox.length → ∃ t, exec (.frameClassification n) s = .next t ∧
        t.hub.agent.inbox = h.agent.inbox ∧ t.hub.agent.inboxOverflows = h.agent.inboxOverflows + 1 ∧
        t.hub.ports[n].handedOn = rest ∧ t.hub.slots = h.slots ∧ (h.AlarmRoom → t.hub.isActive (.hub .agentOverload) = true)) ∧
      (passes = true → agentBound = false → h.tables.route e.frame n = none → ∃ t, exec (.frameClassification n) s = .next t ∧
        t.hub.ports[n].handedOn = rest ∧ t.hub.slots = h.slots ∧
        t.hub.ports[n].counters = { p.counters with unroutable := p.counters.unroutable + 1 } ∧
        (h.AlarmRoom → t.hub.isActive (.slot n .unroutable) = true)) ∧
      (∀ target f, passes = true → agentBound = false → h.tables.route e.frame n = some (target, f) →
        let waiting : PendingFrame := { frame := f, target, targets := h.tables.targetSet target n }
        (f.cls = .bulk → p.pendBulk.length < 4 →
          exec (.frameClassification n) s = onPort { p with pendBulk := p.pendBulk ++ [waiting] }) ∧
        (f.cls ≠ .bulk → p.pendControl.length < 4 →
          exec (.frameClassification n) s = onPort { p with pendControl := p.pendControl ++ [waiting] }) ∧
        (4 ≤ (if f.cls = .bulk then p.pendBulk else p.pendControl).length → ∃ t, exec (.frameClassification n) s = .next t ∧
          t.hub.ports[n].handedOn = rest ∧ t.hub.slots = h.slots ∧
          t.hub.ports[n].counters = { p.counters with storeFull := p.counters.storeFull + 1 } ∧
          (h.AlarmRoom → t.hub.isActive (.hub .storeExhausted) = true))))

/-- ARBITER_SERVICE serves a CONTROL frame before any BULK frame, its source the first that holds one after the rotation point. A frame for one
slot that is reachable and has room, where the shared pool takes it, is stored once and joins that port's queue of its class; one for a slot that
is not reachable is counted there as unreachable; one for which the port has no room is counted as a port-limit drop there, raises EGRESS_DROPS
and is not stored; a BULK frame that would leave fewer than 64 shared blocks free, or a CONTROL frame of more blocks than are free, is dropped as
store full at its source, with STORE_EXHAUSTED raised. Of a group the members without room are each counted and raise EGRESS_DROPS, and the others
take one copy, stored once with as many references, behind the ALARM_RELAY frames that such a raise may send the relay slot; where the shared pool
does not take the frame it is dropped once as store full at its source and joins no member's queue; with no reachable member it is counted at its
source. With nothing pending the arbiter does nothing. -/
def Obligations.ArbiterService : Prop :=
  ∀ (s : State) (n m : Slot) (f : Frame) (rest : List PendingFrame),
    let h := s.hub
    let first (last : Slot) (holds : Slot → Bool) : Prop := (rotation last).find? holds = some n
    let controlOf (p : PendingFrame) : Prop :=
      first h.store.lastControl (fun k => !h.ports[k].pendControl.isEmpty) ∧ h.ports[n].pendControl = p :: rest
    let bulkOf (p : PendingFrame) : Prop :=
      (∀ k : Slot, h.ports[k].pendControl = []) ∧ first h.store.lastBulk (fun k => !h.ports[k].pendBulk.isEmpty) ∧
        h.ports[n].pendBulk = p :: rest
    let single : PendingFrame := { frame := f, target := .slot m, targets := Mask.single m }
    let control : Prop := controlOf single
    let bulk : Prop := bulkOf single
    let fits (k : Slot) : Prop := h.occupancy k + f.blocks ≤ h.tables.ports[k].limit
    let room : Prop := h.slots[m].state.reachable = true ∧ fits m
    let counted (t : State) (k : Slot) (counters : PortCounters) : Prop :=
      ∀ j : Slot, t.hub.ports[j].counters = if j = k then counters else h.ports[j].counters
    let notStored (t : State) : Prop := t.hub.store.sharedUsed = h.store.sharedUsed ∧
      (∀ k : Slot, t.hub.ports[k].bulkQ = h.ports[k].bulkQ) ∧ ∀ g ∈ t.hub.store.frames, g ∈ h.store.frames ∨ g.fromAgent = true
    let storeFull (t : State) : Prop := notStored t ∧ t.hub.slots = h.slots ∧
      counted t n { h.ports[n].counters with storeFull := h.ports[n].counters.storeFull + 1 } ∧
      (h.AlarmRoom → t.hub.isActive (.hub .storeExhausted) = true)
    let taken (st : Store) : Prop := st.frames = h.store.frames ++ [{ id := h.store.nextId, frame := f, blocks := f.blocks, refs := 1, fromAgent := false }] ∧
      st.sharedUsed = h.store.sharedUsed + f.blocks ∧ st.reserveUsed = h.store.reserveUsed
    (control → room → f.cls = .control → f.blocks ≤ h.store.freeShared → ∃ t, exec .arbiterService s = .next t ∧
      taken t.hub.store ∧ t.hub.store.lastControl = n ∧ t.hub.ports[n].pendControl = rest ∧
      t.hub.ports[m].controlQ = h.ports[m].controlQ ++ [h.store.nextId] ∧ t.hub.slots = h.slots ∧ t.hub.tables = h.tables) ∧
    (bulk → room → f.cls = .bulk → 64 + f.blocks ≤ h.store.freeShared → ∃ t, exec .arbiterService s = .next t ∧
      taken t.hub.store ∧ t.hub.store.lastBulk = n ∧ t.hub.ports[n].pendBulk = rest ∧
      t.hub.ports[m].bulkQ = h.ports[m].bulkQ ++ [h.store.nextId] ∧ t.hub.slots = h.slots ∧ t.hub.tables = h.tables) ∧
    (bulk → room → f.cls = .bulk → h.store.freeShared < 64 + f.blocks → ∃ t, exec .arbiterService s = .next t ∧
      t.hub.ports[n].pendBulk = rest ∧ storeFull t) ∧
    (control → room → f.cls = .control → h.store.freeShared < f.blocks → ∃ t, exec .arbiterService s = .next t ∧
      t.hub.ports[n].pendControl = rest ∧ storeFull t) ∧
    (control ∨ bulk → h.slots[m].state.reachable = true → ¬ fits m → ∃ t, exec .arbiterService s = .next t ∧
      notStored t ∧ t.hub.slots = h.slots ∧
      counted t m { h.ports[m].counters with portLimitDrops := h.ports[m].counters.portLimitDrops + 1 } ∧
      (h.AlarmRoom → t.hub.isActive (.slot m .egressDrops) = true)) ∧
    (control → h.slots[m].state.reachable = false → ∃ t, exec .arbiterService s = .next t ∧
      t.hub.store = { h.store with lastControl := n } ∧ t.hub.ports[n].pendControl = rest ∧ t.hub.slots = h.slots ∧
      counted t m { h.ports[m].counters with unreachable := h.ports[m].counters.unreachable + 1 }) ∧
    (bulk → h.slots[m].state.reachable = false → ∃ t, exec .arbiterService s = .next t ∧
      t.hub.store = { h.store with lastBulk := n } ∧ t.hub.ports[n].pendBulk = rest ∧ t.hub.slots = h.slots ∧
      counted t m { h.ports[m].counters with unreachable := h.ports[m].counters.unreachable + 1 }) ∧
    (∀ (g : Fin 16) (mask : SlotMask),
      let p : PendingFrame := { frame := f, target := .group g, targets := mask }
      let reached (k : Slot) : Prop := Mask.has mask k = true ∧ h.slots[k].state.reachable = true
      let drops (t : State) : Prop := ∀ k : Slot,
        (reached k ∧ ¬ fits k → t.hub.ports[k].counters.portLimitDrops = h.ports[k].counters.portLimitDrops + 1 ∧
          (h.alarms.Legal → h.alarms.recs.length < 48 → t.hub.isActive (.slot k .egressDrops) = true)) ∧
        (¬ (reached k ∧ ¬ fits k) → t.hub.ports[k].counters.portLimitDrops = h.ports[k].counters.portLimitDrops)
      ((controlOf p ∨ bulkOf p) → (∀ k : Slot, ¬ reached k) → ∃ t, exec .arbiterService s = .next t ∧ notStored t ∧
        t.hub.slots = h.slots ∧ t.hub.alarms = h.alarms ∧
        counted t n { h.ports[n].counters with noReachableTarget := h.ports[n].counters.noReachableTarget + 1 }) ∧
      ((controlOf p ∨ bulkOf p) → (∃ k : Slot, reached k) → (∀ k : Slot, ¬ (reached k ∧ fits k)) →
        ∃ t, exec .arbiterService s = .next t ∧ notStored t ∧ drops t ∧ t.hub.slots = h.slots ∧
          t.hub.ports[n].counters.storeFull = h.ports[n].counters.storeFull) ∧
      (controlOf p ∧ f.cls = .control ∧ h.store.freeShared < f.blocks ∨ bulkOf p ∧ f.cls = .bulk ∧ h.store.freeShared < 64 + f.blocks →
        (∃ k : Slot, reached k ∧ fits k) → ∃ t, exec .arbiterService s = .next t ∧ notStored t ∧ drops t ∧ t.hub.slots = h.slots ∧
          (∀ k : Slot, t.hub.ports[k].counters.storeFull = if k = n then h.ports[k].counters.storeFull + 1 else h.ports[k].counters.storeFull) ∧
          (h.tables.relay = none → ∀ k : Slot, t.hub.ports[k].controlQ = h.ports[k].controlQ) ∧
          (h.alarms.Legal → h.alarms.recs.length < 48 → t.hub.isActive (.hub .storeExhausted) = true)) ∧
      (controlOf p ∧ f.cls = .control ∧ f.blocks ≤ h.store.freeShared ∨ bulkOf p ∧ f.cls = .bulk ∧ 64 + f.blocks ≤ h.store.freeShared →
        (∃ k : Slot, reached k ∧ fits k) → ∃ t, exec .arbiterService s = .next t ∧ drops t ∧
          t.hub.slots = h.slots ∧ t.hub.store.sharedUsed = h.store.sharedUsed + f.blocks ∧
          ∃ stored ∈ t.hub.store.frames, stored.frame = f ∧ stored.fromAgent = false ∧ stored.blocks = f.blocks ∧
            stored.refs = (allSlots.filter fun k => decide (reached k ∧ fits k)).length ∧
            ∀ k : Slot,
              let entry : List Nat := if reached k ∧ fits k then [stored.id] else []
              t.hub.ports[k].bulkQ = h.ports[k].bulkQ ++ (if f.cls = .bulk then entry else []) ∧
              ∃ relayed : List Nat,
                t.hub.ports[k].controlQ = h.ports[k].controlQ ++ relayed ++ (if f.cls = .control then entry else []) ∧
                (h.tables.relay ≠ some k → relayed = []) ∧
                ∀ id ∈ relayed, ∃ g ∈ t.hub.store.frames, g.id = id ∧ g.fromAgent = true ∧ g.frame.kind = Kind.alarmRelay)) ∧
    ((∀ k : Slot, h.ports[k].pendControl = [] ∧ h.ports[k].pendBulk = []) → exec .arbiterService s = .next s)

/-- TRANSMISSION_COMPLETE takes the entry from its place, counts the frame sent, lowers its reference count and changes the control run; the t1 of
an outstanding probe is the transmit timestamp of its frame; a DRAINING slot that is quiesced and left with no entry goes OFF, and otherwise the
scheduler judges again. With nothing in flight only time has passed. The scheduler chooses the TIMING head first; then the BULK head where the
control run is 8; then the CONTROL head; then the BULK head; a QUIESCE at the CONTROL head of a DRAINING slot is held while another queue holds an
entry; in IDENTIFYING it offers the identify position, and in any other state nothing. -/
def Obligations.TransmissionComplete : Prop :=
  (∀ (h : Hub) (n : Slot),
    let state := h.slots[n].state
    let p := h.ports[n]
    let held : Prop := state = .draining ∧ (∃ id later, p.controlQ = id :: later ∧ h.store.isQuiesce id = true) ∧
      (p.timingQ ≠ [] ∨ p.bulkQ ≠ [])
    let sends : Prop := state = .forwarding ∨ state = .draining
    (state = .identifying → h.choose n = p.identify.map fun id => (.identify, id)) ∧
    (¬ sends → state ≠ .identifying → h.choose n = none) ∧
    (sends → ∀ id later, p.timingQ = id :: later → h.choose n = some (.timing, id)) ∧
    (sends → p.timingQ = [] → ∀ id later, p.bulkQ = id :: later → (p.controlRun = 8 ∨ p.controlQ = [] ∨ held) →
      h.choose n = some (.bulk, id)) ∧
    (sends → p.timingQ = [] → ∀ id later, p.controlQ = id :: later → ¬ held → (p.controlRun ≠ 8 ∨ p.bulkQ = []) →
      h.choose n = some (.control, id)) ∧
    (sends → p.entries = [] → h.choose n = none)) ∧
  ∀ (s : State) (n : Slot) (dt : Nat),
    let h := s.hub
    let p := h.ports[n]
    let clock := h.clock.run h.timing.correction dt
    (h.links[n].tx = none → exec (.transmissionComplete n dt) s = .next { s with hub := { h with clock } }) ∧
    ∀ x : InFlight, h.links[n].tx = some x →
      let q := p.leave x.place
      let drained : Prop := h.slots[n].state = .draining ∧ h.slots[n].quiesced = true ∧ q.entries = []
      (¬ drained → ∃ t, exec (.transmissionComplete n dt) s = .next t ∧ t.hub.clock = clock ∧ t.hub.slots = h.slots ∧
        t.hub.store = h.store.deref x.id ∧
        t.hub.ports[n] = { q with
          controlRun := match x.place with
            | .timing => p.controlRun
            | .bulk => 0
            | _ => if q.bulkQ = [] then 0 else min 8 (p.controlRun + 1)
          counters := { p.counters with framesSent := p.counters.framesSent + 1 } } ∧
        (∀ m : Slot, m ≠ n → t.hub.ports[m] = h.ports[m] ∧ t.hub.links[m] = h.links[m]) ∧
        (∀ f probe, h.store.find x.id = some f → f.frame.cls = .timing → f.frame.kind = Kind.delayProbe →
          h.trecs[n].probe = some probe → f.frame.sequence = probe.sequence → probe.t1 = none →
          t.hub.trecs[n].probe = some { probe with t1 := x.sentAt }) ∧
        t.hub.links[n].tx = (if h.links[n].state = .locked then
          (t.hub.choose n).map fun c => { place := c.1, id := c.2
                                          sentAt := if (t.hub.store.find c.2).any (·.frame.cls == .timing) then some clock.now else none }
          else none)) ∧
      (drained → ∃ t, exec (.transmissionComplete n dt) s = .next t ∧
        t.hub.slots[n] = h.slots[n].inOff { sec := clock.now.sec, frame := clock.now.frame } ∧ t.hub.ShutOff n)

/-! ## Time, references and timing records -/

/-- The clock that runs `dt` ns at the correction k gains dt·(1 + k·10⁻⁹) ns, and each frame boundary and second boundary that it reaches is due, as
an event of its own, in order. FRAME_BOUNDARY takes the first that is due, or runs the clock on to the next one, and counts it: at the
announce interval the count starts again and the boundary is an announce boundary. ANNOUNCE_BOUNDARY takes the first announce boundary that
is due: it sends every eligible slot an ANNOUNCE, which states the frame number and the time of that boundary, and a DELAY_PROBE of the
next sequence number, counts a miss for a probe still outstanding, and clears the time-stepped flag; it touches no other slot. Where the
reserve runs short, the slots take its blocks in ascending number, the ANNOUNCE before the DELAY_PROBE; a probe that is not sent counts as
a miss, and AGENT_OVERLOAD is raised. At the third miss in a row the path is lost, and TIMING_PATH_LOST raised. (The order
in which boundaries wait is the model's, log entry 8; that either row runs the clock on to a boundary that is not due, or does nothing
where it is no announce boundary, log entry 14.) -/
def Obligations.ClockBoundaries : Prop :=
  (∀ (clock : Clock) (k : Int) (dt : Nat),
    let c := clock.run k dt
    clock.now.Legal → clock.carry < nsPerSec → -1000 ≤ k → k ≤ 1000 → clock.now.total + 2 * dt + 1 < 2 ^ 48 * nsPerSec →
      ((c.now.total * nsPerSec + c.carry : Nat) : Int) = (clock.now.total * nsPerSec + clock.carry : Nat) + dt * (nsPerSec + k) ∧
      c.now.Legal ∧ c.carry < nsPerSec ∧ c.elapsed + clock.now.total = clock.elapsed + c.now.total ∧
      c.announces = clock.announces ∧ c.timeStepped = clock.timeStepped ∧
      ∃ passed, c.due = clock.due ++ passed ∧
        (∀ b : Boundary, b ∈ passed ↔ b.time.Legal ∧ b.time.ns % nsPerFrame = 0 ∧ (b.sort = .second → b.time.ns = 0) ∧
          clock.now.total < b.time.total ∧ b.time.total ≤ c.now.total) ∧
        passed.Pairwise fun a b => a.time.total < b.time.total ∨ a.time = b.time ∧ a.sort = .frame ∧ b.sort = .second) ∧
  ∀ s : State,
    let h := s.hub
    let reaches : Prop := h.tables.timing.announceInterval ≤ h.timing.announceCount + 1
    let counted (c : Clock) (time : HubTime) : Hub :=
      if reaches then
        { h with clock := { c with announces := c.announces ++ [time] }, timing := { h.timing with announceCount := 0 } }
      else { h with clock := c, timing := { h.timing with announceCount := h.timing.announceCount + 1 } }
    (∀ (earlier later : List Boundary) (time : HubTime),
      h.clock.due = earlier ++ { sort := .frame, time } :: later → (∀ b ∈ earlier, b.sort = .second) →
      exec .frameBoundary s = .next { s with hub := counted { h.clock with due := earlier ++ later } time }) ∧
    ((∀ b ∈ h.clock.due, b.sort = .second) → h.clock.now.Legal → h.clock.now.sec + 1 < 2 ^ 48 →
      ∃ c : Clock, exec .frameBoundary s = .next { s with hub := counted c c.now } ∧ c.now.ns % nsPerFrame = 0 ∧
        h.clock.now.total < c.now.total ∧ c.now.total ≤ h.clock.now.total + nsPerFrame ∧
        c.elapsed + h.clock.now.total = h.clock.elapsed + c.now.total ∧
        c.announces = h.clock.announces ∧
        c.due = h.clock.due ++ if c.now.ns = 0 then [{ sort := .second, time := c.now }] else []) ∧
    (h.clock.announces = [] → ¬ reaches → exec .announceBoundary s = .next s) ∧
    (h.clock.announces = [] → reaches → ∀ t, exec .frameBoundary s = .next t → exec .announceBoundary s = exec .announceBoundary t) ∧
    (∀ (time : HubTime) (later : List HubTime), h.clock.announces = time :: later → 24 ≤ h.store.freeReserve →
        (∀ n : Slot, h.trecs[n].misses < 2) →
      ∃ t, exec .announceBoundary s = .next t ∧ t.hub.clock = { h.clock with timeStepped := false, announces := later } ∧
        t.hub.slots = h.slots ∧ t.hub.tables = h.tables ∧ ∀ n : Slot,
        (h.eligible n = false → t.hub.trecs[n] = h.trecs[n] ∧ t.hub.ports[n] = h.ports[n]) ∧
        (h.eligible n = true →
          t.hub.trecs[n] = { h.trecs[n] with
            sequence := h.trecs[n].sequence + 1, probe := some { sequence := h.trecs[n].sequence + 1, t1 := none }
            misses := if h.trecs[n].probe.isSome then h.trecs[n].misses + 1 else h.trecs[n].misses } ∧
          ∃ a b : StoredFrame, t.hub.ports[n].timingQ = h.ports[n].timingQ ++ [a.id, b.id] ∧
            a ∈ t.hub.store.frames ∧ a.frame = h.announceFrame time n ∧ b ∈ t.hub.store.frames ∧
            b.frame = agentFrame .timing Kind.delayProbe 0 (h.trecs[n].sequence + 1) n [])) ∧
    (∀ (time : HubTime) (later : List HubTime), h.clock.announces = time :: later → ∃ t, exec .announceBoundary s = .next t ∧
      t.hub.clock = { h.clock with timeStepped := false, announces := later } ∧ t.hub.slots = h.slots ∧ t.hub.tables = h.tables ∧
      let eligible := allSlots.filter h.eligible
      let missed (n : Slot) : Nat := if h.trecs[n].probe.isSome then 1 else 0
      let room : Prop := h.alarms.Legal ∧ h.alarms.recs.length < 40
      (∀ n ∈ eligible, h.trecs[n].probe.isSome = true → 2 ≤ h.trecs[n].misses →
        t.hub.trecs[n].misses = 3 ∧ t.hub.trecs[n].pathLost = true ∧
        (room → h.trecs[n].pathLost = false → t.hub.isActive (.slot n .timingPathLost) = true)) ∧
      (h.store.freeReserve = 0 → t.hub.ports = h.ports ∧ t.hub.store = h.store ∧
        (room → eligible ≠ [] → t.hub.isActive (.hub .agentOverload) = true) ∧
        ∀ n ∈ eligible, ∃ granted, t.hub.trecs[n] = { h.trecs[n] with
          granted, sequence := h.trecs[n].sequence + 1, probe := none
          misses := min 3 (h.trecs[n].misses + missed n + 1)
          pathLost := h.trecs[n].pathLost || decide (2 ≤ h.trecs[n].misses + missed n) }) ∧
      ((∀ n ∈ eligible, h.trecs[n].misses + missed n < 2) →
        let k := h.store.freeReserve
        (room → k < 2 * eligible.length → t.hub.isActive (.hub .agentOverload) = true) ∧
        ∀ n ∈ eligible,
        let i := 2 * eligible.idxOf n
        t.hub.ports[n].timingQ = h.ports[n].timingQ
          ++ (if i < k then [h.store.nextId + i] else []) ++ (if i + 1 < k then [h.store.nextId + i + 1] else []) ∧
        ∃ granted, t.hub.trecs[n] = { h.trecs[n] with
          granted, sequence := h.trecs[n].sequence + 1
          probe := if i + 1 < k then some { sequence := h.trecs[n].sequence + 1, t1 := none } else none
          misses := h.trecs[n].misses + missed n + if i + 1 < k then 0 else 1 }))

/-- SECOND_JUDGMENT, when due. A hub LOCKED to EXT with a good recent pulse and a measurement within the unlock threshold stays LOCKED, its
correction the offset clamped to the slew limit; without a pulse it goes to HOLDOVER with no selection and no correction. A hub LOCKED to a slot
that is settled in FORWARDING with the TIME_SOURCE capability and a traceable recent report takes its offset from T_ref, the arrival and the
compensation, halved, and uses its measurement up; without a report it goes to HOLDOVER. The eighth offset in a row within the lock window takes
ACQUIRING to LOCKED, and the third in a row above the unlock threshold takes LOCKED to ACQUIRING (LOCKED). A candidate of higher priority that
qualifies takes the selection where the list is revertive, and a QUALIFIED candidate of lower priority takes it from one that is lost; LOCKED then
becomes ACQUIRING (LOCKED). Each change is told in one TIMING_CHANGED with its reason. A FREE_RUN hub whose EXT candidate fills the qualification
period selects it and is ACQUIRING. A first offset above 1,000 ns in ACQUIRING (FRESH) steps hub time. In HOLDOVER the clock's last second takes
the hub to HOLDOVER_LAPSED, as HOLDOVER_LIMIT_REACHED does. A pending time setting is applied. LINK_ERRORS_CLEAR takes the clear run to 0 and
clears the alarm. (That the last two rows act only where their cause holds is the model's choice, log entry 15; so are the age of a pulse by the
elapsed reading, log entry 29, and the wrap of a step modulo 2^48 s, log entry 37.) -/
def Obligations.SecondJudgment : Prop :=
  ∀ s : State,
    let h := s.hub
    let p := h.tables.timing
    let only (status : CandStatus) (count : Nat) : Prop := ∃ o, h.timing.cands = [{ source := .ext, status, count, lastOffset := o }]
    let due : Prop := h.clock.due.any (·.sort == .second) = true ∧ h.timing.pendingTime = none
    let pulsed : Prop := h.timing.pulse.any (fun x => x.good && h.clock.elapsed ≤ x.elapsed + 1100 * nsPerMs) = true
    let judged (P : State → Prop) : Prop := ∃ t, exec .secondJudgment s = .next t ∧ t.hub.slots = h.slots ∧ t.hub.tables = h.tables ∧ P t
    let tells (t : State) (old new : Option (Nat × Source)) (inSpec : Bool) (reason : TimingReason) : Prop :=
      h.port.notices < 24 → (∀ n : Slot, h.isActive (.slot n .linkErrors) = false) →
      ∃ later, t.hub.port.outbound = h.port.outbound ++ {
        isReply := false, code := Code.timingChanged, tag := 0, status := .ok, overrun := false, noticesLost := h.port.noticesLost
        body := .timingChanged h.timing.state t.hub.timing.state old new inSpec t.hub.timing.holdover h.clock.now reason } :: later
    let valid (n : Slot) : Prop := h.slots[n].state = .forwarding ∧ h.hasCap n (·.timeSource) = true ∧ h.trecs[n].settled = true ∧
      ∃ r : Report, h.trecs[n].report = some r ∧ r.traceable = true ∧ r.pending = false ∧
        h.clock.elapsed ≤ r.arrival.elapsed + 1100 * nsPerMs
    let two (ext slot : CandStatus × Nat) (n : Slot) : Prop := ∃ o1 o2 : Option Int, h.timing.cands =
      [{ source := .ext, status := ext.1, count := ext.2, lastOffset := o1 }, { source := .slot n, status := slot.1, count := slot.2, lastOffset := o2 }]
    (due → h.timing.state = .locked → h.timing.selection = some .ext → only .qualified p.q → pulsed →
      ∀ m, h.timing.extPending = some m → (extOffset m).natAbs ≤ p.unlockThreshold → judged fun t =>
        t.hub.timing.state = .locked ∧ t.hub.timing.selection = some .ext ∧ t.hub.timing.correction = clampInt p.slewLimit (extOffset m) ∧
          t.hub.timing.unlockCount = 0 ∧ t.hub.timing.extPending = none ∧ t.hub.clock.now = h.clock.now) ∧
    (due → h.timing.state = .locked → h.timing.selection = some .ext → only .qualified p.q → h.timing.pulse = none → judged fun t =>
      t.hub.timing.state = .holdover ∧ t.hub.timing.selection = none ∧ t.hub.timing.correction = 0 ∧
        t.hub.timing.holdover = h.timing.holdover ∧ t.hub.timing.cands.map (·.status) = [.unavailable] ∧ t.hub.clock.now = h.clock.now ∧
        tells t (some (1, .ext)) none true .selection) ∧
    (∀ (origin : Origin) m, due → h.timing.state = .acquiring origin → h.timing.selection = some .ext → only .qualified p.q → pulsed →
      h.timing.lockCount = 7 → h.timing.extPending = some m → (extOffset m).natAbs ≤ p.lockWindow → p.lockWindow ≤ 1000 → judged fun t =>
        t.hub.timing.state = .locked ∧ t.hub.timing.selection = some .ext ∧ t.hub.timing.holdover = 0 ∧ t.hub.timing.unlockCount = 0 ∧
          t.hub.timing.correction = clampInt p.slewLimit (extOffset m) ∧ t.hub.clock.now = h.clock.now ∧
          ((origin = .locked → h.timing.holdover + 1 < p.holdoverLimit) →
            tells t (some (1, .ext)) (some (1, .ext)) true .lockAchieved)) ∧
    (∀ m, due → h.timing.state = .locked → h.timing.selection = some .ext → only .qualified p.q → pulsed →
      h.timing.extPending = some m → p.unlockThreshold < (extOffset m).natAbs →
      (h.timing.unlockCount < 2 → judged fun t => t.hub.timing.state = .locked ∧ t.hub.timing.unlockCount = h.timing.unlockCount + 1) ∧
      (h.timing.unlockCount = 2 → judged fun t =>
        t.hub.timing.state = .acquiring .locked ∧ t.hub.timing.selection = some .ext ∧ t.hub.timing.lockCount = 0 ∧
          t.hub.timing.firstOffset = true ∧ t.hub.timing.correction = clampInt p.slewLimit (extOffset m) ∧
          t.hub.clock.now = h.clock.now ∧ tells t (some (1, .ext)) (some (1, .ext)) true .lockLost)) ∧
    (∀ (n : Slot) (count : Nat), due → h.timing.state = .locked → h.timing.selection = some (.slot n) → h.timing.extPending = none →
      pulsed → valid n → two (.qualifying, count) (.qualified, p.q) n → count + 1 = p.q →
      (h.tables.revertive = true → judged fun t =>
        t.hub.timing.state = .acquiring .locked ∧ t.hub.timing.selection = some .ext ∧ t.hub.timing.lockCount = 0 ∧
          t.hub.timing.firstOffset = true ∧ tells t (some (2, .slot n)) (some (1, .ext)) true .selection) ∧
      (h.tables.revertive = false → judged fun t =>
        t.hub.timing.state = .locked ∧ t.hub.timing.selection = some (.slot n) ∧
          t.hub.timing.cands.map (·.status) = [.qualified, .qualified])) ∧
    (∀ (n : Slot) (count : Nat), due → h.timing.state = .locked → h.timing.selection = some .ext → h.timing.pulse = none → valid n →
      two (.qualified, count) (.qualified, p.q) n → judged fun t =>
        t.hub.timing.state = .acquiring .locked ∧ t.hub.timing.selection = some (.slot n) ∧ t.hub.timing.lockCount = 0 ∧
          t.hub.timing.firstOffset = true ∧ t.hub.timing.cands.map (·.status) = [.unavailable, .qualified] ∧
          tells t (some (1, .ext)) (some (2, .slot n)) true .selection) ∧
    (∀ (n : Slot) (count : Nat) (o : Option Int), due → h.timing.state = .locked → h.timing.selection = some (.slot n) →
      h.timing.cands = [{ source := .slot n, status := .qualified, count, lastOffset := o }] →
      (h.slots[n].state = .forwarding → h.hasCap n (·.timeSource) = true → h.trecs[n].settled = true →
        ∀ (r : Report) (comp : Nat), h.trecs[n].report = some r → r.traceable = true → r.pending = true → r.comp = some comp →
          h.clock.elapsed ≤ r.arrival.elapsed + 1100 * nsPerMs →
        let offset : Int := (2 * ((r.refSec * nsPerSec : Nat) - (r.arrival.time.total : Int)) + comp).tdiv 2
        offset.natAbs ≤ p.unlockThreshold → judged fun t =>
          t.hub.timing.state = .locked ∧ t.hub.timing.selection = some (.slot n) ∧ t.hub.timing.correction = clampInt p.slewLimit offset ∧
            t.hub.timing.unlockCount = 0 ∧ t.hub.trecs[n].report = some { r with pending := false } ∧
            t.hub.timing.cands = [{ source := .slot n, status := .qualified, count := p.q, lastOffset := some offset }] ∧
            t.hub.clock.now = h.clock.now) ∧
      (h.trecs[n].report = none → judged fun t =>
        t.hub.timing.state = .holdover ∧ t.hub.timing.selection = none ∧ t.hub.timing.correction = 0 ∧
          t.hub.timing.cands.map (·.status) = [.unavailable] ∧ t.hub.clock.now = h.clock.now)) ∧
    (due → h.timing.state = .freeRun → h.timing.selection = none → pulsed → h.timing.extPending = none →
      ∀ count, only .qualifying count → count + 1 = p.q → judged fun t =>
        t.hub.timing.state = .acquiring .fresh ∧ t.hub.timing.selection = some .ext ∧ t.hub.timing.firstOffset = true ∧
          t.hub.timing.cands.map (fun c => (c.status, c.count)) = [(.qualified, p.q)] ∧ tells t none (some (1, .ext)) false .selection) ∧
    (due → h.timing.state = .acquiring .fresh → h.timing.selection = some .ext → only .qualified p.q → pulsed →
      h.timing.firstOffset = true → ∀ m, h.timing.extPending = some m → 1000 < (extOffset m).natAbs → judged fun t =>
        t.hub.clock.now = HubTime.ofTotal (((h.clock.now.total : Int) + extOffset m) % (2 ^ 48 * nsPerSec : Nat)).toNat ∧
          t.hub.clock.timeStepped = true ∧ t.hub.timing.correction = 0 ∧ t.hub.timing.firstOffset = false ∧
          t.hub.timing.state = .acquiring .fresh) ∧
    (due → h.timing.state = .holdover → h.timing.cands = [] → h.timing.selection = none →
      p.holdoverLimit ≤ h.timing.holdover + 1 → judged fun t =>
        t.hub.timing.state = .holdoverLapsed ∧ t.hub.timing.holdover = p.holdoverLimit ∧ tells t none none false .holdoverExpired) ∧
    (h.clock.due.any (·.sort == .second) = true → h.timing.state = .freeRun → h.timing.cands = [] → h.timing.selection = none →
      ∀ sec, h.timing.pendingTime = some sec → sec < 2 ^ 48 → judged fun t =>
        t.hub.clock.now = { sec, ns := 0 } ∧ t.hub.clock.timeStepped = true ∧ t.hub.timing.pendingTime = none ∧
          t.hub.timing.state = .freeRun) ∧
    (h.timing.state = .holdover → p.holdoverLimit ≤ h.timing.holdover + 1 → ∃ t, exec .holdoverLimitReached s = .next t ∧
      t.hub.timing.state = .holdoverLapsed ∧ t.hub.timing.holdover = p.holdoverLimit ∧ t.hub.slots = h.slots ∧ t.hub.clock = h.clock) ∧
    ∀ n : Slot, h.links[n].monitor.reached = false → 9 ≤ h.links[n].monitor.clearRun → h.isActive (.slot n .linkErrors) = true →
      ∃ t, exec (.linkErrorsClear n) s = .next t ∧ t.hub.links[n].monitor = {} ∧ t.hub.isActive (.slot n .linkErrors) = false ∧
        t.hub.slots = h.slots

/-- EXTREF_PULSE is good when one came before it within 1 s ± 1,000 ns, and then gives a measurement; EXT_PULSE_LOST forgets both. An accepted
PROBE_REPLY gives a sample: rejected where the turnaround or the round trip is out of range, and otherwise entered in the window, with the
least value and the asymmetry giving the target and the applied compensation slewed towards it. SOURCE_REPORT replaces the slot's report.
PHASE_REPORT stores the phase error and counts it in or out of the limit; the third out in a row sets the phase condition, with PHASE_OUT_OF_LIMIT
raised, the third in clears both, and any other leaves them. A sample used ends a lost path, with TIMING_PATH_LOST cleared. Each judges the
permit anew: GRANTED where every input holds, with a PERMIT_CHANGED of reason SETTLED for the sample that settles the slot; WITHHELD by the third
report out, with a PERMIT_CHANGED and a PERMIT_UPDATE of reason PHASE, or AGENT_OVERLOAD where no reserve block is free. (The time that
EXTREF_PULSE carries is the model's choice, log entries 2 and 79, and so is that EXT_PULSE_LOST acts whatever the time, log entry 15.) -/
def Obligations.TimingReports : Prop :=
  (∀ (s : State) (dt : Nat),
    let h := s.hub
    let clock := h.clock.run h.timing.correction dt
    let good := h.timing.pulse.any fun x => decide (x.elapsed + 999999000 ≤ clock.elapsed ∧ clock.elapsed ≤ x.elapsed + 1000001000)
    exec (.extrefPulse dt) s = .next { s with hub := { h with
      clock
      timing := { h.timing with
        pulse := some { arrival := clock.now, elapsed := clock.elapsed, good }
        extPending := if good then some ((clock.now.total : Int) - h.tables.timing.cableDelay) else h.timing.extPending } } } ∧
    exec .extPulseLost s = .next { s with hub := { h with timing := { h.timing with pulse := none, extPending := none } } }) ∧
  ∀ (s : State) (e : InboxFrame) (rest : List InboxFrame),
    let h := s.hub
    let n := e.slot
    let r := h.trecs[n]
    let onRecord (r' : TimingRec) : Host.Outcome State Fault Refusal :=
      .next { s with hub := { h with agent := { h.agent with inbox := rest }, trecs := h.trecs.set n r' } }
    h.agent.inbox = e :: rest →
    (e.frame.kind = Kind.probeReply → e.frame.cls = .timing → e.frame.payload.length = 4 →
      let turnaround := fieldAt e.frame.payload 0 4
      (∀ probe t1 t4, r.probe = some probe → probe.t1 = some t1 → e.arrival = some t4 → e.frame.sequence = probe.sequence →
        let rtt := (((t4.time.total : Int) - t1.total) % 4294967296) - turnaround
        (1000000 < turnaround ∨ rtt < 0 ∨ 65535 < rtt →
          exec .probeReply s = onRecord { r with probe := none, rejected := r.rejected + 1 }) ∧
        (turnaround ≤ 1000000 → 0 ≤ rtt → rtt ≤ 65535 → ∃ t, exec .probeReply s = .next t ∧ t.hub.agent.inbox = rest ∧
          t.hub.slots = h.slots ∧ t.hub.tables = h.tables ∧
          (h.alarms.Legal → (t.hub.trecs[n].granted = true ↔ t.hub.MayRadiate n)) ∧
          (r.granted = false → r.pathLost = false → h.alarms.Legal → t.hub.MayRadiate n →
            t.hub.port = h.port.notice Code.permitChanged (.permitChanged n false true h.stamp .settled)) ∧ ∃ granted,
          let window := (if r.window.length < 8 then r.window else r.window.drop 1) ++ [rtt.toNat]
          let target := (least window).map fun v => (min 65535 (max 0 ((v : Int) + h.tables.asymmetry[n]))).toNat
          (r.pathLost = true → h.alarms.Legal → t.hub.isActive (.slot n .timingPathLost) = false) ∧
          t.hub.trecs[n] = { r with
            window, target, granted, accepted := r.accepted + 1, misses := 0, pathLost := false, probe := none
            applied := target.map fun c => match r.applied with
              | none => c
              | some a => ((a : Int) + clampInt h.tables.timing.slewStep ((c : Int) - a)).toNat })) ∧
      (∀ probe, r.probe = some probe → (probe.t1 = none ∨ e.arrival = none ∨ e.frame.sequence ≠ probe.sequence) →
        exec .probeReply s = onRecord { r with stale := r.stale + 1 })) ∧
    (∀ refSec traceable, e.frame.kind = Kind.sourceReport → e.frame.cls = .timing →
      parseSourceReport e.frame.payload = some (refSec, traceable) → h.slots[n].state = .forwarding →
      exec .sourceReport s = onRecord { r with report := e.arrival.map fun arrival =>
        { refSec, traceable, arrival, comp := r.applied, pending := r.applied.isSome } }) ∧
    (e.frame.kind = Kind.phaseReport → e.frame.cls = .control → e.frame.payload.length = 4 → h.eligible n = true →
      let error := clampInt 1000000 (toSigned 4 (fieldAt e.frame.payload 0 4))
      let out := decide (h.tables.timing.phaseLimit < error.natAbs)
      let third := if out then 2 ≤ r.phaseOut else 2 ≤ r.phaseIn
      ∃ t, exec .phaseReport s = .next t ∧ t.hub.agent.inbox = rest ∧ t.hub.slots = h.slots ∧
        (¬ (third ∧ r.phaseCond ≠ out) → t.hub.trecs[n].granted = r.granted ∧ t.hub.port = h.port) ∧
        (third → r.phaseCond ≠ out → h.alarms.Legal → (t.hub.trecs[n].granted = true ↔ t.hub.MayRadiate n)) ∧
        (third → out = true → r.granted = true → h.MayRadiate n → h.AlarmRoom →
          t.hub.trecs[n].granted = false ∧
          (h.port.notices < 20 → ∃ m ∈ t.hub.port.outbound, m.isReply = false ∧ m.code = Code.permitChanged ∧
            m.body = .permitChanged n true false h.stamp .phase) ∧
          (2 ≤ h.store.freeReserve → ∃ f ∈ t.hub.store.frames, t.hub.ports[n].timingQ = h.ports[n].timingQ ++ [f.id] ∧
            f.frame = agentFrame .timing Kind.permitUpdate 0 0 n ([2, 5] ++ encStamp h.stamp)) ∧
          (h.store.freeReserve = 0 → t.hub.ports[n].timingQ = h.ports[n].timingQ ∧ t.hub.isActive (.hub .agentOverload) = true)) ∧
        ∃ granted,
        t.hub.trecs[n] = { r with
          granted, phaseCond := if third then out else r.phaseCond, lastPhase := some error
          phaseOut := if out then min 3 (r.phaseOut + 1) else 0
          phaseIn := if out then 0 else min 3 (r.phaseIn + 1) } ∧
        (out = true → 2 ≤ r.phaseOut → r.phaseCond = false → h.AlarmRoom → t.hub.isActive (.slot n .phaseOutOfLimit) = true) ∧
        (out = false → 2 ≤ r.phaseIn → r.phaseCond = true → h.alarms.Legal → t.hub.isActive (.slot n .phaseOutOfLimit) = false))

/-! ## Alarms and sweeps -/

/-- A CARD_ALARM that raises makes or renews the slot's CARD_REPORTED record with that code: ACTIVE, not acknowledged, with the severity that the
kind table gives it, its occurrences counted up to 255; where the action applies, a fence request is handed over. One that clears takes an
ACTIVE record to CLEARED and leaves its acknowledgment. The ALARM_CHANGED notice of a kind that notifies carries the record at its position
and the reason CREATED, ACTIVATED, SEVERITY or CLEARED, and an occurrence or a clear of nothing gives none; the relay slot, FORWARDING, is
sent the same in an ALARM_RELAY. (One notice, ACTIVATED, for a CLEARED record raised with another severity is the model's choice, log
entry 71.) -/
def Obligations.CardAlarm : Prop :=
  ∀ (s : State) (e : InboxFrame) (rest : List InboxFrame) (code : BitVec 16) (raises : Bool) (sev : Severity),
    let h := s.hub
    let n := e.slot
    let key : AlarmKey := { source := some n, kind := .cardReported, detail := code }
    let entry := h.tables.kinds[AlarmKind.cardReported.idx]
    let effective := (entry.severity).getD sev
    h.agent.inbox = e :: rest → e.frame.kind = Kind.cardAlarm → e.frame.cls = .control →
      parseCardAlarm e.frame.payload = some (code, raises, sev) →
      (h.slots[n].state = .forwarding ∨ h.slots[n].state = .draining ∨ h.slots[n].state = .fenced) →
      h.alarms.Legal → h.alarms.recs.length < 62 →
    ∃ t, exec .cardAlarm s = .next t ∧ t.hub.agent.inbox = rest ∧ t.hub.slots = h.slots ∧ t.hub.tables = h.tables ∧
      let quiet : Prop := h.tables.relay = none ∧ entry.action ≠ .withdrawPermit
      let tells (position : Nat) (x : AlarmRec) (reason : AlarmReason) : Prop := quiet →
        t.hub.port = if entry.notify then h.port.notice Code.alarmChanged (.alarmChanged position x reason) else h.port
      let relays (position : Nat) (x : AlarmRec) (reason : AlarmReason) : Prop := ∀ m : Slot, h.tables.relay = some m →
        entry.relay = true → entry.action ≠ .withdrawPermit → h.slots[m].state = .forwarding → h.store.freeReserve ≠ 0 →
        t.hub.ports[m].controlQ = h.ports[m].controlQ ++ [h.store.nextId] ∧ ∃ f ∈ t.hub.store.frames, f.id = h.store.nextId ∧
          f.frame = agentFrame .control Kind.alarmRelay 0 0 m (encAlarmChange position x reason)
      let position (x : AlarmRec) : Nat := h.alarms.recs.idxOf x + 1
      (raises = true → (∀ x ∈ h.alarms.recs, x.key ≠ key) →
        let made : AlarmRec := { key, severity := effective, reported := some sev, active := true, acked := false, firstRaised := h.stamp
                                 lastChange := h.stamp, occurrences := 1 }
        made ∈ t.hub.alarms.recs ∧ tells (h.alarms.recs.length + 1) made .created ∧ relays (h.alarms.recs.length + 1) made .created ∧
        (entry.action = .fenceSlot → effective = .critical → t.hub.manager.fenceRequests = h.manager.fenceRequests ++ [n])) ∧
      (raises = true → ∀ x ∈ h.alarms.recs, x.key = key →
        let again := { x with severity := effective, reported := some sev, active := true, acked := false, lastChange := h.stamp
                              occurrences := min 255 (x.occurrences + 1) }
        again ∈ t.hub.alarms.recs ∧
        (x.active = false → tells (position x) again .activated ∧ relays (position x) again .activated) ∧
        (x.active = true → x.severity ≠ effective → tells (position x) again .severity ∧ relays (position x) again .severity) ∧
        (x.active = true → x.severity = effective → t.hub.port = h.port ∧ t.hub.store = h.store) ∧
        (x.active = true → t.hub.manager.fenceRequests = h.manager.fenceRequests)) ∧
      (raises = false → ∀ x ∈ h.alarms.recs, x.key = key → x.active = true →
        let ended := { x with active := false, lastChange := h.stamp }
        ended ∈ t.hub.alarms.recs ∧ tells (position x) ended .cleared ∧ relays (position x) ended .cleared) ∧
      (raises = false → (∀ x ∈ h.alarms.recs, x.key = key → x.active = false) → t.hub.port = h.port ∧ t.hub.alarms = h.alarms) ∧
      ∀ x ∈ h.alarms.recs, x.key ≠ key → x.key ≠ .hub .agentOverload → x ∈ t.hub.alarms.recs

/-- SWEEP takes a new number and the timeout clamped to 10..1,000 ms. In ascending slot number, each requested slot that is FORWARDING is queried: a
SWEEP_QUERY with the item and the number joins the tail of its CONTROL queue, and the slot is pending; once the reserve is empty it fails with
QUERY_NOT_SENT and AGENT_OVERLOAD is raised. The other requested slots fail with NOT_IN_SERVICE. With none pending the sweep ends at once, with
its reply, CLAMPED where the timeout was and OK otherwise, which names the failed slots and the first of them. A valid
SWEEP_REPLY puts the value in the results, and the last one ends the sweep with its reply; SWEEP_TIMEOUT and SWEEP_ABORT fail every slot
still pending and end it. A second SWEEP is BUSY, a bad mask or item BAD_PARAM, each with a body of SWEEP's reply format in which the results
and the remaining mask are disjoint and together the requested mask, and an abort of no sweep BAD_STATE. (That the body of
SWEEP_ABORT's replies is empty, R188 giving a body the fields that its rule names, is the model's choice, log entry 31.) -/
def Obligations.Sweeps : Prop :=
  ∀ s : State,
    let h := s.hub
    let w := h.agent.sweep
    let ended (w' : Sweep) (inbox : List InboxFrame) : Hub := { h with
      agent := { h.agent with inbox, sweep := { w' with inFlight := false } }
      port := h.port.reply w'.tag Code.sweep (if w'.clamped then .clamped else .ok) (.sweep w'.body) }
    let refuses (r : Request) (rest : List Request) (status : Status) : Prop := ∃ t refusal b, exec .sweep s = .next t ∧
      t.eeprom = s.eeprom ∧ t.pending = s.pending ∧ h.RefusedWith t.hub r rest status refusal ∧ refusal.encode = encSweep b ∧ b.Accounts
    let allFail (w' : Sweep) (reason : SweepFailure) : Prop := w' = { w with pending := 0, failures := w'.failures } ∧
      ∀ p, p ∈ w'.failures ↔ p ∈ w.failures ∨ (Mask.has w.pending p.1 = true ∧ p.2 = reason)
    (w.body = { w.body with number := w.number, item := w.item, requested := w.requested, results := w.results, failures := w.failures
                            timeout := w.timeout } ∧
      (∀ n : Slot, Mask.has w.body.remaining n = true ↔ n ∈ w.failures.map (·.1)) ∧
      ∀ n : Slot, w.body.firstFailed = some n ↔ n ∈ w.failures.map (·.1) ∧ ∀ m ∈ w.failures.map (·.1), n ≤ m) ∧
    (∀ (r : Request) (rest : List Request), h.Takes Code.sweep r rest →
      (∀ item mask, ofCode sweepItems (fieldAt r.body 0 1) = some item → Mask.ofValue (fieldAt r.body 1 2) = some mask → mask ≠ 0 →
        (w.inFlight = true → refuses r rest .busy) ∧
        (w.inFlight = false → ∃ t, exec .sweep s = .next t ∧ t.hub.port.inbound = rest ∧ t.hub.slots = h.slots ∧ t.hub.tables = h.tables ∧
          let w' := t.hub.agent.sweep
          let asked := fieldAt r.body 3 2
          let queried := allSlots.filter fun n => Mask.has mask n && h.slots[n].state == .forwarding
          let sent (n : Slot) : Prop := n ∈ queried ∧ queried.idxOf n < h.store.freeReserve
          w'.number = w.nextNumber ∧ w'.nextNumber = w.nextNumber + 1 ∧ w'.item = item ∧ w'.requested = mask ∧ w'.tag = r.tag ∧
            w'.timeout = min 1000 (max 10 asked) ∧ w'.clamped = decide (w'.timeout ≠ asked) ∧
            w'.due = h.clock.elapsed + w'.timeout * nsPerMs ∧ w'.results = [] ∧
            (∀ n : Slot, Mask.has w'.pending n = true ↔ sent n) ∧
            (∀ p, p ∈ w'.failures ↔ Mask.has mask p.1 = true ∧
              (h.slots[p.1].state ≠ .forwarding ∧ p.2 = .notInService ∨ h.slots[p.1].state = .forwarding ∧ ¬ sent p.1 ∧ p.2 = .queryNotSent)) ∧
            (∀ n, sent n →
              let id := h.store.nextId + queried.idxOf n
              t.hub.ports[n] = { h.ports[n] with controlQ := h.ports[n].controlQ ++ [id] } ∧
              { id, frame := agentFrame .control Kind.sweepQuery 0 w.nextNumber n [BitVec.ofNat 8 (fieldAt r.body 0 1)]
                blocks := 1, refs := 1, fromAgent := true } ∈ t.hub.store.frames) ∧
            (∀ n, ¬ sent n → t.hub.ports[n] = h.ports[n]) ∧
            (h.store.freeReserve < queried.length → h.AlarmRoom → t.hub.isActive (.hub .agentOverload) = true) ∧
            (w'.pending ≠ 0 → w'.inFlight = true ∧ (queried.length ≤ h.store.freeReserve → t.hub.port.outbound = h.port.outbound)) ∧
            (w'.pending = 0 → w'.inFlight = false ∧
              t.hub.port.Replied r rest (if w'.timeout = asked then .ok else .clamped) (.sweep w'.body)))) ∧
      (ofCode sweepItems (fieldAt r.body 0 1) = none ∨ Mask.ofValue (fieldAt r.body 1 2) = none ∨
          Mask.ofValue (fieldAt r.body 1 2) = some 0 →
        refuses r rest .badParam)) ∧
    (∀ (e : InboxFrame) (rest : List InboxFrame) (value : List Byte), h.agent.inbox = e :: rest → e.frame.kind = Kind.sweepReply →
      e.frame.cls = .control → parseSweepReply w e.frame.payload = some value → w.inFlight = true →
      Mask.has w.pending e.slot = true → e.frame.sequence = w.number →
      let results := insertSlot e.slot value w.results
      let w' := { w with pending := Mask.erase w.pending e.slot, results }
      (∀ p, p ∈ results ↔ p = (e.slot, value) ∨ p ∈ w.results) ∧
      (w.results.Pairwise (fun p q => p.1 < q.1) → e.slot ∉ w.results.map (·.1) → results.Pairwise fun p q => p.1 < q.1) ∧
      exec .sweepReply s = .next { s with hub := if w'.pending = 0 then ended w' rest else { h with
        agent := { h.agent with inbox := rest, sweep := w' } } }) ∧
    (w.inFlight = true → ∃ w', allFail w' .noAnswer ∧ exec .sweepTimeout s = .next { s with hub := ended w' h.agent.inbox }) ∧
    (w.inFlight = false → exec .sweepTimeout s = .next s) ∧
    (∀ (r : Request) (rest : List Request), h.Takes Code.sweepAbort r rest →
      (w.inFlight = true → ∃ w', allFail w' .aborted ∧ exec .sweepAbort s = .next { s with hub := { ended w' h.agent.inbox with
        port := { (ended w' h.agent.inbox).port with inbound := rest }.reply r.tag r.code .ok .empty } }) ∧
      (w.inFlight = false → exec .sweepAbort s =
        .next { s with hub := { h with port := h.port.answered r rest .badState .empty } }))

/-! ## The host port and its requests -/

/-- WRITE_TRANSFER: fewer than six bytes after the type byte count as truncated; while the load runs or eight requests are open a write is discarded
with the overrun flag; a well-sized one joins the inbound queue; any other is answered with BAD_LENGTH. READ_TRANSFER drives the head
message, and takes it when its last byte has been clocked; an empty queue drives six bytes of 0. Another type byte, or HPRST asserted,
changes nothing. -/
def Obligations.Transfers : Prop :=
  ∀ s : State,
    let h := s.hub
    let p := h.port
    let onPort (p' : HostPort) : Host.Outcome State Fault Refusal := .next { s with hub := { h with port := p' } }
    let write (bs : List Byte) := exec (.writeTransfer false (Code.writeType :: bs)) s
    (∀ bs, bs.length < 6 → write bs = onPort { p with truncatedWrites := p.truncatedWrites + 1 }) ∧
    (∀ bs, 6 ≤ bs.length → (h.config.loading = true ∨ 8 ≤ p.openCount) →
      write bs = onPort { p with requestsDiscarded := p.requestsDiscarded + 1, overrun := true }) ∧
    (∀ kind code tag flags (body : List Byte), body.length ≤ 1024 → h.config.loading = false → p.openCount < 8 →
      write ([kind, code, tag, flags] ++ be 2 body.length ++ body) = onPort { p with
        openCount := p.openCount + 1, inbound := p.inbound ++ [{ kind, code, tag, flags, body }] }) ∧
    (∀ kind code tag flags length (body : List Byte), length < 65536 → h.config.loading = false → p.openCount < 8 →
      (1024 < length ∨ length ≠ body.length) → write ([kind, code, tag, flags] ++ be 2 length ++ body) = onPort
        ({ p with openCount := p.openCount + 1, lengthErrors := p.lengthErrors + 1 }.reply tag code .badLength .empty)) ∧
    (∀ hprst t bs, hprst = true ∨ t ≠ Code.writeType → exec (.writeTransfer hprst (t :: bs)) s = .next s) ∧
    (∀ hprst t started clocked, hprst = true ∨ t ≠ Code.readType → exec (.readTransfer hprst t started clocked) s = .next s) ∧
    (∀ started clocked, started = true ∨ p.outbound = [] →
      exec (.readTransfer false Code.readType started clocked) s = onPort { p with driven := (List.replicate 6 0).take clocked }) ∧
    ∀ m later clocked, p.outbound = m :: later →
      (clocked < m.encode.length → exec (.readTransfer false Code.readType false clocked) s = onPort { p with driven := m.encode.take clocked }) ∧
      (m.encode.length ≤ clocked → ¬ (m.isReply = true ∧ m.code = Code.hubReset ∧ m.status = .ok ∧ p.resetPending = true) →
        exec (.readTransfer false Code.readType false clocked) s =
          onPort { p with driven := m.encode, outbound := later, attn := !later.isEmpty
                          openCount := if m.isReply then p.openCount - 1 else p.openCount })

/-- What is not accepted. An agent frame of an invalid form is discarded and counted at its slot, and so is one that its slot's state does not
accept. A request of a wrong body length is answered BAD_LENGTH; of another message kind, or of a code that names no request, UNKNOWN_REQUEST; of
a slot number outside 1..12, BAD_PARAM; and nothing else changes. -/
def Obligations.NotAccepted : Prop :=
  ∀ s : State,
    let h := s.hub
    (∀ (e : InboxFrame) (rest : List InboxFrame), h.agent.inbox = e :: rest →
      let kind := e.frame.kind
      let p := e.frame.payload
      let control : Prop := e.frame.cls = .control
      let timing : Prop := e.frame.cls = .timing
      let value := fieldAt p 0 1
      let st := h.slots[e.slot].state
      (h.formOk e.frame = true ↔
        kind = Kind.identityReply ∧ control ∧ 7 ≤ p.length ∧ p.length = 7 + fieldAt p 6 1 ∧ fieldAt p 6 1 ≤ 16 ∧
          (1 ≤ fieldAt p 0 1 ∧ fieldAt p 0 1 ≤ 6) ∧ (1 ≤ fieldAt p 4 1 ∧ fieldAt p 4 1 ≤ 4) ∨
        kind = Kind.quiesced ∧ control ∧ p.length = 0 ∨
        kind = Kind.probeReply ∧ timing ∧ p.length = 4 ∨
        kind = Kind.phaseReport ∧ control ∧ p.length = 4 ∨
        kind = Kind.sourceReport ∧ timing ∧ p.length = 7 ∧ fieldAt p 6 1 ≤ 1 ∨
        kind = Kind.cardAlarm ∧ control ∧ p.length = 4 ∧ (fieldAt p 2 1 = 1 ∨ fieldAt p 2 1 = 2) ∧
          (1 ≤ fieldAt p 3 1 ∧ fieldAt p 3 1 ≤ 4) ∨
        kind = Kind.sweepReply ∧ control ∧ p.length = 1 + value ∧ match h.agent.sweep.inFlight, h.agent.sweep.item with
          | true, .status | true, .alarmSummary => value = 4
          | true, .temperature => value = 2
          | true, .inventory | false, _ => 1 ≤ value ∧ value ≤ 32) ∧
      ((kind = Kind.identityReply → (h.accepts e.frame e.slot = true ↔ st = .identifying)) ∧
        (kind = Kind.quiesced → (h.accepts e.frame e.slot = true ↔ st = .draining)) ∧
        (kind = Kind.probeReply → (h.accepts e.frame e.slot = true ↔ h.trecs[e.slot].probe ≠ none)) ∧
        (kind = Kind.phaseReport → (h.accepts e.frame e.slot = true ↔
          st = .forwarding ∧ h.slots[e.slot].identity.any (fun i => i.caps.timeSink || i.caps.timeSource) = true)) ∧
        (kind = Kind.sourceReport → (h.accepts e.frame e.slot = true ↔ st = .forwarding)) ∧
        (kind = Kind.cardAlarm → (h.accepts e.frame e.slot = true ↔ st = .forwarding ∨ st = .draining ∨ st = .fenced)) ∧
        (kind = Kind.sweepReply → (h.accepts e.frame e.slot = true ↔ h.agent.sweep.inFlight = true ∧
          Mask.has h.agent.sweep.pending e.slot = true ∧ e.frame.sequence = h.agent.sweep.number))) ∧
      (h.formOk e.frame = false → exec .invalidAgentFrame s = .next { s with hub := { h with agent := { h.agent with
        inbox := rest, formDiscards := h.agent.formDiscards.set e.slot (h.agent.formDiscards[e.slot] + 1) } } }) ∧
      (∀ c, (c = .identityReply ∧ e.frame.kind = Kind.identityReply) ∨ (c = .quiesced ∧ e.frame.kind = Kind.quiesced) ∨
          (c = .probeReply ∧ e.frame.kind = Kind.probeReply) ∨ (c = .phaseReport ∧ e.frame.kind = Kind.phaseReport) ∨
          (c = .sourceReport ∧ e.frame.kind = Kind.sourceReport) ∨ (c = .cardAlarm ∧ e.frame.kind = Kind.cardAlarm) ∨
          (c = .sweepReply ∧ e.frame.kind = Kind.sweepReply) →
        h.formOk e.frame = true → h.accepts e.frame e.slot = false →
        exec c s = .next { s with hub := { h with agent := { h.agent with
          inbox := rest, stateDiscards := h.agent.stateDiscards.set e.slot (h.agent.stateDiscards[e.slot] + 1) } } })) ∧
    ∀ (r : Request) (rest : List Request), h.port.inbound = r :: rest → h.port.resetPending = false →
      (r.kind ≠ 1 ∨ isRequestCode r.code = false →
        exec .unknownRequest s = .next { s with hub := { h with port := h.port.answered r rest .unknownRequest .empty } }) ∧
      (r.kind = 1 → ∀ c, (r.code, c) ∈ requestRows →
        (bodyLengthOk r.code r.body = false →
          exec c s = .next { s with hub := { h with port := h.port.answered r rest .badLength .empty } }) ∧
        (c ∈ [.slotPlanSet, .slotQuery, .slotPower, .slotAdmit, .slotRelease, .slotFence, .slotRestore, .slotRestart, .slotLinkReset,
              .portLimitSet, .portCounts, .slotTimingQuery, .asymmetrySet] → bodyLengthOk r.code r.body = true →
          (fieldAt r.body 0 1 < 1 ∨ 12 < fieldAt r.body 0 1) →
          ∃ t, exec c s = .next t ∧ t.eeprom = s.eeprom ∧ t.pending = s.pending ∧ h.Refused t.hub r rest .badParam))

/-- The requests that read: each is answered OK with what stands when it is taken, and nothing else changes. HUB_STATUS gives the fields of R178,
SLOT_QUERY the record, the plan entry, the place in the wait list and the time waited, SLOT_TIMING_QUERY the timing record with R and the
inputs of the permit, and ALARM_LIST the first eight records from the position asked, the next position, and the counts. (The sweep number
with no sweep in flight, the whole ms of the time waited and the whole capability set are the model's choices, log entries 57, 66 and 54.)
The claim masks of WINDOW_GET hold the
sources that the window would claim after every enabled window of lower index that contains its block; GROUP_GET tells the members that are
reachable and the windows that refer to the group, bit i of their mask standing for window i (the model's choice, log entry 42). -/
def Obligations.ReadingRequests : Prop :=
  ∀ (s : State) (r : Request) (rest : List Request),
    let h := s.hub
    let replies (body : Body) : Host.Outcome State Fault Refusal := .next { s with hub := { h with port := h.port.answered r rest .ok body } }
    (h.Takes Code.hubInfo r rest → exec .hubInfo s = .next { s with hub := { h with
      draws := h.draws + 1
      port := h.port.answered r rest .ok (.hubInfo h.config.status h.config.strap h.manager.startUpAt h.draws) } }) ∧
    let committed := (allSlots.map fun n => match h.slots[n].state, h.slots[n].powerClass with
      | .empty, _ | .seated, _ | .off, _ | .faulted, _ | _, none => 0
      | _, some .a => 20
      | _, some .b => 45
      | _, some .c => 90
      | _, some .d => 160).sum
    let inSpec : Prop := h.timing.state = .locked ∨ h.timing.state = .holdover ∨ h.timing.state = .acquiring .locked
    let stands (p : Nat) (x : AlarmRec) : Prop := if p = 0 then h.alarms.full = some x else h.alarms.recs[p - 1]? = some x
    let records := h.alarms.full.toList ++ h.alarms.recs
    (h.Takes Code.hubStatus r rest → ∃ b : HubStatusBody, exec .hubStatus s = replies (.hubStatus b) ∧
      b.now = h.clock.now ∧ b.timing = h.timing.state ∧ (b.inSpec = true ↔ inSpec) ∧ b.selection = h.timing.selection ∧
      (∀ n : Slot, b.states[n] = h.slots[n].state) ∧ b.budget = h.tables.budget ∧ b.committed = committed ∧
      b.waitList = h.manager.waitList ∧ b.defaultTarget = h.tables.defaultTarget ∧
      b.freeShared = 1984 - h.store.sharedUsed ∧ b.freeReserve = 64 - h.store.reserveUsed ∧
      b.inboxCount = h.agent.inbox.length ∧ b.inboxOverflows = h.agent.inboxOverflows ∧
      b.reserveRefusals = h.agent.reserveRefusals ∧ b.formDiscards = h.agent.formDiscards ∧ b.stateDiscards = h.agent.stateDiscards ∧
      b.sweepInFlight = h.agent.sweep.inFlight ∧ b.sweepNumber = h.agent.sweep.number ∧ b.nextSweepNumber = h.agent.sweep.nextNumber ∧
      b.saving = h.config.save.isSome ∧ b.lamps = h.alarms.lamps ∧
      b.records = records.length ∧ b.activeRecords = records.countP (·.active) ∧ b.openCount = h.port.openCount ∧
      b.replies = h.port.outbound.countP (·.isReply) ∧ b.replies + b.notices = h.port.outbound.length ∧
      b.overrun = h.port.overrun ∧ b.noticesLost = h.port.noticesLost ∧ b.requestsDiscarded = h.port.requestsDiscarded ∧
      b.noticesDiscarded = h.port.noticesDiscarded ∧ b.lengthErrors = h.port.lengthErrors ∧
      b.truncatedWrites = h.port.truncatedWrites) ∧
    (h.Takes Code.timingStatus r rest → exec .timingStatus s = replies (.timingStatus {
      now := h.clock.now, inSpec := h.timing.state.inSpec, timing := h.timing, revertive := h.tables.revertive,
      timeStepped := h.clock.timeStepped, params := h.tables.timing })) ∧
    (∀ n, h.TakesFor Code.slotQuery r rest n → exec .slotQuery s = replies (.slotQuery {
      record := h.slots[n], plan := h.tables.plan[n], link := h.links[n].state, budget := h.tables.budget, committed
      waitList := h.manager.waitList, place := if n ∈ h.manager.waitList then h.manager.waitList.idxOf n + 1 else 0
      waited := h.slots[n].joined.map fun joined => (h.clock.elapsed - joined) / nsPerMs })) ∧
    (∀ n, h.TakesFor Code.slotTimingQuery r rest n → ∃ b : SlotTimingBody, exec .slotTimingQuery s = replies (.slotTiming b) ∧
      b.record = h.trecs[n] ∧ b.asymmetry = h.tables.asymmetry[n] ∧ b.announceCount = h.timing.announceCount ∧
      b.announceInterval = h.tables.timing.announceInterval ∧ b.caps = h.slots[n].identity.map (·.caps) ∧
      (∀ v, b.least = some v ↔ v ∈ h.trecs[n].window ∧ ∀ w ∈ h.trecs[n].window, v ≤ w) ∧
      (b.eligible = true ↔ h.slots[n].state = .forwarding ∧ ∃ i, h.slots[n].identity = some i ∧ (i.caps.timeSink || i.caps.timeSource) = true) ∧
      (b.settled = true ↔ 4 ≤ h.trecs[n].window.length) ∧ b.inputs.settled = b.settled ∧
      (b.inputs.forwarding = true ↔ h.slots[n].state = .forwarding) ∧
      (b.inputs.radiates = true ↔ ∃ i, h.slots[n].identity = some i ∧ i.caps.radiates = true) ∧
      (b.inputs.inSpec = true ↔ inSpec) ∧ b.inputs.pathOk = !h.trecs[n].pathLost ∧ b.inputs.phaseOk = !h.trecs[n].phaseCond ∧
      (b.inputs.noAlarm = true ↔ ∀ x ∈ records, (x.key.source = none ∨ x.key.source = some n) → x.active = true →
        h.tables.kinds[x.key.kind.idx].action = .withdrawPermit → x.key.kind = .cardReported ∧ x.severity ≠ .critical)) ∧
    (∀ start, h.Takes Code.alarmList r rest → fieldAt r.body 0 1 = start → start < 64 →
      ∃ b : AlarmListBody, exec .alarmList s = replies (.alarmList b) ∧
      b.page.length ≤ 8 ∧ b.page.Pairwise (fun x y => x.1 < y.1) ∧ (∀ x ∈ b.page, start ≤ x.1 ∧ stands x.1 x.2) ∧
      (b.next = none → ∀ p x, start ≤ p → stands p x → (p, x) ∈ b.page) ∧
      (∀ q, b.next = some q → b.page.length = 8 ∧ (∃ x, stands q x) ∧ (∀ x ∈ b.page, x.1 < q) ∧
        ∀ p x, start ≤ p → p < q → stands p x → (p, x) ∈ b.page) ∧
      b.records = h.alarms.recs.length ∧ b.fullHeld = h.alarms.full.isSome ∧ b.changeNumber = h.alarms.changeNumber ∧
      b.activeCritical = records.countP (fun x => x.active && x.severity == .critical) ∧
      b.activeMajor = records.countP (fun x => x.active && x.severity == .major) ∧
      b.activeMinor = records.countP (fun x => x.active && x.severity == .minor) ∧
      b.activeWarning = records.countP (fun x => x.active && x.severity == .warning) ∧
      b.unacked = records.countP (fun x => x.active && !x.acked) ∧ b.lamps = h.alarms.lamps ∧ b.relay = h.tables.relay) ∧
    (∀ i : Fin 32, h.Takes Code.windowGet r rest → fieldAt r.body 0 1 = i.val →
      ∃ control bulk, exec .windowGet s = replies (.windowGet h.tables.windows[i] control bulk) ∧ ∀ n : Slot,
        let free (cls : TrafficClass) : Prop := h.tables.windows[i].enabled = true ∧ h.tables.windows[i].classes.includes cls = true ∧
          Mask.has h.tables.windows[i].sources n = true ∧ ∀ j : Fin 32, j < i → h.tables.windows[j].enabled = true →
            h.tables.windows[j].covers h.tables.windows[i] = true → h.tables.windows[j].classes.includes cls = true →
            Mask.has h.tables.windows[j].sources n = false
        (Mask.has control n = true ↔ free .control) ∧ (Mask.has bulk n = true ↔ free .bulk)) ∧
    (∀ g : Fin 16, h.Takes Code.groupGet r rest → fieldAt r.body 0 1 = g.val + 1 →
      ∃ reachable windows, exec .groupGet s = replies (.groupGet h.tables.groups[g] reachable windows
          (h.tables.defaultTarget == some (.group g))) ∧
        (∀ n : Slot, Mask.has reachable n = true ↔ Mask.has h.tables.groups[g] n = true ∧ h.slots[n].state.reachable = true) ∧
        ∀ i : Fin 32, windows.getLsbD i.val = true ↔ h.tables.windows[i].target = .group g) ∧
    ((h.Takes Code.windowGet r rest → 32 ≤ fieldAt r.body 0 1 → ∃ t, exec .windowGet s = .next t ∧ h.Refused t.hub r rest .badParam) ∧
     (h.Takes Code.groupGet r rest → (fieldAt r.body 0 1 < 1 ∨ 16 < fieldAt r.body 0 1) →
        ∃ t, exec .groupGet s = .next t ∧ h.Refused t.hub r rest .badParam) ∧
     (h.Takes Code.alarmList r rest → 64 ≤ fieldAt r.body 0 1 → ∃ t, exec .alarmList s = .next t ∧ h.Refused t.hub r rest .badParam))

/-- GROUP_SET (R30): the mask is replaced and nothing else but the reply changes, so the egress queues stay as they are; a group number outside
1..16, or a mask with a position outside slots 1..12, is refused. -/
def Obligations.GroupSet : Prop :=
  ∀ (s : State) (r : Request) (rest : List Request),
    let h := s.hub
    let number := fieldAt r.body 0 1
    let value := fieldAt r.body 1 2
    h.Takes Code.groupSet r rest →
    (∀ (g : Fin 16) (mask : SlotMask), number = g.val + 1 → value = mask.toNat * 2 →
      exec .groupSet s = .next { s with hub := { h with
        tables := { h.tables with groups := h.tables.groups.set g mask }
        port := h.port.answered r rest .ok (.groupSet g mask) } }) ∧
    (number < 1 ∨ 16 < number ∨ value % 2 = 1 ∨ 8192 ≤ value →
      ∃ t, exec .groupSet s = .next t ∧ t.eeprom = s.eeprom ∧ t.pending = s.pending ∧ h.Refused t.hub r rest .badParam)

/-- DEFAULT_TARGET_SET (R32): the default target is replaced, the reply carries the one before and the one now, and HUB_STATUS reports it; another
kind, or a number outside its kind's range, is refused; the number is not read for NONE. -/
def Obligations.DefaultTargetSet : Prop :=
  ∀ (s : State) (r : Request) (rest : List Request),
    let h := s.hub
    let kind := fieldAt r.body 0 1
    let number := fieldAt r.body 1 1
    let sets (target : DefaultTarget) : Prop := ∃ t, exec .defaultTargetSet s = .next t ∧
      t = { s with hub := { h with
        tables := { h.tables with defaultTarget := target }
        port := h.port.answered r rest .ok (.defaultTarget h.tables.defaultTarget target) } } ∧
      t.hub.statusBody.defaultTarget = target
    h.Takes Code.defaultTargetSet r rest →
    (kind = 1 → sets none) ∧
    (∀ n : Slot, kind = 2 → number = n.val + 1 → sets (some (.slot n))) ∧
    (∀ g : Fin 16, kind = 3 → number = g.val + 1 → sets (some (.group g))) ∧
    (kind < 1 ∨ 3 < kind ∨ kind = 2 ∧ (number < 1 ∨ 12 < number) ∨ kind = 3 ∧ (number < 1 ∨ 16 < number) →
      ∃ t, exec .defaultTargetSet s = .next t ∧ t.eeprom = s.eeprom ∧ t.pending = s.pending ∧ h.Refused t.hub r rest .badParam)

/-- PORT_COUNTS (R52): the reply carries the twelve counters and the readings of the port as they stand; with the clear flag set the counters are 0
after the same event, and nothing else of the hub changes, the alarm records among it. A slot number outside 1..12, or a clear flag of
neither 0 nor 1 (R188), is refused, with a body of the same format that ends with the free counts too (R34, R176). That the two pending
lists are two numbers (log entry 51) and the widths of the fields, and with them the place of the counts (log entry 11), are the model's
choice. -/
def Obligations.PortCounts : Prop :=
  ∀ (s : State) (r : Request) (rest : List Request),
    let h := s.hub
    let p (n : Slot) := h.ports[n]
    let body (n : Slot) : PortCountsBody :=
      { counters := (p n).counters, occupancy := h.occupancy n, limits := h.tables.ports[n], timingEntries := (p n).timingQ.length,
        controlEntries := (p n).controlQ.length, bulkEntries := (p n).bulkQ.length, identify := (p n).identify.isSome,
        pendControl := (p n).pendControl.length, pendBulk := (p n).pendBulk.length, freeShared := 1984 - h.store.sharedUsed,
        freeReserve := 64 - h.store.reserveUsed }
    h.Takes Code.portCounts r rest →
    (∀ n : Slot, fieldAt r.body 0 1 = n.val + 1 → fieldAt r.body 1 1 ≤ 1 →
      exec .portCounts s = .next { s with hub := { h with
        ports := if fieldAt r.body 1 1 = 1 then h.ports.set n { p n with counters := {} } else h.ports
        port := h.port.answered r rest .ok (.portCounts (body n)) } }) ∧
    (fieldAt r.body 0 1 < 1 ∨ 12 < fieldAt r.body 0 1 ∨ 2 ≤ fieldAt r.body 1 1 →
      ∃ t refusal fields, exec .portCounts s = .next t ∧ t.eeprom = s.eeprom ∧ t.pending = s.pending ∧
        h.RefusedWith t.hub r rest .badParam refusal ∧
        refusal.encode = fields ++ be 2 (1984 - h.store.sharedUsed) ++ be 1 (64 - h.store.reserveUsed) ∧
        ∀ n : Slot, fields.length + 3 = (Body.portCounts (body n)).encode.length)

/-- RELAY_SET (R154): with the flag clear the relay slot becomes absent; with it set, the slot of the number; the reply carries the relay slot
before and after and the state of the one after; frames already queued stay; a number outside 1..12 is refused. -/
def Obligations.RelaySet : Prop :=
  ∀ (s : State) (r : Request) (rest : List Request),
    let h := s.hub
    let flag := fieldAt r.body 0 1
    let number := fieldAt r.body 1 1
    let sets (relay : Option Slot) (state : Option SlotState) : Prop := exec .relaySet s = .next { s with hub := { h with
      tables := { h.tables with relay }
      port := h.port.answered r rest .ok (.relaySet h.tables.relay relay state) } }
    h.Takes Code.relaySet r rest →
    (flag = 0 → sets none none) ∧
    (∀ n : Slot, flag = 1 → number = n.val + 1 → sets (some n) (some h.slots[n].state)) ∧
    (flag = 1 ∧ (number < 1 ∨ 12 < number) →
      ∃ t, exec .relaySet s = .next t ∧ t.eeprom = s.eeprom ∧ t.pending = s.pending ∧ h.Refused t.hub r rest .badParam)

/-- The requests that set the slot plan, the budget, a window, a port limit and an asymmetry: the value, clamped where it is a tuning value, takes
effect in the event and the reply carries it, CLAMPED where it was clamped; a structural value out of its set is refused with BAD_PARAM, a
budget below committed power or a limit below the occupancy with BAD_STATE. After SLOT_PLAN_SET the cabinet outputs are judged anew. (What the
BAD_STATE reply of PORT_LIMIT_SET carries is the model's choice, log entry 31.) -/
def Obligations.SettingRequests : Prop :=
  ∀ (s : State) (r : Request) (rest : List Request),
    let h := s.hub
    let refused (c : Instr) : Prop := ∃ t, exec c s = .next t ∧ h.Refused t.hub r rest .badParam
    (∀ n : Slot, h.TakesFor Code.slotPlanSet r rest n →
      (∀ entry, parsePlan (r.body.drop 1) = some entry →
        let applied := { entry with retryLimit := min 3 entry.retryLimit }
        ∃ t, exec .slotPlanSet s = .next t ∧ t.hub = { h with
          tables := { h.tables with plan := h.tables.plan.set n applied }
          alarms := { h.alarms with lamps := t.hub.lampLevels }
          port := h.port.answered r rest (if 3 < entry.retryLimit then .clamped else .ok) (.slotPlan applied) }) ∧
      (parsePlan (r.body.drop 1) = none → refused .slotPlanSet)) ∧
    (h.Takes Code.budgetSet r rest →
      let asked := parseBudget r.body
      let b := asked.clamp
      (b.budget < h.committed → exec .budgetSet s = .next { s with hub := { h with
        port := h.port.answered r rest .badState
          (.budget h.tables.budget h.committed h.manager.waitList h.tables.recoveryWindow h.tables.drainTimeout) } }) ∧
      (h.committed ≤ b.budget → ∃ t, exec .budgetSet s = .next t ∧
        t.hub.tables = { h.tables with budget := b.budget, recoveryWindow := b.recoveryWindow, drainTimeout := b.drainTimeout } ∧
        (h.tables.budget < b.budget → t.hub.ListServed) ∧ (b.budget ≤ h.tables.budget → t.hub.slots = h.slots) ∧
        t.hub.port.Replied r rest (if b = asked then .ok else .clamped)
          (.budget b.budget t.hub.committed t.hub.manager.waitList b.recoveryWindow b.drainTimeout))) ∧
    (h.Takes Code.windowSet r rest →
      (∀ (i : Fin 32) w, fieldAt r.body 0 1 = i.val → parseWindow (r.body.drop 1) = some w → w.Legal ∧
        exec .windowSet s = .next { s with hub := { h with
          tables := { h.tables with windows := h.tables.windows.set i w }, port := h.port.answered r rest .ok (.window w) } }) ∧
      (32 ≤ fieldAt r.body 0 1 ∨ parseWindow (r.body.drop 1) = none → refused .windowSet)) ∧
    (∀ n : Slot, h.TakesFor Code.portLimitSet r rest n →
      let asked := parsePortLimit (r.body.drop 1)
      let limits : PortLimit := { limit := clampNat 17 1984 asked.limit, threshold := clampNat 1 1000 asked.threshold }
      exec .portLimitSet s = (if limits.limit < h.occupancy n then
          .next { s with hub := { h with port := h.port.answered r rest .badState (.portLimit h.tables.ports[n] (h.occupancy n)) } }
        else .next { s with hub := { h with
          tables := { h.tables with ports := h.tables.ports.set n limits }
          port := h.port.answered r rest (if limits = asked then .ok else .clamped) (.portLimit limits (h.occupancy n)) } })) ∧
    ∀ n : Slot, h.TakesFor Code.asymmetrySet r rest n →
      let a := toSigned 2 (fieldAt r.body 1 2)
      (-4000 ≤ a → a ≤ 4000 → exec .asymmetrySet s = .next { s with hub := { h with
        tables := { h.tables with asymmetry := h.tables.asymmetry.set n a }
        port := h.port.answered r rest .ok (.asymmetry h.tables.asymmetry[n] a h.trecs[n].target h.trecs[n].applied) } }) ∧
      (a < -4000 ∨ 4000 < a → refused .asymmetrySet)

/-- REF_LIST_SET replaces the candidate list: a source listed before keeps its entry, a new one starts UNAVAILABLE; without revertive a selection
that is still listed and QUALIFIED stays, and with an empty list it is lost. TIMING_SET applies its nine parameters, each clamped to its range.
TIME_SET is held for the next second boundary in FREE_RUN and HOLDOVER_LAPSED, and refused with BAD_STATE in any other state. (That the reply
names the boundary already reached while its second waits unjudged is DEDUCED, log entry 36.) -/
def Obligations.TimingRequests : Prop :=
  ∀ (s : State) (r : Request) (rest : List Request),
    let h := s.hub
    (h.Takes Code.refListSet r rest →
      (∀ revertive sources, parseCandidates r.body = some (revertive, sources) → ∃ t, exec .refListSet s = .next t ∧
        t.hub.tables = { h.tables with revertive } ∧ t.hub.slots = h.slots ∧ t.hub.clock = h.clock ∧
        t.hub.timing.cands = sources.map (fun source => (h.timing.cands.find? fun c => c.source == source).getD { source }) ∧
        t.hub.port.Replied r rest .ok (.refList t.hub.timing.cands t.hub.timing.selection t.hub.timing.state) ∧
        (revertive = false → (t.hub.timing.cands.any fun c => c.status == .qualified && h.timing.selection == some c.source) = true →
          t.hub.timing.selection = h.timing.selection ∧ t.hub.timing.state = h.timing.state) ∧
        (sources = [] → t.hub.timing.selection = none ∧ t.hub.timing.refLost = false ∧
          (h.timing.selection.isSome = true → h.timing.state = .locked → t.hub.timing.state = .holdover ∧ t.hub.timing.correction = 0))) ∧
      (parseCandidates r.body = none → ∃ t, exec .refListSet s = .next t ∧ h.Refused t.hub r rest .badParam)) ∧
    (h.Takes Code.timingSet r rest →
      let asked := parseTimingParams r.body
      let params := asked.clamp
      ∃ t, exec .timingSet s = .next t ∧ t.hub.tables = { h.tables with timing := params } ∧ params.Legal ∧
        t.hub.timing.cands = h.timing.cands ∧ t.hub.timing.selection = h.timing.selection ∧ t.hub.slots = h.slots ∧
        t.hub.port.Replied r rest (if params = asked then .ok else .clamped) (.timingSet params) ∧
        (h.timing.state.running = false → t.hub.timing.state = h.timing.state) ∧
        (h.timing.state = .holdover → t.hub.timing.state = if params.holdoverLimit ≤ h.timing.holdover then .holdoverLapsed else .holdover)) ∧
    (h.Takes Code.timeSet r rest →
      (h.timing.state = .freeRun ∨ h.timing.state = .holdoverLapsed → exec .timeSet s = .next { s with hub := { h with
        timing := { h.timing with pendingTime := some (fieldAt r.body 0 6) }
        port := h.port.answered r rest .ok (.timeSet h.clock.nextSecond) } }) ∧
      (h.timing.state ≠ .freeRun → h.timing.state ≠ .holdoverLapsed →
        ∃ t, exec .timeSet s = .next t ∧ h.Refused t.hub r rest .badState))

/-- ALARM_ACK acknowledges the records it selects that were not (in mode KEY the one record of the key, whose source is of its kind's type; in
mode SEVERITY every record of that severity or below, position 0 with them), an ACTIVE one of an EVENT kind becoming CLEARED, leaves the others,
and counts both in its reply, with the outputs. ALARM_PURGE removes every CLEARED and acknowledged record, counts them in the change number, and
replies with how many it removed and how many remain. KIND_SET replaces the kind's entry, forms the effective severity of its records again, and
replies with the entry, how many records of the kind stand in the table and how many of them are ACTIVE. After each the cabinet outputs are judged
anew. A selection that ALARM_ACK refuses, a code that names no kind, a severity or an action outside its set, and FENCE_SLOT for a hub-sourced
kind, are refused with BAD_PARAM. -/
def Obligations.AlarmRequests : Prop :=
  ∀ (s : State) (r : Request) (rest : List Request),
    let h := s.hub
    let steady (x : AlarmRec) : Prop := x ∈ h.alarms.recs ∧ x.key.kind ≠ .agentOverload ∧ h.alarms.recs.length < 63
    let atZero (x : AlarmRec) : Prop := h.alarms.full = some x ∧ h.alarms.recs.length < 63
    let records := h.alarms.full.toList ++ h.alarms.recs
    let rank : Severity → Nat := fun | .critical => 4 | .major => 3 | .minor => 2 | .warning => 1
    (∀ keys, h.ackKeys r.body = some keys ↔
      (fieldAt r.body 0 1 = 1 ∧ ∃ key : AlarmKey, keys = [key] ∧
        (fieldAt r.body 1 1 = 0 ∧ key.source = none ∨ ∃ n : Slot, fieldAt r.body 1 1 = n.val + 1 ∧ key.source = some n) ∧
        ofCode alarmKinds (fieldAt r.body 2 1) = some key.kind ∧ key.detail = BitVec.ofNat 16 (fieldAt r.body 3 2) ∧
        (key.source.isSome = true ↔ key.kind.slotSourced = true) ∧ ∃ x ∈ records, x.key = key) ∨
      (fieldAt r.body 0 1 = 2 ∧ ∃ sev, ofCode severities (fieldAt r.body 5 1) = some sev ∧
        keys = (records.filter fun x => rank x.severity ≤ rank sev).map (·.key))) ∧
    (h.Takes Code.alarmAck r rest → h.alarms.Legal →
      (∀ keys, h.ackKeys r.body = some keys → ∃ t, exec .alarmAck s = .next t ∧ t.hub.slots = h.slots ∧ t.hub.tables = h.tables ∧
        (∀ x, steady x → x.key ∈ keys → x.acked = false →
          { x with acked := true, lastChange := h.stamp, active := x.active && !x.key.kind.isEvent } ∈ t.hub.alarms.recs) ∧
        (∀ x, steady x → (x.key ∉ keys ∨ x.acked = true) → x ∈ t.hub.alarms.recs) ∧
        (∀ x, atZero x → t.hub.alarms.full = some (if x.key ∈ keys ∧ x.acked = false then
          { x with acked := true, lastChange := h.stamp, active := false } else x)) ∧
        t.hub.alarms.lamps = t.hub.lampLevels ∧
        t.hub.port.Replied r rest .ok (.alarmAck
          (h.alarms.all.filter fun x => decide (x.key ∈ keys) && !x.acked).length
          (h.alarms.all.filter fun x => decide (x.key ∈ keys) && !x.acked && x.active && x.key.kind.isEvent).length
          t.hub.lampLevels)) ∧
      (h.ackKeys r.body = none → ∃ t, exec .alarmAck s = .next t ∧ h.Refused t.hub r rest .badParam)) ∧
    (h.Takes Code.alarmPurge r rest →
      let gone (x : AlarmRec) : Bool := !x.active && x.acked
      let count := (h.alarms.all.filter gone).length
      ∃ t, exec .alarmPurge s = .next t ∧ t.hub = { h with
        alarms := { full := h.alarms.full.filter fun x => !gone x, recs := h.alarms.recs.filter fun x => !gone x
                    changeNumber := h.alarms.changeNumber + BitVec.ofNat 32 count, lamps := t.hub.lampLevels }
        port := h.port.answered r rest .ok (.alarmPurge count t.hub.alarms.all.length) }) ∧
    (h.Takes Code.kindSet r rest →
      (∀ kind entry, ofCode alarmKinds (fieldAt r.body 0 1) = some kind → parseKindEntry kind (r.body.drop 1) = some entry →
        ∃ t, exec .kindSet s = .next t ∧ t.hub.slots = h.slots ∧
          t.hub.tables = { h.tables with kinds := h.tables.kinds.set kind.idx entry } ∧
          (∀ x, steady x → x.key.kind = kind →
            { x with severity := effectiveSeverity entry kind x.reported } ∈ t.hub.alarms.recs) ∧
          (∀ x, steady x → x.key.kind ≠ kind → x ∈ t.hub.alarms.recs) ∧
          (∀ x, atZero x → t.hub.alarms.full = some (if x.key.kind = kind then
            { x with severity := effectiveSeverity entry kind x.reported } else x)) ∧
          t.hub.alarms.lamps = t.hub.lampLevels ∧
          t.hub.port.Replied r rest .ok (.kindSet entry (t.hub.alarms.all.filter fun x => x.key.kind == kind).length
            (t.hub.alarms.all.filter fun x => x.key.kind == kind && x.active).length)) ∧
      (∀ kind, ofCode alarmKinds (fieldAt r.body 0 1) = some kind →
        let b := r.body.drop 1
        (fieldAt b 0 1 = 1 ∧ ofCode severities (fieldAt b 1 1) = none ∨ ofCode actions (fieldAt b 3 1) = none ∨
            ofCode actions (fieldAt b 3 1) = some .fenceSlot ∧ kind.slotSourced = false → parseKindEntry kind b = none) ∧
        (parseKindEntry kind b = none → ∃ t, exec .kindSet s = .next t ∧ h.Refused t.hub r rest .badParam)) ∧
      (ofCode alarmKinds (fieldAt r.body 0 1) = none → ∃ t, exec .kindSet s = .next t ∧ h.Refused t.hub r rest .badParam))
end

