-- ==== Sys2Proof/Laws/State.lean ====
section
/-! SUPPORT. One lemma for each field of the hub and each update of one of its records: what the update does to that field. A
proof about a meaning cites these and never unfolds a record update. -/

namespace Sys2Proof.Machine

variable (h : Hub) (n m : Slot)

/-! ## modSlot -/

@[simp] theorem Hub.modSlot_clock (f : SlotRec → SlotRec) : (h.modSlot n f).clock = h.clock := rfl
@[simp] theorem Hub.modSlot_links (f : SlotRec → SlotRec) : (h.modSlot n f).links = h.links := rfl
@[simp] theorem Hub.modSlot_ports (f : SlotRec → SlotRec) : (h.modSlot n f).ports = h.ports := rfl
@[simp] theorem Hub.modSlot_store (f : SlotRec → SlotRec) : (h.modSlot n f).store = h.store := rfl
@[simp] theorem Hub.modSlot_manager (f : SlotRec → SlotRec) : (h.modSlot n f).manager = h.manager := rfl
@[simp] theorem Hub.modSlot_timing (f : SlotRec → SlotRec) : (h.modSlot n f).timing = h.timing := rfl
@[simp] theorem Hub.modSlot_trecs (f : SlotRec → SlotRec) : (h.modSlot n f).trecs = h.trecs := rfl
@[simp] theorem Hub.modSlot_alarms (f : SlotRec → SlotRec) : (h.modSlot n f).alarms = h.alarms := rfl
@[simp] theorem Hub.modSlot_agent (f : SlotRec → SlotRec) : (h.modSlot n f).agent = h.agent := rfl
@[simp] theorem Hub.modSlot_port (f : SlotRec → SlotRec) : (h.modSlot n f).port = h.port := rfl
@[simp] theorem Hub.modSlot_config (f : SlotRec → SlotRec) : (h.modSlot n f).config = h.config := rfl
@[simp] theorem Hub.modSlot_tables (f : SlotRec → SlotRec) : (h.modSlot n f).tables = h.tables := rfl
@[simp] theorem Hub.modSlot_draws (f : SlotRec → SlotRec) : (h.modSlot n f).draws = h.draws := rfl

theorem Hub.modSlot_slots (f : SlotRec → SlotRec) : (h.modSlot n f).slots[m] = if n = m then f h.slots[n] else h.slots[m] := by
  simp only [Hub.modSlot, Fin.getElem_fin, Vector.getElem_set, Fin.val_inj]

theorem Hub.modSlot_self (f : SlotRec → SlotRec) : (h.modSlot n f).slots[n] = f h.slots[n] := by simp [Hub.modSlot]

@[simp] theorem Hub.modSlot_val (f : SlotRec → SlotRec) : (h.modSlot n f).slots[n.val] = f h.slots[n.val] := by simp [Hub.modSlot]

theorem Hub.modSlot_other (f : SlotRec → SlotRec) (hm : n ≠ m) : (h.modSlot n f).slots[m] = h.slots[m] := by
  rw [Hub.modSlot_slots, if_neg hm]

@[simp] theorem Hub.modSlot_modSlot (f g : SlotRec → SlotRec) : (h.modSlot n f).modSlot n g = h.modSlot n (g ∘ f) := by
  simp [Hub.modSlot]

/-! ## modLink -/

@[simp] theorem Hub.modLink_clock (f : Link → Link) : (h.modLink n f).clock = h.clock := rfl
@[simp] theorem Hub.modLink_ports (f : Link → Link) : (h.modLink n f).ports = h.ports := rfl
@[simp] theorem Hub.modLink_store (f : Link → Link) : (h.modLink n f).store = h.store := rfl
@[simp] theorem Hub.modLink_slots (f : Link → Link) : (h.modLink n f).slots = h.slots := rfl
@[simp] theorem Hub.modLink_manager (f : Link → Link) : (h.modLink n f).manager = h.manager := rfl
@[simp] theorem Hub.modLink_timing (f : Link → Link) : (h.modLink n f).timing = h.timing := rfl
@[simp] theorem Hub.modLink_trecs (f : Link → Link) : (h.modLink n f).trecs = h.trecs := rfl
@[simp] theorem Hub.modLink_alarms (f : Link → Link) : (h.modLink n f).alarms = h.alarms := rfl
@[simp] theorem Hub.modLink_agent (f : Link → Link) : (h.modLink n f).agent = h.agent := rfl
@[simp] theorem Hub.modLink_port (f : Link → Link) : (h.modLink n f).port = h.port := rfl
@[simp] theorem Hub.modLink_config (f : Link → Link) : (h.modLink n f).config = h.config := rfl
@[simp] theorem Hub.modLink_tables (f : Link → Link) : (h.modLink n f).tables = h.tables := rfl
@[simp] theorem Hub.modLink_draws (f : Link → Link) : (h.modLink n f).draws = h.draws := rfl

theorem Hub.modLink_links (f : Link → Link) : (h.modLink n f).links[m] = if n = m then f h.links[n] else h.links[m] := by
  simp only [Hub.modLink, Fin.getElem_fin, Vector.getElem_set, Fin.val_inj]

theorem Hub.modLink_self (f : Link → Link) : (h.modLink n f).links[n] = f h.links[n] := by simp [Hub.modLink]

@[simp] theorem Hub.modLink_val (f : Link → Link) : (h.modLink n f).links[n.val] = f h.links[n.val] := by simp [Hub.modLink]

theorem Hub.modLink_other (f : Link → Link) (hm : n ≠ m) : (h.modLink n f).links[m] = h.links[m] := by
  rw [Hub.modLink_links, if_neg hm]

@[simp] theorem Hub.modLink_modLink (f g : Link → Link) : (h.modLink n f).modLink n g = h.modLink n (g ∘ f) := by
  simp [Hub.modLink]

/-! ## modPort -/

@[simp] theorem Hub.modPort_clock (f : Port → Port) : (h.modPort n f).clock = h.clock := rfl
@[simp] theorem Hub.modPort_links (f : Port → Port) : (h.modPort n f).links = h.links := rfl
@[simp] theorem Hub.modPort_store (f : Port → Port) : (h.modPort n f).store = h.store := rfl
@[simp] theorem Hub.modPort_slots (f : Port → Port) : (h.modPort n f).slots = h.slots := rfl
@[simp] theorem Hub.modPort_manager (f : Port → Port) : (h.modPort n f).manager = h.manager := rfl
@[simp] theorem Hub.modPort_timing (f : Port → Port) : (h.modPort n f).timing = h.timing := rfl
@[simp] theorem Hub.modPort_trecs (f : Port → Port) : (h.modPort n f).trecs = h.trecs := rfl
@[simp] theorem Hub.modPort_alarms (f : Port → Port) : (h.modPort n f).alarms = h.alarms := rfl
@[simp] theorem Hub.modPort_agent (f : Port → Port) : (h.modPort n f).agent = h.agent := rfl
@[simp] theorem Hub.modPort_port (f : Port → Port) : (h.modPort n f).port = h.port := rfl
@[simp] theorem Hub.modPort_config (f : Port → Port) : (h.modPort n f).config = h.config := rfl
@[simp] theorem Hub.modPort_tables (f : Port → Port) : (h.modPort n f).tables = h.tables := rfl
@[simp] theorem Hub.modPort_draws (f : Port → Port) : (h.modPort n f).draws = h.draws := rfl

theorem Hub.modPort_ports (f : Port → Port) : (h.modPort n f).ports[m] = if n = m then f h.ports[n] else h.ports[m] := by
  simp only [Hub.modPort, Fin.getElem_fin, Vector.getElem_set, Fin.val_inj]

theorem Hub.modPort_self (f : Port → Port) : (h.modPort n f).ports[n] = f h.ports[n] := by simp [Hub.modPort]

@[simp] theorem Hub.modPort_val (f : Port → Port) : (h.modPort n f).ports[n.val] = f h.ports[n.val] := by simp [Hub.modPort]

theorem Hub.modPort_other (f : Port → Port) (hm : n ≠ m) : (h.modPort n f).ports[m] = h.ports[m] := by
  rw [Hub.modPort_ports, if_neg hm]

@[simp] theorem Hub.modPort_modPort (f g : Port → Port) : (h.modPort n f).modPort n g = h.modPort n (g ∘ f) := by
  simp [Hub.modPort]

/-! ## modTrec -/

@[simp] theorem Hub.modTrec_clock (f : TimingRec → TimingRec) : (h.modTrec n f).clock = h.clock := rfl
@[simp] theorem Hub.modTrec_links (f : TimingRec → TimingRec) : (h.modTrec n f).links = h.links := rfl
@[simp] theorem Hub.modTrec_ports (f : TimingRec → TimingRec) : (h.modTrec n f).ports = h.ports := rfl
@[simp] theorem Hub.modTrec_store (f : TimingRec → TimingRec) : (h.modTrec n f).store = h.store := rfl
@[simp] theorem Hub.modTrec_slots (f : TimingRec → TimingRec) : (h.modTrec n f).slots = h.slots := rfl
@[simp] theorem Hub.modTrec_manager (f : TimingRec → TimingRec) : (h.modTrec n f).manager = h.manager := rfl
@[simp] theorem Hub.modTrec_timing (f : TimingRec → TimingRec) : (h.modTrec n f).timing = h.timing := rfl
@[simp] theorem Hub.modTrec_alarms (f : TimingRec → TimingRec) : (h.modTrec n f).alarms = h.alarms := rfl
@[simp] theorem Hub.modTrec_agent (f : TimingRec → TimingRec) : (h.modTrec n f).agent = h.agent := rfl
@[simp] theorem Hub.modTrec_port (f : TimingRec → TimingRec) : (h.modTrec n f).port = h.port := rfl
@[simp] theorem Hub.modTrec_config (f : TimingRec → TimingRec) : (h.modTrec n f).config = h.config := rfl
@[simp] theorem Hub.modTrec_tables (f : TimingRec → TimingRec) : (h.modTrec n f).tables = h.tables := rfl
@[simp] theorem Hub.modTrec_draws (f : TimingRec → TimingRec) : (h.modTrec n f).draws = h.draws := rfl

theorem Hub.modTrec_trecs (f : TimingRec → TimingRec) : (h.modTrec n f).trecs[m] = if n = m then f h.trecs[n] else h.trecs[m] := by
  simp only [Hub.modTrec, Fin.getElem_fin, Vector.getElem_set, Fin.val_inj]

theorem Hub.modTrec_self (f : TimingRec → TimingRec) : (h.modTrec n f).trecs[n] = f h.trecs[n] := by simp [Hub.modTrec]

@[simp] theorem Hub.modTrec_val (f : TimingRec → TimingRec) : (h.modTrec n f).trecs[n.val] = f h.trecs[n.val] := by simp [Hub.modTrec]

theorem Hub.modTrec_other (f : TimingRec → TimingRec) (hm : n ≠ m) : (h.modTrec n f).trecs[m] = h.trecs[m] := by
  rw [Hub.modTrec_trecs, if_neg hm]

@[simp] theorem Hub.modTrec_modTrec (f g : TimingRec → TimingRec) : (h.modTrec n f).modTrec n g = h.modTrec n (g ∘ f) := by
  simp [Hub.modTrec]

/-! ## Messages -/

@[simp] theorem Hub.notice_clock (code : Byte) (body : Body) : (h.notice code body).clock = h.clock := rfl
@[simp] theorem Hub.notice_links (code : Byte) (body : Body) : (h.notice code body).links = h.links := rfl
@[simp] theorem Hub.notice_ports (code : Byte) (body : Body) : (h.notice code body).ports = h.ports := rfl
@[simp] theorem Hub.notice_store (code : Byte) (body : Body) : (h.notice code body).store = h.store := rfl
@[simp] theorem Hub.notice_slots (code : Byte) (body : Body) : (h.notice code body).slots = h.slots := rfl
@[simp] theorem Hub.notice_manager (code : Byte) (body : Body) : (h.notice code body).manager = h.manager := rfl
@[simp] theorem Hub.notice_timing (code : Byte) (body : Body) : (h.notice code body).timing = h.timing := rfl
@[simp] theorem Hub.notice_trecs (code : Byte) (body : Body) : (h.notice code body).trecs = h.trecs := rfl
@[simp] theorem Hub.notice_alarms (code : Byte) (body : Body) : (h.notice code body).alarms = h.alarms := rfl
@[simp] theorem Hub.notice_agent (code : Byte) (body : Body) : (h.notice code body).agent = h.agent := rfl
@[simp] theorem Hub.notice_config (code : Byte) (body : Body) : (h.notice code body).config = h.config := rfl
@[simp] theorem Hub.notice_tables (code : Byte) (body : Body) : (h.notice code body).tables = h.tables := rfl
@[simp] theorem Hub.notice_draws (code : Byte) (body : Body) : (h.notice code body).draws = h.draws := rfl

@[simp] theorem Hub.reply_clock (tag code : Byte) (status : Status) (body : Body) : (h.reply tag code status body).clock = h.clock := rfl
@[simp] theorem Hub.reply_links (tag code : Byte) (status : Status) (body : Body) : (h.reply tag code status body).links = h.links := rfl
@[simp] theorem Hub.reply_ports (tag code : Byte) (status : Status) (body : Body) : (h.reply tag code status body).ports = h.ports := rfl
@[simp] theorem Hub.reply_store (tag code : Byte) (status : Status) (body : Body) : (h.reply tag code status body).store = h.store := rfl
@[simp] theorem Hub.reply_slots (tag code : Byte) (status : Status) (body : Body) : (h.reply tag code status body).slots = h.slots := rfl
@[simp] theorem Hub.reply_manager (tag code : Byte) (status : Status) (body : Body) : (h.reply tag code status body).manager = h.manager := rfl
@[simp] theorem Hub.reply_timing (tag code : Byte) (status : Status) (body : Body) : (h.reply tag code status body).timing = h.timing := rfl
@[simp] theorem Hub.reply_trecs (tag code : Byte) (status : Status) (body : Body) : (h.reply tag code status body).trecs = h.trecs := rfl
@[simp] theorem Hub.reply_alarms (tag code : Byte) (status : Status) (body : Body) : (h.reply tag code status body).alarms = h.alarms := rfl
@[simp] theorem Hub.reply_agent (tag code : Byte) (status : Status) (body : Body) : (h.reply tag code status body).agent = h.agent := rfl
@[simp] theorem Hub.reply_config (tag code : Byte) (status : Status) (body : Body) : (h.reply tag code status body).config = h.config := rfl
@[simp] theorem Hub.reply_tables (tag code : Byte) (status : Status) (body : Body) : (h.reply tag code status body).tables = h.tables := rfl
@[simp] theorem Hub.reply_draws (tag code : Byte) (status : Status) (body : Body) : (h.reply tag code status body).draws = h.draws := rfl

@[simp] theorem Hub.answer_clock (r : Request) (status : Status) (body : Body) : (h.answer r status body).clock = h.clock := rfl
@[simp] theorem Hub.answer_links (r : Request) (status : Status) (body : Body) : (h.answer r status body).links = h.links := rfl
@[simp] theorem Hub.answer_ports (r : Request) (status : Status) (body : Body) : (h.answer r status body).ports = h.ports := rfl
@[simp] theorem Hub.answer_store (r : Request) (status : Status) (body : Body) : (h.answer r status body).store = h.store := rfl
@[simp] theorem Hub.answer_slots (r : Request) (status : Status) (body : Body) : (h.answer r status body).slots = h.slots := rfl
@[simp] theorem Hub.answer_manager (r : Request) (status : Status) (body : Body) : (h.answer r status body).manager = h.manager := rfl
@[simp] theorem Hub.answer_timing (r : Request) (status : Status) (body : Body) : (h.answer r status body).timing = h.timing := rfl
@[simp] theorem Hub.answer_trecs (r : Request) (status : Status) (body : Body) : (h.answer r status body).trecs = h.trecs := rfl
@[simp] theorem Hub.answer_alarms (r : Request) (status : Status) (body : Body) : (h.answer r status body).alarms = h.alarms := rfl
@[simp] theorem Hub.answer_agent (r : Request) (status : Status) (body : Body) : (h.answer r status body).agent = h.agent := rfl
@[simp] theorem Hub.answer_config (r : Request) (status : Status) (body : Body) : (h.answer r status body).config = h.config := rfl
@[simp] theorem Hub.answer_tables (r : Request) (status : Status) (body : Body) : (h.answer r status body).tables = h.tables := rfl
@[simp] theorem Hub.answer_draws (r : Request) (status : Status) (body : Body) : (h.answer r status body).draws = h.draws := rfl

@[simp] theorem Hub.popRequest_clock (rest : List Request) : (h.popRequest rest).clock = h.clock := rfl
@[simp] theorem Hub.popRequest_links (rest : List Request) : (h.popRequest rest).links = h.links := rfl
@[simp] theorem Hub.popRequest_ports (rest : List Request) : (h.popRequest rest).ports = h.ports := rfl
@[simp] theorem Hub.popRequest_store (rest : List Request) : (h.popRequest rest).store = h.store := rfl
@[simp] theorem Hub.popRequest_slots (rest : List Request) : (h.popRequest rest).slots = h.slots := rfl
@[simp] theorem Hub.popRequest_manager (rest : List Request) : (h.popRequest rest).manager = h.manager := rfl
@[simp] theorem Hub.popRequest_timing (rest : List Request) : (h.popRequest rest).timing = h.timing := rfl
@[simp] theorem Hub.popRequest_trecs (rest : List Request) : (h.popRequest rest).trecs = h.trecs := rfl
@[simp] theorem Hub.popRequest_alarms (rest : List Request) : (h.popRequest rest).alarms = h.alarms := rfl
@[simp] theorem Hub.popRequest_agent (rest : List Request) : (h.popRequest rest).agent = h.agent := rfl
@[simp] theorem Hub.popRequest_config (rest : List Request) : (h.popRequest rest).config = h.config := rfl
@[simp] theorem Hub.popRequest_tables (rest : List Request) : (h.popRequest rest).tables = h.tables := rfl
@[simp] theorem Hub.popRequest_draws (rest : List Request) : (h.popRequest rest).draws = h.draws := rfl

/-! ## Time, the sweep context, the inbox and the outputs -/

@[simp] theorem Hub.run_links (dt : Nat) : (h.run dt).links = h.links := rfl
@[simp] theorem Hub.run_ports (dt : Nat) : (h.run dt).ports = h.ports := rfl
@[simp] theorem Hub.run_store (dt : Nat) : (h.run dt).store = h.store := rfl
@[simp] theorem Hub.run_slots (dt : Nat) : (h.run dt).slots = h.slots := rfl
@[simp] theorem Hub.run_manager (dt : Nat) : (h.run dt).manager = h.manager := rfl
@[simp] theorem Hub.run_timing (dt : Nat) : (h.run dt).timing = h.timing := rfl
@[simp] theorem Hub.run_trecs (dt : Nat) : (h.run dt).trecs = h.trecs := rfl
@[simp] theorem Hub.run_alarms (dt : Nat) : (h.run dt).alarms = h.alarms := rfl
@[simp] theorem Hub.run_agent (dt : Nat) : (h.run dt).agent = h.agent := rfl
@[simp] theorem Hub.run_port (dt : Nat) : (h.run dt).port = h.port := rfl
@[simp] theorem Hub.run_config (dt : Nat) : (h.run dt).config = h.config := rfl
@[simp] theorem Hub.run_tables (dt : Nat) : (h.run dt).tables = h.tables := rfl
@[simp] theorem Hub.run_draws (dt : Nat) : (h.run dt).draws = h.draws := rfl

@[simp] theorem Hub.setSweep_clock (w : Sweep) : (h.setSweep w).clock = h.clock := rfl
@[simp] theorem Hub.setSweep_links (w : Sweep) : (h.setSweep w).links = h.links := rfl
@[simp] theorem Hub.setSweep_ports (w : Sweep) : (h.setSweep w).ports = h.ports := rfl
@[simp] theorem Hub.setSweep_store (w : Sweep) : (h.setSweep w).store = h.store := rfl
@[simp] theorem Hub.setSweep_slots (w : Sweep) : (h.setSweep w).slots = h.slots := rfl
@[simp] theorem Hub.setSweep_manager (w : Sweep) : (h.setSweep w).manager = h.manager := rfl
@[simp] theorem Hub.setSweep_timing (w : Sweep) : (h.setSweep w).timing = h.timing := rfl
@[simp] theorem Hub.setSweep_trecs (w : Sweep) : (h.setSweep w).trecs = h.trecs := rfl
@[simp] theorem Hub.setSweep_alarms (w : Sweep) : (h.setSweep w).alarms = h.alarms := rfl
@[simp] theorem Hub.setSweep_port (w : Sweep) : (h.setSweep w).port = h.port := rfl
@[simp] theorem Hub.setSweep_config (w : Sweep) : (h.setSweep w).config = h.config := rfl
@[simp] theorem Hub.setSweep_tables (w : Sweep) : (h.setSweep w).tables = h.tables := rfl
@[simp] theorem Hub.setSweep_draws (w : Sweep) : (h.setSweep w).draws = h.draws := rfl

@[simp] theorem Hub.popInbox_clock (rest : List InboxFrame) : (h.popInbox rest).clock = h.clock := rfl
@[simp] theorem Hub.popInbox_links (rest : List InboxFrame) : (h.popInbox rest).links = h.links := rfl
@[simp] theorem Hub.popInbox_ports (rest : List InboxFrame) : (h.popInbox rest).ports = h.ports := rfl
@[simp] theorem Hub.popInbox_store (rest : List InboxFrame) : (h.popInbox rest).store = h.store := rfl
@[simp] theorem Hub.popInbox_slots (rest : List InboxFrame) : (h.popInbox rest).slots = h.slots := rfl
@[simp] theorem Hub.popInbox_manager (rest : List InboxFrame) : (h.popInbox rest).manager = h.manager := rfl
@[simp] theorem Hub.popInbox_timing (rest : List InboxFrame) : (h.popInbox rest).timing = h.timing := rfl
@[simp] theorem Hub.popInbox_trecs (rest : List InboxFrame) : (h.popInbox rest).trecs = h.trecs := rfl
@[simp] theorem Hub.popInbox_alarms (rest : List InboxFrame) : (h.popInbox rest).alarms = h.alarms := rfl
@[simp] theorem Hub.popInbox_port (rest : List InboxFrame) : (h.popInbox rest).port = h.port := rfl
@[simp] theorem Hub.popInbox_config (rest : List InboxFrame) : (h.popInbox rest).config = h.config := rfl
@[simp] theorem Hub.popInbox_tables (rest : List InboxFrame) : (h.popInbox rest).tables = h.tables := rfl
@[simp] theorem Hub.popInbox_draws (rest : List InboxFrame) : (h.popInbox rest).draws = h.draws := rfl

@[simp] theorem Hub.judgeOutputs_clock : (h.judgeOutputs).clock = h.clock := rfl
@[simp] theorem Hub.judgeOutputs_links : (h.judgeOutputs).links = h.links := rfl
@[simp] theorem Hub.judgeOutputs_ports : (h.judgeOutputs).ports = h.ports := rfl
@[simp] theorem Hub.judgeOutputs_store : (h.judgeOutputs).store = h.store := rfl
@[simp] theorem Hub.judgeOutputs_slots : (h.judgeOutputs).slots = h.slots := rfl
@[simp] theorem Hub.judgeOutputs_manager : (h.judgeOutputs).manager = h.manager := rfl
@[simp] theorem Hub.judgeOutputs_timing : (h.judgeOutputs).timing = h.timing := rfl
@[simp] theorem Hub.judgeOutputs_trecs : (h.judgeOutputs).trecs = h.trecs := rfl
@[simp] theorem Hub.judgeOutputs_agent : (h.judgeOutputs).agent = h.agent := rfl
@[simp] theorem Hub.judgeOutputs_port : (h.judgeOutputs).port = h.port := rfl
@[simp] theorem Hub.judgeOutputs_config : (h.judgeOutputs).config = h.config := rfl
@[simp] theorem Hub.judgeOutputs_tables : (h.judgeOutputs).tables = h.tables := rfl
@[simp] theorem Hub.judgeOutputs_draws : (h.judgeOutputs).draws = h.draws := rfl

@[simp] theorem Hub.count_clock (f : PortCounters → PortCounters) : (h.count n f).clock = h.clock := rfl
@[simp] theorem Hub.count_links (f : PortCounters → PortCounters) : (h.count n f).links = h.links := rfl
@[simp] theorem Hub.count_store (f : PortCounters → PortCounters) : (h.count n f).store = h.store := rfl
@[simp] theorem Hub.count_slots (f : PortCounters → PortCounters) : (h.count n f).slots = h.slots := rfl
@[simp] theorem Hub.count_manager (f : PortCounters → PortCounters) : (h.count n f).manager = h.manager := rfl
@[simp] theorem Hub.count_timing (f : PortCounters → PortCounters) : (h.count n f).timing = h.timing := rfl
@[simp] theorem Hub.count_trecs (f : PortCounters → PortCounters) : (h.count n f).trecs = h.trecs := rfl
@[simp] theorem Hub.count_alarms (f : PortCounters → PortCounters) : (h.count n f).alarms = h.alarms := rfl
@[simp] theorem Hub.count_agent (f : PortCounters → PortCounters) : (h.count n f).agent = h.agent := rfl
@[simp] theorem Hub.count_port (f : PortCounters → PortCounters) : (h.count n f).port = h.port := rfl
@[simp] theorem Hub.count_config (f : PortCounters → PortCounters) : (h.count n f).config = h.config := rfl
@[simp] theorem Hub.count_tables (f : PortCounters → PortCounters) : (h.count n f).tables = h.tables := rfl
@[simp] theorem Hub.count_draws (f : PortCounters → PortCounters) : (h.count n f).draws = h.draws := rfl

@[simp] theorem Hub.refuse_clock (r : Request) (status : Status) : (h.refuse r status).clock = h.clock := rfl
@[simp] theorem Hub.refuse_links (r : Request) (status : Status) : (h.refuse r status).links = h.links := rfl
@[simp] theorem Hub.refuse_ports (r : Request) (status : Status) : (h.refuse r status).ports = h.ports := rfl
@[simp] theorem Hub.refuse_store (r : Request) (status : Status) : (h.refuse r status).store = h.store := rfl
@[simp] theorem Hub.refuse_slots (r : Request) (status : Status) : (h.refuse r status).slots = h.slots := rfl
@[simp] theorem Hub.refuse_manager (r : Request) (status : Status) : (h.refuse r status).manager = h.manager := rfl
@[simp] theorem Hub.refuse_timing (r : Request) (status : Status) : (h.refuse r status).timing = h.timing := rfl
@[simp] theorem Hub.refuse_trecs (r : Request) (status : Status) : (h.refuse r status).trecs = h.trecs := rfl
@[simp] theorem Hub.refuse_alarms (r : Request) (status : Status) : (h.refuse r status).alarms = h.alarms := rfl
@[simp] theorem Hub.refuse_agent (r : Request) (status : Status) : (h.refuse r status).agent = h.agent := rfl
@[simp] theorem Hub.refuse_config (r : Request) (status : Status) : (h.refuse r status).config = h.config := rfl
@[simp] theorem Hub.refuse_tables (r : Request) (status : Status) : (h.refuse r status).tables = h.tables := rfl

@[simp] theorem Hub.setSweep_sweep (w : Sweep) : (h.setSweep w).agent.sweep = w := rfl
@[simp] theorem Hub.setSweep_inbox (w : Sweep) : (h.setSweep w).agent.inbox = h.agent.inbox := rfl
@[simp] theorem Hub.popInbox_inbox (rest : List InboxFrame) : (h.popInbox rest).agent.inbox = rest := rfl
@[simp] theorem Hub.popInbox_sweep (rest : List InboxFrame) : (h.popInbox rest).agent.sweep = h.agent.sweep := rfl

/-! ## The host port -/

variable (p : HostPort)

@[simp] theorem Hub.notice_port (code : Byte) (body : Body) : (h.notice code body).port = h.port.notice code body := rfl
@[simp] theorem Hub.reply_port (tag code : Byte) (status : Status) (body : Body) :
    (h.reply tag code status body).port = h.port.reply tag code status body := rfl
@[simp] theorem Hub.answer_port (r : Request) (status : Status) (body : Body) :
    (h.answer r status body).port = h.port.reply r.tag r.code status body := rfl
@[simp] theorem Hub.popRequest_port (rest : List Request) : (h.popRequest rest).port = { h.port with inbound := rest } := rfl

/-- What producing a reply does to the port (R174). -/
@[simp] theorem HostPort.reply_replies (tag code : Byte) (status : Status) (body : Body) :
    (p.reply tag code status body).replies = p.replies + 1 := by simp [HostPort.reply, HostPort.replies]

@[simp] theorem HostPort.reply_notices (tag code : Byte) (status : Status) (body : Body) :
    (p.reply tag code status body).notices = p.notices := by simp [HostPort.reply, HostPort.notices]

@[simp] theorem HostPort.reply_inbound (tag code : Byte) (status : Status) (body : Body) :
    (p.reply tag code status body).inbound = p.inbound := rfl

@[simp] theorem HostPort.reply_openCount (tag code : Byte) (status : Status) (body : Body) :
    (p.reply tag code status body).openCount = p.openCount := rfl

@[simp] theorem HostPort.reply_resetPending (tag code : Byte) (status : Status) (body : Body) :
    (p.reply tag code status body).resetPending = p.resetPending := rfl

/-- What producing a notice does to the port: it leaves every reply, and what it adds is one notice, never a 25th (R174). -/
@[simp] theorem HostPort.notice_replies (code : Byte) (body : Body) : (p.notice code body).replies = p.replies := by
  unfold HostPort.notice; split <;> simp [HostPort.replies]

theorem HostPort.notice_notices (code : Byte) (body : Body) :
    (p.notice code body).notices = if 24 ≤ p.notices then p.notices else p.notices + 1 := by
  unfold HostPort.notice; split <;> simp [HostPort.notices]

theorem HostPort.notice_notices_le (code : Byte) (body : Body) (hp : p.notices ≤ 24) : (p.notice code body).notices ≤ 24 := by
  rw [HostPort.notice_notices]; split <;> omega

@[simp] theorem HostPort.notice_inbound (code : Byte) (body : Body) : (p.notice code body).inbound = p.inbound := by
  unfold HostPort.notice; split <;> rfl

@[simp] theorem HostPort.notice_openCount (code : Byte) (body : Body) : (p.notice code body).openCount = p.openCount := by
  unfold HostPort.notice; split <;> rfl

@[simp] theorem HostPort.notice_resetPending (code : Byte) (body : Body) :
    (p.notice code body).resetPending = p.resetPending := by
  unfold HostPort.notice; split <;> rfl

/-! ## Effects on the machine -/

/-- A command's effect on the hub alone ends in a next state (and in that one). -/
@[simp] theorem State.onHub_eq (s : State) (f : Hub → Hub) : s.onHub f = .next { s with hub := f s.hub } := rfl

end Sys2Proof.Machine
end

