-- ==== Sys2Proof/Laws/Bytes.lean ====
section
/-! SUPPORT. The encodings: lengths of what is encoded, and the reading back of a number that was written. -/

namespace Sys2Proof.Machine

/-! ## Numbers -/

@[simp] theorem be_length (k v : Nat) : (be k v).length = k := by
  induction k with
  | zero => rfl
  | succ k ih => simp [be, ih]

theorem ofBe_foldl (l : List Byte) (acc : Nat) :
    l.foldl (fun acc b => acc * 256 + b.toNat) acc = acc * 256 ^ l.length + ofBe l := by
  unfold ofBe
  induction l generalizing acc with
  | nil => simp
  | cons b l ih =>
    rw [List.foldl_cons, List.foldl_cons, ih, ih (0 * 256 + b.toNat), List.length_cons]
    ring

theorem ofBe_append (xs ys : List Byte) : ofBe (xs ++ ys) = ofBe xs * 256 ^ ys.length + ofBe ys := by
  rw [ofBe, List.foldl_append, ofBe_foldl, ← ofBe]

theorem ofBe_cons (b : Byte) (bs : List Byte) : ofBe (b :: bs) = b.toNat * 256 ^ bs.length + ofBe bs := by
  have := ofBe_append [b] bs
  simpa [ofBe] using this

/-- The number that the bytes of a number spell (R188): the number itself, when it fits. -/
theorem ofBe_be (k v : Nat) : ofBe (be k v) = v % 256 ^ k := by
  induction k with
  | zero => simp [be, ofBe, Nat.mod_one]
  | succ k ih =>
    rw [be, ofBe_cons, be_length, ih, BitVec.toNat_ofNat, show (2 : Nat) ^ 8 = 256 from rfl, Nat.pow_succ (n := 256),
      Nat.mod_mul]
    ring

theorem ofBe_lt (bs : List Byte) : ofBe bs < 256 ^ bs.length := by
  induction bs with
  | nil => simp [ofBe]
  | cons b bs ih =>
    rw [ofBe_cons, List.length_cons, Nat.pow_succ]
    have hb : b.toNat < 256 := b.isLt
    have : b.toNat * 256 ^ bs.length + 256 ^ bs.length ≤ 256 * 256 ^ bs.length := by nlinarith
    omega

/-- A field at the start of bytes, with what follows it. -/
theorem fieldAt_be (pre rest : List Byte) (off k v : Nat) (hoff : pre.length = off) :
    fieldAt (pre ++ (be k v ++ rest)) off k = v % 256 ^ k := by
  subst hoff
  rw [fieldAt, List.drop_left, List.take_left' (be_length k v), ofBe_be]

theorem fieldAt_be_zero (rest : List Byte) (k v : Nat) : fieldAt (be k v ++ rest) 0 k = v % 256 ^ k :=
  fieldAt_be [] rest 0 k v rfl

/-- A field behind a prefix is the field of what follows. -/
theorem fieldAt_append (pre rest : List Byte) (off k : Nat) (hoff : pre.length ≤ off) :
    fieldAt (pre ++ rest) off k = fieldAt rest (off - pre.length) k := by
  rw [fieldAt, fieldAt, List.drop_append, List.drop_eq_nil_of_le hoff, List.nil_append]

theorem fieldAt_lt (bs : List Byte) (off k : Nat) : fieldAt bs off k < 256 ^ k := by
  have h1 := ofBe_lt ((bs.drop off).take k)
  have h2 : ((bs.drop off).take k).length ≤ k := by simp
  exact lt_of_lt_of_le h1 (Nat.pow_le_pow_right (by norm_num) h2)

/-! ## Slots, masks, codes -/

theorem Slot.number_lt (n : Slot) : Slot.number n < 13 := by unfold Slot.number; omega

@[simp] theorem Slot.ofNumber_number (n : Slot) : Slot.ofNumber (Slot.number n) = some n := by
  unfold Slot.ofNumber Slot.number
  rw [dif_pos (by omega)]
  rfl

/-- A number is a slot's exactly when it is the number of one. -/
theorem Slot.ofNumber_eq_some (v : Nat) (n : Slot) : Slot.ofNumber v = some n ↔ v = Slot.number n := by
  simp only [Slot.ofNumber, Slot.number]; split
  · simp only [Option.some.injEq, Fin.ext_iff]; omega
  · simp; omega

theorem Mask.has_single (n m : Slot) : Mask.has (Mask.single n) m = decide (n = m) := by
  revert n m; decide

theorem Mask.has_insert (w : SlotMask) (n m : Slot) : Mask.has (Mask.insert w n) m = (Mask.has w m || decide (n = m)) := by
  rw [← Mask.has_single]; simp [Mask.has, Mask.insert]

theorem Mask.has_erase (w : SlotMask) (n m : Slot) : Mask.has (Mask.erase w n) m = (Mask.has w m && !decide (n = m)) := by
  rw [← Mask.has_single]; simp [Mask.has, Mask.erase, m.isLt]

theorem mem_allSlots (n : Slot) : n ∈ allSlots := by revert n; decide

@[simp] theorem Mask.mem_slots (w : SlotMask) (n : Slot) : n ∈ Mask.slots w ↔ Mask.has w n := by
  simp [Mask.slots, mem_allSlots]

/-- The mask of a list of slots put into it one by one. -/
theorem Mask.has_inserts (n : Slot) : ∀ (l : List Slot) (m : SlotMask),
    Mask.has (l.foldl Mask.insert m) n = true ↔ Mask.has m n = true ∨ n ∈ l
  | [], m => by simp
  | k :: l, m => by
    rw [List.foldl_cons, Mask.has_inserts n l, Mask.has_insert]
    simp only [Bool.or_eq_true, decide_eq_true_eq, List.mem_cons, or_assoc, @eq_comm _ k n]

/-- The remaining mask is the set of the failed slots (R168). -/
theorem Sweep.has_remaining (w : Sweep) (n : Slot) : Mask.has w.remaining n = true ↔ n ∈ w.failures.map (·.1) := by
  have h : w.remaining = (w.failures.map (·.1)).foldl Mask.insert 0 := by rw [List.foldl_map]; rfl
  rw [h, Mask.has_inserts]
  simp [Mask.has]

@[simp] theorem Mask.encode_length (w : SlotMask) : (Mask.encode w).length = 2 := be_length _ _

/-- A mask is read back from its two bytes (R188). -/
theorem Mask.ofValue_encode (w : SlotMask) : Mask.ofValue (ofBe (Mask.encode w)) = some w := by
  have hw : w.toNat < 4096 := w.isLt
  have hv : w.toNat * 2 % 256 ^ 2 = w.toNat * 2 := Nat.mod_eq_of_lt (by omega)
  have hs : w.toNat * 2 / 2 = w.toNat := by omega
  rw [Mask.encode, ofBe_be, hv, Mask.ofValue, if_pos (by omega), hs]
  simp

theorem boolOf_boolCode (b : Bool) : boolOf (boolCode b) = some b := by cases b <;> rfl

/-- A code is read back in the list it was taken from (R188). -/
theorem ofCode_codeIn {α : Type} [DecidableEq α] (l : List α) (a : α) (ha : a ∈ l) : ofCode l (codeIn l a) = some a := by
  simp only [ofCode, codeIn]
  have := List.idxOf_lt_length_of_mem ha
  simp [List.getElem?_eq_getElem this]

/-! ## Lengths -/

@[simp] theorem encTime_length (t : HubTime) : (encTime t).length = 10 := by simp [encTime]
@[simp] theorem encStamp_length (t : Stamp) : (encStamp t).length = 8 := by simp [encStamp]
@[simp] theorem encTimingState_length (t : TimingState) : (encTimingState t).length = 2 := by simp [encTimingState]
@[simp] theorem encKey_length (k : AlarmKey) : (encKey k).length = 4 := by simp [encKey]

@[simp] theorem encAlarmChange_length (position : Nat) (r : AlarmRec) (reason : AlarmReason) :
    (encAlarmChange position r reason).length = 26 := by simp [encAlarmChange]

@[simp] theorem Frame.encode_length (f : Frame) : f.encode.length = 12 + f.payload.length := by
  simp [Frame.encode]; omega

/-- A frame of at most 52 payload bytes takes one block (R42). -/
theorem Frame.blocks_le_one (f : Frame) (hf : f.payload.length ≤ 52) : f.blocks ≤ 1 := by
  unfold Frame.blocks; omega

end Sys2Proof.Machine
end

