-- ==== Sys2Proof/Laws/Alarms.lean ====
section
/-! SUPPORT. What raises, clears, permit judgments and placements of agent frames can do, said once: they are made of six elementary
moves, so whatever those keep, they keep. -/

namespace Sys2Proof.Machine

/-- What one step of a fold keeps, the fold keeps. -/
theorem foldl_keeps {α : Type} {P : Hub → Prop} {f : Hub → α → Hub} (hf : ∀ h a, P h → P (f h a)) (l : List α) {h : Hub}
    (hh : P h) : P (l.foldl f h) := by
  induction l generalizing h with
  | nil => exact hh
  | cons a l ih => exact ih (hf h a hh)

/-- A property of the hub that the six elementary moves of the Alarm Unit and of permits keep: a change of the alarm table that
keeps it legal, a notice, a permit set, a fence request handed over, a placement refused for lack of a block, and an agent
frame placed in an egress queue. -/
structure AlarmClosed (P : Hub → Prop) : Prop where
  alarms : ∀ h a, (h.alarms.Legal → a.Legal) → P h → P { h with alarms := a }
  notice : ∀ h code body, P h → P (h.notice code body)
  permit : ∀ h n b, P h → P (h.modTrec n fun r => { r with granted := b })
  fence : ∀ h l, P h → P { h with manager := { h.manager with fenceRequests := l } }
  refusal : ∀ h, P h → P { h with agent := { h.agent with reserveRefusals := h.agent.reserveRefusals + 1 } }
  placed : ∀ h n place frame, (place = .timing ∨ place = .control) → h.slots[n].state.takesAgent place → frame.payload.length ≤ 52 →
    h.store.freeReserve ≠ 0 → P h →
    P (({ h with store := h.store.put frame true 1 }.modPort n (·.enter place h.store.nextId)).schedule n)

/-! ## The alarm table's own operations keep it legal -/

theorem Alarms.Legal.lamps {a : Alarms} (ha : a.Legal) (l : Lamps) : { a with lamps := l }.Legal := ha

theorem Alarms.Legal.update {a : Alarms} (ha : a.Legal) (key : AlarmKey) (f : AlarmRec → AlarmRec)
    (hf : ∀ r, (f r).key = r.key) : (a.update key f).Legal := by
  obtain ⟨h1, h2, h3, h4⟩ := ha
  unfold Alarms.update
  split
  · refine ⟨?_, h2, h3, h4⟩
    intro r hr
    obtain ⟨q, hq, rfl⟩ := Option.map_eq_some_iff.mp hr
    rw [hf]; exact h1 q hq
  · have hk : ∀ r : AlarmRec, (if r.key = key then f r else r).key = r.key := by
      intro r; split <;> simp [hf]
    refine ⟨h1, ?_, by simpa using h3, ?_⟩
    · intro r hr
      obtain ⟨q, hq, rfl⟩ := List.mem_map.mp hr
      rw [hk]; exact h2 q hq
    · rw [List.map_map, show (AlarmRec.key ∘ fun r : AlarmRec => if r.key = key then f r else r) = AlarmRec.key from
        funext hk]
      exact h4

/-- The record that a search finds has the key searched, and stands in the table. -/
theorem Alarms.find_none {a : Alarms} {key : AlarmKey} (hf : a.find key = none) :
    (key.kind = .alarmTableFull → a.full = none) ∧ (key.kind ≠ .alarmTableFull → key ∉ a.recs.map (·.key)) := by
  unfold Alarms.find at hf
  split at hf
  · next hk => exact ⟨fun _ => by simpa using hf, fun h => absurd hk h⟩
  · next hk =>
    refine ⟨fun h => absurd h hk, fun _ => ?_⟩
    split at hf
    · cases hf
    · next hnone =>
      rw [List.find?_eq_none] at hnone
      intro hmem
      obtain ⟨r, hr, hrk⟩ := List.mem_map.mp hmem
      exact hnone r hr (by simp [hrk])

/-- Creation of a record whose key is not in the table (R139, R141). -/
theorem Alarms.Legal.create {a a' : Alarms} {r : AlarmRec} (ha : a.Legal) (hf : a.find r.key = none)
    (hc : a.create r = some a') : a'.Legal := by
  obtain ⟨h1, h2, h3, h4⟩ := ha
  have hnew := Alarms.find_none hf
  unfold Alarms.create at hc
  split at hc
  · next hk =>
    cases hc
    exact ⟨fun q hq => by cases hq; exact hk, h2, h3, h4⟩
  · next hk =>
    have hfresh := hnew.2 hk
    split at hc
    · next hlen =>
      cases hc
      refine ⟨h1, ?_, by simp; omega, ?_⟩
      · intro q hq
        rcases List.mem_append.mp hq with hq | hq
        · exact h2 q hq
        · rw [List.mem_singleton.mp hq]; exact hk
      · rw [List.map_append]
        refine List.Nodup.append h4 (List.nodup_singleton _) ?_
        simpa using hfresh
    · next hlen =>
      obtain ⟨i, hi, rfl⟩ := Option.map_eq_some_iff.mp hc
      have hsub : (a.recs.eraseIdx i).Sublist a.recs := List.eraseIdx_sublist ..
      refine ⟨h1, ?_, ?_, ?_⟩
      · intro q hq
        rcases List.mem_append.mp hq with hq | hq
        · exact h2 q (hsub.mem hq)
        · rw [List.mem_singleton.mp hq]; exact hk
      · have hil : i < a.recs.length := by
          unfold evictIdx at hi
          split at hi
          · next j hj =>
            cases hi
            exact (List.findIdx?_eq_some_iff_getElem.mp hj).1
          · exact (List.findIdx?_eq_some_iff_getElem.mp hi).1
        simp only [List.length_append, List.length_eraseIdx, List.length_singleton]
        split <;> omega
      · rw [List.map_append]
        refine List.Nodup.append (h4.sublist (hsub.map _)) (List.nodup_singleton _) ?_
        have : r.key ∉ (a.recs.eraseIdx i).map (·.key) := fun hm => hfresh ((hsub.map _).mem hm)
        simpa using this

/-! ## The operations, with the raises that follow from them -/

section again

variable {P : Hub → Prop} (hP : AlarmClosed P) {again : AlarmKey → Hub → Hub} (hagain : ∀ k h, P h → P (again k h))
include hP

theorem AlarmClosed.judgeOutputs {h : Hub} (hh : P h) : P h.judgeOutputs := hP.alarms h _ (fun ha => ha.lamps _) hh

theorem AlarmClosed.alarmNotice {h : Hub} (hh : P h) (position : Nat) (r : AlarmRec) (reason : AlarmReason) :
    P (h.alarmNotice position r reason) := by
  unfold Hub.alarmNotice
  split
  · exact hP.notice _ _ _ hh
  · exact hh

theorem AlarmClosed.changePermit {h : Hub} (hh : P h) (cause : PermitReason) (n : Slot) : P (Hub.changePermit cause h n) := by
  unfold Hub.changePermit
  simp only
  split
  · exact hh
  · exact hP.notice _ _ _ (hP.permit _ _ _ hh)

theorem AlarmClosed.fireFence {h : Hub} (hh : P h) (key : AlarmKey) : P (h.fireFence key) := by
  unfold Hub.fireFence
  split
  · split
    · exact hP.fence _ _ hh
    · exact hh
  · exact hh

include hagain

theorem AlarmClosed.placeWith {h : Hub} (hh : P h) (n : Slot) (place : Place) (frame : Frame) (hplace : place = .timing ∨ place = .control)
    (hlen : frame.payload.length ≤ 52) : P (h.placeWith again n place frame).1 := by
  unfold Hub.placeWith
  split
  · exact hh
  · next hst =>
    have hid : place ≠ .identify := by rcases hplace with rfl | rfl <;> decide
    simp only [if_neg hid]
    split
    · exact hagain _ _ (hP.refusal _ hh)
    · next hres => exact hP.placed _ _ _ _ hplace (by simpa using hst) hlen hres hh

theorem AlarmClosed.relayWith {h : Hub} (hh : P h) (position : Nat) (r : AlarmRec) (reason : AlarmReason) :
    P (h.relayWith again position r reason) := by
  unfold Hub.relayWith
  split
  · split
    · exact hP.placeWith hagain hh _ _ _ (by decide) (by simp [agentFrame])
    · exact hh
  · exact hh

/-- What is told of a changed record. -/
theorem AlarmClosed.tellWith {h : Hub} (hh : P h) (reason : AlarmReason) (changed : Nat × AlarmRec) :
    P (Hub.tellWith again reason h changed) := by
  unfold Hub.tellWith
  exact hP.relayWith hagain (hP.alarmNotice hh _ _ _) _ _ _

theorem AlarmClosed.judgePermitsWith {h : Hub} (hh : P h) (cause : PermitReason) (slots : List Slot) :
    P (h.judgePermitsWith again cause slots) := by
  unfold Hub.judgePermitsWith
  simp only
  refine foldl_keeps (P := P) (fun g p hg => hP.placeWith hagain hg _ _ _ (by decide) (by simp [agentFrame, permitUpdate])) _ ?_
  exact foldl_keeps (P := P) (fun g n hg => hP.changePermit hg cause n) _ hh

theorem AlarmClosed.judgeWithheldWith {old h : Hub} (hh : P h) : P (Hub.judgeWithheldWith again old h) := by
  unfold Hub.judgeWithheldWith
  exact hP.judgePermitsWith hagain hh _ _

theorem AlarmClosed.changedWith {old h : Hub} (hh : P h) (key : AlarmKey) (reason : AlarmReason) :
    P (Hub.changedWith again old key reason h) := by
  unfold Hub.changedWith
  simp only
  refine foldl_keeps (P := P) (fun g c hg => hP.tellWith hagain hg reason c) _
    (hP.judgeOutputs (hP.judgeWithheldWith hagain ?_))
  split
  · exact hP.fireFence hh _
  · exact hh

theorem AlarmClosed.raiseWith {h : Hub} (hh : P h) (key : AlarmKey) (reported : Option Severity) :
    P (h.raiseWith again key reported) := by
  unfold Hub.raiseWith
  simp only
  split
  · have hnew : P { h with alarms := h.alarms.update key (·.raised (h.kindEntry key.kind) reported h.stamp) } :=
      hP.alarms h _ (fun ha => ha.update key _ fun _ => rfl) hh
    split
    · exact hP.changedWith hagain hnew _ _
    · split
      · exact hP.changedWith hagain hnew _ _
      · exact hP.judgeOutputs hnew
  · next hnone =>
    split
    · next hc => exact hP.changedWith hagain (hP.alarms h _ (fun ha => ha.create hnone hc) hh) _ _
    · exact hagain _ _ hh

end again

/-! ## The operations that the other blocks use -/

section outer

variable {P : Hub → Prop} (hP : AlarmClosed P)
include hP

theorem AlarmClosed.raiseAt (depth : Nat) {h : Hub} (hh : P h) (key : AlarmKey) (reported : Option Severity) :
    P (Hub.raiseAt depth key reported h) := by
  induction depth generalizing h key reported with
  | zero => rw [Hub.raiseAt]; exact hh
  | succ depth ih => rw [Hub.raiseAt]; exact hP.raiseWith (fun k g hg => ih hg k none) hh key reported

theorem AlarmClosed.raiseReported {h : Hub} (hh : P h) (key : AlarmKey) (reported : Option Severity) :
    P (h.raiseReported key reported) := by
  unfold Hub.raiseReported; exact hP.raiseAt 8 hh key reported

/-- A raise. -/
theorem AlarmClosed.raise {h : Hub} (hh : P h) (key : AlarmKey) : P (h.raise key) := by
  unfold Hub.raise; exact hP.raiseReported hh key none

theorem AlarmClosed.raiseAgain (k : AlarmKey) (h : Hub) (hh : P h) : P (Machine.raiseAgain k h) := by
  unfold Machine.raiseAgain; exact hP.raise hh k

/-- An agent frame for an egress queue. -/
theorem AlarmClosed.place {h : Hub} (hh : P h) (n : Slot) (place : Place) (frame : Frame) (hplace : place = .timing ∨ place = .control)
    (hlen : frame.payload.length ≤ 52) : P (h.place n place frame).1 := by
  unfold Hub.place; exact hP.placeWith hP.raiseAgain hh n place frame hplace hlen

/-- A permit judged. -/
theorem AlarmClosed.judgePermit {h : Hub} (hh : P h) (cause : PermitReason) (n : Slot) : P (h.judgePermit cause n) := by
  unfold Hub.judgePermit; exact hP.judgePermitsWith hP.raiseAgain hh cause [n]

/-- Every permit judged. -/
theorem AlarmClosed.judgePermits {h : Hub} (hh : P h) (cause : PermitReason) : P (h.judgePermits cause) := by
  unfold Hub.judgePermits; exact hP.judgePermitsWith hP.raiseAgain hh cause allSlots

/-- A clear. -/
theorem AlarmClosed.clear {h : Hub} (hh : P h) (key : AlarmKey) : P (h.clear key) := by
  unfold Hub.clear
  split
  · split
    · have hnew : P { h with alarms := h.alarms.update key fun r => { r with active := false, lastChange := h.stamp } } :=
        hP.alarms h _ (fun ha => ha.update key _ fun _ => rfl) hh
      unfold Hub.changed
      exact hP.changedWith hP.raiseAgain hnew _ _
    · exact hh
  · exact hh

theorem AlarmClosed.clearReported {h : Hub} (hh : P h) (n : Slot) : P (h.clearReported n) := by
  unfold Hub.clearReported
  exact foldl_keeps (P := P) (fun h k hh => hP.clear hh k) _ hh

theorem AlarmClosed.clearIf {h : Hub} (hh : P h) (held : Bool) (key : AlarmKey) : P (h.clearIf held key) := by
  unfold Hub.clearIf; split
  · exact hP.clear hh key
  · exact hh

theorem AlarmClosed.raiseIf {h : Hub} (hh : P h) (cause : Bool) (key : AlarmKey) : P (h.raiseIf cause key) := by
  unfold Hub.raiseIf; split
  · exact hP.raise hh key
  · exact hh

theorem AlarmClosed.clearWait {h : Hub} (hh : P h) (n : Slot) (raised : Bool) : P (h.clearWait n raised) := by
  unfold Hub.clearWait; split
  · exact hP.clear hh _
  · exact hh

theorem AlarmClosed.follow {h : Hub} (hh : P h) (kind : AlarmKind) (was is : Bool) : P (h.follow kind was is) := by
  unfold Hub.follow; split
  · exact hP.raise hh _
  · split
    · exact hP.clear hh _
    · exact hh

/-- What follows the change of several records in one event. -/
theorem AlarmClosed.changedAll {old h : Hub} (hh : P h) (keys : List AlarmKey) (reason : AlarmReason) :
    P (Hub.changedAll old keys reason h) := by
  unfold Hub.changedAll
  have h0 : P (Hub.judgeWithheldWith Machine.raiseAgain old h).judgeOutputs :=
    hP.judgeOutputs (hP.judgeWithheldWith hP.raiseAgain hh)
  exact foldl_keeps (P := P) (fun h c hh => hP.tellWith hP.raiseAgain hh reason c) _ h0

end outer

end Sys2Proof.Machine
end

