-- ==== Sys2Proof/Laws/Quiet.lean ====
section
/-! SUPPORT. The frame of the Alarm Unit, the permits and the agent's placements: what a raise, a clear, a judgment of a permit or the
placing of an agent frame leaves as it was. -/

namespace Sys2Proof.Machine

/-- `g` differs from `h` at most in the alarm table, the notices that wait, the fence requests, the reserve refusals, the
stored frames and the TIMING and CONTROL queues, what links are sending, and the permits. -/
structure Hub.Quiet (h g : Hub) : Prop where
  clock : g.clock = h.clock
  slots : g.slots = h.slots
  timing : g.timing = h.timing
  config : g.config = h.config
  tables : g.tables = h.tables
  draws : g.draws = h.draws
  waitList : g.manager.waitList = h.manager.waitList
  startUpDue : g.manager.startUpDue = h.manager.startUpDue
  startUpAt : g.manager.startUpAt = h.manager.startUpAt
  agent : g.agent = { h.agent with reserveRefusals := g.agent.reserveRefusals }
  links : ∀ n : Slot, g.links[n] = { h.links[n] with tx := g.links[n].tx }
  ports : ∀ n : Slot, g.ports[n] = { h.ports[n] with timingQ := g.ports[n].timingQ, controlQ := g.ports[n].controlQ }
  trecs : ∀ n : Slot, g.trecs[n] = { h.trecs[n] with granted := g.trecs[n].granted }
  port : g.port = { h.port with outbound := g.port.outbound, noticesLost := g.port.noticesLost, attn := g.port.attn,
                                noticesDiscarded := g.port.noticesDiscarded }
  replies : g.port.outbound.filter (·.isReply) = h.port.outbound.filter (·.isReply)

theorem Hub.Quiet.refl (h : Hub) : Hub.Quiet h h := by constructor <;> intros <;> rfl

theorem Hub.Quiet.trans {h g k : Hub} (a : Hub.Quiet h g) (b : Hub.Quiet g k) : Hub.Quiet h k where
  clock := b.clock.trans a.clock
  slots := b.slots.trans a.slots
  timing := b.timing.trans a.timing
  config := b.config.trans a.config
  tables := b.tables.trans a.tables
  draws := b.draws.trans a.draws
  waitList := b.waitList.trans a.waitList
  startUpDue := b.startUpDue.trans a.startUpDue
  startUpAt := b.startUpAt.trans a.startUpAt
  agent := b.agent.trans (by rw [a.agent])
  links n := (b.links n).trans (by rw [a.links n])
  ports n := (b.ports n).trans (by rw [a.ports n])
  trecs n := (b.trecs n).trans (by rw [a.trecs n])
  port := b.port.trans (by rw [a.port])
  replies := b.replies.trans a.replies

/-- What the scheduler's judgment does (R45): nothing, or it hands an entry over on a LOCKED link that sends nothing. -/
theorem Hub.schedule_cases (h : Hub) (n : Slot) :
    h.schedule n = h ∨ ∃ t, h.links[n].state = .locked ∧ h.links[n].tx = none ∧
      h.schedule n = h.modLink n fun l => { l with tx := some t } := by
  unfold Hub.schedule
  split
  · next hl =>
    simp only [Bool.and_eq_true, beq_iff_eq, Option.isNone_iff_eq_none] at hl
    split
    · exact .inl rfl
    · exact .inr ⟨_, hl.1, hl.2, rfl⟩
  · exact .inl rfl

/-- A change of one link that leaves all but what it sends. -/
theorem Hub.Quiet.modLink (h : Hub) (n : Slot) (f : Link → Link) (hf : ∀ l, f l = { l with tx := (f l).tx }) :
    Hub.Quiet h (h.modLink n f) := by
  constructor <;> intros <;> try rfl
  next m =>
    by_cases hm : n = m
    · subst hm; rw [Hub.modLink_self]; exact hf _
    · rw [Hub.modLink_other _ _ _ _ hm]

theorem Hub.Quiet.schedule (h : Hub) (n : Slot) : Hub.Quiet h (h.schedule n) := by
  rcases h.schedule_cases n with he | ⟨t, -, -, he⟩
  · rw [he]; exact .refl h
  · rw [he]; exact .modLink h n _ fun _ => rfl

theorem Hub.Quiet.notice (h : Hub) (code : Byte) (body : Body) : Hub.Quiet h (h.notice code body) := by
  constructor <;> intros <;> try rfl
  · rw [Hub.notice_port]; unfold HostPort.notice; split <;> rfl
  · rw [Hub.notice_port]; unfold HostPort.notice; split <;> simp

/-- A placement in the TIMING or the CONTROL queue. -/
theorem Hub.Quiet.placed (h : Hub) (n : Slot) (place : Place) (frame : Frame) (hplace : place = .timing ∨ place = .control) :
    Hub.Quiet h (({ h with store := h.store.put frame true 1 }.modPort n (·.enter place h.store.nextId)).schedule n) := by
  refine Hub.Quiet.trans ?_ (Hub.Quiet.schedule _ n)
  constructor <;> intros <;> try rfl
  next m =>
    by_cases hm : n = m
    · subst hm; rw [Hub.modPort_self]; rcases hplace with rfl | rfl <;> rfl
    · rw [Hub.modPort_other _ _ _ _ hm]

/-- The six elementary moves are quiet. -/
theorem Hub.Quiet.closed (h : Hub) : AlarmClosed (Hub.Quiet h) where
  alarms g a _ hg := hg.trans (by constructor <;> intros <;> rfl)
  notice g code body hg := hg.trans (.notice g code body)
  permit g n b hg := hg.trans (by
    constructor <;> intros <;> try rfl
    next m =>
      by_cases hm : n = m
      · subst hm; rw [Hub.modTrec_self]
      · rw [Hub.modTrec_other _ _ _ _ hm])
  fence g l hg := hg.trans (by constructor <;> intros <;> rfl)
  refusal g hg := hg.trans (by constructor <;> intros <;> rfl)
  placed g n place frame hplace _ _ _ hg := hg.trans (.placed g n place frame hplace)

/-! ## The operations are quiet -/

theorem Hub.raise_quiet (h : Hub) (key : AlarmKey) : Hub.Quiet h (h.raise key) := (Quiet.closed h).raise (.refl h) key

theorem Hub.raiseReported_quiet (h : Hub) (key : AlarmKey) (reported : Option Severity) :
    Hub.Quiet h (h.raiseReported key reported) := (Quiet.closed h).raiseReported (.refl h) key reported

theorem Hub.clear_quiet (h : Hub) (key : AlarmKey) : Hub.Quiet h (h.clear key) := (Quiet.closed h).clear (.refl h) key

theorem Hub.clearIf_quiet (h : Hub) (held : Bool) (key : AlarmKey) : Hub.Quiet h (h.clearIf held key) :=
  (Quiet.closed h).clearIf (.refl h) held key

theorem Hub.raiseIf_quiet (h : Hub) (cause : Bool) (key : AlarmKey) : Hub.Quiet h (h.raiseIf cause key) :=
  (Quiet.closed h).raiseIf (.refl h) cause key

theorem Hub.clearWait_quiet (h : Hub) (n : Slot) (raised : Bool) : Hub.Quiet h (h.clearWait n raised) :=
  (Quiet.closed h).clearWait (.refl h) n raised

theorem Hub.clearReported_quiet (h : Hub) (n : Slot) : Hub.Quiet h (h.clearReported n) :=
  (Quiet.closed h).clearReported (.refl h) n

theorem Hub.judgePermit_quiet (h : Hub) (cause : PermitReason) (n : Slot) : Hub.Quiet h (h.judgePermit cause n) :=
  (Quiet.closed h).judgePermit (.refl h) cause n

theorem Hub.judgePermits_quiet (h : Hub) (cause : PermitReason) : Hub.Quiet h (h.judgePermits cause) :=
  (Quiet.closed h).judgePermits (.refl h) cause

theorem Hub.judgeOutputs_quiet (h : Hub) : Hub.Quiet h h.judgeOutputs := (Quiet.closed h).judgeOutputs (.refl h)

theorem Hub.follow_quiet (h : Hub) (kind : AlarmKind) (was is : Bool) : Hub.Quiet h (h.follow kind was is) :=
  (Quiet.closed h).follow (.refl h) kind was is

theorem Hub.changedAll_quiet (old h : Hub) (keys : List AlarmKey) (reason : AlarmReason) :
    Hub.Quiet h (Hub.changedAll old keys reason h) := (Quiet.closed h).changedAll (.refl h) keys reason

/-- An agent frame for the TIMING or the CONTROL queue. -/
theorem Hub.place_quiet (h : Hub) (n : Slot) (place : Place) (frame : Frame) (hplace : place = .timing ∨ place = .control)
    (hlen : frame.payload.length ≤ 52) : Hub.Quiet h (h.place n place frame).1 :=
  (Quiet.closed h).place (.refl h) n place frame hplace hlen

/-! ## What a quiet step leaves, part by part -/

namespace Hub.Quiet

variable {h g : Hub} (q : Hub.Quiet h g)
include q

theorem slot (n : Slot) : g.slots[n] = h.slots[n] := by simp only [q.slots]
theorem inbound : g.port.inbound = h.port.inbound := by rw [q.port]
theorem openCount : g.port.openCount = h.port.openCount := by rw [q.port]
theorem resetPending : g.port.resetPending = h.port.resetPending := by rw [q.port]
theorem overrun : g.port.overrun = h.port.overrun := by rw [q.port]
theorem replyCount : g.port.replies = h.port.replies := congrArg List.length q.replies
theorem inbox : g.agent.inbox = h.agent.inbox := by rw [q.agent]
theorem sweep : g.agent.sweep = h.agent.sweep := by rw [q.agent]
theorem linkState (n : Slot) : g.links[n].state = h.links[n].state := by rw [q.links n]
theorem linkHold (n : Slot) : g.links[n].hold = h.links[n].hold := by rw [q.links n]
theorem linkRx (n : Slot) : g.links[n].rx = h.links[n].rx := by rw [q.links n]
theorem monitor (n : Slot) : g.links[n].monitor = h.links[n].monitor := by rw [q.links n]
theorem helloCount (n : Slot) : g.links[n].helloCount = h.links[n].helloCount := by rw [q.links n]
theorem counters (n : Slot) : g.ports[n].counters = h.ports[n].counters := by rw [q.ports n]
theorem bulkQ (n : Slot) : g.ports[n].bulkQ = h.ports[n].bulkQ := by rw [q.ports n]
theorem identify (n : Slot) : g.ports[n].identify = h.ports[n].identify := by rw [q.ports n]
theorem handedOn (n : Slot) : g.ports[n].handedOn = h.ports[n].handedOn := by rw [q.ports n]
theorem window (n : Slot) : g.trecs[n].window = h.trecs[n].window := by rw [q.trecs n]
theorem target (n : Slot) : g.trecs[n].target = h.trecs[n].target := by rw [q.trecs n]
theorem applied (n : Slot) : g.trecs[n].applied = h.trecs[n].applied := by rw [q.trecs n]
theorem probe (n : Slot) : g.trecs[n].probe = h.trecs[n].probe := by rw [q.trecs n]
theorem report (n : Slot) : g.trecs[n].report = h.trecs[n].report := by rw [q.trecs n]
theorem misses (n : Slot) : g.trecs[n].misses = h.trecs[n].misses := by rw [q.trecs n]
theorem pathLost (n : Slot) : g.trecs[n].pathLost = h.trecs[n].pathLost := by rw [q.trecs n]
theorem phaseCond (n : Slot) : g.trecs[n].phaseCond = h.trecs[n].phaseCond := by rw [q.trecs n]

/-- Committed power stays (R61). -/
theorem committed : g.committed = h.committed := by simp only [Hub.committed, q.slots]

end Hub.Quiet

end Sys2Proof.Machine
end

