-- ==== Sys2Proof/Laws/Store.lean ====
section
/-! SUPPORT. The frame store (R34 to R36): storing a frame and the going of one entry keep its accounts. -/

namespace Sys2Proof.Machine

theorem Store.Legal.put {st : Store} (hs : st.Legal) (frame : Frame) (fromAgent : Bool) (refs : Nat)
    (hroom : if fromAgent then st.reserveUsed + frame.blocks ≤ 64 else st.sharedUsed + frame.blocks ≤ 1984) :
    (st.put frame fromAgent refs).Legal := by
  obtain ⟨h1, h2, h3, h4, h5, h6⟩ := hs
  refine ⟨?_, ?_, ?_, ?_, ?_, ?_⟩
  · simp only [Store.put, List.map_append, List.map_cons, List.map_nil]
    refine List.Nodup.append h1 (List.nodup_singleton _) ?_
    simp only [List.disjoint_singleton, List.mem_map, not_exists, not_and]
    intro f hf he
    exact absurd (h2 f hf) (by omega)
  · intro f hf
    simp only [Store.put, List.mem_append, List.mem_singleton] at hf ⊢
    rcases hf with hf | rfl
    · exact lt_trans (h2 f hf) (Nat.lt_succ_self _)
    · exact Nat.lt_succ_self _
  all_goals cases fromAgent <;> simp_all [Store.put]

theorem Store.find_some {st : Store} {id : Nat} {f : StoredFrame} (hf : st.find id = some f) : f ∈ st.frames ∧ f.id = id := by
  unfold Store.find at hf
  exact ⟨List.mem_of_find?_eq_some hf, by simpa using List.find?_some hf⟩

theorem sum_filter_ne {l : List StoredFrame} (hn : (l.map (·.id)).Nodup) {f : StoredFrame} (hf : f ∈ l) (p : StoredFrame → Bool) :
    ((l.filter p).map (·.blocks)).sum =
      (((l.filter fun g => g.id != f.id).filter p).map (·.blocks)).sum + if p f then f.blocks else 0 := by
  induction l with
  | nil => cases hf
  | cons a l ih =>
    simp only [List.map_cons, List.nodup_cons] at hn
    rcases List.mem_cons.mp hf with rfl | hf
    · have hl : l.filter (fun g => g.id != f.id) = l := by
        rw [List.filter_eq_self]
        intro g hg
        simp only [bne_iff_ne, ne_eq]
        intro he
        exact hn.1 (List.mem_map.mpr ⟨g, hg, he⟩)
      rw [List.filter_cons (p := fun g : StoredFrame => g.id != f.id)]
      simp only [bne_self_eq_false, Bool.false_eq_true, if_false, hl]
      rw [List.filter_cons]
      split <;> simp [Nat.add_comm]
    · have hne : a.id ≠ f.id := fun he => hn.1 (List.mem_map.mpr ⟨f, hf, he.symm⟩)
      rw [List.filter_cons (p := fun g : StoredFrame => g.id != f.id), if_pos (by simpa using hne), List.filter_cons, List.filter_cons]
      have := ih hn.2 hf
      by_cases hp : p a
      · simp only [hp, if_true, List.map_cons, List.sum_cons]; omega
      · simp only [hp]; exact this

theorem Store.Legal.deref {st : Store} (hs : st.Legal) (id : Nat) : (st.deref id).Legal := by
  obtain ⟨h1, h2, h3, h4, h5, h6⟩ := hs
  unfold Store.deref
  split
  · exact ⟨h1, h2, h3, h4, h5, h6⟩
  · next f hf =>
    obtain ⟨hm, rfl⟩ := Store.find_some hf
    split
    · have s1 := sum_filter_ne h1 hm fun g => !g.fromAgent
      have s2 := sum_filter_ne h1 hm fun g => g.fromAgent
      refine ⟨h1.sublist ((List.filter_sublist).map _), fun g hg => h2 g (List.mem_of_mem_filter hg), ?_, ?_, ?_, ?_⟩
      all_goals
        simp only
        cases hfa : f.fromAgent <;> simp only [hfa, Bool.not_true, Bool.not_false, if_true, if_false, Bool.false_eq_true] at *
        all_goals omega
    · have hb : ∀ (p : StoredFrame → Bool), (∀ g r, p { g with refs := r } = p g) →
          ((st.frames.map fun g => if g.id = f.id then { g with refs := g.refs - 1 } else g).filter p).map (·.blocks) =
            (st.frames.filter p).map (·.blocks) := by
        intro p hp
        rw [List.filter_map, List.map_map]
        have e1 : (p ∘ fun g : StoredFrame => if g.id = f.id then { g with refs := g.refs - 1 } else g) = p := by
          funext g; simp only [Function.comp]; split <;> simp [hp]
        have e2 : ((fun g : StoredFrame => g.blocks) ∘ fun g : StoredFrame =>
            if g.id = f.id then { g with refs := g.refs - 1 } else g) = fun g => g.blocks := by
          funext g; simp only [Function.comp]; split <;> rfl
        rw [e1, e2]
      refine ⟨?_, ?_, ?_, ?_, h5, h6⟩
      · simp only [List.map_map]
        rw [show ((fun g : StoredFrame => g.id) ∘ fun g : StoredFrame =>
            if g.id = f.id then { g with refs := g.refs - 1 } else g) = fun g => g.id from by
          funext g; simp only [Function.comp]; split <;> rfl]
        exact h1
      · intro g hg
        obtain ⟨q, hq, rfl⟩ := List.mem_map.mp hg
        have := h2 q hq
        split <;> exact this
      · simp only; rw [hb _ (fun _ _ => rfl)]; exact h3
      · simp only; rw [hb _ (fun _ _ => rfl)]; exact h4

theorem Store.Legal.derefAll {st : Store} (hs : st.Legal) (ids : List Nat) : (ids.foldl Store.deref st).Legal := by
  induction ids generalizing st with
  | nil => exact hs
  | cons i ids ih => exact ih (hs.deref i)


end Sys2Proof.Machine
end

