-- ==== Sys2Proof/Laws/Moves.lean ====
section
/-! SUPPORT. What an event of the hub is made of: elementary moves, each with what it promises of the record it changes. Everything
that the slots, the links, the clock, the references, the arbiter and the sweeps do between the taking of a request and its reply is
a run of these moves; so whatever each of them keeps, every such event keeps. -/

namespace Sys2Proof.Machine

/-- A slot record keeps its state, its class, its outputs and its place in the wait list. -/
structure SlotRec.Same (r r' : SlotRec) : Prop where
  state : r'.state = r.state
  powerClass : r'.powerClass = r.powerClass
  waitStart : r'.waitStart = r.waitStart
  pwrEn : r'.pwrEn = r.pwrEn
  cardRst : r'.cardRst = r.cardRst
  safe : r'.safe = r.safe

/-- A slot record goes from `r` to `r'` under the promises of the Slot Manager: outputs that followed the state follow it still, no
slot becomes powered, and no slot in the wait list leaves SEATED. -/
structure SlotRec.Goes (waiting : Prop) (r r' : SlotRec) : Prop where
  outputs : r.OutputsLegal → r'.OutputsLegal
  power : r'.state.powered → r.state.powered ∧ r'.powerClass = r.powerClass
  wait : waiting → r.state = .seated → r'.state = .seated
  waitStart : r'.waitStart = r.waitStart

/-- An elementary move. `strict` asks of a change of the sweep context that it keep it legal; only the taking of a sweep, whose
slots are queried one by one, does without. -/
inductive Hub.Move (strict : Bool) (h : Hub) : Hub → Prop
  | clock (c : Clock) (hc : h.clock.now.Legal → c.now.Legal) : Move strict h { h with clock := c }
  | links (v : Vector Link 12) (hv : ∀ n : Slot, h.links[n].Legal → v[n].Legal) : Move strict h { h with links := v }
  | ports (v : Vector Port 12) (hv : ∀ n : Slot, h.ports[n].Legal → v[n].Legal) : Move strict h { h with ports := v }
  | store (st : Store) (hs : h.store.Legal → st.Legal) : Move strict h { h with store := st }
  | slots (v : Vector SlotRec 12) (hv : ∀ n : Slot, (h.slots[n]).Goes (n ∈ h.manager.waitList) v[n]) :
    Move strict h { h with slots := v }
  | join (n : Slot) (hn : n ∉ h.manager.waitList) (hs : h.slots[n].state = .seated) : Move strict h (h.join n)
  | unjoin (n : Slot) : Move strict h (h.unjoin n)
  | grant (n : Slot) (hn : n ∈ h.manager.waitList) (hb : h.committed + h.slots[n].watts ≤ h.tables.budget) :
    Move strict h (h.grant n)
  | manager (m : Manager) (hm : m.waitList = h.manager.waitList) : Move strict h { h with manager := m }
  | timing (t : Timing) (hs : h.timing.SelectionLegal → t.SelectionLegal) (hl : h.timing.ListLegal → t.ListLegal) :
    Move strict h { h with timing := t }
  | trecs (v : Vector TimingRec 12) (hv : ∀ n : Slot, h.trecs[n].Legal → v[n].Legal) : Move strict h { h with trecs := v }
  | alarms (a : Alarms) (ha : h.alarms.Legal → a.Legal) : Move strict h { h with alarms := a }
  | agent (a : Agent) (hs : a.sweep = h.agent.sweep) (hi : h.agent.inbox.length ≤ 16 → a.inbox.length ≤ 16) :
    Move strict h { h with agent := a }
  | sweep (w : Sweep) (hf : w.inFlight = h.agent.sweep.inFlight) (hw : strict = true → h.agent.sweep.Legal → w.Legal) :
    Move strict h (h.setSweep w)
  | endSweep (hf : h.agent.sweep.inFlight = true) : Move strict h h.endSweep
  | notice (code : Byte) (body : Body) : Move strict h (h.notice code body)
  | draws (d : Nat) : Move strict h { h with draws := d }

/-- A run of moves. -/
abbrev Hub.MovesWith (strict : Bool) : Hub → Hub → Prop := Relation.ReflTransGen (Hub.Move strict)

/-- A run of moves that keep the sweep context legal. -/
abbrev Hub.Moves : Hub → Hub → Prop := Hub.MovesWith true

section

variable {strict : Bool} {h g : Hub}

theorem Hub.Move.loose (m : Hub.Move true h g) : Hub.Move strict h g := by
  cases m with
  | clock c hc => exact .clock c hc
  | links v hv => exact .links v hv
  | ports v hv => exact .ports v hv
  | store st hs => exact .store st hs
  | slots v hv => exact .slots v hv
  | join n hn hs => exact .join n hn hs
  | unjoin n => exact .unjoin n
  | grant n hn hb => exact .grant n hn hb
  | manager m hm => exact .manager m hm
  | timing t hs hl => exact .timing t hs hl
  | trecs v hv => exact .trecs v hv
  | alarms a ha => exact .alarms a ha
  | agent a hs hi => exact .agent a hs hi
  | sweep w hf hw => exact .sweep w hf fun _ => hw rfl
  | endSweep hf => exact .endSweep hf
  | notice code body => exact .notice code body
  | draws d => exact .draws d

theorem Hub.Moves.loose (m : Hub.Moves h g) : Hub.MovesWith strict h g := by
  induction m with
  | refl => exact .refl
  | tail _ m ih => exact ih.tail m.loose

/-! ## One record changed by a function -/

theorem Hub.Moves.refl {h : Hub} : Hub.Moves h h := Relation.ReflTransGen.refl

theorem Hub.Move.link (n : Slot) (f : Link → Link) (hf : h.links[n].Legal → (f h.links[n]).Legal) :
    Hub.Move strict h (h.modLink n f) := by
  refine .links (h.modLink n f).links fun m hm => ?_
  rw [Hub.modLink_links]; split
  · next he => subst he; exact hf hm
  · exact hm

theorem Hub.Move.port (n : Slot) (f : Port → Port) (hf : h.ports[n].Legal → (f h.ports[n]).Legal) :
    Hub.Move strict h (h.modPort n f) := by
  refine .ports (h.modPort n f).ports fun m hm => ?_
  rw [Hub.modPort_ports]; split
  · next he => subst he; exact hf hm
  · exact hm

theorem Hub.Move.trec (n : Slot) (f : TimingRec → TimingRec) (hf : h.trecs[n].Legal → (f h.trecs[n]).Legal) :
    Hub.Move strict h (h.modTrec n f) := by
  refine .trecs (h.modTrec n f).trecs fun m hm => ?_
  rw [Hub.modTrec_trecs]; split
  · next he => subst he; exact hf hm
  · exact hm

theorem SlotRec.Same.goes {r r' : SlotRec} (hs : r.Same r') (waiting : Prop) : r.Goes waiting r' where
  outputs ho := by
    simp only [SlotRec.OutputsLegal, hs.state, hs.pwrEn, hs.cardRst, hs.safe] at *; exact ho
  power hp := ⟨by rw [← hs.state]; exact hp, hs.powerClass⟩
  wait _ hr := hs.state.trans hr
  waitStart := hs.waitStart

theorem SlotRec.Same.refl (r : SlotRec) : r.Same r := ⟨rfl, rfl, rfl, rfl, rfl, rfl⟩

theorem Hub.Move.slot (n : Slot) (f : SlotRec → SlotRec) (hf : (h.slots[n]).Goes (n ∈ h.manager.waitList) (f h.slots[n])) :
    Hub.Move strict h (h.modSlot n f) := by
  refine .slots (h.modSlot n f).slots fun m => ?_
  rw [Hub.modSlot_slots]; split
  · next he => subst he; exact hf
  · exact (SlotRec.Same.refl _).goes _

/-- A change of a slot record that keeps its state, class, outputs and wait start. -/
theorem Hub.Move.slotSame (n : Slot) (f : SlotRec → SlotRec) (hf : (h.slots[n]).Same (f h.slots[n])) :
    Hub.Move strict h (h.modSlot n f) := .slot n f (hf.goes _)

theorem Hub.Move.count (n : Slot) (f : PortCounters → PortCounters) : Hub.Move strict h (h.count n f) :=
  .port n _ fun hp => hp

/-! ## Ports, links and placements -/

theorem Port.Legal.enter {p : Port} (hp : p.Legal) (place : Place) (id : Nat) : (p.enter place id).Legal := by
  cases place <;> exact hp

/-- The scheduler's judgment. -/
theorem Hub.schedule_moves (h : Hub) (n : Slot) : Hub.MovesWith strict h (h.schedule n) := by
  rcases h.schedule_cases n with he | ⟨t, hl, ht, he⟩
  · rw [he]
  · rw [he]
    exact .single (.link n _ fun hleg => ⟨fun _ => hl, hleg.2.1, hleg.2.2⟩)

/-- An agent frame entered in a queue or the identify position. -/
theorem Hub.placed_moves (h : Hub) (n : Slot) (place : Place) (frame : Frame) (hlen : frame.payload.length ≤ 52)
    (hres : h.store.freeReserve ≠ 0) :
    Hub.MovesWith strict h
      (({ h with store := h.store.put frame true 1 }.modPort n (·.enter place h.store.nextId)).schedule n) := by
  refine .trans ?_ (Hub.schedule_moves _ n)
  refine .tail (.single (.store (h.store.put frame true 1) fun hs => hs.put frame true 1 ?_)) (.port n _ fun hp => hp.enter place _)
  have := frame.blocks_le_one hlen
  unfold Store.freeReserve at hres
  simp only [if_true]; omega

/-- The elementary moves of the Alarm Unit are moves. -/
theorem Hub.MovesWith.closed (h : Hub) : AlarmClosed (Hub.MovesWith strict h) where
  alarms _ a ha hg := hg.tail (.alarms a ha)
  notice _ code body hg := hg.tail (.notice code body)
  permit _ n _ hg := hg.tail (.trec n _ fun hr => hr)
  fence _ _ hg := hg.tail (.manager _ rfl)
  refusal _ hg := hg.tail (.agent _ rfl id)
  placed g n place frame _ _ hlen hres hg := hg.trans (Hub.placed_moves g n place frame hlen hres)

theorem Hub.raise_moves (h : Hub) (key : AlarmKey) : Hub.MovesWith strict h (h.raise key) :=
  (MovesWith.closed h).raise .refl key

theorem Hub.raiseReported_moves (h : Hub) (key : AlarmKey) (reported : Option Severity) :
    Hub.MovesWith strict h (h.raiseReported key reported) := (MovesWith.closed h).raiseReported .refl key reported

theorem Hub.clear_moves (h : Hub) (key : AlarmKey) : Hub.MovesWith strict h (h.clear key) :=
  (MovesWith.closed h).clear .refl key

theorem Hub.clearIf_moves (h : Hub) (held : Bool) (key : AlarmKey) : Hub.MovesWith strict h (h.clearIf held key) :=
  (MovesWith.closed h).clearIf .refl held key

theorem Hub.raiseIf_moves (h : Hub) (cause : Bool) (key : AlarmKey) : Hub.MovesWith strict h (h.raiseIf cause key) :=
  (MovesWith.closed h).raiseIf .refl cause key

theorem Hub.clearWait_moves (h : Hub) (n : Slot) (raised : Bool) : Hub.MovesWith strict h (h.clearWait n raised) :=
  (MovesWith.closed h).clearWait .refl n raised

theorem Hub.clearReported_moves (h : Hub) (n : Slot) : Hub.MovesWith strict h (h.clearReported n) :=
  (MovesWith.closed h).clearReported .refl n

theorem Hub.judgePermit_moves (h : Hub) (cause : PermitReason) (n : Slot) : Hub.MovesWith strict h (h.judgePermit cause n) :=
  (MovesWith.closed h).judgePermit .refl cause n

theorem Hub.judgePermits_moves (h : Hub) (cause : PermitReason) : Hub.MovesWith strict h (h.judgePermits cause) :=
  (MovesWith.closed h).judgePermits .refl cause

theorem Hub.judgeOutputs_moves (h : Hub) : Hub.MovesWith strict h h.judgeOutputs := (MovesWith.closed h).judgeOutputs .refl

theorem Hub.follow_moves (h : Hub) (kind : AlarmKind) (was is : Bool) : Hub.MovesWith strict h (h.follow kind was is) :=
  (MovesWith.closed h).follow .refl kind was is

theorem Hub.changedAll_moves (old h : Hub) (keys : List AlarmKey) (reason : AlarmReason) :
    Hub.MovesWith strict h (Hub.changedAll old keys reason h) := (MovesWith.closed h).changedAll .refl keys reason

/-- A frame in flight is aborted (R15). -/
theorem Hub.abort_moves (h : Hub) (n : Slot) : Hub.MovesWith strict h (h.abort n) := by
  unfold Hub.abort; split
  · exact .tail (.single (.link n _ fun hl => ⟨by simp, hl.2⟩)) (.count n _)
  · exact .refl

/-- A purge (R49). -/
theorem Hub.purge_moves (h : Hub) (n : Slot) : Hub.MovesWith strict h (h.purge n) := by
  unfold Hub.purge
  simp only
  split
  · exact .refl
  · refine .trans (h.abort_moves n) (.tail (.single (.store _ fun hs => hs.derefAll _)) (.port n _ fun hp => ⟨hp.1, hp.2.1, by simp⟩))

/-- The identify position emptied (R43). -/
theorem Hub.clearIdentify_moves (h : Hub) (n : Slot) : Hub.MovesWith strict h (h.clearIdentify n) := by
  unfold Hub.clearIdentify
  split
  · exact .refl
  · simp only
    refine .trans (b := if h.links[n].tx.any (·.place == .identify) then h.abort n else h) ?_
      (.tail (.single (.store _ fun hs => hs.deref _)) (.port n _ fun hp => hp))
    split
    · exact h.abort_moves n
    · exact .refl

/-- An agent frame placed or refused (R42, R43). -/
theorem Hub.place_moves (h : Hub) (n : Slot) (place : Place) (frame : Frame) (hlen : frame.payload.length ≤ 52) :
    Hub.MovesWith strict h (h.place n place frame).1 := by
  unfold Hub.place Hub.placeWith
  split
  · exact .refl
  · simp only
    refine .trans (b := if place = .identify then h.clearIdentify n else h) ?_ ?_
    · split
      · exact h.clearIdentify_moves n
      · exact .refl
    · generalize (if place = .identify then h.clearIdentify n else h) = g
      split
      · unfold raiseAgain
        exact .trans (.single (.agent { g.agent with reserveRefusals := g.agent.reserveRefusals + 1 } rfl id))
          (Hub.raise_moves _ _)
      · next hres => exact Hub.placed_moves g n place frame hlen hres

/-- An errored frame counted (R7, R11). -/
theorem Hub.countErrored_moves (h : Hub) (n : Slot) : Hub.MovesWith strict h (h.countErrored n) := by
  unfold Hub.countErrored
  simp only
  split
  · exact .single (.count n _)
  · split
    · exact .trans (.tail (.single (.count n _)) (.link n _ fun hl => hl)) (Hub.raise_moves _ _)
    · exact .tail (.single (.count n _)) (.link n _ fun hl => hl)

theorem Hub.judgeErrored_moves (h : Hub) (n : Slot) : Hub.MovesWith strict h (h.judgeErrored n) := by
  unfold Hub.judgeErrored
  simp only
  split
  · exact .trans (.single (.link n _ fun hl => hl)) (Hub.clear_moves _ _)
  · exact .single (.link n _ fun hl => hl)

theorem Hub.judgeErroredSeconds_moves (h : Hub) : Hub.MovesWith strict h h.judgeErroredSeconds := by
  unfold Hub.judgeErroredSeconds
  exact foldl_keeps (P := Hub.MovesWith strict h) (f := Hub.judgeErrored) (fun g n hg => hg.trans (g.judgeErrored_moves n)) _ .refl

end

end Sys2Proof.Machine
end

