-- ==== Sys2Proof/Laws/TimingMoves.lean ====
section
/-! SUPPORT. The Timing Unit's work is made of moves: selections, the holdover clock, the offset, probe windows, announce boundaries and
the second judgment (chapters 6 and 7). -/

namespace Sys2Proof.Machine

/-! ## Hub time -/

theorem HubTime.ofTotal_legal (v : Nat) : (HubTime.ofTotal v).Legal :=
  ⟨Nat.mod_lt _ (by norm_num), Nat.mod_lt _ (by norm_num)⟩

theorem Clock.advance_legal (c : Clock) (gap carry : Nat) : (c.advance gap carry).now.Legal := HubTime.ofTotal_legal _

theorem Clock.run_legal (c : Clock) (k : Int) (dt : Nat) : (c.run k dt).now.Legal := Clock.advance_legal _ _ _

theorem Clock.toFrame_legal (c : Clock) : c.toFrame.now.Legal := Clock.advance_legal _ _ _

/-! ## Selection (R105) and the candidate list (R100) -/

theorem Timing.best_legal {t : Timing} {s : Source} (hs : t.best = some s) :
    ∃ c ∈ t.cands, c.status = .qualified ∧ some s = some c.source := by
  unfold Timing.best at hs
  obtain ⟨c, hc, rfl⟩ := Option.map_eq_some_iff.mp hs
  exact ⟨c, List.mem_of_find?_eq_some hc, by simpa using List.find?_some hc, rfl⟩

theorem Timing.newSelection_legal {t : Timing} {revertive : Bool} {s : Source} (hs : t.newSelection revertive = some s) :
    ∃ c ∈ t.cands, c.status = .qualified ∧ some s = some c.source := by
  unfold Timing.newSelection at hs
  split at hs
  · next hh =>
    simp only [Timing.selectionHolds, Bool.and_eq_true, List.any_eq_true, beq_iff_eq] at hh
    obtain ⟨-, c, hc, hq, he⟩ := hh
    exact ⟨c, hc, hq, hs.symm.trans he⟩
  · exact Timing.best_legal hs

@[simp] theorem Timing.reselect_cands (t : Timing) (revertive : Bool) : (t.reselect revertive).cands = t.cands := by
  unfold Timing.reselect; simp only; split
  · rfl
  · split
    · rfl
    · split <;> rfl

theorem Timing.reselect_selection (t : Timing) (revertive : Bool) :
    (t.reselect revertive).selection = t.newSelection revertive := by
  unfold Timing.reselect; simp only; split
  · next he => exact he.symm
  · split
    · rfl
    · split
      · rfl
      · next hn => simpa using Option.not_isSome_iff_eq_none.mp hn |>.symm

/-- A re-evaluation leaves a selection that is listed and QUALIFIED, whatever it found (R105). -/
theorem Timing.reselect_legal (t : Timing) (revertive : Bool) : (t.reselect revertive).SelectionLegal := by
  unfold Timing.SelectionLegal
  rw [Timing.reselect_selection, Timing.reselect_cands]
  intro hs
  obtain ⟨s, hs⟩ := Option.isSome_iff_exists.mp hs
  rw [hs]; exact Timing.newSelection_legal hs

/-- A list of candidates changed entry by entry, each keeping its source. -/
theorem Timing.ListLegal.map {l : List Candidate} (f : Candidate → Candidate) (hf : ∀ c, (f c).source = c.source) :
    (l.map f).map (·.source) = l.map (·.source) := by
  rw [List.map_map]; exact List.map_congr_left fun c _ => hf c

theorem Timing.loseSource_listLegal {t : Timing} (n : Slot) (hl : t.ListLegal) : (t.loseSource n).ListLegal := by
  refine ⟨by simpa [Timing.loseSource] using hl.1, ?_⟩
  rw [Timing.loseSource, Timing.ListLegal.map _ fun c => by split <;> rfl]
  exact hl.2

theorem Candidate.judge_source (c : Candidate) (q : Nat) (valid : Bool) : (c.judge q valid).source = c.source := by
  unfold Candidate.judge; simp only; split
  · rfl
  · split <;> rfl

theorem Timing.judgeCands_listLegal {t : Timing} (q : Nat) (valid : Source → Bool) (hl : t.ListLegal) :
    (t.judgeCands q valid).ListLegal := by
  refine ⟨by simpa [Timing.judgeCands] using hl.1, ?_⟩
  rw [Timing.judgeCands, Timing.ListLegal.map _ fun c => c.judge_source q _]
  exact hl.2

@[simp] theorem Timing.holdoverLimit_cands (t : Timing) (limit : Nat) : (t.holdoverLimit limit).cands = t.cands := by
  unfold Timing.holdoverLimit; split <;> rfl

@[simp] theorem Timing.holdoverLimit_selection (t : Timing) (limit : Nat) :
    (t.holdoverLimit limit).selection = t.selection := by
  unfold Timing.holdoverLimit; split <;> rfl

@[simp] theorem Timing.advanceHoldover_cands (t : Timing) (limit : Nat) : (t.advanceHoldover limit).cands = t.cands := by
  unfold Timing.advanceHoldover; split
  · rfl
  · split <;> simp

@[simp] theorem Timing.setHoldoverLimit_cands (t : Timing) (limit : Nat) : (t.setHoldoverLimit limit).cands = t.cands := by
  unfold Timing.setHoldoverLimit; split
  · split <;> simp
  · split <;> rfl

@[simp] theorem Timing.setHoldoverLimit_selection (t : Timing) (limit : Nat) :
    (t.setHoldoverLimit limit).selection = t.selection := by
  unfold Timing.setHoldoverLimit; split
  · split <;> simp
  · split <;> rfl

theorem Timing.countOffset_parts (t : Timing) (p : TimingParams) (o : Int) :
    (t.countOffset p o).cands = t.cands ∧ (t.countOffset p o).selection = t.selection := by
  unfold Timing.countOffset
  split
  · split
    · simp only; split <;> exact ⟨rfl, rfl⟩
    · exact ⟨rfl, rfl⟩
  · split
    · split <;> exact ⟨rfl, rfl⟩
    · exact ⟨rfl, rfl⟩
  · exact ⟨rfl, rfl⟩

theorem Timing.useOffset_parts (t : Timing) (p : TimingParams) (o : Option Int) :
    ((t.useOffset p o).cands = t.cands ∨ ∃ v, (t.useOffset p o).cands = (t.recordOffset v).cands) ∧
      (t.useOffset p o).selection = t.selection := by
  unfold Timing.useOffset
  split
  · exact ⟨.inl rfl, rfl⟩
  · next v =>
    simp only
    split
    · exact ⟨.inr ⟨v, rfl⟩, rfl⟩
    · rw [(Timing.countOffset_parts _ p v).1, (Timing.countOffset_parts _ p v).2]
      exact ⟨.inr ⟨v, rfl⟩, rfl⟩

theorem Timing.recordOffset_mem {t : Timing} {v : Int} {c : Candidate} (hc : c ∈ t.cands) :
    ∃ d ∈ (t.recordOffset v).cands, d.status = c.status ∧ d.source = c.source :=
  ⟨_, List.mem_map.mpr ⟨c, hc, rfl⟩, by split <;> rfl, by split <;> rfl⟩

/-- The use of an offset keeps a legal selection legal. -/
theorem Timing.useOffset_legal {t : Timing} (p : TimingParams) (o : Option Int) (ht : t.SelectionLegal) :
    (t.useOffset p o).SelectionLegal := by
  obtain ⟨hc, hs⟩ := t.useOffset_parts p o
  unfold Timing.SelectionLegal
  rw [hs]
  intro hsome
  obtain ⟨c, hm, hq, he⟩ := ht hsome
  rcases hc with hc | ⟨v, hc⟩
  · rw [hc]; exact ⟨c, hm, hq, he⟩
  · rw [hc]
    obtain ⟨d, hd, h1, h2⟩ := Timing.recordOffset_mem (v := v) hm
    exact ⟨d, hd, h1.trans hq, he.trans (by rw [h2])⟩

theorem Timing.useOffset_listLegal {t : Timing} (p : TimingParams) (o : Option Int) (hl : t.ListLegal) :
    (t.useOffset p o).ListLegal := by
  rcases (t.useOffset_parts p o).1 with hc | ⟨v, hc⟩
  · unfold Timing.ListLegal; rw [hc]; exact hl
  · unfold Timing.ListLegal
    rw [hc]
    refine ⟨by simpa [Timing.recordOffset] using hl.1, ?_⟩
    rw [Timing.recordOffset, Timing.ListLegal.map _ fun c => by split <;> rfl]
    exact hl.2

/-! ## Timing records (R118, R126 to R129, R132) -/

theorem TimingRec.Legal.resetWindow {r : TimingRec} (hr : r.Legal) : r.resetWindow.Legal := by
  obtain ⟨-, -, -, -, h5, h6, h7⟩ := hr
  exact ⟨by simp [TimingRec.resetWindow], by simp [TimingRec.resetWindow], by simp [TimingRec.resetWindow],
    by simp [TimingRec.resetWindow], h5, h6, h7⟩

theorem TimingRec.Legal.endEligible {r : TimingRec} (hr : r.Legal) : r.endEligible.Legal := by
  obtain ⟨h1, h2, h3, h4, -, -, -⟩ := hr
  exact ⟨h1, h2, h3, h4, by simp [TimingRec.endEligible], by simp [TimingRec.endEligible], by simp [TimingRec.endEligible]⟩

theorem TimingRec.Legal.phase {r : TimingRec} (hr : r.Legal) (error : Int) (limit : Nat) : (r.phase error limit).Legal := by
  obtain ⟨h1, h2, h3, h4, h5, -, -⟩ := hr
  unfold TimingRec.phase
  simp only
  split <;> exact ⟨h1, h2, h3, h4, h5, by simp, by simp⟩

theorem targetComp_le (window : List Nat) (asymmetry : Int) : ∀ v ∈ targetComp window asymmetry, v ≤ 65535 := by
  intro v hv
  unfold targetComp at hv
  obtain ⟨r, -, rfl⟩ := Option.map_eq_some_iff.mp hv
  omega

/-- The applied compensation stays between its old value and the target (R128). -/
theorem slewComp_le (applied : Option Nat) (target slewStep : Nat) (ha : ∀ v ∈ applied, v ≤ 65535) (ht : target ≤ 65535) :
    slewComp applied target slewStep ≤ 65535 := by
  unfold slewComp
  split
  · exact ht
  · next c =>
    have := ha c rfl
    unfold clampInt
    omega

theorem TimingRec.Legal.useSample {r : TimingRec} (hr : r.Legal) (rtt : Nat) (hrtt : rtt ≤ 65535) (asymmetry : Int)
    (slewStep : Nat) : (r.useSample rtt asymmetry slewStep).Legal := by
  obtain ⟨h1, h2, -, h4, -, h6, h7⟩ := hr
  unfold TimingRec.useSample
  refine ⟨?_, ?_, targetComp_le _ _, ?_, by simp, h6, h7⟩
  · simp only [List.length_append, List.length_singleton]
    split
    · omega
    · simp only [List.length_drop]; omega
  · intro v hv
    simp only [List.mem_append, List.mem_singleton] at hv
    rcases hv with hv | rfl
    · split at hv
      · exact h2 v hv
      · exact h2 v (List.mem_of_mem_drop hv)
    · exact hrtt
  · intro v hv
    simp only at hv
    obtain ⟨t, ht, rfl⟩ := Option.map_eq_some_iff.mp hv
    exact slewComp_le _ _ _ h4 (targetComp_le _ _ t ht)

/-- A sample that is not rejected fits its range (R126). -/
theorem sampleRejected_le {rtt : Int} {turnaround : Nat} (hs : sampleRejected rtt turnaround = false) : rtt.toNat ≤ 65535 := by
  simp only [sampleRejected, Bool.or_eq_false_iff, decide_eq_false_iff_not] at hs
  omega

/-! ## The Timing Unit over the hub -/

section

variable {strict : Bool}

theorem Hub.timingNotice_moves (h : Hub) (old new : Timing) (reason : TimingReason) :
    Hub.MovesWith strict h (h.timingNotice old new reason) := by
  unfold Hub.timingNotice; split
  · exact .refl
  · exact .single (.notice _ _)

theorem Hub.timingNotice_timing (h : Hub) (old new : Timing) (reason : TimingReason) :
    (h.timingNotice old new reason).timing = h.timing := by
  unfold Hub.timingNotice; split <;> rfl

theorem Hub.followReference_moves (h : Hub) (mayRaise : Bool) : Hub.MovesWith strict h (h.followReference mayRaise) := by
  unfold Hub.followReference
  simp only
  exact .trans (.single (.timing { h.timing with refLost := h.timing.lost && (h.timing.refLost || mayRaise) }
    (fun hs => hs) (fun hl => hl))) (Hub.follow_moves _ _ _ _)

theorem Hub.timingResults_moves (h : Hub) (old : TimingState) (mayRaise : Bool) :
    Hub.MovesWith strict h (h.timingResults old mayRaise) := by
  unfold Hub.timingResults
  simp only
  have m : Hub.MovesWith strict h
      (((h.followReference mayRaise).follow .holdoverActive (old == .holdover) (h.timing.state == .holdover)).follow
        .holdoverLapsed old.lapsed h.timing.state.lapsed) :=
    ((h.followReference_moves mayRaise).trans (Hub.follow_moves _ _ _ _)).trans (Hub.follow_moves _ _ _ _)
  split
  · exact m
  · exact (m.trans (Hub.judgePermits_moves _ _)).trans (Hub.judgeOutputs_moves _)

/-- What follows a change of timing state touches of the Timing Unit's record only REFERENCE_LOST (R112). -/
theorem Hub.timingResults_timing (h : Hub) (old : TimingState) (mayRaise : Bool) :
    (h.timingResults old mayRaise).timing = { h.timing with refLost := h.timing.lost && (h.timing.refLost || mayRaise) } := by
  unfold Hub.timingResults
  simp only
  have e : (((h.followReference mayRaise).follow .holdoverActive (old == .holdover) (h.timing.state == .holdover)).follow
        .holdoverLapsed old.lapsed h.timing.state.lapsed).timing =
      { h.timing with refLost := h.timing.lost && (h.timing.refLost || mayRaise) } := by
    rw [(Hub.follow_quiet _ _ _ _).timing, (Hub.follow_quiet _ _ _ _).timing]
    unfold Hub.followReference
    rw [(Hub.follow_quiet _ _ _ _).timing]
  split
  · exact e
  · rw [(Hub.judgeOutputs_quiet _).timing, (Hub.judgePermits_quiet _ _).timing]; exact e

/-- One event of the Timing Unit outside a judgment. -/
theorem Hub.setTiming_moves (h : Hub) (new : Timing) (reason : TimingReason) (mayRaise : Bool)
    (hs : h.timing.SelectionLegal → new.SelectionLegal) (hl : h.timing.ListLegal → new.ListLegal) :
    Hub.MovesWith strict h (h.setTiming new reason mayRaise) := by
  unfold Hub.setTiming
  exact (Relation.ReflTransGen.trans (.single (.timing new hs hl)) (Hub.timingNotice_moves _ _ _ _)).trans
    (Hub.timingResults_moves _ _ _)

theorem Hub.sourceLeft_moves (h : Hub) (n : Slot) : Hub.MovesWith strict h (h.sourceLeft n) := by
  unfold Hub.sourceLeft
  split
  · exact Hub.setTiming_moves _ _ _ _ (fun _ => Timing.reselect_legal _ _) fun hl => by
      unfold Timing.ListLegal; rw [Timing.reselect_cands]; exact Timing.loseSource_listLegal n hl
  · exact .refl

theorem Hub.windowReset_moves (h : Hub) (n : Slot) : Hub.MovesWith strict h (h.windowReset n) := by
  unfold Hub.windowReset
  exact (Relation.ReflTransGen.trans (.single (.trec n _ TimingRec.Legal.resetWindow)) (Hub.sourceLeft_moves _ n)).trans
    (Hub.judgePermit_moves _ _ n)

theorem Hub.miss_moves (h : Hub) (n : Slot) : Hub.MovesWith strict h (h.miss n) := by
  have legal : ∀ r : TimingRec, h.trecs[n].Legal → r.Legal → ({ r with misses := min 3 (h.trecs[n].misses + 1) } : TimingRec).Legal :=
    fun r _ ⟨h1, h2, h3, h4, _, h6, h7⟩ => ⟨h1, h2, h3, h4, by simp, h6, h7⟩
  unfold Hub.miss
  simp only
  split
  · exact (Relation.ReflTransGen.trans (.single (.trec n _ fun hr => legal _ hr hr)) (Hub.raise_moves _ _)).trans
      (Hub.judgePermit_moves _ _ n)
  · exact .single (.trec n _ fun hr => legal _ hr hr)

/-- One frame boundary counted (R120). -/
theorem Hub.countFrame_moves (h : Hub) (time : HubTime) : Hub.MovesWith strict h (h.countFrame time) := by
  unfold Hub.countFrame
  split
  · exact .tail (.single (.timing { h.timing with announceCount := 0 } (fun hs => hs) (fun hl => hl)))
      (.clock { h.clock with announces := h.clock.announces ++ [time] } fun hc => hc)
  · exact .single (.timing _ (fun hs => hs) (fun hl => hl))

theorem Hub.probeAttempt_moves (h : Hub) (n : Slot) : Hub.MovesWith strict h (h.probeAttempt n) := by
  unfold Hub.probeAttempt
  simp only
  have m : Hub.MovesWith strict h
      ((h.modTrec n fun r => { r with sequence := h.trecs[n].sequence + 1 }).place n .timing
        (agentFrame .timing Kind.delayProbe 0 (h.trecs[n].sequence + 1) n [])).1 :=
    .trans (.single (.trec n _ fun hr => hr)) (Hub.place_moves _ n _ _ (by simp [agentFrame]))
  split
  · exact m.tail (.trec n _ fun hr => hr)
  · exact m.trans (Hub.miss_moves _ n)

theorem Hub.announceFrame_length (h : Hub) (b : HubTime) (n : Slot) : (h.announceFrame b n).payload.length ≤ 52 := by
  simp [Hub.announceFrame, agentFrame]

theorem Hub.announceSlot_moves (h : Hub) (b : HubTime) (n : Slot) : Hub.MovesWith strict h (h.announceSlot b n) := by
  unfold Hub.announceSlot
  simp only
  refine .trans (.trans (b := if h.trecs[n].probe.isSome then (h.modTrec n fun r => { r with probe := none }).miss n else h) ?_
    (Hub.place_moves _ n _ _ (Hub.announceFrame_length _ b n))) (Hub.probeAttempt_moves _ n)
  split
  · exact .trans (.single (.trec n _ fun hr => hr)) (Hub.miss_moves _ n)
  · exact .refl

/-- The event of an announce boundary (R121). -/
theorem Hub.announce_moves (h : Hub) (b : HubTime) : Hub.MovesWith strict h (h.announce b) := by
  unfold Hub.announce
  simp only
  refine .tail (foldl_keeps (P := Hub.MovesWith strict h) (f := Hub.announceSlot b)
    (fun g n hg => hg.trans (g.announceSlot_moves b n)) _ .refl) (.clock _ fun hc => hc)

/-- A step of hub time (R99). -/
theorem Hub.stepTo_moves (h : Hub) (target : Int) : Hub.MovesWith strict h (h.stepTo target) := by
  unfold Hub.stepTo
  simp only
  set g : Hub := { h with clock := { h.clock with
    now := HubTime.ofTotal (target % (2 ^ 48 * nsPerSec : Nat)).toNat, timeStepped := true } } with hg
  have m : Hub.MovesWith strict h g := .single (.clock _ fun _ => HubTime.ofTotal_legal _)
  have m2 : Hub.MovesWith strict h
      (if (h.clock.now.total : Int) / nsPerSec < target / nsPerSec then g.judgeErroredSeconds else g) := by
    split
    · exact m.trans (Hub.judgeErroredSeconds_moves g)
    · exact m
  split
  · exact m2.trans (Hub.countFrame_moves _ _)
  · exact m2

theorem Hub.applyTimeSet_moves (h : Hub) : Hub.MovesWith strict h h.applyTimeSet := by
  unfold Hub.applyTimeSet
  split
  · exact .refl
  · refine .trans (.tail (.single (.timing { h.timing with pendingTime := none, extPending := none } (fun hs => hs) (fun hl => hl)))
      (.trecs (mapEach TimingRec.dropMeasurement h.trecs) fun n hr => ?_)) (Hub.stepTo_moves _ _)
    simp only [Fin.getElem_fin, mapEach_get]
    exact hr

theorem Hub.consumeMeasurement_moves (h : Hub) : Hub.MovesWith strict h h.consumeMeasurement := by
  unfold Hub.consumeMeasurement
  split
  · exact .single (.timing _ (fun hs => hs) (fun hl => hl))
  · next n _ => exact .single (.trec n _ fun hr => hr)
  · exact .refl

/-- The second judgment (R103). -/
theorem Hub.secondJudgment_moves (h : Hub) : Hub.MovesWith strict h h.secondJudgment := by
  unfold Hub.secondJudgment
  simp only
  have m0 : Hub.MovesWith strict h h.judgeErroredSeconds.applyTimeSet :=
    (Hub.judgeErroredSeconds_moves h).trans (Hub.applyTimeSet_moves _)
  generalize h.judgeErroredSeconds.applyTimeSet = g at m0 ⊢
  generalize hmid : ((g.timing.advanceHoldover g.tables.timing.holdoverLimit).judgeCands g.tables.timing.q
    g.sourceValid).reselect g.tables.revertive = mid
  have hsel : mid.SelectionLegal := by rw [← hmid]; exact Timing.reselect_legal _ _
  have hlist : g.timing.ListLegal → mid.ListLegal := by
    intro hl
    rw [← hmid]
    unfold Timing.ListLegal
    rw [Timing.reselect_cands]
    refine Timing.judgeCands_listLegal _ _ ?_
    unfold Timing.ListLegal
    rw [Timing.advanceHoldover_cands]
    exact hl
  generalize hoff : ({ g with timing := mid } : Hub).measuredOffset = offset
  generalize hnew : mid.useOffset g.tables.timing offset = new
  generalize hreas : judgmentReasons g.timing mid new = reasons
  have m1 : Hub.MovesWith strict h { g with timing := mid } := m0.tail (.timing mid (fun _ => hsel) hlist)
  generalize hk : ({ g with timing := mid } : Hub).timingNotice g.timing new (pickReason g.draws reasons) = k
  have m2 : Hub.MovesWith strict h k := by rw [← hk]; exact m1.trans (Hub.timingNotice_moves _ _ _ _)
  have tk : k.timing = mid := by rw [← hk, Hub.timingNotice_timing]
  generalize hk' : (if 1 < reasons.length then ({ k with draws := k.draws + 1 } : Hub) else k) = k'
  have m3 : Hub.MovesWith strict h k' := by
    rw [← hk']; split
    · exact m2.tail (.draws _)
    · exact m2
  have tk' : k'.timing = mid := by rw [← hk']; split <;> exact tk
  generalize hr : k'.timingResults g.timing.state true = r
  have m4 : Hub.MovesWith strict h r := by rw [← hr]; exact m3.trans (Hub.timingResults_moves _ _ _)
  have tr : r.timing.ListLegal → new.ListLegal := by
    rw [← hr, Hub.timingResults_timing, tk', ← hnew]
    exact fun hl => Timing.useOffset_listLegal _ _ hl
  have hsn : new.SelectionLegal := by rw [← hnew]; exact Timing.useOffset_legal _ _ hsel
  have m5 : Hub.MovesWith strict h { r with timing := { new with refLost := r.timing.refLost } } :=
    m4.tail (.timing _ (fun _ => hsn) tr)
  generalize ({ r with timing := { new with refLost := r.timing.refLost } } : Hub) = u at m5 ⊢
  refine .trans ?_ (Hub.timingResults_moves _ _ _)
  split
  · exact m5
  · have m6 := m5.trans (Hub.consumeMeasurement_moves (strict := strict) u)
    split
    · exact m6.trans (Hub.stepTo_moves _ _)
    · exact m6

end

end Sys2Proof.Machine
end

