-- ==== Sys2Proof/Laws/SlotMoves.lean ====
section
/-! SUPPORT. The Slot Manager's changes of state and the links it orders are made of moves (chapters 1, 4 and 5), and a sweep that loses a
slot stays in order (chapter 9). -/

namespace Sys2Proof.Machine

/-! ## Sweeps (R163 to R168) -/

theorem mem_insertSlot {α : Type} (n m : Slot) (a : α) (l : List (Slot × α)) :
    m ∈ (insertSlot n a l).map (·.1) ↔ m = n ∨ m ∈ l.map (·.1) := by
  induction l with
  | nil => simp [insertSlot]
  | cons p l ih =>
    rw [insertSlot]; split
    · simp
    · simp only [List.map_cons, List.mem_cons, ih]; tauto

theorem perm_insertSlot {α : Type} (n : Slot) (a : α) (l : List (Slot × α)) :
    ((insertSlot n a l).map (·.1)).Perm (n :: l.map (·.1)) := by
  induction l with
  | nil => simp [insertSlot]
  | cons p l ih =>
    rw [insertSlot]; split
    · simp
    · simp only [List.map_cons]
      exact (ih.cons p.1).trans (List.Perm.swap _ _ _)

/-- A pending slot fails: the sweep stays in order. -/
theorem Sweep.Legal.fail {w : Sweep} (hw : w.Legal) (n : Slot) (reason : SweepFailure) (hn : Mask.has w.pending n) :
    (w.fail n reason).Legal := by
  intro hf
  obtain ⟨hnd, hall⟩ := hw hf
  have hout := (hall n).2 hn
  have hp : (w.results.map (·.1) ++ (insertSlot n reason w.failures).map (·.1)).Perm
      (n :: (w.results.map (·.1) ++ w.failures.map (·.1))) :=
    ((perm_insertSlot n reason w.failures).append_left _).trans List.perm_middle
  refine ⟨hp.nodup_iff.mpr (List.nodup_cons.mpr ⟨hout, hnd⟩), fun m => ?_⟩
  obtain ⟨h1, h2⟩ := hall m
  have hmem : m ∈ (w.fail n reason).results.map (·.1) ++ (w.fail n reason).failures.map (·.1) ↔
      m = n ∨ m ∈ w.results.map (·.1) ++ w.failures.map (·.1) := by
    simp only [Sweep.fail]; rw [hp.mem_iff, List.mem_cons]
  have hpend : Mask.has (w.fail n reason).pending m ↔ Mask.has w.pending m ∧ m ≠ n := by
    simp only [Sweep.fail, Mask.has_erase, Bool.and_eq_true, Bool.not_eq_true', decide_eq_false_iff_not]
    exact and_congr_right fun _ => ne_comm
  rw [hmem, hpend]
  have hreq : (w.fail n reason).requested = w.requested := rfl
  rw [hreq]
  by_cases hmn : m = n
  · subst hmn
    exact ⟨⟨fun _ => .inr (.inl rfl), fun _ => h1.mpr (.inl hn)⟩, fun hc => absurd rfl hc.2⟩
  · exact ⟨by rw [h1]; simp [hmn], fun hc => by simpa [hmn] using h2 hc.1⟩

/-- A pending slot answers: the sweep stays in order (R165). -/
theorem Sweep.Legal.answer {w : Sweep} (hw : w.Legal) (n : Slot) (value : List Byte) (hn : Mask.has w.pending n) :
    ({ w with pending := Mask.erase w.pending n, results := insertSlot n value w.results } : Sweep).Legal := by
  intro hf
  obtain ⟨hnd, hall⟩ := hw hf
  have hout := (hall n).2 hn
  have hp : ((insertSlot n value w.results).map (·.1) ++ w.failures.map (·.1)).Perm
      (n :: (w.results.map (·.1) ++ w.failures.map (·.1))) := (perm_insertSlot n value w.results).append_right _
  refine ⟨hp.nodup_iff.mpr (List.nodup_cons.mpr ⟨hout, hnd⟩), fun m => ?_⟩
  obtain ⟨h1, h2⟩ := hall m
  simp only [hp.mem_iff, List.mem_cons, Mask.has_erase, Bool.and_eq_true, Bool.not_eq_true', decide_eq_false_iff_not]
  by_cases hmn : m = n
  · subst hmn
    exact ⟨⟨fun _ => .inr (.inl rfl), fun _ => h1.mpr (.inl hn)⟩, fun hc => absurd rfl hc.2⟩
  · have hnm : ¬ n = m := fun e => hmn e.symm
    exact ⟨by rw [h1]; simp [hmn, hnm], fun hc => by simpa [hmn] using h2 hc.1⟩

section

variable {strict : Bool}

theorem Hub.endSweepIfDone_moves (h : Hub) (hf : h.agent.sweep.inFlight = true) :
    Hub.MovesWith strict h h.endSweepIfDone := by
  unfold Hub.endSweepIfDone; split
  · exact .single (.endSweep hf)
  · exact .refl

theorem Sweep.fail_inFlight (w : Sweep) (n : Slot) (reason : SweepFailure) : (w.fail n reason).inFlight = w.inFlight := rfl

/-- A slot that leaves FORWARDING while pending (R166). -/
theorem Hub.leaveSweep_moves (h : Hub) (n : Slot) : Hub.MovesWith strict h (h.leaveSweep n) := by
  unfold Hub.leaveSweep
  split
  · next hc =>
    simp only [Bool.and_eq_true] at hc
    exact .trans (.single (.sweep (h.agent.sweep.fail n .leftService) rfl fun _ hw => hw.fail n _ hc.2))
      (Hub.endSweepIfDone_moves _ hc.1)
  · exact .refl

theorem Sweep.Legal.failAll (l : List Slot) (hnd : l.Nodup) (reason : SweepFailure) {w : Sweep} (hw : w.Legal)
    (hl : ∀ n ∈ l, Mask.has w.pending n) : (l.foldl (fun w n => w.fail n reason) w).Legal := by
  induction l generalizing w with
  | nil => exact hw
  | cons n l ih =>
    obtain ⟨hn, hnd⟩ := List.nodup_cons.mp hnd
    refine ih hnd (hw.fail n reason (hl n (by simp))) fun m hm => ?_
    have hne : n ≠ m := fun e => hn (e ▸ hm)
    simp only [Sweep.fail, Mask.has_erase, hne, decide_false, Bool.not_false, Bool.and_true]
    exact hl m (List.mem_cons_of_mem _ hm)

theorem Sweep.failAll_inFlight (l : List Slot) (reason : SweepFailure) (w : Sweep) :
    (l.foldl (fun w n => w.fail n reason) w).inFlight = w.inFlight := by
  induction l generalizing w with
  | nil => rfl
  | cons n l ih => exact ih _

theorem allSlots_nodup : allSlots.Nodup := by decide

/-- Every pending slot fails, and the sweep ends (R167). -/
theorem Hub.failSweep_moves (h : Hub) (reason : SweepFailure) (hf : h.agent.sweep.inFlight = true) :
    Hub.MovesWith strict h (h.failSweep reason) := by
  unfold Hub.failSweep
  refine .tail (.single (.sweep _ (Sweep.failAll_inFlight _ _ _) fun _ hw => ?_)) (.endSweep ?_)
  · exact hw.failAll _ (allSlots_nodup.filter _) _ fun n hn => (Mask.mem_slots _ _).mp hn
  · rw [Hub.setSweep_sweep, Sweep.failAll_inFlight]; exact hf

/-! ## Links (R2, R4, R5) -/

theorem Hub.enableLink_moves (h : Hub) (n : Slot) : Hub.MovesWith strict h (h.enableLink n) := by
  unfold Hub.enableLink
  refine .single (.link n _ fun hl => ?_)
  obtain ⟨h1, h2, h3⟩ := hl
  split
  · next hold hh => exact ⟨h1, h2, fun _ => h3 (by rw [hh]; rfl)⟩
  · next hh =>
    split
    · next hd =>
      refine ⟨fun ht => ?_, fun hr => ?_, fun hh' => ?_⟩
      · exact absurd (hd.symm.trans (h1 ht)) (by decide)
      · exact absurd (hd.symm.trans (h2 hr)) (by decide)
      · rw [hh] at hh'; exact absurd hh' (by decide)
    · exact ⟨h1, h2, h3⟩

theorem Hub.abort_tx (h : Hub) (n : Slot) : (h.abort n).links[n].tx = none := by
  unfold Hub.abort; split
  · simp
  · next hc => exact Option.not_isSome_iff_eq_none.mp hc

theorem Hub.abort_state (h : Hub) (n : Slot) : (h.abort n).links[n].state = h.links[n].state := by
  unfold Hub.abort; split
  · simp
  · rfl

/-- A link leaves LOCKED, with nothing in flight: the frame partly received is dropped in the same event. -/
theorem Hub.leaveLocked_moves (h : Hub) (n : Slot) (f : Link → Link) 
    (hf : ∀ l, l.tx = none → l.rx = none → l.state = h.links[n].state → l.Legal → (f l).Legal)
    (hrx : ∀ l, (f l).rx = l.rx) (hcomm : ∀ l, { f l with rx := none } = f { l with rx := none })
    (htx : h.links[n].tx = none) : Hub.MovesWith strict h ((h.modLink n f).dropPartial n) := by
  unfold Hub.dropPartial
  rw [Hub.modLink_self, hrx]
  split
  · refine .trans ?_ (Hub.countErrored_moves _ n)
    rw [Hub.modLink_modLink]
    refine .single (.link n _ fun hl => ?_)
    simp only [Function.comp]
    rw [hcomm]
    exact hf _ htx rfl rfl ⟨hl.1, by simp, hl.2.2⟩
  · next hr => exact .single (.link n _ fun hl => hf _ htx (Option.not_isSome_iff_eq_none.mp hr) rfl hl)

/-- A disable of a link (R2). -/
theorem Hub.disableLink_moves (h : Hub) (n : Slot) : Hub.MovesWith strict h (h.disableLink n) := by
  unfold Hub.disableLink
  refine (h.abort_moves n).trans (Hub.leaveLocked_moves _ n _ (fun l ht hr _ _ => ?_) (fun _ => rfl) (fun _ => rfl) (h.abort_tx n))
  exact ⟨by simp [ht], by simp [hr], fun _ => rfl⟩

/-- A link reset (R5). -/
theorem Hub.resetLink_moves (h : Hub) (n : Slot) : Hub.MovesWith strict h (h.resetLink n) := by
  unfold Hub.resetLink
  refine ((h.purge_moves n).trans (Hub.abort_moves _ n)).trans
    (Hub.leaveLocked_moves _ n _ (fun l ht hr _ _ => ?_) (fun _ => rfl) (fun _ => rfl) (Hub.abort_tx _ n))
  exact ⟨by simp [ht], by simp [hr], fun _ => rfl⟩

/-! ## The wait list (R62, R63) -/

theorem Hub.join_moves (h : Hub) (n : Slot) (hs : h.slots[n].state = .seated) : Hub.MovesWith strict h (h.join n) := by
  by_cases hn : n ∈ h.manager.waitList
  · unfold Hub.join; rw [if_pos hn]
  · exact .single (.join n hn hs)

theorem Hub.serveAt_moves (depth : Nat) (h : Hub) : Hub.MovesWith strict h (Hub.serveAt depth h).1 := by
  induction depth generalizing h with
  | zero => exact .refl
  | succ depth ih =>
    rw [Hub.serveAt]
    split
    · exact .refl
    · next n rest hw =>
      split
      · next hb => exact .head (.grant n (by rw [hw]; simp) hb) (ih _)
      · exact .refl

/-- The service of the wait list (R63). -/
theorem Hub.serve_moves (h : Hub) : Hub.MovesWith strict h h.serve.1 := Hub.serveAt_moves _ h

theorem Hub.slotNotice_moves (h : Hub) (n : Slot) (old new : SlotState) (reason : SlotReason) :
    Hub.MovesWith strict h (h.slotNotice n old new reason) := by
  unfold Hub.slotNotice; exact .single (.notice _ _)

theorem Hub.announceGrant_moves (h : Hub) (g : Slot × Bool) : Hub.MovesWith strict h (h.announceGrant g) := by
  unfold Hub.announceGrant
  simp only
  have m : Hub.MovesWith strict h ((h.clearWait g.1 g.2).slotNotice g.1 .seated .powering .powerGranted) :=
    (h.clearWait_moves g.1 g.2).trans (Hub.slotNotice_moves _ _ _ _ _)
  split
  · exact m.trans (Hub.slotNotice_moves _ _ _ _ _)
  · exact m

theorem Hub.announceGrants_moves (h : Hub) (gs : List (Slot × Bool)) : Hub.MovesWith strict h (h.announceGrants gs) := by
  unfold Hub.announceGrants
  exact foldl_keeps (P := Hub.MovesWith strict h) (f := Hub.announceGrant) (fun g a hg => hg.trans (g.announceGrant_moves a)) _ .refl

/-! ## What follows a slot's leaving FORWARDING -/

theorem Hub.leaveForwarding_moves (h : Hub) (n : Slot) : Hub.MovesWith strict h (h.leaveForwarding n) := by
  unfold Hub.leaveForwarding
  simp only
  refine .trans (.trans (.trans (.trans (.trans (.trans (.single (.trec n _ TimingRec.Legal.endEligible))
    (Hub.clearIf_moves _ _ _)) (Hub.clearIf_moves _ _ _)) (Hub.sourceLeft_moves _ n)) (Hub.judgePermit_moves _ _ n))
    (Hub.judgeOutputs_moves _)) (Hub.leaveSweep_moves _ n)

theorem Hub.handOn_moves (h : Hub) (n : Slot) (old : SlotState) (linkLeft : Bool) :
    Hub.MovesWith strict h (h.handOn n old linkLeft) := by
  unfold Hub.handOn
  simp only
  have m : Hub.MovesWith strict h (if old = .forwarding then h.leaveForwarding n else h) := by
    split
    · exact h.leaveForwarding_moves n
    · exact .refl
  split
  · exact m.trans (Hub.windowReset_moves _ n)
  · exact m

/-! ## Entries to the states -/

/-- An entry to a state in which a powered slot stays powered. -/
theorem Hub.enter_moves (h : Hub) (n : Slot) (state : SlotState) (f : SlotRec → SlotRec)
    (hf : ∀ r, (f r).state = r.state ∧ (f r).powerClass = r.powerClass ∧ (f r).waitStart = r.waitStart ∧ (f r).pwrEn = r.pwrEn ∧
      (f r).safe = r.safe)
    (hrst : ∀ r, r.cardRst = !h.slots[n].state.released → (f r).cardRst = !state.released)
    (hold : h.slots[n].state.powered = true) (hnew : state.powered = true) : Hub.MovesWith strict h (h.enter n state f) := by
  unfold Hub.enter
  set r := h.slots[n] with hrdef
  refine .single (.slot n _ ?_)
  rw [← hrdef]
  obtain ⟨e1, e2, e3, e4, e5⟩ := hf { r with state, entry := h.stamp, limit := none, attempt := 0, autoAdmit := false }
  have e6 := hrst { r with state, entry := h.stamp, limit := none, attempt := 0, autoAdmit := false }
  have hne : r.state ≠ .seated := fun e => by rw [e] at hold; exact absurd hold (by decide)
  have hno : ∀ s : SlotState, s.powered = true → (s == .off) = false := by intro s; cases s <;> decide
  refine ⟨fun ho => ?_, fun _ => ⟨hold, e2⟩, fun _ hs => absurd hs hne, e3⟩
  obtain ⟨o1, o2, o3⟩ := ho
  refine ⟨?_, ?_, ?_⟩
  · rw [e4, e1]; simp only; rw [o1, hold, hnew]
  · rw [e6 o2, e1]
  · rw [e5, e1]; simp only; rw [o3, hno _ hold, hno _ hnew]

/-- An entry to a state without power. -/
theorem Hub.enterUnpowered_moves (h : Hub) (n : Slot) (state : SlotState) (f : SlotRec → SlotRec)
    (hf : ∀ r, (f r).state = r.state ∧ (f r).waitStart = r.waitStart ∧ (f r).pwrEn = false ∧ (f r).cardRst = true ∧
      (f r).safe = (state == .off))
    (hnew : state.powered = false ∧ state.released = false)
    (hwait : n ∈ h.manager.waitList → h.slots[n].state = .seated → state = .seated) :
    Hub.MovesWith strict h (h.enter n state f) := by
  unfold Hub.enter
  set r := h.slots[n] with hrdef
  refine .single (.slot n _ ?_)
  rw [← hrdef]
  obtain ⟨e1, e2, e3, e4, e5⟩ := hf { r with state, entry := h.stamp, limit := none, attempt := 0, autoAdmit := false }
  refine ⟨fun _ => ⟨?_, ?_, ?_⟩, fun hp => ?_, fun hw hs => by rw [e1]; exact hwait hw hs, e2⟩
  · rw [e3, e1]; exact hnew.1.symm
  · rw [e4, e1]; simp only; rw [hnew.2]; rfl
  · rw [e5, e1]
  · rw [e1] at hp; simp only at hp; rw [hnew.1] at hp; cases hp

theorem Hub.unjoin_not_mem (h : Hub) (n : Slot) : n ∉ (h.unjoin n).manager.waitList := by
  simp [Hub.unjoin]

/-! ## What some operations leave of the slots -/

@[simp] theorem Hub.abort_slots (h : Hub) (n : Slot) : (h.abort n).slots = h.slots := by
  unfold Hub.abort; split <;> rfl

@[simp] theorem Hub.purge_slots (h : Hub) (n : Slot) : (h.purge n).slots = h.slots := by
  unfold Hub.purge; simp only; split
  · rfl
  · exact h.abort_slots n

@[simp] theorem Hub.clearIdentify_slots (h : Hub) (n : Slot) : (h.clearIdentify n).slots = h.slots := by
  unfold Hub.clearIdentify; split
  · rfl
  · simp only [Hub.modPort_slots]; split
    · exact h.abort_slots n
    · rfl

@[simp] theorem Hub.schedule_slots (h : Hub) (n : Slot) : (h.schedule n).slots = h.slots := (Quiet.schedule h n).slots

@[simp] theorem Hub.enter_state (h : Hub) (n : Slot) (state : SlotState) (f : SlotRec → SlotRec)
    (hf : ∀ r, (f r).state = r.state) : (h.enter n state f).slots[n].state = state := by
  unfold Hub.enter; rw [Hub.modSlot_self, hf]

/-! ## Entries to the states -/

/-- A slot that goes to a state without power (R62, R88, R89, R93). -/
theorem Hub.powerDown_moves (h : Hub) (n : Slot) (state : SlotState) (f : SlotRec → SlotRec)
    (hf : ∀ r, (f r).state = r.state ∧ (f r).waitStart = r.waitStart ∧ (f r).pwrEn = false ∧ (f r).cardRst = true ∧
      (f r).safe = (state == .off)) (hnew : state.powered = false ∧ state.released = false) :
    Hub.MovesWith strict h (h.powerDown n state f) :=
  .trans (.trans (.tail (h.purge_moves n) (.unjoin n))
    (Hub.enterUnpowered_moves _ n state f hf hnew fun hm => absurd hm (Hub.unjoin_not_mem _ n))) (Hub.disableLink_moves _ n)

/-- Entry to OFF (R74, R88, R94). -/
theorem Hub.enterOffWith_moves (forced : Bool) (h : Hub) (n : Slot) (reason : SlotReason) :
    Hub.MovesWith strict h (h.enterOffWith forced n reason) := by
  unfold Hub.enterOffWith
  simp only
  refine .trans (.trans (.trans (.trans (.trans (.trans (.trans (.trans ?_ (Hub.serve_moves _)) (Hub.raiseIf_moves _ _ _)) (Hub.clearWait_moves _ _ _))
    (Hub.clear_moves _ _)) (Hub.clearIf_moves _ _ _)) (Hub.clearReported_moves _ _)) (Hub.handOn_moves _ _ _ _))
    (.trans (Hub.slotNotice_moves _ _ _ _ _) (Hub.announceGrants_moves _ _))
  exact h.powerDown_moves n .off _ (fun r => ⟨rfl, rfl, rfl, rfl, rfl⟩) (by decide)

theorem Hub.enterOff_moves (h : Hub) (n : Slot) (reason : SlotReason) : Hub.MovesWith strict h (h.enterOff n reason) :=
  h.enterOffWith_moves false n reason

/-- Entry to FAULTED (R93). -/
theorem Hub.enterFaulted_moves (h : Hub) (n : Slot) (fault : FaultReason) (reason : SlotReason) : Hub.MovesWith strict h (h.enterFaulted n fault reason) := by
  unfold Hub.enterFaulted
  simp only
  have m := h.powerDown_moves (strict := strict) n .faulted (fun r => { r.unpower false with fault := some fault })
    (fun r => ⟨rfl, rfl, rfl, rfl, rfl⟩) (by decide)
  generalize Hub.powerDown _ n _ _ = g at m ⊢
  have m2 := m.trans (Hub.serve_moves (strict := strict) g)
  generalize Hub.serve g = p at m2 ⊢
  have m3 : Hub.MovesWith strict h
      ((((((p.1.raise (.slot n .slotFault)).clearIf (h.slots[n].state == .recovering) (.slot n .linkLost)).modSlot n fun r =>
        { r with limit := some (((p.1.raise (.slot n .slotFault)).clearIf (h.slots[n].state == .recovering)
          (.slot n .linkLost)).dueIn 2000) }).clearReported n).handOn n h.slots[n].state
        (h.links[n].state == .locked)).slotNotice n h.slots[n].state .faulted reason |>.announceGrants p.2) := by
    refine .trans (.trans (.trans (.trans (.tail (.trans (.trans m2 (Hub.raise_moves _ _)) (Hub.clearIf_moves _ _ _))
      (.slotSame n _ ?_)) (Hub.clearReported_moves _ _)) (Hub.handOn_moves _ _ _ _)) (Hub.slotNotice_moves _ _ _ _ _))
      (Hub.announceGrants_moves _ _)
    exact ⟨rfl, rfl, rfl, rfl, rfl, rfl⟩
  split
  · exact m3
  · exact m3.trans (Hub.enterOff_moves _ n _)

/-- Entry to EMPTY (R88, R89). -/
theorem Hub.enterEmpty_moves (h : Hub) (n : Slot) : Hub.MovesWith strict h (h.enterEmpty n) := by
  unfold Hub.enterEmpty
  simp only
  have m := h.powerDown_moves (strict := strict) n .empty SlotRec.emptied (fun r => ⟨rfl, rfl, rfl, rfl, rfl⟩)
    (by decide)
  generalize Hub.powerDown _ n _ _ = g at m ⊢
  refine .trans (.trans (.trans (.trans ?_ (Hub.clearReported_moves _ _)) (Hub.handOn_moves _ _ _ _))
    (Hub.slotNotice_moves _ _ _ _ _)) (Hub.announceGrants_moves _ _)
  have m2 := (((m.trans (Hub.serve_moves (strict := strict) g)).trans (Hub.clearWait_moves _ n h.slots[n].waitRaised)).trans
    (Hub.clear_moves _ (.slot n .cardMismatch))).trans (Hub.clearIf_moves _ (h.slots[n].state == .recovering) (.slot n .linkLost))
  exact (m2.trans (Hub.clearIf_moves (strict := strict) _ (h.slots[n].state == .faulted) (.slot n .slotFault))).trans
    (Hub.raiseIf_moves _ _ _)

/-- A slot seated, with the class its pins give where it is found (R60, R65, R66). -/
theorem Hub.seat_moves (h : Hub) (n : Slot) (joins : Bool) : Hub.MovesWith strict h (h.seat n joins) := by
  unfold Hub.seat
  simp only
  have m : Hub.MovesWith strict h (h.enter n .seated fun r => { r.unpower false with identity := none }) :=
    Hub.enterUnpowered_moves h n .seated _ (fun r => ⟨rfl, rfl, rfl, rfl, rfl⟩) (by decide) fun _ _ => rfl
  split
  · exact m.trans (Hub.join_moves _ n (Hub.enter_state h n .seated _ fun _ => rfl))
  · exact m

theorem Hub.seatFound_moves (h : Hub) (n : Slot) (joins : Bool) (cls : SlotRec → Option PowerClass) :
    Hub.MovesWith strict h ((h.modSlot n fun r => { r with powerClass := cls r }).seat n joins) := by
  unfold Hub.seat Hub.enter
  simp only
  rw [Hub.modSlot_modSlot]
  have m : Hub.MovesWith strict h (h.modSlot n
      ((fun r => { ({ r with state := .seated, entry := h.stamp, limit := none, attempt := 0, autoAdmit := false } : SlotRec).unpower
        false with identity := none }) ∘ fun r => { r with powerClass := cls r })) :=
    .single (.slot n _ ⟨fun _ => ⟨rfl, rfl, rfl⟩, fun hp => absurd hp (by show ¬ SlotState.seated.powered = true; decide),
      fun _ _ => rfl, rfl⟩)
  split
  · exact m.trans (Hub.join_moves _ n (by rw [Hub.modSlot_self]; rfl))
  · exact m

/-- Entry to SEATED (R65, R66, R94). -/
theorem Hub.enterSeated_moves (h : Hub) (n : Slot) (joins : Bool) (reason : SlotReason) :
    Hub.MovesWith strict h (h.enterSeated n joins reason) := by
  unfold Hub.enterSeated
  simp only
  exact .trans (.tail (.trans (.trans (h.seat_moves n joins) (Hub.serve_moves _)) (Hub.clearIf_moves _ _ _)) (.notice _ _))
    (Hub.announceGrants_moves _ _)

theorem Hub.enterResetHold_moves (h : Hub) (n : Slot) (hs : h.slots[n].state = .powering) :
    Hub.MovesWith strict h (h.enterResetHold n) := by
  unfold Hub.enterResetHold
  simp only
  refine .trans (Hub.enter_moves h n .resetHold _ ?_ ?_ ?_ ?_) (Hub.slotNotice_moves _ _ _ _ _)
  · exact fun r => ⟨rfl, rfl, rfl, rfl, rfl⟩
  · intro r hr; rw [hs] at hr; exact hr
  · rw [hs]; rfl
  · rfl

theorem Hub.enterLinking_moves (h : Hub) (n : Slot) (hs : h.slots[n].state = .resetHold) :
    Hub.MovesWith strict h (h.enterLinking n) := by
  unfold Hub.enterLinking
  simp only
  refine .trans (.trans (Hub.enter_moves h n .linking _ ?_ ?_ ?_ ?_) (Hub.enableLink_moves _ n))
    (Hub.slotNotice_moves _ _ _ _ _)
  · exact fun r => ⟨rfl, rfl, rfl, rfl, rfl⟩
  · exact fun r _ => rfl
  · rw [hs]; rfl
  · rfl

theorem identifyFrame_length (n : Slot) (attempt : Nat) (cls : PowerClass) :
    (identifyFrame n attempt cls).payload.length ≤ 52 := by simp [identifyFrame, agentFrame]

theorem Hub.identifyAttempt_moves (h : Hub) (n : Slot) : Hub.MovesWith strict h (h.identifyAttempt n) := by
  unfold Hub.identifyAttempt
  simp only
  refine .trans (.single (.slotSame n _ ?_)) (Hub.place_moves _ n _ _ (identifyFrame_length _ _ _))
  exact ⟨rfl, rfl, rfl, rfl, rfl, rfl⟩

theorem Hub.enterIdentifying_moves (h : Hub) (n : Slot) (hs : h.slots[n].state = .linking) :
    Hub.MovesWith strict h (h.enterIdentifying n) := by
  unfold Hub.enterIdentifying
  refine .trans (.trans (Hub.enter_moves h n .identifying _ ?_ ?_ ?_ ?_) (Hub.identifyAttempt_moves _ n))
    (Hub.slotNotice_moves _ _ _ _ _)
  · exact fun r => ⟨rfl, rfl, rfl, rfl, rfl⟩
  · intro r hr; rw [hs] at hr; exact hr
  · rw [hs]; rfl
  · rfl

/-- Entry to a state in service from one whose card is out of reset. -/
theorem Hub.enterRunning_moves (h : Hub) (n : Slot) (state : SlotState) (f : SlotRec → SlotRec)
    (hf : ∀ r, (f r).state = r.state ∧ (f r).powerClass = r.powerClass ∧ (f r).waitStart = r.waitStart ∧ (f r).pwrEn = r.pwrEn ∧
      (f r).safe = r.safe ∧ (f r).cardRst = r.cardRst)
    (hold : h.slots[n].state.released = true) (hnew : state.released = true) :
    Hub.MovesWith strict h (h.enter n state f) := by
  have hp : ∀ s : SlotState, s.released = true → s.powered = true := by intro s; cases s <;> decide
  exact h.enter_moves n state f (fun r => ⟨(hf r).1, (hf r).2.1, (hf r).2.2.1, (hf r).2.2.2.1, (hf r).2.2.2.2.1⟩)
    (fun r hr => by rw [(hf r).2.2.2.2.2, hr, hold, hnew]) (hp _ hold) (hp _ hnew)

theorem Hub.enterForwarding_moves (h : Hub) (n : Slot) (reason : SlotReason) (hs : h.slots[n].state.released = true) :
    Hub.MovesWith strict h (h.enterForwarding n reason) := by
  unfold Hub.enterForwarding
  simp only
  refine .trans (.trans (.trans (.trans (.trans (Hub.enterRunning_moves h n .forwarding _ ?_ hs rfl) (Hub.schedule_moves _ n))
    (Hub.clearIf_moves _ _ _)) (Hub.judgePermit_moves _ _ n)) (Hub.judgeOutputs_moves _)) (Hub.slotNotice_moves _ _ _ _ _)
  exact fun r => ⟨rfl, rfl, rfl, rfl, rfl, rfl⟩

theorem Hub.enterAwaiting_moves (h : Hub) (n : Slot) (autoAdmit mismatch : Bool) (hs : h.slots[n].state = .identifying) :
    Hub.MovesWith strict h (h.enterAwaiting n autoAdmit mismatch) := by
  unfold Hub.enterAwaiting
  simp only
  set g : Hub := (h.clearIdentify n).enter n .awaitingAdmit fun r => { r with autoAdmit } with hg
  have m : Hub.MovesWith strict h g := by
    rw [hg]
    refine (h.clearIdentify_moves n).trans (Hub.enterRunning_moves _ n .awaitingAdmit _ ?_ ?_ rfl)
    · exact fun r => ⟨rfl, rfl, rfl, rfl, rfl, rfl⟩
    · rw [Hub.clearIdentify_slots, hs]; rfl
  have sg : g.slots[n].state = .awaitingAdmit := Hub.enter_state _ n _ _ fun _ => rfl
  clear_value g
  have key : ∀ k : Hub, Hub.MovesWith strict h k → k.slots[n].state = .awaitingAdmit →
      Hub.MovesWith strict h (if (autoAdmit && (k.slotNotice n .identifying .awaitingAdmit .identified).links[n].state == .locked) = true
        then (k.slotNotice n .identifying .awaitingAdmit .identified).enterForwarding n .autoAdmitted
        else k.slotNotice n .identifying .awaitingAdmit .identified) := by
    intro k mk sk
    have m3 := mk.trans (Hub.slotNotice_moves (strict := strict) k n .identifying .awaitingAdmit .identified)
    split
    · refine m3.trans (Hub.enterForwarding_moves _ n _ ?_)
      unfold Hub.slotNotice; rw [Hub.notice_slots, sk]; rfl
    · exact m3
  exact key _ (m.trans (Hub.raiseIf_moves _ _ _)) (by rw [(Hub.raiseIf_quiet _ _ _).slot]; exact sg)

theorem Hub.enterRecovering_moves (h : Hub) (n : Slot) (reason : SlotReason) (hs : h.slots[n].state = .forwarding) :
    Hub.MovesWith strict h (h.enterRecovering n reason) := by
  unfold Hub.enterRecovering
  simp only
  refine .trans (.trans (.trans (Hub.enterRunning_moves h n .recovering _ ?_ ?_ rfl) (Hub.raise_moves _ _))
    (Hub.leaveForwarding_moves _ n)) (Hub.slotNotice_moves _ _ _ _ _)
  · exact fun r => ⟨rfl, rfl, rfl, rfl, rfl, rfl⟩
  · rw [hs]; rfl

theorem Hub.enterDraining_moves (h : Hub) (n : Slot) (reason : SlotReason) (hs : h.slots[n].state.released = true) :
    Hub.MovesWith strict h (h.enterDraining n reason) := by
  unfold Hub.enterDraining
  simp only
  refine .trans (.trans (.trans (.trans (.trans (Hub.enterRunning_moves h n .draining _ ?_ hs rfl)
    (Hub.place_moves _ n _ _ ?_)) (Hub.schedule_moves _ n)) (Hub.clearIf_moves _ _ _)) (Hub.handOn_moves _ n _ _))
    (Hub.slotNotice_moves _ _ _ _ _)
  · exact fun r => ⟨rfl, rfl, rfl, rfl, rfl, rfl⟩
  · exact Nat.zero_le _

theorem Hub.enterFenced_moves (h : Hub) (n : Slot) (reason : SlotReason) (hs : h.slots[n].state.released = true) :
    Hub.MovesWith strict h (h.enterFenced n reason) := by
  unfold Hub.enterFenced
  simp only
  refine .trans (.trans (.trans (.trans (h.purge_moves n) (Hub.enterRunning_moves _ n .fenced _ ?_ ?_ rfl))
    (Hub.clearIf_moves _ _ _)) (Hub.handOn_moves _ n _ _)) (Hub.slotNotice_moves _ _ _ _ _)
  · exact fun r => ⟨rfl, rfl, rfl, rfl, rfl, rfl⟩
  · rw [Hub.purge_slots]; exact hs

/-! ## Events that several commands share -/

theorem Hub.release_moves (h : Hub) (n : Slot) (reason : SlotReason) : Hub.MovesWith strict h (h.release n reason) := by
  unfold Hub.release
  split
  iterate 7 exact h.enterOff_moves n reason
  iterate 3
    next hs => exact h.enterDraining_moves n reason (by rw [hs]; rfl)
  all_goals exact .refl

theorem Hub.fence_moves (h : Hub) (n : Slot) (reason : SlotReason) : Hub.MovesWith strict h (h.fence n reason) := by
  unfold Hub.fence
  split
  · next hs => exact h.enterFenced_moves n reason (by rw [hs]; rfl)
  · next hs => exact h.enterFenced_moves n reason (by rw [hs]; rfl)
  · exact .refl

theorem Hub.linkLocked_moves (h : Hub) (n : Slot) : Hub.MovesWith strict h (h.linkLocked n) := by
  unfold Hub.linkLocked
  simp only
  split
  · next hs => exact h.enterIdentifying_moves n hs
  · next hs => exact h.enterForwarding_moves n _ (by rw [hs]; rfl)
  · next hs =>
    split
    · exact h.enterForwarding_moves n _ (by rw [hs]; rfl)
    · exact .refl
  · exact h.schedule_moves n

theorem Hub.linkLeft_moves (h : Hub) (n : Slot) (reason : SlotReason) : Hub.MovesWith strict h (h.linkLeft n reason) := by
  unfold Hub.linkLeft
  simp only
  refine .trans ?_ (Hub.windowReset_moves _ n)
  split
  · next hs => exact h.enterRecovering_moves n reason hs
  · next hs => exact h.enterFaulted_moves n _ reason
  · exact .refl

end

end Sys2Proof.Machine
end

