-- ==== Sys2Proof/Laws/EventMoves.lean ====
section
/-! SUPPORT. The events at a slot's inputs and limits, at the links, at the switch, at the clock and at the agent's inbox are made of
moves. -/

namespace Sys2Proof.Machine

section

variable {strict : Bool}

/-! ## Inputs and limits (chapters 4 and 5) -/

theorem Hub.rawInput_moves (h : Hub) (n : Slot) (input : RawInput) : Hub.MovesWith strict h (h.rawInput n input) := by
  unfold Hub.rawInput
  split
  · split
    · exact .refl
    · refine .single (.slotSame n _ ?_); exact ⟨rfl, rfl, rfl, rfl, rfl, rfl⟩
  · split
    · exact .refl
    · refine .single (.slotSame n _ ?_); exact ⟨rfl, rfl, rfl, rfl, rfl, rfl⟩
  · refine .single (.slotSame n _ ?_); exact ⟨rfl, rfl, rfl, rfl, rfl, rfl⟩

theorem Hub.presencePresent_moves (h : Hub) (n : Slot) : Hub.MovesWith strict h (h.presencePresent n) := by
  unfold Hub.presencePresent
  simp only
  split
  · exact .refl
  · have m : Hub.MovesWith strict h (h.modSlot n fun r => { r with presence := true, presenceTimer := none }) := by
      refine .single (.slotSame n _ ?_); exact ⟨rfl, rfl, rfl, rfl, rfl, rfl⟩
    split
    · next hs =>
      refine (m.tail (.slot n _ ⟨fun ho => ho, fun hp => ?_, fun _ he => ?_, rfl⟩)).trans (Hub.enterSeated_moves _ n _ _)
      · simp only [hs] at hp; exact absurd hp (by decide)
      · exact he
    · exact m

theorem Hub.presenceAbsent_moves (h : Hub) (n : Slot) : Hub.MovesWith strict h (h.presenceAbsent n) := by
  unfold Hub.presenceAbsent
  simp only
  split
  · exact .refl
  · have m : Hub.MovesWith strict h (h.modSlot n fun r => { r with presence := false, presenceTimer := none }) := by
      refine .single (.slotSame n _ ?_); exact ⟨rfl, rfl, rfl, rfl, rfl, rfl⟩
    split
    · exact m
    · exact m.trans (Hub.enterEmpty_moves _ n)

theorem Hub.latchCloses_moves (h : Hub) (n : Slot) : Hub.MovesWith strict h (h.latchCloses n) := by
  unfold Hub.latchCloses
  simp only
  split
  · exact .refl
  · have m : Hub.MovesWith strict h (h.modSlot n fun r => { r with latchClosed := true, latchTimer := none }) := by
      refine .single (.slotSame n _ ?_); exact ⟨rfl, rfl, rfl, rfl, rfl, rfl⟩
    split
    · next hs =>
      split
      · exact ((m.trans (Hub.join_moves _ n hs)).trans (Hub.serve_moves _)).trans (Hub.announceGrants_moves _ _)
      · exact m
    · split
      · exact m.trans (Hub.enterSeated_moves _ n _ _)
      · exact m
    · exact m

theorem Hub.latchOpens_moves (h : Hub) (n : Slot) : Hub.MovesWith strict h (h.latchOpens n) := by
  unfold Hub.latchOpens
  split
  · exact .refl
  · refine .trans (.single (.slotSame n _ ?_)) (Hub.release_moves _ n _)
    exact ⟨rfl, rfl, rfl, rfl, rfl, rfl⟩

theorem Hub.pwrGoodAsserted_moves (h : Hub) (n : Slot) : Hub.MovesWith strict h (h.pwrGoodAsserted n) := by
  unfold Hub.pwrGoodAsserted
  simp only
  have m : Hub.MovesWith strict h (h.modSlot n fun r => { r with pwrGood := true }) := by
    refine .single (.slotSame n _ ?_); exact ⟨rfl, rfl, rfl, rfl, rfl, rfl⟩
  split
  · next hs => exact m.trans (Hub.enterResetHold_moves _ n hs)
  · exact m

theorem Hub.pwrGoodLost_moves (h : Hub) (n : Slot) : Hub.MovesWith strict h (h.pwrGoodLost n) := by
  unfold Hub.pwrGoodLost
  simp only
  have m : Hub.MovesWith strict h (h.modSlot n fun r => { r with pwrGood := false }) := by
    refine .single (.slotSame n _ ?_); exact ⟨rfl, rfl, rfl, rfl, rfl, rfl⟩
  split
  · exact m.trans (Hub.enterFaulted_moves _ n _ _)
  · exact m

/-- The expiry of a limit, where what it does is made of moves in the state it belongs to. -/
theorem Hub.expire_moves (h : Hub) (n : Slot) (state : SlotState) (act : Hub → Hub)
    (ha : h.slots[n].state = state → Hub.MovesWith strict h (act h)) : Hub.MovesWith strict h (h.expire n state act) := by
  unfold Hub.expire; split
  · next hs => exact ha hs.1
  · exact .refl

theorem Hub.identifyTimeout_moves (h : Hub) (n : Slot) :
    Hub.MovesWith strict h (h.identifyTimeout n) := by
  unfold Hub.identifyTimeout; split
  · exact h.identifyAttempt_moves n
  · exact h.enterFaulted_moves n _ _

theorem Hub.powerWait_moves (h : Hub) (n : Slot) : Hub.MovesWith strict h (h.powerWait n) := by
  unfold Hub.powerWait; split
  · refine .trans (.single (.slotSame n _ ?_)) (Hub.raise_moves _ _); exact ⟨rfl, rfl, rfl, rfl, rfl, rfl⟩
  · exact .refl

theorem Hub.drainForced_moves (h : Hub) (n : Slot) : Hub.MovesWith strict h (h.drainForced n) :=
  Hub.enterOffWith_moves true h n .timeout

theorem Hub.retry_moves (h : Hub) (n : Slot) : Hub.MovesWith strict h (h.retry n) := by
  unfold Hub.retry; split
  · refine .trans (.single (.slotSame n _ ?_)) (Hub.enterSeated_moves _ n _ _); exact ⟨rfl, rfl, rfl, rfl, rfl, rfl⟩
  · refine .single (.slotSame n _ ?_); exact ⟨rfl, rfl, rfl, rfl, rfl, rfl⟩

theorem Hub.takeFence_moves (h : Hub) (n : Slot) : Hub.MovesWith strict h (h.takeFence n) := by
  unfold Hub.takeFence; split
  · exact .trans (.single (.manager { h.manager with fenceRequests := h.manager.fenceRequests.erase n } rfl))
      (Hub.fence_moves _ n _)
  · exact .refl

/-! ## Links (chapter 1) -/

theorem Hub.loseAlignment_moves (h : Hub) (n : Slot) (hl : h.links[n].state = .locked) :
    Hub.MovesWith strict h (h.loseAlignment n) := by
  unfold Hub.loseAlignment
  simp only
  refine .trans ?_ (Hub.linkLeft_moves _ n _)
  refine (h.abort_moves n).trans (Hub.leaveLocked_moves _ n _ ?_ ?_ ?_ (h.abort_tx n))
  · intro l ht hr hs hleg
    refine ⟨by simp [ht], by simp [hr], fun hh => ?_⟩
    have := hleg.2.2 hh
    rw [hs, h.abort_state, hl] at this
    exact absurd this (by decide)
  · exact fun _ => rfl
  · exact fun _ => rfl

theorem Hub.helloValid_moves (h : Hub) (n : Slot) : Hub.MovesWith strict h (h.helloValid n) := by
  unfold Hub.helloValid
  split
  · exact .refl
  · next hs =>
    split
    · exact .single (.link n _ fun hl => hl)
    · refine .trans (.single (.link n _ fun hl => ?_)) (Hub.linkLocked_moves _ n)
      refine ⟨fun _ => rfl, fun _ => rfl, fun hh => ?_⟩
      have := hl.2.2 hh
      rw [hs] at this; exact absurd this (by decide)
  · next hs => exact h.loseAlignment_moves n hs

theorem Hub.helloInvalid_moves (h : Hub) (n : Slot) : Hub.MovesWith strict h (h.helloInvalid n) := by
  unfold Hub.helloInvalid; split
  · exact .refl
  · exact .single (.link n _ fun hl => hl)
  · next hs => exact h.loseAlignment_moves n hs

theorem Hub.alignmentLost_moves (h : Hub) (n : Slot) : Hub.MovesWith strict h (h.alignmentLost n) := by
  unfold Hub.alignmentLost; split
  · exact .refl
  · exact .single (.link n _ fun hl => hl)
  · next hs => exact h.loseAlignment_moves n hs

theorem Hub.holdEnd_moves (h : Hub) (n : Slot) : Hub.MovesWith strict h (h.holdEnd n) := by
  unfold Hub.holdEnd
  split
  · exact .refl
  · next hold hh =>
    refine .single (.link n _ fun hl => ?_)
    obtain ⟨h1, h2, h3⟩ := hl
    have hd := h3 (by rw [hh]; rfl)
    refine ⟨fun ht => ?_, fun hr => ?_, fun he => absurd he (by simp)⟩
    · exact absurd (hd.symm.trans (h1 ht)) (by decide)
    · exact absurd (hd.symm.trans (h2 hr)) (by decide)

theorem Hub.checkFrame_moves (h : Hub) (n : Slot) (bytes : List Byte) (arrival : Arrival) :
    Hub.MovesWith strict h (h.checkFrame n bytes arrival) := by
  unfold Hub.checkFrame
  split
  · exact h.countErrored_moves n
  · simp only
    split
    · exact .single (.count n _)
    · exact .single (.port n _ fun hp => hp)

theorem Hub.receive_moves (h : Hub) (n : Slot) (bytes : List Byte) (whole : Bool) :
    Hub.MovesWith strict h (h.receive n bytes whole) := by
  unfold Hub.receive
  simp only
  split
  · next hs =>
    split
    · refine .trans (.single (.link n _ fun hl => ?_)) (Hub.checkFrame_moves _ n _ _)
      exact ⟨hl.1, by simp, hl.2.2⟩
    · refine .single (.link n _ fun hl => ?_)
      exact ⟨hl.1, fun _ => hs, hl.2.2⟩
  · exact .refl

theorem Hub.run_moves (h : Hub) (dt : Nat) : Hub.MovesWith strict h (h.run dt) :=
  .single (.clock _ fun _ => Clock.run_legal _ _ _)

/-! ## The switch and the ports (chapters 2 and 3) -/

theorem Hub.inboxJoin_moves (h : Hub) (n : Slot) (e : HandedOn) : Hub.MovesWith strict h (h.inboxJoin n e) := by
  unfold Hub.inboxJoin
  split
  · next hl => exact .single (.agent _ rfl fun _ => by simp; omega)
  · exact .trans (.single (.agent { h.agent with inboxOverflows := h.agent.inboxOverflows + 1 } rfl id)) (Hub.raise_moves _ _)

theorem Hub.storeFull_moves (h : Hub) (n : Slot) : Hub.MovesWith strict h (h.storeFull n) := by
  unfold Hub.storeFull
  exact .trans (.single (.count n _)) (Hub.raise_moves _ _)

theorem Hub.pendingJoin_moves (h : Hub) (n : Slot) (p : PendingFrame) : Hub.MovesWith strict h (h.pendingJoin n p) := by
  unfold Hub.pendingJoin
  split
  · split
    · next hl => exact .single (.port n _ fun hp => ⟨hp.1, by simp; omega, hp.2.2⟩)
    · exact h.storeFull_moves n
  · split
    · next hl => exact .single (.port n _ fun hp => ⟨by simp; omega, hp.2⟩)
    · exact h.storeFull_moves n

theorem Hub.classify_moves (h : Hub) (n : Slot) (e : HandedOn) : Hub.MovesWith strict h (h.classify n e) := by
  unfold Hub.classify
  simp only
  split
  · exact .single (.count n _)
  · split
    · exact h.inboxJoin_moves n e
    · split
      · exact .trans (.single (.count n _)) (Hub.raise_moves _ _)
      · exact h.pendingJoin_moves n _

theorem Hub.classifyNext_moves (h : Hub) (n : Slot) : Hub.MovesWith strict h (h.classifyNext n) := by
  unfold Hub.classifyNext
  split
  · exact .refl
  · exact .trans (.single (.port n _ fun hp => hp)) (Hub.classify_moves _ n _)

theorem Hub.egressDrop_moves (h : Hub) (n : Slot) : Hub.MovesWith strict h (h.egressDrop n) := by
  unfold Hub.egressDrop
  exact .trans (.single (.count n _)) (Hub.raise_moves _ _)

/-- A frame stored and entered at its members (R40). -/
theorem Hub.admit_moves (h : Hub) (f : Frame) (members : List Slot) (hp : h.store.passes f.cls f.blocks = true) :
    Hub.MovesWith strict h (h.takeIn f members) := by
  unfold Hub.takeIn
  simp only
  refine .trans (b := { h with store := h.store.put f false members.length }) (.single (.store _ fun hs => hs.put f false _ ?_)) ?_
  · have := hs.2.2.2.2.1
    unfold Store.passes Store.freeShared at hp
    simp only [Bool.false_eq_true, if_false]
    split at hp <;> simp only [decide_eq_true_eq] at hp <;> omega
  · exact foldl_keeps (P := Hub.MovesWith strict _) (f := fun (h : Hub) n => (h.modPort n _).schedule n)
      (fun g m hg => (hg.tail (.port m _ fun hp => hp.enter _ _)).trans (Hub.schedule_moves _ m)) _ .refl

theorem Hub.serveFrame_moves (h : Hub) (source : Slot) (p : PendingFrame) : Hub.MovesWith strict h (h.serveFrame source p) := by
  unfold Hub.serveFrame
  simp only
  split
  · split <;> exact .single (.count _ _)
  · generalize (List.filter (fun n => !h.hasRoom p.frame.blocks n) _) = lacking
    have m : Hub.MovesWith strict h (lacking.foldl Hub.egressDrop h) :=
      foldl_keeps (P := Hub.MovesWith strict h) (f := Hub.egressDrop) (fun g n hg => hg.trans (g.egressDrop_moves n)) _ .refl
    split
    · exact m
    · split
      · next hpass => exact m.trans (Hub.admit_moves _ _ _ hpass)
      · exact m.trans (Hub.storeFull_moves _ source)

theorem Hub.arbitrate_moves (h : Hub) : Hub.MovesWith strict h h.arbitrate := by
  unfold Hub.arbitrate
  split
  · next n _ =>
    split
    · exact .refl
    · next p rest hpend =>
      refine .trans (.tail (.single (.store { h.store with lastControl := n } fun hs => hs)) (.port n _ fun hp => ?_))
        (Hub.serveFrame_moves _ n p)
      refine ⟨?_, hp.2⟩
      have := hp.1
      rw [show ({ h with store := { h.store with lastControl := n } } : Hub).ports[n].pendControl = p :: rest from hpend] at this
      simp at this ⊢; omega
  · split
    · next n _ =>
      split
      · exact .refl
      · next p rest hpend =>
        refine .trans (.tail (.single (.store { h.store with lastBulk := n } fun hs => hs)) (.port n _ fun hp => ?_))
          (Hub.serveFrame_moves _ n p)
        refine ⟨hp.1, ?_, hp.2.2⟩
        have := hp.2.1
        rw [show ({ h with store := { h.store with lastBulk := n } } : Hub).ports[n].pendBulk = p :: rest from hpend] at this
        simp at this ⊢; omega
    · exact .refl

theorem Port.runAfter_le (p : Port) (place : Place) (hp : p.controlRun ≤ 8) : p.runAfter place ≤ 8 := by
  cases place <;> simp only [Port.runAfter]
  · exact hp
  · split <;> omega
  · omega
  · split <;> omega

theorem Port.leave_parts (p : Port) (place : Place) : (p.leave place).pendControl = p.pendControl ∧
    (p.leave place).pendBulk = p.pendBulk ∧ (p.leave place).controlRun = p.controlRun := by
  cases place <;> exact ⟨rfl, rfl, rfl⟩

theorem TimingRec.Legal.sent {r : TimingRec} (hr : r.Legal) (f : Frame) (sentAt : Option HubTime) : (r.sent f sentAt).Legal := by
  unfold TimingRec.sent
  split
  · split
    · exact hr
    · exact hr
  · exact hr

theorem Hub.complete_moves (h : Hub) (n : Slot) : Hub.MovesWith strict h (h.complete n) := by
  unfold Hub.complete
  split
  · exact .refl
  · next t _ =>
    simp only
    generalize hg : (Hub.modPort { h.modLink n fun l => { l with tx := none } with store := _ } n _) = g
    have m : Hub.MovesWith strict h g := by
      rw [← hg]
      refine .tail (.tail (.single (.link n _ fun hl => ⟨by simp, hl.2⟩)) (.store _ fun hs => hs.deref _)) (.port n _ fun hp => ?_)
      obtain ⟨e1, e2, e3⟩ := Port.leave_parts (h.ports[n]) t.place
      refine ⟨?_, ?_, ?_⟩
      · exact e1 ▸ hp.1
      · exact e2 ▸ hp.2.1
      · exact Port.runAfter_le _ _ (e3 ▸ hp.2.2)
    have key : ∀ k : Hub, Hub.MovesWith strict h k →
        Hub.MovesWith strict h (if k.drainDone n then k.enterOff n .drainDone else k.schedule n) := by
      intro k mk
      split
      · exact mk.trans (Hub.enterOff_moves _ n _)
      · exact mk.trans (Hub.schedule_moves _ n)
    apply key
    split
    · split
      · exact m.tail (.trec n _ fun hr => hr.sent _ _)
      · exact m
    · exact m

/-! ## The clock and EXTREF (chapter 6) -/

theorem Hub.frameBoundary_moves (h : Hub) : Hub.MovesWith strict h h.frameBoundary := by
  unfold Hub.frameBoundary
  simp only
  split
  · refine .trans (.single (.clock _ fun hc => ?_)) (Hub.countFrame_moves _ _)
    split
    · exact hc
    · exact Clock.toFrame_legal _
  · exact .refl

theorem Hub.takeAnnounce_moves (h : Hub) : Hub.MovesWith strict h h.takeAnnounce := by
  unfold Hub.takeAnnounce
  split
  · exact .refl
  · next time rest _ => exact .trans (.single (.clock { h.clock with announces := rest } fun hc => hc)) (Hub.announce_moves _ _)

theorem Hub.announceBoundary_moves (h : Hub) : Hub.MovesWith strict h h.announceBoundary := by
  unfold Hub.announceBoundary
  split
  · exact h.frameBoundary_moves.trans (Hub.takeAnnounce_moves _)
  · exact h.takeAnnounce_moves

theorem Hub.towardsSecond_moves (depth : Nat) (h : Hub) : Hub.MovesWith strict h (Hub.towardsSecond depth h) := by
  induction depth generalizing h with
  | zero => exact .refl
  | succ depth ih =>
    rw [Hub.towardsSecond]
    split
    · exact h.takeAnnounce_moves.trans (ih _)
    · split
      · exact .refl
      · exact h.frameBoundary_moves.trans (ih _)

theorem Hub.takeSecond_moves (h : Hub) : Hub.MovesWith strict h h.takeSecond := by
  unfold Hub.takeSecond
  simp only
  generalize hg : (if (h.clock.first .second).isSome then h else Hub.towardsSecond h.clock.eventsInSecond h) = g
  have m : Hub.MovesWith strict h g := by
    rw [← hg]; split
    · exact .refl
    · exact Hub.towardsSecond_moves _ h
  exact (m.tail (.clock (g.clock.take .second) fun hc => hc)).trans (Hub.secondJudgment_moves _)

theorem Hub.linkErrorsClear_moves (h : Hub) (n : Slot) : Hub.MovesWith strict h (h.linkErrorsClear n) := by
  unfold Hub.linkErrorsClear
  simp only
  split
  · exact h.judgeErrored_moves n
  · exact .refl

theorem Hub.holdoverReached_moves (h : Hub) : Hub.MovesWith strict h h.holdoverReached := by
  unfold Hub.holdoverReached
  split
  · refine Hub.setTiming_moves _ _ _ _ (fun hs => ?_) (fun hl => ?_)
    · unfold Timing.SelectionLegal; rw [Timing.holdoverLimit_selection, Timing.holdoverLimit_cands]; exact hs
    · unfold Timing.ListLegal; rw [Timing.holdoverLimit_cands]; exact hl
  · exact .refl

theorem Hub.takePulse_moves (h : Hub) : Hub.MovesWith strict h h.takePulse := by
  unfold Hub.takePulse
  exact .single (.timing _ (fun hs => hs) (fun hl => hl))

theorem Hub.pulseLost_moves (h : Hub) : Hub.MovesWith strict h h.pulseLost :=
  .single (.timing _ (fun hs => hs) (fun hl => hl))

/-! ## The agent's inbox (chapter 9) -/

theorem Hub.identified_moves (h : Hub) (n : Slot) (i : Identity) (hs : h.slots[n].state = .identifying) :
    Hub.MovesWith strict h (h.identified n i) := by
  unfold Hub.identified
  simp only
  have m : Hub.MovesWith strict h (h.modSlot n fun r => { r with identity := some i }) := by
    refine .single (.slotSame n _ ?_); exact ⟨rfl, rfl, rfl, rfl, rfl, rfl⟩
  have s2 : (h.modSlot n fun r => { r with identity := some i }).slots[n].state = .identifying := by
    rw [Hub.modSlot_self]; exact hs
  split
  · exact m.trans (Hub.enterFaulted_moves _ n _ _)
  · split
    · exact m.trans (Hub.enterAwaiting_moves _ n _ _ s2)
    · exact m.trans (Hub.enterAwaiting_moves _ n _ _ s2)

theorem Hub.quiesce_moves (h : Hub) (n : Slot) : Hub.MovesWith strict h (h.quiesce n) := by
  unfold Hub.quiesce
  simp only
  have m : Hub.MovesWith strict h (h.modSlot n fun r => { r with quiesced := true }) := by
    refine .single (.slotSame n _ ?_); exact ⟨rfl, rfl, rfl, rfl, rfl, rfl⟩
  split
  · exact m.trans (Hub.enterOff_moves _ n _)
  · exact m

theorem Hub.takeSample_moves (h : Hub) (n : Slot) (t1 t4 : HubTime) (turnaround : Nat) :
    Hub.MovesWith strict h (h.takeSample n t1 t4 turnaround) := by
  unfold Hub.takeSample
  simp only
  split
  · exact .single (.trec n _ fun hr => hr)
  · next hrej =>
    have hle := sampleRejected_le (by simpa using hrej)
    have m : Hub.MovesWith strict h
        (h.modTrec n (·.useSample (roundTrip t1 t4 turnaround).toNat h.tables.asymmetry[n] h.tables.timing.slewStep)) :=
      .single (.trec n _ fun hr => hr.useSample _ hle _ _)
    refine .trans ?_ (Hub.judgePermit_moves _ _ n)
    split
    · exact m.trans (Hub.clear_moves _ _)
    · exact m

theorem Hub.probeReply_moves (h : Hub) (e : InboxFrame) : Hub.MovesWith strict h (h.probeReply e) := by
  unfold Hub.probeReply
  split
  · split
    · exact h.takeSample_moves _ _ _ _
    · exact .single (.trec _ _ fun hr => hr)
  · exact .single (.trec _ _ fun hr => hr)

theorem Hub.phaseReport_moves (h : Hub) (n : Slot) (error : Int) : Hub.MovesWith strict h (h.phaseReport n error) := by
  unfold Hub.phaseReport
  simp only
  have m : Hub.MovesWith strict h (h.modTrec n (·.phase error h.tables.timing.phaseLimit)) :=
    .single (.trec n _ fun hr => hr.phase _ _)
  split
  · exact ((m.tail (.trec n _ fun hr => hr)).trans (Hub.raise_moves _ _)).trans (Hub.judgePermit_moves _ _ n)
  · split
    · exact ((m.tail (.trec n _ fun hr => hr)).trans (Hub.clear_moves _ _)).trans (Hub.judgePermit_moves _ _ n)
    · exact m

theorem Hub.sourceReport_moves (h : Hub) (e : InboxFrame) (refSec : Nat) (traceable : Bool) :
    Hub.MovesWith strict h (h.sourceReport e refSec traceable) := by
  unfold Hub.sourceReport
  exact .single (.trec _ _ fun hr => hr)

theorem Hub.cardAlarm_moves (h : Hub) (n : Slot) (code : BitVec 16) (isRaise : Bool) (sev : Severity) :
    Hub.MovesWith strict h (h.cardAlarm n code isRaise sev) := by
  unfold Hub.cardAlarm
  simp only
  split
  · exact h.raiseReported_moves _ _
  · exact h.clear_moves _

theorem Hub.sweepReply_moves (h : Hub) (n : Slot) (value : List Byte) (hf : h.agent.sweep.inFlight = true)
    (hn : Mask.has h.agent.sweep.pending n = true) : Hub.MovesWith strict h (h.sweepReply n value) := by
  unfold Hub.sweepReply
  simp only
  exact .trans (.single (.sweep
    { h.agent.sweep with
      pending := Mask.erase h.agent.sweep.pending n
      results := insertSlot n value h.agent.sweep.results }
    rfl fun _ hw => hw.answer n value hn)) (Hub.endSweepIfDone_moves _ hf)

theorem Hub.popInbox_moves (h : Hub) (e : InboxFrame) (rest : List InboxFrame) (hi : h.agent.inbox = e :: rest) :
    Hub.MovesWith strict h (h.popInbox rest) :=
  .single (.agent _ rfl fun hl => by rw [hi] at hl; simp at hl ⊢; omega)

theorem Hub.formDiscard_moves (h : Hub) (n : Slot) : Hub.MovesWith strict h (h.formDiscard n) := .single (.agent _ rfl id)

theorem Hub.stateDiscard_moves (h : Hub) (n : Slot) : Hub.MovesWith strict h (h.stateDiscard n) := .single (.agent _ rfl id)

/-- The dispatch of a frame, where what its owner does with an accepted one is made of moves. -/
theorem Hub.dispatch_moves (h : Hub) (kind : BitVec 6) (act : InboxFrame → Hub → Hub)
    (ha : ∀ (e : InboxFrame) (g : Hub), e.frame.kind = kind → g.accepts e.frame e.slot = true → Hub.MovesWith strict g (act e g)) :
    Hub.MovesWith strict h (Hub.dispatch kind act h) := by
  unfold Hub.dispatch
  split
  · exact .refl
  · next e rest hi =>
    split
    · exact .refl
    · next hk =>
      simp only
      have m := h.popInbox_moves (strict := strict) e rest hi
      split
      · exact m.trans (Hub.formDiscard_moves _ _)
      · split
        · exact m.trans (Hub.stateDiscard_moves _ _)
        · next hacc => exact m.trans (ha e _ (by simpa using hk) (by simpa using hacc))

theorem Hub.invalidFrame_moves (h : Hub) : Hub.MovesWith strict h h.invalidFrame := by
  unfold Hub.invalidFrame
  split
  · exact .refl
  · next e rest hi =>
    split
    · exact .refl
    · exact (h.popInbox_moves e rest hi).trans (Hub.formDiscard_moves _ _)

end

end Sys2Proof.Machine
end

