-- ==== Sys2Proof/Laws/Memory.lean ====
section
/-! SUPPORT. The EEPROM: every operation keeps the canonical form, and a read gives what was written last. -/

namespace Sys2Proof.Machine

namespace Memory

theorem wfFrom_mono {lo lo' : Nat} {m : List Host.Cell} (hlo : lo' ≤ lo) (hm : wfFrom lo m) : wfFrom lo' m := by
  cases m with
  | nil => rfl
  | cons c rest =>
    obtain ⟨a, b⟩ := c
    simp only [wfFrom, Bool.and_eq_true, decide_eq_true_eq] at hm ⊢
    exact ⟨⟨⟨by omega, hm.1.1.2⟩, hm.1.2⟩, hm.2⟩

/-- An offset below every cell reads as blank. -/
theorem read_below {lo x : Nat} {m : List Host.Cell} (hm : wfFrom lo m) (hx : x < lo) : read m x = blankByte := by
  induction m generalizing lo with
  | nil => rfl
  | cons c rest ih =>
    obtain ⟨a, b⟩ := c
    simp only [wfFrom, Bool.and_eq_true, decide_eq_true_eq] at hm
    rw [read, if_neg (by omega)]
    exact ih hm.2 (by omega)

theorem put_wfFrom {lo x : Nat} {v : Byte} {m : List Host.Cell} (hm : wfFrom lo m) (hlo : lo ≤ x) (hx : x < eepromSize) :
    wfFrom lo (put m x v) := by
  induction m generalizing lo with
  | nil =>
    rw [put]; split
    · rfl
    · simp_all [wfFrom]
  | cons c rest ih =>
    obtain ⟨a, b⟩ := c
    simp only [wfFrom, Bool.and_eq_true, decide_eq_true_eq] at hm
    rw [put]
    split
    · split
      · simp_all [wfFrom]
      · simp_all [wfFrom]
    · split
      · split
        · exact wfFrom_mono (by omega) hm.2
        · simp_all [wfFrom]
      · have := ih hm.2 (by omega)
        simp_all [wfFrom]

/-- A write of one byte keeps the canonical form. -/
theorem write_wf {m : List Host.Cell} (hm : wf m) (x : Nat) (v : Byte) : wf (write m x v) := by
  rw [write]; split
  · exact put_wfFrom hm (Nat.zero_le _) ‹_›
  · exact hm

theorem read_cons (a : Nat) (b : Byte) (rest : List Host.Cell) (y : Nat) :
    read ((a, b) :: rest) y = if y = a then b else read rest y := by
  rw [read]
  by_cases h : a = y
  · rw [if_pos h, if_pos h.symm]
  · rw [if_neg h, if_neg (Ne.symm h)]

theorem read_put {lo : Nat} {m : List Host.Cell} (hm : wfFrom lo m) (x y : Nat) (v : Byte) :
    read (put m x v) y = if y = x then v else read m y := by
  induction m generalizing lo with
  | nil =>
    rw [put]
    by_cases hv : v = blankByte
    · rw [if_pos hv, hv]; split <;> rfl
    · rw [if_neg hv, read_cons]
  | cons c rest ih =>
    obtain ⟨a, b⟩ := c
    simp only [wfFrom, Bool.and_eq_true, decide_eq_true_eq] at hm
    have hrest := hm.2
    rw [put]
    by_cases hxa : x < a
    · have hbl : read ((a, b) :: rest) x = blankByte := by
        rw [read_cons, if_neg (by omega)]; exact read_below hrest (by omega)
      rw [if_pos hxa]
      by_cases hv : v = blankByte
      · rw [if_pos hv]; split
        · next hy => rw [hy, hbl, hv]
        · rfl
      · rw [if_neg hv, read_cons]
    · rw [if_neg hxa]
      by_cases he : x = a
      · subst he
        rw [if_pos rfl]
        by_cases hv : v = blankByte
        · rw [if_pos hv, read_cons]; split
          · next hy => rw [hy, hv]; exact read_below hrest (by omega)
          · rfl
        · rw [if_neg hv, read_cons, read_cons]; split <;> rfl
      · rw [if_neg he, read_cons, ih hrest, read_cons]
        by_cases hy : y = a
        · rw [if_pos hy, if_neg (by omega), if_pos hy]
        · rw [if_neg hy, if_neg hy]

/-- A read after a write of one byte: the byte written at its offset, and every other byte as before. -/
theorem read_write {m : List Host.Cell} (hm : wf m) (x y : Nat) (v : Byte) (hx : x < eepromSize) :
    read (write m x v) y = if y = x then v else read m y := by
  rw [write, if_pos hx]; exact read_put hm x y v

/-- Writes one after another keep the canonical form. -/
theorem writeAll_wf {m : List Host.Cell} (hm : wf m) (ws : List (Nat × Byte)) : wf (writeAll m ws) := by
  unfold writeAll
  induction ws generalizing m with
  | nil => exact hm
  | cons w ws ih => exact ih (write_wf hm w.1 w.2)

/-- An offset that no write names reads as before. -/
theorem read_writeAll_other {m : List Host.Cell} (hm : wf m) (ws : List (Nat × Byte)) (y : Nat) (hy : y ∉ ws.map (·.1)) :
    read (writeAll m ws) y = read m y := by
  unfold writeAll
  induction ws generalizing m with
  | nil => rfl
  | cons w ws ih =>
    simp only [List.map_cons, List.mem_cons, not_or] at hy
    rw [List.foldl_cons, ih (write_wf hm _ _) hy.2]
    by_cases hw : w.1 < eepromSize
    · rw [read_write hm _ _ _ hw, if_neg hy.1]
    · rw [write, if_neg hw]

@[simp] theorem bytes_length (m : List Host.Cell) (off len : Nat) : (bytes m off len).length = len := by
  induction len generalizing off with
  | zero => rfl
  | succ len ih => simp [bytes, ih]

end Memory

/-- The EEPROM after reset is in canonical form. -/
theorem State.reset_wf : Memory.wf State.reset.eeprom := rfl

theorem unmatched_wf {m : List Host.Cell} (hm : Memory.wf m) : Memory.wf (unmatched m) := by
  unfold unmatched; split
  · exact Memory.writeAll_wf hm _
  · exact hm

/-- Keeping a stored image from matching touches the two bytes of its CRC field alone. -/
theorem read_unmatched_other {m : List Host.Cell} (hm : Memory.wf m) (y : Nat) (hlo : y ≠ crcOffset m) (hhi : y ≠ crcOffset m + 1) :
    Memory.read (unmatched m) y = Memory.read m y := by
  unfold unmatched; split
  · exact Memory.read_writeAll_other hm _ y (by simp [hlo, hhi])
  · rfl

/-- An image that its CRC does not fit stands. -/
theorem unmatched_eq_self {m : List Host.Cell} (h : crcMatches m = false) : unmatched m = m := by simp [unmatched, h]

/-- A save cut off keeps the canonical form. -/
theorem saveCutOff_wf {m : List Host.Cell} (hm : Memory.wf m) (settings : Settings) (written : Nat) :
    Memory.wf (saveCutOff m settings written) := by
  unfold saveCutOff; split
  · exact unmatched_wf (Memory.writeAll_wf hm _)
  · exact Memory.writeAll_wf hm _

theorem flipByte_wf {m : List Host.Cell} (hm : Memory.wf m) (p : Fin 821 × Fin 255) : Memory.wf (flipByte m p) := by
  unfold flipByte; split
  · exact Memory.write_wf hm _ _
  · exact hm

theorem flipBytes_wf (flips : List (Fin 821 × Fin 255)) {m : List Host.Cell} (hm : Memory.wf m) :
    Memory.wf (flips.foldl flipByte m) := by
  induction flips generalizing m with
  | nil => exact hm
  | cons p flips ih =>
    rw [List.foldl_cons]
    exact ih (flipByte_wf hm p)

/-- A save that ended keeps the canonical form. -/
theorem saveEnded_wf {m : List Host.Cell} (hm : Memory.wf m) (settings : Settings) (result : SaveEnd) :
    Memory.wf (saveEnded m settings result) := by
  cases result with
  | saved => rw [saveEnded]; exact Memory.writeAll_wf hm _
  | noAck writes =>
    rw [saveEnded]
    split
    · exact saveCutOff_wf hm settings writes
    · exact unmatched_wf (saveCutOff_wf hm settings writes)
  | mismatch flips => rw [saveEnded]; exact unmatched_wf (flipBytes_wf flips (Memory.writeAll_wf hm _))

end Sys2Proof.Machine
end

