-- ==== Sys2Proof/Laws/Settings.lean ====
section
/-! SUPPORT. What the bodies of requests and the sections of an image can carry: a value that is taken over lies within the range its
rule gives. -/

namespace Sys2Proof.Machine

theorem clampNat_range (lo hi v : Nat) (h : lo ≤ hi) : lo ≤ clampNat lo hi v ∧ clampNat lo hi v ≤ hi := by
  unfold clampNat; omega

theorem PlanEntry.clamp_legal (p : PlanEntry) : p.clamp.retryLimit ≤ 3 := (clampNat_range 0 3 _ (by decide)).2

theorem PortLimit.clamp_legal (p : PortLimit) :
    17 ≤ p.clamp.limit ∧ p.clamp.limit ≤ 1984 ∧ 1 ≤ p.clamp.threshold ∧ p.clamp.threshold ≤ 1000 := by
  have h1 := clampNat_range 17 1984 p.limit (by decide)
  have h2 := clampNat_range 1 1000 p.threshold (by decide)
  exact ⟨h1.1, h1.2, h2.1, h2.2⟩

theorem BudgetRec.clamp_legal (b : BudgetRec) :
    (100 ≤ b.clamp.budget ∧ b.clamp.budget ≤ 2000) ∧ (50 ≤ b.clamp.recoveryWindow ∧ b.clamp.recoveryWindow ≤ 2000) ∧
      (100 ≤ b.clamp.drainTimeout ∧ b.clamp.drainTimeout ≤ 5000) :=
  ⟨clampNat_range _ _ _ (by decide), clampNat_range _ _ _ (by decide), clampNat_range _ _ _ (by decide)⟩

theorem TimingParams.clamp_legal (p : TimingParams) : p.clamp.Legal := by
  have hw := clampNat_range 20 1000 p.lockWindow (by decide)
  exact ⟨clampNat_range _ _ _ (by decide), clampNat_range _ _ _ (by decide), clampNat_range _ _ _ (by decide), hw,
    clampNat_range (clampNat 20 1000 p.lockWindow) 10000 _ (by omega), (clampNat_range 0 10000 _ (by decide)).2, clampNat_range _ _ _ (by decide),
    clampNat_range _ _ _ (by decide), clampNat_range _ _ _ (by decide)⟩

theorem classFilterOf_legal {v : Nat} {c : ClassFilter} (h : classFilterOf v = some c) : (c.control || c.bulk) = true := by
  unfold classFilterOf at h
  split at h <;> cases h <;> rfl

/-- A window entry that is accepted could be enabled as it stands (R28). -/
theorem parseWindow_legal {bs : List Byte} {w : Window} (h : parseWindow bs = some w) : w.Legal := by
  unfold parseWindow at h
  simp only [Option.bind_eq_bind, Option.bind_eq_some_iff] at h
  obtain ⟨en, -, tgt, -, remap, hremap, cls, hcls, src, -, h⟩ := h
  split at h
  · cases h
  · next hexp =>
    split at h
    · cases h
    · next hbase =>
      split at h
      · cases h
      · next hrem =>
        cases h
        simp only [Bool.or_eq_true, decide_eq_true_eq, not_or, Nat.not_lt] at hexp
        obtain ⟨h8, h31⟩ := hexp
        have fits : ∀ v, v < 256 ^ 4 → (BitVec.ofNat 32 v).toNat = v := fun v hv => by
          rw [BitVec.toNat_ofNat, Nat.mod_eq_of_lt (by norm_num at hv ⊢; exact hv)]
        refine ⟨h8, h31, ?_, ?_, classFilterOf_legal hcls⟩
        · unfold Window.size
          simp only
          rw [fits _ (fieldAt_lt bs 1 4)]
          simpa using hbase
        · intro r hr
          unfold Window.size
          simp only at hr ⊢
          obtain ⟨v, hv, rfl⟩ := Option.map_eq_some_iff.mp hr
          subst hv
          unfold optOf at hremap
          split at hremap
          · cases hremap
          · split at hremap
            · simp only [Option.map_some, Option.some.injEq] at hremap
              subst hremap
              rw [fits _ (fieldAt_lt bs 9 4)]
              simpa using hrem
            · cases hremap

theorem parseAsymmetry_legal {bs : List Byte} {a : Int} (h : parseAsymmetry bs = some a) : -4000 ≤ a ∧ a ≤ 4000 := by
  unfold parseAsymmetry at h
  simp only at h
  split at h
  · cases h
  · next hr => cases h; omega

theorem parseKindEntry_legal {k : AlarmKind} {bs : List Byte} {e : KindEntry} (h : parseKindEntry k bs = some e) :
    e.action = .fenceSlot → k.slotSourced = true := by
  unfold parseKindEntry at h
  simp only [Option.bind_eq_bind, Option.bind_eq_some_iff] at h
  obtain ⟨sev, -, nt, -, act, -, rl, -, h⟩ := h
  split at h
  · cases h
  · next hc =>
    cases h
    intro ha
    simp only at ha
    simpa [ha] using hc

theorem parseSources_nodup {bs : List Byte} {off count : Nat} {l : List Source} (h : parseSources bs off count = some l) :
    l.length = count ∧ l.Nodup := by
  induction count generalizing off l with
  | zero => simp only [parseSources, Option.some.injEq] at h; subst h; simp
  | succ count ih =>
    simp only [parseSources, Option.bind_eq_bind, Option.bind_eq_some_iff] at h
    obtain ⟨s, -, rest, hr, h⟩ := h
    obtain ⟨hl, hn⟩ := ih hr
    split at h
    · cases h
    · next hc =>
      cases h
      refine ⟨by simp [hl], List.nodup_cons.mpr ⟨?_, hn⟩⟩
      simpa using hc

/-- An accepted candidates record names at most four sources, each once (R114). -/
theorem parseCandidates_legal {bs : List Byte} {r : Bool} {l : List Source} (h : parseCandidates bs = some (r, l)) :
    l.length ≤ 4 ∧ l.Nodup := by
  unfold parseCandidates at h
  simp only [Option.bind_eq_bind, Option.bind_eq_some_iff] at h
  obtain ⟨rv, -, h⟩ := h
  split at h
  · cases h
  · next hc =>
    obtain ⟨sources, hs, h⟩ := Option.bind_eq_some_iff.mp h
    cases h
    obtain ⟨hl, hn⟩ := parseSources_nodup hs
    exact ⟨by omega, hn⟩

/-- What `mapM` answers, element by element. -/
theorem mapM_getElem {α β : Type} {f : α → Option β} {l : List α} {l' : List β} (h : l.mapM f = some l') :
    ∃ he : l'.length = l.length, ∀ (i : Nat) (hi : i < l.length), f l[i] = some (l'[i]'(he ▸ hi)) := by
  induction l generalizing l' with
  | nil => simp at h; subst h; exact ⟨rfl, fun i hi => absurd hi (by simp)⟩
  | cons a l ih =>
    simp only [List.mapM_cons, Option.bind_eq_bind, Option.bind_eq_some_iff] at h
    obtain ⟨b, hb, bs, hbs, h⟩ := h
    cases h
    obtain ⟨he, hall⟩ := ih hbs
    refine ⟨by simp [he], fun i hi => ?_⟩
    cases i with
    | zero => exact hb
    | succ i => exact hall i (by simpa using hi)

/-- Every record of a parsed section was parsed. -/
theorem parseMany_parsed {α : Type} {parse : List Byte → Option α} {size : Nat} {bs : List Byte} {off k : Nat} {v : Vector α k}
    (h : parseMany parse size bs off k = some v) (i : Fin k) : ∃ r, parse r = some v[i] := by
  unfold parseMany at h
  split at h
  · cases h
  · next l hl =>
    split at h
    · next hk =>
      cases h
      obtain ⟨he, hall⟩ := mapM_getElem hl
      exact ⟨_, hall i.val (by simp)⟩
    · cases h

theorem alarmKinds_idx (k : AlarmKind) : alarmKinds[k.idx.val]'(k.idx.isLt) = k := by cases k <;> rfl

theorem parseKinds_parsed {bs : List Byte} {off : Nat} {v : Vector KindEntry 20} (h : parseKinds bs off = some v)
    (k : AlarmKind) : ∃ r, parseKindEntry k r = some v[k.idx] := by
  unfold parseKinds at h
  split at h
  · cases h
  · next l hl =>
    split at h
    · cases h
      obtain ⟨he, hall⟩ := mapM_getElem hl
      have := hall k.idx.val k.idx.isLt
      rw [alarmKinds_idx] at this
      exact ⟨_, this⟩
    · cases h

/-- The settings of a valid image lie within their ranges (R183). -/
theorem parseSections_legal {bs : List Byte} {s : Settings} (h : parseSections bs = some s) :
    s.tables.Legal ∧ s.sources.length ≤ 4 ∧ s.sources.Nodup := by
  unfold parseSections at h
  simp only [Option.bind_eq_bind, Option.bind_eq_some_iff] at h
  obtain ⟨plan, -, windows, hw, groups, -, dt, -, ports, -, cands, hc, asym, ha, kinds, hk, relay, -, h⟩ := h
  cases h
  obtain ⟨b1, b2, b3⟩ := (parseBudget ((bs.drop 68).take 6)).clamp_legal
  obtain ⟨c1, c2⟩ := parseCandidates_legal (r := cands.1) (l := cands.2) hc
  refine ⟨⟨?_, b1, b2, b3, ?_, ?_, TimingParams.clamp_legal _, ?_, ?_⟩, c1, c2⟩
  · intro n; simp only [Fin.getElem_fin, mapEach_get]; exact PlanEntry.clamp_legal _
  · intro i; obtain ⟨r, hr⟩ := parseMany_parsed hw i; exact parseWindow_legal hr
  · intro n; simp only [Fin.getElem_fin, mapEach_get]; exact PortLimit.clamp_legal _
  · intro n; obtain ⟨r, hr⟩ := parseMany_parsed ha n; exact parseAsymmetry_legal hr
  · intro k _; obtain ⟨r, hr⟩ := parseKinds_parsed hk k; exact parseKindEntry_legal hr

theorem judgeImage_legal {m : List Host.Cell} {s : Settings} (h : judgeImage m = .inr s) :
    s.tables.Legal ∧ s.sources.length ≤ 4 ∧ s.sources.Nodup := by
  unfold judgeImage at h
  simp only at h
  split at h
  · cases h
  · split at h
    · cases h
    · split at h
      · cases h
      · split at h
        · cases h
        · split at h
          · cases h
          · next hp => cases h; exact parseSections_legal hp

end Sys2Proof.Machine
end

