-- ==== Sys2Proof/Laws/Effects.lean ====
section
/-! SUPPORT. What one command can do to the machine, said once: the cases of `Hub.Effect`. A proof that every step keeps a promise
goes through these cases and through the elementary moves, and never unfolds a meaning. -/

namespace Sys2Proof.Machine

/-- What a command can do to the hub. -/
inductive Hub.Effect (h : Hub) : Hub → Prop
  /-- An event that takes no request and ends no save. -/
  | moves {g : Hub} (m : Hub.Moves h g) : Hub.Effect h g
  /-- A request taken and answered, with the settings it sets. -/
  | answered (r : Request) (rest : List Request) (status : Status) (body : Body) (t : Tables) {g : Hub}
    (hi : h.port.inbound = r :: rest) (ht : h.tables.Legal → t.Legal) (hb : h.WithinBudget → h.committed ≤ t.budget)
    (m : Hub.Moves { h.popRequest rest with tables := t } g) : Hub.Effect h (g.answer r status body)
  /-- A HUB_RESET accepted (R179). -/
  | resetAccepted (r : Request) (rest : List Request) (hi : h.port.inbound = r :: rest) :
    Hub.Effect h (let g := (h.popRequest rest).answer r .ok .empty; { g with port := { g.port with resetPending := true } })
  /-- A SWEEP taken (R164): its context is new, and in order when its slots have been queried. -/
  | sweepTaken (r : Request) (rest : List Request) (w : Sweep) {g : Hub} (hi : h.port.inbound = r :: rest)
    (hold : h.agent.sweep.inFlight = false) (hw : w.inFlight = true)
    (m : Hub.MovesWith false ((h.popRequest rest).setSweep w) g) (hg : g.agent.sweep.inFlight = true ∧ g.agent.sweep.Legal) :
    Hub.Effect h g.endSweepIfDone
  /-- A CONFIG_SAVE taken (R185). -/
  | saveTaken (r : Request) (rest : List Request) (save : Save) (hi : h.port.inbound = r :: rest) (hs : h.config.save = none)
    (hd : save.replyDue = true) :
    Hub.Effect h { h.popRequest rest with config := { h.config with save := some save } }
  /-- The end of a save (R186). -/
  | saveEnded (save : Save) (result : Option SaveFault × Nat) (hs : h.config.save = some save) :
    Hub.Effect h (h.saveDone save result)
  /-- The end of a load (R184). -/
  | loaded (t : Tables) (cands : List Candidate) (c : ConfigStore) {g : Hub} (hl : h.config.loading = true)
    (ht : h.tables.Legal → t.Legal) (hc : h.timing.ListLegal → ({ h.timing with cands } : Timing).ListLegal)
    (hs : c.save = h.config.save)
    (m : Hub.Moves { h with tables := t, timing := { h.timing with cands }, config := c } g) : Hub.Effect h g
  /-- A write transfer (R172). -/
  | written (bs : List Byte) : Hub.Effect h { h with port := h.port.write h.config.loading bs }
  /-- A read transfer that takes no message (R175). -/
  | driven (bs : List Byte) : Hub.Effect h { h with port := { h.port with driven := bs } }
  /-- A message read whole (R175). -/
  | read (bs : List Byte) (m : Message) (rest : List Message) (ho : h.port.outbound = m :: rest) :
    Hub.Effect h { h with port := { h.port with
      driven := bs, outbound := rest, openCount := if m.isReply then h.port.openCount - 1 else h.port.openCount,
      attn := !rest.isEmpty } }
  /-- A power-on reset or a hub reset (R179, R182). -/
  | reset (g : Hub) (kind : ResetKind) (strap : Bool) : Hub.Effect h (g.afterReset kind strap)
  /-- A host-port reset (R181). -/
  | hostPortReset : Hub.Effect h h.hostPortReset

/-! ## Requests -/

section

variable {h : Hub}

/-- A request taken and answered with no setting changed. -/
theorem Hub.Effect.answeredAs (r : Request) (rest : List Request) (status : Status) (body : Body) {g : Hub}
    (hi : h.port.inbound = r :: rest) (m : Hub.Moves (h.popRequest rest) g) : Hub.Effect h (g.answer r status body) :=
  .answered r rest status body h.tables hi id id m

theorem Hub.Effect.refused (r : Request) (rest : List Request) (status : Status) (hi : h.port.inbound = r :: rest) :
    Hub.Effect h ((h.popRequest rest).refuse r status) :=
  .answeredAs r rest status _ hi (.single (.draws _))

/-- Taking a request: nothing happens, or it is answered with BAD_LENGTH, or its owner acts (R173). -/
theorem Hub.take_effect (h : Hub) (code : Byte) (act : Request → Hub → Hub)
    (ha : ∀ r rest, h.port.inbound = r :: rest → Hub.Effect h (act r (h.popRequest rest))) :
    Hub.Effect h (Hub.take code act h) := by
  unfold Hub.take
  split
  · exact .moves .refl
  · next r rest hi =>
    split
    · exact .moves .refl
    · split
      · exact ha r rest hi
      · exact .answeredAs r rest _ _ hi .refl

/-- The same for a request whose first byte is a slot number. -/
theorem Hub.takeSlot_effect (h : Hub) (code : Byte) (act : Request → Slot → Hub → Hub)
    (ha : ∀ r rest n, h.port.inbound = r :: rest → Hub.Effect h (act r n (h.popRequest rest))) :
    Hub.Effect h (Hub.take code (fun r => Hub.withSlot r (act r)) h) := by
  refine h.take_effect code _ fun r rest hi => ?_
  unfold Hub.withSlot
  split
  · exact .refused r rest _ hi
  · exact ha r rest _ hi

/-! ### The hub, the sweeps and the saves -/

theorem Hub.unknownRequest_effect (h : Hub) : Hub.Effect h h.unknownRequest := by
  unfold Hub.unknownRequest
  split
  · exact .moves .refl
  · next r rest hi =>
    split
    · exact .moves .refl
    · exact .answeredAs r rest _ _ hi .refl

theorem Hub.hubReset_effect (r : Request) (rest : List Request) (hi : h.port.inbound = r :: rest) :
    Hub.Effect h (Hub.hubReset r (h.popRequest rest)) := by
  unfold Hub.hubReset
  split
  · exact .answeredAs r rest _ _ hi .refl
  · exact .resetAccepted r rest hi

/-- What holds of the sweep context while its slots are queried one by one (R164). -/
structure Sweep.Queried (mask : SlotMask) (done : List Slot) (w : Sweep) : Prop where
  inFlight : w.inFlight = true
  requested : w.requested = mask
  results : w.results = []
  nodup : (w.failures.map (·.1)).Nodup
  apart : ∀ m, Mask.has w.pending m → m ∉ w.failures.map (·.1)
  all : ∀ m, (Mask.has w.pending m ∨ m ∈ w.failures.map (·.1)) ↔ m ∈ done

theorem Sweep.Queried.fail {mask : SlotMask} {done : List Slot} {w : Sweep} (hq : w.Queried mask done) (n : Slot)
    (hn : n ∉ done) (reason : SweepFailure) : (w.fail n reason).Queried mask (n :: done) := by
  have hnot : n ∉ w.failures.map (·.1) := fun hm => hn ((hq.all n).mp (.inr hm))
  have hpnot : ¬ Mask.has w.pending n = true := fun hm => hn ((hq.all n).mp (.inl hm))
  refine ⟨hq.inFlight, hq.requested, hq.results, ?_, fun m hm => ?_, fun m => ?_⟩
  · simp only [Sweep.fail]
    rw [(perm_insertSlot n reason w.failures).nodup_iff]
    exact List.nodup_cons.mpr ⟨hnot, hq.nodup⟩
  · simp only [Sweep.fail, Mask.has_erase, Bool.and_eq_true, Bool.not_eq_true', decide_eq_false_iff_not] at hm ⊢
    rw [mem_insertSlot]
    exact not_or.mpr ⟨fun e => hm.2 e.symm, hq.apart m hm.1⟩
  · simp only [Sweep.fail, Mask.has_erase, Bool.and_eq_true, Bool.not_eq_true', decide_eq_false_iff_not, mem_insertSlot,
      List.mem_cons, ← hq.all m]
    by_cases he : m = n
    · subst he; simp
    · have : ¬ n = m := fun e => he e.symm
      simp [he, this]

theorem Sweep.Queried.pend {mask : SlotMask} {done : List Slot} {w : Sweep} (hq : w.Queried mask done) (n : Slot)
    (hn : n ∉ done) : ({ w with pending := Mask.insert w.pending n } : Sweep).Queried mask (n :: done) := by
  have hnot : n ∉ w.failures.map (·.1) := fun hm => hn ((hq.all n).mp (.inr hm))
  refine ⟨hq.inFlight, hq.requested, hq.results, hq.nodup, fun m hm => ?_, fun m => ?_⟩
  · simp only [Mask.has_insert, Bool.or_eq_true, decide_eq_true_eq] at hm
    rcases hm with hm | rfl
    · exact hq.apart m hm
    · exact hnot
  · simp only [Mask.has_insert, Bool.or_eq_true, decide_eq_true_eq, List.mem_cons, ← hq.all m]
    by_cases he : m = n
    · subst he; simp
    · have : ¬ n = m := fun e => he e.symm
      simp [he, this]

/-- One slot queried. -/
theorem Hub.querySlot_effect (h : Hub) (n : Slot) {mask : SlotMask} {done : List Slot} (hn : n ∉ done)
    (hq : h.agent.sweep.Queried mask done) :
    Hub.MovesWith false h (h.querySlot n) ∧ (h.querySlot n).agent.sweep.Queried mask (n :: done) := by
  have loose : ∀ (g : Hub) (w : Sweep), w.inFlight = g.agent.sweep.inFlight → Hub.MovesWith false g (g.setSweep w) :=
    fun g w hw => .single (.sweep w hw fun hf => by cases hf)
  unfold Hub.querySlot
  split
  · exact ⟨loose _ _ rfl, hq.fail n hn _⟩
  · have hlen : (h.agent.sweep.query n).payload.length ≤ 52 := by simp [Sweep.query, agentFrame]
    have m := h.place_moves (strict := false) n .control (h.agent.sweep.query n) hlen
    have q := (h.place_quiet n .control (h.agent.sweep.query n) (.inr rfl) hlen).sweep
    simp only
    split
    · exact ⟨m.trans (loose _ _ rfl), by rw [Hub.setSweep_sweep, q]; exact hq.pend n hn⟩
    · exact ⟨m.trans (loose _ _ rfl), by rw [Hub.setSweep_sweep, q]; exact hq.fail n hn _⟩

theorem Hub.querySlots_effect (l : List Slot) (hnd : l.Nodup) (h : Hub) {mask : SlotMask} {done : List Slot}
    (hd : ∀ n ∈ l, n ∉ done) (hq : h.agent.sweep.Queried mask done) :
    Hub.MovesWith false h (l.foldl Hub.querySlot h) ∧
      (l.foldl Hub.querySlot h).agent.sweep.Queried mask (l.reverse ++ done) := by
  induction l generalizing h done with
  | nil => exact ⟨.refl, hq⟩
  | cons n l ih =>
    obtain ⟨hn, hnd⟩ := List.nodup_cons.mp hnd
    obtain ⟨m, hq'⟩ := h.querySlot_effect n (hd n (by simp)) hq
    obtain ⟨m', hq''⟩ := ih hnd (h.querySlot n) (done := n :: done) (fun k hk => by
      simp only [List.mem_cons, not_or]
      exact ⟨fun e => hn (e ▸ hk), hd k (List.mem_cons_of_mem _ hk)⟩) hq'
    refine ⟨m.trans m', ?_⟩
    simpa using hq''

/-- A sweep taken (R164). -/
theorem Hub.sweepRequest_effect (r : Request) (rest : List Request) (hi : h.port.inbound = r :: rest) :
    Hub.Effect h (Hub.sweepRequest r (h.popRequest rest)) := by
  unfold Hub.sweepRequest
  split
  · next item mask _ _ =>
    split
    · exact .refused r rest _ hi
    · split
      · exact .refused r rest _ hi
      · next hnf =>
        unfold Hub.startSweep
        simp only
        generalize hw : Sweep.mk _ _ _ _ _ _ _ _ _ _ _ _ = w
        have hq : w.Queried mask [] := by
          rw [← hw]
          refine ⟨rfl, rfl, rfl, List.nodup_nil, fun m _ => by simp, fun m => ?_⟩
          simp [Mask.has]
        obtain ⟨m, hq'⟩ := Hub.querySlots_effect (Mask.slots mask) (allSlots_nodup.filter _) ((h.popRequest rest).setSweep w)
          (mask := mask) (done := []) (fun _ _ => by simp) hq
        refine .sweepTaken r rest w hi (by simpa using hnf) hq.inFlight m ⟨hq'.inFlight, fun _ => ?_⟩
        rw [hq'.results, hq'.requested]
        refine ⟨by simpa using hq'.nodup, fun n => ⟨?_, ?_⟩⟩
        · have := hq'.all n
          simp only [List.append_nil, List.mem_reverse, Mask.mem_slots] at this
          simpa using this.symm
        · intro hp; simpa using hq'.apart n hp
  · exact .refused r rest _ hi

theorem Hub.sweepAbort_effect (r : Request) (rest : List Request) (hi : h.port.inbound = r :: rest) :
    Hub.Effect h (Hub.sweepAbort r (h.popRequest rest)) := by
  unfold Hub.sweepAbort
  split
  · next hf => exact .answeredAs r rest _ _ hi (Hub.failSweep_moves _ _ hf)
  · exact .answeredAs r rest _ _ hi .refl

theorem Hub.configSave_effect (r : Request) (rest : List Request) (hi : h.port.inbound = r :: rest) :
    Hub.Effect h (Hub.configSave r (h.popRequest rest)) := by
  unfold Hub.configSave
  split
  · exact .refused r rest _ hi
  · next hs => exact .saveTaken r rest _ hi (by simpa using hs) rfl

/-! ### Slots -/

theorem Hub.planSet_effect (r : Request) (rest : List Request) (n : Slot) (hi : h.port.inbound = r :: rest) :
    Hub.Effect h (Hub.planSet r n (h.popRequest rest)) := by
  unfold Hub.planSet
  split
  · exact .refused r rest _ hi
  · next entry _ =>
    simp only
    refine .answered r rest _ _ { h.tables with plan := h.tables.plan.set n entry.clamp } hi (fun ht => ?_) id
      (Hub.judgeOutputs_moves _)
    obtain ⟨h1, h2⟩ := ht
    refine ⟨fun m => ?_, h2⟩
    simp only [Fin.getElem_fin, Vector.getElem_set]
    split
    · exact entry.clamp_legal
    · exact h1 m

theorem Hub.power_moves (h : Hub) (n : Slot) : Hub.Moves h (h.power n).1 := by
  unfold Hub.power
  split
  · next hs _ =>
    split
    · exact .refl
    · exact ((h.join_moves n hs).trans (Hub.serve_moves _)).trans (Hub.announceGrants_moves _ _)
  · exact h.enterSeated_moves n _ _
  · exact .refl

theorem Hub.slotPower_effect (r : Request) (rest : List Request) (n : Slot) (hi : h.port.inbound = r :: rest) :
    Hub.Effect h (Hub.slotPower r n (h.popRequest rest)) := by
  unfold Hub.slotPower
  exact .answeredAs r rest _ _ hi (Hub.power_moves _ n)

theorem Hub.slotAdmit_effect (r : Request) (rest : List Request) (n : Slot) (hi : h.port.inbound = r :: rest) :
    Hub.Effect h (Hub.slotAdmit r n (h.popRequest rest)) := by
  unfold Hub.slotAdmit
  split
  · next hs => exact .answeredAs r rest _ _ hi (Hub.enterForwarding_moves _ n _ (by rw [hs.1]; rfl))
  · exact .answeredAs r rest _ _ hi .refl

theorem Hub.slotRelease_effect (r : Request) (rest : List Request) (n : Slot) (hi : h.port.inbound = r :: rest) :
    Hub.Effect h (Hub.slotRelease r n (h.popRequest rest)) := by
  unfold Hub.slotRelease
  exact .answeredAs r rest _ _ hi (Hub.release_moves _ n _)

theorem Hub.slotFence_effect (r : Request) (rest : List Request) (n : Slot) (hi : h.port.inbound = r :: rest) :
    Hub.Effect h (Hub.slotFence r n (h.popRequest rest)) := by
  unfold Hub.slotFence
  exact .answeredAs r rest _ _ hi (Hub.fence_moves _ n _)

theorem Hub.slotRestore_effect (r : Request) (rest : List Request) (n : Slot) (hi : h.port.inbound = r :: rest) :
    Hub.Effect h (Hub.slotRestore r n (h.popRequest rest)) := by
  unfold Hub.slotRestore
  split
  · next hs => exact .answeredAs r rest _ _ hi (Hub.enterForwarding_moves _ n _ (by rw [hs.1]; rfl))
  · exact .answeredAs r rest _ _ hi .refl

theorem Hub.slotRestart_effect (r : Request) (rest : List Request) (n : Slot) (hi : h.port.inbound = r :: rest) :
    Hub.Effect h (Hub.slotRestart r n (h.popRequest rest)) := by
  unfold Hub.slotRestart
  split
  · refine .answeredAs r rest _ _ hi (.trans (.single (.slotSame n _ ?_)) (Hub.enterSeated_moves _ n _ _))
    exact ⟨rfl, rfl, rfl, rfl, rfl, rfl⟩
  · exact .answeredAs r rest _ _ hi .refl

theorem Hub.slotLinkReset_effect (r : Request) (rest : List Request) (n : Slot) (hi : h.port.inbound = r :: rest) :
    Hub.Effect h (Hub.slotLinkReset r n (h.popRequest rest)) := by
  unfold Hub.slotLinkReset
  split
  · simp only
    refine .answeredAs r rest _ _ hi ?_
    split
    · exact (Hub.resetLink_moves _ n).trans (Hub.linkLeft_moves _ n _)
    · exact Hub.resetLink_moves _ n
  · exact .answeredAs r rest _ _ hi .refl

theorem Hub.budgetSet_effect (r : Request) (rest : List Request) (hi : h.port.inbound = r :: rest) :
    Hub.Effect h (Hub.budgetSet r (h.popRequest rest)) := by
  unfold Hub.budgetSet
  simp only
  split
  · exact .answeredAs r rest _ _ hi .refl
  · next hb =>
    obtain ⟨b1, b2, b3⟩ := (parseBudget r.body).clamp_legal
    generalize (parseBudget r.body).clamp.budget = budget at *
    generalize (parseBudget r.body).clamp.recoveryWindow = recoveryWindow at *
    generalize (parseBudget r.body).clamp.drainTimeout = drainTimeout at *
    refine .answered r rest _ _ { h.tables with budget, recoveryWindow, drainTimeout } hi
      (fun ht => ⟨ht.1, b1, b2, b3, ht.2.2.2.2⟩) (fun _ => ?_) ?_
    · exact Nat.le_of_not_lt hb
    · split
      · exact (Hub.serve_moves _).trans (Hub.announceGrants_moves _ _)
      · exact .refl

/-! ### Tables and ports -/

theorem Hub.windowSet_effect (r : Request) (rest : List Request) (hi : h.port.inbound = r :: rest) :
    Hub.Effect h (Hub.windowSet r (h.popRequest rest)) := by
  unfold Hub.windowSet
  split
  · next i w _ hw =>
    refine .answered r rest _ _ { h.tables with windows := h.tables.windows.set i w } hi (fun ht => ?_) id .refl
    obtain ⟨h1, h2, h3, h4, h5, h6⟩ := ht
    refine ⟨h1, h2, h3, h4, fun j => ?_, h6⟩
    simp only [Fin.getElem_fin, Vector.getElem_set]
    split
    · exact parseWindow_legal hw
    · exact h5 j
  · exact .refused r rest _ hi

theorem Hub.windowGet_effect (r : Request) (rest : List Request) (hi : h.port.inbound = r :: rest) :
    Hub.Effect h (Hub.windowGet r (h.popRequest rest)) := by
  unfold Hub.windowGet
  split
  · exact .answeredAs r rest _ _ hi .refl
  · exact .refused r rest _ hi

theorem Hub.groupSet_effect (r : Request) (rest : List Request) (hi : h.port.inbound = r :: rest) :
    Hub.Effect h (Hub.groupSet r (h.popRequest rest)) := by
  unfold Hub.groupSet
  split
  · next g mask _ _ => exact .answered r rest _ _ { h.tables with groups := h.tables.groups.set g mask } hi id id .refl
  · exact .refused r rest _ hi

theorem Hub.groupGet_effect (r : Request) (rest : List Request) (hi : h.port.inbound = r :: rest) :
    Hub.Effect h (Hub.groupGet r (h.popRequest rest)) := by
  unfold Hub.groupGet
  split
  · exact .answeredAs r rest _ _ hi .refl
  · exact .refused r rest _ hi

theorem Hub.defaultTargetSet_effect (r : Request) (rest : List Request) (hi : h.port.inbound = r :: rest) :
    Hub.Effect h (Hub.defaultTargetSet r (h.popRequest rest)) := by
  unfold Hub.defaultTargetSet
  split
  · next target _ => exact .answered r rest _ _ { h.tables with defaultTarget := target } hi id id .refl
  · exact .refused r rest _ hi

theorem Hub.portLimitSet_effect (r : Request) (rest : List Request) (n : Slot) (hi : h.port.inbound = r :: rest) :
    Hub.Effect h (Hub.portLimitSet r n (h.popRequest rest)) := by
  unfold Hub.portLimitSet
  simp only
  split
  · exact .answeredAs r rest _ _ hi .refl
  · refine .answered r rest _ _ { h.tables with ports := h.tables.ports.set n (parsePortLimit (r.body.drop 1)).clamp } hi
      (fun ht => ?_) id .refl
    obtain ⟨h1, h2, h3, h4, h5, h6, h7⟩ := ht
    refine ⟨h1, h2, h3, h4, h5, fun m => ?_, h7⟩
    simp only [Fin.getElem_fin, Vector.getElem_set]
    split
    · exact PortLimit.clamp_legal _
    · exact h6 m

theorem Hub.portCounts_effect (r : Request) (rest : List Request) (n : Slot) (hi : h.port.inbound = r :: rest) :
    Hub.Effect h (Hub.portCounts r n (h.popRequest rest)) := by
  unfold Hub.portCounts
  split
  · exact .refused r rest _ hi
  · next clear _ =>
    simp only
    refine .answeredAs r rest _ _ hi ?_
    split
    · exact .single (.count n _)
    · exact .refl

/-! ### The Timing Unit -/

theorem Hub.refListSet_effect (r : Request) (rest : List Request) (hi : h.port.inbound = r :: rest) :
    Hub.Effect h (Hub.refListSet r (h.popRequest rest)) := by
  unfold Hub.refListSet
  split
  · exact .refused r rest _ hi
  · next revertive sources hp =>
    simp only
    obtain ⟨c1, c2⟩ := parseCandidates_legal hp
    refine .answered r rest _ _ { h.tables with revertive } hi id id (Hub.setTiming_moves _ _ _ _ (fun _ => ?_) (fun _ => ?_))
    · exact Timing.reselect_legal _ _
    · unfold Timing.ListLegal
      rw [Timing.reselect_cands]
      unfold Timing.relist
      have hsrc : ∀ s : Source, ((h.timing.cands.find? fun c => c.source == s).getD { source := s }).source = s := by
        intro s
        cases hf : h.timing.cands.find? fun c => c.source == s with
        | none => rfl
        | some c => simpa using List.find?_some hf
      refine ⟨by simpa using c1, ?_⟩
      simp only [List.map_map]
      refine Eq.mpr (congrArg List.Nodup (List.map_congr_left (g := id) fun s _ => hsrc s)) ?_
      simpa using c2

theorem Hub.timingSet_effect (r : Request) (rest : List Request) (hi : h.port.inbound = r :: rest) :
    Hub.Effect h (Hub.timingSet r (h.popRequest rest)) := by
  unfold Hub.timingSet
  simp only
  refine .answered r rest _ _ { h.tables with timing := (parseTimingParams r.body).clamp } hi (fun ht => ?_) id
    (Hub.setTiming_moves _ _ _ _ (fun hs => ?_) (fun hl => ?_))
  · obtain ⟨h1, h2, h3, h4, h5, h6, -, h8⟩ := ht
    exact ⟨h1, h2, h3, h4, h5, h6, TimingParams.clamp_legal _, h8⟩
  · unfold Timing.SelectionLegal; rw [Timing.setHoldoverLimit_selection, Timing.setHoldoverLimit_cands]; exact hs
  · unfold Timing.ListLegal; rw [Timing.setHoldoverLimit_cands]; exact hl

theorem Hub.timeSet_effect (r : Request) (rest : List Request) (hi : h.port.inbound = r :: rest) :
    Hub.Effect h (Hub.timeSet r (h.popRequest rest)) := by
  unfold Hub.timeSet
  split
  · exact .answeredAs r rest _ _ hi (.single (.timing _ (fun hs => hs) (fun hl => hl)))
  · exact .refused r rest _ hi

theorem Hub.asymmetrySet_effect (r : Request) (rest : List Request) (n : Slot) (hi : h.port.inbound = r :: rest) :
    Hub.Effect h (Hub.asymmetrySet r n (h.popRequest rest)) := by
  unfold Hub.asymmetrySet
  split
  · exact .refused r rest _ hi
  · next a ha =>
    refine .answered r rest _ _ { h.tables with asymmetry := h.tables.asymmetry.set n a } hi (fun ht => ?_) id .refl
    obtain ⟨h1, h2, h3, h4, h5, h6, h7, h8, h9⟩ := ht
    refine ⟨h1, h2, h3, h4, h5, h6, h7, fun m => ?_, h9⟩
    simp only [Fin.getElem_fin, Vector.getElem_set]
    split
    · exact parseAsymmetry_legal ha
    · exact h8 m

/-! ### The Alarm Unit -/

theorem Hub.alarmList_effect (r : Request) (rest : List Request) (hi : h.port.inbound = r :: rest) :
    Hub.Effect h (Hub.alarmList r (h.popRequest rest)) := by
  unfold Hub.alarmList
  split
  · exact .answeredAs r rest _ _ hi .refl
  · exact .refused r rest _ hi

theorem Alarms.Legal.ackAll {a : Alarms} (ha : a.Legal) (keys : List AlarmKey) (t : Stamp) :
    (keys.foldl (fun (a : Alarms) key => a.update key (·.ack t)) a).Legal := by
  induction keys generalizing a with
  | nil => exact ha
  | cons k keys ih => exact ih (ha.update k _ fun _ => rfl)

theorem Hub.alarmAck_effect (r : Request) (rest : List Request) (hi : h.port.inbound = r :: rest) :
    Hub.Effect h (Hub.alarmAck r (h.popRequest rest)) := by
  unfold Hub.alarmAck
  split
  · exact .refused r rest _ hi
  · simp only
    unfold Hub.ackAll
    simp only
    exact .answeredAs r rest _ _ hi (.trans (.single (.alarms _ fun ha => ha.ackAll _ _)) (Hub.changedAll_moves _ _ _ _))

theorem Alarms.Legal.purge {a : Alarms} (ha : a.Legal) : a.purge.Legal := by
  obtain ⟨h1, h2, h3, h4⟩ := ha
  have hsub : (a.recs.filter fun r => !r.purgeable).Sublist a.recs := List.filter_sublist
  refine ⟨fun r hr => ?_, fun r hr => h2 r (hsub.mem hr), le_trans hsub.length_le h3, h4.sublist (hsub.map _)⟩
  simp only [Alarms.purge] at hr
  exact h1 r (Option.mem_filter_iff.mp hr).1

theorem Hub.alarmPurge_effect (r : Request) (rest : List Request) (hi : h.port.inbound = r :: rest) :
    Hub.Effect h (Hub.alarmPurge r (h.popRequest rest)) := by
  unfold Hub.alarmPurge
  simp only
  exact .answeredAs r rest _ _ hi (.trans (.single (.alarms _ fun ha => ha.purge)) (Hub.judgeOutputs_moves _))

theorem Alarms.Legal.reform {a : Alarms} (ha : a.Legal) (kind : AlarmKind) (e : KindEntry) : (a.reform kind e).Legal := by
  obtain ⟨h1, h2, h3, h4⟩ := ha
  have hk : ∀ r : AlarmRec, (if r.key.kind = kind then { r with severity := effectiveSeverity e kind r.reported } else r).key =
      r.key := by intro r; split <;> rfl
  unfold Alarms.reform
  refine ⟨fun r hr => ?_, fun r hr => ?_, by simpa using h3, ?_⟩
  · obtain ⟨q, hq, rfl⟩ := Option.map_eq_some_iff.mp hr
    rw [hk]; exact h1 q hq
  · obtain ⟨q, hq, rfl⟩ := List.mem_map.mp hr
    rw [hk]; exact h2 q hq
  · simp only [List.map_map]
    exact Eq.mpr (congrArg List.Nodup (List.map_congr_left (g := (·.key)) fun r _ => by simpa using hk r)) h4

theorem Hub.kindSet_effect (r : Request) (rest : List Request) (hi : h.port.inbound = r :: rest) :
    Hub.Effect h (Hub.kindSet r (h.popRequest rest)) := by
  unfold Hub.kindSet
  split
  · exact .refused r rest _ hi
  · next kind _ =>
    split
    · exact .refused r rest _ hi
    · next e he =>
      simp only
      unfold Hub.setKind
      simp only
      refine .answered r rest _ _ { h.tables with kinds := h.tables.kinds.set kind.idx e } hi (fun ht => ?_) id
        (.trans (.single (.alarms (h.alarms.reform kind e) fun ha => ha.reform kind e)) (Hub.changedAll_moves _ _ _ _))
      obtain ⟨h1, h2, h3, h4, h5, h6, h7, h8, h9⟩ := ht
      refine ⟨h1, h2, h3, h4, h5, h6, h7, h8, fun k hk => ?_⟩
      simp only [Fin.getElem_fin, Vector.getElem_set]
      split
      · next hx =>
        have : kind = k := by
          have e := alarmKinds_idx kind
          simp only [hx] at e
          exact e.symm.trans (alarmKinds_idx k)
        subst this
        exact parseKindEntry_legal he
      · exact h9 k hk

theorem Hub.relaySet_effect (r : Request) (rest : List Request) (hi : h.port.inbound = r :: rest) :
    Hub.Effect h (Hub.relaySet r (h.popRequest rest)) := by
  unfold Hub.relaySet
  split
  · exact .refused r rest _ hi
  · next relay _ => exact .answered r rest _ _ { h.tables with relay } hi id id .refl

/-! ## Resets, loads and transfers -/

theorem Hub.startUp_moves (h : Hub) : Hub.Moves h h.startUp := by
  unfold Hub.startUp
  simp only
  generalize (allSlots.filter _) = found
  have m : Hub.Moves h
      (let g := { h with slots := mapEach SlotRec.startUp h.slots }
       { g with manager := { h.manager with startUpDue := none, startUpAt := some h.clock.now } }) := by
    refine .tail (.single (.slots (mapEach SlotRec.startUp h.slots) fun n => ?_)) (.manager _ rfl)
    simp only [Fin.getElem_fin, mapEach_get]
    refine SlotRec.Same.goes ?_ _
    exact ⟨rfl, rfl, rfl, rfl, rfl, rfl⟩
  refine .trans ?_ (Hub.announceGrants_moves _ _)
  refine foldl_keeps (P := Hub.Moves h) (fun g n hg => hg.tail (.notice _ _)) found (.trans ?_ (Hub.serve_moves _))
  exact foldl_keeps (P := Hub.Moves h) (f := fun (h : Hub) n => (h.modSlot n fun r => { r with powerClass := some (classOfPins r.pcode) }).seat n false)
    (fun g n hg => hg.trans (Hub.seatFound_moves g n false _)) found m

theorem Hub.beginDebounce_moves (h : Hub) : Hub.Moves h h.beginDebounce := by
  unfold Hub.beginDebounce
  simp only
  refine .trans (.single (.manager { h.manager with startUpDue := some (h.dueIn 50) } rfl)) (.single (.slots _ fun n => ?_))
  simp only [Fin.getElem_fin, mapEach_get]
  refine SlotRec.Same.goes ?_ _
  exact ⟨rfl, rfl, rfl, rfl, rfl, rfl⟩

theorem Hub.started_moves (h : Hub) : Hub.Moves h h.started := by
  unfold Hub.started
  refine .trans ?_ (Hub.beginDebounce_moves _)
  split
  · exact .trans (.single (.notice _ _)) (Hub.raise_moves _ _)
  · exact .single (.notice _ _)

/-- What a load may find: settings within their ranges (R183). -/
theorem loadOutcome_legal {strap acknowledged : Bool} {m : List Host.Cell} {s : Settings}
    (h : loadOutcome strap acknowledged m = some (.inr s)) : s.tables.Legal ∧ s.sources.length ≤ 4 ∧ s.sources.Nodup := by
  unfold loadOutcome at h
  split at h
  · cases h
  · split at h
    · simp only [Option.some.injEq] at h; exact judgeImage_legal h
    · cases h

theorem Hub.loadDone_effect (h : Hub) (outcome : Option (LoadFault ⊕ Settings)) (hl : h.config.loading = true)
    (ho : ∀ s, outcome = some (.inr s) → s.tables.Legal ∧ s.sources.length ≤ 4 ∧ s.sources.Nodup) :
    Hub.Effect h (h.loadDone outcome) := by
  unfold Hub.loadDone
  match outcome, ho with
  | none, _ => exact .loaded h.tables h.timing.cands (h.config.afterLoad none) hl id id rfl (Hub.started_moves _)
  | some (.inl fault), _ => exact .loaded h.tables h.timing.cands (h.config.afterLoad (some (.inl fault))) hl id id rfl (Hub.started_moves _)
  | some (.inr s), ho =>
    obtain ⟨h1, h2, h3⟩ := ho s rfl
    refine .loaded s.tables (s.sources.map fun source => { source }) (h.config.afterLoad (some (.inr s))) hl (fun _ => h1) (fun _ => ⟨by simpa using h2, ?_⟩) rfl
      (Hub.started_moves _)
    simpa [List.map_map, Function.comp_def] using h3

theorem Hub.writeBytes_effect (h : Hub) (hprst : Bool) (bytes : List Byte) : Hub.Effect h (h.writeBytes hprst bytes) := by
  unfold Hub.writeBytes
  split
  · exact .moves .refl
  · split
    · exact .moves .refl
    · exact .written _

theorem Hub.readBytes_effect (h : Hub) (startedEmpty : Bool) (clocked : Nat) : Hub.Effect h (h.readBytes startedEmpty clocked) := by
  unfold Hub.readBytes
  split
  · exact .driven _
  · next m rest ho =>
    split
    · exact .driven _
    · simp only
      split
      · unfold Hub.readWhole
        simp only
        split
        · exact .reset _ _ _
        · exact .read _ m rest ho
      · exact .driven _

end

/-! ## Every command -/

/-- What a command does to the machine: the queue of waiting commands stays, the EEPROM keeps its canonical form, and the hub's change is
one of the cases of `Hub.Effect`. -/
theorem exec_effect (c : Instr) (s t : State) (h : exec c s = .next t) :
    t.pending = s.pending ∧ (Memory.wf s.eeprom → Memory.wf t.eeprom) ∧ Hub.Effect s.hub t.hub := by
  have onHub : ∀ (f : Hub → Hub), s.onHub f = .next t → Hub.Effect s.hub (f s.hub) →
      t.pending = s.pending ∧ (Memory.wf s.eeprom → Memory.wf t.eeprom) ∧ Hub.Effect s.hub t.hub := by
    intro f hf he
    rw [State.onHub_eq] at hf
    cases hf
    exact ⟨rfl, id, he⟩
  cases c with simp only [exec] at h
  | powerOnReset imageEn written =>
    simp only [execPowerOnReset] at h
    cases h
    refine ⟨rfl, fun hm => ?_, .reset _ _ _⟩
    simp only
    split
    · exact saveCutOff_wf hm _ _
    · exact hm
  | hostPortReset => exact onHub _ h .hostPortReset
  | loadComplete acknowledged =>
    refine onHub _ h ?_
    split
    · next hl => exact Hub.loadDone_effect _ _ hl fun s hs => loadOutcome_legal hs
    · exact .moves .refl
  | startUpEvent =>
    refine onHub _ h ?_
    split
    · exact .moves (Hub.startUp_moves _)
    · exact .moves .refl
  | rawInputChange n input => exact onHub _ h (.moves (Hub.rawInput_moves _ n input))
  | presencePresent n => exact onHub _ h (.moves (Hub.presencePresent_moves _ n))
  | presenceAbsent n => exact onHub _ h (.moves (Hub.presenceAbsent_moves _ n))
  | latchClosed n => exact onHub _ h (.moves (Hub.latchCloses_moves _ n))
  | latchOpen n => exact onHub _ h (.moves (Hub.latchOpens_moves _ n))
  | pwrGoodAsserted n => exact onHub _ h (.moves (Hub.pwrGoodAsserted_moves _ n))
  | pwrGoodLost n => exact onHub _ h (.moves (Hub.pwrGoodLost_moves _ n))
  | poweringTimeout n =>
    exact onHub _ h (.moves (Hub.expire_moves _ n _ _ fun _ => Hub.enterFaulted_moves _ n _ _))
  | resetHoldEnd n => exact onHub _ h (.moves (Hub.expire_moves _ n _ _ fun hs => Hub.enterLinking_moves _ n hs))
  | linkingTimeout n =>
    exact onHub _ h (.moves (Hub.expire_moves _ n _ _ fun _ => Hub.enterFaulted_moves _ n _ _))
  | identifyAttemptTimeout n =>
    exact onHub _ h (.moves (Hub.expire_moves _ n _ _ fun _ => Hub.identifyTimeout_moves _ n))
  | powerWait n => exact onHub _ h (.moves (Hub.powerWait_moves _ n))
  | recoveryWindowExpiry n =>
    exact onHub _ h (.moves (Hub.expire_moves _ n _ _ fun _ => Hub.enterFaulted_moves _ n _ _))
  | drainTimeout n => exact onHub _ h (.moves (Hub.expire_moves _ n _ _ fun _ => Hub.drainForced_moves _ n))
  | retryTimerExpiry n => exact onHub _ h (.moves (Hub.expire_moves _ n _ _ fun _ => Hub.retry_moves _ n))
  | helloValid n => exact onHub _ h (.moves (Hub.helloValid_moves _ n))
  | helloInvalid n => exact onHub _ h (.moves (Hub.helloInvalid_moves _ n))
  | linkAlignmentLost n => exact onHub _ h (.moves (Hub.alignmentLost_moves _ n))
  | linkResetHoldEnd n => exact onHub _ h (.moves (Hub.holdEnd_moves _ n))
  | frameReceived n dt bytes whole =>
    exact onHub _ h (.moves ((Hub.run_moves _ dt).trans (Hub.receive_moves _ n bytes whole)))
  | frameClassification n => exact onHub _ h (.moves (Hub.classifyNext_moves _ n))
  | arbiterService => exact onHub _ h (.moves (Hub.arbitrate_moves _))
  | transmissionComplete n dt => exact onHub _ h (.moves ((Hub.run_moves _ dt).trans (Hub.complete_moves _ n)))
  | frameBoundary => exact onHub _ h (.moves (Hub.frameBoundary_moves _))
  | announceBoundary => exact onHub _ h (.moves (Hub.announceBoundary_moves _))
  | secondJudgment => exact onHub _ h (.moves (Hub.takeSecond_moves _))
  | linkErrorsClear n => exact onHub _ h (.moves (Hub.linkErrorsClear_moves _ n))
  | holdoverLimitReached => exact onHub _ h (.moves (Hub.holdoverReached_moves _))
  | extrefPulse dt => exact onHub _ h (.moves ((Hub.run_moves _ dt).trans (Hub.takePulse_moves _)))
  | extPulseLost => exact onHub _ h (.moves (Hub.pulseLost_moves _))
  | identityReply =>
    refine onHub _ h (.moves (Hub.dispatch_moves _ _ _ fun e g hk hacc => ?_))
    split
    · refine g.identified_moves _ _ ?_
      simpa [Hub.accepts, hk] using hacc
    · exact .refl
  | quiesced => exact onHub _ h (.moves (Hub.dispatch_moves _ _ _ fun e g _ _ => g.quiesce_moves _))
  | probeReply => exact onHub _ h (.moves (Hub.dispatch_moves _ _ _ fun e g _ _ => g.probeReply_moves e))
  | phaseReport => exact onHub _ h (.moves (Hub.dispatch_moves _ _ _ fun e g _ _ => g.phaseReport_moves _ _))
  | sourceReport =>
    refine onHub _ h (.moves (Hub.dispatch_moves _ _ _ fun e g _ _ => ?_))
    split
    · exact g.sourceReport_moves e _ _
    · exact .refl
  | cardAlarm =>
    refine onHub _ h (.moves (Hub.dispatch_moves _ _ _ fun e g _ _ => ?_))
    split
    · exact g.cardAlarm_moves _ _ _ _
    · exact .refl
  | sweepReply =>
    refine onHub _ h (.moves (Hub.dispatch_moves _ _ _ fun e g hk hacc => ?_))
    split
    · have ha : (g.agent.sweep.inFlight && Mask.has g.agent.sweep.pending e.slot &&
          e.frame.sequence == g.agent.sweep.number) = true := by
        unfold Hub.accepts at hacc
        rw [hk] at hacc
        exact hacc
      simp only [Bool.and_eq_true] at ha
      exact g.sweepReply_moves _ _ ha.1.1 ha.1.2
    · exact .refl
  | invalidAgentFrame => exact onHub _ h (.moves (Hub.invalidFrame_moves _))
  | fenceSlot n => exact onHub _ h (.moves (Hub.takeFence_moves _ n))
  | sweepTimeout =>
    refine onHub _ h ?_
    split
    · next hf => exact .moves (Hub.failSweep_moves _ _ hf)
    · exact .moves .refl
  | configSaveWriteEnd result =>
    simp only [execConfigSaveWriteEnd] at h
    split at h
    · cases h; exact ⟨rfl, id, .moves .refl⟩
    · next save hs => cases h; exact ⟨rfl, fun hm => saveEnded_wf hm _ _, .saveEnded save _ hs⟩
  | writeTransfer hprst bytes => exact onHub _ h (Hub.writeBytes_effect _ _ _)
  | readTransfer hprst typeByte startedEmpty clocked =>
    refine onHub _ h ?_
    split
    · exact .moves .refl
    · exact Hub.readBytes_effect _ _ _
  | unknownRequest => exact onHub _ h (Hub.unknownRequest_effect _)
  | hubInfo => exact onHub _ h (Hub.take_effect _ _ _ fun r rest hi => .answeredAs r rest _ _ hi (.single (.draws _)))
  | hubStatus => exact onHub _ h (Hub.take_effect _ _ _ fun r rest hi => .answeredAs r rest _ _ hi .refl)
  | hubReset => exact onHub _ h (Hub.take_effect _ _ _ fun r rest hi => Hub.hubReset_effect r rest hi)
  | slotPlanSet => exact onHub _ h (Hub.takeSlot_effect _ _ _ fun r rest n hi => Hub.planSet_effect r rest n hi)
  | slotQuery => exact onHub _ h (Hub.takeSlot_effect _ _ _ fun r rest n hi => .answeredAs r rest _ _ hi .refl)
  | slotPower => exact onHub _ h (Hub.takeSlot_effect _ _ _ fun r rest n hi => Hub.slotPower_effect r rest n hi)
  | slotAdmit => exact onHub _ h (Hub.takeSlot_effect _ _ _ fun r rest n hi => Hub.slotAdmit_effect r rest n hi)
  | slotRelease => exact onHub _ h (Hub.takeSlot_effect _ _ _ fun r rest n hi => Hub.slotRelease_effect r rest n hi)
  | slotFence => exact onHub _ h (Hub.takeSlot_effect _ _ _ fun r rest n hi => Hub.slotFence_effect r rest n hi)
  | slotRestore => exact onHub _ h (Hub.takeSlot_effect _ _ _ fun r rest n hi => Hub.slotRestore_effect r rest n hi)
  | slotRestart => exact onHub _ h (Hub.takeSlot_effect _ _ _ fun r rest n hi => Hub.slotRestart_effect r rest n hi)
  | slotLinkReset => exact onHub _ h (Hub.takeSlot_effect _ _ _ fun r rest n hi => Hub.slotLinkReset_effect r rest n hi)
  | budgetSet => exact onHub _ h (Hub.take_effect _ _ _ fun r rest hi => Hub.budgetSet_effect r rest hi)
  | windowSet => exact onHub _ h (Hub.take_effect _ _ _ fun r rest hi => Hub.windowSet_effect r rest hi)
  | windowGet => exact onHub _ h (Hub.take_effect _ _ _ fun r rest hi => Hub.windowGet_effect r rest hi)
  | groupSet => exact onHub _ h (Hub.take_effect _ _ _ fun r rest hi => Hub.groupSet_effect r rest hi)
  | groupGet => exact onHub _ h (Hub.take_effect _ _ _ fun r rest hi => Hub.groupGet_effect r rest hi)
  | defaultTargetSet => exact onHub _ h (Hub.take_effect _ _ _ fun r rest hi => Hub.defaultTargetSet_effect r rest hi)
  | portLimitSet => exact onHub _ h (Hub.takeSlot_effect _ _ _ fun r rest n hi => Hub.portLimitSet_effect r rest n hi)
  | portCounts => exact onHub _ h (Hub.takeSlot_effect _ _ _ fun r rest n hi => Hub.portCounts_effect r rest n hi)
  | refListSet => exact onHub _ h (Hub.take_effect _ _ _ fun r rest hi => Hub.refListSet_effect r rest hi)
  | timingSet => exact onHub _ h (Hub.take_effect _ _ _ fun r rest hi => Hub.timingSet_effect r rest hi)
  | timingStatus => exact onHub _ h (Hub.take_effect _ _ _ fun r rest hi => .answeredAs r rest _ _ hi .refl)
  | timeSet => exact onHub _ h (Hub.take_effect _ _ _ fun r rest hi => Hub.timeSet_effect r rest hi)
  | slotTimingQuery => exact onHub _ h (Hub.takeSlot_effect _ _ _ fun r rest n hi => .answeredAs r rest _ _ hi .refl)
  | asymmetrySet => exact onHub _ h (Hub.takeSlot_effect _ _ _ fun r rest n hi => Hub.asymmetrySet_effect r rest n hi)
  | alarmList => exact onHub _ h (Hub.take_effect _ _ _ fun r rest hi => Hub.alarmList_effect r rest hi)
  | alarmAck => exact onHub _ h (Hub.take_effect _ _ _ fun r rest hi => Hub.alarmAck_effect r rest hi)
  | alarmPurge => exact onHub _ h (Hub.take_effect _ _ _ fun r rest hi => Hub.alarmPurge_effect r rest hi)
  | kindSet => exact onHub _ h (Hub.take_effect _ _ _ fun r rest hi => Hub.kindSet_effect r rest hi)
  | relaySet => exact onHub _ h (Hub.take_effect _ _ _ fun r rest hi => Hub.relaySet_effect r rest hi)
  | sweep => exact onHub _ h (Hub.take_effect _ _ _ fun r rest hi => Hub.sweepRequest_effect r rest hi)
  | sweepAbort => exact onHub _ h (Hub.take_effect _ _ _ fun r rest hi => Hub.sweepAbort_effect r rest hi)
  | configSave => exact onHub _ h (Hub.take_effect _ _ _ fun r rest hi => Hub.configSave_effect r rest hi)

/-- What a step can do: the effect of a command on the machine with the command taken from the queue, or the tick of an idle ns. -/
theorem step_effect (s t : State) (h : step s = .next t) :
    (Memory.wf s.eeprom → Memory.wf t.eeprom) ∧ Hub.Effect s.hub t.hub := by
  unfold step at h
  split at h
  · next c rest hp =>
    have := exec_effect c { s with pending := rest } t h
    exact ⟨this.2.1, this.2.2⟩
  · unfold idle at h
    split at h
    · have := exec_effect _ s t h
      exact ⟨this.2.1, this.2.2⟩
    · rw [State.onHub_eq] at h
      cases h
      exact ⟨id, .moves (.single (.clock _ fun _ => Clock.run_legal _ _ _))⟩

end Sys2Proof.Machine
end

