-- ==== Sys2Proof/Laws/HandOver.lean ====
section
/-! SUPPORT. What the other blocks do with a change of a slot that is handed on to them (R96): the frame of the alarms, of the Timing
Unit and of the sweep engine, and with it the slot record that each entry to a state leaves. -/

namespace Sys2Proof.Machine

/-- `g` differs from `h` at most in what the Alarm Unit, the Timing Unit and the agent hold, in what is queued for the host, in the
frames they place at ports whose slots take agent frames, and in what LOCKED links are sending. -/
structure Hub.HandsOn (h g : Hub) : Prop where
  clock : g.clock = h.clock
  slots : g.slots = h.slots
  config : g.config = h.config
  tables : g.tables = h.tables
  waitList : g.manager.waitList = h.manager.waitList
  startUpDue : g.manager.startUpDue = h.manager.startUpDue
  startUpAt : g.manager.startUpAt = h.manager.startUpAt
  inbox : g.agent.inbox = h.agent.inbox
  inbound : g.port.inbound = h.port.inbound
  openCount : g.port.openCount = h.port.openCount
  resetPending : g.port.resetPending = h.port.resetPending
  links : ∀ n : Slot, g.links[n] = { h.links[n] with tx := g.links[n].tx }
  unsent : ∀ n : Slot, h.links[n].state ≠ .locked → g.links[n] = h.links[n]
  ports : ∀ n : Slot, g.ports[n] = { h.ports[n] with timingQ := g.ports[n].timingQ, controlQ := g.ports[n].controlQ }
  unqueued : ∀ n : Slot, h.slots[n].state.takesAgent .control = false → g.ports[n] = h.ports[n]

theorem Hub.HandsOn.refl (h : Hub) : Hub.HandsOn h h := by constructor <;> intros <;> rfl

theorem Hub.HandsOn.trans {h g k : Hub} (a : Hub.HandsOn h g) (b : Hub.HandsOn g k) : Hub.HandsOn h k where
  clock := b.clock.trans a.clock
  slots := b.slots.trans a.slots
  config := b.config.trans a.config
  tables := b.tables.trans a.tables
  waitList := b.waitList.trans a.waitList
  startUpDue := b.startUpDue.trans a.startUpDue
  startUpAt := b.startUpAt.trans a.startUpAt
  inbox := b.inbox.trans a.inbox
  inbound := b.inbound.trans a.inbound
  openCount := b.openCount.trans a.openCount
  resetPending := b.resetPending.trans a.resetPending
  links n := (b.links n).trans (by rw [a.links n])
  unsent n hn := (b.unsent n (by rw [a.links n]; exact hn)).trans (a.unsent n hn)
  ports n := (b.ports n).trans (by rw [a.ports n])
  unqueued n hn := (b.unqueued n (by rw [a.slots]; exact hn)).trans (a.unqueued n hn)

section

variable {h g : Hub}

theorem Hub.HandsOn.schedule (h : Hub) (n : Slot) : Hub.HandsOn h (h.schedule n) := by
  rcases h.schedule_cases n with he | ⟨t, hl, -, he⟩
  · rw [he]; exact .refl h
  · rw [he]
    constructor <;> intros <;> try rfl
    next m =>
      by_cases hm : n = m
      · subst hm; rw [Hub.modLink_self]
      · rw [Hub.modLink_other _ _ _ _ hm]
    next m hm' =>
      by_cases hm : n = m
      · subst hm; exact absurd hl hm'
      · rw [Hub.modLink_other _ _ _ _ hm]

theorem Hub.HandsOn.notice (h : Hub) (code : Byte) (body : Body) : Hub.HandsOn h (h.notice code body) := by
  constructor <;> intros <;> first | rfl | simp

theorem Hub.HandsOn.trec (h : Hub) (n : Slot) (f : TimingRec → TimingRec) : Hub.HandsOn h (h.modTrec n f) := by
  constructor <;> intros <;> rfl

/-- An agent frame put in an egress queue. -/
theorem Hub.HandsOn.placed (h : Hub) (n : Slot) (place : Place) (frame : Frame) (hplace : place = .timing ∨ place = .control)
    (ht : h.slots[n].state.takesAgent place = true) :
    Hub.HandsOn h (({ h with store := h.store.put frame true 1 }.modPort n (·.enter place h.store.nextId)).schedule n) := by
  refine Hub.HandsOn.trans ?_ (Hub.HandsOn.schedule _ n)
  constructor <;> intros <;> try rfl
  next m =>
    by_cases hm : n = m
    · subst hm; rw [Hub.modPort_self]; rcases hplace with rfl | rfl <;> rfl
    · rw [Hub.modPort_other _ _ _ _ hm]
  next m hm' =>
    by_cases hm : n = m
    · subst hm; rcases hplace with rfl | rfl <;> (simp only [SlotState.takesAgent] at ht hm'; rw [ht] at hm'; cases hm')
    · rw [Hub.modPort_other _ _ _ _ hm]

theorem Hub.HandsOn.closed (h : Hub) : AlarmClosed (Hub.HandsOn h) where
  alarms g a _ hg := hg.trans (by constructor <;> intros <;> rfl)
  notice g code body hg := hg.trans (.notice g code body)
  permit g n b hg := hg.trans (.trec g n _)
  fence g l hg := hg.trans (by constructor <;> intros <;> rfl)
  refusal g hg := hg.trans (by constructor <;> intros <;> rfl)
  placed g n place frame hplace ht _ _ hg := hg.trans (.placed g n place frame hplace ht)

/-! ## The operations of the other blocks -/

theorem Hub.HandsOn.timing (h : Hub) (t : Timing) : Hub.HandsOn h { h with timing := t } := by constructor <;> intros <;> rfl

theorem Hub.HandsOn.setSweep (h : Hub) (w : Sweep) : Hub.HandsOn h (h.setSweep w) := by constructor <;> intros <;> rfl

theorem Hub.HandsOn.endSweep (h : Hub) : Hub.HandsOn h h.endSweep := by constructor <;> intros <;> rfl

theorem Hub.raise_handsOn (h : Hub) (key : AlarmKey) : Hub.HandsOn h (h.raise key) := (HandsOn.closed h).raise (.refl h) key

theorem Hub.clear_handsOn (h : Hub) (key : AlarmKey) : Hub.HandsOn h (h.clear key) := (HandsOn.closed h).clear (.refl h) key

theorem Hub.raiseIf_handsOn (h : Hub) (cause : Bool) (key : AlarmKey) : Hub.HandsOn h (h.raiseIf cause key) :=
  (HandsOn.closed h).raiseIf (.refl h) cause key

theorem Hub.clearIf_handsOn (h : Hub) (held : Bool) (key : AlarmKey) : Hub.HandsOn h (h.clearIf held key) :=
  (HandsOn.closed h).clearIf (.refl h) held key

theorem Hub.clearWait_handsOn (h : Hub) (n : Slot) (raised : Bool) : Hub.HandsOn h (h.clearWait n raised) :=
  (HandsOn.closed h).clearWait (.refl h) n raised

theorem Hub.clearReported_handsOn (h : Hub) (n : Slot) : Hub.HandsOn h (h.clearReported n) :=
  (HandsOn.closed h).clearReported (.refl h) n

theorem Hub.judgePermit_handsOn (h : Hub) (cause : PermitReason) (n : Slot) : Hub.HandsOn h (h.judgePermit cause n) :=
  (HandsOn.closed h).judgePermit (.refl h) cause n

theorem Hub.judgePermits_handsOn (h : Hub) (cause : PermitReason) : Hub.HandsOn h (h.judgePermits cause) :=
  (HandsOn.closed h).judgePermits (.refl h) cause

theorem Hub.judgeOutputs_handsOn (h : Hub) : Hub.HandsOn h h.judgeOutputs := (HandsOn.closed h).judgeOutputs (.refl h)

theorem Hub.follow_handsOn (h : Hub) (kind : AlarmKind) (was is : Bool) : Hub.HandsOn h (h.follow kind was is) :=
  (HandsOn.closed h).follow (.refl h) kind was is

theorem Hub.place_handsOn (h : Hub) (n : Slot) (place : Place) (frame : Frame) (hplace : place = .timing ∨ place = .control)
    (hlen : frame.payload.length ≤ 52) : Hub.HandsOn h (h.place n place frame).1 :=
  (HandsOn.closed h).place (.refl h) n place frame hplace hlen

theorem Hub.timingNotice_handsOn (h : Hub) (old new : Timing) (reason : TimingReason) :
    Hub.HandsOn h (h.timingNotice old new reason) := by
  unfold Hub.timingNotice
  split
  · exact .refl h
  · exact .notice h _ _

theorem Hub.followReference_handsOn (h : Hub) (mayRaise : Bool) : Hub.HandsOn h (h.followReference mayRaise) := by
  unfold Hub.followReference
  exact (Hub.HandsOn.timing h _).trans (Hub.follow_handsOn _ _ _ _)

theorem Hub.timingResults_handsOn (h : Hub) (old : TimingState) (mayRaise : Bool) :
    Hub.HandsOn h (h.timingResults old mayRaise) := by
  unfold Hub.timingResults
  have m := ((h.followReference_handsOn mayRaise).trans
    (Hub.follow_handsOn _ .holdoverActive (old == .holdover) (h.timing.state == .holdover))).trans
    (Hub.follow_handsOn _ .holdoverLapsed old.lapsed h.timing.state.lapsed)
  simp only
  split
  · exact m
  · exact m.trans ((Hub.judgePermits_handsOn _ _).trans (Hub.judgeOutputs_handsOn _))

theorem Hub.setTiming_handsOn (h : Hub) (new : Timing) (reason : TimingReason) (mayRaise : Bool) :
    Hub.HandsOn h (h.setTiming new reason mayRaise) := by
  unfold Hub.setTiming
  exact (Hub.HandsOn.timing h new).trans ((Hub.timingNotice_handsOn _ _ _ _).trans (Hub.timingResults_handsOn _ _ _))

theorem Hub.sourceLeft_handsOn (h : Hub) (n : Slot) : Hub.HandsOn h (h.sourceLeft n) := by
  unfold Hub.sourceLeft
  split
  · exact Hub.setTiming_handsOn _ _ _ _
  · exact .refl h

theorem Hub.windowReset_handsOn (h : Hub) (n : Slot) : Hub.HandsOn h (h.windowReset n) := by
  unfold Hub.windowReset
  exact (Hub.HandsOn.trec h n _).trans ((Hub.sourceLeft_handsOn _ n).trans (Hub.judgePermit_handsOn _ _ n))

theorem Hub.leaveSweep_handsOn (h : Hub) (n : Slot) : Hub.HandsOn h (h.leaveSweep n) := by
  unfold Hub.leaveSweep
  split
  · unfold Hub.endSweepIfDone
    split
    · exact (Hub.HandsOn.setSweep h _).trans (.endSweep _)
    · exact .setSweep h _
  · exact .refl h

theorem Hub.leaveForwarding_handsOn (h : Hub) (n : Slot) : Hub.HandsOn h (h.leaveForwarding n) := by
  unfold Hub.leaveForwarding
  exact (Hub.HandsOn.trec h n _).trans <| (Hub.clearIf_handsOn _ _ _).trans <| (Hub.clearIf_handsOn _ _ _).trans <|
    (Hub.sourceLeft_handsOn _ n).trans <| (Hub.judgePermit_handsOn _ _ n).trans <| (Hub.judgeOutputs_handsOn _).trans <|
    Hub.leaveSweep_handsOn _ n

theorem Hub.handOn_handsOn (h : Hub) (n : Slot) (old : SlotState) (linkLeft : Bool) :
    Hub.HandsOn h (h.handOn n old linkLeft) := by
  unfold Hub.handOn
  have m : Hub.HandsOn h (if old = .forwarding then h.leaveForwarding n else h) := by
    split
    · exact Hub.leaveForwarding_handsOn h n
    · exact .refl h
  simp only
  split
  · exact m.trans (Hub.windowReset_handsOn _ n)
  · exact m

theorem Hub.slotNotice_handsOn (h : Hub) (n : Slot) (old new : SlotState) (reason : SlotReason) :
    Hub.HandsOn h (h.slotNotice n old new reason) := .notice h _ _

theorem Hub.announceGrant_handsOn (h : Hub) (p : Slot × Bool) : Hub.HandsOn h (h.announceGrant p) := by
  unfold Hub.announceGrant
  have m := (h.clearWait_handsOn p.1 p.2).trans (Hub.slotNotice_handsOn _ p.1 .seated .powering .powerGranted)
  simp only
  split
  · exact m.trans (Hub.slotNotice_handsOn _ _ _ _ _)
  · exact m

theorem Hub.announceGrants_handsOn (h : Hub) (gs : List (Slot × Bool)) : Hub.HandsOn h (h.announceGrants gs) :=
  foldl_keeps (fun _ _ hg => hg.trans (Hub.announceGrant_handsOn _ _)) gs (.refl h)

end

end Sys2Proof.Machine
end

