-- ==== Sys2Proof/Laws/Entries.lean ====
section
/-! SUPPORT. The slot record, the link and the queues that each entry to a state leaves, and what it leaves of the other slots. -/

namespace Sys2Proof.Machine

section

variable {h : Hub}

/-! ## The service of the wait list -/

/-- A service changes slot records and the wait list, and nothing else (R63). -/
theorem Hub.serveAt_frame (depth : Nat) (h : Hub) :
    (Hub.serveAt depth h).1 = { h with slots := (Hub.serveAt depth h).1.slots,
                                       manager := { h.manager with waitList := (Hub.serveAt depth h).1.manager.waitList } } := by
  induction depth generalizing h with
  | zero => rfl
  | succ depth ih =>
    unfold Hub.serveAt
    split
    · rfl
    · split
      · exact ih _
      · rfl

theorem Hub.grant_slot (h : Hub) (n : Slot) : (h.grant n).slots[n] = h.powered h.slots[n] := by
  simp only [Hub.grant, Hub.unjoin, Hub.modSlot_self, Hub.powered, SlotRec.entering, SlotRec.notWaiting]

theorem Hub.grant_other (h : Hub) (n m : Slot) (hm : n ≠ m) : (h.grant n).slots[m] = h.slots[m] := by
  simp only [Hub.grant, Hub.unjoin]
  rw [Hub.modSlot_other _ _ _ _ hm, Hub.modSlot_other _ _ _ _ hm]

theorem Hub.grant_waitList (h : Hub) (n : Slot) : (h.grant n).manager.waitList = h.manager.waitList.filter (· != n) := rfl

/-- Each slot keeps its record and its place in or out of the list, or waited and leaves the list with power (R63). -/
theorem Hub.serveAt_slot (depth : Nat) (h : Hub) (m : Slot) :
    ((m ∈ (Hub.serveAt depth h).1.manager.waitList ↔ m ∈ h.manager.waitList) ∧ (Hub.serveAt depth h).1.slots[m] = h.slots[m]) ∨
      (m ∈ h.manager.waitList ∧ m ∉ (Hub.serveAt depth h).1.manager.waitList ∧
        (Hub.serveAt depth h).1.slots[m] = h.powered h.slots[m]) := by
  induction depth generalizing h with
  | zero => exact .inl ⟨Iff.rfl, rfl⟩
  | succ depth ih =>
    cases hw : h.manager.waitList with
    | nil => exact .inl ⟨by simp only [Hub.serveAt, hw], by simp only [Hub.serveAt, hw]⟩
    | cons n rest =>
      by_cases hb : h.committed + h.slots[n].watts ≤ h.tables.budget
      · have e : (Hub.serveAt (depth + 1) h).1 = (Hub.serveAt depth (h.grant n)).1 := by
          simp only [Hub.serveAt, hw, if_pos hb]
        rw [e]
        by_cases hnm : n = m
        · subst hnm
          have hout : n ∉ (h.grant n).manager.waitList := by
            rw [Hub.grant_waitList, List.mem_filter]; simp
          refine .inr ⟨List.mem_cons_self, ?_⟩
          rcases ih (h.grant n) with ⟨hm, e⟩ | ⟨hm, -⟩
          · exact ⟨fun hc => hout (hm.mp hc), by rw [e, Hub.grant_slot]⟩
          · exact absurd hm hout
        · have hin : m ∈ (h.grant n).manager.waitList ↔ m ∈ h.manager.waitList := by
            have : ¬ m = n := fun e => hnm e.symm
            rw [Hub.grant_waitList, List.mem_filter]
            simp [this]
          rcases ih (h.grant n) with ⟨hm, e⟩ | ⟨hm, hout, e⟩
          · exact .inl ⟨by rw [hm, hin, hw], by rw [e, Hub.grant_other _ _ _ hnm]⟩
          · refine .inr ⟨by rw [← hw]; exact hin.mp hm, hout, ?_⟩
            rw [e, Hub.grant_other _ _ _ hnm]
            rfl
      · exact .inl ⟨by simp only [Hub.serveAt, hw, if_neg hb], by simp only [Hub.serveAt, hw, if_neg hb]⟩

/-- A service to the length of the list ends with the list empty or its head not fitting (R63). -/
theorem Hub.serveAt_listServed (depth : Nat) (h : Hub) (hd : h.manager.waitList.length ≤ depth) :
    (Hub.serveAt depth h).1.ListServed := by
  induction depth generalizing h with
  | zero =>
    intro m hm
    have hm' : h.manager.waitList.head? = some m := hm
    rw [List.length_eq_zero_iff.mp (Nat.le_zero.mp hd)] at hm'
    cases hm'
  | succ depth ih =>
    cases hw : h.manager.waitList with
    | nil =>
      have e : (Hub.serveAt (depth + 1) h).1 = h := by simp only [Hub.serveAt, hw]
      rw [e]
      intro m hm
      rw [hw] at hm; cases hm
    | cons n rest =>
      by_cases hb : h.committed + h.slots[n].watts ≤ h.tables.budget
      · have e : (Hub.serveAt (depth + 1) h).1 = (Hub.serveAt depth (h.grant n)).1 := by
          simp only [Hub.serveAt, hw, if_pos hb]
        rw [e]
        refine ih _ ?_
        rw [Hub.grant_waitList, hw, List.filter_cons]
        simp only [bne_self_eq_false, Bool.false_eq_true, if_false]
        have := List.length_filter_le (· != n) rest
        rw [hw] at hd
        simp only [List.length_cons] at hd
        omega
      · have e : (Hub.serveAt (depth + 1) h).1 = h := by simp only [Hub.serveAt, hw, if_neg hb]
        rw [e]
        intro m hm
        rw [hw] at hm
        cases hm
        omega

theorem Hub.serve_listServed (h : Hub) : h.serve.1.ListServed := Hub.serveAt_listServed _ h (Nat.le_refl _)

theorem Hub.serve_frame (h : Hub) :
    h.serve.1 = { h with slots := h.serve.1.slots,
                         manager := { h.manager with waitList := h.serve.1.manager.waitList } } := Hub.serveAt_frame _ h

/-- Each slot keeps its record and its place in or out of the list, or waited and leaves the list with power (R63). -/
theorem Hub.serve_place (h : Hub) (m : Slot) :
    ((m ∈ h.serve.1.manager.waitList ↔ m ∈ h.manager.waitList) ∧ h.serve.1.slots[m] = h.slots[m]) ∨
      (m ∈ h.manager.waitList ∧ m ∉ h.serve.1.manager.waitList ∧ h.serve.1.slots[m] = h.powered h.slots[m]) :=
  Hub.serveAt_slot _ h m

theorem Hub.serve_slot (h : Hub) (m : Slot) :
    h.serve.1.slots[m] = h.slots[m] ∨ (m ∈ h.manager.waitList ∧ h.serve.1.slots[m] = h.powered h.slots[m]) := by
  rcases h.serve_place m with ⟨-, e⟩ | ⟨hm, -, e⟩
  · exact .inl e
  · exact .inr ⟨hm, e⟩

/-- A slot that does not wait keeps its record. -/
theorem Hub.serve_other (h : Hub) (m : Slot) (hm : m ∉ h.manager.waitList) : h.serve.1.slots[m] = h.slots[m] := by
  rcases h.serve_slot m with e | ⟨hw, -⟩
  · exact e
  · exact absurd hw hm

theorem Hub.join_frame (h : Hub) (n : Slot) :
    h.join n = { h with slots := (h.join n).slots,
                        manager := { h.manager with waitList := (h.join n).manager.waitList } } := by
  unfold Hub.join; split <;> rfl

theorem Hub.join_slot (h : Hub) (n : Slot) (hw : n ∉ h.manager.waitList) :
    (h.join n).slots[n] = h.slots[n].waiting h.clock.now h.clock.elapsed ∧
      (∀ m, m ≠ n → (h.join n).slots[m] = h.slots[m]) ∧ (h.join n).manager.waitList = h.manager.waitList ++ [n] := by
  unfold Hub.join
  rw [if_neg hw]
  refine ⟨by rw [Hub.modSlot_self]; rfl, fun m hm => by rw [Hub.modSlot_other _ _ _ _ hm.symm], rfl⟩

/-! ## Purges and disables -/

/-- What a purge leaves (R49). -/
theorem Hub.abort_frame (h : Hub) (n : Slot) :
    h.abort n = { h with links := (h.abort n).links, ports := (h.abort n).ports } := by
  unfold Hub.abort; split <;> rfl

theorem Hub.abort_entries (h : Hub) (n m : Slot) :
    (h.abort n).ports[m] = { h.ports[m] with counters := (h.abort n).ports[m].counters } := by
  unfold Hub.abort
  split
  · unfold Hub.count
    by_cases hm : n = m
    · subst hm; rw [Hub.modPort_self]; rfl
    · rw [Hub.modPort_other _ _ _ _ hm]; rfl
  · rfl

theorem Hub.purge_frame (h : Hub) (n : Slot) :
    h.purge n = { h with links := (h.purge n).links, ports := (h.purge n).ports, store := (h.purge n).store } := by
  unfold Hub.purge
  simp only
  split
  · rfl
  · rw [Hub.abort_frame]; rfl

/-- A purged port holds no entry (R49). -/
theorem Hub.purge_port (h : Hub) (n : Slot) : (h.purge n).ports[n].entries = [] ∧ (h.purge n).ports[n].identify = none := by
  unfold Hub.purge
  simp only
  split
  · next he =>
    simp only [List.isEmpty_iff, List.append_eq_nil_iff] at he
    exact ⟨he.1, by simpa using he.2⟩
  · rw [Hub.modPort_self]; exact ⟨rfl, rfl⟩

theorem Hub.abort_linkState (h : Hub) (n m : Slot) : (h.abort n).links[m].state = h.links[m].state := by
  by_cases ht : h.links[n].tx.isSome
  · have e : (h.abort n).links = (h.modLink n fun l => { l with tx := none }).links := by
      simp only [Hub.abort, if_pos ht, Hub.count_links]
    simp only [e]
    by_cases hm : n = m
    · subst hm; rw [Hub.modLink_self]
    · rw [Hub.modLink_other _ _ _ _ hm]
  · have e : h.abort n = h := by simp only [Hub.abort, if_neg ht]
    rw [e]

theorem Hub.purge_links (h : Hub) (n : Slot) : (h.purge n).links = h.links ∨ (h.purge n).links = (h.abort n).links := by
  unfold Hub.purge
  simp only
  split
  · exact .inl rfl
  · exact .inr rfl

theorem Hub.purge_linkState (h : Hub) (n m : Slot) : (h.purge n).links[m].state = h.links[m].state := by
  rcases h.purge_links n with e | e <;> simp only [e]
  exact h.abort_linkState n m

/-- A count of an errored frame: counters, the monitor, and what a raise leaves. -/
theorem Hub.countErrored_slots (h : Hub) (n : Slot) : (h.countErrored n).slots = h.slots := by
  unfold Hub.countErrored
  simp only
  split
  · rfl
  · split
    · rw [(Hub.raise_handsOn _ _).slots]; rfl
    · rfl

/-- What a disable of a link leaves (R2), where the slot takes no agent frames: the link DISABLED and idle, and the port's entries as
they were. -/
theorem Hub.disableLink_slots (h : Hub) (n : Slot) : (h.disableLink n).slots = h.slots := by
  unfold Hub.disableLink Hub.dropPartial
  simp only
  split
  · rw [Hub.countErrored_slots]; simp
  · simp

/-- What an errored frame counted leaves of what belongs to other blocks. -/
structure Hub.Counts (h g : Hub) (n : Slot) : Prop where
  slots : g.slots = h.slots
  clock : g.clock = h.clock
  tables : g.tables = h.tables
  config : g.config = h.config
  waitList : g.manager.waitList = h.manager.waitList
  timing : g.timing = h.timing

theorem Hub.countErrored_counts (h : Hub) (n : Slot) : Hub.Counts h (h.countErrored n) n := by
  unfold Hub.countErrored
  simp only
  split
  · constructor <;> rfl
  · split
    · have q := Hub.raise_quiet ((h.count n fun c => { c with errored := c.errored + 1 }).modLink n fun l =>
        { l with monitor := { h.links[n].monitor with errored := h.links[n].monitor.errored + 1, reached := true } })
        (.slot n .linkErrors)
      exact ⟨q.slots, q.clock, q.tables, q.config, q.waitList, q.timing⟩
    · constructor <;> rfl

theorem Hub.disableLink_counts (h : Hub) (n : Slot) : Hub.Counts h (h.disableLink n) n := by
  have base : ∀ f, Hub.Counts h ((h.abort n).modLink n f) n := by
    intro f
    rw [Hub.abort_frame]
    constructor <;> rfl
  unfold Hub.disableLink Hub.dropPartial
  simp only
  split
  · have c := Hub.countErrored_counts ((((h.abort n).modLink n fun l =>
      { l with state := .disabled, helloCount := 0, hold := l.hold.map fun hold => { hold with thenTrain := false } })).modLink n
      fun l => { l with rx := none }) n
    have b := base fun l =>
      { l with state := .disabled, helloCount := 0, hold := l.hold.map fun hold => { hold with thenTrain := false } }
    exact ⟨c.slots.trans b.slots, c.clock.trans b.clock, c.tables.trans b.tables, c.config.trans b.config,
      c.waitList.trans b.waitList, c.timing.trans b.timing⟩
  · exact base _

/-- The link and the port of a slot that takes no agent frames, after an errored frame is counted. -/
theorem Hub.countErrored_still (h : Hub) (n : Slot) (hl : h.links[n].state ≠ .locked)
    (hs : h.slots[n].state.takesAgent .control = false) :
    (h.countErrored n).links[n].state = h.links[n].state ∧ (h.countErrored n).links[n].tx = h.links[n].tx ∧
      (h.countErrored n).ports[n].entries = h.ports[n].entries ∧ (h.countErrored n).ports[n].identify = h.ports[n].identify := by
  have still : ∀ g : Hub, g.links[n] = { h.links[n] with monitor := g.links[n].monitor } →
      g.ports[n] = { h.ports[n] with counters := g.ports[n].counters } →
      g.links[n].state = h.links[n].state ∧ g.links[n].tx = h.links[n].tx ∧ g.ports[n].entries = h.ports[n].entries ∧
        g.ports[n].identify = h.ports[n].identify := by
    intro g e1 e2
    rw [e1, e2]
    exact ⟨rfl, rfl, rfl, rfl⟩
  have raised : ∀ (g : Hub) (key : AlarmKey), g.slots = h.slots → g.links[n] = { h.links[n] with monitor := g.links[n].monitor } →
      g.ports[n] = { h.ports[n] with counters := g.ports[n].counters } →
      (g.raise key).links[n].state = h.links[n].state ∧ (g.raise key).links[n].tx = h.links[n].tx ∧
        (g.raise key).ports[n].entries = h.ports[n].entries ∧ (g.raise key).ports[n].identify = h.ports[n].identify := by
    intro g key e0 e1 e2
    have hands := Hub.raise_handsOn g key
    rw [hands.unsent n (by rw [e1]; exact hl), hands.unqueued n (by rw [e0]; exact hs)]
    exact still g e1 e2
  have hp : ∀ f, (h.count n f).ports[n] = { h.ports[n] with counters := (h.count n f).ports[n].counters } := by
    intro f; simp only [Hub.count, Hub.modPort_self]
  unfold Hub.countErrored
  simp only
  split
  · exact still _ rfl (hp _)
  · split
    · refine raised _ _ rfl ?_ ?_
      · rw [Hub.modLink_self]; rfl
      · simp only [Hub.modLink_ports]; exact hp _
    · refine still _ ?_ ?_
      · rw [Hub.modLink_self]; rfl
      · simp only [Hub.modLink_ports]; exact hp _

theorem Hub.disableLink_still (h : Hub) (n : Slot) (hs : h.slots[n].state.takesAgent .control = false) :
    (h.disableLink n).links[n].state = .disabled ∧ (h.disableLink n).links[n].tx = none ∧
      (h.disableLink n).ports[n].entries = h.ports[n].entries ∧ (h.disableLink n).ports[n].identify = h.ports[n].identify := by
  unfold Hub.disableLink Hub.dropPartial
  simp only
  set g := (h.abort n).modLink n fun l =>
    { l with state := .disabled, helloCount := 0, hold := l.hold.map fun hold => { hold with thenTrain := false } } with hg
  have g1 : g.links[n].state = .disabled := by rw [hg, Hub.modLink_self]
  have g2 : g.links[n].tx = none := by rw [hg, Hub.modLink_self]; exact Hub.abort_tx h n
  have g3 : g.ports[n].entries = h.ports[n].entries ∧ g.ports[n].identify = h.ports[n].identify := by
    rw [hg]; simp only [Hub.modLink_ports]; rw [Hub.abort_entries]; exact ⟨rfl, rfl⟩
  have g4 : g.slots = h.slots := by rw [hg]; simp
  clear_value g
  split
  · have := (g.modLink n fun l => { l with rx := none }).countErrored_still n (by rw [Hub.modLink_self, g1]; decide)
      (by simp only [Hub.modLink_slots, g4]; exact hs)
    obtain ⟨a, b, c, d⟩ := this
    refine ⟨a.trans ?_, b.trans ?_, c.trans g3.1, d.trans g3.2⟩
    · rw [Hub.modLink_self]; exact g1
    · rw [Hub.modLink_self]; exact g2
  · exact ⟨g1, g2, g3.1, g3.2⟩

/-! ## Entries to the states without power -/

/-- What follows an entry once the wait list has been served. -/
theorem Hub.HandsOn.othersStand {h k g : Hub} {n : Slot} (hg : Hub.HandsOn k g)
    (hs : ∀ m : Slot, m ≠ n → k.slots[m] = h.slots[m] ∨ (m ∈ h.manager.waitList ∧ k.slots[m] = h.powered h.slots[m]))
    (ht : k.tables = h.tables) (hc : k.clock = h.clock) (hf : k.config = h.config) : Hub.OthersStand h g n :=
  ⟨fun m hm => by rw [hg.slots]; exact hs m hm, hg.tables.trans ht, hg.clock.trans hc, hg.config.trans hf⟩

theorem Hub.HandsOn.listServed {k g : Hub} (hg : Hub.HandsOn k g) (hk : k.ListServed) : g.ListServed := by
  intro m hm
  rw [hg.waitList] at hm
  have := hk m hm
  simp only [Hub.committed, hg.slots, hg.tables] at this ⊢
  exact this

/-- A slot that joins the list, which is then served, and what follows for the other blocks (R62, R63). -/
theorem Hub.joined_spec (h : Hub) (n : Slot) (hw : n ∉ h.manager.waitList) :
    Hub.Joined h ((h.join n).serve.1.announceGrants (h.join n).serve.2) n h.slots[n] ∧
      Hub.OthersStand h ((h.join n).serve.1.announceGrants (h.join n).serve.2) n := by
  have ho := Hub.announceGrants_handsOn (h.join n).serve.1 (h.join n).serve.2
  obtain ⟨a1, a2, a3⟩ := h.join_slot n hw
  have af := h.join_frame n
  generalize h.join n = j at *
  have a4 : j.tables = h.tables ∧ j.clock = h.clock ∧ j.config = h.config := by rw [af]; exact ⟨rfl, rfl, rfl⟩
  have hstamp : ∀ r, j.powered r = h.powered r := fun r => by
    simp only [Hub.powered, Hub.stamp, Hub.dueIn, a4.2.1]
  have jin : n ∈ j.manager.waitList := by rw [a3]; simp
  refine ⟨⟨ho.listServed j.serve_listServed, ?_⟩, ho.othersStand (fun m hm => ?_) ?_ ?_ ?_⟩
  · rcases j.serve_place n with ⟨q', q⟩ | ⟨-, q', q⟩
    · exact .inl ⟨by rw [ho.waitList]; exact q'.mpr jin, by simp only [ho.slots]; rw [q, a1]⟩
    · exact .inr ⟨by rw [ho.waitList]; exact q', by simp only [ho.slots]; rw [q, a1, hstamp]⟩
  · rcases j.serve_slot m with q | ⟨q', q⟩
    · exact .inl (q.trans (a2 m hm))
    · rw [a3, List.mem_append] at q'
      exact .inr ⟨q'.resolve_right (by simpa using hm), by rw [q, hstamp, a2 m hm]⟩
  · rw [Hub.serve_frame]; exact a4.1
  · rw [Hub.serve_frame]; exact a4.2.1
  · rw [Hub.serve_frame]; exact a4.2.2

theorem Hub.HandsOn.shutOff {k g : Hub} {n : Slot} (hg : Hub.HandsOn k g) (hk : k.ShutOff n)
    (hs : k.slots[n].state.takesAgent .control = false) : g.ShutOff n := by
  obtain ⟨h1, h2, h3, h4⟩ := hk
  have u := hg.unsent n (by rw [h1]; decide)
  have p := hg.unqueued n hs
  refine ⟨?_, ?_, ?_, ?_⟩ <;> simp only [u, p] <;> assumption

/-- The hub in which a slot without power stands before what is handed on: its record, its link and its port. -/
theorem Hub.served_parts (h : Hub) (n : Slot) (k : Hub) (r : SlotRec) (hw : n ∉ k.manager.waitList)
    (hr : k.slots[n] = r) (ho : ∀ m, m ≠ n → k.slots[m] = h.slots[m])
    (hl : ∀ m ∈ k.manager.waitList, m ∈ h.manager.waitList) (ht : k.tables = h.tables) (hc : k.clock = h.clock)
    (hf : k.config = h.config) (hoff : k.ShutOff n) :
    k.serve.1.slots[n] = r ∧ k.serve.1.ShutOff n ∧
      (∀ m : Slot, m ≠ n → k.serve.1.slots[m] = h.slots[m] ∨
        (m ∈ h.manager.waitList ∧ k.serve.1.slots[m] = h.powered h.slots[m])) ∧
      k.serve.1.tables = h.tables ∧ k.serve.1.clock = h.clock ∧ k.serve.1.config = h.config := by
  refine ⟨(k.serve_other n hw).trans hr, ?_, fun m hm => ?_, ?_, ?_, ?_⟩
  · unfold Hub.ShutOff at hoff ⊢
    rw [Hub.serve_frame]
    exact hoff
  · rcases k.serve_slot m with e | ⟨hm', e⟩
    · exact .inl (e.trans (ho m hm))
    · refine .inr ⟨hl m hm', e.trans ?_⟩
      rw [ho m hm]
      simp only [Hub.powered, Hub.stamp, Hub.dueIn, hc]
  · rw [Hub.serve_frame]; exact ht
  · rw [Hub.serve_frame]; exact hc
  · rw [Hub.serve_frame]; exact hf

/-- A slot unpowered and shut off, and the wait list served. -/
theorem Hub.powerDown_spec (h : Hub) (n : Slot) (state : SlotState) (f : SlotRec → SlotRec)
    (hf : ∀ r, (f r).state = r.state) (ha : state.takesAgent .control = false) :
    let g := (h.powerDown n state f).serve.1
    g.slots[n] = f (h.slots[n].entering state h.stamp).notWaiting ∧ g.ShutOff n ∧
      (∀ m : Slot, m ≠ n → g.slots[m] = h.slots[m] ∨ (m ∈ h.manager.waitList ∧ g.slots[m] = h.powered h.slots[m])) ∧
      g.tables = h.tables ∧ g.clock = h.clock ∧ g.config = h.config := by
  set j : Hub := ((h.purge n).unjoin n).enter n state f with hj
  have hd : h.powerDown n state f = j.disableLink n := rfl
  have hps : (h.purge n).slots = h.slots := h.purge_slots n
  have hc : (h.purge n).clock = h.clock := by rw [Hub.purge_frame]
  have j1 : j.slots[n] = f (h.slots[n].entering state h.stamp).notWaiting := by
    rw [hj]
    simp only [Hub.enter, Hub.unjoin, Hub.modSlot_self, hps, SlotRec.entering, SlotRec.notWaiting, Hub.stamp, Hub.modSlot_clock, hc]
  have j2 : ∀ m, m ≠ n → j.slots[m] = h.slots[m] := by
    intro m hm
    rw [hj]
    simp only [Hub.enter, Hub.unjoin]
    rw [Hub.modSlot_other _ _ _ _ hm.symm, Hub.modSlot_other _ _ _ _ hm.symm]
    simp only [hps]
  have j3 : ∀ m ∈ j.manager.waitList, m ≠ n ∧ m ∈ h.manager.waitList := by
    intro m hm
    have hm' : m ∈ (h.purge n).manager.waitList.filter (· != n) := hm
    rw [Hub.purge_frame, List.mem_filter] at hm'
    exact ⟨by simpa using hm'.2, hm'.1⟩
  have j4 : j.tables = h.tables ∧ j.clock = h.clock ∧ j.config = h.config := by
    refine ⟨?_, hc, ?_⟩ <;> rw [hj] <;> simp only [Hub.enter, Hub.unjoin, Hub.modSlot_tables, Hub.modSlot_config] <;>
      rw [Hub.purge_frame]
  have j5 : j.ports = (h.purge n).ports := rfl
  have hst : j.slots[n].state.takesAgent .control = false := by
    rw [j1, hf]; exact ha
  clear_value j
  have c := j.disableLink_counts n
  have still := j.disableLink_still n hst
  have hp := h.purge_port n
  rw [hd]
  refine Hub.served_parts h n _ _ ?_ ?_ ?_ ?_ ?_ ?_ ?_ ?_
  · rw [c.waitList]; exact fun hm => (j3 n hm).1 rfl
  · simp only [c.slots, j1]
  · intro m hm; simp only [c.slots]; exact j2 m hm
  · intro m hm; rw [c.waitList] at hm; exact (j3 m hm).2
  · exact c.tables.trans j4.1
  · exact c.clock.trans j4.2.1
  · exact c.config.trans j4.2.2
  · refine ⟨still.1, still.2.1, still.2.2.1.trans ?_, still.2.2.2.trans ?_⟩
    · simp only [j5]; exact hp.1
    · simp only [j5]; exact hp.2

/-- OFF (R74, R88, R94): the record, the link and the port of the slot, and the other slots. -/
theorem Hub.enterOffWith_spec (forced : Bool) (h : Hub) (n : Slot) (reason : SlotReason) :
    (h.enterOffWith forced n reason).slots[n] = h.slots[n].inOff h.stamp ∧ (h.enterOffWith forced n reason).ShutOff n ∧
      Hub.OthersStand h (h.enterOffWith forced n reason) n := by
  unfold Hub.enterOffWith
  simp only
  obtain ⟨p1, p2, p3, p4, p5, p6⟩ := h.powerDown_spec n .off (fun r => { r.unpower true with identity := none })
    (fun _ => rfl) rfl
  generalize Hub.serve _ = k at *
  have ho := (k.1.raiseIf_handsOn forced (.slot n .drainForced)).trans <|
    (Hub.clearWait_handsOn _ n h.slots[n].waitRaised).trans <| (Hub.clear_handsOn _ (.slot n .cardMismatch)).trans <|
    (Hub.clearIf_handsOn _ (h.slots[n].state == .faulted) (.slot n .slotFault)).trans <| (Hub.clearReported_handsOn _ n).trans <|
    (Hub.handOn_handsOn _ n h.slots[n].state (h.links[n].state == .locked)).trans <|
    (Hub.slotNotice_handsOn _ n h.slots[n].state .off reason).trans <| Hub.announceGrants_handsOn _ k.2
  refine ⟨?_, ho.shutOff p2 (by rw [p1]; rfl), ho.othersStand p3 p4 p5 p6⟩
  simp only [ho.slots, p1]
  rfl

theorem Hub.enterOff_spec (h : Hub) (n : Slot) (reason : SlotReason) :
    (h.enterOff n reason).slots[n] = h.slots[n].inOff h.stamp ∧ (h.enterOff n reason).ShutOff n ∧
      Hub.OthersStand h (h.enterOff n reason) n := Hub.enterOffWith_spec false h n reason

/-- EMPTY (R88, R89). -/
theorem Hub.enterEmpty_spec (h : Hub) (n : Slot) :
    (h.enterEmpty n).slots[n] = h.slots[n].inEmpty h.stamp ∧ (h.enterEmpty n).ShutOff n ∧ Hub.OthersStand h (h.enterEmpty n) n := by
  unfold Hub.enterEmpty
  simp only
  obtain ⟨p1, p2, p3, p4, p5, p6⟩ := h.powerDown_spec n .empty SlotRec.emptied (fun _ => rfl) rfl
  generalize Hub.serve _ = k at *
  suffices ho : Hub.HandsOn k.1 _ by
    refine ⟨?_, ho.shutOff p2 (by rw [p1]; rfl), ho.othersStand p3 p4 p5 p6⟩
    simp only [ho.slots, p1]
    rfl
  refine .trans ?_ (Hub.announceGrants_handsOn _ _)
  refine .trans ?_ (Hub.slotNotice_handsOn _ _ _ _ _)
  refine .trans ?_ (Hub.handOn_handsOn _ _ _ _)
  refine .trans ?_ (Hub.clearReported_handsOn _ _)
  have h1 := (k.1.clearWait_handsOn n h.slots[n].waitRaised).trans <| (Hub.clear_handsOn _ (.slot n .cardMismatch)).trans <|
    (Hub.clearIf_handsOn _ (h.slots[n].state == .recovering) (.slot n .linkLost)).trans <|
    Hub.clearIf_handsOn _ (h.slots[n].state == .faulted) (.slot n .slotFault)
  exact h1.trans (Hub.raiseIf_handsOn _ _ _)

/-- FAULTED (R93), before the latch is looked at. -/
theorem Hub.enterFaulted_parts (h : Hub) (n : Slot) (fault : FaultReason) (reason : SlotReason) :
    ∃ g : Hub, g.slots[n] = h.slots[n].inFaulted h.stamp fault (h.dueIn 2000) ∧ g.ShutOff n ∧ Hub.OthersStand h g n ∧
      h.enterFaulted n fault reason = if h.slots[n].latchClosed then g else g.enterOff n .latchOpened := by
  unfold Hub.enterFaulted
  simp only
  obtain ⟨p1, p2, p3, p4, p5, p6⟩ := h.powerDown_spec n .faulted (fun r => { r.unpower false with fault := some fault })
    (fun _ => rfl) rfl
  generalize Hub.serve _ = k at *
  have h1 := (k.1.raise_handsOn (.slot n .slotFault)).trans <|
    Hub.clearIf_handsOn _ (h.slots[n].state == .recovering) (.slot n .linkLost)
  generalize Hub.clearIf (k.1.raise _) _ _ = k1 at *
  set k2 := k1.modSlot n fun r => { r with limit := some (k1.dueIn 2000) } with hk2
  have e1 : k2.slots[n] = h.slots[n].inFaulted h.stamp fault (h.dueIn 2000) := by
    rw [hk2, Hub.modSlot_self]
    simp only [h1.slots, p1, Hub.dueIn, h1.clock, p5]
    rfl
  have e2 : ∀ m, m ≠ n → k2.slots[m] = k1.slots[m] := fun m hm => by rw [hk2, Hub.modSlot_other _ _ _ _ hm.symm]
  have e3 : k2.ShutOff n := by
    have := h1.shutOff p2 (by rw [p1]; rfl)
    rw [hk2]; exact this
  have e4 : k2.tables = h.tables ∧ k2.clock = h.clock ∧ k2.config = h.config := by
    rw [hk2]; exact ⟨h1.tables.trans p4, h1.clock.trans p5, h1.config.trans p6⟩
  clear_value k2
  have h2 := (k2.clearReported_handsOn n).trans <| (Hub.handOn_handsOn _ n h.slots[n].state (h.links[n].state == .locked)).trans <|
    (Hub.slotNotice_handsOn _ n h.slots[n].state .faulted reason).trans <| Hub.announceGrants_handsOn _ k.2
  generalize Hub.announceGrants _ k.2 = g at *
  refine ⟨g, ?_, h2.shutOff e3 (by rw [e1]; rfl), h2.othersStand (fun m hm => ?_) e4.1 e4.2.1 e4.2.2, ?_⟩
  · simp only [h2.slots, e1]
  · rw [e2 m hm]
    simp only [h1.slots]
    exact p3 m hm
  · have : g.slots[n].latchClosed = h.slots[n].latchClosed := by simp only [h2.slots, e1]; rfl
    rw [this]

/-- FAULTED with the debounced latch CLOSED (R93). -/
theorem Hub.enterFaulted_spec (h : Hub) (n : Slot) (fault : FaultReason) (reason : SlotReason)
    (hlatch : h.slots[n].latchClosed = true) :
    (h.enterFaulted n fault reason).slots[n] = h.slots[n].inFaulted h.stamp fault (h.dueIn 2000) ∧
      (h.enterFaulted n fault reason).ShutOff n ∧ Hub.OthersStand h (h.enterFaulted n fault reason) n := by
  obtain ⟨g, h1, h2, h3, e⟩ := h.enterFaulted_parts n fault reason
  rw [e, if_pos hlatch]
  exact ⟨h1, h2, h3⟩

/-- FAULTED with the debounced latch OPEN: the slot goes on to OFF and keeps the fault reason (R93). -/
theorem Hub.enterFaulted_open (h : Hub) (n : Slot) (fault : FaultReason) (reason : SlotReason)
    (hlatch : h.slots[n].latchClosed = false) :
    (h.enterFaulted n fault reason).slots[n] = { h.slots[n].inOff h.stamp with fault := some fault } ∧
      (h.enterFaulted n fault reason).ShutOff n := by
  obtain ⟨g, h1, -, ⟨-, -, hc, -⟩, e⟩ := h.enterFaulted_parts n fault reason
  rw [e, hlatch]
  simp only [Bool.false_eq_true, if_false]
  obtain ⟨o1, o2, -⟩ := g.enterOff_spec n .latchOpened
  refine ⟨?_, o2⟩
  rw [o1, h1]
  simp only [Hub.stamp, hc]
  rfl

/-! ## Entries to SEATED -/

/-- SEATED (R65, R66): the slot is held there, or it waits for power, or it has been given power at once; and the other slots. -/
theorem Hub.enterSeated_spec (h : Hub) (n : Slot) (joins : Bool) (reason : SlotReason) (hw : n ∉ h.manager.waitList) :
    Hub.Seated h (h.enterSeated n joins reason) n h.slots[n] joins := by
  set t := h.enterSeated n joins reason with ht
  set held := h.slots[n].inSeated h.stamp with hheld
  set waits := held.waiting h.clock.now h.clock.elapsed with hwaits
  show (if joins || (h.tables.plan[n].expected && h.slots[n].latchClosed) then Hub.Joined h t n held else t.slots[n] = held) ∧
    Hub.OthersStand h t n
  set j := h.seat n joins with hj
  set e : Hub := h.enter n .seated fun r => { r.unpower false with identity := none } with he
  have e1 : e.slots[n] = held := by rw [he]; simp only [Hub.enter, Hub.modSlot_self]; rfl
  have e2 : ∀ m, m ≠ n → e.slots[m] = h.slots[m] := fun m hm => by
    rw [he]; simp only [Hub.enter]; rw [Hub.modSlot_other _ _ _ _ hm.symm]
  have e3 : e.manager.waitList = h.manager.waitList ∧ e.tables = h.tables ∧ e.clock = h.clock ∧ e.config = h.config := by
    rw [he]; exact ⟨rfl, rfl, rfl, rfl⟩
  have hjd : j = if joins || (h.tables.plan[n].expected && h.slots[n].latchClosed) then e.join n else e := by
    have : e.slots[n].latchClosed = h.slots[n].latchClosed := by rw [e1]; rfl
    rw [hj]
    unfold Hub.seat
    simp only
    rw [← he]
    simp only [e3.2.1, this]
  clear_value e
  clear_value j
  have ho : Hub.HandsOn j.serve.1 t := by
    have : t = ((j.serve.1.clearIf (h.slots[n].state == .faulted) (.slot n .slotFault)).notice Code.slotChanged
      (.slotChanged n h.slots[n].state .seated reason none
        (j.serve.1.clearIf (h.slots[n].state == .faulted) (.slot n .slotFault)).slots[n].entry)).announceGrants j.serve.2 := by
      simp only [ht, Hub.enterSeated, hj]
    rw [this]
    exact (Hub.clearIf_handsOn _ _ _).trans <| (Hub.HandsOn.notice _ _ _).trans <| Hub.announceGrants_handsOn _ _
  by_cases hc : (joins || (h.tables.plan[n].expected && h.slots[n].latchClosed)) = true
  · rw [if_pos hc] at hjd ⊢
    obtain ⟨a1, a2, a3⟩ := e.join_slot n (by rw [e3.1]; exact hw)
    have a4 : j.tables = e.tables ∧ j.clock = e.clock ∧ j.config = e.config := by
      rw [hjd, Hub.join_frame]; exact ⟨rfl, rfl, rfl⟩
    have hstamp : ∀ r, j.powered r = h.powered r := fun r => by
      simp only [Hub.powered, Hub.stamp, Hub.dueIn, a4.2.1, e3.2.2.1]
    have j1 : j.slots[n] = waits := by
      simp only [hjd, a1, e1, e3.2.2.1]; rfl
    have j2 : ∀ m, m ≠ n → j.slots[m] = h.slots[m] := fun m hm => by
      simp only [hjd]; exact (a2 m hm).trans (e2 m hm)
    refine ⟨?_, ho.othersStand (fun m hm => ?_) ?_ ?_ ?_⟩
    · refine ⟨ho.listServed j.serve_listServed, ?_⟩
      have jin : n ∈ j.manager.waitList := by rw [hjd, a3]; simp
      rcases j.serve_place n with ⟨q', q⟩ | ⟨-, q', q⟩
      · exact .inl ⟨by rw [ho.waitList]; exact q'.mpr jin, by simp only [ho.slots]; rw [q, j1]⟩
      · exact .inr ⟨by rw [ho.waitList]; exact q', by simp only [ho.slots]; rw [q, j1, hstamp]⟩
    · rcases j.serve_slot m with q | ⟨q', q⟩
      · exact .inl (q.trans (j2 m hm))
      · rw [hjd, a3, List.mem_append, e3.1] at q'
        refine .inr ⟨q'.resolve_right (by simpa using hm), q.trans ?_⟩
        rw [hstamp, j2 m hm]
    · rw [Hub.serve_frame]; exact a4.1.trans e3.2.1
    · rw [Hub.serve_frame]; exact a4.2.1.trans e3.2.2.1
    · rw [Hub.serve_frame]; exact a4.2.2.trans e3.2.2.2
  · rw [if_neg hc] at hjd ⊢
    subst hjd
    have hstamp : ∀ r, j.powered r = h.powered r := fun r => by
      simp only [Hub.powered, Hub.stamp, Hub.dueIn, e3.2.2.1]
    refine ⟨?_, ho.othersStand (fun m hm => ?_) ?_ ?_ ?_⟩
    · simp only [ho.slots]
      rw [j.serve_other n (by rw [e3.1]; exact hw), e1]
    · rcases j.serve_slot m with q | ⟨q', q⟩
      · exact .inl (q.trans (e2 m hm))
      · rw [e3.1] at q'
        exact .inr ⟨q', by rw [q, hstamp, e2 m hm]⟩
    · rw [Hub.serve_frame]; exact e3.2.1
    · rw [Hub.serve_frame]; exact e3.2.2.1
    · rw [Hub.serve_frame]; exact e3.2.2.2

/-! ## Entries to the powered states -/

/-- FORWARDING (R73, R82, R91): all that follows the change of the record belongs to the other blocks. -/
theorem Hub.enterForwarding_handsOn (h : Hub) (n : Slot) (reason : SlotReason) :
    Hub.HandsOn (h.enter n .forwarding fun r => { r with fault := none }) (h.enterForwarding n reason) :=
  (Hub.HandsOn.schedule _ _).trans <| (Hub.clearIf_handsOn _ _ _).trans <| (Hub.judgePermit_handsOn _ _ _).trans <|
    (Hub.judgeOutputs_handsOn _).trans <| Hub.slotNotice_handsOn _ _ _ _ _

/-- RECOVERING (R81). -/
theorem Hub.enterRecovering_handsOn (h : Hub) (n : Slot) (reason : SlotReason) :
    Hub.HandsOn (h.enter n .recovering fun r => { r with limit := some (h.dueIn h.tables.recoveryWindow) })
      (h.enterRecovering n reason) :=
  (Hub.raise_handsOn _ _).trans <| (Hub.leaveForwarding_handsOn _ _).trans <| Hub.slotNotice_handsOn _ _ _ _ _

/-- DRAINING (R84). -/
theorem Hub.enterDraining_handsOn (h : Hub) (n : Slot) (reason : SlotReason) :
    Hub.HandsOn (h.enter n .draining fun r => { r with quiesced := false, limit := some (h.dueIn h.tables.drainTimeout) })
      (h.enterDraining n reason) :=
  (Hub.place_handsOn _ n .control _ (.inr rfl) (by simp [agentFrame])).trans <| (Hub.HandsOn.schedule _ _).trans <|
    (Hub.clearIf_handsOn _ _ _).trans <| (Hub.handOn_handsOn _ _ _ _).trans <| Hub.slotNotice_handsOn _ _ _ _ _

/-- FENCED (R90). -/
theorem Hub.enterFenced_handsOn (h : Hub) (n : Slot) (reason : SlotReason) :
    Hub.HandsOn ((h.purge n).enter n .fenced id) (h.enterFenced n reason) :=
  (Hub.clearIf_handsOn _ _ _).trans <| (Hub.handOn_handsOn _ _ _ _).trans <| Hub.slotNotice_handsOn _ _ _ _ _

/-- An entry that keeps the slot powered: the record of the slot, and every other slot as it was. -/
theorem Hub.HandsOn.entered {h k g : Hub} {n : Slot} {state : SlotState} {f : SlotRec → SlotRec} (ho : Hub.HandsOn (k.enter n state f) g)
    (hs : k.slots = h.slots) (hc : k.clock = h.clock) :
    g.slots[n] = f (h.slots[n].entering state h.stamp) ∧ ∀ m, m ≠ n → g.slots[m] = h.slots[m] := by
  have hst : k.stamp = h.stamp := by simp only [Hub.stamp, hc]
  refine ⟨?_, fun m hm => ?_⟩
  · simp only [ho.slots, Hub.enter, Hub.modSlot_self, hs, hst, SlotRec.entering]
  · simp only [ho.slots, Hub.enter]
    rw [Hub.modSlot_other _ _ _ _ hm.symm]
    simp only [hs]

end

end Sys2Proof.Machine
end

