-- ==== Sys2Proof/Laws/FreeBodies.lean ====
section
/-! SUPPORT. The bodies of refusals whose values are free: their lengths are those that the reply format can have (R176), a SWEEP's accounts for
its slots (R168), and a PORT_COUNTS's ends with the free counts (R34). -/

namespace Sys2Proof.Machine

/-- Whatever the free values, the part takes `a` to `b` bytes. -/
def FreePart.Between (p : FreePart) (a b : Nat) : Prop := ∀ draw i, a ≤ (p draw i).1.length ∧ (p draw i).1.length ≤ b

theorem FreePart.Between.mono {p : FreePart} {a b c d : Nat} (h : p.Between a b) (hc : c ≤ a) (hd : b ≤ d) : p.Between c d :=
  fun draw i => ⟨hc.trans (h draw i).1, (h draw i).2.trans hd⟩

theorem FreePart.value_between {k n : Nat} {enc : Nat → List Byte} (h : ∀ v, (enc v).length = n) :
    (FreePart.value k enc).Between n n := fun draw i => by simp [FreePart.value, h]

theorem FreePart.num_between (k : Nat) : (FreePart.num k).Between k k := FreePart.value_between fun v => be_length k v

theorem FreePart.within_between (a b : Nat) : (FreePart.within a b).Between 1 1 := FreePart.value_between fun _ => be_length 1 _

theorem FreePart.mask_between : FreePart.mask.Between 2 2 := FreePart.value_between fun _ => Mask.encode_length _

theorem FreePart.oneOf_between {l : List (List Byte)} {n : Nat} (h0 : l ≠ []) (h : ∀ x ∈ l, x.length = n) :
    (FreePart.oneOf l).Between n n := by
  refine FreePart.value_between fun v => ?_
  have hv : v % l.length < l.length := Nat.mod_lt _ (List.length_pos_iff.mpr h0)
  rw [List.getD_eq_getElem _ _ hv]
  exact h _ (List.getElem_mem hv)

theorem FreePart.nil_between : (FreePart.seq []).Between 0 0 := fun _ _ => ⟨le_rfl, le_rfl⟩

theorem FreePart.cons_between {p : FreePart} {l : List FreePart} {a b c d : Nat} (hp : p.Between a b)
    (hl : (FreePart.seq l).Between c d) : (FreePart.seq (p :: l)).Between (a + c) (b + d) := fun draw i => by
  have h1 := hp draw i
  have h2 := hl draw (p draw i).2
  simp only [FreePart.seq, List.length_append]
  omega

theorem FreePart.replicate_between {p : FreePart} {a b : Nat} (hp : p.Between a b) :
    ∀ n, (FreePart.seq (List.replicate n p)).Between (n * a) (n * b)
  | 0 => FreePart.nil_between.mono (by simp) (by simp)
  | n + 1 => (FreePart.cons_between hp (FreePart.replicate_between hp n)).mono (by rw [Nat.succ_mul]; omega)
      (by rw [Nat.succ_mul]; omega)

theorem FreePart.opt_between {p : FreePart} {size a b : Nat} (hp : p.Between a b) :
    (FreePart.opt size p).Between (1 + min size a) (1 + max size b) := fun draw i => by
  have := hp draw (i + 1)
  unfold FreePart.opt
  split <;> simp only [List.length_append, be_length, List.length_replicate] <;> omega

/-- A list is its count, within its bounds, and that many items. -/
theorem FreePart.many_cases (p : FreePart) {least most : Nat} (draw i : Nat) (hm : least ≤ most) : ∃ n, least ≤ n ∧ n ≤ most ∧
    (FreePart.many least most p draw i).1 = be 1 n ++ (FreePart.seq (List.replicate n p) draw (i + 1)).1 := by
  have hn : (Config.freeByte draw i).toNat % (most - least + 1) < most - least + 1 := Nat.mod_lt _ (Nat.succ_pos _)
  exact ⟨_, Nat.le_add_right _ _, by omega, rfl⟩

theorem FreePart.many_between {p : FreePart} {least most a b : Nat} (hp : p.Between a b) (hm : least ≤ most) :
    (FreePart.many least most p).Between (1 + least * a) (1 + most * b) := fun draw i => by
  obtain ⟨n, h1, h2, h⟩ := FreePart.many_cases p draw i hm
  have hl := FreePart.replicate_between hp n draw (i + 1)
  have ha : least * a ≤ n * a := Nat.mul_le_mul_right _ h1
  have hb : n * b ≤ most * b := Nat.mul_le_mul_right _ h2
  rw [h, List.length_append, be_length]
  omega

/-- A refused REF_LIST_SET is answered with the list of 0 to 4 candidates that its reply format has: 5 + 3n bytes. -/
theorem unstatedBody_refListSet_length (draw : Nat) : ∃ n ≤ 4, (unstatedBody Code.refListSet draw).length = 5 + 3 * n := by
  have hc : (FreePart.seq [FreePart.source, FreePart.code candStatuses, FreePart.within 0 60]).Between 3 3 :=
    FreePart.cons_between (FreePart.within_between _ _) (FreePart.cons_between (FreePart.within_between _ _)
      (FreePart.cons_between (FreePart.within_between _ _) FreePart.nil_between))
  obtain ⟨n, -, hn, h1⟩ := FreePart.many_cases _ draw 0 (Nat.zero_le 4)
  have hl := FreePart.replicate_between hc n draw (0 + 1)
  have h2 : (FreePart.seq [FreePart.opt 1 FreePart.source, FreePart.timingState]).Between 4 4 :=
    FreePart.cons_between (FreePart.opt_between (FreePart.within_between _ _))
      (FreePart.cons_between (FreePart.oneOf_between (n := 2) (by decide) (by decide)) FreePart.nil_between)
  have h3 := h2 draw (FreePart.many 0 4 (FreePart.seq [FreePart.source, FreePart.code candStatuses, FreePart.within 0 60]) draw 0).2
  refine ⟨n, hn, ?_⟩
  change (FreePart.refList draw 0).1.length = _
  rw [FreePart.refList, FreePart.seq, List.length_append, h1, List.length_append, be_length]
  omega

theorem FreePart.bool_between : FreePart.bool.Between 1 1 := FreePart.within_between _ _
theorem FreePart.slot_between : FreePart.slot.Between 1 1 := FreePart.within_between _ _
theorem FreePart.source_between : FreePart.source.Between 1 1 := FreePart.within_between _ _
theorem FreePart.code_between {α : Type} (l : List α) : (FreePart.code l).Between 1 1 := FreePart.within_between _ _
theorem FreePart.asymmetry_between : FreePart.asymmetry.Between 2 2 := FreePart.value_between fun _ => be_length 2 _
theorem FreePart.defaultTarget_between : FreePart.defaultTarget.Between 2 2 := FreePart.oneOf_between (by decide) (by decide)
theorem FreePart.timingState_between : FreePart.timingState.Between 2 2 := FreePart.oneOf_between (by decide) (by decide)
theorem FreePart.target_between :
    (FreePart.oneOf ((allSlots.map Target.slot ++ (List.finRange 16).map Target.group).map encTarget)).Between 2 2 :=
  FreePart.oneOf_between (by decide) (by decide)
theorem FreePart.kindKey_between : (FreePart.oneOf (alarmKinds.flatMap fun k =>
    (if k.slotSourced then allSlots.map Slot.number else [0]).map fun n => be 1 n ++ be 1 (codeIn alarmKinds k))).Between 2 2 := by
  refine FreePart.oneOf_between (by decide) fun x hx => ?_
  obtain ⟨k, -, hk⟩ := List.mem_flatMap.mp hx
  obtain ⟨n, -, rfl⟩ := List.mem_map.mp hk
  simp

/-! ### The formats -/

theorem FreePart.time_between : FreePart.time.Between 10 10 :=
  (cons_between (num_between _) <| cons_between (value_between fun _ => be_length _ _) <| nil_between).mono (by decide) (by decide)

theorem FreePart.stamp_between : FreePart.stamp.Between 8 8 :=
  (cons_between (num_between _) <| cons_between (value_between fun _ => be_length _ _) <| nil_between).mono (by decide) (by decide)

theorem FreePart.lamps_between : FreePart.lamps.Between 5 5 :=
  ((replicate_between bool_between _)).mono (by decide) (by decide)

theorem FreePart.inputs_between : FreePart.inputs.Between 5 5 :=
  ((replicate_between bool_between _)).mono (by decide) (by decide)

theorem FreePart.plan_between : FreePart.plan.Between 5 5 :=
  (cons_between bool_between <| cons_between (opt_between (code_between _)) <| cons_between bool_between <| cons_between (within_between _
    _) <| nil_between).mono (by decide) (by decide)

theorem FreePart.window_between : FreePart.window.Between 16 16 :=
  (cons_between bool_between <| cons_between (num_between _) <| cons_between (within_between _ _) <| cons_between target_between <|
    cons_between (opt_between (num_between _)) <| cons_between (within_between _ _) <| cons_between mask_between <| nil_between).mono (by
    decide) (by decide)

theorem FreePart.identity_between : FreePart.identity.Between 7 23 :=
  (cons_between (code_between _) <| cons_between (num_between _) <| cons_between (num_between _) <| cons_between (code_between _) <|
    cons_between (within_between _ _) <| cons_between (many_between (num_between _) (by decide)) <| nil_between).mono (by decide) (by
    decide)

theorem FreePart.slotRec_between : FreePart.slotRec.Between 38 54 :=
  (cons_between (code_between _) <| cons_between (within_between _ _) <| cons_between (within_between _ _) <| cons_between (opt_between
    (code_between _)) <| cons_between (opt_between identity_between) <| cons_between (opt_between (code_between _)) <| cons_between
    (num_between _) <| cons_between stamp_between <| cons_between (num_between _) <| cons_between bool_between <| cons_between
    (opt_between time_between) <| cons_between bool_between <| nil_between).mono (by decide) (by decide)

theorem FreePart.slotQuery_between : FreePart.slotQuery.Between 60 88 :=
  (cons_between slotRec_between <| cons_between plan_between <| cons_between (within_between _ _) <| cons_between (opt_between
    (num_between _)) <| cons_between (code_between _) <| cons_between bool_between <| cons_between bool_between <| cons_between
    bool_between <| cons_between bool_between <| cons_between bool_between <| cons_between (num_between _) <| cons_between (num_between _)
    <| cons_between (many_between slot_between (by decide)) <| nil_between).mono (by decide) (by decide)

theorem FreePart.refList_between : FreePart.refList.Between 5 17 :=
  (cons_between (many_between (cons_between source_between <| cons_between (code_between _) <| cons_between (within_between _ _) <|
    nil_between) (by decide)) <| cons_between (opt_between source_between) <| cons_between timingState_between <| nil_between).mono (by
    decide) (by decide)

theorem FreePart.slotTiming_between : FreePart.slotTiming.Between 60 76 :=
  (cons_between (num_between _) <| cons_between (opt_between (cons_between (num_between _) <| cons_between (opt_between time_between) <|
    nil_between)) <| cons_between (many_between (num_between _) (by decide)) <| cons_between (opt_between (num_between _)) <| cons_between
    (opt_between (num_between _)) <| cons_between asymmetry_between <| cons_between (num_between _) <| cons_between bool_between <|
    cons_between (num_between _) <| cons_between (num_between _) <| cons_between bool_between <| cons_between (opt_between (num_between
    _)) <| cons_between (within_between _ _) <| cons_between (num_between _) <| cons_between (num_between _) <| cons_between (num_between
    _) <| cons_between (opt_between (num_between _)) <| cons_between bool_between <| cons_between bool_between <| cons_between
    (opt_between (within_between _ _)) <| cons_between inputs_between <| cons_between (num_between _) <| cons_between (within_between _ _)
    <| nil_between).mono (by decide) (by decide)

theorem FreePart.key_between : FreePart.key.Between 4 4 :=
  (cons_between kindKey_between <| cons_between (num_between _) <| nil_between).mono (by decide) (by decide)

theorem FreePart.alarmRec_between : FreePart.alarmRec.Between 27 27 :=
  (cons_between (within_between _ _) <| cons_between key_between <| cons_between (code_between _) <| cons_between (opt_between
    (code_between _)) <| cons_between (within_between _ _) <| cons_between bool_between <| cons_between stamp_between <| cons_between
    stamp_between <| cons_between (within_between _ _) <| nil_between).mono (by decide) (by decide)

theorem FreePart.alarmList_between : FreePart.alarmList.Between 21 237 :=
  (cons_between (many_between alarmRec_between (by decide)) <| cons_between (within_between _ _) <| cons_between bool_between <|
    cons_between (opt_between (within_between _ _)) <| cons_between (num_between _) <| cons_between (num_between _) <| cons_between
    (num_between _) <| cons_between (num_between _) <| cons_between (num_between _) <| cons_between (num_between _) <| cons_between
    lamps_between <| cons_between (opt_between slot_between) <| nil_between).mono (by decide) (by decide)

/-! ### Sweeps -/

/-- Whatever its values, a refused SWEEP's reply accounts for its slots as R168 has it of every sweep reply. -/
theorem freeSweep_accounts (draw i : Nat) : (freeSweep draw i).body.Accounts := by
  intro n
  have hr : Mask.has (freeSweep draw i).body.remaining n = true ↔ n ∈ (freeSweep draw i).failures.map (·.1) :=
    Sweep.has_remaining _ n
  have hf : (Config.freeByte draw (i + (4 + 34 * n.val))).toNat % 3 < 3 := Nat.mod_lt _ (by decide)
  rw [hr]
  simp only [Sweep.body, freeSweep, Mask.has_inserts, List.map_map, Function.comp_def, List.map_id', List.mem_filter, mem_allSlots,
    true_and, beq_iff_eq, bne_iff_ne]
  simp only [show Mask.has 0 n = false by simp [Mask.has], Bool.false_eq_true, false_or]
  omega

/-- Two filters that take no common item take no more than there are. -/
theorem length_filters_le {α : Type} {p q : α → Bool} (h : ∀ a, p a = true → q a = false) :
    ∀ l : List α, (l.filter p).length + (l.filter q).length ≤ l.length
  | [] => by simp
  | a :: l => by
    have ih := length_filters_le h l
    have := h a
    simp only [List.filter_cons, List.length_cons]
    split <;> split <;> simp_all <;> omega

theorem length_flatMap_le {α : Type} {f : α → List Byte} {k : Nat} : ∀ {l : List α}, (∀ a ∈ l, (f a).length ≤ k) →
    (l.flatMap f).length ≤ l.length * k
  | [], _ => by simp
  | a :: l, h => by
    have h1 := h a (by simp)
    have h2 := length_flatMap_le (l := l) fun b hb => h b (by simp [hb])
    rw [List.flatMap_cons, List.length_append, List.length_cons, Nat.succ_mul]
    omega

theorem FreePart.sweep_between : FreePart.sweep.Between 12 420 := fun draw i => by
  let w := freeSweep draw i
  have hn : w.results.length + w.failures.length ≤ 12 := by
    simp only [w, freeSweep, List.length_map]
    exact length_filters_le (l := allSlots) (fun n => by simp +contextual)
  have hres : (w.results.flatMap fun p => be 1 (Slot.number p.1) ++ encText p.2).length ≤ w.results.length * 34 := by
    refine length_flatMap_le fun p hp => ?_
    simp only [w, freeSweep, List.mem_map] at hp
    obtain ⟨n, -, rfl⟩ := hp
    have : (Config.freeByte draw (i + (4 + 34 * n.val + 1))).toNat % 32 < 32 := Nat.mod_lt _ (by decide)
    simp [encText, freeBytes]
    omega
  have hfail : (w.failures.flatMap fun p => be 1 (Slot.number p.1) ++ be 1 (codeIn sweepFailures p.2)).length ≤ w.failures.length * 2 :=
    length_flatMap_le fun p _ => by simp
  have hfirst : (encOpt 1 (fun n => be 1 (Slot.number n)) w.body.firstFailed).length = 2 := by
    cases w.body.firstFailed <;> simp [encOpt]
  change 12 ≤ (encSweep w.body).length ∧ (encSweep w.body).length ≤ 420
  simp only [encSweep, List.length_append, be_length, Mask.encode_length, List.length_singleton, hfirst]
  change 12 ≤ 1 + 1 + 2 + 1 + (w.results.flatMap _).length + 2 + 1 + (w.failures.flatMap _).length + 2 + 2 ∧
    1 + 1 + 2 + 1 + (w.results.flatMap _).length + 2 + 1 + (w.failures.flatMap _).length + 2 + 2 ≤ 420
  omega

/-- A refused SWEEP is answered with the reply format of a sweep whose slots are accounted for (R168, R176). -/
theorem unstatedBody_sweep (draw : Nat) : unstatedBody Code.sweep draw = encSweep (freeSweep draw 0).body := rfl

/-! ### PORT_COUNTS -/

theorem FreePart.portCounts_between : FreePart.portCounts.Between 63 63 :=
  (cons_between (num_between _) <| cons_between bool_between <| cons_between (num_between _) <| cons_between (num_between _) <|
    nil_between).mono (by decide) (by decide)

/-- A refused PORT_COUNTS ends with the free counts (R34), at the place and in the width of the reply format. -/
theorem refusedPortCounts_cases (draw freeShared freeReserve : Nat) : ∃ fields : List Byte, fields.length = 63 ∧
    (Body.portCountsRefused draw freeShared freeReserve).encode = fields ++ be 2 freeShared ++ be 1 freeReserve := by
  have h := FreePart.portCounts_between draw 0
  exact ⟨_, by omega, rfl⟩

/-- Every PORT_COUNTS reply that is neither BAD_LENGTH's nor UNKNOWN_REQUEST's is of one length (R176). -/
theorem encPortCounts_length (b : PortCountsBody) : (encPortCounts b).length = 66 := by
  simp [encPortCounts, encCounters, encCounter]

/-! ### All of them -/

/-- Every format fits a message (R190). -/
theorem FreePart.formats_fit : ∀ p ∈ replyFormats, p.2.Between 0 1024 := by
  simp only [replyFormats, List.forall_mem_cons, List.not_mem_nil, false_implies, implies_true, and_true]
  exact ⟨(plan_between).mono (by decide) (by decide),
    (slotQuery_between).mono (by decide) (by decide),
    (cons_between (code_between _) <| cons_between (within_between _ _) <| nil_between).mono (by decide) (by decide),
    ((code_between _)).mono (by decide) (by decide),
    (cons_between (code_between _) <| cons_between (code_between _) <| nil_between).mono (by decide) (by decide),
    (cons_between (code_between _) <| cons_between (code_between _) <| nil_between).mono (by decide) (by decide),
    (cons_between (code_between _) <| cons_between (code_between _) <| nil_between).mono (by decide) (by decide),
    (window_between).mono (by decide) (by decide),
    (cons_between window_between <| cons_between mask_between <| cons_between mask_between <| nil_between).mono (by decide) (by decide),
    (cons_between (within_between _ _) <| cons_between mask_between <| nil_between).mono (by decide) (by decide),
    (cons_between mask_between <| cons_between mask_between <| cons_between (num_between _) <| cons_between bool_between <| nil_between).mono (by decide) (by decide),
    (cons_between defaultTarget_between <| cons_between defaultTarget_between <| nil_between).mono (by decide) (by decide),
    (cons_between (num_between _) <| cons_between (num_between _) <| cons_between (num_between _) <| nil_between).mono (by decide) (by decide),
    (refList_between).mono (by decide) (by decide),
    (time_between).mono (by decide) (by decide),
    (slotTiming_between).mono (by decide) (by decide),
    (cons_between asymmetry_between <| cons_between asymmetry_between <| cons_between (opt_between (num_between _)) <| cons_between (opt_between (num_between _)) <| nil_between).mono (by decide) (by decide),
    (alarmList_between).mono (by decide) (by decide),
    (cons_between (num_between _) <| cons_between (num_between _) <| cons_between lamps_between <| nil_between).mono (by decide) (by decide),
    (cons_between (opt_between (code_between _)) <| cons_between bool_between <| cons_between (code_between _) <| cons_between bool_between <| cons_between (num_between _) <| cons_between (num_between _) <| nil_between).mono (by decide) (by decide),
    (cons_between (opt_between slot_between) <| cons_between (opt_between slot_between) <| cons_between (opt_between (code_between _)) <| nil_between).mono (by decide) (by decide),
    (sweep_between).mono (by decide) (by decide),
    (cons_between (within_between _ _) <| cons_between (opt_between (code_between _)) <| cons_between (num_between _) <| nil_between).mono (by decide) (by decide)⟩

/-- Every refusal's body fits a message (R190). -/
theorem unstatedBody_length_le (code : Byte) (draw : Nat) : (unstatedBody code draw).length ≤ 1024 := by
  unfold unstatedBody
  split
  · rename_i p h
    exact (FreePart.formats_fit p (List.mem_of_find?_eq_some h) draw 0).2
  · simp

end Sys2Proof.Machine
end

