-- ==== Sys2Proof/Laws/Permits.lean ====
section
/-! SUPPORT. The permit rule in the words of R133, against the inputs that the machine reads. -/

namespace Sys2Proof.Machine

/-- The inputs of a slot's permit all hold exactly where the slot may radiate. -/
theorem Hub.permitInputs_all_iff (h : Hub) (n : Slot) : (h.permitInputs n).all = true ↔ h.MayRadiate n := by
  have inSpec : h.inSpec = true ↔
      h.timing.state = .locked ∨ h.timing.state = .holdover ∨ h.timing.state = .acquiring .locked := by
    unfold Hub.inSpec TimingState.inSpec
    rcases h.timing.state with _ | ⟨_ | _ | _⟩ | _ | _ | _ <;> simp
  have counts : h.alarmWithholds n = false ↔ ∀ x ∈ h.alarms.full.toList ++ h.alarms.recs,
      (x.key.source = none ∨ x.key.source = some n) → x.active = true →
        h.tables.kinds[x.key.kind.idx].action = .withdrawPermit → x.key.kind = .cardReported ∧ x.severity ≠ .critical := by
    unfold Hub.alarmWithholds Alarms.all
    rw [List.any_eq_false]
    refine forall₂_congr fun x _ => ?_
    unfold AlarmRec.counts actionApplies Hub.kindEntry
    simp only [Bool.and_eq_true, Bool.or_eq_true, beq_iff_eq, bne_iff_ne, ne_eq, not_and, not_or]
    tauto
  simp only [PermitInputs.all, Hub.permitInputs, Bool.and_eq_true, Bool.not_eq_true', beq_iff_eq, TimingRec.settled,
    decide_eq_true_eq, Hub.hasCap, inSpec, counts, Hub.MayRadiate]
  tauto

end Sys2Proof.Machine
end

