-- ==== Sys2Proof/Laws/Queues.lean ====
section
/-! SUPPORT. The queues that a change of a slot's state leaves alone: the agent inbox and the inbound requests, with the open count and the
pending reset. -/

namespace Sys2Proof.Machine

/-- `g` has the inbox, the inbound queue, the open count and the pending reset of `h`. -/
structure Hub.QueuesKept (h g : Hub) : Prop where
  inbox : g.agent.inbox = h.agent.inbox
  inbound : g.port.inbound = h.port.inbound
  openCount : g.port.openCount = h.port.openCount
  resetPending : g.port.resetPending = h.port.resetPending

theorem Hub.QueuesKept.trans {h g k : Hub} (a : Hub.QueuesKept h g) (b : Hub.QueuesKept g k) : Hub.QueuesKept h k :=
  ⟨b.inbox.trans a.inbox, b.inbound.trans a.inbound, b.openCount.trans a.openCount, b.resetPending.trans a.resetPending⟩

theorem Hub.QueuesKept.of_eq {h g : Hub} (ha : g.agent = h.agent) (hp : g.port = h.port) : Hub.QueuesKept h g :=
  ⟨by rw [ha], by rw [hp], by rw [hp], by rw [hp]⟩

theorem Hub.QueuesKept.refl (h : Hub) : Hub.QueuesKept h h := .of_eq rfl rfl

theorem Hub.HandsOn.queuesKept {h g : Hub} (ho : Hub.HandsOn h g) : Hub.QueuesKept h g :=
  ⟨ho.inbox, ho.inbound, ho.openCount, ho.resetPending⟩

theorem Hub.Quiet.queuesKept {h g : Hub} (q : Hub.Quiet h g) : Hub.QueuesKept h g :=
  ⟨q.inbox, q.inbound, q.openCount, q.resetPending⟩

theorem Hub.abort_queues (h : Hub) (n : Slot) : Hub.QueuesKept h (h.abort n) := by
  unfold Hub.abort; split <;> exact .of_eq rfl rfl

theorem Hub.purge_queues (h : Hub) (n : Slot) : Hub.QueuesKept h (h.purge n) := by
  rw [Hub.purge_frame]; exact .of_eq rfl rfl

theorem Hub.countErrored_queues (h : Hub) (n : Slot) : Hub.QueuesKept h (h.countErrored n) := by
  unfold Hub.countErrored
  simp only
  split
  · exact .of_eq rfl rfl
  · split
    · refine Hub.QueuesKept.trans ?_ (Hub.raise_quiet _ _).queuesKept
      exact .of_eq rfl rfl
    · exact .of_eq rfl rfl

theorem Hub.dropPartial_queues (h : Hub) (n : Slot) : Hub.QueuesKept h (h.dropPartial n) := by
  unfold Hub.dropPartial
  split
  · refine Hub.QueuesKept.trans ?_ (Hub.countErrored_queues _ n)
    exact .of_eq rfl rfl
  · exact .refl h

theorem Hub.disableLink_queues (h : Hub) (n : Slot) : Hub.QueuesKept h (h.disableLink n) := by
  unfold Hub.disableLink
  refine (h.abort_queues n).trans (Hub.QueuesKept.trans ?_ (Hub.dropPartial_queues _ n))
  exact .of_eq rfl rfl

theorem Hub.resetLink_queues (h : Hub) (n : Slot) : Hub.QueuesKept h (h.resetLink n) := by
  unfold Hub.resetLink
  refine (h.purge_queues n).trans ((Hub.abort_queues _ n).trans (Hub.QueuesKept.trans ?_ (Hub.dropPartial_queues _ n)))
  exact .of_eq rfl rfl

theorem Hub.powerDown_queues (h : Hub) (n : Slot) (state : SlotState) (f : SlotRec → SlotRec) :
    Hub.QueuesKept h (h.powerDown n state f) := by
  unfold Hub.powerDown
  refine (h.purge_queues n).trans (Hub.QueuesKept.trans ?_ (Hub.disableLink_queues _ n))
  exact .of_eq rfl rfl

theorem Hub.serve_queues (h : Hub) : Hub.QueuesKept h h.serve.1 := by
  rw [Hub.serve_frame]; exact .of_eq rfl rfl

theorem Hub.join_queues (h : Hub) (n : Slot) : Hub.QueuesKept h (h.join n) := by
  rw [Hub.join_frame]; exact .of_eq rfl rfl

/-- The slot in a state without power, the list served. -/
theorem Hub.powerDown_serve_queues (h : Hub) (n : Slot) (state : SlotState) (f : SlotRec → SlotRec) :
    Hub.QueuesKept h (h.powerDown n state f).serve.1 := (h.powerDown_queues n state f).trans (Hub.serve_queues _)

theorem Hub.enterOff_queues (h : Hub) (n : Slot) (reason : SlotReason) : Hub.QueuesKept h (h.enterOff n reason) := by
  unfold Hub.enterOff Hub.enterOffWith
  exact (h.powerDown_serve_queues n _ _).trans (Hub.HandsOn.queuesKept <| (Hub.raiseIf_handsOn _ _ _).trans <|
    (Hub.clearWait_handsOn _ _ _).trans <| (Hub.clear_handsOn _ _).trans <| (Hub.clearIf_handsOn _ _ _).trans <|
    (Hub.clearReported_handsOn _ _).trans <| (Hub.handOn_handsOn _ _ _ _).trans <| (Hub.slotNotice_handsOn _ _ _ _ _).trans <|
    Hub.announceGrants_handsOn _ _)

theorem Hub.enterFaulted_queues (h : Hub) (n : Slot) (fault : FaultReason) (reason : SlotReason) :
    Hub.QueuesKept h (h.enterFaulted n fault reason) := by
  unfold Hub.enterFaulted
  have m : ∀ k : Hub, Hub.QueuesKept k (k.modSlot n fun r => { r with limit := some (k.dueIn 2000) }) := fun k => .of_eq rfl rfl
  have base := (((h.powerDown_serve_queues n .faulted fun r => { r.unpower false with fault := some fault }).trans <|
    ((Hub.raise_handsOn _ (.slot n .slotFault)).trans <|
      Hub.clearIf_handsOn _ (h.slots[n].state == .recovering) (.slot n .linkLost)).queuesKept).trans <| m _).trans <|
    (Hub.HandsOn.queuesKept <| (Hub.clearReported_handsOn _ n).trans <|
      (Hub.handOn_handsOn _ n h.slots[n].state (h.links[n].state == .locked)).trans <|
      (Hub.slotNotice_handsOn _ n h.slots[n].state .faulted reason).trans <|
      Hub.announceGrants_handsOn _ (h.powerDown n .faulted fun r => { r.unpower false with fault := some fault }).serve.2)
  simp only
  split
  · exact base
  · exact base.trans (Hub.enterOff_queues _ _ _)

theorem Hub.enterEmpty_queues (h : Hub) (n : Slot) : Hub.QueuesKept h (h.enterEmpty n) := by
  unfold Hub.enterEmpty
  exact (h.powerDown_serve_queues n _ _).trans (Hub.HandsOn.queuesKept <|
    (Hub.clearWait_handsOn _ _ _).trans <| (Hub.clear_handsOn _ _).trans <| (Hub.clearIf_handsOn _ _ _).trans <|
    (Hub.clearIf_handsOn _ _ _).trans <| (Hub.raiseIf_handsOn _ _ _).trans <|
    (Hub.clearReported_handsOn _ _).trans <| (Hub.handOn_handsOn _ _ _ _).trans <| (Hub.slotNotice_handsOn _ _ _ _ _).trans <|
    Hub.announceGrants_handsOn _ _)

theorem Hub.seat_queues (h : Hub) (n : Slot) (joins : Bool) : Hub.QueuesKept h (h.seat n joins) := by
  unfold Hub.seat
  simp only
  split
  · refine Hub.QueuesKept.trans ?_ (Hub.join_queues _ n)
    exact .of_eq rfl rfl
  · exact .of_eq rfl rfl

theorem Hub.enterSeated_queues (h : Hub) (n : Slot) (joins : Bool) (reason : SlotReason) :
    Hub.QueuesKept h (h.enterSeated n joins reason) := by
  unfold Hub.enterSeated
  exact (h.seat_queues n joins).trans <| (Hub.serve_queues _).trans <| Hub.HandsOn.queuesKept <|
    (Hub.clearIf_handsOn _ _ _).trans <| (Hub.HandsOn.notice _ _ _).trans <| Hub.announceGrants_handsOn _ _

end Sys2Proof.Machine
end

