-- ==== Sys2Proof/Laws/Requests.lean ====
section
/-! SUPPORT. How a row takes its request or its frame, and what answering and refusing leave: the rows of the requests and of the agent
inbox are proved from these and never unfold the taking. -/

namespace Sys2Proof.Machine

variable {h g : Hub} {r : Request} {rest : List Request}

/-! ## Requests (R173, R176) -/

/-- A row takes the request at the head that is its own. -/
theorem Hub.Takes.take {code : Byte} (ht : h.Takes code r rest) (act : Request → Hub → Hub) :
    Hub.take code act h = act r (h.popRequest rest) := by
  obtain ⟨h1, h2, h3, h4, h5⟩ := ht
  simp [Hub.take, h1, h2, h3, h4, h5]

theorem Hub.TakesFor.take {code : Byte} {n : Slot} (ht : h.TakesFor code r rest n) (act : Request → Slot → Hub → Hub) :
    Hub.take code (fun r => Hub.withSlot r (act r)) h = act r n (h.popRequest rest) := by
  rw [ht.1.take]; simp [Hub.withSlot, ht.2]

/-- An answer leaves all but the port as the request found it. -/
theorem Hub.popRequest_answer (h : Hub) (r : Request) (rest : List Request) (status : Status) (body : Body) :
    (h.popRequest rest).answer r status body = { h with port := h.port.answered r rest status body } := rfl

theorem Hub.popRequest_refuse (h : Hub) (r : Request) (rest : List Request) (status : Status) :
    h.RefusedWith ((h.popRequest rest).refuse r status) r rest status (h.refusalBody r.code) := ⟨_, rfl⟩

/-- The body of a refused PORT_COUNTS: the free counts as they stand (R34). -/
@[simp] theorem Hub.refusalBody_portCounts (h : Hub) :
    h.refusalBody Code.portCounts = .portCountsRefused h.draws h.store.freeShared h.store.freeReserve := rfl

/-- The body of every other refusal whose own rule names no value (R176). -/
theorem Hub.refusalBody_unstated (h : Hub) {code : Byte} (hc : code ≠ Code.portCounts) :
    h.refusalBody code = .unstated code h.draws := if_neg hc

/-- What is answered after a change that leaves the inbound queue has left the queue and is the last message. -/
theorem Hub.answer_replied (g : Hub) (r : Request) (status : Status) (body : Body) (hi : g.port.inbound = rest) :
    (g.answer r status body).port.Replied r rest status body := by
  refine ⟨hi, { isReply := true, code := r.code, tag := r.tag, status, overrun := g.port.overrun, noticesLost := false, body }, ?_,
    rfl, rfl, rfl, rfl, rfl⟩
  simp [HostPort.reply]

/-! ## Numbers a request names -/

theorem Slot.ofNumber_val {v : Nat} {n : Slot} (h : v = n.val + 1) : Slot.ofNumber v = some n := by
  subst h; simp [Slot.ofNumber]

theorem Slot.ofNumber_none {v : Nat} (h : v < 1 ∨ 12 < v) : Slot.ofNumber v = none := by
  simp [Slot.ofNumber]; omega

theorem Slot.ofNumber_eq {v : Nat} {n : Slot} (h : Slot.ofNumber v = some n) : v = n.val + 1 := by
  simp only [Slot.ofNumber] at h
  split at h
  · cases h; simp; omega
  · cases h

theorem groupOf_val {v : Nat} {g : Fin 16} (h : v = g.val + 1) : groupOf v = some g := by
  subst h; simp [groupOf]

theorem groupOf_none {v : Nat} (h : v < 1 ∨ 16 < v) : groupOf v = none := by
  simp [groupOf]; omega

theorem Mask.ofValue_mask {v : Nat} {m : SlotMask} (h : v = m.toNat * 2) : Mask.ofValue v = some m := by
  have := m.isLt
  subst h; simp [Mask.ofValue]; omega

theorem Mask.ofValue_none {v : Nat} (h : v % 2 = 1 ∨ 8192 ≤ v) : Mask.ofValue v = none := by
  simp [Mask.ofValue]; omega

/-! ## The agent inbox (R157 to R159) -/

/-- A row takes the frame at the head that is its own and passes both judgments. -/
theorem Hub.dispatch_accepted {kind : BitVec 6} {e : InboxFrame} {rest : List InboxFrame} (act : InboxFrame → Hub → Hub)
    (he : h.agent.inbox = e :: rest) (hk : e.frame.kind = kind) (hf : h.formOk e.frame = true)
    (ha : h.accepts e.frame e.slot = true) : Hub.dispatch kind act h = act e (h.popInbox rest) := by
  have hf' : (h.popInbox rest).formOk e.frame = true := hf
  have ha' : (h.popInbox rest).accepts e.frame e.slot = true := ha
  simp [Hub.dispatch, he, hk, hf', ha']

theorem Hub.dispatch_badForm {kind : BitVec 6} {e : InboxFrame} {rest : List InboxFrame} (act : InboxFrame → Hub → Hub)
    (he : h.agent.inbox = e :: rest) (hk : e.frame.kind = kind) (hf : h.formOk e.frame = false) :
    Hub.dispatch kind act h = (h.popInbox rest).formDiscard e.slot := by
  have hf' : (h.popInbox rest).formOk e.frame = false := hf
  simp [Hub.dispatch, he, hk, hf']

theorem Hub.dispatch_refused {kind : BitVec 6} {e : InboxFrame} {rest : List InboxFrame} (act : InboxFrame → Hub → Hub)
    (he : h.agent.inbox = e :: rest) (hk : e.frame.kind = kind) (hf : h.formOk e.frame = true)
    (ha : h.accepts e.frame e.slot = false) : Hub.dispatch kind act h = (h.popInbox rest).stateDiscard e.slot := by
  have hf' : (h.popInbox rest).formOk e.frame = true := hf
  have ha' : (h.popInbox rest).accepts e.frame e.slot = false := ha
  simp [Hub.dispatch, he, hk, hf', ha']

end Sys2Proof.Machine
end

