-- ==== Sys2Proof/Laws/WindowResets.lean ====
section
/-! SUPPORT. The timing records when a slot leaves service or its link leaves LOCKED (R119, R129): a window reset empties the record's
window, and what follows a change of the timing state leaves all of a record but its permit. -/

namespace Sys2Proof.Machine

/-- Every timing record of `g` is that of `h`, but for the permit. -/
def Hub.TrecsKept (h g : Hub) : Prop := ∀ n : Slot, g.trecs[n] = { h.trecs[n] with granted := g.trecs[n].granted }

theorem Hub.TrecsKept.refl (h : Hub) : Hub.TrecsKept h h := fun _ => rfl

theorem Hub.TrecsKept.trans {h g k : Hub} (a : Hub.TrecsKept h g) (b : Hub.TrecsKept g k) : Hub.TrecsKept h k :=
  fun n => (b n).trans (by rw [a n])

theorem Hub.TrecsKept.of_eq {h g : Hub} (e : g.trecs = h.trecs) : Hub.TrecsKept h g := fun n => by simp only [e]

theorem Hub.Quiet.trecsKept {h g : Hub} (q : Hub.Quiet h g) : Hub.TrecsKept h g := q.trecs

theorem Hub.timingNotice_trecs (h : Hub) (old new : Timing) (reason : TimingReason) :
    (h.timingNotice old new reason).trecs = h.trecs := by
  unfold Hub.timingNotice; split <;> rfl

theorem Hub.followReference_trecs (h : Hub) (mayRaise : Bool) : Hub.TrecsKept h (h.followReference mayRaise) := by
  unfold Hub.followReference
  exact (Hub.TrecsKept.of_eq rfl).trans (Hub.follow_quiet _ _ _ _).trecsKept

theorem Hub.timingResults_trecs (h : Hub) (old : TimingState) (mayRaise : Bool) :
    Hub.TrecsKept h (h.timingResults old mayRaise) := by
  unfold Hub.timingResults
  have m := ((h.followReference_trecs mayRaise).trans
    (Hub.follow_quiet _ .holdoverActive (old == .holdover) (h.timing.state == .holdover)).trecsKept).trans
    (Hub.follow_quiet _ .holdoverLapsed old.lapsed h.timing.state.lapsed).trecsKept
  simp only
  split
  · exact m
  · exact m.trans ((Hub.judgePermits_quiet _ _).trecsKept.trans (Hub.judgeOutputs_quiet _).trecsKept)

theorem Hub.setTiming_trecs (h : Hub) (new : Timing) (reason : TimingReason) (mayRaise : Bool) :
    Hub.TrecsKept h (h.setTiming new reason mayRaise) := by
  unfold Hub.setTiming
  exact (Hub.TrecsKept.of_eq (Hub.timingNotice_trecs { h with timing := new } _ _ _)).trans (Hub.timingResults_trecs _ _ _)

theorem Hub.sourceLeft_trecs (h : Hub) (n : Slot) : Hub.TrecsKept h (h.sourceLeft n) := by
  unfold Hub.sourceLeft
  split
  · exact Hub.setTiming_trecs _ _ _ _
  · exact .refl h

/-- A window reset (R129): the record of the slot has it, and every other record stays, but for the permits. -/
theorem Hub.windowReset_trecs (h : Hub) (n : Slot) :
    Hub.TrecsKept (h.modTrec n TimingRec.resetWindow) (h.windowReset n) := by
  unfold Hub.windowReset
  exact (Hub.sourceLeft_trecs _ n).trans (Hub.judgePermit_quiet _ _ n).trecsKept

/-- A record after a window reset (R129, R102). -/
def TimingRec.IsReset (r : TimingRec) : Prop :=
  r.window = [] ∧ r.target = none ∧ r.applied = none ∧ r.probe = none ∧ r.report = none

theorem Hub.windowReset_isReset (h : Hub) (n : Slot) : (h.windowReset n).trecs[n].IsReset := by
  have e := h.windowReset_trecs n n
  rw [Hub.modTrec_self] at e
  unfold TimingRec.IsReset
  rw [e]
  exact ⟨rfl, rfl, rfl, rfl, rfl⟩

/-- A slot's leaving LOCKED handed on resets its window. -/
theorem Hub.handOn_isReset (h : Hub) (n : Slot) (old : SlotState) : (h.handOn n old true).trecs[n].IsReset := by
  unfold Hub.handOn
  exact Hub.windowReset_isReset _ n

/-- FENCED (R90). -/
theorem Hub.enterFenced_isReset (h : Hub) (n : Slot) (reason : SlotReason) : (h.enterFenced n reason).trecs[n].IsReset := by
  unfold Hub.enterFenced
  simp only [Hub.slotNotice, Hub.notice_trecs]
  exact Hub.handOn_isReset _ n _

/-- The report of a link lost (R4, R129). -/
theorem Hub.linkLeft_isReset (h : Hub) (n : Slot) (reason : SlotReason) : (h.linkLeft n reason).trecs[n].IsReset := by
  unfold Hub.linkLeft
  exact Hub.windowReset_isReset _ n

/-! ## A link that leaves LOCKED -/

/-- What counting an errored frame leaves of a link that is not LOCKED: all but its monitor (R7, R11). -/
theorem Hub.countErrored_link (h : Hub) (n : Slot) (hl : h.links[n].state ≠ .locked) :
    (h.countErrored n).links[n] = { h.links[n] with monitor := (h.countErrored n).links[n].monitor } := by
  unfold Hub.countErrored
  simp only
  split
  · rfl
  · split
    · set g := (h.count n fun c => { c with errored := c.errored + 1 }).modLink n fun l =>
        { l with monitor := { (h.count n fun c => { c with errored := c.errored + 1 }).links[n].monitor with
                                errored := (h.count n fun c => { c with errored := c.errored + 1 }).links[n].monitor.errored + 1,
                                reached := true } } with hg
      have hs : g.links[n] = { h.links[n] with monitor := g.links[n].monitor } := by
        rw [hg, Hub.modLink_self]; rfl
      have u := (Hub.raise_handsOn g (.slot n .linkErrors)).unsent n (by rw [hs]; exact hl)
      rw [u]; exact hs
    · rw [Hub.modLink_self]; rfl

/-- A link that leaves LOCKED, or is disabled, with what it was taking in gone (R2, R4, R5): the link is as `f` leaves it, and no slot
record, setting or time has changed. -/
theorem Hub.linkDropped (h : Hub) (n : Slot) (f : Link → Link) (hs : ∀ l, (f l).state ≠ .locked) :
    ((h.modLink n f).dropPartial n).links[n] =
        { f h.links[n] with rx := none, monitor := ((h.modLink n f).dropPartial n).links[n].monitor } ∧
      Hub.Counts h ((h.modLink n f).dropPartial n) n := by
  unfold Hub.dropPartial
  split
  · next hr =>
    set g := (h.modLink n f).modLink n fun l => { l with rx := none } with hg
    have gl : g.links[n] = { f h.links[n] with rx := none } := by rw [hg, Hub.modLink_self, Hub.modLink_self]
    have e := g.countErrored_link n (by rw [gl]; exact hs _)
    have c := g.countErrored_counts n
    refine ⟨by rw [e, gl], ⟨c.slots, c.clock, c.tables, c.config, c.waitList, c.timing⟩⟩
  · next hr =>
    rw [Hub.modLink_self] at hr ⊢
    refine ⟨?_, by constructor <;> rfl⟩
    rw [Option.not_isSome_iff_eq_none] at hr
    rw [← hr]

theorem Hub.Counts.trans {h g k : Hub} {n : Slot} (a : Hub.Counts h g n) (b : Hub.Counts g k n) : Hub.Counts h k n :=
  ⟨b.slots.trans a.slots, b.clock.trans a.clock, b.tables.trans a.tables, b.config.trans a.config, b.waitList.trans a.waitList,
    b.timing.trans a.timing⟩

theorem Hub.abort_counts (h : Hub) (n : Slot) : Hub.Counts h (h.abort n) n := by
  rw [Hub.abort_frame]; constructor <;> rfl

theorem Hub.purge_counts (h : Hub) (n : Slot) : Hub.Counts h (h.purge n) n := by
  rw [Hub.purge_frame]; constructor <;> rfl

/-- A link that loses alignment, up to the report of it (R4). -/
theorem Hub.loseAlignment_link (h : Hub) (n : Slot) :
    ∃ k : Hub, h.loseAlignment n = k.linkLeft n .linkLost ∧ Hub.Counts h k n ∧
      k.links[n].state = .training ∧ k.links[n].helloCount = 0 ∧ k.links[n].tx = none ∧ k.links[n].rx = none ∧
      Hub.QueuesKept h k := by
  obtain ⟨e, c⟩ := (h.abort n).linkDropped n (fun l => { l with state := .training, helloCount := 0 }) (fun _ => by simp)
  refine ⟨_, rfl, (h.abort_counts n).trans c, by rw [e], by rw [e], by rw [e]; exact h.abort_tx n, by rw [e], ?_⟩
  · refine (h.abort_queues n).trans (Hub.QueuesKept.trans ?_ (Hub.dropPartial_queues _ n))
    exact .of_eq rfl rfl

/-- A link reset, up to the report of a link that was LOCKED (R5). -/
theorem Hub.resetLink_link (h : Hub) (n : Slot) :
    Hub.Counts h (h.resetLink n) n ∧ (h.resetLink n).links[n].state = .disabled ∧ (h.resetLink n).links[n].tx = none ∧
      (h.resetLink n).links[n].rx = none ∧ (h.resetLink n).links[n].hold = some { due := h.dueIn 1, thenTrain := true } := by
  obtain ⟨e, c⟩ := ((h.purge n).abort n).linkDropped n
    (fun l => { l with state := .disabled, helloCount := 0, hold := some { due := h.dueIn 1, thenTrain := true } })
    (fun _ => by simp)
  have cs := ((h.purge_counts n).trans (Hub.abort_counts _ n)).trans c
  refine ⟨cs, ?_⟩
  show ((((h.purge n).abort n).modLink n _).dropPartial n).links[n].state = _ ∧
    ((((h.purge n).abort n).modLink n _).dropPartial n).links[n].tx = _ ∧
    ((((h.purge n).abort n).modLink n _).dropPartial n).links[n].rx = _ ∧
    ((((h.purge n).abort n).modLink n _).dropPartial n).links[n].hold = _
  rw [e]
  exact ⟨rfl, Hub.abort_tx _ n, rfl, rfl⟩

end Sys2Proof.Machine
end

