-- ==== Sys2Proof/WellFormed.lean ====
section
/-! DEFINITION. Which commands a sender can send: the operands whose type is wider than what the world outside the
hub can deliver. The meanings are total: they give an ill-formed command a next state too. -/

namespace Sys2Proof

/-- The bytes that a save writes (R186): two of the complemented CRC, then the 821 of the image. -/
abbrev saveWrites : Nat := 823

/-- A command whose operands lie within what its event can carry. -/
def Instr.wellFormed : Instr → Bool
  -- a write cut off cannot have written more than the stages hold (R186, R187)
  | .powerOnReset _ written => written ≤ saveWrites
  | .configSaveWriteEnd (.noAck writes) => writes ≤ saveWrites
  -- a read-back that differs differs somewhere, and each byte once (R186)
  | .configSaveWriteEnd (.mismatch flips) => !flips.isEmpty && decide (flips.map (·.1)).Nodup
  -- a command without a byte of a frame brings nothing of it (R6)
  | .frameReceived _ _ bytes whole => whole || !bytes.isEmpty
  | _ => true

end Sys2Proof
end

