-- ==== Sys2Proof/Tests/Slice0.lean ====
section
/-! SUPPORT. Tests on small states: the ill-formed commands, the burst of section 2.8 of the spec frame by frame, one step for each
family of commands with the result the cited rule gives, and for each obligation with hypotheses a state that meets them. -/

namespace Sys2Proof.Tests

open Sys2Proof Sys2Proof.Machine

set_option maxRecDepth 20000

/-! ## Helpers -/

/-- The hub after reset with its load over, all settings at their defaults. -/
def started : Hub := { config := { loading := false } }

def machine (h : Hub) : State := { hub := h }

/-- The hub after one command. -/
def after (c : Instr) (h : Hub) : Hub := match exec c (machine h) with | .next t => t.hub | _ => h

def slotIs (n : Slot) (r : SlotRec) (h : Hub) : Hub := { h with slots := h.slots.set n r }
def linkIs (n : Slot) (l : Link) (h : Hub) : Hub := { h with links := h.links.set n l }
def portIs (n : Slot) (p : Port) (h : Hub) : Hub := { h with ports := h.ports.set n p }
def recordIs (n : Slot) (r : TimingRec) (h : Hub) : Hub := { h with trecs := h.trecs.set n r }
def timingIs (t : Timing) (h : Hub) : Hub := { h with timing := t }
def clockIs (c : Clock) (h : Hub) : Hub := { h with clock := c }

/-- A request of a code and a body, with tag 7. -/
def request (code : Byte) (body : List Byte) : Request := { kind := 1, code, tag := 7, flags := 0, body }

/-- The hub with that request waiting alone. -/
def asked (code : Byte) (body : List Byte) (h : Hub) : Hub :=
  { h with port := { h.port with inbound := [request code body], openCount := 1 } }

/-- The hub with a frame of a kind in the inbox, from slot `n`. -/
def told (n : Slot) (cls : TrafficClass) (kind : BitVec 6) (sequence : Byte) (payload : List Byte) (arrival : Option Arrival) : InboxFrame :=
  { frame := { cls, kind, source := BitVec.ofNat 8 (Slot.number n), flags := 0, sequence, dest := 0xFFFFF000, tag := 0, payload },
    slot := n, arrival }

def inbox (e : InboxFrame) (h : Hub) : Hub := { h with agent := { h.agent with inbox := [e] } }

/-- The status and the body of the last message queued. -/
def lastReply (h : Hub) : Option (Status × Body) := h.port.outbound.getLast?.map fun m => (m.status, m.body)

/-! ## Ill-formed commands (R6, R186, R187) -/

theorem test_wellFormed_refuses_a_cut_past_the_save : (Instr.powerOnReset true 824).wellFormed = false := by decide
theorem test_wellFormed_refuses_a_noAck_past_the_save : (Instr.configSaveWriteEnd (.noAck 824)).wellFormed = false := by decide
theorem test_wellFormed_refuses_a_mismatch_nowhere : (Instr.configSaveWriteEnd (.mismatch [])).wellFormed = false := by decide
theorem test_wellFormed_refuses_a_mismatch_twice_at_a_byte :
    (Instr.configSaveWriteEnd (.mismatch [(7, 0), (7, 1)])).wellFormed = false := by decide
theorem test_wellFormed_refuses_a_part_without_bytes : (Instr.frameReceived 0 0 [] false).wellFormed = false := by decide
theorem test_wellFormed_takes_the_rest : (Instr.powerOnReset true 823).wellFormed = true ∧ (Instr.frameReceived 0 9 [] true).wellFormed = true ∧
    (Instr.configSaveWriteEnd (.mismatch [(7, 0), (8, 0)])).wellFormed = true ∧ Instr.configSave.wellFormed = true := by decide

/-! ## The burst of section 2.8

Slots 1, 2, 4, 5 and 9 FORWARDING; 3 DRAINING and quiesced; 6 RECOVERING; 8 FENCED; 12 OFF. -/

def group3 : SlotMask := Mask.ofTest fun n => n == 1 || n == 3 || n == 5 || n == 7

def burst : Hub :=
  let serving : SlotRec := { state := .forwarding }
  let h : Hub := { started with tables := { started.tables with
    windows := ((started.tables.windows.set 0
      { enabled := true, base := 0x40000000, sizeExp := 20, target := .group 2, classes := ⟨false, true⟩,
        sources := Mask.ofTest fun n => n.val < 3 }).set 1
      { enabled := true, base := 0x40000000, sizeExp := 24, target := .slot 8, remap := some 0x08000000 }).set 2
      { enabled := true, base := 0x40080000, sizeExp := 16, target := .slot 4, classes := ⟨true, false⟩ }
    groups := started.tables.groups.set 2 group3
    defaultTarget := some (.slot 11) } }
  slotIs 11 { state := .off } <| slotIs 7 { state := .fenced } <| slotIs 5 { state := .recovering } <|
    slotIs 2 { state := .draining, quiesced := true } <| slotIs 8 serving <| slotIs 4 serving <| slotIs 3 serving <|
    slotIs 1 serving <| slotIs 0 serving h

/-- A frame of the burst, handed on by its slot's link and then classified. -/
def classified (n : Slot) (cls : TrafficClass) (kind : BitVec 6) (dest : BitVec 32) (h : Hub) : Hub :=
  let f : Frame := { cls, kind, source := BitVec.ofNat 8 (Slot.number n), flags := 0, sequence := 0, dest, tag := 0, payload := [] }
  after (.frameClassification n) (portIs n { h.ports[n] with handedOn := [{ frame := f, arrival := none }] } h)

def offered (n : Slot) (p : Port → List PendingFrame) (h : Hub) : List (SlotMask × BitVec 32) :=
  (p h.ports[n]).map fun x => (x.targets, x.frame.dest)

theorem test_burst_a : offered 1 (·.pendBulk) (classified 1 .bulk 0 0x40012340 burst) =
    [(Mask.ofTest fun n => n == 3 || n == 5 || n == 7, 0x40012340)] := by decide
theorem test_burst_b : offered 4 (·.pendBulk) (classified 4 .bulk 0 0x40012340 burst) = [(Mask.single 8, 0x08012340)] := by decide
theorem test_burst_c : offered 0 (·.pendControl) (classified 0 .control 0 0x40081000 burst) = [(Mask.single 8, 0x08081000)] := by decide
theorem test_burst_d : offered 8 (·.pendControl) (classified 8 .control 0 0x7F000000 burst) = [(Mask.single 11, 0x7F000000)] ∧
    (after .arbiterService (classified 8 .control 0 0x7F000000 burst)).ports[(11 : Slot)].counters.unreachable = 1 := by decide
theorem test_burst_e : (classified 2 .bulk 0 0x40012340 burst).ports[(2 : Slot)].counters.sourceNotInService = 1 := by decide
theorem test_burst_f : (classified 7 .control Kind.cardAlarm 0xFFFFF100 burst).agent.inbox.length = 1 := by decide
theorem test_burst_g : (classified 7 .bulk 0 0x40000000 burst).ports[(7 : Slot)].counters.sourceNotInService = 1 := by decide
theorem test_burst_h : (offered 0 (·.pendBulk) (classified 0 .bulk 0 0x40012340 burst)).map (·.1) = [group3] := by decide

/-- Frame a at the arbiter: entered at the ports of slots 4 and 6, and not at that of slot 8. -/
theorem test_burst_a_admitted : let h := after .arbiterService (classified 1 .bulk 0 0x40012340 burst)
    [h.ports[(3 : Slot)].bulkQ.length, h.ports[(5 : Slot)].bulkQ.length, h.ports[(7 : Slot)].bulkQ.length] = [1, 1, 0] ∧
      h.store.sharedUsed = 1 := by decide

/-- With the default target NONE, frame d is unroutable at port 9 and UNROUTABLE is raised against slot 9. -/
theorem test_burst_d_again :
    let h := classified 8 .control 0 0x7F000000 (after .defaultTargetSet (asked Code.defaultTargetSet [1, 0] burst))
    h.ports[(8 : Slot)].counters.unroutable = 1 ∧ h.isActive (.slot 8 .unroutable) = true := by decide

/-- Window 2 lies wholly inside window 1, so its claim masks are empty; those of window 1 are every slot. -/
theorem test_burst_claims :
    (lastReply (after .windowGet (asked Code.windowGet [2] burst))).map (·.2) = some (.windowGet burst.tables.windows[2] 0 0) ∧
      (lastReply (after .windowGet (asked Code.windowGet [1] burst))).map (·.2) =
        some (.windowGet burst.tables.windows[1] (BitVec.allOnes 12) (BitVec.allOnes 12)) := by decide

/-! ## Single results, from the rules cited -/

/-- The check values of the two CRCs over the digits 1 to 9, for the polynomials, starts and ends of section 12.2 and R191 (PRESUMED:
the published check values of these two CRCs). -/
theorem test_crc_check_values :
    crc32 [0x31, 0x32, 0x33, 0x34, 0x35, 0x36, 0x37, 0x38, 0x39] = 0xFC891918#32 ∧
      crc16 [0x31, 0x32, 0x33, 0x34, 0x35, 0x36, 0x37, 0x38, 0x39] = 0x29B1#16 := by decide

/-- The example of R109: a report of 86,400 s arriving 1,210 ns late over a compensation of 740 half-ns. -/
theorem test_slot_offset_example : slotOffset 86400 (86400 * nsPerSec + 1210) 740 = -840 := by decide

/-- An EXT pulse late in its second makes the offset positive (R108). -/
theorem test_ext_offset : extOffset 499999999 = -499999999 ∧ extOffset 500000000 = 500000000 ∧ extOffset (-1) = 1 := by decide

/-- The discard counters of HUB_STATUS go slot by slot, behind 48 bytes of other fields (R178; log entry 62). -/
theorem test_hub_status_discards :
    ((encHubStatus { started with agent := { formDiscards := (Vector.replicate 12 0).set 1 5,
                                             stateDiscards := (Vector.replicate 12 0).set 1 7 } }.statusBody).drop 56).take 8 =
      [0, 0, 0, 5, 0, 0, 0, 7] := by decide

/-- The first applied compensation steps, and later ones slew by at most S (R128). -/
theorem test_slew : slewComp none 740 8 = 740 ∧ slewComp (some 700) 740 8 = 708 ∧ slewComp (some 745) 740 8 = 740 := by decide

/-- The nanosecond counts wrap at 2^32 between t1 and t4 (R126). -/
theorem test_round_trip_wraps : roundTrip ⟨4, 294967290⟩ ⟨4, 294968096⟩ 400 = 406 := by decide

/-- A full table makes room at its oldest CLEARED and acknowledged record, else at its oldest CLEARED one (R141). -/
theorem test_eviction :
    let r (active acked : Bool) : AlarmRec :=
      { key := .slot 0 .linkLost, severity := .major, reported := none, active, acked, firstRaised := {}, lastChange := {}, occurrences := 1 }
    evictIdx [r true true, r false false, r false true] = some 2 ∧ evictIdx [r true true, r false false] = some 1 ∧
      evictIdx [r true false] = none := by decide

/-- The image of the defaults is 819 bytes and its CRC, 821 in all (R191), and a blank EEPROM has no tag (R183). -/
theorem test_image_length : (imageBody {}).length + (imageCrc {}).length = 821 ∧ judgeImage [] = .inl .badTag := by decide

/-- The list is served in strict order: a class A slot behind a class D slot that does not fit waits (R63). -/
theorem test_strict_order :
    let waits (cls : PowerClass) : SlotRec := { state := .seated, presence := true, powerClass := some cls, waitStart := some {} }
    let h : Hub := slotIs 1 (waits .a) <| slotIs 0 (waits .d)
      { started with manager := { waitList := [0, 1] }, tables := { started.tables with budget := 100 } }
    h.serve.1.manager.waitList = [0, 1] ∧ h.serve.1.committed = 0 := by decide

/-- A card found at start-up with its latch closed, on a slot the plan expects, is powered at once (R59, R62, R63). -/
theorem test_start_up_powers_a_card :
    let h := after (.rawInputChange 3 (.latch true)) (after (.rawInputChange 3 (.present true)) State.reset.hub)
    (after .startUpEvent (after (.loadComplete true) h)).slots[(3 : Slot)].state = .powering := by decide

/-- A clamped request is answered CLAMPED with what was applied (R77, R176): the budget to 2,000 W, the window and the timeout up to
their least. -/
theorem test_budget_is_clamped :
    lastReply (after .budgetSet (asked Code.budgetSet [0xFF, 0xFF, 0, 0, 0, 0] started)) = some (.clamped, .budget 2000 0 [] 50 100) := by
  decide

/-- A wrong length is answered BAD_LENGTH, a code that names no request UNKNOWN_REQUEST (R173). -/
theorem test_refusals :
    (lastReply (after .slotQuery (asked Code.slotQuery [] started))).map (·.1) = some .badLength ∧
      (lastReply (after .unknownRequest (asked 0xFF [] started))).map (·.1) = some .unknownRequest := by decide

/-- The first frame boundary after reset is at 10 ms, and the clock that carries 1 ns too few at −1,000 ns a second runs slow (R98, R110). -/
theorem test_clock : (after .frameBoundary started).clock.now = ⟨0, 10000000⟩ ∧
    ({ } : Clock).run (-1000) 1 = { carry := 999999000 } := by decide

/-- A command that takes 30 ms of the oscillator from 985 ms on passes three frame boundaries and a second boundary (R98). -/
theorem test_boundaries_passed : (({ now := ⟨0, 985000000⟩ } : Clock).run 0 30000000).due =
    [⟨.frame, ⟨0, 990000000⟩⟩, ⟨.frame, ⟨1, 0⟩⟩, ⟨.second, ⟨1, 0⟩⟩, ⟨.frame, ⟨1, 10000000⟩⟩] := by decide

/-- An empty outbound queue drives six bytes of 0 (R175), and a well-sized write of a request opens it (R172). -/
theorem test_transfers : (after (.readTransfer false Code.readType false 9) started).port.driven = [0, 0, 0, 0, 0, 0] ∧
    (after (.writeTransfer false [Code.writeType, 1, Code.hubInfo, 7, 0, 0, 0]) started).port.inbound = [request Code.hubInfo []] := by
  decide

/-! ## A state that meets every promise: slot 1 in service with a granted permit, slot 2 waiting for power, a stored frame, an alarm, a
sweep in flight, a reply queued and a request waiting -/

def card : Identity :=
  { kind := .radio, code := 1, revision := 1, declared := .a, caps := ⟨true, true, true⟩, serial := [] }

def inService : SlotRec :=
  { state := .forwarding, presence := true, latchClosed := true, rawPresent := true, rawLatch := true, powerClass := some .a,
    identity := some card, pwrGood := true, pwrEn := true, cardRst := false }

def waitsForPower : SlotRec :=
  { state := .seated, presence := true, latchClosed := true, rawPresent := true, rawLatch := true, powerClass := some .d,
    waitStart := some {}, joined := some 0 }

def powerWait : AlarmRec :=
  { key := .slot 1 .powerWait, severity := .warning, reported := none, active := true, acked := false, firstRaised := {}, lastChange := {},
    occurrences := 1 }

def locked : Timing :=
  { state := .locked, cands := [{ source := .ext, status := .qualified, count := 10 }], selection := some .ext }

def busy : Hub :=
  let quiesce : StoredFrame := { id := 0, frame := agentFrame .control Kind.quiesce 0 0 0 [], blocks := 1, refs := 1, fromAgent := true }
  let h : Hub := { started with
    tables := { started.tables with budget := 100 }
    manager := { waitList := [1] }
    store := { frames := [quiesce], reserveUsed := 1, nextId := 1 }
    timing := locked
    alarms := { recs := [powerWait] }
    agent := { inbox := [told 0 .control Kind.cardAlarm 0 [0, 1, 1, 1] none]
               sweep := { inFlight := true, requested := Mask.single 0, pending := Mask.single 0 } }
    port := ({ inbound := [request Code.hubInfo []], openCount := 3 } : HostPort).reply 1 Code.hubStatus .ok .empty }
  recordIs 0 { window := [100, 101, 102, 103], granted := true } <| portIs 0 { controlQ := [0] } <|
    linkIs 0 { state := .locked } <| slotIs 1 waitsForPower <| slotIs 0 inService h

theorem witness_RecordsStayLegal : (∃ t, step (machine busy) = .next t) ∧ Memory.wf (machine busy).eeprom = true ∧ busy.clock.now.Legal ∧
    (∀ n : Slot, busy.links[n].Legal) ∧ (∀ n : Slot, busy.ports[n].Legal) ∧ ∀ n : Slot, busy.trecs[n].Legal :=
  ⟨⟨_, rfl⟩, by decide, by decide, by decide, by decide, by decide⟩
theorem witness_OutputsStayLegal : (∃ t, step (machine busy) = .next t) ∧ busy.WaitListLegal ∧ busy.OutputsLegal :=
  ⟨⟨_, rfl⟩, by decide, by decide⟩
theorem witness_WaitListStaysLegal : (∃ t, step (machine busy) = .next t) ∧ busy.WaitListLegal := ⟨⟨_, rfl⟩, by decide⟩
theorem witness_PowerStaysWithinBudget : (∃ t, step (machine busy) = .next t) ∧ busy.StartUpLegal ∧ busy.WithinBudget :=
  ⟨⟨_, rfl⟩, by decide, by decide⟩
theorem witness_StoreStaysLegal : (∃ t, step (machine busy) = .next t) ∧ busy.store.Legal ∧ busy.StartUpLegal ∧ busy.EntriesLegal ∧
    busy.references = [0] := ⟨⟨_, rfl⟩, by decide, by decide, by decide, by decide⟩
theorem witness_AlarmTableStaysLegal : (∃ t, step (machine busy) = .next t) ∧ busy.alarms.Legal ∧ busy.WaitListLegal ∧ busy.StartUpLegal ∧
    busy.LampsLegal := ⟨⟨_, rfl⟩, by decide, by decide, by decide, by decide⟩
theorem witness_SelectionStaysLegal :
    (∃ t, step (machine busy) = .next t) ∧ busy.StartUpLegal ∧ busy.timing.ListLegal ∧ busy.timing.SelectionLegal :=
  ⟨⟨_, rfl⟩, by decide, by decide, by decide⟩
theorem default_windows : ∀ i : Fin 32, ({} : Tables).windows[i] = ({} : Window) := by intro i; simp

/-- The built-in defaults are legal (section 11.1), with any budget within its range. -/
theorem defaults_legal : ({} : Tables).Legal := by
  refine ⟨by decide, by decide, by decide, by decide, fun i => ?_, by decide, by decide, by decide, by decide⟩
  rw [default_windows i]
  exact ⟨by decide, by decide, by simp, by simp, by decide⟩

theorem defaults_legal_at (budget : Nat) (hb : 100 ≤ budget ∧ budget ≤ 2000) : { ({} : Tables) with budget }.Legal :=
  ⟨defaults_legal.1, hb, defaults_legal.2.2⟩

theorem witness_SettingsStayLegal : (∃ t, step (machine busy) = .next t) ∧ busy.tables.Legal :=
  ⟨⟨_, rfl⟩, defaults_legal_at 100 (by decide)⟩
theorem witness_QueuesStayLegal : (∃ t, step (machine busy) = .next t) ∧ busy.RequestsLegal ∧ busy.QueuesLegal :=
  ⟨⟨_, rfl⟩, by decide, by decide⟩
theorem witness_SweepStaysLegal : (∃ t, step (machine busy) = .next t) ∧ busy.agent.sweep.Legal := ⟨⟨_, rfl⟩, by decide⟩
theorem witness_StartUpStaysLegal : (∃ t, step (machine busy) = .next t) ∧ busy.WaitListLegal ∧ busy.StartUpLegal :=
  ⟨⟨_, rfl⟩, by decide, by decide⟩
theorem witness_PermitsStayLegal :
    (∃ t, step (machine busy) = .next t) ∧ busy.WaitListLegal ∧ busy.StartUpLegal ∧ busy.PermitsLegal :=
  ⟨⟨_, rfl⟩, by decide, by decide, by decide⟩

/-- In `busy` the one permit GRANTED is the one of the slot whose inputs hold. -/
theorem witness_PermitsStayLegal_both_ways :
    busy.alarms.Legal ∧ (∀ n : Slot, busy.trecs[n].granted = true ↔ busy.MayRadiate n) ∧ busy.trecs[(0 : Slot)].granted = true :=
  ⟨by decide, fun n => (show _ ↔ (busy.permitInputs n).all = true by revert n; decide).trans (busy.permitInputs_all_iff n), by decide⟩

/-! ## States that meet the hypotheses of the other statements, clause by clause -/

theorem witness_StepRunsTheFrontCommand : ({ machine started with pending := [.hubInfo] } : State).pending = [.hubInfo] := rfl

theorem witness_Idle : (machine State.reset.hub).hub.ownEvent = some (.loadComplete true) ∧
    (let h := clockIs { now := ⟨2 ^ 48 - 2, 999999998⟩, carry := 999999999 } (timingIs { correction := 1000 } started)
     h.ownEvent = none ∧ h.clock.now.Legal ∧ h.clock.now.sec + 1 < 2 ^ 48 ∧ h.clock.carry < nsPerSec ∧ h.timing.correction ≤ 1000) ∧
    (let h := timingIs { correction := -1000 } started
     h.ownEvent = none ∧ h.clock.now.Legal ∧ -1000 ≤ h.timing.correction) := by decide

theorem witness_EveryCommandCompletes : Memory.wf [] = true ∧ imageLength ≤ 821 ∧ 821 ≠ crcOffset [] ∧ 821 ≠ crcOffset [] + 1 := by decide

theorem witness_SettingsChange : (∃ t, exec .hubInfo (machine (asked Code.hubInfo [] started)) = .next t) ∧ Instr.hubInfo ≠ .groupSet ∧
    Instr.hubInfo ≠ .loadComplete true ∧ Instr.hubInfo ≠ .powerOnReset true 0 ∧ Instr.hubInfo ≠ .readTransfer false 1 false 9 :=
  ⟨⟨_, rfl⟩, by decide, by decide, by decide, by decide⟩

/-- The reply of an accepted HUB_RESET, and the hub in which it waits to be read. -/
def resetReply : Message :=
  { isReply := true, code := Code.hubReset, tag := 7, status := .ok, overrun := false, noticesLost := false, body := .empty }

theorem witness_PowerOnAndHubReset :
    (∃ code, (code, Instr.slotQuery) ∈ requestRows) ∧
    ({ started with config := { save := some { snapshot := {}, tag := 7, replyDue := true } } } : Hub).config.save =
      some { snapshot := {}, tag := 7, replyDue := true } ∧
    (let h := asked Code.hubReset [] started
     h.Takes Code.hubReset (request Code.hubReset []) [] ∧ h.config.save = none) ∧
    (let h : Hub := { started with port := { outbound := [resetReply], openCount := 1, resetPending := true } }
     h.port.outbound = [resetReply] ∧ h.port.resetPending = true ∧ resetReply.isReply = true ∧ resetReply.code = Code.hubReset ∧
       resetReply.status = .ok ∧ resetReply.encode.length ≤ 6) :=
  ⟨⟨Code.slotQuery, by decide⟩, by decide⟩

/-- A cell for each byte of a text, from an offset on. -/
def cells : Nat → List Byte → List Host.Cell
  | _, [] => []
  | a, b :: rest => (a, b) :: cells (a + 1) rest

theorem bytes_skip (a : Nat) (b : Byte) (m : List Host.Cell) (k off : Nat) (h : a < off) :
    Memory.bytes ((a, b) :: m) off k = Memory.bytes m off k := by
  induction k generalizing off with
  | zero => rfl
  | succ k ih => simp only [Memory.bytes, Memory.read, if_neg (by omega : ¬ a = off)]; rw [ih (off + 1) (by omega)]

theorem bytes_cells (bs : List Byte) (a k : Nat) (hk : k ≤ bs.length) : Memory.bytes (cells a bs) a k = bs.take k := by
  induction bs generalizing a k with
  | nil => simp at hk; subst hk; rfl
  | cons b rest ih =>
    cases k with
    | zero => rfl
    | succ k =>
      simp only [cells, Memory.bytes, Memory.read, if_true, List.take_succ_cons]
      rw [bytes_skip _ _ _ _ _ (by omega), ih (a + 1) k (by simpa using hk)]

theorem wf_cells (bs : List Byte) (a : Nat) (h : bs.all (· != blankByte) = true) (ha : a + bs.length ≤ eepromSize) :
    Memory.wfFrom a (cells a bs) = true := by
  induction bs generalizing a with
  | nil => rfl
  | cons b rest ih =>
    simp only [List.all_cons, Bool.and_eq_true, List.length_cons] at h ha
    simp only [cells, Memory.wfFrom, ih (a + 1) h.2 (by omega), Bool.and_true, le_refl, decide_true, Bool.true_and, h.1]
    simp; omega

/-- Settings with four sources, and an EEPROM that holds their image. -/
def fourSources : Settings := { sources := [.ext, .slot 0, .slot 5, .slot 11] }

/-- The image of the defaults and the sources given. -/
def image (v : Settings) : List Byte := imageBody v ++ imageCrc v

theorem image_length : (image {}).length = imageLength ∧ (image fourSources).length = imageLength := by decide

theorem witness_ImageIsReadBack : fourSources.tables.Legal ∧ fourSources.sources.length ≤ 4 ∧ fourSources.sources.Nodup ∧
    Memory.bytes (cells 0 (image fourSources)) 0 imageLength = imageBody fourSources ++ imageCrc fourSources := by
  refine ⟨defaults_legal, by decide, by decide, ?_⟩
  rw [bytes_cells _ _ _ (by rw [image_length.2])]
  exact List.take_of_length_le (by rw [image_length.2])

theorem image_parses : (parseSections (image {})).isSome = true := by decide +kernel
theorem image_not_blank : (image {}).all (· != blankByte) = true := by decide +kernel

/-- An EEPROM that holds the image of the defaults is judged valid. -/
theorem witness_CutOffSaveIsFound : Memory.wf (cells 0 (image {})) = true ∧ (∃ v, judgeImage (cells 0 (image {})) = .inr v) ∧
    fourSources.tables.Legal ∧ fourSources.sources.length ≤ 4 ∧ fourSources.sources.Nodup := by
  refine ⟨wf_cells _ 0 image_not_blank (by rw [image_length.1]; decide), ?_, defaults_legal, by decide, by decide⟩
  obtain ⟨v, hv⟩ := Option.isSome_iff_exists.mp image_parses
  have h8 : Memory.bytes (cells 0 (image {})) 0 8 = (image {}).take 8 := bytes_cells _ _ _ (by rw [image_length.1]; decide)
  have hl : Memory.bytes (cells 0 (image {})) 0 821 = image {} := by
    rw [bytes_cells _ _ _ (by rw [image_length.1])]; exact List.take_of_length_le (by rw [image_length.1])
  have hlen : fieldAt ((image {}).take 8) 6 2 = 821 := by decide
  have hbody : (imageBody {}).length = 819 := by decide
  have hcrc : fieldAt (image {}) 819 2 = (crc16 ((image {}).take 819)).toNat := by
    have e : (image {}).take 819 = imageBody {} := by
      rw [image, ← hbody]; exact List.take_left
    have f := fieldAt_be (imageBody {}) [] 819 2 (crc16 (imageBody {})).toNat hbody
    rw [List.append_nil] at f
    rw [e, image, imageCrc, f]
    exact Nat.mod_eq_of_lt (crc16 (imageBody {})).isLt
  refine ⟨v, ?_⟩
  unfold judgeImage
  simp only [h8, hlen, hl]
  rw [if_neg (by decide), if_neg (by decide), if_neg (by decide), if_neg (by rw [hcrc]; simp), hv]

theorem witness_LoadComplete : started.config.loading = false ∧
    (State.reset.hub.config.loading = true ∧ State.reset.hub.config.strap = false ∧ State.reset.hub.port.notices < 24) ∧
    (let h := (after (.powerOnReset true 0) State.reset.hub)
     h.config.loading = true ∧ h.config.strap = true ∧ judgeImage [] = .inl .badTag ∧ h.AlarmRoom) := by decide

/-- Three cards seated during the load: the latch of slot 4 closed, that of slot 5 open, and slot 6 not expected. -/
def loaded : Hub :=
  let seats (n : Slot) (latch : Bool) (h : Hub) := after (.rawInputChange n (.latch latch)) (after (.rawInputChange n (.present true)) h)
  let h := after (.loadComplete true) (seats 5 true (seats 4 false (seats 3 true State.reset.hub)))
  { h with tables := { h.tables with plan := h.tables.plan.set 5 { expected := false } } }

theorem witness_StartUpEvent : loaded.manager.startUpDue.isSome = true ∧ loaded.manager.waitList = [] ∧
    (let found (n : Slot) : Bool := loaded.slots[n].presenceTimer.any (·.startUp) && loaded.slots[n].rawPresent
     let joins (n : Slot) : Bool := found n && loaded.tables.plan[n].expected && loaded.slots[n].startUp.latchClosed
     found 0 = false ∧ joins 3 = true ∧ found 4 = true ∧ joins 4 = false ∧ found 5 = true ∧ joins 5 = false) := by decide

theorem witness_ConfigSave :
    (let h := asked Code.configSave [] started
     h.Takes Code.configSave (request Code.configSave []) [] ∧ h.config.save = none) ∧
    (let save : Save := { snapshot := {}, tag := 7, replyDue := true }
     let h : Hub := { asked Code.configSave [] started with config := { loading := false, save := some save } }
     h.Takes Code.configSave (request Code.configSave []) [] ∧ h.config.save = some save ∧ save.replyDue = true) ∧
    (saveResult (.noAck 823)).1 = some .noAck ∧ (saveResult (.mismatch [(820, 254)])).1 = some .readBackMismatch ∧
    started.AlarmRoom ∧ Memory.wf [] = true ∧ (saveResult (.noAck 1)).1 = some .noAck ∧ SaveEnd.noAck 1 ≠ .noAck 0 ∧
    (∀ written, SaveEnd.noAck 10 = .noAck written → 10 ≤ written) := by
  refine ⟨by decide, by decide, by decide, by decide, by decide, by decide, by decide, by decide, ?_⟩
  intro written h; injection h; omega

/-- The EEPROM of witness_CutOffSaveIsFound holds a good tag, version and length. -/
theorem witness_ConfigSave_image : ∀ found, judgeImage (cells 0 (image {})) = .inl found → found = .badCrc ∨ found = .badContent := by
  obtain ⟨v, hv⟩ := witness_CutOffSaveIsFound.2.1
  intro found h; rw [hv] at h; exact absurd h (by simp)

/-- A second save cut off after one byte of its first stage puts the byte back that the first one complemented: the CRC field is kept from
matching (log entry 27). -/
theorem test_a_second_cut_off_save_is_found_too :
    let once := saveCutOff [(6, 3), (7, 53)] {} 1
    crcMatches once = false ∧ Memory.read once 819 = 0#8 ∧ Memory.read (saveCutOff once {} 1) 819 = 255#8 ∧
      Memory.read (saveCutOff [(6, 3), (7, 53)] {} 9) 7 = 53#8 := by decide +kernel

/-- A slot in a state, its debounce of presence or of the latch about to end. -/
def ending (state : SlotState) (present latch : Bool) : SlotRec :=
  { state, presence := !present, latchClosed := !latch, rawPresent := present, rawLatch := latch,
    presenceTimer := some ⟨0, false⟩, latchTimer := some ⟨0, false⟩ }

theorem witness_PresenceAndLatch :
    (let h := slotIs 11 (ending .empty true true) started
     h.slots[(11 : Slot)].presenceEnds true = true ∧ h.slots[(11 : Slot)].state = .empty ∧ (11 : Slot) ∉ h.manager.waitList) ∧
    (let r := ending .off true true
     r.presenceEnds true = true ∧ r.state ≠ .empty ∧ r.latchEnds true = true ∧ r.presence = false) ∧
    ({ } : SlotRec).presenceEnds true = false ∧
    (let h := slotIs 0 (ending .seated true true) started
     h.slots[(0 : Slot)].latchEnds true = true ∧ h.slots[(0 : Slot)].state = .seated ∧ h.tables.plan[(0 : Slot)].expected = true ∧
       (0 : Slot) ∉ h.manager.waitList) ∧
    (let h : Hub := { slotIs 0 (ending .seated true true) started with tables := { plan := Vector.replicate 12 { expected := false } } }
     h.slots[(0 : Slot)].latchEnds true = true ∧ h.slots[(0 : Slot)].state = .seated ∧ h.tables.plan[(0 : Slot)].expected = false) ∧
    (let r := ending .off false true
     r.latchEnds true = true ∧ r.state = .off ∧ r.presence = true) ∧
    (let r := ending .forwarding true true
     r.latchEnds true = true ∧ r.state ≠ .seated ∧ r.state ≠ .off) ∧
    (let r := ending .forwarding false true
     r.presenceEnds false = true ∧ r.state ≠ .empty) ∧
    (let r := ending .empty false true
     r.presenceEnds false = true ∧ r.state = .empty) ∧ (slotIs 0 (ending .forwarding false true) started).AlarmRoom := by decide

theorem witness_WaitListService : busy.WaitListLegal ∧ busy.committed ≤ busy.tables.budget := by decide

theorem witness_PowerWait : (1 : Slot) ∈ busy.manager.waitList ∧ busy.slots[(1 : Slot)].waitRaised = false ∧
    busy.alarms.recs.length < 63 ∧ busy.alarms.find (.slot 1 .powerWait) ≠ none ∧ (0 : Slot) ∉ busy.manager.waitList := by decide

theorem witness_BringUp :
    ({ state := .powering } : SlotRec).state = .powering ∧
    (let h := slotIs 0 { state := .resetHold, limit := some 0 } started
     h.slots[(0 : Slot)].state = .resetHold ∧ h.slots[(0 : Slot)].limit.isSome = true ∧ h.links[(0 : Slot)].state = .disabled ∧
       h.links[(0 : Slot)].hold = none) ∧
    (let h := linkIs 0 { state := .training, helloCount := 1 } (slotIs 0 { state := .linking } started)
     h.slots[(0 : Slot)].state = .linking ∧ h.links[(0 : Slot)].state = .training ∧ h.links[(0 : Slot)].helloCount = 1 ∧
       h.ports[(0 : Slot)].identify = none ∧ h.store.freeReserve ≠ 0) ∧
    (∀ state ∈ [SlotState.identifying, .awaitingAdmit, .draining, .fenced, .empty],
      let h := linkIs 0 { state := .training, helloCount := 1 } (slotIs 0 { state } started)
      h.slots[(0 : Slot)].state ≠ .linking ∧ h.slots[(0 : Slot)].state ≠ .recovering ∧
        ¬ (h.slots[(0 : Slot)].state = .awaitingAdmit ∧ h.slots[(0 : Slot)].autoAdmit = true) ∧ h.links[(0 : Slot)].tx = none) ∧
    (let h := slotIs 0 { state := .identifying, attempt := 2, limit := some 0 } started
     h.slots[(0 : Slot)].state = .identifying ∧ h.slots[(0 : Slot)].limit.isSome = true ∧ h.slots[(0 : Slot)].attempt < 3 ∧
       h.ports[(0 : Slot)].identify = none) := by decide

/-- The reserve with `free` blocks left. -/
def reserveLeft (free : Nat) (h : Hub) : Hub := { h with store := { h.store with reserveUsed := 64 - free } }

/-- An IDENTIFY in flight that a new attempt replaces; the reserve with no block free and the position empty; and, in the reserve's last
block, an IDENTIFY that gives the block back. -/
theorem witness_BringUp_identify :
    let sent : StoredFrame := { id := 0, frame := identifyFrame 0 1 .a, blocks := 1, refs := 1, fromAgent := true }
    let h := portIs 0 { identify := some 0 } (linkIs 0 { state := .locked, tx := some { place := .identify, id := 0, sentAt := none } }
      (slotIs 0 { state := .identifying, attempt := 1, limit := some 0 } { started with store := { frames := [sent], reserveUsed := 64, nextId := 1 } }))
    let g := reserveLeft 0 (slotIs 0 { state := .identifying, attempt := 1, limit := some 0 } started)
    h.slots[(0 : Slot)].state = .identifying ∧ h.slots[(0 : Slot)].attempt < 3 ∧ h.ports[(0 : Slot)].identify = some 0 ∧
      (h.store.deref 0).freeReserve = 1 ∧ h.store.freeReserve = 0 ∧ h.links[(0 : Slot)].tx.any (·.place == .identify) = true ∧
      g.slots[(0 : Slot)].state = .identifying ∧ g.ports[(0 : Slot)].identify = none ∧ g.store.freeReserve = 0 ∧ g.AlarmRoom := by decide

/-- An IDENTITY_REPLY of a radio card that declares a class. -/
def identifies (cls : Byte) : InboxFrame := told 2 .control Kind.identityReply 1 [1, 0, 1, 1, cls, 7, 0] none

/-- Slot 3 IDENTIFYING at class C, with the reply in the inbox, the latch as given, a plan and a link. -/
def identifying (cls : Byte) (latch : Bool) (plan : PlanEntry) (link : LinkState) : Hub :=
  inbox (identifies cls) <| linkIs 2 { state := link } <|
    slotIs 2 { state := .identifying, powerClass := some .c, latchClosed := latch } { started with tables := { plan := Vector.replicate 12 plan } }

theorem witness_IdentityReply :
    (∀ cls ∈ [(1 : Byte), 3, 4], (identifying cls true {} .locked).agent.inbox = [identifies cls] ∧
      (identifies cls).frame.kind = Kind.identityReply ∧ (identifies cls).frame.cls = .control ∧
      (parseIdentity (identifies cls).frame.payload).isSome = true ∧
      (identifying cls true {} .locked).slots[(identifies cls).slot].state = .identifying ∧ (identifying cls true {} .locked).AlarmRoom) ∧
    (parseIdentity (identifies 4).frame.payload).any (fun i => i.declared.higher .c) = true ∧
    (parseIdentity (identifies 3).frame.payload).any (fun i => i.declared.higher .c || (some CardKind.powerFan).any (· != i.kind)) = true ∧
    (parseIdentity (identifies 3).frame.payload).any
      (fun i => !i.declared.higher .c && (identifying 3 true { kind := some .powerFan } .locked).tables.plan[(2 : Slot)].kind.any (· != i.kind)) =
        true ∧
    (parseIdentity (identifies 3).frame.payload).any
      (fun i => !i.declared.higher .c && !(identifying 3 true { kind := some .radio } .locked).tables.plan[(2 : Slot)].kind.any (· != i.kind)) =
        true := by decide

/-- A request for slot 12, in a state and with a link. -/
def asksFor12 (code : Byte) (r : SlotRec) (link : LinkState) : Hub :=
  asked code [12] (linkIs 11 { state := link } (slotIs 11 r started))

theorem witness_EnterForwarding :
    (let h := asksFor12 Code.slotAdmit { state := .awaitingAdmit } .locked
     h.TakesFor Code.slotAdmit (request Code.slotAdmit [12]) [] 11 ∧ h.slots[(11 : Slot)].state = .awaitingAdmit ∧
       h.links[(11 : Slot)].state = .locked) ∧
    (let h := asksFor12 Code.slotAdmit { state := .awaitingAdmit } .training
     h.TakesFor Code.slotAdmit (request Code.slotAdmit [12]) [] 11 ∧ h.links[(11 : Slot)].state ≠ .locked) ∧
    (let h := asksFor12 Code.slotRestore { state := .fenced } .locked
     h.TakesFor Code.slotRestore (request Code.slotRestore [12]) [] 11 ∧ h.slots[(11 : Slot)].state = .fenced ∧
       h.links[(11 : Slot)].state = .locked) ∧
    (let h := asksFor12 Code.slotRestore { state := .forwarding } .locked
     h.TakesFor Code.slotRestore (request Code.slotRestore [12]) [] 11 ∧ h.slots[(11 : Slot)].state ≠ .fenced) ∧
    (let h := linkIs 0 { state := .training, helloCount := 1 } (slotIs 0 { state := .awaitingAdmit, autoAdmit := true } started)
     h.links[(0 : Slot)].state = .training ∧ h.links[(0 : Slot)].helloCount = 1 ∧ h.slots[(0 : Slot)].state = .awaitingAdmit ∧
       h.slots[(0 : Slot)].autoAdmit = true) ∧
    (linkIs 0 { state := .training, helloCount := 1 } (slotIs 0 { state := .recovering } started)).slots[(0 : Slot)].state = .recovering ∧
    (linkIs 0 { state := .training, helloCount := 1 } (slotIs 0 { state := .recovering } started)).alarms.Legal := by
  decide

theorem witness_LinkLost : busy.links[(0 : Slot)].state = .locked ∧ busy.slots[(0 : Slot)].state = .forwarding ∧ busy.AlarmRoom ∧
    (let h := linkIs 11 { state := .locked } (slotIs 11 { state := .fenced, latchClosed := true } started)
     h.links[(11 : Slot)].state = .locked ∧ h.slots[(11 : Slot)].state = .fenced ∧ h.slots[(11 : Slot)].latchClosed = true) ∧
    (let h := linkIs 11 { state := .locked } (slotIs 11 { state := .draining } started)
     h.links[(11 : Slot)].state = .locked ∧ h.slots[(11 : Slot)].state ≠ .forwarding ∧ h.slots[(11 : Slot)].state ≠ .fenced) := by
  decide

theorem witness_Draining :
    (∀ state ∈ [SlotState.empty, .draining, .off],
      let h := asksFor12 Code.slotRelease { ending state true false with state } .disabled
      h.slots[(11 : Slot)].state = state ∧ h.TakesFor Code.slotRelease (request Code.slotRelease [12]) [] 11 ∧
        h.slots[(11 : Slot)].latchEnds false = true) ∧
    (let h := asksFor12 Code.slotRelease { state := .recovering } .training
     h.slots[(11 : Slot)].state = .recovering ∧ h.TakesFor Code.slotRelease (request Code.slotRelease [12]) [] 11) ∧
    (let r := ending .fenced true false
     r.state = .fenced ∧ r.latchEnds false = true) ∧
    (let e := told 0 .control Kind.quiesced 0 [] none
     let h := inbox e (slotIs 0 { state := .draining } started)
     h.agent.inbox = [e] ∧ e.frame.kind = Kind.quiesced ∧ e.frame.cls = .control ∧ e.frame.payload = [] ∧
       h.slots[e.slot].state = .draining ∧ h.ports[e.slot].entries = [] ∧ h.links[e.slot].tx = none ∧
       (portIs 0 { controlQ := [0] } h).ports[e.slot].entries ≠ []) := by decide

theorem witness_Draining_quiesce :
    ∀ free ∈ [0, 1],
      let h := reserveLeft free (asksFor12 Code.slotRelease { state := .forwarding } .locked)
      h.slots[(11 : Slot)].state = .forwarding ∧ h.TakesFor Code.slotRelease (request Code.slotRelease [12]) [] 11 ∧
        h.store.freeReserve = free ∧ h.AlarmRoom := by decide

theorem witness_EnterFenced :
    (let h := asksFor12 Code.slotFence { state := .forwarding } .locked
     h.TakesFor Code.slotFence (request Code.slotFence [12]) [] 11 ∧ h.slots[(11 : Slot)].state = .forwarding) ∧
    (let h := asksFor12 Code.slotFence { state := .fenced } .locked
     h.TakesFor Code.slotFence (request Code.slotFence [12]) [] 11 ∧ h.slots[(11 : Slot)].state ≠ .forwarding ∧
       h.slots[(11 : Slot)].state ≠ .recovering) ∧
    (let h : Hub := { slotIs 3 { state := .recovering } started with manager := { fenceRequests := [3, 4] } }
     (3 : Slot) ∈ h.manager.fenceRequests ∧ h.slots[(3 : Slot)].state = .recovering ∧ (4 : Slot) ∈ h.manager.fenceRequests ∧
       h.slots[(4 : Slot)].state = .empty ∧ h.alarms.Legal) := by decide

theorem witness_EnterOff :
    (let h := asksFor12 Code.slotRelease { state := .seated } .disabled
     h.slots[(11 : Slot)].state.bringUp = true ∧ h.TakesFor Code.slotRelease (request Code.slotRelease [12]) [] 11) ∧
    (let r := ending .faulted true false
     r.state = .faulted ∧ r.latchEnds false = true) ∧
    (let h := slotIs 0 { state := .draining, limit := some 0 } started
     h.slots[(0 : Slot)].state = .draining ∧ h.slots[(0 : Slot)].limit.isSome = true ∧ h.AlarmRoom) := by decide

theorem witness_EnterFaulted :
    inService.pwrGood = true ∧ inService.state.readsPowerLoss = true ∧ inService.latchClosed = true ∧ (slotIs 0 inService started).AlarmRoom ∧
    (∀ state ∈ [SlotState.powering, .linking, .identifying, .recovering],
      let r : SlotRec := { state, limit := some 0, attempt := 3 }
      r.state = state ∧ r.limit.isSome = true ∧ 3 ≤ r.attempt ∧ r.latchClosed = false) := by decide

theorem witness_SeatedAgain_alarms :
    (slotIs 0 { state := .faulted, limit := some 0, retries := 0 } started).alarms.Legal ∧
      (asksFor12 Code.slotRestart { state := .faulted } .disabled).alarms.Legal := by decide

theorem witness_SeatedAgain :
    (let h : Hub := { asksFor12 Code.slotPower { state := .seated, latchClosed := true } .disabled with manager := { waitList := [4, 11] } }
     h.TakesFor Code.slotPower (request Code.slotPower [12]) [] 11 ∧ h.slots[(11 : Slot)].state = .seated ∧
       h.slots[(11 : Slot)].latchClosed = true ∧ (11 : Slot) ∈ h.manager.waitList) ∧
    (let h := slotIs 0 { state := .faulted, limit := some 0, retries := 0 } started
     (0 : Slot) ∉ h.manager.waitList ∧ h.slots[(0 : Slot)].state = .faulted ∧ h.slots[(0 : Slot)].limit.isSome = true ∧
       h.slots[(0 : Slot)].retries < h.tables.plan[(0 : Slot)].retryLimit) ∧
    (let h := slotIs 0 { state := .faulted, limit := some 0, retries := 1 } started
     h.slots[(0 : Slot)].state = .faulted ∧ h.tables.plan[(0 : Slot)].retryLimit ≤ h.slots[(0 : Slot)].retries) ∧
    (let h := asksFor12 Code.slotRestart { state := .faulted } .disabled
     h.TakesFor Code.slotRestart (request Code.slotRestart [12]) [] 11 ∧ h.slots[(11 : Slot)].state = .faulted) ∧
    (let h := asksFor12 Code.slotRestart { state := .off } .disabled
     h.TakesFor Code.slotRestart (request Code.slotRestart [12]) [] 11 ∧ h.slots[(11 : Slot)].state ≠ .faulted) ∧
    (∀ state ∈ [SlotState.off, .seated],
      let h := asksFor12 Code.slotPower { state, latchClosed := true } .disabled
      h.TakesFor Code.slotPower (request Code.slotPower [12]) [] 11 ∧ h.slots[(11 : Slot)].state = state ∧
        h.slots[(11 : Slot)].latchClosed = true ∧ (11 : Slot) ∉ h.manager.waitList) ∧
    (let h := asksFor12 Code.slotPower { state := .off, latchClosed := false } .disabled
     h.TakesFor Code.slotPower (request Code.slotPower [12]) [] 11 ∧ h.slots[(11 : Slot)].latchClosed = false) := by decide

theorem witness_SlotLinks :
    (let l : Link := { state := .disabled, hold := some ⟨0, true⟩ }
     l.state = .disabled ∧ l.hold = some ⟨0, true⟩ ∧ l.Legal ∧ ({ state := .training } : Link).helloCount = 0) ∧
    (let h := asksFor12 Code.slotLinkReset { state := .linking } .training
     h.TakesFor Code.slotLinkReset (request Code.slotLinkReset [12]) [] 11 ∧ h.slots[(11 : Slot)].state.takesLinkReset = true ∧
       h.links[(11 : Slot)].state ≠ .locked ∧ h.links[(11 : Slot)].Legal) ∧
    (∀ state ∈ [SlotState.forwarding, .linking, .identifying, .awaitingAdmit, .fenced],
      let h := asksFor12 Code.slotLinkReset { state, latchClosed := true } .locked
      h.TakesFor Code.slotLinkReset (request Code.slotLinkReset [12]) [] 11 ∧ h.slots[(11 : Slot)].state = state ∧
        h.links[(11 : Slot)].state = .locked ∧ h.slots[(11 : Slot)].latchClosed = true ∧ h.AlarmRoom) ∧
    (let h := asksFor12 Code.slotLinkReset { state := .powering } .disabled
     h.TakesFor Code.slotLinkReset (request Code.slotLinkReset [12]) [] 11 ∧ h.slots[(11 : Slot)].state.takesLinkReset = false) := by
  decide

/-! ### Frames -/

/-- A frame with destination `dest`, as a card sends it. -/
def cardFrame (cls : TrafficClass) (kind : BitVec 6) (dest : BitVec 32) (payload : List Byte) : Frame :=
  { cls, kind, source := 9, flags := 1, sequence := 2, dest, tag := 0x1234, payload }

/-- A frame with no payload is 16 bytes on the wire and passes the check, and does not when its first byte is lost (R7, R13). -/
theorem test_frame_check :
    let f := cardFrame .bulk 3 0x40000000 []
    f.wire.length = 16 ∧ Frame.check f.wire = some f ∧ Frame.check (f.wire.drop 1) = none := by decide

theorem witness_FrameReceived :
    (let h := linkIs 0 { state := .locked } started
     h.links[(0 : Slot)].state = .locked ∧ h.links[(0 : Slot)].rx = none ∧ h.links[(0 : Slot)].monitor.reached = false ∧
       h.links[(11 : Slot)].state ≠ .locked) ∧
    (let f := cardFrame .timing 3 0xFFFFEFFF []
     Frame.check f.wire = some f ∧ f.cls = .timing ∧ inAgentRange f.dest = false) ∧
    (let f := cardFrame .timing 3 0xFFFFF000 [1]
     Frame.check f.wire = some f ∧ ¬ (f.cls = .timing ∧ inAgentRange f.dest = false)) ∧
    Frame.check [1] = none := by decide

/-- A second piece of a frame begun; an errored frame that reaches the threshold of 10; and one that comes after it in the second. -/
theorem witness_FrameReceived_pieces :
    let h (l : Link) := linkIs 0 { l with state := .locked } started
    (h { rx := some { bytes := [1], arrival := ⟨{}, 0⟩ } }).links[(0 : Slot)].rx = some { bytes := [1], arrival := ⟨{}, 0⟩ } ∧
      (∀ errored ∈ [8, 9], let g := h { monitor := { errored } }
        g.links[(0 : Slot)].monitor.reached = false ∧ g.AlarmRoom ∧
          (g.tables.ports[(0 : Slot)].threshold ≤ g.links[(0 : Slot)].monitor.errored + 1 ↔ errored = 9)) ∧
      (h { monitor := { errored := 10, reached := true } }).links[(0 : Slot)].monitor.reached = true := by decide

theorem burst_windows_legal : burst.tables.windows[(0 : Fin 32)].Legal ∧ burst.tables.windows[(1 : Fin 32)].Legal :=
  ⟨⟨by decide, by decide, by decide, nofun, by decide⟩, ⟨by decide, by decide, by decide, by rintro r ⟨⟩; decide, by decide⟩⟩

theorem witness_WindowLookup :
    let f (cls : TrafficClass) (dest : BitVec 32) := cardFrame cls 0 dest []
    let w := burst.tables.windows
    (w[(0 : Fin 32)].claims (f .bulk 0x400FFFFF) 2 = true ∧ w[(0 : Fin 32)].remap = none) ∧
    (w[(1 : Fin 32)].claims (f .control 0x40FFFFFF) 0 = true ∧ (∀ j : Fin 32, j < 1 → w[j].claims (f .control 0x40FFFFFF) 0 = false) ∧
      w[(1 : Fin 32)].remap = some 0x08000000) ∧
    (∀ i : Fin 32, w[i].claims (f .control 0x41000000) 0 = false) ∧
    -- window 0: its first and last address, the one after it, a frame of the other class, and a source outside its filter
    [(f .bulk 0x40000000, (0 : Slot)), (f .bulk 0x400FFFFF, 2), (f .bulk 0x40100000, 0), (f .control 0x40000000, 0), (f .bulk 0x40000000, 3),
      (f .timing 0x40000000, 0)].map (fun p => w[(0 : Fin 32)].claims p.1 p.2) = [true, true, false, false, false, false] := by decide

/-- A frame that a link has handed on, and the hub that holds it for a slot in a state. -/
def handed (cls : TrafficClass) (dest : BitVec 32) : HandedOn := { frame := cardFrame cls 0 dest [], arrival := none }
def handedTo (state : SlotState) (e : HandedOn) (h : Hub) : Hub := portIs 0 { handedOn := [e] } (slotIs 0 { state } h)

theorem witness_FrameClassification :
    let far := handed .bulk 0x40000000
    let near := handed .control 0xFFFFF000
    let passes (h : Hub) (e : HandedOn) : Bool := h.slots[(0 : Slot)].admits (inAgentRange e.frame.dest) e.frame.kind
    started.ports[(0 : Slot)].handedOn = [] ∧
    (let h := handedTo .recovering far started
     h.ports[(0 : Slot)].handedOn = [far] ∧ passes h far = false) ∧
    (let h := handedTo .seated near started
     h.ports[(0 : Slot)].handedOn = [near] ∧ passes h near = true ∧ inAgentRange near.frame.dest = true ∧ h.agent.inbox.length < 16) ∧
    (let h : Hub := { handedTo .seated near started with agent := { inbox := List.replicate 16 (told 0 .control 0x11 0 [] none) } }
     h.ports[(0 : Slot)].handedOn = [near] ∧ passes h near = true ∧ 16 ≤ h.agent.inbox.length) ∧
    (let h := handedTo .forwarding far started
     passes h far = true ∧ inAgentRange far.frame.dest = false ∧ h.tables.route far.frame 0 = none) ∧
    (∀ e ∈ [far, handed .control 0x40000000],
      let h := handedTo .forwarding e { started with tables := { defaultTarget := some (.slot 11) } }
      passes h e = true ∧ (h.tables.route e.frame 0).isSome = true ∧ h.ports[(0 : Slot)].pendBulk.length < 4 ∧
        h.ports[(0 : Slot)].pendControl.length < 4) ∧
    (let waiting : PendingFrame := { frame := far.frame, target := .slot 11, targets := Mask.single 11 }
     let h := portIs 0 { handedOn := [far], pendBulk := List.replicate 4 waiting }
       (slotIs 0 { state := .forwarding } { started with tables := { defaultTarget := some (.slot 11) } })
     passes h far = true ∧ (h.tables.route far.frame 0).isSome = true ∧ 4 ≤ h.ports[(0 : Slot)].pendBulk.length) := by decide

/-- The ingress state filter of R19 state by state: an agent-bound CARD_ALARM, another agent-bound kind, and a frame for another slot. -/
theorem test_ingress_filter :
    [(SlotState.forwarding, false), (.draining, false), (.draining, true), (.fenced, false), (.recovering, false), (.off, true)].map (fun p =>
      let r : SlotRec := { state := p.1, quiesced := p.2 }
      [r.admits true Kind.cardAlarm, r.admits true Kind.quiesced, r.admits false 0]) =
      [[true, true, true], [true, true, true], [true, true, false], [true, false, false], [true, true, false], [true, true, false]] ∧
    inAgentRange 0xFFFFF000 = true ∧ inAgentRange 0xFFFFEFFF = false := by decide

/-- A frame of slot 12 for slot 1 that waits at the arbiter. -/
def waitingFrame (cls : TrafficClass) : PendingFrame :=
  { frame := cardFrame cls 0 0x40000000 [], target := .slot 0, targets := Mask.single 0 }
def waitsAtArbiter (p : Port) (state : SlotState) (h : Hub) : Hub := portIs 11 p (slotIs 0 { state } h)

theorem witness_ArbiterService :
    (let h := waitsAtArbiter { pendControl := [waitingFrame .control] } .forwarding started
     (rotation h.store.lastControl).find? (fun k => !h.ports[k].pendControl.isEmpty) = some 11 ∧
       h.slots[(0 : Slot)].state.reachable = true ∧ (waitingFrame .control).frame.blocks = 1 ∧
       h.occupancy 0 + 1 ≤ h.tables.ports[(0 : Slot)].limit ∧ 1 ≤ h.store.freeShared) ∧
    (let h := waitsAtArbiter { pendControl := [waitingFrame .control] } .off started
     (rotation h.store.lastControl).find? (fun k => !h.ports[k].pendControl.isEmpty) = some 11 ∧
       h.slots[(0 : Slot)].state.reachable = false) ∧
    (let h := waitsAtArbiter { pendBulk := [waitingFrame .bulk] } .recovering { started with store := { sharedUsed := 1919 } }
     (∀ k : Slot, h.ports[k].pendControl = []) ∧ (rotation h.store.lastBulk).find? (fun k => !h.ports[k].pendBulk.isEmpty) = some 11 ∧
       h.slots[(0 : Slot)].state.reachable = true ∧ h.occupancy 0 + 1 ≤ h.tables.ports[(0 : Slot)].limit ∧ 64 + 1 ≤ h.store.freeShared) ∧
    (let h := waitsAtArbiter { pendBulk := [waitingFrame .bulk] } .forwarding { started with store := { sharedUsed := 1920 } }
     (rotation h.store.lastBulk).find? (fun k => !h.ports[k].pendBulk.isEmpty) = some 11 ∧ h.slots[(0 : Slot)].state.reachable = true ∧
       h.occupancy 0 + 1 ≤ h.tables.ports[(0 : Slot)].limit ∧ h.store.freeShared < 64 + 1) ∧
    ∀ k : Slot, started.ports[k].pendControl = [] ∧ started.ports[k].pendBulk = [] := by decide

/-- Slots 1 and 2 are reachable, slot 1 without room for a block; a frame of slot 12 for them waits at the arbiter. -/
def crowded (target : Target) (targets : SlotMask) (cls : TrafficClass) (store : Store) : Hub :=
  let p : PendingFrame := { waitingFrame cls with target, targets }
  portIs 11 (if cls = .bulk then { pendBulk := [p] } else { pendControl := [p] }) <| portIs 0 { bulkQ := [0] } <|
    slotIs 1 { state := .recovering } <| slotIs 0 { state := .forwarding }
      { started with store, tables := { ports := (Vector.replicate 12 {}).set 0 { limit := 17 } } }

/-- A store whose first frame fills the limit of slot 1. -/
def filled (used : Nat) : Store :=
  { frames := [{ id := 0, frame := cardFrame .bulk 0 0 (List.replicate 1024 0), blocks := 17, refs := 1, fromAgent := false }],
    sharedUsed := used, nextId := 1 }

theorem witness_ArbiterService_refusals :
    (let h := crowded (.slot 0) (Mask.single 0) .control (filled 17)
     (rotation h.store.lastControl).find? (fun k => !h.ports[k].pendControl.isEmpty) = some 11 ∧ h.slots[(0 : Slot)].state.reachable = true ∧
       ¬ h.occupancy 0 + (waitingFrame .control).frame.blocks ≤ h.tables.ports[(0 : Slot)].limit ∧ h.AlarmRoom) ∧
    (let h := crowded (.slot 1) (Mask.single 1) .control (filled 1984)
     h.slots[(1 : Slot)].state.reachable = true ∧ h.occupancy 1 + (waitingFrame .control).frame.blocks ≤ h.tables.ports[(1 : Slot)].limit ∧
       h.store.freeShared < (waitingFrame .control).frame.blocks ∧ h.AlarmRoom) ∧
    (let h := crowded (.slot 5) (Mask.single 5) .bulk (filled 17)
     (∀ k : Slot, h.ports[k].pendControl = []) ∧ (rotation h.store.lastBulk).find? (fun k => !h.ports[k].pendBulk.isEmpty) = some 11 ∧
       h.slots[(5 : Slot)].state.reachable = false) := by decide

/-- Groups with no reachable member, with none that has room, and with one of two that has. -/
theorem witness_ArbiterService_groups :
    let reached (h : Hub) (mask : SlotMask) (k : Slot) : Bool := Mask.has mask k && h.slots[k].state.reachable
    let fits (h : Hub) (k : Slot) : Bool := h.occupancy k + (waitingFrame .bulk).frame.blocks ≤ h.tables.ports[k].limit
    (let h := crowded (.group 15) (Mask.single 5) .control (filled 17)
     h.ports[(11 : Slot)].pendControl = [{ waitingFrame .control with target := .group 15, targets := Mask.single 5 }] ∧
       ∀ k : Slot, reached h (Mask.single 5) k = false) ∧
    (let h := crowded (.group 0) (Mask.single 0) .control (filled 17)
     reached h (Mask.single 0) 0 = true ∧ ∀ k : Slot, (reached h (Mask.single 0) k && fits h k) = false) ∧
    (∀ cls ∈ [TrafficClass.control, .bulk],
      let mask : SlotMask := 0x3
      let h := crowded (.group 0) mask cls (filled 1919)
      reached h mask 0 = true ∧ fits h 0 = false ∧ reached h mask 1 = true ∧ fits h 1 = true ∧ h.tables.relay = none ∧
        64 + (waitingFrame cls).frame.blocks ≤ h.store.freeShared ∧ (waitingFrame cls).frame.cls = cls ∧ h.alarms.Legal ∧
        h.alarms.recs.length < 48) ∧
    (∀ p ∈ [(TrafficClass.control, 1984), (.bulk, 1920)],
      let mask : SlotMask := 0x3
      let h := crowded (.group 0) mask p.1 (filled p.2)
      reached h mask 1 = true ∧ fits h 1 = true ∧ h.tables.relay = none ∧ h.alarms.Legal ∧ h.alarms.recs.length < 48 ∧
        h.store.freeShared < (if p.1 = .bulk then 64 else 0) + (waitingFrame p.1).frame.blocks) := by decide

/-- Slot 1's link sends its probe; slot 2's sends the last frame of a drain. -/
def sending : Hub :=
  let probe : StoredFrame := { id := 0, frame := agentFrame .timing Kind.delayProbe 0 5 0 [], blocks := 1, refs := 1, fromAgent := true }
  let h : Hub := { started with store := { frames := [probe, { probe with id := 1, frame := agentFrame .control Kind.quiesce 0 0 1 [] }],
                                           reserveUsed := 2, nextId := 2 } }
  let tx (place : Place) (id : Nat) : Link := { state := .locked, tx := some { place, id, sentAt := some ⟨3, 0⟩ } }
  recordIs 0 { probe := some { sequence := 5, t1 := none } } <| slotIs 1 { state := .draining, quiesced := true } <|
    portIs 1 { controlQ := [1] } <| linkIs 1 (tx .control 1) <| slotIs 0 { state := .forwarding } <| portIs 0 { timingQ := [0] } <|
    linkIs 0 (tx .timing 0) h

/-- A FORWARDING slot with a frame in flight, to be fenced. -/
theorem witness_EnterFenced_purge :
    let h : Hub := { sending with manager := { fenceRequests := [0] } }
    (0 : Slot) ∈ h.manager.fenceRequests ∧ h.slots[(0 : Slot)].state = .forwarding ∧ h.EntriesLegal ∧ h.ports[(0 : Slot)].entries = [0] ∧
      h.links[(0 : Slot)].tx.isSome = true := by decide

/-- The choices of a scheduler: each state and each content of the queues that a clause names. -/
theorem witness_TransmissionComplete_choice :
    (let h := portIs 0 { identify := some 3 } (slotIs 0 { state := .identifying } started)
     h.slots[(0 : Slot)].state = .identifying ∧ h.ports[(0 : Slot)].identify = some 3) ∧
    (let h := portIs 0 { timingQ := [4], controlQ := [5], bulkQ := [6], controlRun := 8 } (slotIs 0 { state := .draining } started)
     h.ports[(0 : Slot)].timingQ = [4] ∧ h.slots[(0 : Slot)].state = .draining) ∧
    (∀ run ∈ [7, 8],
      let h := portIs 0 { controlQ := [5], bulkQ := [6], controlRun := run } (slotIs 0 { state := .forwarding } started)
      h.ports[(0 : Slot)].timingQ = [] ∧ h.ports[(0 : Slot)].controlQ = [5] ∧ h.ports[(0 : Slot)].bulkQ = [6] ∧
        h.ports[(0 : Slot)].controlRun = run) ∧
    (let h := portIs 1 { controlQ := [1], bulkQ := [6] } sending
     h.slots[(1 : Slot)].state = .draining ∧ h.ports[(1 : Slot)].controlQ = [1] ∧ h.store.isQuiesce 1 = true ∧
       h.ports[(1 : Slot)].bulkQ ≠ []) ∧
    (started.slots[(0 : Slot)].state ≠ .identifying ∧ started.ports[(0 : Slot)].entries = []) := by decide

theorem witness_TransmissionComplete :
    sending.links[(11 : Slot)].tx = none ∧
    (sending.links[(0 : Slot)].tx.isSome = true ∧ sending.slots[(0 : Slot)].state ≠ .draining ∧
      (sending.store.find 0).any (fun f => f.frame.cls == .timing && f.frame.kind == Kind.delayProbe && f.frame.sequence == 5) = true ∧
      sending.trecs[(0 : Slot)].probe = some { sequence := 5, t1 := none }) ∧
    (sending.links[(1 : Slot)].tx.isSome = true ∧ sending.slots[(1 : Slot)].state = .draining ∧ sending.slots[(1 : Slot)].quiesced = true ∧
      (sending.ports[(1 : Slot)].leave .control).entries = []) := by decide

/-! ### Time -/

theorem witness_ClockBoundaries :
    (∀ k ∈ [(-1000 : Int), 1000], ∀ dt ∈ [0, 1, 25000000],
      let c : Clock := { now := ⟨2 ^ 48 - 2, 999999999⟩, carry := 999999999 }
      c.now.Legal ∧ c.carry < nsPerSec ∧ -1000 ≤ k ∧ k ≤ 1000 ∧ c.now.total + 2 * dt + 1 < 2 ^ 48 * nsPerSec) ∧
    (let earlier : List Boundary := [⟨.second, ⟨7, 0⟩⟩]
     let later : List Boundary := [⟨.frame, ⟨7, 10000000⟩⟩]
     let h := clockIs { now := ⟨7, 15000000⟩, due := earlier ++ ⟨.frame, ⟨7, 0⟩⟩ :: later } started
     h.clock.due = earlier ++ ⟨.frame, ⟨7, 0⟩⟩ :: later ∧ ∀ b ∈ earlier, b.sort = .second) ∧
    (let h := clockIs { now := ⟨2 ^ 48 - 2, 999999999⟩, due := [⟨.second, ⟨7, 0⟩⟩] } started
     (∀ b ∈ h.clock.due, b.sort = .second) ∧ h.clock.now.Legal ∧ h.clock.now.sec + 1 < 2 ^ 48) ∧
    (∀ count ∈ [8, 9],
      let h := timingIs { announceCount := count } started
      h.clock.announces = [] ∧ (h.tables.timing.announceInterval ≤ h.timing.announceCount + 1 ↔ count = 9)) ∧
    (∃ t, exec .frameBoundary (machine (timingIs { announceCount := 9 } started)) = .next t) ∧
    (let h := clockIs { announces := [⟨7, 0⟩, ⟨7, 10000000⟩] } (recordIs 0 { misses := 1, probe := some ⟨4, none⟩ }
       (slotIs 0 { state := .forwarding, identity := some card } { started with store := { reserveUsed := 40 } }))
     h.clock.announces = [⟨7, 0⟩, ⟨7, 10000000⟩] ∧ 24 ≤ h.store.freeReserve ∧ (∀ n : Slot, h.trecs[n].misses < 2) ∧ h.eligible 0 = true ∧
       h.eligible 11 = false) := ⟨by decide, by decide, by decide, by decide, ⟨_, rfl⟩, by decide⟩

/-- An announce boundary with slots 1 and 12 eligible: a probe outstanding at two misses, and a reserve of 0 to 4 free blocks. -/
theorem witness_ClockBoundaries_misses :
    let boundary (r : TimingRec) (free : Nat) := reserveLeft free (clockIs { announces := [⟨7, 0⟩] } (recordIs 0 r
      (slotIs 11 { state := .forwarding, identity := some card } (slotIs 0 { state := .forwarding, identity := some card } started))))
    (∀ free ∈ [0, 40], let h := boundary { misses := 2, probe := some ⟨4, none⟩ } free
      h.clock.announces = [⟨7, 0⟩] ∧ allSlots.filter h.eligible = [0, 11] ∧ h.trecs[(0 : Slot)].probe.isSome = true ∧
        2 ≤ h.trecs[(0 : Slot)].misses ∧ h.trecs[(0 : Slot)].pathLost = false ∧ h.alarms.Legal ∧ h.alarms.recs.length < 40 ∧
        h.store.freeReserve = free) ∧
    ∀ free ∈ [0, 1, 2, 3, 4], let h := boundary { misses := 1 } free
      (∀ n ∈ allSlots.filter h.eligible, h.trecs[n].misses + (if h.trecs[n].probe.isSome then 1 else 0) < 2) ∧ h.store.freeReserve = free := by
  decide

/-- With three blocks free the second slot's ANNOUNCE takes the last, and its DELAY_PROBE counts as a miss (R43, R121, R123). -/
theorem test_announces_share_the_reserve :
    let h := after .announceBoundary (reserveLeft 3 (clockIs { announces := [⟨7, 0⟩] }
      (slotIs 11 { state := .forwarding, identity := some card } (slotIs 0 { state := .forwarding, identity := some card } started))))
    h.ports[(0 : Slot)].timingQ = [0, 1] ∧ h.ports[(11 : Slot)].timingQ = [2] ∧ h.trecs[(11 : Slot)].misses = 1 ∧
      h.trecs[(0 : Slot)].misses = 0 ∧ h.isActive (.hub .agentOverload) = true := by decide

/-- A hub at a second boundary with EXT the only candidate. -/
def atSecond (state : TimingState) (status : CandStatus) (count : Nat) (t : Timing) : Hub :=
  clockIs { now := ⟨7, 0⟩, elapsed := 7 * nsPerSec, due := [⟨.frame, ⟨7, 0⟩⟩, ⟨.second, ⟨7, 0⟩⟩] }
    (timingIs { t with state, cands := [{ source := .ext, status, count }] } started)

/-- The same with slot 1 the selected candidate, and what it has reported. -/
def atSecondWithSlot (report : Option Report) : Hub :=
  recordIs 0 { window := [7, 7, 7, 7], report } <|
    slotIs 0 { state := .forwarding, identity := some { card with caps := ⟨false, true, false⟩ } } <|
      clockIs { now := ⟨7, 0⟩, elapsed := 7 * nsPerSec, due := [⟨.second, ⟨7, 0⟩⟩] }
        (timingIs { state := .locked, selection := some (.slot 0), cands := [{ source := .slot 0, status := .qualified, count := 10 }] } started)

/-- A report of 6 s that arrived 870 ns late at a compensation of 740 half-ns, as old as one may be: the offset is −500 ns. -/
def recentReport : Report :=
  { refSec := 6, traceable := true, arrival := { time := ⟨6, 870⟩, elapsed := 7 * nsPerSec - 1100 * nsPerMs }, comp := some 740, pending := true }

theorem witness_SecondJudgment_slot :
    (let h := atSecondWithSlot (some recentReport)
     h.clock.due.any (·.sort == .second) = true ∧ h.timing.pendingTime = none ∧ h.slots[(0 : Slot)].state = .forwarding ∧
       h.hasCap 0 (·.timeSource) = true ∧ h.trecs[(0 : Slot)].settled = true ∧
       h.clock.elapsed ≤ recentReport.arrival.elapsed + 1100 * nsPerMs ∧
       (2 * ((recentReport.refSec * nsPerSec : Nat) - (recentReport.arrival.time.total : Int)) + 740).tdiv 2 = -500 ∧
       h.tables.timing.unlockThreshold = 500) ∧
    (atSecondWithSlot none).trecs[(0 : Slot)].report = none := by decide

/-- The same, taken: the correction is the offset clamped, and the measurement is used up. -/
theorem test_slot_reference : let h := after .secondJudgment (atSecondWithSlot (some recentReport))
    h.timing.state = .locked ∧ h.timing.correction = -100 ∧ h.trecs[(0 : Slot)].report = some { recentReport with pending := false } := by decide

def recentPulse : Pulse := { arrival := ⟨6, 0⟩, elapsed := 7 * nsPerSec - 1100 * nsPerMs, good := true }

theorem witness_SecondJudgment :
    (let h := atSecond .locked .qualified 10 { selection := some .ext, pulse := some recentPulse, extPending := some 6000000500 }
     h.clock.due.any (·.sort == .second) = true ∧ h.timing.pendingTime = none ∧ h.timing.state = .locked ∧ h.timing.selection = some .ext ∧
       h.timing.cands = [{ source := .ext, status := .qualified, count := h.tables.timing.q }] ∧
       h.timing.pulse.any (fun x => x.good && h.clock.elapsed ≤ x.elapsed + 1100 * nsPerMs) = true ∧
       (extOffset 6000000500).natAbs ≤ h.tables.timing.unlockThreshold) ∧
    (let h := atSecond .locked .qualified 10 { selection := some .ext }
     h.timing.pulse = none ∧ h.timing.state = .locked ∧ h.timing.selection = some .ext) ∧
    (let h := atSecond .freeRun .qualifying 9 { pulse := some recentPulse }
     h.timing.state = .freeRun ∧ h.timing.selection = none ∧ h.timing.extPending = none ∧ 9 + 1 = h.tables.timing.q ∧
       h.timing.pulse.any (fun x => x.good && h.clock.elapsed ≤ x.elapsed + 1100 * nsPerMs) = true) ∧
    (let h := atSecond (.acquiring .fresh) .qualified 10
       { selection := some .ext, pulse := some recentPulse, firstOffset := true, extPending := some 6000001001 }
     h.timing.state = .acquiring .fresh ∧ h.timing.selection = some .ext ∧ h.timing.firstOffset = true ∧
       1000 < (extOffset 6000001001).natAbs) ∧
    (let h := clockIs { due := [⟨.second, {}⟩] } (timingIs { state := .holdover, holdover := 14399 } started)
     h.clock.due.any (·.sort == .second) = true ∧ h.timing.pendingTime = none ∧ h.timing.state = .holdover ∧ h.timing.cands = [] ∧
       h.timing.selection = none ∧ h.tables.timing.holdoverLimit ≤ h.timing.holdover + 1) ∧
    (let h := clockIs { due := [⟨.second, {}⟩] } (timingIs { pendingTime := some (2 ^ 48 - 1) } started)
     h.clock.due.any (·.sort == .second) = true ∧ h.timing.state = .freeRun ∧ h.timing.cands = [] ∧ h.timing.selection = none ∧
       h.timing.pendingTime = some (2 ^ 48 - 1) ∧ 2 ^ 48 - 1 < 2 ^ 48) ∧
    (let raised : AlarmRec := { powerWait with key := .slot 0 .linkErrors }
     let h : Hub := linkIs 0 { state := .locked, monitor := { clearRun := 9 } } { started with alarms := { recs := [raised] } }
     h.links[(0 : Slot)].monitor.reached = false ∧ 9 ≤ h.links[(0 : Slot)].monitor.clearRun ∧ h.isActive (.slot 0 .linkErrors) = true) := by
  decide

/-- A list of EXT and slot 1, with the slot fit to be a reference and its measurement used up. -/
def atSecondWithTwo (ext : Candidate) (t : Timing) : Hub :=
  recordIs 0 { window := [7, 7, 7, 7], report := some { recentReport with pending := false } } <| slotIs 0 inService <|
    clockIs { now := ⟨7, 0⟩, elapsed := 7 * nsPerSec, due := [⟨.second, ⟨7, 0⟩⟩] }
      (timingIs { t with state := .locked, cands := [ext, { source := .slot 0, status := .qualified, count := 10 }] } started)

/-- The eighth offset of an acquisition at the lock window, the third above the unlock threshold, and the two changes of reference. -/
theorem witness_SecondJudgment_changes :
    (∀ origin ∈ [Origin.fresh, .locked, .lapsed],
      let h := atSecond (.acquiring origin) .qualified 10
        { selection := some .ext, pulse := some recentPulse, extPending := some 6000000100, lockCount := 7 }
      h.timing.state = .acquiring origin ∧ h.timing.lockCount = 7 ∧ (extOffset 6000000100).natAbs = h.tables.timing.lockWindow ∧
        h.timing.holdover + 1 < h.tables.timing.holdoverLimit ∧ h.port.notices < 24 ∧
        ∀ n : Slot, h.isActive (.slot n .linkErrors) = false) ∧
    (∀ count ∈ [1, 2],
      let h := atSecond .locked .qualified 10
        { selection := some .ext, pulse := some recentPulse, extPending := some 6000000501, unlockCount := count }
      h.timing.state = .locked ∧ (extOffset 6000000501).natAbs = h.tables.timing.unlockThreshold + 1 ∧ h.timing.unlockCount = count) ∧
    (∀ revertive : Bool,
     let two := atSecondWithTwo { source := .ext, status := .qualifying, count := 9 } { selection := some (.slot 0), pulse := some recentPulse }
     let h : Hub := { two with tables := { two.tables with revertive } }
     h.timing.selection = some (.slot 0) ∧ h.timing.extPending = none ∧ 9 + 1 = h.tables.timing.q ∧ h.tables.revertive = revertive ∧
       h.hasCap 0 (·.timeSource) = true ∧ h.trecs[(0 : Slot)].settled = true ∧ recentReport.traceable = true ∧
       h.clock.elapsed ≤ recentReport.arrival.elapsed + 1100 * nsPerMs ∧
       h.timing.pulse.any (fun x => x.good && h.clock.elapsed ≤ x.elapsed + 1100 * nsPerMs) = true) ∧
    (let h := atSecondWithTwo { source := .ext, status := .qualified, count := 10 } { selection := some .ext }
     h.timing.selection = some .ext ∧ h.timing.pulse = none ∧ h.slots[(0 : Slot)].state = .forwarding) := by decide

/-- A hub with a report in its inbox from slot 1, whose timing record and slot record are given. -/
def reports (cls : TrafficClass) (kind : BitVec 6) (sequence : Byte) (payload : List Byte) (t4 : Option Arrival) (r : TimingRec)
    (slot : SlotRec) : Hub :=
  inbox (told 0 cls kind sequence payload t4) (recordIs 0 r (slotIs 0 slot started))

/-- A probe of sequence 5 that left at 1 s, and an arrival some ns after that. -/
def probeOut : TimingRec := { sequence := 5, probe := some { sequence := 5, t1 := some ⟨1, 0⟩ } }
def answered (ns : Nat) : Option Arrival := some { time := ⟨1, ns⟩, elapsed := nsPerSec + ns }

theorem witness_TimingReports :
    (∀ p ∈ [(be 4 1000001, 1000001), (be 4 200, 199), (be 4 200, 65736), (be 4 1000000, 1065535), (be 4 0, 0)],
      let h := reports .timing Kind.probeReply 5 p.1 (answered p.2) probeOut inService
      h.agent.inbox = [told 0 .timing Kind.probeReply 5 p.1 (answered p.2)] ∧ p.1.length = 4 ∧
        h.trecs[(0 : Slot)].probe = some { sequence := 5, t1 := some ⟨1, 0⟩ }) ∧
    (1000000 < fieldAt (be 4 1000001) 0 4 ∧ (199 : Int) - fieldAt (be 4 200) 0 4 < 0 ∧ 65535 < (65736 : Int) - fieldAt (be 4 200) 0 4 ∧
      (1065535 : Int) - fieldAt (be 4 1000000) 0 4 = 65535) ∧
    (let h := reports .timing Kind.probeReply 4 (be 4 0) none probeOut inService
     h.agent.inbox.length = 1 ∧ h.trecs[(0 : Slot)].probe.isSome = true) ∧
    (let payload := be 6 9 ++ be 1 1
     let h := reports .timing Kind.sourceReport 0 payload (answered 9) {} inService
     parseSourceReport payload = some (9, true) ∧ h.slots[(0 : Slot)].state = .forwarding) ∧
    (∀ error ∈ [(1100 : Int), 1101, -1101],
      let h := reports .control Kind.phaseReport 0 (beInt 4 error) none { phaseOut := 2, phaseIn := 2 } inService
      (beInt 4 error).length = 4 ∧ h.eligible 0 = true ∧ toSigned 4 (fieldAt (beInt 4 error) 0 4) = error) := by decide

/-- A lost path at a probe still out, and the phase condition either way at the second report in a row, out of the limit or in it. -/
theorem witness_TimingReports_conditions :
    (let h := reports .timing Kind.probeReply 5 (be 4 200) (answered 606) { probeOut with pathLost := true } inService
     h.trecs[(0 : Slot)].pathLost = true ∧ h.alarms.Legal) ∧
    ∀ error ∈ [(1100 : Int), 1101], ∀ phaseCond ∈ [false, true],
      let h := reports .control Kind.phaseReport 0 (beInt 4 error) none { phaseOut := 2, phaseIn := 2, phaseCond } inService
      (h.tables.timing.phaseLimit < error.natAbs ↔ error = 1101) ∧ h.trecs[(0 : Slot)].phaseCond = phaseCond ∧ h.AlarmRoom := by decide

/-- A sample that settles a slot whose other inputs hold, and the third report out of the limit at one whose permit is GRANTED. -/
theorem witness_TimingReports_permits :
    (let h := timingIs locked (reports .timing Kind.probeReply 5 (be 4 200) (answered 606) { probeOut with window := [7, 7, 7] } inService)
     h.trecs[(0 : Slot)].granted = false ∧ h.trecs[(0 : Slot)].pathLost = false ∧ h.alarms.Legal ∧
       ((after .probeReply h).permitInputs 0).all = true) ∧
    ∀ free ∈ [0, 2],
      let h := reserveLeft free (timingIs locked (reports .control Kind.phaseReport 0 (beInt 4 1101) none
        { phaseOut := 2, window := [7, 7, 7, 7], granted := true } inService))
      (h.permitInputs 0).all = true ∧ h.trecs[(0 : Slot)].granted = true ∧ h.AlarmRoom ∧ h.port.notices < 20 ∧
        h.store.freeReserve = free := by decide

/-- The withdrawal of that permit: one PERMIT_CHANGED of reason PHASE, and a PERMIT_UPDATE with permit 2 and reason 5 (R134, R136). -/
theorem test_phase_withdraws_the_permit :
    let h := after .phaseReport (timingIs locked (reports .control Kind.phaseReport 0 (beInt 4 1101) none
      { phaseOut := 2, window := [7, 7, 7, 7], granted := true } inService))
    h.trecs[(0 : Slot)].granted = false ∧ h.ports[(0 : Slot)].timingQ = [0] ∧
      h.store.frames.map (fun f => (f.frame.kind, f.frame.payload)) = [(Kind.permitUpdate, [2, 5, 0, 0, 0, 0, 0, 0, 0, 0])] := by decide

/-! ### Alarms, sweeps and the host port -/

theorem witness_CardAlarm :
    let e := told 0 .control Kind.cardAlarm 0 [0, 9, 1, 1] none
    let key : AlarmKey := { source := some 0, kind := .cardReported, detail := 9 }
    (let h := inbox e (slotIs 0 { state := .fenced } { started with alarms := { recs := [powerWait] } })
     h.agent.inbox = [e] ∧ parseCardAlarm e.frame.payload = some (9, true, .critical) ∧ h.slots[(0 : Slot)].state = .fenced ∧
       h.alarms.Legal ∧ h.alarms.recs.length < 62 ∧ (∀ x ∈ h.alarms.recs, x.key ≠ key) ∧
       h.tables.kinds[AlarmKind.cardReported.idx].action = .fenceSlot) ∧
    (let h := inbox e (slotIs 0 { state := .draining } { started with alarms := { recs := [{ powerWait with key, occurrences := 255 }] } })
     h.alarms.Legal ∧ ∃ x ∈ h.alarms.recs, x.key = key ∧ x.active = true) ∧
    parseCardAlarm [0, 9, 2, 4] = some (9, false, .warning) := by decide

/-- A record CLEARED, one ACTIVE with another severity and one with the same; and a relay slot that is FORWARDING. -/
theorem witness_CardAlarm_notices :
    let key : AlarmKey := { source := some 0, kind := .cardReported, detail := 9 }
    let h (active : Bool) : Hub := { started with alarms := { recs := [{ powerWait with key, active }] } }
    (∀ active : Bool, (h active).alarms.Legal ∧ ∃ x ∈ (h active).alarms.recs, x.key = key ∧ x.active = active ∧ x.severity = .warning) ∧
      (h true).tables.relay = none ∧ (h true).tables.kinds[AlarmKind.cardReported.idx].action ≠ .withdrawPermit ∧
      (let kinds := started.tables.kinds.set AlarmKind.cardReported.idx { relay := true, action := .fenceSlot }
       let g : Hub := slotIs 11 { state := .forwarding } { started with tables := { relay := some 11, kinds } }
       g.tables.relay = some 11 ∧ g.tables.kinds[AlarmKind.cardReported.idx].relay = true ∧ g.slots[(11 : Slot)].state = .forwarding ∧
         g.store.freeReserve ≠ 0) := by decide

theorem witness_Sweeps :
    (let asks := request Code.sweep ([4] ++ be 2 0x1FFE ++ be 2 9)
     let h := asked Code.sweep ([4] ++ be 2 0x1FFE ++ be 2 9) started
     h.Takes Code.sweep asks [] ∧ ofCode sweepItems (fieldAt asks.body 0 1) = some .inventory ∧
       Mask.ofValue (fieldAt asks.body 1 2) = some (BitVec.allOnes 12) ∧ h.agent.sweep.inFlight = false ∧ 12 ≤ h.store.freeReserve) ∧
    (let h : Hub := { asked Code.sweep ([1] ++ be 2 2 ++ be 2 9) started with agent := { sweep := { inFlight := true } } }
     h.Takes Code.sweep (request Code.sweep ([1] ++ be 2 2 ++ be 2 9)) [] ∧ h.agent.sweep.inFlight = true) ∧
    (∀ body ∈ [[(5 : Byte)] ++ be 2 2 ++ be 2 9, [1] ++ be 2 1 ++ be 2 9, [1] ++ be 2 0x2000 ++ be 2 9, [1] ++ be 2 0 ++ be 2 9],
      (asked Code.sweep body started).Takes Code.sweep (request Code.sweep body) [] ∧
        (ofCode sweepItems (fieldAt body 0 1) = none ∨ Mask.ofValue (fieldAt body 1 2) = none ∨ Mask.ofValue (fieldAt body 1 2) = some 0)) ∧
    (let e := told 11 .control Kind.sweepReply 3 [4, 0, 0, 0, 1] none
     let w : Sweep := { inFlight := true, number := 3, requested := Mask.single 11, pending := Mask.single 11 }
     let h := inbox e { started with agent := { sweep := w } }
     h.agent.inbox = [e] ∧ parseSweepReply w e.frame.payload = some [0, 0, 0, 1] ∧ Mask.has w.pending e.slot = true ∧
       e.frame.sequence = w.number) ∧
    (∀ inFlight : Bool, (asked Code.sweepAbort [] { started with agent := { sweep := { inFlight } } }).Takes Code.sweepAbort
      (request Code.sweepAbort []) []) := by decide

/-- A SWEEP of slots 1, 2 and 12, of which 1 and 12 are FORWARDING, with one block free and with two; and one with a slot pending. -/
theorem witness_Sweeps_reserve :
    let body : List Byte := [1] ++ be 2 0x1006 ++ be 2 1001
    let h (free : Nat) := reserveLeft free (asked Code.sweep body (slotIs 0 inService (slotIs 11 inService started)))
    (∀ free ∈ [0, 1, 2], (h free).Takes Code.sweep (request Code.sweep body) [] ∧ (h free).store.freeReserve = free ∧
      (allSlots.filter fun n => Mask.has 0x803 n && (h free).slots[n].state == .forwarding) = [0, 11] ∧
      Mask.ofValue (fieldAt body 1 2) = some 0x803 ∧ (h free).AlarmRoom) ∧
    (h 1).agent.sweep.inFlight = false := by decide

/-- With one block free slot 1 is queried, with the item and the sweep's number, and slot 12 fails; the timeout is clamped (R164). -/
theorem test_sweep_queries :
    let h := after .sweep (reserveLeft 1 (asked Code.sweep ([1] ++ be 2 0x1006 ++ be 2 1001) (slotIs 0 inService (slotIs 11 inService started))))
    h.ports[(0 : Slot)].controlQ = [0] ∧ h.ports[(11 : Slot)].controlQ = [] ∧
      h.store.frames.map (fun f => (f.frame.kind, f.frame.sequence, f.frame.payload)) = [(Kind.sweepQuery, 0, [1])] ∧
      h.agent.sweep.failures = [(1, .notInService), (11, .queryNotSent)] ∧ h.agent.sweep.timeout = 1000 ∧ h.agent.sweep.clamped = true := by
  decide

theorem witness_Transfers :
    ([1, 2, 3, 4, 5] : List Byte).length < 6 ∧
    (let h : Hub := { started with port := { openCount := 8 } }
     8 ≤ h.port.openCount ∧ 6 ≤ ([1, 1, 7, 0, 0, 0] : List Byte).length ∧ State.reset.hub.config.loading = true) ∧
    (let h : Hub := { started with port := { openCount := 7 } }
     h.config.loading = false ∧ h.port.openCount < 8 ∧ 1024 < 1025 ∧
       1 ≠ ([] : List Byte).length) ∧
    (0 : Byte) ≠ Code.writeType ∧ (0 : Byte) ≠ Code.readType ∧ started.port.outbound = [] ∧
    (let m : Message := { resetReply with code := Code.slotAdmit }
     let h : Hub := { started with port := { outbound := [m], openCount := 1 } }
     h.port.outbound = [m] ∧ m.encode.length = 6 ∧ m.code ≠ Code.hubReset) := by decide

theorem witness_NotAccepted :
    (let e := told 0 .control 0x3F 0 [] none
     let h := inbox e started
     h.agent.inbox = [e] ∧ h.formOk e.frame = false) ∧
    (let e := told 0 .control Kind.quiesced 0 [] none
     let h := inbox e started
     h.agent.inbox = [e] ∧ h.formOk e.frame = true ∧ h.accepts e.frame e.slot = false) ∧
    (let h := asked 0xFF [] started
     h.port.inbound = [request 0xFF []] ∧ h.port.resetPending = false ∧ isRequestCode 0xFF = false) ∧
    (∀ row ∈ requestRows, bodyLengthOk row.1 (List.replicate 20 0) = false) ∧
    (∀ slot ∈ [(0 : Byte), 13], bodyLengthOk Code.slotQuery [slot] = true ∧ (fieldAt [slot] 0 1 < 1 ∨ 12 < fieldAt [slot] 0 1)) := by
  decide

theorem witness_ReadingRequests :
    (∀ code ∈ [Code.hubInfo, Code.hubStatus, Code.timingStatus], (asked code [] started).Takes code (request code []) []) ∧
    (∀ code ∈ [Code.slotQuery, Code.slotTimingQuery], (asked code [12] started).TakesFor code (request code [12]) [] 11) ∧
    (∀ start ∈ [(0 : Byte), 63, 64], (asked Code.alarmList [start] started).Takes Code.alarmList (request Code.alarmList [start]) []) ∧
    (∀ i ∈ [(0 : Byte), 31, 32], (asked Code.windowGet [i] started).Takes Code.windowGet (request Code.windowGet [i]) []) ∧
    (∀ g ∈ [(0 : Byte), 1, 16, 17], (asked Code.groupGet [g] started).Takes Code.groupGet (request Code.groupGet [g]) []) :=
  ⟨by decide, by decide, by decide, by decide, by decide⟩

/-- ALARM_TABLE_FULL in position 0, which ALARM_ACK in mode SEVERITY at CRITICAL selects with the rest (R144). -/
theorem witness_AlarmRequests_full :
    let full : AlarmRec := { powerWait with key := .hub .alarmTableFull }
    let h : Hub := asked Code.alarmAck [2, 0, 0, 0, 0, 1] { started with alarms := { full := some full, recs := [powerWait] } }
    h.alarms.full = some full ∧ h.alarms.recs.length < 63 ∧ h.alarms.Legal ∧
      h.ackKeys [2, 0, 0, 0, 0, 1] = some [.hub .alarmTableFull, powerWait.key] ∧
      (after .alarmAck h).alarms.full.any (fun x => x.acked && !x.active) = true := by decide

/-- The pages of a table of nine records and ALARM_TABLE_FULL: eight from position 0 and then position 8 to ask for, and from position 2 the
rest (R155). -/
theorem test_alarm_pages :
    let a : Alarms := { full := some { powerWait with key := .hub .alarmTableFull }, recs := List.replicate 9 powerWait }
    let page (start : Nat) := ({ started with alarms := a } : Hub).alarmListBody start
    (page 0).page.map (·.1) = [0, 1, 2, 3, 4, 5, 6, 7] ∧ (page 0).next = some 8 ∧ (page 2).page.map (·.1) = [2, 3, 4, 5, 6, 7, 8, 9] ∧
      (page 2).next = none ∧ (page 63).page = [] := by decide

theorem witness_GroupSet :
    (let body := [16] ++ be 2 0x1FFE
     (asked Code.groupSet body started).Takes Code.groupSet (request Code.groupSet body) [] ∧ fieldAt body 0 1 = (15 : Fin 16).val + 1 ∧
       fieldAt body 1 2 = (BitVec.allOnes 12 : SlotMask).toNat * 2) ∧
    (∀ body ∈ [[0] ++ be 2 2, [17] ++ be 2 2, [1] ++ be 2 1, [1] ++ be 2 0x2000],
      (asked Code.groupSet body started).Takes Code.groupSet (request Code.groupSet body) [] ∧
        (fieldAt body 0 1 < 1 ∨ 16 < fieldAt body 0 1 ∨ fieldAt body 1 2 % 2 = 1 ∨ 8192 ≤ fieldAt body 1 2)) := by decide

theorem witness_DefaultTargetSet :
    (∀ body ∈ [[(1 : Byte), 0xFF], [2, 12], [3, 16], [0, 1], [4, 1], [2, 0], [2, 13], [3, 0], [3, 17]],
      (asked Code.defaultTargetSet body started).Takes Code.defaultTargetSet (request Code.defaultTargetSet body) []) ∧
    fieldAt [2, 12] 1 1 = (11 : Slot).val + 1 ∧ fieldAt [3, 16] 1 1 = (15 : Fin 16).val + 1 := by decide

theorem witness_PortCounts :
    (∀ body ∈ [[(1 : Byte), 0], [12, 1], [0, 0], [13, 0], [12, 2]],
      (asked Code.portCounts body started).Takes Code.portCounts (request Code.portCounts body) []) ∧
    fieldAt [12, 1] 0 1 = (11 : Slot).val + 1 ∧ fieldAt [12, 1] 1 1 ≤ 1 ∧ 2 ≤ fieldAt [12, 2] 1 1 := by decide

/-- A refused PORT_COUNTS carries the free counts as they stand (R34), whichever of its fields is at fault. -/
theorem test_portCounts_refused :
    ∀ body ∈ [[(0 : Byte), 0], [13, 1], [12, 2]],
      ((after .portCounts (reserveLeft 3 (asked Code.portCounts body started))).port.outbound.getLast?.map fun m => (m.status, m.body)) =
        some (.badParam, .portCountsRefused 0 1984 3) := by decide

theorem witness_RelaySet :
    (∀ body ∈ [[(0 : Byte), 0xFF], [1, 1], [1, 12], [1, 0], [1, 13]],
      (asked Code.relaySet body started).Takes Code.relaySet (request Code.relaySet body) []) ∧
    fieldAt [1, 12] 1 1 = (11 : Slot).val + 1 := by decide

theorem witness_SettingRequests :
    (∀ body ∈ [[(12 : Byte), 1, 1, 6, 1, 4], [12, 0, 0, 0, 0, 3]],
      (asked Code.slotPlanSet body started).TakesFor Code.slotPlanSet (request Code.slotPlanSet body) [] 11 ∧
        (parsePlan (body.drop 1)).isSome = true) ∧
    parsePlan [1, 1, 7, 1, 1] = none ∧
    (∀ watts ∈ [(0 : Nat), 600, 601, 65535],
      let body := be 2 watts ++ be 2 200 ++ be 2 500
      (asked Code.budgetSet body started).Takes Code.budgetSet (request Code.budgetSet body) [] ∧
        started.committed ≤ (parseBudget body).clamp.budget) ∧
    (let h := slotIs 0 { state := .forwarding, powerClass := some .d } (slotIs 1 { state := .forwarding, powerClass := some .d } started)
     (parseBudget (be 2 100 ++ be 2 200 ++ be 2 500)).clamp.budget < h.committed) ∧
    (let body := [31, 1] ++ be 4 0x80000000 ++ [31, 2, 16, 1] ++ be 4 0 ++ [3] ++ be 2 0x1FFE
     (asked Code.windowSet body started).Takes Code.windowSet (request Code.windowSet body) [] ∧ (parseWindow (body.drop 1)).isSome = true ∧
       parseWindow ([1] ++ be 4 0x80000001 ++ [31, 2, 16, 1] ++ be 4 0 ++ [3] ++ be 2 0x1FFE) = none) ∧
    (let body := [12] ++ be 2 16 ++ be 2 1001
     (asked Code.portLimitSet body started).TakesFor Code.portLimitSet (request Code.portLimitSet body) [] 11) ∧
    (∀ a ∈ [(-4001 : Int), -4000, 4000, 4001],
      let body := [12] ++ beInt 2 a
      (asked Code.asymmetrySet body started).TakesFor Code.asymmetrySet (request Code.asymmetrySet body) [] 11 ∧
        toSigned 2 (fieldAt body 1 2) = a) := by decide

theorem witness_TimingRequests :
    (∀ body ∈ [[(1 : Byte), 4, 0, 1, 2, 12], [0, 1, 0], [0, 0]],
      (asked Code.refListSet body started).Takes Code.refListSet (request Code.refListSet body) [] ∧ (parseCandidates body).isSome = true) ∧
    (∀ body ∈ [[(0 : Byte), 2, 1, 1], [0, 1, 13], [2, 0]],
      (asked Code.refListSet body started).Takes Code.refListSet (request Code.refListSet body) [] ∧ parseCandidates body = none) ∧
    (let h := asked Code.refListSet [0, 1, 0] (timingIs locked started)
     (h.timing.cands.any fun c => c.status == .qualified && h.timing.selection == some c.source) = true ∧ h.timing.state = .locked) ∧
    (let body := List.replicate 19 0
     (asked Code.timingSet body started).Takes Code.timingSet (request Code.timingSet body) []) ∧
    (∀ state ∈ [TimingState.freeRun, .holdoverLapsed, .locked],
      let h := asked Code.timeSet (be 6 (2 ^ 48 - 1)) (timingIs { state } started)
      h.Takes Code.timeSet (request Code.timeSet (be 6 (2 ^ 48 - 1))) [] ∧ h.timing.state = state) := by decide

theorem witness_AlarmRequests :
    (let codeByte : Byte := BitVec.ofNat 8 (codeIn alarmKinds .powerWait)
     let h := asked Code.alarmAck [2, 0, 0, 0, 0, 1] { started with alarms := { recs := [powerWait] } }
     h.Takes Code.alarmAck (request Code.alarmAck [2, 0, 0, 0, 0, 1]) [] ∧ h.alarms.Legal ∧ h.alarms.recs.length < 63 ∧
       powerWait.key.kind ≠ .agentOverload ∧ powerWait.acked = false ∧ h.ackKeys [1, 2, codeByte, 0, 0, 0] = some [powerWait.key] ∧
       h.ackKeys [2, 0, 0, 0, 0, 1] = some [powerWait.key] ∧ h.ackKeys [9, 0, 0, 0, 0, 1] = none) ∧
    (asked Code.alarmPurge [] started).Takes Code.alarmPurge (request Code.alarmPurge []) [] ∧
    (∀ kind ∈ [(1 : Byte), 20],
      let body : List Byte := [kind, 1, 1, 0, 1, 1]
      (asked Code.kindSet body started).Takes Code.kindSet (request Code.kindSet body) [] ∧
        ∃ k, ofCode alarmKinds (fieldAt body 0 1) = some k ∧ (parseKindEntry k (body.drop 1)).isSome = true) ∧
    ofCode alarmKinds 0 = none ∧ ofCode alarmKinds 21 = none ∧
    (∀ b ∈ [[(1 : Byte), 5, 1, 1, 1], [0, 0, 1, 4, 1], [0, 0, 1, 2, 1]], ofCode alarmKinds 20 = some .alarmTableFull ∧
      parseKindEntry .alarmTableFull b = none) := by
  refine ⟨by decide, by decide, ?_, by decide, by decide, by decide⟩
  intro kind hk
  simp only [List.mem_cons, List.not_mem_nil, or_false] at hk
  rcases hk with rfl | rfl
  · exact ⟨by decide, .linkErrors, by decide, by decide⟩
  · exact ⟨by decide, .alarmTableFull, by decide, by decide⟩

end Sys2Proof.Tests
end

section
/-! PROOFS. The requests that set a multicast group and the default target (R30, R32). -/

namespace Sys2Proof.Machine

variable {s : State} {h : Hub} {r : Request} {rest : List Request}

/-- A command whose own request is at the head of the inbound queue: its owner acts on the hub that the request has left (R173). -/
theorem State.onHub_take {code : Byte} (ht : s.hub.Takes code r rest) (act : Request → Hub → Hub) :
    s.onHub (Hub.take code act) = .next { s with hub := act r (s.hub.popRequest rest) } := by
  rw [State.onHub, ht.take]

/-- A command that comes to a refusal leaves the EEPROM, the queue of commands, and the hub but for its reply (R176). -/
theorem State.refused_of_next {status : Status} {o : Host.Outcome State Fault Refusal}
    (ho : o = .next { s with hub := (s.hub.popRequest rest).refuse r status }) :
    ∃ t, o = .next t ∧ t.eeprom = s.eeprom ∧ t.pending = s.pending ∧ s.hub.Refused t.hub r rest status :=
  ⟨_, ho, rfl, rfl, _, s.hub.popRequest_refuse r rest status⟩

/-! ## GROUP_SET (R30) -/

theorem exec_groupSet_of_takes (ht : s.hub.Takes Code.groupSet r rest) :
    exec .groupSet s = .next { s with hub := Hub.groupSet r (s.hub.popRequest rest) } :=
  State.onHub_take ht Hub.groupSet

theorem Hub.groupSet_of_valid {g : Fin 16} {mask : SlotMask} (hg : groupOf (fieldAt r.body 0 1) = some g)
    (hm : Mask.ofValue (fieldAt r.body 1 2) = some mask) :
    Hub.groupSet r h = { h with tables := { h.tables with groups := h.tables.groups.set g mask } }.answer r .ok (.groupSet g mask) := by
  simp only [Hub.groupSet, hg, hm]

theorem Hub.groupSet_of_invalid (hn : groupOf (fieldAt r.body 0 1) = none ∨ Mask.ofValue (fieldAt r.body 1 2) = none) :
    Hub.groupSet r h = h.refuse r .badParam := by
  unfold Hub.groupSet
  split
  · next hg hm => simp [hg, hm] at hn
  · rfl

/-- Settles O54: a valid group number and mask parse to themselves and are stored; of an invalid pair one does not parse. -/
theorem groupSet : Obligations.GroupSet := by
  intro s r rest h number value ht
  rw [exec_groupSet_of_takes ht]
  refine ⟨fun g mask hg hm => ?_, fun bad => ?_⟩
  · rw [Hub.groupSet_of_valid (groupOf_val hg) (Mask.ofValue_mask hm)]
    rfl
  · have unparsed : groupOf number = none ∨ Mask.ofValue value = none := by
      rcases bad with low | high | odd | beyond
      · exact .inl (groupOf_none (.inl low))
      · exact .inl (groupOf_none (.inr high))
      · exact .inr (Mask.ofValue_none (.inl odd))
      · exact .inr (Mask.ofValue_none (.inr beyond))
    exact State.refused_of_next (by rw [Hub.groupSet_of_invalid unparsed])

/-! ## DEFAULT_TARGET_SET (R32) -/

theorem parseDefaultTarget_ofKindNone {bs : List Byte} (hk : fieldAt bs 0 1 = 1) : parseDefaultTarget bs = some none := by
  simp only [parseDefaultTarget, hk]

theorem parseDefaultTarget_ofKindSlot {bs : List Byte} (hk : fieldAt bs 0 1 = 2) :
    parseDefaultTarget bs = (Slot.ofNumber (fieldAt bs 1 1)).map fun n => some (.slot n) := by
  simp only [parseDefaultTarget, hk]

theorem parseDefaultTarget_ofKindGroup {bs : List Byte} (hk : fieldAt bs 0 1 = 3) :
    parseDefaultTarget bs = (groupOf (fieldAt bs 1 1)).map fun g => some (.group g) := by
  simp only [parseDefaultTarget, hk]

theorem parseDefaultTarget_ofKindUnknown {bs : List Byte} (hk : fieldAt bs 0 1 < 1 ∨ 3 < fieldAt bs 0 1) :
    parseDefaultTarget bs = none := by
  unfold parseDefaultTarget
  split
  case h_4 => rfl
  all_goals omega

theorem exec_defaultTargetSet_of_takes (ht : s.hub.Takes Code.defaultTargetSet r rest) :
    exec .defaultTargetSet s = .next { s with hub := Hub.defaultTargetSet r (s.hub.popRequest rest) } :=
  State.onHub_take ht Hub.defaultTargetSet

theorem Hub.defaultTargetSet_of_valid {target : DefaultTarget} (hp : parseDefaultTarget r.body = some target) :
    Hub.defaultTargetSet r h =
      { h with tables := { h.tables with defaultTarget := target } }.answer r .ok (.defaultTarget h.tables.defaultTarget target) := by
  simp only [Hub.defaultTargetSet, hp]

theorem Hub.defaultTargetSet_of_invalid (hp : parseDefaultTarget r.body = none) :
    Hub.defaultTargetSet r h = h.refuse r .badParam := by
  simp only [Hub.defaultTargetSet, hp]

/-- Settles O55: the body parses to the target that its kind and number name, which is stored, or does not parse and is refused. -/
theorem defaultTargetSet : Obligations.DefaultTargetSet := by
  intro s r rest h kind number sets ht
  have exec_eq := exec_defaultTargetSet_of_takes ht
  have sets_of_parse (target : DefaultTarget) (hp : parseDefaultTarget r.body = some target) : sets target :=
    ⟨_, by rw [exec_eq, Hub.defaultTargetSet_of_valid hp]; rfl, rfl, rfl⟩
  refine ⟨fun hk => ?_, fun n hk hn => ?_, fun g hk hg => ?_, fun bad => ?_⟩
  · exact sets_of_parse none (parseDefaultTarget_ofKindNone hk)
  · exact sets_of_parse _ (by rw [parseDefaultTarget_ofKindSlot hk, Slot.ofNumber_val hn]; rfl)
  · exact sets_of_parse _ (by rw [parseDefaultTarget_ofKindGroup hk, groupOf_val hg]; rfl)
  · have unparsed : parseDefaultTarget r.body = none := by
      rcases bad with low | high | ⟨hk, hn⟩ | ⟨hk, hg⟩
      · exact parseDefaultTarget_ofKindUnknown (.inl low)
      · exact parseDefaultTarget_ofKindUnknown (.inr high)
      · rw [parseDefaultTarget_ofKindSlot hk, Slot.ofNumber_none hn]; rfl
      · rw [parseDefaultTarget_ofKindGroup hk, groupOf_none hg]; rfl
    exact State.refused_of_next (by rw [exec_eq, Hub.defaultTargetSet_of_invalid unparsed])

end Sys2Proof.Machine
end

section
/-! PROOFS. The request that sets the relay slot (R154). -/

namespace Sys2Proof.Machine

variable {s : State} {h : Hub} {r : Request} {rest : List Request}

theorem optOf_absent {α : Type} (value : Option α) : optOf 0 value = some none := rfl

theorem optOf_present {α : Type} (value : Option α) : optOf 1 value = value.map some := rfl

theorem parseRelay_ofFlagClear {bs : List Byte} (hf : fieldAt bs 0 1 = 0) : parseRelay bs = some none := by
  rw [parseRelay, hf, optOf_absent]

theorem parseRelay_ofFlagSet {bs : List Byte} (hf : fieldAt bs 0 1 = 1) :
    parseRelay bs = (Slot.ofNumber (fieldAt bs 1 1)).map some := by
  rw [parseRelay, hf, optOf_present]

theorem exec_relaySet_of_takes (ht : s.hub.Takes Code.relaySet r rest) :
    exec .relaySet s = .next { s with hub := Hub.relaySet r (s.hub.popRequest rest) } :=
  State.onHub_take ht Hub.relaySet

theorem Hub.relaySet_of_valid {relay : Option Slot} (hp : parseRelay r.body = some relay) :
    Hub.relaySet r h =
      { h with tables := { h.tables with relay } }.answer r .ok
        (.relaySet h.tables.relay relay (relay.map fun (n : Slot) => h.slots[n].state)) := by
  simp only [Hub.relaySet, hp]

theorem Hub.relaySet_of_invalid (hp : parseRelay r.body = none) : Hub.relaySet r h = h.refuse r .badParam := by
  simp only [Hub.relaySet, hp]

/-- Settles O57: the body parses to no slot or to the slot of its number, which is stored, or does not parse and is refused. -/
theorem relaySet : Obligations.RelaySet := by
  intro s r rest h flag number sets ht
  have exec_eq := exec_relaySet_of_takes ht
  have sets_of_parse (relay : Option Slot) (hp : parseRelay r.body = some relay) :
      sets relay (relay.map fun (n : Slot) => h.slots[n].state) := by
    show exec .relaySet s = _
    rw [exec_eq, Hub.relaySet_of_valid hp]
    rfl
  refine ⟨fun clear => ?_, fun n set hn => ?_, fun ⟨set, outside⟩ => ?_⟩
  · exact sets_of_parse none (parseRelay_ofFlagClear clear)
  · exact sets_of_parse (some n) (by rw [parseRelay_ofFlagSet set, Slot.ofNumber_val hn]; rfl)
  · have unparsed : parseRelay r.body = none := by
      rw [parseRelay_ofFlagSet set, Slot.ofNumber_none outside]; rfl
    exact State.refused_of_next (by rw [exec_eq, Hub.relaySet_of_invalid unparsed])

end Sys2Proof.Machine
end

section
/-! PROOFS. What every command keeps, through the elementary moves: a property that looks at nothing but the records that the moves
change is kept by every effect of a command when each move keeps it and a reset brings it about. -/

namespace Sys2Proof.Machine

theorem Hub.saveDone_eq (h : Hub) (save : Save) (result : Option SaveFault × Nat) :
    h.saveDone save result =
      let g := { h with config := { h.config with save := none } }.raiseIf result.1.isSome (.hub .configSaveFailed)
      if save.replyDue then g.reply save.tag Code.configSave .ok (.configSave result.1 result.2) else g := rfl

/-- A property of the hub that every elementary move keeps, that looks at no part of the host port, the configuration store, the
sweep context and the pending time setting, that new settings keep under what `Hub.Effect` says of them, and a load where `start` holds, and
that a reset brings about. -/
structure Hub.Kept (start P : Hub → Prop) : Prop where
  move : ∀ {h g : Hub}, Hub.Move false h g → P h → P g
  outside : ∀ (h : Hub) (port : HostPort) (config : ConfigStore) (sweep : Sweep) (pendingTime : Option Nat), P h →
    P { h with port, config, timing := { h.timing with pendingTime }, agent := { h.agent with sweep } }
  settings : ∀ (h : Hub) (tables : Tables), (h.tables.Legal → tables.Legal) → (h.WithinBudget → h.committed ≤ tables.budget) → P h →
    P { h with tables }
  load : ∀ (h : Hub) (tables : Tables) (cands : List Candidate), start h → h.config.loading = true → (h.tables.Legal → tables.Legal) →
    (h.timing.ListLegal → ({ h.timing with cands } : Timing).ListLegal) → P h →
    P { h with tables, timing := { h.timing with cands } }
  reset : ∀ (h : Hub) (kind : ResetKind) (strap : Bool), P (h.afterReset kind strap)

section

variable {start P : Hub → Prop} (hP : Hub.Kept start P)

include hP

theorem Hub.Kept.moves {strict : Bool} {h g : Hub} (m : Hub.MovesWith strict h g) (hh : P h) :
    P g := by
  induction m with
  | refl => exact hh
  | tail _ m ih =>
    refine hP.move ?_ ih
    cases strict with
    | true => exact m.loose
    | false => exact m

/-- Every effect of a command keeps such a property. -/
theorem Hub.Kept.effect {h g : Hub} (e : Hub.Effect h g) (hs : start h) (hh : P h) : P g := by
  have outside (k : Hub) (port : HostPort) (config : ConfigStore) (hk : P k) : P { k with port, config } :=
    hP.outside k port config k.agent.sweep k.timing.pendingTime hk
  cases e with
  | moves m => exact hP.moves m hh
  | answered r rest status body t hi ht hb m =>
    exact outside _ _ _ (hP.moves m (hP.settings _ t ht hb (outside h _ h.config hh)))
  | resetAccepted r rest hi => exact outside h _ h.config hh
  | sweepTaken r rest w hi hold hw m hg =>
    have hg' := hP.moves m (hP.outside h _ h.config w h.timing.pendingTime hh)
    exact hP.moves (Hub.endSweepIfDone_moves (strict := true) _ hg.1) hg'
  | saveTaken r rest save hi hs hd => exact outside h _ _ hh
  | saveEnded save result hs =>
    have hraised := hP.moves (Hub.raiseIf_moves (strict := true) _ result.1.isSome (.hub .configSaveFailed))
      (outside h h.port { h.config with save := none } hh)
    rw [Hub.saveDone_eq]
    simp only
    split
    · exact outside _ _ _ hraised
    · exact hraised
  | loaded t cands c hl ht hc hsave m => exact hP.moves m (outside _ h.port c (hP.load h t cands hs hl ht hc hh))
  | written bs => exact outside h _ h.config hh
  | driven bs => exact outside h _ h.config hh
  | read bs m rest ho => exact outside h _ h.config hh
  | reset g kind strap => exact hP.reset g kind strap
  | hostPortReset => exact hP.outside h _ _ _ _ hh

end

/-! ## The records (R1, R37, R44, R98, R118) -/

theorem Hub.kept_clockLegal : Hub.Kept (fun _ => True) fun h => h.clock.now.Legal where
  move m hh := by
    cases m with
    | clock c hc => exact hc hh
    | join n hn hs => rw [Hub.join_frame]; exact hh
    | _ => exact hh
  outside _ _ _ _ _ hh := hh
  settings _ _ _ _ hh := hh
  load _ _ _ _ _ _ _ hh := hh
  reset _ _ _ := (by decide : ({} : Clock).now.Legal)

theorem Hub.kept_linksLegal : Hub.Kept (fun _ => True) fun h => ∀ n : Slot, h.links[n].Legal where
  move m hh := by
    cases m with
    | links v hv => exact fun n => hv n (hh n)
    | join n hn hs => rw [Hub.join_frame]; exact hh
    | _ => exact hh
  outside _ _ _ _ _ hh := hh
  settings _ _ _ _ hh := hh
  load _ _ _ _ _ _ _ hh := hh
  reset _ _ _ := (by decide : ∀ n : Slot, ({} : Hub).links[n].Legal)

theorem Hub.kept_portsLegal : Hub.Kept (fun _ => True) fun h => ∀ n : Slot, h.ports[n].Legal where
  move m hh := by
    cases m with
    | ports v hv => exact fun n => hv n (hh n)
    | join n hn hs => rw [Hub.join_frame]; exact hh
    | _ => exact hh
  outside _ _ _ _ _ hh := hh
  settings _ _ _ _ hh := hh
  load _ _ _ _ _ _ _ hh := hh
  reset _ _ _ := (by decide : ∀ n : Slot, ({} : Hub).ports[n].Legal)

theorem Hub.kept_trecsLegal : Hub.Kept (fun _ => True) fun h => ∀ n : Slot, h.trecs[n].Legal where
  move m hh := by
    cases m with
    | trecs v hv => exact fun n => hv n (hh n)
    | join n hn hs => rw [Hub.join_frame]; exact hh
    | _ => exact hh
  outside _ _ _ _ _ hh := hh
  settings _ _ _ _ hh := hh
  load _ _ _ _ _ _ _ hh := hh
  reset _ _ _ := (by decide : ∀ n : Slot, ({} : Hub).trecs[n].Legal)

theorem Hub.kept_storeLegal : Hub.Kept (fun _ => True) fun h => h.store.Legal where
  move m hh := by
    cases m with
    | store st hs => exact hs hh
    | join n hn hs => rw [Hub.join_frame]; exact hh
    | _ => exact hh
  outside _ _ _ _ _ hh := hh
  settings _ _ _ _ hh := hh
  load _ _ _ _ _ _ _ hh := hh
  reset _ _ _ := (by decide : ({} : Store).Legal)

theorem Hub.kept_alarmsLegal : Hub.Kept (fun _ => True) fun h => h.alarms.Legal where
  move m hh := by
    cases m with
    | alarms a ha => exact ha hh
    | join n hn hs => rw [Hub.join_frame]; exact hh
    | _ => exact hh
  outside _ _ _ _ _ hh := hh
  settings _ _ _ _ hh := hh
  load _ _ _ _ _ _ _ hh := hh
  reset _ _ _ := (by decide : ({} : Alarms).Legal)

/-- Settles O7: each of the records is kept in its range by every move, and the EEPROM's form by every command. -/
theorem recordsStayLegal : Obligations.RecordsStayLegal := by
  intro s t hst
  obtain ⟨hmem, e⟩ := step_effect s t hst
  exact ⟨hmem, Hub.kept_clockLegal.effect e trivial, Hub.kept_linksLegal.effect e trivial, Hub.kept_portsLegal.effect e trivial,
    Hub.kept_trecsLegal.effect e trivial⟩

/-! ## The wait list and the outputs of the slots (R55, R62, R63) -/

theorem Hub.WaitListLegal.slots {h : Hub} (hw : h.WaitListLegal) (v : Vector SlotRec 12)
    (hv : ∀ n : Slot, (h.slots[n]).Goes (n ∈ h.manager.waitList) v[n]) : Hub.WaitListLegal { h with slots := v } := by
  refine ⟨hw.1, fun n => ⟨fun hn => (hv n).wait hn ((hw.2 n).1 hn), ?_⟩⟩
  show v[n].waitStart.isSome ↔ _
  rw [(hv n).waitStart]
  exact (hw.2 n).2

theorem Hub.WaitListLegal.join {h : Hub} (hw : h.WaitListLegal) {n : Slot} (hn : n ∉ h.manager.waitList)
    (hs : h.slots[n].state = .seated) : (h.join n).WaitListLegal := by
  obtain ⟨hself, hother, hlist⟩ := h.join_slot n hn
  refine ⟨by rw [hlist, ← List.concat_eq_append]; exact hw.1.concat hn, fun m => ?_⟩
  rw [hlist]
  by_cases hm : m = n
  · subst hm
    rw [hself]
    simpa [SlotRec.waiting] using hs
  · rw [hother m hm]
    simpa [hm] using hw.2 m

theorem Hub.WaitListLegal.unjoin {h : Hub} (hw : h.WaitListLegal) (n : Slot) : (h.unjoin n).WaitListLegal := by
  refine ⟨hw.1.filter _, fun m => ?_⟩
  have hlist : (h.unjoin n).manager.waitList = h.manager.waitList.filter (· != n) := rfl
  rw [hlist]
  unfold Hub.unjoin
  rw [Hub.modSlot_slots]
  by_cases hm : n = m
  · subst hm
    simp
  · simpa [hm, Ne.symm hm] using hw.2 m

theorem Hub.WaitListLegal.grant {h : Hub} (hw : h.WaitListLegal) (n : Slot) : (h.grant n).WaitListLegal := by
  refine ⟨by rw [Hub.grant_waitList]; exact hw.1.filter _, fun m => ?_⟩
  rw [Hub.grant_waitList]
  by_cases hm : n = m
  · subst hm
    rw [Hub.grant_slot]
    simp [Hub.powered, SlotRec.notWaiting]
  · rw [Hub.grant_other _ _ _ hm]
    simpa [hm, Ne.symm hm] using hw.2 m

theorem Hub.kept_waitListLegal : Hub.Kept (fun _ => True) Hub.WaitListLegal where
  move m hh := by
    cases m with
    | slots v hv => exact hh.slots v hv
    | join n hn hs => exact hh.join hn hs
    | unjoin n => exact hh.unjoin n
    | grant n hn hb => exact hh.grant n
    | manager m hm => exact ⟨by rw [hm]; exact hh.1, by rw [hm]; exact hh.2⟩
    | _ => exact hh
  outside _ _ _ _ _ hh := hh
  settings _ _ _ _ hh := hh
  load _ _ _ _ _ _ _ hh := hh
  reset h kind strap := ⟨List.nodup_nil, fun n => by simp [Hub.afterReset, SlotRec.afterReset]⟩

/-- Settles O9: each move keeps the list without repeats, of SEATED slots, and with it the wait starts. -/
theorem waitListStaysLegal : Obligations.WaitListStaysLegal :=
  fun s t hst => Hub.kept_waitListLegal.effect (step_effect s t hst).2 trivial

theorem Hub.kept_outputsLegal : Hub.Kept (fun _ => True) fun h => h.WaitListLegal ∧ h.OutputsLegal where
  move m hh := by
    obtain ⟨hw, ho⟩ := hh
    refine ⟨Hub.kept_waitListLegal.move m hw, ?_⟩
    cases m with
    | slots v hv => exact fun n => (hv n).outputs (ho n)
    | join n hn hs =>
      obtain ⟨hself, hother, -⟩ := Hub.join_slot _ n hn
      intro m
      by_cases hm : m = n
      · subst hm; rw [hself]; exact ho m
      · rw [hother m hm]; exact ho m
    | unjoin n =>
      intro m
      unfold Hub.unjoin
      rw [Hub.modSlot_slots]
      split
      · exact ho n
      · exact ho m
    | grant n hn hb =>
      intro m
      by_cases hm : n = m
      · subst hm
        have hseated := (hw.2 n).1 hn
        obtain ⟨-, hrst, hsafe⟩ := ho n
        rw [Hub.grant_slot]
        rw [hseated] at hrst hsafe
        simp only [Hub.powered, SlotRec.notWaiting, SlotRec.entering]
        split <;> exact ⟨rfl, hrst, hsafe⟩
      · rw [Hub.grant_other _ _ _ hm]; exact ho m
    | _ => exact ho
  outside _ _ _ _ _ hh := hh
  settings _ _ _ _ hh := hh
  load _ _ _ _ _ _ _ hh := hh
  reset h kind strap := ⟨Hub.kept_waitListLegal.reset h kind strap, fun n => by
    simp only [Hub.afterReset, Fin.getElem_fin, mapEach_get]
    exact ⟨rfl, rfl, rfl⟩⟩

/-- Settles O8: a slot's outputs change with its state, and a slot that is given power was SEATED. -/
theorem outputsStayLegal : Obligations.OutputsStayLegal :=
  fun s t hst hw ho => (Hub.kept_outputsLegal.effect (step_effect s t hst).2 trivial ⟨hw, ho⟩).2

/-! ## Committed power (R61, R63) -/

/-- What slot `n` counts in committed power. -/
def SlotRec.load (r : SlotRec) : Nat := if r.state.powered then r.watts else 0

theorem Hub.committed_eq (h : Hub) : h.committed = (allSlots.map fun n => h.slots[n].load).sum := rfl

theorem SlotRec.Goes.load_le {waiting : Prop} {r r' : SlotRec} (hg : r.Goes waiting r') : r'.load ≤ r.load := by
  unfold SlotRec.load
  by_cases hp : r'.state.powered = true
  · obtain ⟨hold, hclass⟩ := hg.power hp
    simp [hp, hold, SlotRec.watts, hclass]
  · simp [hp]

theorem Hub.committed_le {h g : Hub} (hl : ∀ n : Slot, g.slots[n].load ≤ h.slots[n].load) : g.committed ≤ h.committed :=
  List.sum_le_sum fun n _ => hl n

/-- Giving one slot power adds no more than its wattage. -/
theorem Hub.committed_grant (h : Hub) (n : Slot) : (h.grant n).committed ≤ h.committed + h.slots[n].watts := by
  have hload (m : Slot) : (h.grant n).slots[m].load ≤ h.slots[m].load + if m = n then h.slots[n].watts else 0 := by
    by_cases hm : n = m
    · subst hm
      rw [Hub.grant_slot, if_pos rfl]
      unfold SlotRec.load
      split
      · exact Nat.le_add_left _ _
      · exact Nat.zero_le _
    · rw [Hub.grant_other _ _ _ hm]
      exact Nat.le_add_right _ _
  have hone : (allSlots.map fun m => if m = n then h.slots[n].watts else 0).sum = h.slots[n].watts := by
    rw [← List.sum_toFinset _ allSlots_nodup, Finset.sum_ite_eq' allSlots.toFinset n fun _ => h.slots[n].watts,
      if_pos (List.mem_toFinset.mpr (mem_allSlots n))]
  calc (h.grant n).committed
      ≤ (allSlots.map fun m => h.slots[m].load + if m = n then h.slots[n].watts else 0).sum := List.sum_le_sum fun m _ => hload m
    _ = h.committed + h.slots[n].watts := by rw [List.sum_map_add, hone, Hub.committed_eq]

theorem Hub.committed_eq_zero {h : Hub} (he : ∀ n : Slot, h.slots[n].state = .empty) : h.committed = 0 := by
  rw [Hub.committed_eq]
  simp only [SlotRec.load, he]
  simp [SlotState.powered]

theorem Hub.kept_withinBudget : Hub.Kept Hub.StartUpLegal Hub.WithinBudget where
  move {h g} m hh := by
    cases m with
    | slots v hv => exact (Hub.committed_le fun n => (hv n).load_le).trans hh
    | join n hn hs =>
      obtain ⟨hself, hother, -⟩ := Hub.join_slot _ n hn
      have htables : (h.join n).tables = h.tables := by rw [Hub.join_frame]
      unfold Hub.WithinBudget
      rw [htables]
      refine (Hub.committed_le fun m => ?_).trans hh
      by_cases hm : m = n
      · subst hm; rw [hself]; exact Nat.le_refl _
      · rw [hother m hm]
    | unjoin n =>
      refine (Hub.committed_le fun m => ?_).trans hh
      unfold Hub.unjoin
      rw [Hub.modSlot_slots]
      split
      · next hm => subst hm; exact Nat.le_refl _
      · exact Nat.le_refl _
    | grant n hn hb => exact (h.committed_grant n).trans hb
    | _ => exact hh
  outside _ _ _ _ _ hh := hh
  settings h t _ hb hh := hb hh
  load h t cands hs hl _ _ _ := by
    have hzero : ({ h with tables := t, timing := { h.timing with cands } } : Hub).committed = 0 :=
      Hub.committed_eq_zero fun n => ((hs.1 hl).1 n).1
    unfold Hub.WithinBudget
    rw [hzero]
    exact Nat.zero_le _
  reset h kind strap := by
    have hzero : (h.afterReset kind strap).committed = 0 := Hub.committed_eq_zero fun n => by
      simp [Hub.afterReset, SlotRec.afterReset]
    unfold Hub.WithinBudget
    rw [hzero]
    exact Nat.zero_le _

/-- Settles O10: only the service of the list gives power, to a slot that fits; while the load runs nothing is powered. -/
theorem powerStaysWithinBudget : Obligations.PowerStaysWithinBudget :=
  fun s t hst hs hb => Hub.kept_withinBudget.effect (step_effect s t hst).2 hs hb

/-! ## The selection and the settings (R100, R105, section 11.1) -/

theorem Hub.kept_selectionLegal : Hub.Kept Hub.StartUpLegal fun h => h.timing.ListLegal ∧ h.timing.SelectionLegal where
  move m hh := by
    cases m with
    | timing t hs hl => exact ⟨hl hh.1, hs hh.2⟩
    | join n hn hs => rw [Hub.join_frame]; exact hh
    | _ => exact hh
  outside _ _ _ _ _ hh := hh
  settings _ _ _ _ hh := hh
  load h t cands hs hl _ hc hh := by
    obtain ⟨-, -, -, hnone⟩ := hs.1 hl
    exact ⟨hc hh.1, fun hsome => by rw [hnone] at hsome; cases hsome⟩
  reset _ _ _ := (by decide : ({} : Timing).ListLegal ∧ ({} : Timing).SelectionLegal)

/-- Settles O13: each move of the Timing Unit keeps both, and a load finds nothing selected. -/
theorem selectionStaysLegal : Obligations.SelectionStaysLegal :=
  fun s t hst hs hlist hsel => Hub.kept_selectionLegal.effect (step_effect s t hst).2 hs ⟨hlist, hsel⟩

theorem Tables.default_legal : ({} : Tables).Legal := by
  have windows : ∀ i : Fin 32, ({} : Tables).windows[i] = ({} : Window) := fun i => by simp
  refine ⟨by decide, by decide, by decide, by decide, fun i => ?_, by decide, by decide, by decide, by decide⟩
  rw [windows i]
  exact ⟨by decide, by decide, by simp, by simp, by decide⟩

theorem Hub.kept_tablesLegal : Hub.Kept (fun _ => True) fun h => h.tables.Legal where
  move m hh := by
    cases m with
    | join n hn hs => rw [Hub.join_frame]; exact hh
    | _ => exact hh
  outside _ _ _ _ _ hh := hh
  settings _ _ ht _ hh := ht hh
  load _ _ _ _ _ ht _ hh := ht hh
  reset _ _ _ := Tables.default_legal

/-- Settles O14: no move touches the settings, and what a request or a load sets is within its range. -/
theorem settingsStayLegal : Obligations.SettingsStayLegal :=
  fun s t hst ht => Hub.kept_tablesLegal.effect (step_effect s t hst).2 trivial ht

/-! ## The queues of the host port and the agent's inbox (R156, R170 to R175) -/

/-- The open requests but for `taken` that an event in progress has taken from the inbound queue and has not answered yet. -/
def Hub.OpenLegal (taken : Nat) (h : Hub) : Prop :=
  h.port.openCount = h.port.inbound.length + h.port.replies + h.deferred + taken ∧ h.port.openCount ≤ 8

theorem Hub.OpenLegal.answer {h : Hub} {taken : Nat} (ho : h.OpenLegal (taken + 1)) (r : Request) (status : Status) (body : Body) :
    (h.answer r status body).OpenLegal taken := by
  have hreplies := h.port.reply_replies r.tag r.code status body
  obtain ⟨hcount, hmax⟩ := ho
  refine ⟨?_, hmax⟩
  show h.port.openCount = h.port.inbound.length + (h.port.reply r.tag r.code status body).replies + h.deferred + taken
  omega

theorem Hub.OpenLegal.pop {h : Hub} {r : Request} {rest : List Request} (ho : h.OpenLegal 0) (hi : h.port.inbound = r :: rest) :
    (h.popRequest rest).OpenLegal 1 := by
  obtain ⟨hcount, hmax⟩ := ho
  refine ⟨?_, hmax⟩
  rw [hi, List.length_cons] at hcount
  show h.port.openCount = rest.length + h.port.replies + h.deferred + 1
  omega

theorem Hub.OpenLegal.endSweep {h : Hub} {taken : Nat} (ho : h.OpenLegal taken) (hf : h.agent.sweep.inFlight = true) :
    h.endSweep.OpenLegal taken := by
  obtain ⟨hcount, hmax⟩ := ho
  have hreplies := h.port.reply_replies h.agent.sweep.tag Code.sweep (if h.agent.sweep.clamped then .clamped else .ok)
    (.sweep h.agent.sweep.body)
  refine ⟨?_, hmax⟩
  unfold Hub.deferred at hcount
  rw [if_pos hf] at hcount
  show h.port.openCount = h.port.inbound.length + (h.port.reply _ _ _ _).replies +
    (0 + if h.config.save.any (·.replyDue) then 1 else 0) + taken
  omega

/-- Each move keeps the account of the open requests; the end of a sweep puts a reply in the place of a deferred one. -/
theorem Hub.Move.openLegal {strict : Bool} {taken : Nat} {h g : Hub} (m : Hub.Move strict h g) (ho : h.OpenLegal taken) :
    g.OpenLegal taken := by
  cases m with
  | join n hn hs => rw [Hub.join_frame]; exact ho
  | agent a hs hi =>
    unfold Hub.OpenLegal Hub.deferred at ho ⊢
    simp only [hs]
    exact ho
  | sweep w hf hw =>
    unfold Hub.OpenLegal Hub.deferred at ho ⊢
    simp only [Hub.setSweep, hf]
    exact ho
  | endSweep hf => exact ho.endSweep hf
  | notice code body =>
    unfold Hub.OpenLegal Hub.deferred at ho ⊢
    simp only [Hub.notice_port, HostPort.notice_openCount, HostPort.notice_inbound, HostPort.notice_replies]
    exact ho
  | _ => exact ho

theorem Hub.MovesWith.openLegal {strict : Bool} {taken : Nat} {h g : Hub} (m : Hub.MovesWith strict h g) (ho : h.OpenLegal taken) :
    g.OpenLegal taken := by
  induction m with
  | refl => exact ho
  | tail _ m ih => exact m.openLegal ih

theorem HostPort.write_openLegal (h : Hub) (bs : List Byte) (ho : h.OpenLegal 0) :
    Hub.OpenLegal 0 { h with port := h.port.write h.config.loading bs } := by
  obtain ⟨hcount, hmax⟩ := ho
  unfold HostPort.write
  split
  · exact ⟨hcount, hmax⟩
  · split
    · exact ⟨hcount, hmax⟩
    · next hroom =>
      simp only [Bool.or_eq_true, decide_eq_true_eq, not_or] at hroom
      split
      · refine ⟨?_, by simp only; omega⟩
        simp only [Hub.deferred, HostPort.replies, List.length_append, List.length_singleton] at hcount ⊢
        omega
      · refine ⟨?_, by simp only [HostPort.reply]; omega⟩
        simp only [Hub.deferred, HostPort.reply_replies] at hcount ⊢
        simp only [HostPort.reply, HostPort.replies] at hcount ⊢
        omega

theorem Hub.Effect.openLegal {h g : Hub} (e : Hub.Effect h g) (ho : h.OpenLegal 0) : g.OpenLegal 0 := by
  cases e with
  | moves m => exact m.openLegal ho
  | answered r rest status body t hi ht hb m =>
    have hset : Hub.OpenLegal 1 { h.popRequest rest with tables := t } := ho.pop hi
    exact (m.openLegal hset).answer r status body
  | resetAccepted r rest hi => exact (ho.pop hi).answer r .ok .empty
  | sweepTaken r rest w hi hold hw m hg =>
    have htaken : ((h.popRequest rest).setSweep w).OpenLegal 0 := by
      have hpop := ho.pop hi
      unfold Hub.OpenLegal Hub.deferred at hpop ⊢
      cases hsave : h.config.save.any (·.replyDue) <;>
        simp [Hub.setSweep, HostPort.replies, hold, hw, hsave] at hpop ⊢ <;> omega
    exact (Hub.endSweepIfDone_moves (strict := false) _ hg.1).openLegal (m.openLegal htaken)
  | saveTaken r rest save hi hs hd =>
    obtain ⟨hcount, hmax⟩ := ho.pop hi
    refine ⟨?_, hmax⟩
    unfold Hub.deferred at hcount ⊢
    simp only [Hub.popRequest_config, Hub.popRequest_agent, hs, hd, Option.any_none, Option.any_some, Bool.false_eq_true, if_false,
      if_true] at hcount ⊢
    simp only [Hub.popRequest] at hcount ⊢
    omega
  | saveEnded save result hs =>
    have hidle : Hub.OpenLegal (if save.replyDue then 1 else 0) { h with config := { h.config with save := none } } := by
      obtain ⟨hcount, hmax⟩ := ho
      refine ⟨?_, hmax⟩
      unfold Hub.deferred at hcount ⊢
      simp only [hs, Option.any_none, Option.any_some, Bool.false_eq_true, if_false] at hcount ⊢
      omega
    have hraised := (Hub.raiseIf_moves (strict := true) _ result.1.isSome (.hub .configSaveFailed)).openLegal hidle
    rw [Hub.saveDone_eq]
    simp only
    split
    · next hd =>
      rw [if_pos hd] at hraised
      exact hraised.answer { kind := 1, code := Code.configSave, tag := save.tag, flags := 0, body := [] } .ok _
    · next hd =>
      rw [if_neg hd] at hraised
      exact hraised
  | loaded t cands c hl ht hc hsave m =>
    refine m.openLegal ?_
    unfold Hub.OpenLegal Hub.deferred at ho ⊢
    simp only [hsave]
    exact ho
  | written bs => exact HostPort.write_openLegal h bs ho
  | driven bs => exact ho
  | read bs m rest hout =>
    obtain ⟨hcount, hmax⟩ := ho
    unfold Hub.OpenLegal
    simp only [Hub.deferred, HostPort.replies, hout, List.filter_cons] at hcount ⊢
    split at hcount
    · next hr =>
      rw [if_pos hr, List.length_cons] at *
      omega
    · next hr =>
      rw [if_neg hr] at *
      omega
  | reset g kind strap => exact ⟨rfl, Nat.zero_le _⟩
  | hostPortReset =>
    refine ⟨?_, Nat.zero_le _⟩
    have hsweep : h.agent.sweep.drop.inFlight = false := by
      unfold Sweep.drop
      split
      · rfl
      · next hf => exact Bool.eq_false_iff.mpr hf
    have hsave : (h.config.save.map fun save => { save with replyDue := false }).any (·.replyDue) = false := by
      cases h.config.save <;> rfl
    simp only [Hub.hostPortReset, Hub.deferred, hsweep, hsave]
    rfl

theorem Hub.Move.queuesLegal {strict : Bool} {h g : Hub} (m : Hub.Move strict h g) (hq : h.QueuesLegal) : g.QueuesLegal := by
  obtain ⟨hnotices, hinbox⟩ := hq
  cases m with
  | join n hn hs => rw [Hub.join_frame]; exact ⟨hnotices, hinbox⟩
  | agent a hs hi => exact ⟨hnotices, hi hinbox⟩
  | endSweep hf => exact ⟨(HostPort.reply_notices _ _ _ _ _).trans_le hnotices, hinbox⟩
  | notice code body => exact ⟨h.port.notice_notices_le code body hnotices, hinbox⟩
  | _ => exact ⟨hnotices, hinbox⟩

theorem Hub.MovesWith.queuesLegal {strict : Bool} {h g : Hub} (m : Hub.MovesWith strict h g) (hq : h.QueuesLegal) :
    g.QueuesLegal := by
  induction m with
  | refl => exact hq
  | tail _ m ih => exact m.queuesLegal ih

theorem HostPort.write_notices (p : HostPort) (loading : Bool) (bs : List Byte) : (p.write loading bs).notices = p.notices := by
  unfold HostPort.write
  split
  · rfl
  · split
    · rfl
    · split
      · rfl
      · exact HostPort.reply_notices _ _ _ _ _

theorem Hub.reply_queuesLegal {h : Hub} (hq : h.QueuesLegal) (tag code : Byte) (status : Status) (body : Body) :
    (h.reply tag code status body).QueuesLegal :=
  ⟨(HostPort.reply_notices _ _ _ _ _).trans_le hq.1, hq.2⟩

theorem Hub.Effect.queuesLegal {h g : Hub} (e : Hub.Effect h g) (hq : h.QueuesLegal) : g.QueuesLegal := by
  cases e with
  | moves m => exact m.queuesLegal hq
  | answered r rest status body t hi ht hb m =>
    have hset : Hub.QueuesLegal { h.popRequest rest with tables := t } := hq
    exact Hub.reply_queuesLegal (m.queuesLegal hset) _ _ _ _
  | resetAccepted r rest hi =>
    have hpop : (h.popRequest rest).QueuesLegal := hq
    exact Hub.reply_queuesLegal hpop r.tag r.code .ok .empty
  | sweepTaken r rest w hi hold hw m hg =>
    have htaken : ((h.popRequest rest).setSweep w).QueuesLegal := hq
    exact (Hub.endSweepIfDone_moves (strict := false) _ hg.1).queuesLegal (m.queuesLegal htaken)
  | saveTaken r rest save hi hs hd => exact hq
  | saveEnded save result hs =>
    have hidle : Hub.QueuesLegal { h with config := { h.config with save := none } } := hq
    have hraised := (Hub.raiseIf_moves (strict := true) _ result.1.isSome (.hub .configSaveFailed)).queuesLegal hidle
    rw [Hub.saveDone_eq]
    simp only
    split
    · exact Hub.reply_queuesLegal hraised _ _ _ _
    · exact hraised
  | loaded t cands c hl ht hc hsave m =>
    have hset : Hub.QueuesLegal { h with tables := t, timing := { h.timing with cands }, config := c } := hq
    exact m.queuesLegal hset
  | written bs => exact ⟨(HostPort.write_notices _ _ _).trans_le hq.1, hq.2⟩
  | driven bs => exact hq
  | read bs m rest hout =>
    refine ⟨le_trans ?_ hq.1, hq.2⟩
    simp only [HostPort.notices, hout]
    exact ((List.sublist_cons_self m rest).filter _).length_le
  | reset g kind strap => exact ⟨Nat.zero_le _, Nat.zero_le _⟩
  | hostPortReset => exact ⟨Nat.zero_le _, hq.2⟩

/-- Settles O15: a request taken is answered or deferred, a deferred one is answered once, and only a read takes a reply away. -/
theorem queuesStayLegal : Obligations.QueuesStayLegal :=
  fun s t hst => ⟨(step_effect s t hst).2.openLegal, (step_effect s t hst).2.queuesLegal⟩

/-! ## The sweep (R163 to R169) -/

theorem Hub.MovesWith.sweepLegal {h g : Hub} (m : Hub.MovesWith true h g) (hw : h.agent.sweep.Legal) : g.agent.sweep.Legal := by
  induction m with
  | refl => exact hw
  | tail _ m ih =>
    cases m with
    | join n hn hs => rw [Hub.join_frame]; exact ih
    | agent a hs hi => rw [← hs] at ih; exact ih
    | sweep w hf hlegal => exact hlegal rfl ih
    | endSweep hf => exact fun hfalse => Bool.noConfusion hfalse
    | _ => exact ih

/-- Settles O16: each slot that leaves the pending mask enters the results or the failures, and a sweep taken starts with its slots in
one of the three. -/
theorem sweepStaysLegal : Obligations.SweepStaysLegal := by
  intro s t hst hw
  obtain ⟨-, e⟩ := step_effect s t hst
  generalize s.hub = h at e hw
  generalize t.hub = g at e ⊢
  have ended : ∀ w : Sweep, w.inFlight = false → w.Legal := fun w hend hfalse => by rw [hend] at hfalse; cases hfalse
  cases e with
  | moves m => exact Hub.MovesWith.sweepLegal m hw
  | answered r rest status body t hi ht hb m =>
    rw [Hub.answer_agent]
    exact Hub.MovesWith.sweepLegal m hw
  | resetAccepted r rest hi => exact hw
  | sweepTaken r rest w hi hold hw m hg => exact (Hub.endSweepIfDone_moves (strict := true) _ hg.1).sweepLegal hg.2
  | saveTaken r rest save hi hs hd => exact hw
  | saveEnded save result hs =>
    have hidle : ({ h with config := { h.config with save := none } } : Hub).agent.sweep.Legal := hw
    have hraised := (Hub.raiseIf_moves (strict := true) _ result.1.isSome (.hub .configSaveFailed)).sweepLegal hidle
    rw [Hub.saveDone_eq]
    simp only
    split <;> exact hraised
  | loaded t cands c hl ht hc hsave m => exact Hub.MovesWith.sweepLegal m hw
  | written bs => exact hw
  | driven bs => exact hw
  | read bs m rest hout => exact hw
  | reset g kind strap => exact ended {} rfl
  | hostPortReset =>
    show h.agent.sweep.drop.Legal
    unfold Sweep.drop
    split
    · exact ended _ rfl
    · exact hw

end Sys2Proof.Machine
end

section
/-! PROOFS. The machine: its steps, its state after reset, and the resets (chapters 10 and 11). -/

namespace Sys2Proof.Machine

/-! ## Steps -/

/-- Settles O1: with a command waiting, a step is that command on the machine with the queue's rest. -/
theorem stepRunsTheFrontCommand : Obligations.StepRunsTheFrontCommand := by
  intro c rest s hp
  unfold step
  rw [hp]

theorem HubTime.total_ofTotal {v : Nat} (hv : v < 2 ^ 48 * nsPerSec) : (HubTime.ofTotal v).total = v := by
  have hsec : v / nsPerSec < 2 ^ 48 := Nat.div_lt_of_lt_mul (by rw [Nat.mul_comm]; exact hv)
  unfold HubTime.ofTotal HubTime.total
  rw [Nat.mod_eq_of_lt hsec]
  exact Nat.div_add_mod v nsPerSec

/-- What one run of the clock adds to hub time, counted in units of 10^−9 ns, where hub time does not wrap. -/
theorem Clock.run_total (c : Clock) (k : Int) (dt : Nat) (hwrap : c.now.total + c.gain k dt / nsPerSec < 2 ^ 48 * nsPerSec) :
    (c.run k dt).now.total * nsPerSec + (c.run k dt).carry = c.now.total * nsPerSec + c.gain k dt ∧
      (c.run k dt).carry < nsPerSec ∧ (c.run k dt).elapsed + c.now.total = c.elapsed + (c.run k dt).now.total := by
  have hnow : (c.run k dt).now.total = c.now.total + c.gain k dt / nsPerSec := HubTime.total_ofTotal hwrap
  have hcarry : (c.run k dt).carry = c.gain k dt % nsPerSec := rfl
  have helapsed : (c.run k dt).elapsed = c.elapsed + c.gain k dt / nsPerSec := rfl
  have hsplit := Nat.div_add_mod' (c.gain k dt) nsPerSec
  refine ⟨?_, Nat.mod_lt _ (by decide), ?_⟩
  · rw [hnow, hcarry, Nat.add_mul, Nat.add_assoc, hsplit]
  · omega

/-- Settles O2: an idle step looks for an event of the hub's own, and runs the clock for one ns where it finds none. -/
theorem idleStepIsAnOwnEventOrATick : Obligations.IdleStepIsAnOwnEventOrATick := by
  intro s hp h k
  have hstep : step s = idle s := by unfold step; rw [hp]
  refine ⟨fun i hi => ?_, fun hnone => ⟨h.clock.run k 1, ?_, fun hlegal hsec hcarry hlo hhi => ?_⟩⟩
  · rw [hstep]; unfold idle; rw [hi]
  · rw [hstep]; unfold idle; rw [hnone]; rfl
  · obtain ⟨-, hns⟩ := hlegal
    have hgain : (h.clock.gain k 1 : Int) = (nsPerSec + k) + h.clock.carry := by
      unfold Clock.gain nsPerSec
      omega
    have hwrap : h.clock.now.total + h.clock.gain k 1 / nsPerSec < 2 ^ 48 * nsPerSec := by
      unfold HubTime.total nsPerSec at *
      omega
    obtain ⟨htotal, hless, helapsed⟩ := h.clock.run_total k 1 hwrap
    refine ⟨?_, hless, helapsed⟩
    rw [htotal, Nat.cast_add, Nat.cast_add, hgain]
    ring

/-! ## The state after reset -/

/-- Settles O3: every part of the state after reset is the default of its type. -/
theorem resetLeavesTheResetValues : Obligations.ResetLeavesTheResetValues := by
  unfold Obligations.ResetLeavesTheResetValues
  decide

/-- Settles O4: the default of each part is within its promise. -/
theorem resetMeetsEveryPromise : Obligations.ResetMeetsEveryPromise := by
  unfold Obligations.ResetMeetsEveryPromise
  intro h
  have permits (n : Slot) : h.trecs[n].granted = (h.permitInputs n).all := by revert n; decide
  refine ⟨by decide, by decide, by decide, by decide, by decide, by decide, by decide, by decide, by decide, by decide, by decide,
    by decide, by decide, Tables.default_legal, by decide, ?_, by decide, by decide, fun n => ?_⟩
  · intro n hn
    rw [← permits n]
    exact hn
  · rw [permits n]
    exact h.permitInputs_all_iff n

/-! ## The resets (R179, R181, R182) -/

/-- Settles O20. -/
theorem hostPortReset : Obligations.HostPortReset := by
  intro s h p w
  rfl

theorem Hub.afterReset_slot (h : Hub) (kind : ResetKind) (strap : Bool) (n : Slot) :
    (h.afterReset kind strap).slots[n] = h.slots[n].afterReset := by
  simp [Hub.afterReset]

/-- With a hub reset pending no request is taken (R179). -/
theorem Hub.take_of_resetPending {h : Hub} (hp : h.port.resetPending = true) (code : Byte) (act : Request → Hub → Hub) :
    Hub.take code act h = h := by
  unfold Hub.take
  split
  · rfl
  · rw [hp]; rfl

theorem Hub.unknownRequest_of_resetPending {h : Hub} (hp : h.port.resetPending = true) : h.unknownRequest = h := by
  unfold Hub.unknownRequest
  split
  · rfl
  · rw [hp]; rfl

/-- The row of a request takes the request of its code. -/
theorem exec_requestRow : ∀ p ∈ requestRows, ∃ act, ∀ s : State, exec p.2 s = s.onHub (Hub.take p.1 act) := by
  unfold requestRows
  simp only [List.forall_mem_cons, List.not_mem_nil, false_implies, implies_true, and_true]
  and_intros <;> exact ⟨_, fun _ => rfl⟩

theorem exec_request_of_resetPending {s : State} (hp : s.hub.port.resetPending = true) {c : Instr}
    (hc : (∃ code, (code, c) ∈ requestRows) ∨ c = .unknownRequest) : exec c s = .next s := by
  rcases hc with ⟨code, hmem⟩ | rfl
  · obtain ⟨act, hexec⟩ := exec_requestRow _ hmem
    rw [hexec, State.onHub_eq, Hub.take_of_resetPending hp]
  · show s.onHub Hub.unknownRequest = _
    rw [State.onHub_eq, Hub.unknownRequest_of_resetPending hp]

/-- The read that takes the whole of the reply to an accepted HUB_RESET resets the hub (R179). -/
theorem Hub.readBytes_of_resetReply {h : Hub} {m : Message} {later : List Message} {clocked : Nat} (ho : h.port.outbound = m :: later)
    (hp : h.port.resetPending = true) (hm : m.isResetReply = true) (hlen : m.encode.length ≤ clocked) :
    h.readBytes false clocked = ({ h with port := { h.port with driven := m.encode } } : Hub).afterReset .hub h.config.strap := by
  unfold Hub.readBytes
  rw [ho]
  simp only [Bool.false_eq_true, if_false, if_pos hlen]
  unfold Hub.readWhole
  simp only [hm, hp, Bool.and_self, if_true, List.take_of_length_le hlen]
  rfl

/-- Settles O19: both resets are `Hub.afterReset`, which keeps the input levels, the bytes driven and what the last load found. -/
theorem powerOnAndHubReset : Obligations.PowerOnAndHubReset := by
  refine ⟨fun s strap written => ?_, fun s r rest => ⟨fun ht => ?_, fun hp c hc => exec_request_of_resetPending hp hc, ?_⟩⟩
  · refine ⟨_, rfl, rfl, fun hnone => ?_, fun save hsome => ?_, rfl, rfl, rfl, rfl, rfl, rfl, rfl, rfl, rfl, rfl, rfl, rfl, fun n => ?_⟩
    · simp only [hnone]
    · simp only [hsome]
    · exact Hub.afterReset_slot s.hub .powerOn strap n
  · show s.onHub (Hub.take Code.hubReset Hub.hubReset) = _
    rw [State.onHub_eq, ht.take]
    unfold Hub.hubReset
    rw [Hub.popRequest_config]
    split <;> rfl
  · intro m later clocked ho hp hreply hcode hstatus hlen
    have hm : m.isResetReply = true := by simp [Message.isResetReply, hreply, hcode, hstatus]
    have hexec : exec (.readTransfer false Code.readType false clocked) s = .next { s with hub := s.hub.readBytes false clocked } := rfl
    rw [hexec, Hub.readBytes_of_resetReply ho hp hm hlen]
    exact ⟨_, rfl, rfl, rfl, rfl, rfl, rfl, rfl, rfl, rfl, rfl, rfl, rfl, rfl, rfl, rfl,
      fun n => Hub.afterReset_slot { s.hub with port := { s.hub.port with driven := m.encode } } .hub s.hub.config.strap n⟩

end Sys2Proof.Machine
end

section
/-! PROOFS. What follows a change of the alarm table (section 8.6), said once for properties that look at the table: the table changes by a
raise or a clear alone, and what is told of a change keeps every record. -/

namespace Sys2Proof.Machine

/-- The places where what follows a change of the table puts agent frames: TIMING queues, and the CONTROL queue of a relay slot in service
(R134, R150). -/
def Hub.Tells (h : Hub) (n : Slot) (place : Place) : Prop := place = .timing ∨ place = .control ∧ h.slots[n].state = .forwarding

/-- A property of the hub that what follows a change of the alarm table keeps: the outputs judged, a notice, a permit judged, a fence request
handed over, a placement refused for lack of a block, and an agent frame placed in an egress queue. -/
structure TellClosed (P : Hub → Prop) : Prop where
  judgeOutputs : ∀ h, P h → P h.judgeOutputs
  notice : ∀ h code body, P h → P (h.notice code body)
  changePermit : ∀ h cause n, P h → P (Hub.changePermit cause h n)
  fence : ∀ h l, P h → P { h with manager := { h.manager with fenceRequests := l } }
  refusal : ∀ h, P h → P { h with agent := { h.agent with reserveRefusals := h.agent.reserveRefusals + 1 } }
  placed : ∀ h n place frame, h.Tells n place → h.slots[n].state.takesAgent place → frame.payload.length ≤ 52 →
    h.store.freeReserve ≠ 0 → P h →
    P (({ h with store := h.store.put frame true 1 }.modPort n (·.enter place h.store.nextId)).schedule n)

theorem permitUpdate_length (n : Slot) (reason : PermitReason) (t : Stamp) : (permitUpdate n reason t).payload.length ≤ 52 := by
  simp [permitUpdate, agentFrame]

namespace TellClosed

section again

variable {P : Hub → Prop} (hP : TellClosed P) {again : AlarmKey → Hub → Hub} {h : Hub}

include hP

theorem alarmNotice (hh : P h) (position : Nat) (r : AlarmRec) (reason : AlarmReason) : P (h.alarmNotice position r reason) := by
  unfold Hub.alarmNotice
  split
  · exact hP.notice _ _ _ hh
  · exact hh

theorem fireFence (hh : P h) (key : AlarmKey) : P (h.fireFence key) := by
  unfold Hub.fireFence
  split
  · split
    · exact hP.fence _ _ hh
    · exact hh
  · exact hh

variable (hagain : ∀ h, P h → P (again (.hub .agentOverload) h))

include hagain

theorem placeWith (hh : P h) (n : Slot) (place : Place) (frame : Frame) (hplace : h.Tells n place)
    (hlen : frame.payload.length ≤ 52) : P (h.placeWith again n place frame).1 := by
  unfold Hub.placeWith
  split
  · exact hh
  · next htakes =>
    have hid : place ≠ .identify := by
      obtain rfl | ⟨rfl, -⟩ := hplace
      · decide
      · decide
    simp only [if_neg hid]
    split
    · exact hagain _ (hP.refusal _ hh)
    · next hroom => exact hP.placed _ _ _ _ hplace (by simpa using htakes) hlen hroom hh

theorem tellWith (hh : P h) (reason : AlarmReason) (changed : Nat × AlarmRec) : P (Hub.tellWith again reason h changed) := by
  unfold Hub.tellWith Hub.relayWith
  have htold := hP.alarmNotice hh changed.1 changed.2 reason
  split
  · split
    · next hrelay =>
      have hserves := (Bool.and_eq_true_iff.mp hrelay).2
      exact hP.placeWith hagain htold _ _ _ (.inr ⟨rfl, by simpa using hserves⟩) (by simp [agentFrame])
    · exact htold
  · exact htold

/-- Once the permits have been changed, what is owed for them keeps the property. -/
theorem placeOwed (hh : P h) (owed : List (Slot × PermitReason)) (t : Stamp) :
    P (owed.foldl (fun g p => (g.placeWith again p.1 .timing (permitUpdate p.1 p.2 t)).1) h) := by
  refine foldl_keeps (P := P) (fun g p hg => ?_) owed hh
  exact hP.placeWith hagain hg p.1 .timing _ (.inl rfl) (permitUpdate_length p.1 p.2 t)

theorem judgePermitsWith (hh : P h) (cause : PermitReason) (slots : List Slot) : P (h.judgePermitsWith again cause slots) :=
  hP.placeOwed hagain (foldl_keeps (fun g n hg => hP.changePermit g cause n hg) _ hh) _ _

theorem judgeWithheldWith {old : Hub} (hh : P h) : P (Hub.judgeWithheldWith again old h) :=
  hP.judgePermitsWith hagain hh _ _

/-- What is told of a change, once the permits and the outputs have been judged. -/
theorem tellAll (hh : P h) (reason : AlarmReason) (changed : List (Nat × AlarmRec)) :
    P (changed.foldl (Hub.tellWith again reason) h) :=
  foldl_keeps (P := P) (fun _ c hg => hP.tellWith hagain hg reason c) _ hh

theorem changedWith {old : Hub} (hh : P h) (key : AlarmKey) (reason : AlarmReason) :
    P (Hub.changedWith again old key reason h) := by
  unfold Hub.changedWith
  refine hP.tellAll hagain (hP.judgeOutputs _ (hP.judgeWithheldWith hagain ?_)) _ _
  split
  · exact hP.fireFence hh _
  · exact hh

end again

end TellClosed

/-! ## The table's own changes -/

/-- A record as a raise creates it (R140). -/
def Hub.newRecord (h : Hub) (key : AlarmKey) (reported : Option Severity) : AlarmRec :=
  { key, severity := effectiveSeverity (h.kindEntry key.kind) key.kind reported, reported, active := true, acked := false,
    firstRaised := h.stamp, lastChange := h.stamp, occurrences := 1 }

/-- The table after a raise of a record that stands in it (R140). -/
def Hub.renewed (h : Hub) (key : AlarmKey) (reported : Option Severity) : Alarms :=
  h.alarms.update key (·.raised (h.kindEntry key.kind) reported h.stamp)

/-- The table after a clear (R143). -/
def Hub.lapsed (h : Hub) (key : AlarmKey) : Alarms := h.alarms.update key fun r => { r with active := false, lastChange := h.stamp }

/-- A property that the changes of the table by a raise or a clear keep too, where `raises` and `clears` say which keys change. -/
structure AlarmSteps (raises clears : AlarmKey → Prop) (P : Hub → Prop) : Prop extends TellClosed P where
  renewed : ∀ h key reported, raises key → P h → P { h with alarms := h.renewed key reported }
  created : ∀ h key reported a, raises key → h.alarms.find key = none → h.alarms.create (h.newRecord key reported) = some a → P h →
    P { h with alarms := a }
  lapsed : ∀ h key, clears key → P h → P { h with alarms := h.lapsed key }
  overload : raises (.hub .agentOverload)
  tableFull : raises (.hub .alarmTableFull)

/-- The four cases of a raise (R140, R141). -/
theorem Hub.raiseWith_cases (again : AlarmKey → Hub → Hub) (key : AlarmKey) (reported : Option Severity) (h : Hub) :
    (∃ p, h.alarms.find key = some p ∧
      ((∃ reason, h.raiseWith again key reported = Hub.changedWith again h key reason { h with alarms := h.renewed key reported }) ∨
        p.2.active = true ∧ (p.2.raised (h.kindEntry key.kind) reported h.stamp).severity = p.2.severity ∧
          h.raiseWith again key reported = ({ h with alarms := h.renewed key reported } : Hub).judgeOutputs)) ∨
    (h.alarms.find key = none ∧
      ((∃ a, h.alarms.create (h.newRecord key reported) = some a ∧
          h.raiseWith again key reported = Hub.changedWith again h key .created { h with alarms := a }) ∨
        h.alarms.create (h.newRecord key reported) = none ∧ h.raiseWith again key reported = again (.hub .alarmTableFull) h)) := by
  unfold Hub.raiseWith
  simp only
  split
  · next position r hfind =>
    refine .inl ⟨_, hfind, ?_⟩
    split
    · exact .inl ⟨_, rfl⟩
    · next hactive =>
      split
      · exact .inl ⟨_, rfl⟩
      · next hsev => exact .inr ⟨by simpa using hactive, by simpa using hsev, rfl⟩
  · next hfind =>
    refine .inr ⟨hfind, ?_⟩
    split
    · next a hcreate => exact .inl ⟨a, hcreate, rfl⟩
    · next hcreate => exact .inr ⟨hcreate, rfl⟩

/-- The two cases of a clear (R143). -/
theorem Hub.clear_cases (h : Hub) (key : AlarmKey) :
    (h.isActive key = true ∧ h.clear key = Hub.changedWith raiseAgain h key .cleared { h with alarms := h.lapsed key }) ∨
      (h.isActive key = false ∧ h.clear key = h) := by
  unfold Hub.clear Hub.isActive
  split
  · next position r hfind =>
    rw [hfind]
    split
    · next hactive => exact .inl ⟨hactive, rfl⟩
    · next hactive => exact .inr ⟨by simpa using hactive, rfl⟩
  · next hfind =>
    rw [hfind]
    exact .inr ⟨rfl, rfl⟩

namespace AlarmSteps

variable {raises clears : AlarmKey → Prop} {P : Hub → Prop} (hP : AlarmSteps raises clears P) {h : Hub}

include hP

theorem raiseWith {again : AlarmKey → Hub → Hub} (hagain : ∀ k h, raises k → P h → P (again k h)) (hh : P h) (key : AlarmKey)
    (reported : Option Severity) (hk : raises key) : P (h.raiseWith again key reported) := by
  have hagain' := fun h => hagain _ h hP.overload
  obtain ⟨p, hfind, ⟨reason, hr⟩ | ⟨-, -, hr⟩⟩ | ⟨hfind, ⟨a, hcreate, hr⟩ | ⟨-, hr⟩⟩ := h.raiseWith_cases again key reported
  · rw [hr]; exact hP.changedWith hagain' (hP.renewed h key reported hk hh) key reason
  · rw [hr]; exact hP.judgeOutputs _ (hP.renewed h key reported hk hh)
  · rw [hr]; exact hP.changedWith hagain' (hP.created h key reported a hk hfind hcreate hh) key .created
  · rw [hr]; exact hagain _ _ hP.tableFull hh

theorem raiseAt (depth : Nat) (hh : P h) (key : AlarmKey) (reported : Option Severity) (hk : raises key) :
    P (Hub.raiseAt depth key reported h) := by
  induction depth generalizing h key reported with
  | zero => exact hh
  | succ depth ih => exact hP.raiseWith (fun k g hk hg => ih hg k none hk) hh key reported hk

theorem raise (hh : P h) (key : AlarmKey) (hk : raises key) : P (h.raise key) := hP.raiseAt 8 hh key none hk

theorem raiseOverload (h : Hub) (hh : P h) : P (raiseAgain (.hub .agentOverload) h) := hP.raise hh _ hP.overload

theorem place (hh : P h) (n : Slot) (place : Place) (frame : Frame) (hplace : h.Tells n place)
    (hlen : frame.payload.length ≤ 52) : P (h.place n place frame).1 :=
  hP.placeWith hP.raiseOverload hh n place frame hplace hlen

theorem judgePermit (hh : P h) (cause : PermitReason) (n : Slot) : P (h.judgePermit cause n) :=
  hP.judgePermitsWith hP.raiseOverload hh cause [n]

theorem judgePermits (hh : P h) (cause : PermitReason) : P (h.judgePermits cause) :=
  hP.judgePermitsWith hP.raiseOverload hh cause allSlots

theorem clear (hh : P h) (key : AlarmKey) (hk : clears key) : P (h.clear key) := by
  obtain ⟨-, hr⟩ | ⟨-, hr⟩ := h.clear_cases key
  · rw [hr]; exact hP.changedWith hP.raiseOverload (hP.lapsed h key hk hh) key .cleared
  · rw [hr]; exact hh

theorem clearIf (hh : P h) (held : Bool) (key : AlarmKey) (hk : held = true → clears key) : P (h.clearIf held key) := by
  unfold Hub.clearIf
  split
  · next hheld => exact hP.clear hh key (hk hheld)
  · exact hh

theorem clearWait (hh : P h) (n : Slot) (raised : Bool) (hk : clears (.slot n .powerWait)) : P (h.clearWait n raised) := by
  unfold Hub.clearWait
  split
  · exact hP.clear hh _ hk
  · exact hh

theorem clearReported (hh : P h) (n : Slot) (hk : ∀ key : AlarmKey, key.kind = .cardReported → clears key) :
    P (h.clearReported n) := by
  unfold Hub.clearReported
  have hall : ∀ key ∈ (h.alarms.recs.filter fun r => r.active && r.key.kind == .cardReported && r.key.source == some n).map (·.key),
      key.kind = .cardReported := by
    intro key hkey
    obtain ⟨r, hr, rfl⟩ := List.mem_map.mp hkey
    have hr := (List.mem_filter.mp hr).2
    simp only [Bool.and_eq_true, beq_iff_eq] at hr
    exact hr.1.2
  generalize (h.alarms.recs.filter _).map (·.key) = keys at hall
  induction keys generalizing h with
  | nil => exact hh
  | cons key keys ih =>
    obtain ⟨hkey, hkeys⟩ := List.forall_mem_cons.mp hall
    exact ih (hP.clear hh key (hk key hkey)) hkeys

theorem follow (hh : P h) (kind : AlarmKind) (was is : Bool) (hr : is = true → raises (.hub kind)) (hc : is = false → clears (.hub kind)) :
    P (h.follow kind was is) := by
  unfold Hub.follow
  cases his : is <;> cases was
  · exact hh
  · exact hP.clear hh _ (hc his)
  · exact hP.raise hh _ (hr his)
  · exact hh

end AlarmSteps

/-! ## A record that is ACTIVE stays so -/

theorem Alarms.find_eq (a : Alarms) (key : AlarmKey) :
    (a.find key).map (·.2) = if key.kind = .alarmTableFull then a.full else a.recs.find? fun r => r.key == key := by
  unfold Alarms.find
  split
  · simp
  · split
    · next hfind => rw [hfind]; rfl
    · next hfind => rw [hfind]; rfl

theorem Hub.isActive_eq (h : Hub) (key : AlarmKey) :
    h.isActive key = (if key.kind = .alarmTableFull then h.alarms.full else h.alarms.recs.find? fun r => r.key == key).any (·.active) := by
  rw [← Alarms.find_eq]
  unfold Hub.isActive
  cases h.alarms.find key <;> rfl

/-- A property of the records alone is kept by everything that follows a change of them. -/
theorem TellClosed.ofRecords (Q : Option AlarmRec → List AlarmRec → Prop) : TellClosed fun h => Q h.alarms.full h.alarms.recs where
  judgeOutputs _ hh := hh
  notice _ _ _ hh := hh
  changePermit h cause n hh := by
    unfold Hub.changePermit
    simp only
    split
    · exact hh
    · exact hh
  fence _ _ hh := hh
  refusal _ hh := hh
  placed h n place frame _ _ _ _ hh := by
    rcases Hub.schedule_cases ({ h with store := h.store.put frame true 1 }.modPort n (·.enter place h.store.nextId)) n with
      he | ⟨t, -, -, he⟩
    · rw [he]; exact hh
    · rw [he]; exact hh

/-- The record found first by a search stays found when a record of another sort is erased. -/
theorem find?_eraseIdx_of_ne {α : Type} {p q : α → Bool} : ∀ {l : List α} {i : Nat} {r : α}, l.find? p = some r → q r = true →
    (∀ x, l[i]? = some x → q x = false) → (l.eraseIdx i).find? p = some r
  | x :: l, 0, r, hf, hq, hi => by
    have hx := hi x rfl
    rw [List.find?_cons] at hf
    split at hf
    · cases hf; rw [hq] at hx; cases hx
    · exact hf
  | x :: l, i + 1, r, hf, hq, hi => by
    rw [List.find?_cons] at hf
    rw [List.eraseIdx_cons_succ, List.find?_cons]
    split at hf
    · exact hf
    · exact find?_eraseIdx_of_ne hf hq fun y hy => hi y (by simpa using hy)

theorem evictIdx_inactive {l : List AlarmRec} {i : Nat} (hi : evictIdx l = some i) : ∀ x, l[i]? = some x → x.active = false := by
  intro x hx
  unfold evictIdx at hi
  split at hi
  · next j hj =>
    cases hi
    obtain ⟨hlt, hp, -⟩ := List.findIdx?_eq_some_iff_getElem.mp hj
    rw [List.getElem?_eq_getElem hlt] at hx
    cases hx
    simp only [Bool.and_eq_true, Bool.not_eq_true'] at hp
    exact hp.1
  · obtain ⟨hlt, hp, -⟩ := List.findIdx?_eq_some_iff_getElem.mp hi
    rw [List.getElem?_eq_getElem hlt] at hx
    cases hx
    simpa using hp

/-- The record of a key, as a search of the table finds it. -/
def Alarms.record (a : Alarms) (key : AlarmKey) : Option AlarmRec :=
  if key.kind = .alarmTableFull then a.full else a.recs.find? fun r => r.key == key

theorem Hub.isActive_iff (h : Hub) (key : AlarmKey) : h.isActive key = (h.alarms.record key).any (·.active) := h.isActive_eq key

theorem Alarms.find_eq_none (a : Alarms) (key : AlarmKey) : a.find key = none ↔ a.record key = none := by
  unfold Alarms.record
  rw [← Alarms.find_eq, Option.map_eq_none_iff]

/-- A change of the records of one key by a function that keeps keys changes what a search for that key finds, and for no other. -/
theorem Alarms.record_update (a : Alarms) (key k : AlarmKey) (f : AlarmRec → AlarmRec) (hf : ∀ r, (f r).key = r.key) :
    (a.update key f).record k = if k.kind = .alarmTableFull then (if key.kind = .alarmTableFull then a.full.map f else a.full)
      else if k = key then (a.record k).map f else a.record k := by
  have hkeys (r : AlarmRec) : (if r.key = key then f r else r).key = r.key := by split <;> simp [hf]
  unfold Alarms.record Alarms.update
  by_cases hk : k.kind = .alarmTableFull
  · simp only [if_pos hk]
    split <;> rfl
  · simp only [if_neg hk]
    split
    · next hkey =>
      have hne : k ≠ key := fun he => hk (he ▸ hkey)
      rw [if_neg hne]
    · simp only [List.find?_map, Function.comp_def, hkeys]
      cases hfind : a.recs.find? fun r => r.key == k with
      | none => split <;> rfl
      | some r =>
        have hrk : r.key = k := by simpa using List.find?_some hfind
        simp only [Option.map_some, hrk]
        split <;> rfl

/-- A record created is found by its key, and leaves every ACTIVE record found. -/
theorem Alarms.record_create {a a' : Alarms} {r : AlarmRec} (hnone : a.find r.key = none) (hc : a.create r = some a') :
    a'.record r.key = some r ∧ ∀ k x, a.record k = some x → x.active = true → k ≠ r.key → a'.record k = some x := by
  rw [Alarms.find_eq_none] at hnone
  unfold Alarms.create at hc
  unfold Alarms.record at *
  split at hc
  · next hk =>
    cases hc
    refine ⟨by simp only [if_pos hk], fun k x hx hactive hne => ?_⟩
    split at hx
    · next hfull =>
      rw [if_pos hk] at hnone
      rw [hnone] at hx
      cases hx
    · next hfull => rw [if_neg hfull]; exact hx
  · next hk =>
    rw [if_neg hk] at hnone
    rw [if_neg hk]
    split at hc
    · cases hc
      refine ⟨by simp [List.find?_append, hnone], fun k x hx hactive hne => ?_⟩
      split at hx
      · next hfull => rw [if_pos hfull]; exact hx
      · next hfull => rw [if_neg hfull, List.find?_append, hx]; rfl
    · obtain ⟨i, hi, rfl⟩ := Option.map_eq_some_iff.mp hc
      have hnone' : (a.recs.eraseIdx i).find? (fun x => x.key == r.key) = none :=
        List.find?_eq_none.mpr fun x hx => List.find?_eq_none.mp hnone x ((List.eraseIdx_sublist ..).mem hx)
      refine ⟨by simp [List.find?_append, hnone'], fun k x hx hactive hne => ?_⟩
      split at hx
      · next hfull => rw [if_pos hfull]; exact hx
      · next hfull =>
        rw [if_neg hfull, List.find?_append,
          find?_eraseIdx_of_ne (q := (·.active)) hx hactive (evictIdx_inactive hi)]
        rfl

/-- An ACTIVE record stays so, whatever else is raised, and whatever is cleared but itself. -/
theorem AlarmSteps.isActive (k : AlarmKey) : AlarmSteps (fun _ => True) (fun key => key ≠ k ∧ key.kind ≠ .alarmTableFull) fun h => h.isActive k = true where
  toTellClosed := by
    simp only [Hub.isActive_iff]
    exact TellClosed.ofRecords fun full recs => (({ full, recs } : Alarms).record k).any (·.active) = true
  renewed h key reported _ hh := by
    rw [Hub.isActive_iff] at hh ⊢
    have hrec := Alarms.record_update h.alarms key k (·.raised (h.kindEntry key.kind) reported h.stamp) fun _ => rfl
    rw [show (Hub.renewed h key reported).record k = _ from hrec]
    obtain ⟨x, hx, hactive⟩ := (Option.any_eq_true _ _).mp hh
    split
    · next hfull =>
      have hx' : h.alarms.full = some x := by simpa [Alarms.record, hfull] using hx
      rw [hx']
      split
      · rfl
      · exact hactive
    · rw [hx]
      split
      · rfl
      · exact hactive
  created h key reported a _ hnone hc hh := by
    rw [Hub.isActive_iff] at hh ⊢
    obtain ⟨x, hx, hactive⟩ := (Option.any_eq_true _ _).mp hh
    obtain ⟨hnew, hold⟩ := Alarms.record_create (r := h.newRecord key reported) hnone hc
    by_cases hk : k = key
    · subst hk; rw [show a.record k = _ from hnew]; rfl
    · rw [show a.record k = _ from hold k x hx hactive hk]; exact hactive
  lapsed h key hk hh := by
    rw [Hub.isActive_iff] at hh ⊢
    have hrec := Alarms.record_update h.alarms key k (fun r => { r with active := false, lastChange := h.stamp }) fun _ => rfl
    rw [show (Hub.lapsed h key).record k = _ from hrec, if_neg hk.2, if_neg hk.1.symm]
    split
    · next hfull => simpa [Alarms.record, hfull] using hh
    · exact hh
  overload := trivial
  tableFull := trivial

/-! ## A raise leaves its record ACTIVE where the table has room -/

theorem Alarms.create_of_room {a : Alarms} (r : AlarmRec) (hroom : a.recs.length < 63) : ∃ a', a.create r = some a' := by
  unfold Alarms.create
  split <;> exact ⟨_, rfl⟩

/-- The steps of what follows a change keep every record ACTIVE that the change left so. -/
theorem Hub.changedWith_isActive {depth : Nat} {old h : Hub} {key k : AlarmKey} {reason : AlarmReason} (hh : h.isActive k = true) :
    (Hub.changedWith (fun k h => Hub.raiseAt depth k none h) old key reason h).isActive k = true :=
  (AlarmSteps.isActive k).changedWith (fun _ hg => (AlarmSteps.isActive k).raiseAt depth hg _ none trivial) hh key reason

theorem Hub.isActive_renewed {h : Hub} {key : AlarmKey} {reported : Option Severity} (hfind : h.alarms.find key ≠ none) :
    ({ h with alarms := h.renewed key reported } : Hub).isActive key = true := by
  have hrec := Alarms.record_update h.alarms key key (·.raised (h.kindEntry key.kind) reported h.stamp) fun _ => rfl
  rw [Hub.isActive_iff]
  rw [show (Hub.renewed h key reported).record key = _ from hrec, if_pos rfl]
  obtain ⟨x, hx⟩ := Option.ne_none_iff_exists'.mp (mt (Alarms.find_eq_none _ _).mpr hfind)
  split
  · next hfull =>
    have hx' : h.alarms.full = some x := by simpa [Alarms.record, hfull] using hx
    rw [hx']
    rfl
  · rw [hx]; rfl

theorem Hub.raiseReported_isActive {h : Hub} {key : AlarmKey} (reported : Option Severity)
    (hroom : h.alarms.recs.length < 63 ∨ h.alarms.find key ≠ none) : (h.raiseReported key reported).isActive key = true := by
  have hraise : h.raiseReported key reported = h.raiseWith (fun k h => Hub.raiseAt 7 k none h) key reported := rfl
  obtain ⟨p, hfind, ⟨reason, hr⟩ | ⟨-, -, hr⟩⟩ | ⟨hfind, ⟨a, hcreate, hr⟩ | ⟨hcreate, -⟩⟩ :=
    h.raiseWith_cases (fun k h => Hub.raiseAt 7 k none h) key reported
  · have hnew := Hub.isActive_renewed (reported := reported) (hfind ▸ Option.some_ne_none p : h.alarms.find key ≠ none)
    rw [hraise, hr]
    exact Hub.changedWith_isActive hnew
  · have hnew := Hub.isActive_renewed (reported := reported) (hfind ▸ Option.some_ne_none p : h.alarms.find key ≠ none)
    rw [hraise, hr]
    exact hnew
  · rw [hraise, hr]
    refine Hub.changedWith_isActive ?_
    rw [Hub.isActive_iff]
    obtain ⟨hnew, -⟩ := Alarms.record_create (r := h.newRecord key reported) hfind hcreate
    rw [show a.record key = _ from hnew]
    rfl
  · have hlen := hroom.resolve_right fun hne => hne hfind
    obtain ⟨a', ha'⟩ := Alarms.create_of_room (h.newRecord key reported) hlen
    rw [ha'] at hcreate
    cases hcreate

theorem Hub.raise_isActive {h : Hub} {key : AlarmKey} (hroom : h.alarms.recs.length < 63 ∨ h.alarms.find key ≠ none) :
    (h.raise key).isActive key = true := Hub.raiseReported_isActive none hroom

/-! ## Room for the records that an event adds

A record is created only where it does not stand in the table; so an event that raises the keys of a list adds no more records than there
are keys of the list without one. -/

/-- The records of the table, with a place for each key of the list that has none. -/
def Alarms.need (keys : List AlarmKey) (a : Alarms) : Nat := a.recs.length + (keys.filter fun k => (a.record k).isNone).length

theorem Alarms.need_le (keys : List AlarmKey) (a : Alarms) : a.need keys ≤ a.recs.length + keys.length :=
  Nat.add_le_add_left (List.length_filter_le _ _) _

/-- With all the keys accounted for, each of them stands in the table or has room there. -/
theorem Alarms.room_of_need {keys : List AlarmKey} {a : Alarms} (hneed : a.need keys ≤ 63) {key : AlarmKey} (hkey : key ∈ keys) :
    a.recs.length < 63 ∨ a.find key ≠ none := by
  by_cases hnone : a.record key = none
  · left
    have hmem : key ∈ keys.filter fun k => (a.record k).isNone := List.mem_filter.mpr ⟨hkey, by rw [hnone]; rfl⟩
    have hpos := List.length_pos_of_mem hmem
    unfold Alarms.need at hneed
    omega
  · exact .inr (mt (Alarms.find_eq_none _ _).mp hnone)

theorem Alarms.update_recs_length (a : Alarms) (key : AlarmKey) (f : AlarmRec → AlarmRec) :
    (a.update key f).recs.length = a.recs.length := by
  unfold Alarms.update
  split <;> simp

theorem Alarms.need_update (keys : List AlarmKey) (a : Alarms) (key : AlarmKey) (f : AlarmRec → AlarmRec) (hf : ∀ r, (f r).key = r.key) :
    (a.update key f).need keys = a.need keys := by
  have hnone (k : AlarmKey) : ((a.update key f).record k).isNone = (a.record k).isNone := by
    rw [Alarms.record_update _ _ _ _ hf]
    split
    · next hfull =>
      rw [show a.record k = a.full from if_pos hfull]
      split
      · exact Option.isNone_map
      · rfl
    · split
      · exact Option.isNone_map
      · rfl
  unfold Alarms.need
  simp only [hnone, Alarms.update_recs_length]

theorem Alarms.need_create {keys : List AlarmKey} {a a' : Alarms} {r : AlarmRec} (hr : r.key ∈ keys ∨ r.key.kind = .alarmTableFull)
    (hnone : a.find r.key = none) (hc : a.create r = some a') (hneed : a.need keys ≤ 63) : a'.need keys ≤ 63 := by
  refine le_trans ?_ hneed
  have hroom := fun hmem => (Alarms.room_of_need hneed (key := r.key) hmem).resolve_right fun hne => hne hnone
  rw [Alarms.find_eq_none] at hnone
  unfold Alarms.need
  unfold Alarms.create at hc
  split at hc
  · cases hc
    refine Nat.add_le_add_left (List.Sublist.length_le (List.monotone_filter_right _ fun k hk => ?_)) _
    unfold Alarms.record at hk ⊢
    split at hk
    · cases hk
    · next hkind => rw [if_neg hkind]; exact hk
  · next hkind =>
    have hmem := hr.resolve_right hkind
    rw [if_pos (hroom hmem)] at hc
    cases hc
    obtain ⟨hnew, -⟩ := Alarms.record_create (a := a) (Alarms.find_eq_none _ _ |>.mpr hnone)
      (show a.create r = some { a with recs := a.recs ++ [r], changeNumber := a.changeNumber + 1 } by
        unfold Alarms.create; rw [if_neg hkind, if_pos (hroom hmem)])
    have hkept (k : AlarmKey) (hk : ({ a with recs := a.recs ++ [r], changeNumber := a.changeNumber + 1 } : Alarms).record k = none) :
        a.record k = none := by
      unfold Alarms.record at hk ⊢
      split at hk
      · next hfull => rw [if_pos hfull]; exact hk
      · next hfull =>
        rw [if_neg hfull]
        rw [List.find?_append, Option.or_eq_none_iff] at hk
        exact hk.1
    have hless : (keys.filter fun k =>
        (({ a with recs := a.recs ++ [r], changeNumber := a.changeNumber + 1 } : Alarms).record k).isNone).length <
        (keys.filter fun k => (a.record k).isNone).length := by
      have hsub : (keys.filter fun k => (({ a with recs := a.recs ++ [r], changeNumber := a.changeNumber + 1 } : Alarms).record k).isNone) =
          (keys.filter fun k => (a.record k).isNone).filter fun k =>
            (({ a with recs := a.recs ++ [r], changeNumber := a.changeNumber + 1 } : Alarms).record k).isNone := by
        rw [List.filter_filter]
        refine List.filter_congr fun k _ => ?_
        cases hk : ({ a with recs := a.recs ++ [r], changeNumber := a.changeNumber + 1 } : Alarms).record k with
        | none => rw [hkept k hk]; rfl
        | some x => rfl
      rw [hsub]
      refine List.length_filter_lt_length_iff_exists.mpr ⟨r.key, List.mem_filter.mpr ⟨hmem, by rw [hnone]; rfl⟩, ?_⟩
      rw [hnew]
      simp
    rw [List.length_append, List.length_singleton]
    omega

/-- What an event does to the table keeps every key of a list accounted for, where it raises keys of the list alone. -/
theorem AlarmSteps.need {keys : List AlarmKey} (hover : .hub .agentOverload ∈ keys) :
    AlarmSteps (fun key => key ∈ keys ∨ key.kind = .alarmTableFull) (fun _ => True) fun h => h.alarms.need keys ≤ 63 where
  toTellClosed := TellClosed.ofRecords fun full recs => ({ full, recs } : Alarms).need keys ≤ 63
  renewed h key reported _ hh :=
    (h.alarms.need_update keys key (·.raised (h.kindEntry key.kind) reported h.stamp) fun _ => rfl).trans_le hh
  created h key reported _ hk hnone hc hh := Alarms.need_create (r := h.newRecord key reported) hk hnone hc hh
  lapsed h key _ hh :=
    (h.alarms.need_update keys key (fun r => { r with active := false, lastChange := h.stamp }) fun _ => rfl).trans_le hh
  overload := .inl hover
  tableFull := .inr rfl

/-- With one record for each key, a key is not ACTIVE where no record of it is. -/
theorem Alarms.Legal.inactive_iff {a : Alarms} (ha : a.Legal) {k : AlarmKey} (hfull : k.kind ≠ .alarmTableFull) :
    (a.record k).any (·.active) = false ↔ ∀ x ∈ a.recs, x.key = k → x.active = false := by
  obtain ⟨-, -, -, hnodup⟩ := ha
  unfold Alarms.record
  rw [if_neg hfull]
  constructor
  · intro hnone x hx hkey
    cases hfind : a.recs.find? fun r => r.key == k with
    | none => exact absurd (List.find?_eq_none.mp hfind x hx) (by simp [hkey])
    | some y =>
      have hy : y.key = k := by simpa using List.find?_some hfind
      have hxy : x = y := List.inj_on_of_nodup_map hnodup hx (List.mem_of_find?_eq_some hfind) (hkey.trans hy.symm)
      rw [hfind] at hnone
      rw [hxy]
      exact hnone
  · intro hall
    cases hfind : a.recs.find? fun r => r.key == k with
    | none => rfl
    | some y => exact hall y (List.mem_of_find?_eq_some hfind) (by simpa using List.find?_some hfind)

/-- The records of a table after a creation are records it had, and the new one. -/
theorem Alarms.mem_create {a a' : Alarms} {r : AlarmRec} (hc : a.create r = some a') {x : AlarmRec} (hx : x ∈ a'.recs) :
    x ∈ a.recs ∨ x = r := by
  unfold Alarms.create at hc
  split at hc
  · cases hc; exact .inl hx
  · split at hc
    · cases hc; simpa using hx
    · obtain ⟨i, -, rfl⟩ := Option.map_eq_some_iff.mp hc
      rcases List.mem_append.mp hx with hx | hx
      · exact .inl ((List.eraseIdx_sublist ..).mem hx)
      · exact .inr (List.mem_singleton.mp hx)

/-- The table stays legal. -/
theorem AlarmSteps.legal : AlarmSteps (fun _ => True) (fun _ => True) fun h => h.alarms.Legal where
  toTellClosed := TellClosed.ofRecords fun full recs => ({ full, recs } : Alarms).Legal
  renewed _ key _ _ hh := hh.update key _ fun _ => rfl
  created h key reported _ _ hnone hc hh := hh.create (r := h.newRecord key reported) hnone hc
  lapsed _ key _ hh := hh.update key _ fun _ => rfl
  overload := trivial
  tableFull := trivial

/-- A record that is not ACTIVE, of a key that an event does not raise, stays so. -/
theorem AlarmSteps.inactive {k : AlarmKey} (hover : k ≠ .hub .agentOverload) (hfull : k.kind ≠ .alarmTableFull) :
    AlarmSteps (fun key => key ≠ k) (fun _ => True) fun h => h.alarms.Legal ∧ h.isActive k = false where
  toTellClosed := by
    simp only [Hub.isActive_iff]
    exact TellClosed.ofRecords fun full recs => ({ full, recs } : Alarms).Legal ∧ (({ full, recs } : Alarms).record k).any (·.active) = false
  renewed h key reported hk hh := by
    have hrec := Alarms.record_update h.alarms key k (·.raised (h.kindEntry key.kind) reported h.stamp) fun _ => rfl
    refine ⟨hh.1.update key _ fun _ => rfl, ?_⟩
    rw [Hub.isActive_iff, show (Hub.renewed h key reported).record k = _ from hrec, if_neg hfull, if_neg (Ne.symm hk),
      ← Hub.isActive_iff]
    exact hh.2
  created h key reported a hk hnone hc hh := by
    have hlegal := hh.1.create (r := h.newRecord key reported) hnone hc
    refine ⟨hlegal, ?_⟩
    have hold := hh.2
    rw [Hub.isActive_iff, hh.1.inactive_iff hfull] at hold
    rw [Hub.isActive_iff]
    refine (hlegal.inactive_iff hfull).mpr fun x hx hkey => ?_
    rcases Alarms.mem_create hc hx with hmem | rfl
    · exact hold x hmem hkey
    · exact absurd hkey hk
  lapsed h key _ hh := by
    have hrec := Alarms.record_update h.alarms key k (fun r => { r with active := false, lastChange := h.stamp }) fun _ => rfl
    refine ⟨hh.1.update key _ fun _ => rfl, ?_⟩
    rw [Hub.isActive_iff, show (Hub.lapsed h key).record k = _ from hrec, if_neg hfull]
    have hold := hh.2
    rw [Hub.isActive_iff] at hold
    split
    · cases h.alarms.record k <;> rfl
    · exact hold
  overload := hover.symm
  tableFull := fun he => hfull (he ▸ rfl)

/-- A clear leaves its record not ACTIVE (R143). -/
theorem Hub.clear_inactive {h : Hub} {k : AlarmKey} (hlegal : h.alarms.Legal) (hover : k ≠ .hub .agentOverload)
    (hfull : k.kind ≠ .alarmTableFull) : (h.clear k).isActive k = false := by
  obtain ⟨-, hr⟩ | ⟨hoff, hr⟩ := h.clear_cases k
  · have hsteps := AlarmSteps.inactive hover hfull
    have hrec := Alarms.record_update h.alarms k k (fun r => { r with active := false, lastChange := h.stamp }) fun _ => rfl
    have hnew : (h.lapsed k).Legal := hlegal.update k (fun r => { r with active := false, lastChange := h.stamp }) fun _ => rfl
    rw [hr]
    refine (hsteps.changedWith hsteps.raiseOverload ⟨hnew, ?_⟩ k .cleared).2
    rw [Hub.isActive_iff, show (Hub.lapsed h k).record k = _ from hrec, if_neg hfull, if_pos rfl]
    cases h.alarms.record k <;> rfl
  · rw [hr]; exact hoff

/-! ## What an event does to the table

An event raises some keys and clears some; a property of the table that the changes by these keys keep, the event keeps. -/

/-- From `h` to `g` the table changes by raises and clears of these keys alone, and by what follows from them. -/
def Hub.AlarmRun (raises clears : AlarmKey → Prop) (h g : Hub) : Prop :=
  ∀ (may lift : AlarmKey → Prop) (Q : Alarms → Prop), (∀ k, raises k → may k) → (∀ k, clears k → lift k) →
    AlarmSteps may lift (fun h => Q h.alarms) → Q h.alarms → Q g.alarms

namespace Hub.AlarmRun

variable {raises clears : AlarmKey → Prop} {h g k : Hub}

theorem of_eq (he : g.alarms = h.alarms) : Hub.AlarmRun raises clears h g := fun _ _ _ _ _ _ hq => he ▸ hq

theorem refl (h : Hub) : Hub.AlarmRun raises clears h h := of_eq rfl

theorem trans (a : Hub.AlarmRun raises clears h g) (b : Hub.AlarmRun raises clears g k) : Hub.AlarmRun raises clears h k :=
  fun may lift Q hr hc hs hq => b may lift Q hr hc hs (a may lift Q hr hc hs hq)

/-- The same, where the last operation says what the first left. -/
theorem after (b : Hub.AlarmRun raises clears g k) (a : Hub.AlarmRun raises clears h g) : Hub.AlarmRun raises clears h k := a.trans b

theorem mono {raises' clears' : AlarmKey → Prop} (a : Hub.AlarmRun raises clears h g) (hr : ∀ k, raises k → raises' k)
    (hc : ∀ k, clears k → clears' k) : Hub.AlarmRun raises' clears' h g :=
  fun may lift Q hr' hc' hs hq => a may lift Q (fun k hk => hr' k (hr k hk)) (fun k hk => hc' k (hc k hk)) hs hq

theorem raise (h : Hub) {key : AlarmKey} (hk : raises key) : Hub.AlarmRun raises clears h (h.raise key) :=
  fun _ _ _ hr _ hs hq => hs.raise hq key (hr key hk)

theorem clear (h : Hub) {key : AlarmKey} (hk : clears key) : Hub.AlarmRun raises clears h (h.clear key) :=
  fun _ _ _ _ hc hs hq => hs.clear hq key (hc key hk)

theorem clearIf (h : Hub) (held : Bool) {key : AlarmKey} (hk : clears key) : Hub.AlarmRun raises clears h (h.clearIf held key) :=
  fun _ _ _ _ hc hs hq => hs.clearIf hq held key fun _ => hc key hk

theorem clearWait (h : Hub) (n : Slot) (raised : Bool) (hk : clears (.slot n .powerWait)) :
    Hub.AlarmRun raises clears h (h.clearWait n raised) := fun _ _ _ _ hc hs hq => hs.clearWait hq n raised (hc _ hk)

theorem clearReported (h : Hub) (n : Slot) (hk : ∀ key : AlarmKey, key.kind = .cardReported → clears key) :
    Hub.AlarmRun raises clears h (h.clearReported n) := fun _ _ _ _ hc hs hq => hs.clearReported hq n fun key hkey => hc key (hk key hkey)

theorem follow (h : Hub) (kind : AlarmKind) (was is : Bool) (hr : raises (.hub kind)) (hc : clears (.hub kind)) :
    Hub.AlarmRun raises clears h (h.follow kind was is) :=
  fun _ _ _ hr' hc' hs hq => hs.follow hq kind was is (fun _ => hr' _ hr) fun _ => hc' _ hc

theorem judgePermit (h : Hub) (cause : PermitReason) (n : Slot) : Hub.AlarmRun raises clears h (h.judgePermit cause n) :=
  fun _ _ _ _ _ hs hq => hs.judgePermit hq cause n

theorem judgePermits (h : Hub) (cause : PermitReason) : Hub.AlarmRun raises clears h (h.judgePermits cause) :=
  fun _ _ _ _ _ hs hq => hs.judgePermits hq cause

theorem judgeOutputs (h : Hub) : Hub.AlarmRun raises clears h h.judgeOutputs := fun _ _ _ _ _ hs hq => hs.judgeOutputs h hq

theorem place (h : Hub) (n : Slot) (place : Place) (frame : Frame) (hplace : h.Tells n place)
    (hlen : frame.payload.length ≤ 52) : Hub.AlarmRun raises clears h (h.place n place frame).1 :=
  fun _ _ _ _ _ hs hq => hs.place hq n place frame hplace hlen

/-! ## What a run leaves -/

theorem isActive (a : Hub.AlarmRun raises clears h g) {key : AlarmKey} (hh : h.isActive key = true)
    (hc : ∀ k, clears k → k ≠ key ∧ k.kind ≠ .alarmTableFull) : g.isActive key = true :=
  a (fun _ => True) _ (fun a => (a.find key).any (·.2.active) = true) (fun _ _ => trivial) hc (AlarmSteps.isActive key) hh

theorem inactive (a : Hub.AlarmRun raises clears h g) {key : AlarmKey} (hlegal : h.alarms.Legal) (hh : h.isActive key = false)
    (hover : key ≠ .hub .agentOverload) (hfull : key.kind ≠ .alarmTableFull) (hr : ∀ k, raises k → k ≠ key) :
    g.alarms.Legal ∧ g.isActive key = false :=
  a _ (fun _ => True) (fun a => a.Legal ∧ (a.find key).any (·.2.active) = false) hr (fun _ _ => trivial)
    (AlarmSteps.inactive hover hfull) ⟨hlegal, hh⟩

theorem legal (a : Hub.AlarmRun raises clears h g) (hlegal : h.alarms.Legal) : g.alarms.Legal :=
  a (fun _ => True) (fun _ => True) Alarms.Legal (fun _ _ => trivial) (fun _ _ => trivial) AlarmSteps.legal hlegal

/-- After a run from a table with room, a key of the list stands in the table or has room there. -/
theorem room (a : Hub.AlarmRun raises clears h g) (keys : List AlarmKey) (hover : .hub .agentOverload ∈ keys)
    (hr : ∀ k, raises k → k ∈ keys) (hroom : h.alarms.recs.length + keys.length ≤ 63) {key : AlarmKey} (hkey : key ∈ keys) :
    g.alarms.recs.length < 63 ∨ g.alarms.find key ≠ none :=
  Alarms.room_of_need (a _ (fun _ => True) (fun a => a.need keys ≤ 63) (fun k hk => .inl (hr k hk)) (fun _ _ => trivial)
    (AlarmSteps.need hover) ((Alarms.need_le keys _).trans hroom)) hkey

end Hub.AlarmRun

end Sys2Proof.Machine
end

section
/-! PROOFS. Which alarms the operations that the slots' changes are made of raise and clear (sections 8.1 and 6.4, R96). -/

namespace Sys2Proof.Machine

/-- The conditions that the Timing Unit holds for the hub (R112). -/
def timingKeys : List AlarmKey := [.hub .referenceLost, .hub .holdoverActive, .hub .holdoverLapsed]

/-- The alarms that a slot's leaving FORWARDING may clear (R112, R119). -/
def leaveKeys (n : Slot) : List AlarmKey := .slot n .timingPathLost :: .slot n .phaseOutOfLimit :: timingKeys

namespace Hub.AlarmRun

variable {raises clears : AlarmKey → Prop} {h : Hub} {n : Slot}

theorem countErrored (h : Hub) (n : Slot) (hr : raises (.slot n .linkErrors)) : Hub.AlarmRun raises clears h (h.countErrored n) := by
  unfold Hub.countErrored
  extract_lets
  split
  · exact of_eq rfl
  · split
    · exact (raise _ hr).after (of_eq rfl)
    · exact of_eq rfl

theorem dropPartial (h : Hub) (n : Slot) (hr : raises (.slot n .linkErrors)) : Hub.AlarmRun raises clears h (h.dropPartial n) := by
  unfold Hub.dropPartial
  split
  · exact (countErrored _ n hr).after (of_eq rfl)
  · exact refl h

theorem abort (h : Hub) (n : Slot) : Hub.AlarmRun raises clears h (h.abort n) := of_eq (by rw [Hub.abort_frame])

theorem purge (h : Hub) (n : Slot) : Hub.AlarmRun raises clears h (h.purge n) := of_eq (by rw [Hub.purge_frame])

theorem disableLink (h : Hub) (n : Slot) (hr : raises (.slot n .linkErrors)) : Hub.AlarmRun raises clears h (h.disableLink n) := by
  unfold Hub.disableLink
  exact (dropPartial _ n hr).after ((of_eq rfl).after (abort h n))

theorem resetLink (h : Hub) (n : Slot) (hr : raises (.slot n .linkErrors)) : Hub.AlarmRun raises clears h (h.resetLink n) := by
  unfold Hub.resetLink
  exact (dropPartial _ n hr).after ((of_eq rfl).after ((abort _ n).after (purge h n)))

theorem powerDown (h : Hub) (n : Slot) (state : SlotState) (f : SlotRec → SlotRec) (hr : raises (.slot n .linkErrors)) :
    Hub.AlarmRun raises clears h (h.powerDown n state f) := by
  unfold Hub.powerDown
  exact (disableLink _ n hr).after ((of_eq rfl).after (purge h n))

theorem serve (h : Hub) : Hub.AlarmRun raises clears h h.serve.1 := of_eq (by rw [Hub.serve_frame])

theorem schedule (h : Hub) (n : Slot) : Hub.AlarmRun raises clears h (h.schedule n) := by
  rcases h.schedule_cases n with he | ⟨t, -, -, he⟩
  · rw [he]; exact refl h
  · rw [he]; exact of_eq rfl

theorem slotNotice (h : Hub) (n : Slot) (old new : SlotState) (reason : SlotReason) :
    Hub.AlarmRun raises clears h (h.slotNotice n old new reason) := of_eq rfl

theorem announceGrants (h : Hub) (gs : List (Slot × Bool)) (hc : ∀ m, clears (.slot m .powerWait)) :
    Hub.AlarmRun raises clears h (h.announceGrants gs) := by
  unfold Hub.announceGrants
  refine foldl_keeps (P := Hub.AlarmRun raises clears h) (fun g p hg => hg.trans ?_) gs (refl h)
  have hcleared : Hub.AlarmRun raises clears g ((g.clearWait p.1 p.2).slotNotice p.1 .seated .powering .powerGranted) :=
    (slotNotice _ _ _ _ _).after (clearWait g p.1 p.2 (hc p.1))
  unfold Hub.announceGrant
  extract_lets k
  split
  · exact (slotNotice _ _ _ _ _).after hcleared
  · exact hcleared

theorem timingNotice (h : Hub) (old new : Timing) (reason : TimingReason) :
    Hub.AlarmRun raises clears h (h.timingNotice old new reason) := by
  unfold Hub.timingNotice
  split
  · exact refl h
  · exact of_eq rfl

variable (hr : ∀ k ∈ timingKeys, raises k) (hc : ∀ k ∈ timingKeys, clears k)

include hr hc

theorem followTiming (h : Hub) {kind : AlarmKind} (hk : AlarmKey.hub kind ∈ timingKeys) (was is : Bool) :
    Hub.AlarmRun raises clears h (h.follow kind was is) := follow h kind was is (hr _ hk) (hc _ hk)

theorem timingResults (h : Hub) (old : TimingState) (mayRaise : Bool) :
    Hub.AlarmRun raises clears h (h.timingResults old mayRaise) := by
  have hreference : Hub.AlarmRun raises clears h (h.followReference mayRaise) := by
    unfold Hub.followReference
    exact (followTiming hr hc _ (by decide) _ _).after (of_eq rfl)
  unfold Hub.timingResults
  extract_lets new h1 h2 h3
  have hconditions : Hub.AlarmRun raises clears h h3 :=
    (followTiming hr hc _ (by decide) _ _).after ((followTiming hr hc _ (by decide) _ _).after hreference)
  split
  · exact hconditions
  · exact ((judgeOutputs _).after (judgePermits _ _)).after hconditions

theorem setTiming (h : Hub) (new : Timing) (reason : TimingReason) (mayRaise : Bool) :
    Hub.AlarmRun raises clears h (h.setTiming new reason mayRaise) := by
  unfold Hub.setTiming
  exact (timingResults hr hc _ _ _).after ((timingNotice _ _ _ _).after (of_eq rfl))

theorem sourceLeft (h : Hub) (n : Slot) : Hub.AlarmRun raises clears h (h.sourceLeft n) := by
  unfold Hub.sourceLeft
  split
  · exact setTiming hr hc _ _ _ _
  · exact refl h

theorem windowReset (h : Hub) (n : Slot) : Hub.AlarmRun raises clears h (h.windowReset n) := by
  unfold Hub.windowReset
  exact (judgePermit _ _ _).after ((sourceLeft hr hc _ n).after (of_eq rfl))

omit hr hc

theorem leaveSweep (h : Hub) (n : Slot) : Hub.AlarmRun raises clears h (h.leaveSweep n) := by
  unfold Hub.leaveSweep Hub.endSweepIfDone
  split
  · split <;> exact of_eq rfl
  · exact refl h

theorem timingKeys_of_leaveKeys (hc : ∀ k ∈ leaveKeys n, clears k) : ∀ k ∈ timingKeys, clears k :=
  fun k hk => hc k (List.mem_cons_of_mem _ (List.mem_cons_of_mem _ hk))

include hr

theorem leaveForwarding (h : Hub) (n : Slot) (hc : ∀ k ∈ leaveKeys n, clears k) :
    Hub.AlarmRun raises clears h (h.leaveForwarding n) := by
  unfold Hub.leaveForwarding
  extract_lets r h1 h2
  have hcleared : Hub.AlarmRun raises clears h h2 :=
    (clearIf _ _ (hc _ (List.mem_cons_of_mem _ List.mem_cons_self))).after ((clearIf _ _ (hc _ List.mem_cons_self)).after (of_eq rfl))
  exact (leaveSweep _ n).after ((judgeOutputs _).after ((judgePermit _ _ _).after
    ((sourceLeft hr (timingKeys_of_leaveKeys hc) _ n).after hcleared)))

theorem handOn (h : Hub) (n : Slot) (old : SlotState) (linkLeft : Bool) (hc : ∀ k ∈ leaveKeys n, clears k) :
    Hub.AlarmRun raises clears h (h.handOn n old linkLeft) := by
  unfold Hub.handOn
  extract_lets h1
  have hleft : Hub.AlarmRun raises clears h h1 := by
    unfold h1
    split
    · exact leaveForwarding hr h n hc
    · exact refl h
  split
  · exact (windowReset hr (timingKeys_of_leaveKeys hc) _ n).after hleft
  · exact hleft

end Hub.AlarmRun

end Sys2Proof.Machine
end

section
/-! PROOFS. The inputs of a slot, the ends of their debounce, and the power wait list (sections 4.3 and 4.4). -/

namespace Sys2Proof.Machine

/-! ## The alarms of a slot's entry to EMPTY -/

/-- What the disable of a slot's link may raise (R4, R11). -/
def disableKeys (n : Slot) : List AlarmKey := [.slot n .linkErrors, .hub .agentOverload]

/-- What a slot's entry to a state without power may clear of its own conditions (R96). -/
def SlotKey (n : Slot) (kinds : List AlarmKind) (key : AlarmKey) : Prop := key.source = some n ∧ key.kind ∈ kinds

theorem SlotKey.slot {n : Slot} {kinds : List AlarmKind} {kind : AlarmKind} (hk : kind ∈ kinds) : SlotKey n kinds (.slot n kind) := ⟨rfl, hk⟩

theorem SlotKey.ne {n m : Slot} {kinds : List AlarmKind} {kind : AlarmKind} {key : AlarmKey} (hk : SlotKey n kinds key) (hkind : kind ∉ kinds)
    (hfull : AlarmKind.alarmTableFull ∉ kinds) : key ≠ .slot m kind ∧ key.kind ≠ .alarmTableFull := by
  obtain ⟨-, hk⟩ := hk
  refine ⟨?_, fun he => hfull (he ▸ hk)⟩
  rintro rfl
  exact hkind hk

/-- What follows the alarms of a slot's change of state may clear: its card's records, the conditions that its leaving FORWARDING ends, and
POWER_WAIT of the slots that a service of the wait list powers (R64, R112, R119, R146). -/
def HandOnClears (n : Slot) (key : AlarmKey) : Prop :=
  key ∈ leaveKeys n ∨ key.kind = .cardReported ∨ key.kind = .powerWait

/-- A run that neither raises nor clears a key leaves it as it was. -/
theorem Hub.AlarmRun.isActive_eq {raises clears : AlarmKey → Prop} {h g : Hub} {key : AlarmKey} (a : Hub.AlarmRun raises clears h g)
    (hlegal : h.alarms.Legal) (hover : key ≠ .hub .agentOverload) (hfull : key.kind ≠ .alarmTableFull) (hr : ∀ k, raises k → k ≠ key)
    (hc : ∀ k, clears k → k ≠ key ∧ k.kind ≠ .alarmTableFull) : g.isActive key = h.isActive key := by
  cases hh : h.isActive key with
  | true => exact a.isActive hh hc
  | false => exact (a.inactive hlegal hh hover hfull hr).2

/-- What follows the alarms of a change from `old` (R96, R97). -/
theorem Hub.AlarmRun.handedOn (h : Hub) (n : Slot) (old new : SlotState) (left : Bool) (reason : SlotReason) (grants : List (Slot × Bool)) :
    Hub.AlarmRun (· ∈ timingKeys) (HandOnClears n) h
      ((((h.clearReported n).handOn n old left).slotNotice n old new reason).announceGrants grants) :=
  (announceGrants _ _ fun _ => .inr (.inr rfl)).after <| (slotNotice _ _ _ _ _).after <|
    (handOn (fun _ => id) _ n old left fun _ hk => .inl hk).after <| clearReported _ n fun _ hk => .inr (.inl hk)

theorem Hub.AlarmRoom.of_eq {h g : Hub} (he : g.alarms = h.alarms) (hroom : h.AlarmRoom) : g.AlarmRoom := by
  unfold Hub.AlarmRoom at hroom ⊢
  rwa [he]

theorem Hub.isActive_congr {h g : Hub} (he : g.alarms = h.alarms) (key : AlarmKey) : g.isActive key = h.isActive key := by
  unfold Hub.isActive
  rw [he]

/-- SURPRISE_EXTRACTION is raised among the alarms of an entry to EMPTY, from a state in service. -/
theorem Hub.enterEmpty_alarms (h : Hub) (n : Slot) : ∃ g,
    Hub.AlarmRun (· ∈ disableKeys n) (SlotKey n [.powerWait, .cardMismatch, .linkLost, .slotFault]) h g ∧
      Hub.AlarmRun (· ∈ timingKeys) (HandOnClears n) (g.raiseIf h.slots[n].state.inService (.slot n .surpriseExtraction))
        (h.enterEmpty n) := by
  unfold Hub.enterEmpty
  extract_lets r wasLocked
  refine ⟨_, ?_, Hub.AlarmRun.handedOn _ n r.state .empty wasLocked .removed _⟩
  exact (Hub.AlarmRun.clearIf _ _ (SlotKey.slot (by decide))).after <| (Hub.AlarmRun.clearIf _ _ (SlotKey.slot (by decide))).after <|
    (Hub.AlarmRun.clear _ (SlotKey.slot (by decide))).after <| (Hub.AlarmRun.clearWait _ _ _ (SlotKey.slot (by decide))).after <|
    (Hub.AlarmRun.serve _).after <| Hub.AlarmRun.powerDown h n .empty _ List.mem_cons_self

/-- The keys that what is handed on may clear are not those of a slot's fault conditions. -/
theorem HandOnClears.ne {n m : Slot} {key : AlarmKey} {kind : AlarmKind} (hk : HandOnClears n key)
    (hkind : kind ∉ [.timingPathLost, .phaseOutOfLimit, .referenceLost, .holdoverActive, .holdoverLapsed, .cardReported, .powerWait]) :
    key ≠ .slot m kind ∧ key.kind ≠ .alarmTableFull := by
  have hleave : ∀ k ∈ leaveKeys n, k.kind ∈ [AlarmKind.timingPathLost, .phaseOutOfLimit, .referenceLost, .holdoverActive, .holdoverLapsed] := by
    simp [leaveKeys, timingKeys, AlarmKey.slot, AlarmKey.hub]
  have hone : key.kind ∈ [AlarmKind.timingPathLost, .phaseOutOfLimit, .referenceLost, .holdoverActive, .holdoverLapsed, .cardReported,
      .powerWait] := by
    obtain hl | hl | hl := hk
    · exact List.mem_append_left [AlarmKind.cardReported, .powerWait] (hleave key hl)
    · rw [hl]; decide
    · rw [hl]; decide
  constructor
  · rintro rfl; exact hkind hone
  · intro hfull; rw [hfull] at hone; exact absurd hone (by decide)

theorem Hub.enterEmpty_surprise {h : Hub} (n : Slot) (hroom : h.AlarmRoom) :
    (h.enterEmpty n).isActive (.slot n .surpriseExtraction) =
      (h.slots[n].state.inService || h.isActive (.slot n .surpriseExtraction)) := by
  obtain ⟨hlegal, hlen⟩ := hroom
  obtain ⟨g, hbefore, hafter⟩ := h.enterEmpty_alarms n
  have hclears : ∀ k, HandOnClears n k → k ≠ .slot n .surpriseExtraction ∧ k.kind ≠ .alarmTableFull := fun k hk => hk.ne (by decide)
  have howed : ∀ k, SlotKey n [.powerWait, .cardMismatch, .linkLost, .slotFault] k →
      k ≠ .slot n .surpriseExtraction ∧ k.kind ≠ .alarmTableFull := fun k hk => hk.ne (by decide) (by decide)
  cases hin : h.slots[n].state.inService with
  | true =>
    rw [hin] at hafter
    refine hafter.isActive (Hub.raise_isActive ?_) hclears
    exact (hbefore.mono (raises' := (· ∈ .slot n .surpriseExtraction :: disableKeys n)) (fun _ => List.mem_cons_of_mem _) fun _ => id).room
      _ (by simp [disableKeys]) (fun _ => id) (by simp [disableKeys]; omega) List.mem_cons_self
  | false =>
    rw [hin] at hafter
    have hsame : g.isActive (.slot n .surpriseExtraction) = h.isActive (.slot n .surpriseExtraction) :=
      hbefore.isActive_eq hlegal (by simp [AlarmKey.slot, AlarmKey.hub]) (by simp [AlarmKey.slot])
        (by simp [disableKeys, AlarmKey.slot, AlarmKey.hub]) howed
    rw [Bool.false_or, ← hsame]
    exact hafter.isActive_eq (hbefore.legal hlegal) (by simp [AlarmKey.slot, AlarmKey.hub]) (by simp [AlarmKey.slot])
      (by simp [timingKeys, AlarmKey.slot, AlarmKey.hub]) hclears

/-! ## The statements -/

theorem State.onHub_to {s : State} {f : Hub → Hub} {g : Hub} (hf : f s.hub = g) : s.onHub f = .next { s with hub := g } := hf ▸ rfl

theorem State.onHub_same {s : State} {f : Hub → Hub} (hf : f s.hub = s.hub) : s.onHub f = .next s := State.onHub_to hf

theorem exec_rawInputChange (s : State) (n : Slot) (input : RawInput) : exec (.rawInputChange n input) s = s.onHub (·.rawInput n input) := rfl

theorem exec_powerWait (s : State) (n : Slot) : exec (.powerWait n) s = s.onHub (·.powerWait n) := rfl

/-- Settles O26: each input of the row changes the fields of its own, in one record. -/
theorem rawInputChange : Obligations.RawInputChange := by
  intro s n
  refine ⟨fun level => ?_, fun closed => ?_, fun _ => rfl⟩
  · by_cases hsame : s.hub.slots[n].rawPresent = level
    · rw [exec_rawInputChange, if_pos hsame]
      exact State.onHub_same (if_pos hsame)
    · rw [exec_rawInputChange, if_neg hsame]
      exact State.onHub_to (if_neg hsame)
  · by_cases hsame : s.hub.slots[n].rawLatch = closed
    · rw [exec_rawInputChange, if_pos hsame]
      exact State.onHub_same (if_pos hsame)
    · rw [exec_rawInputChange, if_neg hsame]
      exact State.onHub_to (if_neg hsame)

/-- POWER_WAIT raised for a slot leaves the slots' records, the settings, the clock and the wait list. -/
theorem Hub.powerWait_of_waiting {h : Hub} {n : Slot} (hin : n ∈ h.manager.waitList) (hnot : h.slots[n].waitRaised = false) :
    h.powerWait n = (h.modSlot n fun r => { r with waitRaised := true }).raise (.slot n .powerWait) :=
  if_pos ⟨hin, by rw [hnot]; rfl⟩

/-- Settles O29: POWER_WAIT is one field of the record and one raise, which the frame of a raise describes. -/
theorem powerWait : Obligations.PowerWait := by
  intro s n
  refine ⟨fun hin hnot => ?_, fun hout => ?_⟩
  · have hframe := Hub.raise_handsOn (s.hub.modSlot n fun r => { r with waitRaised := true }) (.slot n .powerWait)
    exact ⟨_, State.onHub_to (Hub.powerWait_of_waiting hin hnot), hframe.slots, hframe.tables, hframe.clock, hframe.waitList, fun hroom => Hub.raise_isActive hroom⟩
  · have hnot : ¬ (n ∈ s.hub.manager.waitList ∧ (!s.hub.slots[n].waitRaised) = true) := by
      rintro ⟨hin, hr⟩
      rcases hout with h | h
      · exact h hin
      · rw [h] at hr; cases hr
    rw [exec_powerWait]
    exact State.onHub_same (if_neg hnot)

/-! ## The service of the wait list -/

/-- A service takes slots from the head of the list, in order, and hands on the slots it took. -/
theorem Hub.serveAt_prefix (depth : Nat) (h : Hub) (hn : h.manager.waitList.Nodup) : ∃ k,
    (Hub.serveAt depth h).1.manager.waitList = h.manager.waitList.drop k ∧
      (Hub.serveAt depth h).2.map (·.1) = h.manager.waitList.take k := by
  induction depth generalizing h with
  | zero => exact ⟨0, rfl, rfl⟩
  | succ depth ih =>
    cases hw : h.manager.waitList with
    | nil => exact ⟨0, by simp only [Hub.serveAt, hw, List.drop_nil], by simp only [Hub.serveAt, hw, List.map_nil, List.take_nil]⟩
    | cons n rest =>
      by_cases hb : h.committed + h.slots[n].watts ≤ h.tables.budget
      · rw [hw, List.nodup_cons] at hn
        obtain ⟨hout, hn⟩ := hn
        have hrest : (h.grant n).manager.waitList = rest := by
          rw [Hub.grant_waitList, hw, List.filter_cons_of_neg (by simp)]
          exact List.filter_eq_self.mpr fun m hm => bne_iff_ne.mpr fun he => hout (he ▸ hm)
        obtain ⟨k, hdrop, htake⟩ := ih (h.grant n) (hrest ▸ hn)
        rw [hrest] at hdrop htake
        refine ⟨k + 1, ?_, ?_⟩
        · simp only [Hub.serveAt, hw, if_pos hb, List.drop_succ_cons, hdrop]
        · simp only [Hub.serveAt, hw, if_pos hb, List.map_cons, List.take_succ_cons, htake]
      · exact ⟨0, by simp only [Hub.serveAt, hw, if_neg hb, List.drop_zero], by simp only [Hub.serveAt, hw, if_neg hb, List.map_nil, List.take_zero]⟩

/-- A service powers a slot only where it fits under the budget. -/
theorem Hub.serveAt_withinBudget (depth : Nat) (h : Hub) (hh : h.WithinBudget) : (Hub.serveAt depth h).1.WithinBudget := by
  induction depth generalizing h with
  | zero => exact hh
  | succ depth ih =>
    cases hw : h.manager.waitList with
    | nil => simpa only [Hub.serveAt, hw] using hh
    | cons n rest =>
      by_cases hb : h.committed + h.slots[n].watts ≤ h.tables.budget
      · have hgranted := ih (h.grant n) ((h.committed_grant n).trans hb)
        simpa only [Hub.serveAt, hw, if_pos hb] using hgranted
      · simpa only [Hub.serveAt, hw, if_neg hb] using hh

/-- Settles O28: the slots taken are the first of the list, and each slot of the list is among them or behind them. -/
theorem waitListService : Obligations.WaitListService := by
  intro h hlegal
  obtain ⟨hnodup, -⟩ := hlegal
  obtain ⟨k, hdrop, htake⟩ := Hub.serveAt_prefix h.manager.waitList.length h hnodup
  have hsplit : ∀ n ∈ h.manager.waitList.take k, n ∉ h.manager.waitList.drop k := fun n hn hd =>
    List.disjoint_of_nodup_append ((List.take_append_drop k _).symm ▸ hnodup) hn hd
  refine ⟨h.serve_listServed, Hub.serveAt_withinBudget _ h, k, hdrop, htake, fun n hn => ?_, fun n hn => ?_, h.serve_frame⟩
  · obtain ⟨hiff, -⟩ | ⟨-, -, hpowered⟩ := h.serve_place n
    · have hleft : n ∈ h.serve.1.manager.waitList := hiff.mpr (List.mem_of_mem_take hn)
      exact absurd (hdrop ▸ hleft) (hsplit n hn)
    · exact hpowered
  · obtain ⟨-, hsame⟩ | ⟨hin, hout, -⟩ := h.serve_place n
    · exact hsame
    · rw [← List.take_append_drop k h.manager.waitList, List.mem_append] at hin
      exact absurd (hdrop ▸ hin.resolve_left hn : n ∈ h.serve.1.manager.waitList) hout

/-! ## The ends of a debounce -/

theorem Hub.OthersStand.of_modSlot {h g : Hub} {n : Slot} {f : SlotRec → SlotRec} (ho : Hub.OthersStand (h.modSlot n f) g n) :
    Hub.OthersStand h g n := by
  obtain ⟨hslots, hrest⟩ := ho
  refine ⟨fun m hm => ?_, hrest⟩
  have hslot := hslots m hm
  rwa [Hub.modSlot_other _ _ _ _ hm.symm] at hslot

theorem Hub.Seated.of_modSlot {h g : Hub} {n : Slot} {f : SlotRec → SlotRec} {joins : Bool}
    (hs : Hub.Seated (h.modSlot n f) g n (h.modSlot n f).slots[n] joins) : Hub.Seated h g n (f h.slots[n]) joins := by
  obtain ⟨hslot, ho⟩ := hs
  rw [Hub.modSlot_self] at hslot
  exact ⟨hslot, ho.of_modSlot⟩

/-- The record with its card found gone. -/
def SlotRec.absent (r : SlotRec) : SlotRec := { r with presence := false, presenceTimer := none }

/-- The record with its latch found CLOSED. -/
def SlotRec.closed (r : SlotRec) : SlotRec := { r with latchClosed := true, latchTimer := none }

theorem exec_presencePresent (s : State) (n : Slot) : exec (.presencePresent n) s = s.onHub (·.presencePresent n) := rfl

theorem exec_presenceAbsent (s : State) (n : Slot) : exec (.presenceAbsent n) s = s.onHub (·.presenceAbsent n) := rfl

theorem exec_latchClosed (s : State) (n : Slot) : exec (.latchClosed n) s = s.onHub (·.latchCloses n) := rfl

section

variable {h : Hub} {n : Slot}

theorem Hub.presencePresent_of_empty (hends : h.slots[n].presenceEnds true = true) (hempty : h.slots[n].state = .empty) :
    h.presencePresent n = (h.modSlot n fun r =>
      { r with presence := true, presenceTimer := none, powerClass := some (classOfPins r.pcode) }).enterSeated n false .inserted := by
  unfold Hub.presencePresent
  rw [if_neg (by rw [hends]; decide), if_pos (by rw [Hub.modSlot_self]; exact hempty), Hub.modSlot_modSlot]
  rfl

theorem Hub.presencePresent_of_taken (hends : h.slots[n].presenceEnds true = true) (htaken : h.slots[n].state ≠ .empty) :
    h.presencePresent n = h.modSlot n fun r => { r with presence := true, presenceTimer := none } := by
  unfold Hub.presencePresent
  rw [if_neg (by rw [hends]; decide), if_neg (by rw [Hub.modSlot_self]; exact htaken)]

theorem Hub.presenceAbsent_of_taken (hends : h.slots[n].presenceEnds false = true) (htaken : h.slots[n].state ≠ .empty) :
    h.presenceAbsent n = (h.modSlot n SlotRec.absent).enterEmpty n := by
  unfold Hub.presenceAbsent
  rw [if_neg (by rw [hends]; decide), if_neg (by rw [Hub.modSlot_self]; exact htaken)]
  rfl

theorem Hub.presenceAbsent_of_empty (hends : h.slots[n].presenceEnds false = true) (hempty : h.slots[n].state = .empty) :
    h.presenceAbsent n = h.modSlot n SlotRec.absent := by
  unfold Hub.presenceAbsent
  rw [if_neg (by rw [hends]; decide), if_pos (by rw [Hub.modSlot_self]; exact hempty)]
  rfl

theorem Hub.latchCloses_cases (hends : h.slots[n].latchEnds true = true) : h.latchCloses n =
    match h.slots[n].state with
    | .seated => if h.tables.plan[n].expected then
        (((h.modSlot n SlotRec.closed).join n).serve.1.announceGrants ((h.modSlot n SlotRec.closed).join n).serve.2)
      else h.modSlot n SlotRec.closed
    | .off => if h.slots[n].presence then (h.modSlot n SlotRec.closed).enterSeated n false .latchClosed else h.modSlot n SlotRec.closed
    | _ => h.modSlot n SlotRec.closed := by
  unfold Hub.latchCloses
  rw [if_neg (by rw [hends]; decide)]
  simp only [Hub.modSlot_self, Hub.modSlot_tables]
  rfl

end

/-- PRESENCE_PRESENT seats an EMPTY slot. -/
theorem exec_presencePresent_seats (s : State) (n : Slot) (hends : s.hub.slots[n].presenceEnds true = true)
    (hempty : s.hub.slots[n].state = .empty) (hw : n ∉ s.hub.manager.waitList) :
    ∃ t, exec (.presencePresent n) s = .next t ∧ t.eeprom = s.eeprom ∧
      Hub.Seated s.hub t.hub n { s.hub.slots[n] with
        presence := true, presenceTimer := none, powerClass := some (classOfPins s.hub.slots[n].pcode) } false :=
  ⟨_, (exec_presencePresent s n).trans (State.onHub_to (Hub.presencePresent_of_empty hends hempty)), rfl,
    Hub.Seated.of_modSlot (Hub.enterSeated_spec _ n false _ hw)⟩

/-- LATCH_CLOSED lets an expected SEATED slot join the list. -/
theorem exec_latchClosed_joins (s : State) (n : Slot) (hends : s.hub.slots[n].latchEnds true = true)
    (hstate : s.hub.slots[n].state = .seated) (hexp : s.hub.tables.plan[n].expected = true) (hw : n ∉ s.hub.manager.waitList) :
    ∃ t, exec (.latchClosed n) s = .next t ∧ t.eeprom = s.eeprom ∧ Hub.Joined s.hub t.hub n s.hub.slots[n].closed ∧
      Hub.OthersStand s.hub t.hub n := by
  have hcases := Hub.latchCloses_cases hends
  rw [hstate, if_pos hexp] at hcases
  obtain ⟨hjoined, hothers⟩ := Hub.joined_spec (s.hub.modSlot n SlotRec.closed) n hw
  rw [Hub.modSlot_self] at hjoined
  exact ⟨_, (exec_latchClosed s n).trans (State.onHub_to hcases), rfl, hjoined, hothers.of_modSlot⟩

/-- LATCH_CLOSED seats an OFF slot with a card. -/
theorem exec_latchClosed_seats (s : State) (n : Slot) (hends : s.hub.slots[n].latchEnds true = true)
    (hstate : s.hub.slots[n].state = .off) (hcard : s.hub.slots[n].presence = true) (hw : n ∉ s.hub.manager.waitList) :
    ∃ t, exec (.latchClosed n) s = .next t ∧ t.eeprom = s.eeprom ∧ Hub.Seated s.hub t.hub n s.hub.slots[n].closed false := by
  have hcases := Hub.latchCloses_cases hends
  rw [hstate, if_pos hcard] at hcases
  exact ⟨_, (exec_latchClosed s n).trans (State.onHub_to hcases), rfl,
    Hub.Seated.of_modSlot (Hub.enterSeated_spec (s.hub.modSlot n SlotRec.closed) n false _ hw)⟩

/-- Otherwise LATCH_CLOSED changes the debounced value alone. -/
theorem exec_latchClosed_only (s : State) (n : Slot) (hends : s.hub.slots[n].latchEnds true = true)
    (hseated : s.hub.slots[n].state = .seated → s.hub.tables.plan[n].expected = false)
    (hoff : s.hub.slots[n].state = .off → s.hub.slots[n].presence = false) :
    exec (.latchClosed n) s = .next { s with hub := s.hub.modSlot n SlotRec.closed } := by
  rw [exec_latchClosed]
  refine State.onHub_to ((Hub.latchCloses_cases hends).trans ?_)
  split
  · next he => exact if_neg (by rw [hseated he]; decide)
  · next he => exact if_neg (by rw [hoff he]; decide)
  · rfl

/-- PRESENCE_ABSENT empties a slot. -/
theorem exec_presenceAbsent_empties (s : State) (n : Slot) (hends : s.hub.slots[n].presenceEnds false = true)
    (htaken : s.hub.slots[n].state ≠ .empty) :
    ∃ t, exec (.presenceAbsent n) s = .next t ∧ t.eeprom = s.eeprom ∧ t.hub.slots[n] = s.hub.slots[n].absent.inEmpty s.hub.stamp ∧
      t.hub.ShutOff n ∧ Hub.OthersStand s.hub t.hub n ∧ (s.hub.AlarmRoom → t.hub.isActive (.slot n .surpriseExtraction) =
        (s.hub.slots[n].state.inService || s.hub.isActive (.slot n .surpriseExtraction))) := by
  obtain ⟨hslot, hshut, hothers⟩ := Hub.enterEmpty_spec (s.hub.modSlot n SlotRec.absent) n
  rw [Hub.modSlot_self] at hslot
  refine ⟨_, (exec_presenceAbsent s n).trans (State.onHub_to (Hub.presenceAbsent_of_taken hends htaken)), rfl, ?_⟩
  dsimp only
  refine ⟨hslot, hshut, hothers.of_modSlot, fun hroom => ?_⟩
  rw [Hub.enterEmpty_surprise n (hroom.of_eq (Hub.modSlot_alarms _ _ _)), Hub.modSlot_self, Hub.isActive_congr (Hub.modSlot_alarms _ _ _)]
  rfl

/-- Settles O27: each end of a debounce changes the debounced value, and what follows is the entry to a state or a join, whose specifications
the support layer gives. -/
theorem presenceAndLatch : Obligations.PresenceAndLatch := by
  refine ⟨fun s n => ⟨exec_presencePresent_seats s n, fun hends htaken => ?_, fun hends => ?_⟩, fun s n hends => ⟨?_, ?_, ?_, ?_, ?_⟩,
    fun s n hends => ⟨exec_presenceAbsent_empties s n hends, fun hempty => ?_⟩⟩
  · rw [exec_presencePresent]
    exact State.onHub_to (Hub.presencePresent_of_taken hends htaken)
  · rw [exec_presencePresent]
    exact State.onHub_same (if_pos (by rw [hends]; rfl))
  · exact exec_latchClosed_joins s n hends
  · exact fun hstate hexp => exec_latchClosed_only s n hends (fun _ => hexp) fun hoff => absurd (hstate.symm.trans hoff) (by decide)
  · exact exec_latchClosed_seats s n hends
  · exact fun hstate hcard => exec_latchClosed_only s n hends (fun hseated => absurd (hstate.symm.trans hseated) (by decide)) fun _ => hcard
  · exact fun hseated hoff => exec_latchClosed_only s n hends (fun he => absurd he hseated) fun he => absurd he hoff
  · rw [exec_presenceAbsent]
    exact State.onHub_to (Hub.presenceAbsent_of_empty hends hempty)

end Sys2Proof.Machine
end

section
/-! PROOFS. What follows a change of a slot (R96), said once for properties that look at the alarm table, the queues and the links. -/

namespace Sys2Proof.Machine

/-! ## Records of one key that are all ACTIVE, or none of them

The table of a state need not be legal; these properties do without one record for each key. -/

/-- Every record of a key is ACTIVE, or none is. -/
def Alarms.Uniform (a : Alarms) (k : AlarmKey) (active : Bool) : Prop := ∀ x ∈ a.recs, x.key = k → x.active = active

theorem Alarms.Uniform.update {a : Alarms} {k key : AlarmKey} {b : Bool} {f : AlarmRec → AlarmRec} (ha : key ≠ k → a.Uniform k b)
    (hkey : ∀ r, (f r).key = r.key) (hf : key = k → ∀ r, (f r).active = b) (hfull : k.kind ≠ .alarmTableFull) : (a.update key f).Uniform k b := by
  intro x hx hxk
  unfold Alarms.update at hx
  split at hx
  · next hk => exact ha (fun he => hfull (he ▸ hk)) x hx hxk
  · obtain ⟨r, hr, rfl⟩ := List.mem_map.mp hx
    split at hxk
    · next hrk =>
      rw [if_pos hrk]
      rw [hkey, hrk] at hxk
      exact hf hxk r
    · next hrk =>
      rw [if_neg hrk]
      exact ha (fun he => hrk (hxk.trans he.symm)) r hr hxk

theorem Alarms.Uniform.create {a a' : Alarms} {k : AlarmKey} {b : Bool} {r : AlarmRec} (ha : a.Uniform k b) (hr : r.key = k → r.active = b)
    (hc : a.create r = some a') : a'.Uniform k b := by
  intro x hx hxk
  obtain hold | rfl := Alarms.mem_create hc hx
  · exact ha x hold hxk
  · exact hr hxk

/-- Raises keep the records of a key ACTIVE, and raises of other keys keep them not; clears the other way round. -/
theorem AlarmSteps.uniform (k : AlarmKey) (b : Bool) (hover : b = true ∨ k ≠ .hub .agentOverload) (hfull : k.kind ≠ .alarmTableFull) :
    AlarmSteps (fun key => b = true ∨ key ≠ k) (fun key => b = false ∨ key ≠ k) fun h => h.alarms.Uniform k b where
  toTellClosed := TellClosed.ofRecords fun full recs => ({ full, recs } : Alarms).Uniform k b
  renewed _ _ _ hk hh := Alarms.Uniform.update (fun _ => hh) (fun _ => rfl) (fun he _ => (hk.resolve_right (· he)).symm) hfull
  created h key reported _ hk _ hc hh := Alarms.Uniform.create (r := h.newRecord key reported) hh (fun he => (hk.resolve_right (· he)).symm) hc
  lapsed _ _ hk hh := Alarms.Uniform.update (fun _ => hh) (fun _ => rfl) (fun he _ => (hk.resolve_right (· he)).symm) hfull
  overload := hover.imp_right Ne.symm
  tableFull := .inr fun he => hfull (he ▸ rfl)

theorem Alarms.Uniform.inactive {h : Hub} {k : AlarmKey} (hfull : k.kind ≠ .alarmTableFull) (hh : h.alarms.Uniform k false) :
    h.isActive k = false := by
  rw [Hub.isActive_iff]
  unfold Alarms.record
  rw [if_neg hfull]
  cases hfind : h.alarms.recs.find? fun r => r.key == k with
  | none => rfl
  | some x => exact hh x (List.mem_of_find?_eq_some hfind) (by simpa using List.find?_some hfind)

/-- With no record of a key found there is none. -/
theorem Alarms.uniform_of_find_eq_none {a : Alarms} {k : AlarmKey} (b : Bool) (hfull : k.kind ≠ .alarmTableFull) (hf : a.find k = none) :
    a.Uniform k b := fun x hx hxk => absurd (List.mem_map.mpr ⟨x, hx, hxk⟩) ((Alarms.find_none hf).2 hfull)

theorem Hub.raise_uniform (h : Hub) {k : AlarmKey} (hfull : k.kind ≠ .alarmTableFull) : (h.raise k).alarms.Uniform k true := by
  have hsteps := AlarmSteps.uniform k true (.inl rfl) hfull
  have hover : ∀ g : Hub, g.alarms.Uniform k true → (Hub.raiseAt 7 (.hub .agentOverload) none g).alarms.Uniform k true := fun g hg =>
    hsteps.raiseAt 7 hg _ _ (.inl rfl)
  have hraise : h.raise k = h.raiseWith (fun k h => Hub.raiseAt 7 k none h) k none := rfl
  have hrenewed : (h.renewed k none).Uniform k true := Alarms.Uniform.update (fun hne => absurd rfl hne) (fun _ => rfl) (fun _ _ => rfl) hfull
  obtain ⟨p, hfind, ⟨reason, hr⟩ | ⟨-, -, hr⟩⟩ | ⟨hfind, ⟨a, hcreate, hr⟩ | ⟨-, hr⟩⟩ :=
    h.raiseWith_cases (fun k h => Hub.raiseAt 7 k none h) k none
  · rw [hraise, hr]; exact hsteps.changedWith hover (h := { h with alarms := h.renewed k none }) hrenewed k reason
  · rw [hraise, hr]; exact hrenewed
  · rw [hraise, hr]
    have hnew : a.Uniform k true :=
      Alarms.Uniform.create (r := h.newRecord k none) (Alarms.uniform_of_find_eq_none true hfull hfind) (fun _ => rfl) hcreate
    exact hsteps.changedWith hover (h := { h with alarms := a }) hnew k .created
  · rw [hraise, hr]
    exact hsteps.raiseAt 7 (Alarms.uniform_of_find_eq_none true hfull hfind) _ _ (.inl rfl)

theorem Hub.clear_uniform {h : Hub} {k : AlarmKey} (hover : k ≠ .hub .agentOverload) (hfull : k.kind ≠ .alarmTableFull)
    (hh : h.alarms.Uniform k true) : (h.clear k).alarms.Uniform k false := by
  have hsteps := AlarmSteps.uniform k false (.inr hover) hfull
  obtain ⟨-, hr⟩ | ⟨hoff, hr⟩ := h.clear_cases k
  · rw [hr]
    have hlapsed : (h.lapsed k).Uniform k false := Alarms.Uniform.update (fun hne => absurd rfl hne) (fun _ => rfl) (fun _ _ => rfl) hfull
    exact hsteps.changedWith hsteps.raiseOverload (h := { h with alarms := h.lapsed k }) hlapsed k .cleared
  · rw [hr]
    rw [Hub.isActive_iff] at hoff
    unfold Alarms.record at hoff
    rw [if_neg hfull] at hoff
    intro x hx hxk
    obtain ⟨y, hy⟩ := Option.isSome_iff_exists.mp (List.find?_isSome.mpr ⟨x, hx, beq_iff_eq.mpr hxk⟩ :
      (h.alarms.recs.find? fun r => r.key == k).isSome = true)
    rw [hy] at hoff
    have hactive : y.active = true := hh y (List.mem_of_find?_eq_some hy) (by simpa using List.find?_some hy)
    exact absurd (hactive.symm.trans hoff) (by decide)

theorem Hub.AlarmRun.uniform {raises clears : AlarmKey → Prop} {h g : Hub} {k : AlarmKey} {b : Bool} (a : Hub.AlarmRun raises clears h g)
    (hh : h.alarms.Uniform k b) (hover : b = true ∨ k ≠ .hub .agentOverload) (hfull : k.kind ≠ .alarmTableFull)
    (hr : b = true ∨ ∀ key, raises key → key ≠ k) (hc : b = false ∨ ∀ key, clears key → key ≠ k) : g.alarms.Uniform k b :=
  a _ _ (fun a => a.Uniform k b) (fun key hk => hr.imp_right (· key hk)) (fun key hk => hc.imp_right (· key hk))
    (AlarmSteps.uniform k b hover hfull) hh

/-! ## What is handed on with a change -/

/-- A property of the hub that everything handed on with a slot's change keeps (R96): the changes of the alarm table and what follows them, those
of the Timing Unit and of its records, and those of the sweep. -/
structure HandClosed (P : Hub → Prop) : Prop extends AlarmSteps (fun _ => True) (fun _ => True) P where
  timing : ∀ h t, P h → P { h with timing := t }
  endEligible : ∀ h n, P h → P (h.modTrec n TimingRec.endEligible)
  resetWindow : ∀ h n, P h → P (h.modTrec n TimingRec.resetWindow)
  setSweep : ∀ h w, P h → P (h.setSweep w)
  endSweep : ∀ h, P h → P h.endSweep

namespace HandClosed

variable {P : Hub → Prop} (hP : HandClosed P) {h : Hub}

include hP

theorem timingNotice (hh : P h) (old new : Timing) (reason : TimingReason) : P (h.timingNotice old new reason) := by
  unfold Hub.timingNotice
  split
  · exact hh
  · exact hP.notice _ _ _ hh

theorem follow (hh : P h) (kind : AlarmKind) (was is : Bool) : P (h.follow kind was is) :=
  hP.toAlarmSteps.follow hh kind was is (fun _ => trivial) fun _ => trivial

theorem followReference (hh : P h) (mayRaise : Bool) : P (h.followReference mayRaise) := by
  unfold Hub.followReference
  exact hP.follow (hP.timing _ _ hh) _ _ _

theorem timingResults (hh : P h) (old : TimingState) (mayRaise : Bool) : P (h.timingResults old mayRaise) := by
  unfold Hub.timingResults
  extract_lets new h1 h2 h3
  have hconditions : P h3 := hP.follow (hP.follow (hP.followReference hh mayRaise) _ _ _) _ _ _
  split
  · exact hconditions
  · exact hP.judgeOutputs _ (hP.judgePermits hconditions _)

theorem setTiming (hh : P h) (new : Timing) (reason : TimingReason) (mayRaise : Bool) : P (h.setTiming new reason mayRaise) := by
  unfold Hub.setTiming
  exact hP.timingResults (hP.timingNotice (hP.timing _ _ hh) _ _ _) _ _

theorem sourceLeft (hh : P h) (n : Slot) : P (h.sourceLeft n) := by
  unfold Hub.sourceLeft
  split
  · exact hP.setTiming hh _ _ _
  · exact hh

theorem windowReset (hh : P h) (n : Slot) : P (h.windowReset n) := by
  unfold Hub.windowReset
  exact hP.judgePermit (hP.sourceLeft (hP.resetWindow _ _ hh) _) _ _

theorem leaveSweep (hh : P h) (n : Slot) : P (h.leaveSweep n) := by
  unfold Hub.leaveSweep Hub.endSweepIfDone
  split
  · split
    · exact hP.endSweep _ (hP.setSweep _ _ hh)
    · exact hP.setSweep _ _ hh
  · exact hh

theorem clearIf (hh : P h) (held : Bool) (key : AlarmKey) : P (h.clearIf held key) :=
  hP.toAlarmSteps.clearIf hh held key fun _ => trivial

theorem leaveForwarding (hh : P h) (n : Slot) : P (h.leaveForwarding n) := by
  unfold Hub.leaveForwarding
  have hended := hP.clearIf (hP.clearIf (hP.endEligible _ n hh) h.trecs[n].pathLost (.slot n .timingPathLost)) h.trecs[n].phaseCond
    (.slot n .phaseOutOfLimit)
  exact hP.leaveSweep (hP.judgeOutputs _ (hP.judgePermit (hP.sourceLeft hended n) .slotState n)) n

theorem handOn (hh : P h) (n : Slot) (old : SlotState) (linkLeft : Bool) : P (h.handOn n old linkLeft) := by
  unfold Hub.handOn
  extract_lets h1
  have hleft : P h1 := by
    unfold h1
    split
    · exact hP.leaveForwarding hh n
    · exact hh
  split
  · exact hP.windowReset hleft n
  · exact hleft

theorem slotNotice (hh : P h) (n : Slot) (old new : SlotState) (reason : SlotReason) : P (h.slotNotice n old new reason) :=
  hP.notice _ _ _ hh

end HandClosed

/-! ## The frames that are told leave a slot out of service alone -/

/-- `g` follows on `h` by what is told of changes: no slot record changes; the link and the port of a slot that takes no agent frames stand;
only a FORWARDING slot's CONTROL queue gains a frame; and every stored frame stays. -/
structure Hub.Follows (h g : Hub) : Prop where
  slots : g.slots = h.slots
  links : ∀ n : Slot, h.slots[n].state.takesAgent .control = false → g.links[n] = h.links[n]
  ports : ∀ n : Slot, h.slots[n].state.takesAgent .control = false → g.ports[n] = h.ports[n]
  controlQ : ∀ n : Slot, h.slots[n].state ≠ .forwarding → g.ports[n].controlQ = h.ports[n].controlQ
  frames : ∀ f ∈ h.store.frames, f ∈ g.store.frames

namespace Hub.Follows

variable {h g k : Hub}

theorem of_eq (hs : g.slots = h.slots) (hl : g.links = h.links) (hp : g.ports = h.ports) (ht : g.store = h.store) : Hub.Follows h g :=
  ⟨hs, fun n _ => by rw [hl], fun n _ => by rw [hp], fun n _ => by rw [hp], fun f hf => by rw [ht]; exact hf⟩

theorem refl (h : Hub) : Hub.Follows h h := of_eq rfl rfl rfl rfl

theorem trans (a : Hub.Follows h g) (b : Hub.Follows g k) : Hub.Follows h k where
  slots := b.slots.trans a.slots
  links n hn := (b.links n (by rw [a.slots]; exact hn)).trans (a.links n hn)
  ports n hn := (b.ports n (by rw [a.slots]; exact hn)).trans (a.ports n hn)
  controlQ n hn := (b.controlQ n (by rw [a.slots]; exact hn)).trans (a.controlQ n hn)
  frames f hf := b.frames f (a.frames f hf)

/-- The judgment of a slot that takes agent frames. -/
theorem schedule (h : Hub) (n : Slot) (hn : h.slots[n].state.takesAgent .control = true) : Hub.Follows h (h.schedule n) := by
  rcases h.schedule_cases n with he | ⟨t, -, -, he⟩
  · rw [he]; exact refl h
  · rw [he]
    refine ⟨rfl, fun m hm => ?_, fun _ _ => rfl, fun _ _ => rfl, fun _ hf => hf⟩
    have hne : n ≠ m := by rintro rfl; rw [hn] at hm; cases hm
    rw [Hub.modLink_other _ _ _ _ hne]

theorem takesAgent_control {st : SlotState} {place : Place} (hid : place ≠ .identify) (ht : st.takesAgent place = true) :
    st.takesAgent .control = true := by
  cases place with
  | identify => exact absurd rfl hid
  | timing | control | bulk => exact ht

/-- A frame put in an egress queue where frames are told. -/
theorem placed (h : Hub) (n : Slot) (place : Place) (frame : Frame) (hplace : h.Tells n place)
    (ht : h.slots[n].state.takesAgent place = true) :
    Hub.Follows h (({ h with store := h.store.put frame true 1 }.modPort n (·.enter place h.store.nextId)).schedule n) := by
  have hid : place ≠ .identify := by
    obtain rfl | ⟨rfl, -⟩ := hplace
    · decide
    · decide
  have htakes := takesAgent_control hid ht
  refine trans ?_ (schedule ({ h with store := h.store.put frame true 1 }.modPort n (·.enter place h.store.nextId)) n htakes)
  refine ⟨rfl, fun _ _ => rfl, fun m hm => ?_, fun m hm => ?_, fun f hf => List.mem_append_left _ hf⟩
  · have hne : n ≠ m := by rintro rfl; rw [htakes] at hm; cases hm
    rw [Hub.modPort_other _ _ _ _ hne]
  · by_cases hne : n = m
    · subst hne
      rw [Hub.modPort_self]
      obtain rfl | ⟨-, hserves⟩ := hplace
      · rfl
      · exact absurd hserves hm
    · rw [Hub.modPort_other _ _ _ _ hne]

theorem closed (h : Hub) : HandClosed (Hub.Follows h) where
  judgeOutputs g hg := hg.trans (of_eq rfl rfl rfl rfl)
  notice g code body hg := hg.trans (of_eq rfl rfl rfl rfl)
  changePermit g cause n hg := by
    refine hg.trans ?_
    unfold Hub.changePermit
    simp only
    split
    · exact refl g
    · exact of_eq rfl rfl rfl rfl
  fence g l hg := hg.trans (of_eq rfl rfl rfl rfl)
  refusal g hg := hg.trans (of_eq rfl rfl rfl rfl)
  placed g n place frame hplace ht _ _ hg := hg.trans (placed g n place frame hplace ht)
  renewed g key reported _ hg := hg.trans (of_eq rfl rfl rfl rfl)
  created g key reported a _ _ _ hg := hg.trans (of_eq rfl rfl rfl rfl)
  lapsed g key _ hg := hg.trans (of_eq rfl rfl rfl rfl)
  overload := trivial
  tableFull := trivial
  timing g t hg := hg.trans (of_eq rfl rfl rfl rfl)
  endEligible g n hg := hg.trans (of_eq rfl rfl rfl rfl)
  resetWindow g n hg := hg.trans (of_eq rfl rfl rfl rfl)
  setSweep g w hg := hg.trans (of_eq rfl rfl rfl rfl)
  endSweep g hg := hg.trans (of_eq rfl rfl rfl rfl)

end Hub.Follows

end Sys2Proof.Machine
end

section
/-! PROOFS. The entries to OFF, FAULTED and SEATED (sections 5.3, 5.4 and 5.7). -/

namespace Sys2Proof.Machine

section

variable {s : State} {r : Request} {rest : List Request} {n : Slot}

/-- A command whose own request, of a slot, is at the head of the inbound queue. -/
theorem State.onHub_takesFor {code : Byte} (ht : s.hub.TakesFor code r rest n) (act : Request → Slot → Hub → Hub) :
    s.onHub (Hub.take code fun r => Hub.withSlot r (act r)) = .next { s with hub := act r n (s.hub.popRequest rest) } := by
  rw [State.onHub, ht.take]

theorem exec_slotRelease_of_takes (ht : s.hub.TakesFor Code.slotRelease r rest n) :
    exec .slotRelease s = .next { s with hub := Hub.slotRelease r n (s.hub.popRequest rest) } := State.onHub_takesFor ht Hub.slotRelease

theorem exec_slotRestart_of_takes (ht : s.hub.TakesFor Code.slotRestart r rest n) :
    exec .slotRestart s = .next { s with hub := Hub.slotRestart r n (s.hub.popRequest rest) } := State.onHub_takesFor ht Hub.slotRestart

theorem exec_slotPower_of_takes (ht : s.hub.TakesFor Code.slotPower r rest n) :
    exec .slotPower s = .next { s with hub := Hub.slotPower r n (s.hub.popRequest rest) } := State.onHub_takesFor ht Hub.slotPower

end

/-- A command that acts on the hub alone leaves what its action leaves. -/
theorem State.onHub_leaves {s : State} {f : Hub → Hub} {g : Hub} {P : Hub → Prop} (hf : f s.hub = g) (hp : P g) :
    ∃ t, s.onHub f = .next t ∧ t.eeprom = s.eeprom ∧ P t.hub := ⟨_, State.onHub_to hf, rfl, hp⟩

/-! ## A request taken and answered touches no slot -/

section

variable {h g : Hub} {n : Slot} {r : Request} {rest : List Request} {inbox : List InboxFrame}

theorem Hub.ShutOff.answer (hs : g.ShutOff n) (status : Status) (body : Body) : (g.answer r status body).ShutOff n := hs

theorem Hub.OthersStand.answer (ho : Hub.OthersStand h g n) (status : Status) (body : Body) :
    Hub.OthersStand h (g.answer r status body) n := ho

theorem Hub.OthersKept.answer (ho : Hub.OthersKept h g n) (status : Status) (body : Body) :
    Hub.OthersKept h (g.answer r status body) n := ho

theorem Hub.Seated.answer {b : SlotRec} {joins : Bool} (hs : Hub.Seated h g n b joins) (status : Status) (body : Body) :
    Hub.Seated h (g.answer r status body) n b joins := hs

theorem Hub.Joined.answer {b : SlotRec} (hj : Hub.Joined h g n b) (status : Status) (body : Body) :
    Hub.Joined h (g.answer r status body) n b := hj

theorem Hub.OthersStand.of_popRequest (ho : Hub.OthersStand (h.popRequest rest) g n) : Hub.OthersStand h g n := ho

theorem Hub.OthersKept.of_popRequest (ho : Hub.OthersKept (h.popRequest rest) g n) : Hub.OthersKept h g n := ho

theorem Hub.Seated.of_popRequest {b : SlotRec} {joins : Bool} (hs : Hub.Seated (h.popRequest rest) g n b joins) :
    Hub.Seated h g n b joins := hs

theorem Hub.Joined.of_popRequest {b : SlotRec} (hj : Hub.Joined (h.popRequest rest) g n b) : Hub.Joined h g n b := hj

theorem Hub.OthersStand.of_popInbox (ho : Hub.OthersStand (h.popInbox inbox) g n) : Hub.OthersStand h g n := ho

theorem Hub.OthersKept.of_popInbox (ho : Hub.OthersKept (h.popInbox inbox) g n) : Hub.OthersKept h g n := ho

theorem Hub.OthersKept.of_modSlot {f : SlotRec → SlotRec} (ho : Hub.OthersKept (h.modSlot n f) g n) : Hub.OthersKept h g n := by
  obtain ⟨hslots, hrest⟩ := ho
  refine ⟨fun m hm => ?_, hrest⟩
  have hslot := hslots m hm
  rwa [Hub.modSlot_other _ _ _ _ hm.symm] at hslot

end

/-! ## The limits of the states -/

theorem Hub.expire_of_running {h : Hub} {n : Slot} {state : SlotState} {act : Hub → Hub} (hs : h.slots[n].state = state)
    (hl : h.slots[n].limit.isSome = true) : h.expire n state act = act h := if_pos ⟨hs, hl⟩

/-! ## OFF -/

theorem Hub.release_of_idle {h : Hub} {n : Slot} (reason : SlotReason) (hs : h.slots[n].state.bringUp = true ∨ h.slots[n].state = .faulted) :
    h.release n reason = h.enterOff n reason := by
  unfold Hub.release
  cases hst : h.slots[n].state
  case seated | powering | resetHold | linking | identifying | awaitingAdmit | faulted => rfl
  all_goals
    rw [hst] at hs
    exact absurd hs (by decide)

theorem SlotState.ne_empty_of_idle {st : SlotState} (hs : st.bringUp = true ∨ st = .faulted) : st ≠ .empty := by
  rintro rfl
  exact absurd hs (by decide)

/-- An entry to OFF raises DRAIN_FORCED among its alarms where the drain timeout forces it, and clears SLOT_FAULT where it leaves FAULTED. -/
theorem Hub.enterOffWith_alarms (forced : Bool) (h : Hub) (n : Slot) (reason : SlotReason) : ∃ g k,
    Hub.AlarmRun (· ∈ disableKeys n) (fun _ => False) h g ∧
      Hub.AlarmRun (fun _ => False) (SlotKey n [.powerWait, .cardMismatch]) (g.raiseIf forced (.slot n .drainForced)) k ∧
      Hub.AlarmRun (· ∈ timingKeys) (HandOnClears n) (k.clearIf (h.slots[n].state == .faulted) (.slot n .slotFault))
        (h.enterOffWith forced n reason) := by
  have hdown : Hub.AlarmRun (· ∈ disableKeys n) (fun _ => False) h
      (h.powerDown n .off fun r => { r.unpower true with identity := none }).serve.1 :=
    (Hub.AlarmRun.serve _).after (Hub.AlarmRun.powerDown h n .off _ List.mem_cons_self)
  unfold Hub.enterOffWith
  simp only
  generalize Hub.serve _ = k at *
  refine ⟨k.1, _, hdown, ?_, Hub.AlarmRun.handedOn _ n h.slots[n].state .off _ reason _⟩
  exact (Hub.AlarmRun.clear _ (SlotKey.slot (by decide))).after (Hub.AlarmRun.clearWait _ _ _ (SlotKey.slot (by decide)))

theorem Hub.enterOffWith_drainForced {h : Hub} (n : Slot) (reason : SlotReason) (hroom : h.AlarmRoom) (hs : h.slots[n].state ≠ .faulted) :
    (h.enterOffWith true n reason).isActive (.slot n .drainForced) = true := by
  obtain ⟨hlegal, hlen⟩ := hroom
  obtain ⟨g, k, hdown, hcleared, hafter⟩ := h.enterOffWith_alarms true n reason
  have hraised : (g.raise (.slot n .drainForced)).isActive (.slot n .drainForced) = true := by
    refine Hub.raise_isActive ?_
    exact (hdown.mono (raises' := (· ∈ .slot n .drainForced :: disableKeys n)) (fun _ => List.mem_cons_of_mem _) fun _ => id).room
      _ (by simp [disableKeys]) (fun _ => id) (by simp [disableKeys]; omega) List.mem_cons_self
  have hkept := hcleared.isActive hraised fun key hk => hk.ne (by decide) (by decide)
  rw [show (h.slots[n].state == SlotState.faulted) = false from beq_eq_false_iff_ne.mpr hs] at hafter
  exact hafter.isActive hkept fun key hk => hk.ne (by decide)

/-- SLOT_FAULT is not ACTIVE once a slot has left FAULTED for OFF, where its records all were. -/
theorem Hub.enterOff_slotFault {h : Hub} (n : Slot) (reason : SlotReason) (hs : h.slots[n].state = .faulted)
    (hh : h.alarms.Uniform (.slot n .slotFault) true) : (h.enterOff n reason).isActive (.slot n .slotFault) = false := by
  have hover : AlarmKey.slot n .slotFault ≠ .hub .agentOverload := by simp [AlarmKey.slot, AlarmKey.hub]
  have hfull : (AlarmKey.slot n .slotFault).kind ≠ .alarmTableFull := by simp [AlarmKey.slot]
  obtain ⟨g, k, hdown, hcleared, hafter⟩ := h.enterOffWith_alarms false n reason
  have hg := hdown.uniform hh (.inl rfl) hfull (.inl rfl) (.inr fun _ hk => hk.elim)
  have hk := hcleared.uniform hg (.inl rfl) hfull (.inl rfl) (.inr fun _ hk => (hk.ne (by decide) (by decide)).1)
  rw [hs] at hafter
  have hoff := hafter.uniform (Hub.clear_uniform hover hfull hk) (.inr hover) hfull
    (.inr (by simp [timingKeys, AlarmKey.slot, AlarmKey.hub])) (.inl rfl)
  exact hoff.inactive hfull

theorem Hub.slotRelease_of_idle {h : Hub} {n : Slot} (r : Request) (hidle : h.slots[n].state.bringUp = true ∨ h.slots[n].state = .faulted) :
    Hub.slotRelease r n h = (h.enterOff n (.hostRequest Code.slotRelease)).answer r .ok (.slotState .off) := by
  obtain ⟨hslot, -, -⟩ := Hub.enterOff_spec h n (.hostRequest Code.slotRelease)
  have hne : (h.slots[n].state != .empty) = true := bne_iff_ne.mpr (SlotState.ne_empty_of_idle hidle)
  unfold Hub.slotRelease
  simp only [Hub.release_of_idle _ hidle, hslot, hne]
  rfl

/-- SLOT_RELEASE takes a slot in bring-up or in FAULTED to OFF. -/
theorem exec_slotRelease_off {s : State} {n : Slot} {r : Request} {rest : List Request}
    (hidle : s.hub.slots[n].state.bringUp = true ∨ s.hub.slots[n].state = .faulted) (ht : s.hub.TakesFor Code.slotRelease r rest n) :
    ∃ t, exec .slotRelease s = .next t ∧ (t.hub.slots[n] = s.hub.slots[n].inOff s.hub.stamp ∧ t.hub.ShutOff n ∧ Hub.OthersStand s.hub t.hub n) ∧
      t.hub.port.Replied r rest .ok (.slotState .off) := by
  obtain ⟨hslot, hshut, hothers⟩ := Hub.enterOff_spec (s.hub.popRequest rest) n (.hostRequest Code.slotRelease)
  have hqueues := Hub.enterOff_queues (s.hub.popRequest rest) n (.hostRequest Code.slotRelease)
  refine ⟨_, exec_slotRelease_of_takes ht, ?_⟩
  dsimp only
  rw [Hub.slotRelease_of_idle (h := s.hub.popRequest rest) r hidle]
  generalize (s.hub.popRequest rest).enterOff n (.hostRequest Code.slotRelease) = g at *
  exact ⟨⟨hslot, hshut.answer _ _, hothers.of_popRequest.answer _ _⟩, Hub.answer_replied _ r _ _ hqueues.inbound⟩

/-- The record with its latch found OPEN. -/
def SlotRec.opened (r : SlotRec) : SlotRec := { r with latchClosed := false, latchTimer := none }

theorem exec_latchOpen_of_ends {s : State} {n : Slot} (hends : s.hub.slots[n].latchEnds false = true) :
    exec (.latchOpen n) s = .next { s with hub := (s.hub.modSlot n SlotRec.opened).release n .latchOpened } :=
  State.onHub_to (f := (·.latchOpens n)) (if_neg (by rw [hends]; decide))

/-- The latch OPEN takes a slot in bring-up or in FAULTED to OFF. -/
theorem exec_latchOpen_off {s : State} {n : Slot}
    (hidle : s.hub.slots[n].state.bringUp = true ∨ s.hub.slots[n].state = .faulted) (hends : s.hub.slots[n].latchEnds false = true) :
    ∃ t, exec (.latchOpen n) s = .next t ∧ t.hub.slots[n] = s.hub.slots[n].opened.inOff s.hub.stamp ∧ t.hub.ShutOff n ∧
      Hub.OthersStand s.hub t.hub n := by
  obtain ⟨hslot, hshut, hothers⟩ := Hub.enterOff_spec (s.hub.modSlot n SlotRec.opened) n .latchOpened
  have hrelease : (s.hub.modSlot n SlotRec.opened).release n .latchOpened = _ :=
    Hub.release_of_idle _ (by rw [Hub.modSlot_self]; exact hidle)
  refine ⟨_, exec_latchOpen_of_ends hends, ?_⟩
  dsimp only
  rw [Hub.modSlot_self] at hslot
  rw [hrelease]
  exact ⟨hslot, hshut, hothers.of_modSlot⟩

/-- The drain timeout takes a DRAINING slot to OFF. -/
theorem exec_drainTimeout_off {s : State} {n : Slot} (hstate : s.hub.slots[n].state = .draining) (hlimit : s.hub.slots[n].limit.isSome = true) :
    ∃ t, exec (.drainTimeout n) s = .next t ∧
      (t.hub.slots[n] = s.hub.slots[n].inOff s.hub.stamp ∧ t.hub.ShutOff n ∧ Hub.OthersStand s.hub t.hub n) ∧
      (s.hub.AlarmRoom → t.hub.isActive (.slot n .drainForced) = true) := by
  refine ⟨_, State.onHub_to (f := fun h => h.expire n .draining (·.drainForced n)) (Hub.expire_of_running hstate hlimit), ?_⟩
  unfold Hub.drainForced
  dsimp only
  exact ⟨Hub.enterOffWith_spec true s.hub n .timeout, fun hroom =>
    Hub.enterOffWith_drainForced n .timeout hroom (by rw [hstate]; decide)⟩

/-- Settles O36: every way to OFF is one entry, whose record, link and port the support layer gives. -/
theorem enterOff : Obligations.EnterOff := fun _ _ _ _ =>
  ⟨exec_slotRelease_off, exec_latchOpen_off, exec_drainTimeout_off⟩

/-! ## FAULTED -/

/-- An entry to FAULTED raises SLOT_FAULT, and goes on to OFF where the latch is OPEN. -/
theorem Hub.enterFaulted_alarms (h : Hub) (n : Slot) (fault : FaultReason) (reason : SlotReason) : ∃ k g,
    Hub.AlarmRun (· ∈ disableKeys n) (fun _ => False) h k ∧
      Hub.AlarmRun (· ∈ timingKeys) (fun key => SlotKey n [.linkLost] key ∨ HandOnClears n key) (k.raise (.slot n .slotFault)) g ∧
      g.slots[n].state = .faulted ∧
      h.enterFaulted n fault reason = if h.slots[n].latchClosed then g else g.enterOff n .latchOpened := by
  have hdown : Hub.AlarmRun (· ∈ disableKeys n) (fun _ => False) h
      (h.powerDown n .faulted fun r => { r.unpower false with fault := some fault }).serve.1 :=
    (Hub.AlarmRun.serve _).after (Hub.AlarmRun.powerDown h n .faulted _ List.mem_cons_self)
  obtain ⟨hslot, -⟩ := h.powerDown_spec n .faulted (fun r => { r.unpower false with fault := some fault }) (fun _ => rfl) rfl
  unfold Hub.enterFaulted
  simp only
  generalize Hub.serve _ = k at *
  have htold := (Hub.raise_handsOn k.1 (.slot n .slotFault)).trans (Hub.clearIf_handsOn _ (h.slots[n].state == .recovering) (.slot n .linkLost))
  have hcleared : Hub.AlarmRun (· ∈ timingKeys) (fun key => SlotKey n [.linkLost] key ∨ HandOnClears n key) (k.1.raise (.slot n .slotFault))
      ((k.1.raise (.slot n .slotFault)).clearIf (h.slots[n].state == .recovering) (.slot n .linkLost)) :=
    Hub.AlarmRun.clearIf _ _ (.inl (SlotKey.slot (by decide)))
  generalize Hub.clearIf (k.1.raise _) _ _ = k1 at *
  have hlast := Hub.AlarmRun.handedOn (k1.modSlot n fun r => { r with limit := some (k1.dueIn 2000) }) n h.slots[n].state .faulted
    (h.links[n].state == .locked) reason k.2
  have hrest := ((Hub.clearReported_handsOn (k1.modSlot n fun r => { r with limit := some (k1.dueIn 2000) }) n).trans
    ((Hub.handOn_handsOn _ n h.slots[n].state (h.links[n].state == .locked)).trans
      ((Hub.slotNotice_handsOn _ n h.slots[n].state .faulted reason).trans (Hub.announceGrants_handsOn _ k.2))))
  have hrecord : k1.slots[n] = _ := htold.slots ▸ hslot
  refine ⟨k.1, _, hdown, (hlast.mono (fun _ => id) fun _ => .inr).after ((Hub.AlarmRun.of_eq rfl).after hcleared), ?_, ?_⟩
  · rw [hrest.slots, Hub.modSlot_self, hrecord]
    rfl
  · have hlatch : k1.slots[n].latchClosed = h.slots[n].latchClosed := by rw [hrecord]; rfl
    rw [hrest.slots, Hub.modSlot_self, hlatch]

theorem slotFault_ne_agentOverload (n : Slot) : AlarmKey.slot n .slotFault ≠ .hub .agentOverload := by
  simp [AlarmKey.slot, AlarmKey.hub]

/-- SLOT_FAULT is ACTIVE where the table had room before the event, whatever the link's fall raised before the entry. -/
theorem Hub.enterFaulted_active {h0 h : Hub} {n : Slot} (fault : FaultReason) (reason : SlotReason)
    (hrun : Hub.AlarmRun (· ∈ disableKeys n) (fun _ => False) h0 h) (hlatch : h.slots[n].latchClosed = true) (hroom : h0.AlarmRoom) :
    (h.enterFaulted n fault reason).isActive (.slot n .slotFault) = true := by
  obtain ⟨-, hlen⟩ := hroom
  obtain ⟨k, g, hdown', hafter, -, he⟩ := h.enterFaulted_alarms n fault reason
  have hdown := hrun.trans hdown'
  rw [he, if_pos hlatch]
  have hraised : (k.raise (.slot n .slotFault)).isActive (.slot n .slotFault) = true := by
    refine Hub.raise_isActive ?_
    exact (hdown.mono (raises' := (· ∈ .slot n .slotFault :: disableKeys n)) (fun _ => List.mem_cons_of_mem _) fun _ => id).room
      _ (by simp [disableKeys]) (fun _ => id) (by simp [disableKeys]; omega) List.mem_cons_self
  exact hafter.isActive hraised fun key hk => hk.elim (fun hk => hk.ne (by decide) (by decide)) fun hk => hk.ne (by decide)

theorem Hub.enterFaulted_inactive {h : Hub} (n : Slot) (fault : FaultReason) (reason : SlotReason) (hlatch : h.slots[n].latchClosed = false) :
    (h.enterFaulted n fault reason).isActive (.slot n .slotFault) = false := by
  obtain ⟨k, g, -, hafter, hstate, he⟩ := h.enterFaulted_alarms n fault reason
  rw [he, if_neg (by rw [hlatch]; decide)]
  have hfull : (AlarmKey.slot n .slotFault).kind ≠ .alarmTableFull := by simp [AlarmKey.slot]
  refine Hub.enterOff_slotFault n .latchOpened hstate (hafter.uniform (k.raise_uniform hfull) (.inl rfl) hfull (.inl rfl) (.inr ?_))
  exact fun key hk => (hk.elim (fun hk => hk.ne (by decide) (by decide)) fun hk => hk.ne (by decide) : _ ∧ _).1

/-- What an entry to FAULTED leaves: FAULTED with the latch CLOSED, OFF with it OPEN (R93). -/
def Hub.FaultedAs (h g : Hub) (n : Slot) (before : SlotRec) (fault : FaultReason) : Prop :=
  (before.latchClosed = true → g.slots[n] = before.inFaulted h.stamp fault (h.dueIn 2000) ∧ g.ShutOff n ∧ Hub.OthersStand h g n ∧
      (h.AlarmRoom → g.isActive (.slot n .slotFault) = true)) ∧
    (before.latchClosed = false → g.slots[n] = { before.inOff h.stamp with fault := some fault } ∧ g.ShutOff n ∧
      g.isActive (.slot n .slotFault) = false)

theorem Hub.enterFaulted_faultedAs (h : Hub) (n : Slot) (fault : FaultReason) (reason : SlotReason) :
    Hub.FaultedAs h (h.enterFaulted n fault reason) n h.slots[n] fault := by
  refine ⟨fun hlatch => ?_, fun hlatch => ?_⟩
  · obtain ⟨hslot, hshut, hothers⟩ := h.enterFaulted_spec n fault reason hlatch
    exact ⟨hslot, hshut, hothers, Hub.enterFaulted_active fault reason (.refl h) hlatch⟩
  · obtain ⟨hslot, hshut⟩ := h.enterFaulted_open n fault reason hlatch
    exact ⟨hslot, hshut, Hub.enterFaulted_inactive n fault reason hlatch⟩

theorem Hub.FaultedAs.of_modSlot {h g : Hub} {n : Slot} {f : SlotRec → SlotRec} {before : SlotRec} {fault : FaultReason}
    (hg : Hub.FaultedAs (h.modSlot n f) g n before fault) : Hub.FaultedAs h g n before fault := by
  obtain ⟨hclosed, hopen⟩ := hg
  refine ⟨fun hlatch => ?_, hopen⟩
  obtain ⟨hslot, hshut, hothers, hactive⟩ := hclosed hlatch
  exact ⟨hslot, hshut, hothers.of_modSlot, fun hroom => hactive (hroom.of_eq (Hub.modSlot_alarms _ _ _))⟩

/-- A limit that runs out for the reason `fault` and takes its slot to FAULTED. -/
theorem State.faults_of_expiry {s : State} {n : Slot} {state : SlotState} {act : Hub → Hub} {fault : FaultReason} {reason : SlotReason}
    (hruns : s.hub.slots[n].state = state ∧ s.hub.slots[n].limit.isSome = true) (hact : act s.hub = s.hub.enterFaulted n fault reason) :
    ∃ t, s.onHub (fun h => h.expire n state act) = .next t ∧ t.eeprom = s.eeprom ∧ Hub.FaultedAs s.hub t.hub n s.hub.slots[n] fault :=
  State.onHub_leaves (P := fun g => Hub.FaultedAs s.hub g n s.hub.slots[n] fault)
    ((Hub.expire_of_running hruns.1 hruns.2).trans hact) (Hub.enterFaulted_faultedAs s.hub n fault reason)

/-- Settles O37: every way to FAULTED is one entry; where the latch is OPEN, the entry to OFF that follows clears the alarm it raised. -/
theorem enterFaulted : Obligations.EnterFaulted := by
  intro s n
  refine ⟨fun hgood hreads => ?_, fun hruns => ?_, fun hruns => ?_, fun hruns hlast => ?_, fun hruns => ?_⟩
  · have hlost : s.hub.pwrGoodLost n = (s.hub.modSlot n fun r => { r with pwrGood := false }).enterFaulted n .powerFail .powerLost := by
      unfold Hub.pwrGoodLost
      simp only [Hub.modSlot_self]
      exact if_pos (by rw [hgood, hreads]; rfl)
    have hspec := (s.hub.modSlot n fun r => { r with pwrGood := false }).enterFaulted_faultedAs n .powerFail .powerLost
    rw [Hub.modSlot_self] at hspec
    exact State.onHub_leaves (f := (·.pwrGoodLost n)) (P := fun g => Hub.FaultedAs s.hub g n { s.hub.slots[n] with pwrGood := false } .powerFail) hlost hspec.of_modSlot
  · exact State.faults_of_expiry hruns rfl
  · exact State.faults_of_expiry hruns rfl
  · exact State.faults_of_expiry hruns (if_neg (by omega))
  · exact State.faults_of_expiry hruns rfl

/-! ## SEATED again -/

/-- An entry to SEATED clears SLOT_FAULT where it leaves FAULTED, and POWER_WAIT of what a service powers. -/
theorem Hub.enterSeated_slotFault {h : Hub} (n : Slot) (joins : Bool) (reason : SlotReason) (hstate : h.slots[n].state = .faulted)
    (hlegal : h.alarms.Legal) : (h.enterSeated n joins reason).isActive (.slot n .slotFault) = false := by
  have hfull : (AlarmKey.slot n .slotFault).kind ≠ .alarmTableFull := by simp [AlarmKey.slot]
  have hseat : (h.seat n joins).alarms = h.alarms := by
    unfold Hub.seat
    simp only
    split
    · rw [Hub.join_frame]; rfl
    · rfl
  have hserved : (h.seat n joins).serve.1.alarms = h.alarms := by rw [Hub.serve_frame]; exact hseat
  unfold Hub.enterSeated
  simp only [hstate]
  generalize Hub.serve _ = k at *
  have hcleared : (k.1.clear (.slot n .slotFault)).isActive (.slot n .slotFault) = false :=
    Hub.clear_inactive (hserved ▸ hlegal) (slotFault_ne_agentOverload n) hfull
  have hclearedLegal : (k.1.clear (.slot n .slotFault)).alarms.Legal :=
    (Hub.AlarmRun.clear (raises := fun _ => False) (clears := fun _ => True) k.1 trivial).legal (hserved ▸ hlegal)
  have hlast : ∀ g : Hub, ∀ body : Body, Hub.AlarmRun (fun _ => False) (fun key => key.kind = .powerWait) g
      ((g.notice Code.slotChanged body).announceGrants k.2) := fun g body =>
    (Hub.AlarmRun.announceGrants _ _ fun _ => rfl).after (Hub.AlarmRun.of_eq rfl)
  exact ((hlast _ _).inactive hclearedLegal hcleared (slotFault_ne_agentOverload n) hfull fun _ hk => hk.elim).2

/-- What a slot's return to SEATED from FAULTED leaves. -/
def Hub.SeatedFromFault (h g : Hub) (n : Slot) (before : SlotRec) (joins : Bool) : Prop :=
  Hub.Seated h g n before joins ∧ (h.alarms.Legal → g.isActive (.slot n .slotFault) = false)

theorem Hub.enterSeated_seatedFromFault {h : Hub} {n : Slot} (f : SlotRec → SlotRec) (joins : Bool) (reason : SlotReason)
    (hstate : (f h.slots[n]).state = .faulted) (hw : n ∉ h.manager.waitList) :
    Hub.SeatedFromFault h ((h.modSlot n f).enterSeated n joins reason) n (f h.slots[n]) joins :=
  ⟨Hub.Seated.of_modSlot (Hub.enterSeated_spec (h.modSlot n f) n joins reason hw),
    fun hlegal => Hub.enterSeated_slotFault n joins reason (by rw [Hub.modSlot_self]; exact hstate) hlegal⟩

theorem Hub.SeatedFromFault.of_popRequest {h g : Hub} {n : Slot} {before : SlotRec} {joins : Bool} {rest : List Request}
    (hs : Hub.SeatedFromFault (h.popRequest rest) g n before joins) : Hub.SeatedFromFault h g n before joins := hs

theorem Hub.SeatedFromFault.answer {h g : Hub} {n : Slot} {before : SlotRec} {joins : Bool} {r : Request}
    (hs : Hub.SeatedFromFault h g n before joins) (status : Status) (body : Body) :
    Hub.SeatedFromFault h (g.answer r status body) n before joins := hs

section

variable {s : State} {n : Slot} {r : Request} {rest : List Request}

theorem exec_retryTimerExpiry (s : State) (n : Slot) :
    exec (.retryTimerExpiry n) s = s.onHub fun h => h.expire n .faulted (·.retry n) := rfl

/-- A fault retry within the limit. -/
theorem exec_retryTimerExpiry_seats (hw : n ∉ s.hub.manager.waitList) (hstate : s.hub.slots[n].state = .faulted)
    (hlimit : s.hub.slots[n].limit.isSome = true) (hmore : s.hub.slots[n].retries < s.hub.tables.plan[n].retryLimit) :
    ∃ t, exec (.retryTimerExpiry n) s = .next t ∧
      Hub.SeatedFromFault s.hub t.hub n { s.hub.slots[n] with retries := s.hub.slots[n].retries + 1 } true := by
  have hretry : s.hub.retry n = _ := if_pos hmore
  obtain ⟨t, ht, -, hs⟩ := State.onHub_leaves (f := fun h => h.expire n .faulted (·.retry n))
    (P := fun g => Hub.SeatedFromFault s.hub g n { s.hub.slots[n] with retries := s.hub.slots[n].retries + 1 } true)
    ((Hub.expire_of_running hstate hlimit).trans hretry)
    (Hub.enterSeated_seatedFromFault (fun r => { r with retries := r.retries + 1 }) true .retry hstate hw)
  exact ⟨t, ht, hs⟩

/-- SLOT_RESTART of a FAULTED slot. -/
theorem exec_slotRestart_seats (hw : n ∉ s.hub.manager.waitList) (ht : s.hub.TakesFor Code.slotRestart r rest n)
    (hstate : s.hub.slots[n].state = .faulted) :
    ∃ t, exec .slotRestart s = .next t ∧ Hub.SeatedFromFault s.hub t.hub n { s.hub.slots[n] with retries := 0 } false ∧
      t.hub.port.Replied r rest .ok .empty := by
  have hspec := Hub.enterSeated_seatedFromFault (h := s.hub.popRequest rest) (n := n) (fun r => { r with retries := 0 }) false
    (.hostRequest Code.slotRestart) hstate hw
  have hqueues := Hub.enterSeated_queues ((s.hub.popRequest rest).modSlot n fun r => { r with retries := 0 }) n false
    (.hostRequest Code.slotRestart)
  have hrestart : Hub.slotRestart r n (s.hub.popRequest rest) = (((s.hub.popRequest rest).modSlot n fun r =>
      { r with retries := 0 }).enterSeated n false (.hostRequest Code.slotRestart)).answer r .ok .empty := if_pos hstate
  refine ⟨_, exec_slotRestart_of_takes ht, ?_⟩
  dsimp only
  rw [hrestart]
  generalize Hub.enterSeated _ n false (.hostRequest Code.slotRestart) = g at *
  exact ⟨hspec.of_popRequest.answer _ _, Hub.answer_replied _ r _ _ hqueues.inbound⟩

/-- What SLOT_POWER does, in each state (R75). -/
theorem Hub.slotPower_of_power {h g : Hub} {applies : Bool} (hp : h.power n = (g, applies)) :
    Hub.slotPower r n h = g.answer r (stateStatus applies) (.slotPower g.slots[n].state (g.waitPlace n)) := by
  unfold Hub.slotPower
  rw [hp]

theorem exec_slotPower_of_power {g : Hub} {applies : Bool} (ht : s.hub.TakesFor Code.slotPower r rest n)
    (hp : (s.hub.popRequest rest).power n = (g, applies)) :
    exec .slotPower s = .next { s with hub := g.answer r (stateStatus applies) (.slotPower g.slots[n].state (g.waitPlace n)) } := by
  rw [exec_slotPower_of_takes ht, Hub.slotPower_of_power hp]

/-- SLOT_POWER of an OFF slot with its latch CLOSED. -/
theorem exec_slotPower_seats (hw : n ∉ s.hub.manager.waitList) (ht : s.hub.TakesFor Code.slotPower r rest n)
    (hstate : s.hub.slots[n].state = .off) (hlatch : s.hub.slots[n].latchClosed = true) :
    ∃ t, exec .slotPower s = .next t ∧ Hub.Seated s.hub t.hub n s.hub.slots[n] true ∧
      t.hub.port.Replied r rest .ok (.slotPower t.hub.slots[n].state (t.hub.waitPlace n)) := by
  have hp : (s.hub.popRequest rest).power n = ((s.hub.popRequest rest).enterSeated n true (.hostRequest Code.slotPower), true) := by
    unfold Hub.power
    simp only [Hub.popRequest_slots, hstate, hlatch]
  have hspec := Hub.enterSeated_spec (s.hub.popRequest rest) n true (.hostRequest Code.slotPower) hw
  have hqueues := Hub.enterSeated_queues (s.hub.popRequest rest) n true (.hostRequest Code.slotPower)
  refine ⟨_, exec_slotPower_of_power ht hp, ?_⟩
  dsimp only
  generalize (s.hub.popRequest rest).enterSeated n true (.hostRequest Code.slotPower) = g at *
  exact ⟨hspec.of_popRequest.answer _ _, Hub.answer_replied _ r _ _ hqueues.inbound⟩

/-- SLOT_POWER of a SEATED slot with its latch CLOSED, out of the list. -/
theorem exec_slotPower_joins (hw : n ∉ s.hub.manager.waitList) (ht : s.hub.TakesFor Code.slotPower r rest n)
    (hstate : s.hub.slots[n].state = .seated) (hlatch : s.hub.slots[n].latchClosed = true) :
    ∃ t, exec .slotPower s = .next t ∧ Hub.Joined s.hub t.hub n s.hub.slots[n] ∧ Hub.OthersStand s.hub t.hub n ∧
      t.hub.port.Replied r rest .ok (.slotPower t.hub.slots[n].state (t.hub.waitPlace n)) := by
  have hp : (s.hub.popRequest rest).power n =
      (((s.hub.popRequest rest).join n).serve.1.announceGrants ((s.hub.popRequest rest).join n).serve.2, true) := by
    unfold Hub.power
    simp only [Hub.popRequest_slots, hstate, hlatch]
    exact if_neg hw
  obtain ⟨hjoined, hothers⟩ := Hub.joined_spec (s.hub.popRequest rest) n hw
  have hqueues := ((s.hub.popRequest rest).join_queues n).trans ((Hub.serve_queues _).trans
    (Hub.announceGrants_handsOn _ ((s.hub.popRequest rest).join n).serve.2).queuesKept)
  refine ⟨_, exec_slotPower_of_power ht hp, ?_⟩
  dsimp only
  generalize Hub.announceGrants _ _ = g at *
  exact ⟨hjoined.of_popRequest.answer _ _, hothers.of_popRequest.answer _ _, Hub.answer_replied _ r _ _ hqueues.inbound⟩

/-- SLOT_POWER where it applies to nothing. -/
theorem exec_slotPower_refused (hw : n ∉ s.hub.manager.waitList) (ht : s.hub.TakesFor Code.slotPower r rest n)
    (hcase : s.hub.slots[n].state ≠ .off ∧ s.hub.slots[n].state ≠ .seated ∨ s.hub.slots[n].latchClosed = false) :
    exec .slotPower s = .next { s with hub := { s.hub with
      port := s.hub.port.answered r rest .badState (.slotPower s.hub.slots[n].state 0) } } := by
  have hp : (s.hub.popRequest rest).power n = (s.hub.popRequest rest, false) := by
    unfold Hub.power
    split
    · next hs hl => exact absurd hcase (by rw [show s.hub.slots[n].state = _ from hs, show s.hub.slots[n].latchClosed = _ from hl]; decide)
    · next hs hl => exact absurd hcase (by rw [show s.hub.slots[n].state = _ from hs, show s.hub.slots[n].latchClosed = _ from hl]; decide)
    · rfl
  have hplace : (s.hub.popRequest rest).waitPlace n = 0 := if_neg hw
  rw [exec_slotPower_of_power ht hp, hplace]
  rfl

end

/-- Settles O38: a retry, SLOT_RESTART and SLOT_POWER each come to one entry to SEATED, or to a join. -/
theorem seatedAgain : Obligations.SeatedAgain := by
  intro s n r rest
  refine ⟨fun ht hstate hlatch hin => ?_, fun hw => ⟨fun hstate hlimit hmore => ?_, fun hstate hlimit hdone => ?_, fun ht hstate => ?_,
    fun ht hstate => ?_, exec_slotPower_seats hw, exec_slotPower_joins hw, exec_slotPower_refused hw⟩⟩
  · have hp : (s.hub.popRequest rest).power n = (s.hub.popRequest rest, true) := by
      unfold Hub.power
      simp only [Hub.popRequest_slots, hstate, hlatch]
      exact if_pos hin
    have hplace : (s.hub.popRequest rest).waitPlace n = s.hub.manager.waitList.idxOf n + 1 := if_pos hin
    rw [exec_slotPower_of_power ht hp, hplace, Hub.popRequest_slots, hstate]
    rfl
  · exact exec_retryTimerExpiry_seats hw hstate hlimit hmore
  · rw [exec_retryTimerExpiry]
    exact State.onHub_to ((Hub.expire_of_running hstate hlimit).trans (if_neg (by omega)))
  · obtain ⟨t, he, ⟨hseated, hfault⟩, hreplied⟩ := exec_slotRestart_seats hw ht hstate
    exact ⟨t, he, hseated, hreplied, hfault⟩
  · rw [exec_slotRestart_of_takes ht]
    exact congrArg (fun g => Host.Outcome.next { s with hub := g }) (if_neg hstate)

end Sys2Proof.Machine
end

section
/-! PROOFS. Service, and the way out of it (sections 4.5, 5.3 and 5.6). -/

namespace Sys2Proof.Machine

/-! ## A change of one slot without a service of the wait list -/

/-- An entry to a state from a hub whose slots are those of `h`, with what is handed on. -/
theorem Hub.HandsOn.enteredKept {h k g : Hub} {n : Slot} {state : SlotState} {f : SlotRec → SlotRec} (ho : Hub.HandsOn (k.enter n state f) g)
    (hs : k.slots = h.slots) (hc : k.clock = h.clock) (ht : k.tables = h.tables) (hf : k.config = h.config)
    (hw : k.manager.waitList = h.manager.waitList) :
    g.slots[n] = f (h.slots[n].entering state h.stamp) ∧ Hub.OthersKept h g n := by
  obtain ⟨hslot, hothers⟩ := ho.entered hs hc
  exact ⟨hslot, hothers, ho.tables.trans ht, ho.clock.trans hc, ho.config.trans hf, ho.waitList.trans hw⟩

theorem linkLost_ne_agentOverload (n : Slot) : AlarmKey.slot n .linkLost ≠ .hub .agentOverload := by
  simp [AlarmKey.slot, AlarmKey.hub]

theorem linkLost_ne_tableFull (n : Slot) : (AlarmKey.slot n .linkLost).kind ≠ .alarmTableFull := by simp [AlarmKey.slot]

/-! ## FORWARDING -/

theorem Hub.enterForwarding_slot (h : Hub) (n : Slot) (reason : SlotReason) :
    (h.enterForwarding n reason).slots[n] = { h.slots[n].entering .forwarding h.stamp with fault := none } ∧
      Hub.OthersKept h (h.enterForwarding n reason) n :=
  (h.enterForwarding_handsOn n reason).enteredKept rfl rfl rfl rfl rfl

theorem Hub.enterForwarding_linkState (h : Hub) (n m : Slot) (reason : SlotReason) :
    (h.enterForwarding n reason).links[m].state = h.links[m].state := by
  rw [(h.enterForwarding_handsOn n reason).links m]
  rfl

/-- The way back from RECOVERING clears LINK_LOST. -/
theorem Hub.enterForwarding_linkLost {h : Hub} {n : Slot} (reason : SlotReason) (hstate : h.slots[n].state = .recovering)
    (hlegal : h.alarms.Legal) : (h.enterForwarding n reason).isActive (.slot n .linkLost) = false := by
  unfold Hub.enterForwarding
  simp only [hstate]
  have hsame : ((h.enter n .forwarding fun r => { r with fault := none }).schedule n).alarms = h.alarms := by
    rcases Hub.schedule_cases (h.enter n .forwarding fun r => { r with fault := none }) n with he | ⟨t, -, -, he⟩
    · rw [he]; rfl
    · rw [he]; rfl
  generalize Hub.schedule _ n = k at *
  have hcleared : (k.clear (.slot n .linkLost)).isActive (.slot n .linkLost) = false :=
    Hub.clear_inactive (hsame ▸ hlegal) (linkLost_ne_agentOverload n) (linkLost_ne_tableFull n)
  have hclearedLegal : (k.clear (.slot n .linkLost)).alarms.Legal :=
    (Hub.AlarmRun.clear (raises := fun _ => False) (clears := fun _ => True) k trivial).legal (hsame ▸ hlegal)
  have hlast : Hub.AlarmRun (fun _ => False) (fun _ => False) (k.clear (.slot n .linkLost))
      ((((k.clear (.slot n .linkLost)).judgePermit .slotState n).judgeOutputs).slotNotice n .recovering .forwarding reason) :=
    (Hub.AlarmRun.slotNotice _ _ _ _ _).after ((Hub.AlarmRun.judgeOutputs _).after (Hub.AlarmRun.judgePermit _ _ _))
  exact (hlast.inactive hclearedLegal hcleared (linkLost_ne_agentOverload n) (linkLost_ne_tableFull n) fun _ hk => hk.elim).2

/-- What an entry to FORWARDING on a LOCKED link leaves. -/
def Hub.InService (h g : Hub) (n : Slot) : Prop :=
  g.slots[n] = { h.slots[n].entering .forwarding h.stamp with fault := none } ∧ Hub.OthersKept h g n ∧ g.links[n].state = .locked

theorem Hub.enterForwarding_inService {h : Hub} {n : Slot} (reason : SlotReason) (hlink : h.links[n].state = .locked) :
    Hub.InService h (h.enterForwarding n reason) n := by
  obtain ⟨hslot, hothers⟩ := h.enterForwarding_slot n reason
  exact ⟨hslot, hothers, (h.enterForwarding_linkState n n reason).trans hlink⟩

theorem Hub.InService.answer {h g : Hub} {n : Slot} {r : Request} (hs : Hub.InService h g n) (status : Status) (body : Body) :
    Hub.InService h (g.answer r status body) n := hs

theorem Hub.InService.of_popRequest {h g : Hub} {n : Slot} {rest : List Request} (hs : Hub.InService (h.popRequest rest) g n) :
    Hub.InService h g n := hs

section

variable {s : State} {n : Slot} {r : Request} {rest : List Request}

theorem exec_slotAdmit_of_takes (ht : s.hub.TakesFor Code.slotAdmit r rest n) :
    exec .slotAdmit s = .next { s with hub := Hub.slotAdmit r n (s.hub.popRequest rest) } := State.onHub_takesFor ht Hub.slotAdmit

theorem exec_slotRestore_of_takes (ht : s.hub.TakesFor Code.slotRestore r rest n) :
    exec .slotRestore s = .next { s with hub := Hub.slotRestore r n (s.hub.popRequest rest) } := State.onHub_takesFor ht Hub.slotRestore

theorem exec_slotAdmit_forwards (ht : s.hub.TakesFor Code.slotAdmit r rest n)
    (hready : s.hub.slots[n].state = .awaitingAdmit ∧ s.hub.links[n].state = .locked) :
    ∃ t, exec .slotAdmit s = .next t ∧ Hub.InService s.hub t.hub n ∧ t.hub.port.Replied r rest .ok .empty := by
  have hspec := Hub.enterForwarding_inService (h := s.hub.popRequest rest) (.hostRequest Code.slotAdmit) hready.2
  have hqueues := ((s.hub.popRequest rest).enterForwarding_handsOn n (.hostRequest Code.slotAdmit)).queuesKept
  have hadmit : Hub.slotAdmit r n (s.hub.popRequest rest) =
      ((s.hub.popRequest rest).enterForwarding n (.hostRequest Code.slotAdmit)).answer r .ok .empty := if_pos hready
  refine ⟨_, exec_slotAdmit_of_takes ht, ?_⟩
  dsimp only
  rw [hadmit]
  generalize Hub.enterForwarding _ n (.hostRequest Code.slotAdmit) = g at *
  exact ⟨hspec.of_popRequest.answer _ _, Hub.answer_replied _ r _ _ hqueues.inbound⟩

theorem exec_slotRestore_forwards (ht : s.hub.TakesFor Code.slotRestore r rest n)
    (hready : s.hub.slots[n].state = .fenced ∧ s.hub.links[n].state = .locked) :
    ∃ t, exec .slotRestore s = .next t ∧ Hub.InService s.hub t.hub n ∧ t.hub.port.Replied r rest .ok (.slotLink .forwarding .locked) := by
  have hspec := Hub.enterForwarding_inService (h := s.hub.popRequest rest) (.hostRequest Code.slotRestore) hready.2
  have hqueues := ((s.hub.popRequest rest).enterForwarding_handsOn n (.hostRequest Code.slotRestore)).queuesKept
  have hrestore : Hub.slotRestore r n (s.hub.popRequest rest) =
      ((s.hub.popRequest rest).enterForwarding n (.hostRequest Code.slotRestore)).answerLink r n true := if_pos hready
  refine ⟨_, exec_slotRestore_of_takes ht, ?_⟩
  dsimp only
  rw [hrestore]
  generalize Hub.enterForwarding _ n (.hostRequest Code.slotRestore) = g at *
  obtain ⟨hslot, -, hlink⟩ := id hspec
  unfold Hub.answerLink
  rw [hslot, hlink]
  exact ⟨hspec.of_popRequest.answer _ _, Hub.answer_replied _ r _ _ hqueues.inbound⟩

/-- The second hello in a row locks a TRAINING link, and the lock is reported (R3). -/
theorem Hub.helloValid_of_second {h : Hub} (hlink : h.links[n].state = .training) (hcount : h.links[n].helloCount = 1) :
    h.helloValid n = (h.modLink n fun l => { l with state := .locked, helloCount := 0 }).linkLocked n := by
  unfold Hub.helloValid
  simp only [hlink, hcount]
  rfl

theorem exec_helloValid (s : State) (n : Slot) : exec (.helloValid n) s = s.onHub (·.helloValid n) := rfl

theorem Hub.linkLocked_forwards {h : Hub}
    (hstate : h.slots[n].state = .recovering ∨ h.slots[n].state = .awaitingAdmit ∧ h.slots[n].autoAdmit = true) :
    h.linkLocked n = h.enterForwarding n .linkLocked := by
  unfold Hub.linkLocked
  rcases hstate with hst | ⟨hst, hauto⟩
  · simp only [hst]
  · simp only [hst, hauto, if_true]

theorem exec_helloValid_forwards (hlink : s.hub.links[n].state = .training) (hcount : s.hub.links[n].helloCount = 1)
    (hstate : s.hub.slots[n].state = .recovering ∨ s.hub.slots[n].state = .awaitingAdmit ∧ s.hub.slots[n].autoAdmit = true) :
    ∃ t, exec (.helloValid n) s = .next t ∧ Hub.InService s.hub t.hub n ∧
      (s.hub.slots[n].state = .recovering → s.hub.alarms.Legal → t.hub.isActive (.slot n .linkLost) = false) := by
  have hlocked : s.hub.helloValid n =
      (s.hub.modLink n fun l => { l with state := .locked, helloCount := 0 }).enterForwarding n .linkLocked :=
    (Hub.helloValid_of_second hlink hcount).trans (Hub.linkLocked_forwards hstate)
  have hspec := Hub.enterForwarding_inService (h := s.hub.modLink n fun l => { l with state := .locked, helloCount := 0 }) (n := n)
    .linkLocked (by rw [Hub.modLink_self])
  have hlost := fun hst => Hub.enterForwarding_linkLost (h := s.hub.modLink n fun l => { l with state := .locked, helloCount := 0 }) (n := n)
    .linkLocked hst
  refine ⟨_, (exec_helloValid s n).trans (State.onHub_to hlocked), ?_⟩
  dsimp only
  generalize Hub.enterForwarding _ n .linkLocked = g at *
  exact ⟨hspec, hlost⟩

end

/-- Settles O32: every way to FORWARDING is one entry on a LOCKED link. -/
theorem enterForwarding : Obligations.EnterForwarding := by
  intro s n r rest
  refine ⟨exec_slotAdmit_forwards, fun ht hnot => ?_, exec_slotRestore_forwards, fun ht hnot => ?_, exec_helloValid_forwards⟩
  · rw [exec_slotAdmit_of_takes ht]
    exact congrArg (fun g => Host.Outcome.next { s with hub := g }) (if_neg hnot)
  · rw [exec_slotRestore_of_takes ht]
    exact congrArg (fun g => Host.Outcome.next { s with hub := g }) (if_neg hnot)

end Sys2Proof.Machine
end

section
/-! PROOFS. An orderly drain (section 5.3). -/

namespace Sys2Proof.Machine

/-- The QUIESCE of a slot (R84). -/
def quiesceFrame (n : Slot) : Frame := agentFrame .control Kind.quiesce 0 0 n []

theorem quiesceFrame_blocks (n : Slot) : (quiesceFrame n).blocks = 1 := by
  simp [quiesceFrame, agentFrame, Frame.blocks]

/-- A frame is placed in an egress queue of a slot that takes agent frames where a reserve block is free. -/
theorem Hub.place_of_room {h : Hub} {n : Slot} {place : Place} {frame : Frame} (hplace : place ≠ .identify)
    (htakes : h.slots[n].state.takesAgent place = true) (hroom : h.store.freeReserve ≠ 0) :
    (h.place n place frame).1 = ({ h with store := h.store.put frame true 1 }.modPort n (·.enter place h.store.nextId)).schedule n := by
  unfold Hub.place Hub.placeWith
  simp only [htakes, if_neg hplace, if_neg hroom]
  rfl

/-- Without a free reserve block it is refused, and AGENT_OVERLOAD raised. -/
theorem Hub.place_of_full {h : Hub} {n : Slot} {place : Place} {frame : Frame} (hplace : place ≠ .identify)
    (htakes : h.slots[n].state.takesAgent place = true) (hfull : h.store.freeReserve = 0) :
    (h.place n place frame).1 =
      { h with agent := { h.agent with reserveRefusals := h.agent.reserveRefusals + 1 } }.raise (.hub .agentOverload) := by
  unfold Hub.place Hub.placeWith raiseAgain
  simp only [htakes, if_neg hplace, if_pos hfull]
  rfl

theorem Hub.schedule_ports (h : Hub) (n : Slot) : (h.schedule n).ports = h.ports := by
  rcases h.schedule_cases n with he | ⟨t, -, -, he⟩
  · rw [he]
  · rw [he]; rfl

theorem Hub.schedule_store (h : Hub) (n : Slot) : (h.schedule n).store = h.store := by
  rcases h.schedule_cases n with he | ⟨t, -, -, he⟩
  · rw [he]
  · rw [he]; rfl

/-- What becomes of the QUIESCE of an entry to DRAINING: it is stored and stands at the tail of the CONTROL queue, or AGENT_OVERLOAD is raised
for it. -/
def Hub.Quiesces (h g : Hub) (n : Slot) : Prop :=
  (h.store.freeReserve ≠ 0 → g.ports[n].controlQ = h.ports[n].controlQ ++ [h.store.nextId] ∧
    { id := h.store.nextId, frame := quiesceFrame n, blocks := 1, refs := 1, fromAgent := true } ∈ g.store.frames) ∧
  (h.store.freeReserve = 0 → g.ports[n].controlQ = h.ports[n].controlQ ∧ (h.AlarmRoom → g.isActive (.hub .agentOverload) = true))

/-- The same where the frame is placed and nothing has followed yet. -/
theorem Hub.place_quiesces {h : Hub} {n : Slot} (hstate : h.slots[n].state = .draining) :
    Hub.Quiesces h (h.place n .control (quiesceFrame n)).1 n := by
  have htakes : h.slots[n].state.takesAgent .control = true := by rw [hstate]; rfl
  refine ⟨fun hroom => ?_, fun hfull => ?_⟩
  · rw [Hub.place_of_room (by decide) htakes hroom, Hub.schedule_ports, Hub.schedule_store, Hub.modPort_self]
    refine ⟨rfl, List.mem_append_right _ (List.mem_singleton.mpr ?_)⟩
    rw [quiesceFrame_blocks]
  · rw [Hub.place_of_full (by decide) htakes hfull]
    have hfollows := (Hub.Follows.closed { h with agent := { h.agent with reserveRefusals := h.agent.reserveRefusals + 1 } }).raise
      (.refl _) (.hub .agentOverload) trivial
    refine ⟨hfollows.controlQ n (by rw [show _ = SlotState.draining from hstate]; decide), fun hroom => Hub.raise_isActive (.inl ?_)⟩
    obtain ⟨-, hlen⟩ := hroom
    exact hlen.trans (by decide)

/-- What an entry to DRAINING may clear. -/
def DrainClears (n : Slot) (key : AlarmKey) : Prop := SlotKey n [.linkLost] key ∨ key ∈ leaveKeys n

theorem DrainClears.ne_agentOverload {n : Slot} {key : AlarmKey} (hk : DrainClears n key) :
    key ≠ .hub .agentOverload ∧ key.kind ≠ .alarmTableFull := by
  rcases hk with ⟨hsource, hkind⟩ | hk
  · rw [List.mem_singleton] at hkind
    exact ⟨fun he => absurd (he.symm ▸ hsource : (AlarmKey.hub .agentOverload).source = some n) (Option.some_ne_none n).symm, fun he => absurd (hkind.symm.trans he) (by decide)⟩
  · simp only [leaveKeys, timingKeys, List.mem_cons, List.not_mem_nil, or_false] at hk
    obtain rfl | rfl | rfl | rfl | rfl := hk <;> simp [AlarmKey.slot, AlarmKey.hub]

/-- What follows keeps what became of the QUIESCE. -/
theorem Hub.Quiesces.follows {h k g : Hub} {n : Slot} (hq : Hub.Quiesces h k n) (hf : Hub.Follows k g)
    (ha : Hub.AlarmRun (· ∈ timingKeys) (DrainClears n) k g) (hstate : k.slots[n].state = .draining) : Hub.Quiesces h g n := by
  obtain ⟨hplaced, hrefused⟩ := hq
  have hsame := hf.controlQ n (by rw [hstate]; decide)
  refine ⟨fun hroom => ?_, fun hfull => ?_⟩
  · obtain ⟨hqueue, hstored⟩ := hplaced hroom
    exact ⟨hsame.trans hqueue, hf.frames _ hstored⟩
  · obtain ⟨hqueue, hactive⟩ := hrefused hfull
    exact ⟨hsame.trans hqueue, fun hroom => ha.isActive (hactive hroom) fun _ hk => hk.ne_agentOverload⟩

theorem Hub.enterDraining_quiesces (h : Hub) (n : Slot) (reason : SlotReason) : Hub.Quiesces h (h.enterDraining n reason) n := by
  have hstate : (h.enter n .draining fun r => { r with quiesced := false, limit := some (h.dueIn h.tables.drainTimeout) }).slots[n].state =
      .draining := by
    unfold Hub.enter
    rw [Hub.modSlot_self]
  have hplaced := Hub.place_quiesces hstate
  have hslots := (Hub.place_handsOn (h.enter n .draining fun r =>
    { r with quiesced := false, limit := some (h.dueIn h.tables.drainTimeout) }) n .control (quiesceFrame n) (.inr rfl)
    (by simp [quiesceFrame, agentFrame])).slots
  unfold Hub.enterDraining
  rw [show agentFrame .control Kind.quiesce 0 0 n [] = quiesceFrame n from rfl]
  simp only
  generalize (Hub.place _ n .control (quiesceFrame n)).1 = k at *
  have hdraining : k.slots[n].state = .draining := by rw [hslots]; exact hstate
  have hclosed := Hub.Follows.closed k
  have hscheduled : Hub.Follows k (k.schedule n) := Hub.Follows.schedule k n (by rw [hdraining]; rfl)
  have hcleared := hclosed.clearIf hscheduled (h.slots[n].state == .recovering) (.slot n .linkLost)
  have hrun : Hub.AlarmRun (· ∈ timingKeys) (DrainClears n) k ((k.schedule n).clearIf (h.slots[n].state == .recovering) (.slot n .linkLost)) :=
    (Hub.AlarmRun.clearIf _ _ (.inl (SlotKey.slot (by decide)))).after (Hub.AlarmRun.schedule _ n)
  have hquiesces : Hub.Quiesces h k n := hplaced
  refine hquiesces.follows (hclosed.slotNotice (hclosed.handOn hcleared n h.slots[n].state false) n h.slots[n].state .draining reason) ?_ hdraining
  exact (Hub.AlarmRun.slotNotice _ _ _ _ _).after ((Hub.AlarmRun.handOn (fun _ => id) _ n h.slots[n].state false fun _ hk => .inr hk).after hrun)

/-- What an entry to DRAINING leaves. -/
def Hub.Drains (h g : Hub) (n : Slot) (before : SlotRec) : Prop :=
  g.slots[n] = { before.entering .draining h.stamp with quiesced := false, limit := some (h.dueIn h.tables.drainTimeout) } ∧
    Hub.OthersKept h g n ∧ Hub.Quiesces h g n

theorem Hub.enterDraining_drains (h : Hub) (n : Slot) (reason : SlotReason) : Hub.Drains h (h.enterDraining n reason) n h.slots[n] := by
  obtain ⟨hslot, hothers⟩ := (h.enterDraining_handsOn n reason).enteredKept rfl rfl rfl rfl rfl
  exact ⟨hslot, hothers, h.enterDraining_quiesces n reason⟩

theorem Hub.Drains.of_modSlot {h g : Hub} {n : Slot} {f : SlotRec → SlotRec} {before : SlotRec} (hd : Hub.Drains (h.modSlot n f) g n before) :
    Hub.Drains h g n before := by
  obtain ⟨hslot, hothers, hplaced, hrefused⟩ := hd
  refine ⟨hslot, hothers.of_modSlot, hplaced, fun hfull => ?_⟩
  obtain ⟨hqueue, hactive⟩ := hrefused hfull
  exact ⟨hqueue, fun hroom => hactive (hroom.of_eq (Hub.modSlot_alarms _ _ _))⟩

theorem Hub.Drains.of_popRequest {h g : Hub} {n : Slot} {before : SlotRec} {rest : List Request}
    (hd : Hub.Drains (h.popRequest rest) g n before) : Hub.Drains h g n before := hd

theorem Hub.Drains.answer {h g : Hub} {n : Slot} {before : SlotRec} {r : Request} (hd : Hub.Drains h g n before) (status : Status) (body : Body) :
    Hub.Drains h (g.answer r status body) n before := hd

section

variable {s : State} {n : Slot} {r : Request} {rest : List Request}

/-- A slot in service, as the statement lists the states. -/
def SlotState.Serves (st : SlotState) : Prop := st = .forwarding ∨ st = .recovering ∨ st = .fenced

/-- A state that a release does not change. -/
def SlotState.Released (st : SlotState) : Prop := st = .empty ∨ st = .draining ∨ st = .off

theorem Hub.release_of_serves {h : Hub} (reason : SlotReason) (hs : h.slots[n].state.Serves) : h.release n reason = h.enterDraining n reason := by
  unfold Hub.release
  obtain hst | hst | hst := hs <;> simp only [hst]

theorem Hub.release_of_released {h : Hub} (reason : SlotReason) (hs : h.slots[n].state.Released) : h.release n reason = h := by
  unfold Hub.release
  obtain hst | hst | hst := hs <;> simp only [hst]

theorem Hub.slotRelease_of_serves {h : Hub} (r : Request) (hserves : h.slots[n].state.Serves) :
    Hub.slotRelease r n h = (h.enterDraining n (.hostRequest Code.slotRelease)).answer r .ok (.slotState .draining) := by
  obtain ⟨hslot, -⟩ := h.enterDraining_drains n (.hostRequest Code.slotRelease)
  have hne : (h.slots[n].state != .empty) = true := by obtain hst | hst | hst := hserves <;> rw [hst] <;> rfl
  unfold Hub.slotRelease
  simp only [Hub.release_of_serves _ hserves, hslot, hne]
  rfl

theorem exec_slotRelease_drains (hserves : s.hub.slots[n].state.Serves) (ht : s.hub.TakesFor Code.slotRelease r rest n) :
    ∃ t, exec .slotRelease s = .next t ∧ Hub.Drains s.hub t.hub n s.hub.slots[n] ∧
      t.hub.port.Replied r rest .ok (.slotState .draining) := by
  have hspec := (s.hub.popRequest rest).enterDraining_drains n (.hostRequest Code.slotRelease)
  have hinbound := ((s.hub.popRequest rest).enterDraining_handsOn n (.hostRequest Code.slotRelease)).inbound
  refine ⟨_, exec_slotRelease_of_takes ht, ?_⟩
  dsimp only
  rw [Hub.slotRelease_of_serves (h := s.hub.popRequest rest) r hserves]
  generalize Hub.enterDraining _ n (.hostRequest Code.slotRelease) = g at *
  exact ⟨hspec.of_popRequest.answer _ _, Hub.answer_replied _ r _ _ hinbound⟩

theorem exec_latchOpen_drains (hserves : s.hub.slots[n].state.Serves) (hends : s.hub.slots[n].latchEnds false = true) :
    ∃ t, exec (.latchOpen n) s = .next t ∧ Hub.Drains s.hub t.hub n s.hub.slots[n].opened := by
  have hspec := (s.hub.modSlot n SlotRec.opened).enterDraining_drains n .latchOpened
  have hrelease : (s.hub.modSlot n SlotRec.opened).release n .latchOpened = _ :=
    Hub.release_of_serves _ (by rw [Hub.modSlot_self]; exact hserves)
  refine ⟨_, exec_latchOpen_of_ends hends, ?_⟩
  dsimp only
  rw [hrelease]
  generalize Hub.enterDraining _ n .latchOpened = g at *
  rw [Hub.modSlot_self] at hspec
  exact hspec.of_modSlot

theorem exec_slotRelease_keeps (hreleased : s.hub.slots[n].state.Released) (ht : s.hub.TakesFor Code.slotRelease r rest n) :
    exec .slotRelease s = .next { s with hub := { s.hub with
      port := s.hub.port.answered r rest (if s.hub.slots[n].state = .empty then .badState else .ok) (.slotState s.hub.slots[n].state) } } := by
  rw [exec_slotRelease_of_takes ht]
  unfold Hub.slotRelease
  simp only [Hub.release_of_released (h := s.hub.popRequest rest) (.hostRequest Code.slotRelease) hreleased, Hub.popRequest_slots]
  have hstatus : stateStatus (s.hub.slots[n].state != .empty) = if s.hub.slots[n].state = .empty then .badState else .ok := by
    obtain hst | hst | hst := hreleased <;> rw [hst] <;> rfl
  rw [hstatus]
  rfl

theorem exec_latchOpen_keeps (hreleased : s.hub.slots[n].state.Released) (hends : s.hub.slots[n].latchEnds false = true) :
    exec (.latchOpen n) s = .next { s with hub := s.hub.modSlot n SlotRec.opened } := by
  rw [exec_latchOpen_of_ends hends, Hub.release_of_released _ (by rw [Hub.modSlot_self]; exact hreleased)]

end

/-! ## QUIESCED -/

theorem Hub.formOk_quiesced {h : Hub} {f : Frame} (hk : f.kind = Kind.quiesced) (hc : f.cls = .control) (hp : f.payload = []) :
    h.formOk f = true := by
  unfold Hub.formOk
  rw [hk, hc, hp]
  rfl

theorem Hub.accepts_quiesced {h : Hub} {f : Frame} {n : Slot} (hk : f.kind = Kind.quiesced) (hs : h.slots[n].state = .draining) :
    h.accepts f n = true := by
  unfold Hub.accepts
  simp only [hk, hs]
  rfl

section

variable {s : State} {e : InboxFrame} {rest : List InboxFrame}

theorem exec_quiesced_of_taken (he : s.hub.agent.inbox = e :: rest) (hk : e.frame.kind = Kind.quiesced) (hc : e.frame.cls = .control)
    (hp : e.frame.payload = []) (hs : s.hub.slots[e.slot].state = .draining) :
    exec .quiesced s = .next { s with hub := (s.hub.popInbox rest).quiesce e.slot } :=
  State.onHub_to (Hub.dispatch_accepted (fun e h => h.quiesce e.slot) he hk (Hub.formOk_quiesced hk hc hp) (Hub.accepts_quiesced hk hs))

/-- The record with its quiesced flag set. -/
def SlotRec.quiet (r : SlotRec) : SlotRec := { r with quiesced := true }

/-- A quiesced DRAINING slot is done when its queues are empty and nothing is in flight (R86). -/
theorem Hub.drainDone_quiet {h : Hub} {n : Slot} (hs : h.slots[n].state = .draining) :
    (h.modSlot n SlotRec.quiet).drainDone n = decide (h.ports[n].entries = [] ∧ h.links[n].tx = none) := by
  have hstate : ((h.modSlot n SlotRec.quiet).slots[n].state == .draining) = true := by
    rw [Hub.modSlot_self]
    exact beq_iff_eq.mpr hs
  have hflag : (h.modSlot n SlotRec.quiet).slots[n].quiesced = true := by rw [Hub.modSlot_self]; rfl
  unfold Hub.drainDone
  rw [hstate, hflag, Hub.modSlot_ports, Hub.modSlot_links, Bool.decide_and, Bool.true_and, Bool.true_and]
  congr 1
  · cases h.ports[n].entries <;> rfl
  · cases h.links[n].tx <;> rfl

theorem Hub.quiesce_eq {h : Hub} {n : Slot} (hs : h.slots[n].state = .draining) : h.quiesce n =
    if h.ports[n].entries = [] ∧ h.links[n].tx = none then (h.modSlot n SlotRec.quiet).enterOff n .drainDone
    else h.modSlot n SlotRec.quiet := by
  have hdone := Hub.drainDone_quiet hs
  unfold Hub.quiesce
  rw [show (h.modSlot n fun r => { r with quiesced := true }) = h.modSlot n SlotRec.quiet from rfl]
  simp only [hdone, decide_eq_true_eq]

/-- QUIESCED of a slot with nothing left takes it to OFF. -/
theorem exec_quiesced_off (he : s.hub.agent.inbox = e :: rest) (hk : e.frame.kind = Kind.quiesced) (hc : e.frame.cls = .control)
    (hp : e.frame.payload = []) (hs : s.hub.slots[e.slot].state = .draining)
    (hdone : s.hub.ports[e.slot].entries = [] ∧ s.hub.links[e.slot].tx = none) :
    ∃ t, exec .quiesced s = .next t ∧ t.hub.agent.inbox = rest ∧ t.hub.slots[e.slot] = s.hub.slots[e.slot].quiet.inOff s.hub.stamp ∧
      t.hub.ShutOff e.slot ∧ Hub.OthersStand s.hub t.hub e.slot := by
  obtain ⟨hslot, hshut, hothers⟩ := Hub.enterOff_spec ((s.hub.popInbox rest).modSlot e.slot SlotRec.quiet) e.slot .drainDone
  have hinbox := (Hub.enterOff_queues ((s.hub.popInbox rest).modSlot e.slot SlotRec.quiet) e.slot .drainDone).inbox
  have heq : (s.hub.popInbox rest).quiesce e.slot = ((s.hub.popInbox rest).modSlot e.slot SlotRec.quiet).enterOff e.slot .drainDone :=
    (Hub.quiesce_eq (h := s.hub.popInbox rest) hs).trans (if_pos hdone)
  refine ⟨_, exec_quiesced_of_taken he hk hc hp hs, ?_⟩
  dsimp only
  rw [heq]
  rw [Hub.modSlot_self] at hslot
  have hstand := hothers.of_modSlot
  generalize Hub.enterOff _ e.slot .drainDone = g at *
  exact ⟨hinbox, hslot, hshut, hstand.of_popInbox⟩

/-- QUIESCED of a slot with something left sets the flag. -/
theorem exec_quiesced_waits (he : s.hub.agent.inbox = e :: rest) (hk : e.frame.kind = Kind.quiesced) (hc : e.frame.cls = .control)
    (hp : e.frame.payload = []) (hs : s.hub.slots[e.slot].state = .draining)
    (hleft : ¬ (s.hub.ports[e.slot].entries = [] ∧ s.hub.links[e.slot].tx = none)) :
    exec .quiesced s = .next { s with hub := (s.hub.popInbox rest).modSlot e.slot SlotRec.quiet } := by
  have heq : (s.hub.popInbox rest).quiesce e.slot = _ := (Hub.quiesce_eq (h := s.hub.popInbox rest) hs).trans (if_neg hleft)
  rw [exec_quiesced_of_taken he hk hc hp hs, heq]

end

/-- Settles O34: an entry to DRAINING places its QUIESCE, which nothing that follows touches; QUIESCED comes to OFF or to the flag alone. -/
theorem draining : Obligations.Draining :=
  ⟨fun _ _ _ _ => ⟨fun hserves => ⟨exec_slotRelease_drains hserves, exec_latchOpen_drains hserves⟩,
    fun hreleased => ⟨exec_slotRelease_keeps hreleased, exec_latchOpen_keeps hreleased⟩⟩,
    fun _ _ _ he hk hc hp hs => ⟨exec_quiesced_off he hk hc hp hs, exec_quiesced_waits he hk hc hp hs⟩⟩

end Sys2Proof.Machine
end

section
/-! PROOFS. The entries to FENCED (section 5.6). -/

namespace Sys2Proof.Machine

/-! ## The purge -/

theorem Hub.purge_of_empty {h : Hub} {n : Slot} (he : h.ports[n].entries = []) (hi : h.ports[n].identify = none) : h.purge n = h := by
  unfold Hub.purge
  rw [he, hi]
  rfl

theorem Port.headOf_of_empty {p : Port} (he : p.entries = []) (hi : p.identify = none) (place : Place) : p.headOf place = none := by
  unfold Port.entries at he
  obtain ⟨⟨ht, hc⟩, hb⟩ : (p.timingQ = [] ∧ p.controlQ = []) ∧ p.bulkQ = [] := by simpa only [List.append_eq_nil_iff] using he
  cases place <;> simp [Port.headOf, ht, hc, hb, hi]

/-- With nothing queued at a port nothing is in flight on its link, since a frame in flight stands at its place. -/
theorem Hub.EntriesLegal.tx_of_empty {h : Hub} {n : Slot} (hl : h.EntriesLegal) (he : h.ports[n].entries = [])
    (hi : h.ports[n].identify = none) : h.links[n].tx = none := by
  obtain ⟨-, -, hheads, -⟩ := hl
  refine Option.eq_none_iff_forall_not_mem.mpr fun x hx => ?_
  have hhead := hheads n x hx
  rw [Port.headOf_of_empty he hi] at hhead
  cases hhead

/-- An abort counts the frame in flight (R48). -/
theorem Hub.abort_counters (h : Hub) (n : Slot) : (h.abort n).ports[n].counters = { h.ports[n].counters with
    aborted := if h.links[n].tx.isSome then h.ports[n].counters.aborted + 1 else h.ports[n].counters.aborted } := by
  unfold Hub.abort
  split
  · rw [Hub.count, Hub.modPort_self]; rfl
  · rfl

/-- A purge counts every entry, and a frame in flight as aborted (R48, R49). -/
theorem Hub.purge_link (h : Hub) (n : Slot) (hl : h.EntriesLegal) : (h.purge n).links[n].tx = none ∧
    (h.purge n).ports[n].counters = { h.ports[n].counters with
      purged := h.ports[n].counters.purged + BitVec.ofNat 32 (h.ports[n].entries.length + h.ports[n].identify.toList.length)
      aborted := if h.links[n].tx.isSome then h.ports[n].counters.aborted + 1 else h.ports[n].counters.aborted } := by
  by_cases hempty : h.ports[n].entries ++ h.ports[n].identify.toList = []
  · obtain ⟨he, hi⟩ := List.append_eq_nil_iff.mp hempty
    have hi' : h.ports[n].identify = none := by simpa using hi
    have htx := hl.tx_of_empty he hi'
    rw [Hub.purge_of_empty he hi', he, hi', htx]
    exact ⟨rfl, by simp⟩
  · have hne : ¬ (h.ports[n].entries ++ h.ports[n].identify.toList).isEmpty = true := by simpa using hempty
    unfold Hub.purge
    simp only [if_neg hne]
    refine ⟨Hub.abort_tx h n, ?_⟩
    rw [Hub.modPort_self]
    dsimp only
    rw [Hub.abort_counters, List.length_append]

theorem Hub.purge_alarms (h : Hub) (n : Slot) : (h.purge n).alarms = h.alarms := by rw [Hub.purge_frame]

/-! ## FENCED -/

/-- What an entry to FENCED leaves. -/
def Hub.Fenced (h g : Hub) (n : Slot) : Prop :=
  g.slots[n] = h.slots[n].entering .fenced h.stamp ∧ Hub.OthersKept h g n ∧
    g.trecs[n].window = [] ∧ g.trecs[n].probe = none ∧ g.trecs[n].applied = none ∧ g.trecs[n].target = none ∧
    g.ports[n].entries = [] ∧ g.ports[n].identify = none ∧
    (h.EntriesLegal → g.links[n].tx = none ∧
      g.ports[n].counters = { h.ports[n].counters with
        purged := h.ports[n].counters.purged + BitVec.ofNat 32 (h.ports[n].entries.length + h.ports[n].identify.toList.length)
        aborted := if h.links[n].tx.isSome then h.ports[n].counters.aborted + 1 else h.ports[n].counters.aborted }) ∧
    (h.slots[n].state = .recovering → h.alarms.Legal → g.isActive (.slot n .linkLost) = false)

/-- What is handed on with an entry to FENCED leaves the slot's link and port alone. -/
theorem Hub.enterFenced_follows (h : Hub) (n : Slot) (reason : SlotReason) :
    Hub.Follows ((h.purge n).enter n .fenced id) (h.enterFenced n reason) := by
  have hclosed := Hub.Follows.closed ((h.purge n).enter n .fenced id)
  unfold Hub.enterFenced
  exact hclosed.slotNotice (hclosed.handOn (hclosed.clearIf (.refl _) _ _) n _ true) n _ .fenced reason

/-- The way from RECOVERING to FENCED clears LINK_LOST. -/
theorem Hub.enterFenced_linkLost {h : Hub} {n : Slot} (reason : SlotReason) (hstate : h.slots[n].state = .recovering)
    (hlegal : h.alarms.Legal) : (h.enterFenced n reason).isActive (.slot n .linkLost) = false := by
  have hsame : ((h.purge n).enter n .fenced id).alarms = h.alarms := h.purge_alarms n
  unfold Hub.enterFenced
  simp only [hstate]
  generalize Hub.enter _ n .fenced id = k at *
  have hcleared : (k.clear (.slot n .linkLost)).isActive (.slot n .linkLost) = false :=
    Hub.clear_inactive (hsame ▸ hlegal) (linkLost_ne_agentOverload n) (linkLost_ne_tableFull n)
  have hclearedLegal : (k.clear (.slot n .linkLost)).alarms.Legal :=
    (Hub.AlarmRun.clear (raises := fun _ => False) (clears := fun _ => True) k trivial).legal (hsame ▸ hlegal)
  have hlast : Hub.AlarmRun (· ∈ timingKeys) (· ∈ leaveKeys n) (k.clear (.slot n .linkLost))
      (((k.clear (.slot n .linkLost)).handOn n .recovering true).slotNotice n .recovering .fenced reason) :=
    (Hub.AlarmRun.slotNotice _ _ _ _ _).after (Hub.AlarmRun.handOn (fun _ => id) _ n .recovering true fun _ => id)
  exact (hlast.inactive hclearedLegal hcleared (linkLost_ne_agentOverload n) (linkLost_ne_tableFull n)
    (by simp [timingKeys, AlarmKey.slot, AlarmKey.hub])).2

theorem Hub.enterFenced_fenced (h : Hub) (n : Slot) (reason : SlotReason) : Hub.Fenced h (h.enterFenced n reason) n := by
  obtain ⟨hslots, hclock, htables, hconfig, hwait, -⟩ := h.purge_counts n
  have hhands := h.enterFenced_handsOn n reason
  obtain ⟨hslot, hothers⟩ := hhands.enteredKept hslots hclock htables hconfig hwait
  obtain ⟨hwindow, htarget, happlied, hprobe, -⟩ := h.enterFenced_isReset n reason
  have hfollows := h.enterFenced_follows n reason
  have hlost := Hub.enterFenced_linkLost (h := h) (n := n) reason
  have htakes : ((h.purge n).enter n .fenced id).slots[n].state.takesAgent .control = false := by
    unfold Hub.enter
    rw [Hub.modSlot_self]
    rfl
  have hport : (h.enterFenced n reason).ports[n] = (h.purge n).ports[n] := hfollows.ports n htakes
  have hlink : (h.enterFenced n reason).links[n] = (h.purge n).links[n] := hfollows.links n htakes
  obtain ⟨hentries, hidentify⟩ := h.purge_port n
  generalize h.enterFenced n reason = g at *
  refine ⟨hslot, hothers, hwindow, hprobe, happlied, htarget, ?_, ?_, fun hl => ?_, hlost⟩
  · rw [hport]; exact hentries
  · rw [hport]; exact hidentify
  · rw [hlink, hport]
    exact h.purge_link n hl

theorem Hub.enterFenced_linkState (h : Hub) (n : Slot) (reason : SlotReason) :
    (h.enterFenced n reason).links[n].state = h.links[n].state := by
  rw [(h.enterFenced_handsOn n reason).links n]
  exact h.purge_linkState n n

theorem Hub.Fenced.of_popRequest {h g : Hub} {n : Slot} {rest : List Request} (hf : Hub.Fenced (h.popRequest rest) g n) : Hub.Fenced h g n := hf

theorem Hub.Fenced.answer {h g : Hub} {n : Slot} {r : Request} (hf : Hub.Fenced h g n) (status : Status) (body : Body) :
    Hub.Fenced h (g.answer r status body) n := hf

theorem Hub.Fenced.of_fenceRequests {h g : Hub} {n : Slot} {l : List Slot}
    (hf : Hub.Fenced { h with manager := { h.manager with fenceRequests := l } } g n) : Hub.Fenced h g n := hf

section

variable {s : State} {n : Slot} {r : Request} {rest : List Request}

theorem Hub.fence_of_serving {h : Hub} (reason : SlotReason) (hs : h.slots[n].state = .forwarding ∨ h.slots[n].state = .recovering) :
    h.fence n reason = h.enterFenced n reason := by
  unfold Hub.fence
  obtain hst | hst := hs <;> simp only [hst]

theorem Hub.fence_of_not {h : Hub} (reason : SlotReason) (hs : ¬ (h.slots[n].state = .forwarding ∨ h.slots[n].state = .recovering)) :
    h.fence n reason = h := by
  unfold Hub.fence
  split
  · next hst => exact absurd (.inl hst) hs
  · next hst => exact absurd (.inr hst) hs
  · rfl

theorem exec_slotFence_of_takes (ht : s.hub.TakesFor Code.slotFence r rest n) :
    exec .slotFence s = .next { s with hub := Hub.slotFence r n (s.hub.popRequest rest) } := State.onHub_takesFor ht Hub.slotFence

theorem Hub.slotFence_of_serving {h : Hub} (r : Request) (hs : h.slots[n].state = .forwarding ∨ h.slots[n].state = .recovering) :
    Hub.slotFence r n h =
      (h.enterFenced n (.hostRequest Code.slotFence)).answer r .ok (.slotLink .fenced h.links[n].state) := by
  obtain ⟨hslot, -⟩ := h.enterFenced_fenced n (.hostRequest Code.slotFence)
  have hlink := h.enterFenced_linkState n (.hostRequest Code.slotFence)
  unfold Hub.slotFence Hub.answerLink
  simp only [Hub.fence_of_serving _ hs, hslot, hlink]
  obtain hst | hst := hs <;> rw [hst] <;> rfl

theorem exec_slotFence_fences (ht : s.hub.TakesFor Code.slotFence r rest n)
    (hs : s.hub.slots[n].state = .forwarding ∨ s.hub.slots[n].state = .recovering) :
    ∃ t, exec .slotFence s = .next t ∧ Hub.Fenced s.hub t.hub n ∧ t.hub.port.Replied r rest .ok (.slotLink .fenced s.hub.links[n].state) := by
  have hspec := (s.hub.popRequest rest).enterFenced_fenced n (.hostRequest Code.slotFence)
  have hinbound := ((s.hub.popRequest rest).enterFenced_handsOn n (.hostRequest Code.slotFence)).inbound
  have hpurged := ((s.hub.popRequest rest).purge_queues n).inbound
  refine ⟨_, exec_slotFence_of_takes ht, ?_⟩
  dsimp only
  rw [Hub.slotFence_of_serving (h := s.hub.popRequest rest) r hs]
  have hqueue := hinbound.trans hpurged
  generalize Hub.enterFenced _ n (.hostRequest Code.slotFence) = g at *
  exact ⟨hspec.of_popRequest.answer _ _, Hub.answer_replied _ r _ _ hqueue⟩

theorem exec_slotFence_refused (ht : s.hub.TakesFor Code.slotFence r rest n)
    (hs : ¬ (s.hub.slots[n].state = .forwarding ∨ s.hub.slots[n].state = .recovering)) :
    exec .slotFence s = .next { s with hub := { s.hub with
      port := s.hub.port.answered r rest (if s.hub.slots[n].state = .fenced then .ok else .badState)
        (.slotLink s.hub.slots[n].state s.hub.links[n].state) } } := by
  obtain ⟨hforwarding, hrecovering⟩ := not_or.mp hs
  have hstatus : stateStatus (s.hub.slots[n].state == .forwarding || s.hub.slots[n].state == .recovering || s.hub.slots[n].state == .fenced) =
      if s.hub.slots[n].state = .fenced then .ok else .badState := by
    rw [beq_eq_false_iff_ne.mpr hforwarding, beq_eq_false_iff_ne.mpr hrecovering, Bool.false_or, Bool.false_or]
    unfold stateStatus
    simp only [beq_iff_eq]
  rw [exec_slotFence_of_takes ht]
  unfold Hub.slotFence Hub.answerLink
  simp only [Hub.fence_of_not (h := s.hub.popRequest rest) _ hs, Hub.popRequest_slots, Hub.popRequest_links, hstatus]
  rfl

theorem exec_fenceSlot (s : State) (n : Slot) : exec (.fenceSlot n) s = s.onHub (·.takeFence n) := rfl

/-- The hub once a fence request for a slot has been taken. -/
def Hub.popFence (h : Hub) (n : Slot) : Hub := { h with manager := { h.manager with fenceRequests := h.manager.fenceRequests.erase n } }

theorem Hub.takeFence_of_mem {h : Hub} (hin : n ∈ h.manager.fenceRequests) : h.takeFence n = (h.popFence n).fence n .alarmAction := if_pos hin

theorem exec_fenceSlot_fences (hin : n ∈ s.hub.manager.fenceRequests)
    (hs : s.hub.slots[n].state = .forwarding ∨ s.hub.slots[n].state = .recovering) :
    ∃ t, exec (.fenceSlot n) s = .next t ∧ Hub.Fenced s.hub t.hub n := by
  have hspec := (s.hub.popFence n).enterFenced_fenced n .alarmAction
  refine ⟨_, (exec_fenceSlot s n).trans (State.onHub_to (Hub.takeFence_of_mem hin)), ?_⟩
  dsimp only
  rw [Hub.fence_of_serving (h := s.hub.popFence n) .alarmAction hs]
  generalize Hub.enterFenced _ n .alarmAction = g at *
  exact hspec.of_fenceRequests

end

/-- Settles O35: a request and a fence request come to one entry, whose purge and window reset the entry's parts describe. -/
theorem enterFenced : Obligations.EnterFenced := by
  intro s n r rest
  refine ⟨exec_slotFence_fences, exec_slotFence_refused, exec_fenceSlot_fences, fun hin hs => ?_⟩
  rw [exec_fenceSlot]
  exact State.onHub_to ((Hub.takeFence_of_mem hin).trans (Hub.fence_of_not (h := s.hub.popFence n) _ hs))

end Sys2Proof.Machine
end

section
/-! PROOFS. Links that leave LOCKED, by themselves or by a reset (sections 1.1, 5.2 and 5.8). -/

namespace Sys2Proof.Machine

/-! ## Links shut down -/

/-- A disable that comes in the hold of a link reset lets the link train no more (R2). -/
def Hold.disarm (hold : Hold) : Hold := { hold with thenTrain := false }

/-- From `h` to `g` the link of slot `n` has been disabled. -/
def Hub.ShutDown (h g : Hub) (n : Slot) : Prop :=
  g.links[n].state = .disabled ∧ g.links[n].rx = none ∧ g.links[n].hold = h.links[n].hold.map Hold.disarm

theorem Hub.ShutDown.trans {h g k : Hub} {n : Slot} (a : Hub.ShutDown h g n) (b : Hub.ShutDown g k n) : Hub.ShutDown h k n := by
  obtain ⟨-, -, ha⟩ := a
  obtain ⟨hstate, hrx, hb⟩ := b
  refine ⟨hstate, hrx, ?_⟩
  rw [hb, ha, Option.map_map]
  rfl

theorem Hub.ShutDown.handsOn {h g k : Hub} {n : Slot} (a : Hub.ShutDown h g n) (ho : Hub.HandsOn g k) : Hub.ShutDown h k n := by
  obtain ⟨hstate, hrx, hhold⟩ := a
  have hlink := ho.links n
  exact ⟨by rw [hlink]; exact hstate, by rw [hlink]; exact hrx, by rw [hlink]; exact hhold⟩

theorem Hub.ShutDown.of_links {h g k : Hub} {n : Slot} (a : Hub.ShutDown h g n) (he : k.links = g.links) : Hub.ShutDown h k n := by
  unfold Hub.ShutDown
  rw [he]
  exact a

theorem Hub.abort_hold (h : Hub) (n : Slot) : (h.abort n).links[n].hold = h.links[n].hold := by
  unfold Hub.abort
  split
  · simp
  · rfl

theorem Hub.purge_hold (h : Hub) (n : Slot) : (h.purge n).links[n].hold = h.links[n].hold := by
  rcases h.purge_links n with he | he
  · rw [he]
  · rw [he]; exact h.abort_hold n

theorem Hub.disableLink_shutDown (h : Hub) (n : Slot) : Hub.ShutDown h (h.disableLink n) n := by
  obtain ⟨hlink, -⟩ := (h.abort n).linkDropped n
    (fun l => { l with state := .disabled, helloCount := 0, hold := l.hold.map fun hold => { hold with thenTrain := false } }) (fun _ => LinkState.noConfusion)
  unfold Hub.ShutDown Hub.disableLink
  simp only
  rw [hlink]
  refine ⟨rfl, rfl, ?_⟩
  show (h.abort n).links[n].hold.map _ = _
  rw [h.abort_hold]
  rfl

theorem Hub.powerDown_shutDown (h : Hub) (n : Slot) (state : SlotState) (f : SlotRec → SlotRec) :
    Hub.ShutDown h (h.powerDown n state f) n := by
  unfold Hub.powerDown
  obtain ⟨hstate, hrx, hhold⟩ := Hub.disableLink_shutDown (((h.purge n).unjoin n).enter n state f) n
  refine ⟨hstate, hrx, hhold.trans ?_⟩
  show (h.purge n).links[n].hold.map Hold.disarm = _
  rw [h.purge_hold]

theorem Hub.serve_links (h : Hub) : h.serve.1.links = h.links := by rw [Hub.serve_frame]

theorem Hub.enterOff_shutDown (h : Hub) (n : Slot) (reason : SlotReason) : Hub.ShutDown h (h.enterOff n reason) n := by
  unfold Hub.enterOff Hub.enterOffWith
  simp only
  have hdown := (h.powerDown_shutDown n .off fun r => { r.unpower true with identity := none }).of_links (Hub.serve_links _)
  generalize Hub.serve _ = k at *
  exact hdown.handsOn <| (k.1.raiseIf_handsOn false (.slot n .drainForced)).trans <| (Hub.clearWait_handsOn _ _ _).trans <|
    (Hub.clear_handsOn _ _).trans <| (Hub.clearIf_handsOn _ _ _).trans <| (Hub.clearReported_handsOn _ n).trans <|
    (Hub.handOn_handsOn _ n _ _).trans <| (Hub.slotNotice_handsOn _ n _ .off reason).trans <| Hub.announceGrants_handsOn _ k.2

theorem Hub.enterFaulted_shutDown (h : Hub) (n : Slot) (fault : FaultReason) (reason : SlotReason) :
    Hub.ShutDown h (h.enterFaulted n fault reason) n := by
  unfold Hub.enterFaulted
  simp only
  have hdown := (h.powerDown_shutDown n .faulted fun r => { r.unpower false with fault := some fault }).of_links (Hub.serve_links _)
  generalize Hub.serve _ = k at *
  have htold := hdown.handsOn <| (k.1.raise_handsOn (.slot n .slotFault)).trans <|
    Hub.clearIf_handsOn _ (h.slots[n].state == .recovering) (.slot n .linkLost)
  generalize Hub.clearIf (k.1.raise _) _ _ = k1 at *
  have htimed : Hub.ShutDown h (k1.modSlot n fun r => { r with limit := some (k1.dueIn 2000) }) n := htold.of_links rfl
  generalize (k1.modSlot n fun r => { r with limit := some (k1.dueIn 2000) }) = k2 at *
  have hfaulted := htimed.handsOn <| (k2.clearReported_handsOn n).trans <|
    (Hub.handOn_handsOn _ n h.slots[n].state (h.links[n].state == .locked)).trans <|
    (Hub.slotNotice_handsOn _ n h.slots[n].state .faulted reason).trans <| Hub.announceGrants_handsOn _ k.2
  generalize Hub.announceGrants _ k.2 = g at *
  split
  · exact hfaulted
  · exact hfaulted.trans (g.enterOff_shutDown n .latchOpened)

/-! ## The report of a link that has left LOCKED -/

/-- What counting an errored frame leaves of the other parts: relations to `h` may be read from the hub before the count. -/
theorem Hub.OthersStand.of_counts {h k g : Hub} {n : Slot} (hc : Hub.Counts h k n) (ho : Hub.OthersStand k g n) : Hub.OthersStand h g n := by
  obtain ⟨hslots, htables, hclock, hconfig⟩ := ho
  refine ⟨fun m hm => ?_, htables.trans hc.tables, hclock.trans hc.clock, hconfig.trans hc.config⟩
  have hslot := hslots m hm
  unfold Hub.powered Hub.stamp Hub.dueIn at hslot ⊢
  rwa [hc.slots, hc.waitList, hc.clock] at hslot

theorem Hub.Counts.othersKept {h k g : Hub} {n : Slot} (hc : Hub.Counts h k n) (ho : Hub.HandsOn k g) : Hub.OthersKept h g n :=
  ⟨fun m _ => by rw [ho.slots, hc.slots], ho.tables.trans hc.tables, ho.clock.trans hc.clock, ho.config.trans hc.config,
    ho.waitList.trans hc.waitList⟩

section

variable {h k : Hub} {n : Slot} (reason : SlotReason)

theorem Hub.linkLeft_of_forwarding (hs : k.slots[n].state = .forwarding) :
    k.linkLeft n reason = (k.enterRecovering n reason).windowReset n := by
  unfold Hub.linkLeft
  simp only [hs]

theorem Hub.linkLeft_of_fenced (hs : k.slots[n].state = .fenced) :
    k.linkLeft n reason = (k.enterFaulted n .linkLost reason).windowReset n := by
  unfold Hub.linkLeft
  simp only [hs]

theorem Hub.linkLeft_of_other (hf : k.slots[n].state ≠ .forwarding) (hn : k.slots[n].state ≠ .fenced) : k.linkLeft n reason = k.windowReset n := by
  unfold Hub.linkLeft
  split
  · next hs => exact absurd hs hf
  · next hs => exact absurd hs hn
  · rfl

/-- A FORWARDING slot whose link has left LOCKED recovers for the window in force, with LINK_LOST raised (R81). -/
structure Hub.Recovers (h g : Hub) (n : Slot) : Prop where
  slot : g.slots[n] = { h.slots[n].entering .recovering h.stamp with limit := some (h.dueIn h.tables.recoveryWindow) }
  others : Hub.OthersKept h g n
  linkLost : h.AlarmRoom → g.isActive (.slot n .linkLost) = true

theorem Hub.linkLeft_recovers (hc : Hub.Counts h k n) (hrun : Hub.AlarmRun (· ∈ disableKeys n) (fun _ => False) h k)
    (hs : h.slots[n].state = .forwarding) : Hub.Recovers h (k.linkLeft n reason) n := by
  rw [Hub.linkLeft_of_forwarding reason (hc.slots ▸ hs)]
  have hreset := Hub.windowReset_handsOn (k.enterRecovering n reason) n
  obtain ⟨hslot, hothers⟩ := ((k.enterRecovering_handsOn n reason).trans hreset).enteredKept hc.slots hc.clock hc.tables hc.config hc.waitList
  refine ⟨?_, hothers, fun hroom => ?_⟩
  · rw [hslot]
    unfold Hub.dueIn
    rw [hc.clock, hc.tables]
  · obtain ⟨-, hlen⟩ := hroom
    unfold Hub.enterRecovering
    simp only
    have hentered : Hub.AlarmRun (· ∈ .slot n .linkLost :: disableKeys n) (fun _ => False) h
        (k.enter n .recovering fun r => { r with limit := some (k.dueIn k.tables.recoveryWindow) }) :=
      (Hub.AlarmRun.of_eq rfl).after (hrun.mono (fun _ => List.mem_cons_of_mem _) fun _ => id)
    generalize Hub.enter k n _ _ = k1 at *
    have hraised : (k1.raise (.slot n .linkLost)).isActive (.slot n .linkLost) = true :=
      Hub.raise_isActive (hentered.room _ (by simp [disableKeys]) (fun _ => id) (by simp [disableKeys]; omega) List.mem_cons_self)
    have hrest : Hub.AlarmRun (· ∈ timingKeys) (HandOnClears n) (k1.raise (.slot n .linkLost))
        ((((k1.raise (.slot n .linkLost)).leaveForwarding n).slotNotice n .forwarding .recovering reason).windowReset n) :=
      (Hub.AlarmRun.windowReset (fun _ => id) (Hub.AlarmRun.timingKeys_of_leaveKeys (n := n) fun _ hk => .inl hk) _ n).after <|
        (Hub.AlarmRun.slotNotice _ _ _ _ _).after (Hub.AlarmRun.leaveForwarding (fun _ => id) _ n fun _ hk => .inl hk)
    exact hrest.isActive hraised fun key hk => hk.ne (by decide)

/-- A FENCED slot whose link has left LOCKED, with its latch CLOSED, is FAULTED for LINK_LOST (R91). -/
structure Hub.FaultsForLink (h g : Hub) (n : Slot) : Prop where
  slot : g.slots[n] = h.slots[n].inFaulted h.stamp .linkLost (h.dueIn 2000)
  shutOff : g.ShutOff n
  others : Hub.OthersStand h g n
  slotFault : h.AlarmRoom → g.isActive (.slot n .slotFault) = true

theorem Hub.linkLeft_faults (hc : Hub.Counts h k n) (hrun : Hub.AlarmRun (· ∈ disableKeys n) (fun _ => False) h k)
    (hs : h.slots[n].state = .fenced) (hlatch : h.slots[n].latchClosed = true) : Hub.FaultsForLink h (k.linkLeft n reason) n := by
  rw [Hub.linkLeft_of_fenced reason (hc.slots ▸ hs)]
  have hlatch' : k.slots[n].latchClosed = true := hc.slots ▸ hlatch
  obtain ⟨hslot, hshut, hothers⟩ := k.enterFaulted_spec n .linkLost reason hlatch'
  have hactive := Hub.enterFaulted_active .linkLost reason hrun hlatch'
  generalize k.enterFaulted n .linkLost reason = g at *
  have hreset := Hub.windowReset_handsOn g n
  obtain ⟨hstand, htables, hclock, hconfig⟩ := hothers.of_counts hc
  refine ⟨?_, hreset.shutOff hshut (by rw [hslot]; rfl), hreset.othersStand hstand htables hclock hconfig, fun hroom => ?_⟩
  · rw [hreset.slots, hslot]
    unfold Hub.stamp Hub.dueIn
    rw [hc.slots, hc.clock]
  · have hlast : Hub.AlarmRun (· ∈ timingKeys) (HandOnClears n) g (g.windowReset n) :=
      Hub.AlarmRun.windowReset (fun _ => id) (Hub.AlarmRun.timingKeys_of_leaveKeys (n := n) fun _ hk => .inl hk) g n
    exact hlast.isActive (hactive hroom) fun key hk => hk.ne (by decide)

/-- In any other state the report resets the window and changes no slot. -/
theorem Hub.linkLeft_handsOn (hc : Hub.Counts h k n) (hf : h.slots[n].state ≠ .forwarding) (hn : h.slots[n].state ≠ .fenced) :
    Hub.HandsOn k (k.linkLeft n reason) := by
  rw [Hub.linkLeft_of_other reason (hc.slots ▸ hf) (hc.slots ▸ hn)]
  exact Hub.windowReset_handsOn k n

/-- The report leaves a link that is not LOCKED as it is, but where it shuts it down. -/
theorem Hub.linkLeft_link (hl : k.links[n].state ≠ .locked) :
    (k.slots[n].state ≠ .fenced → (k.linkLeft n reason).links[n] = k.links[n]) ∧
      (k.slots[n].state = .fenced → Hub.ShutDown k (k.linkLeft n reason) n) := by
  refine ⟨fun hn => ?_, fun hs => ?_⟩
  · by_cases hf : k.slots[n].state = .forwarding
    · rw [Hub.linkLeft_of_forwarding reason hf]
      exact ((k.enterRecovering_handsOn n reason).trans (Hub.windowReset_handsOn _ n)).unsent n hl
    · rw [Hub.linkLeft_of_other reason hf hn]
      exact (Hub.windowReset_handsOn k n).unsent n hl
  · rw [Hub.linkLeft_of_fenced reason hs]
    exact (k.enterFaulted_shutDown n .linkLost reason).handsOn (Hub.windowReset_handsOn _ n)

end

/-! ## A link that loses alignment -/

/-- The hub once a LOCKED link has lost alignment, before the report of it (R4). -/
def Hub.misaligned (h : Hub) (n : Slot) : Hub :=
  ((h.abort n).modLink n fun l => { l with state := .training, helloCount := 0 }).dropPartial n

theorem Hub.loseAlignment_eq (h : Hub) (n : Slot) : h.loseAlignment n = (h.misaligned n).linkLeft n .linkLost := rfl

theorem Hub.misaligned_counts (h : Hub) (n : Slot) : Hub.Counts h (h.misaligned n) n :=
  (h.abort_counts n).trans ((h.abort n).linkDropped n _ fun _ => LinkState.noConfusion).2

theorem Hub.misaligned_alarms (h : Hub) (n : Slot) : Hub.AlarmRun (· ∈ disableKeys n) (fun _ => False) h (h.misaligned n) :=
  (Hub.AlarmRun.dropPartial _ n List.mem_cons_self).after ((Hub.AlarmRun.of_eq rfl).after (Hub.AlarmRun.abort h n))

theorem Hub.misaligned_link (h : Hub) (n : Slot) : (h.misaligned n).links[n].state = .training ∧ (h.misaligned n).links[n].helloCount = 0 ∧
    (h.misaligned n).links[n].tx = none ∧ (h.misaligned n).links[n].rx = none := by
  obtain ⟨hlink, -⟩ := (h.abort n).linkDropped n (fun l => { l with state := .training, helloCount := 0 }) fun _ => LinkState.noConfusion
  unfold Hub.misaligned
  rw [hlink]
  exact ⟨rfl, rfl, h.abort_tx n, rfl⟩

/-- What a LOCKED link that loses alignment leaves (R4, R81, R91, R129). -/
structure Hub.LosesLink (h g : Hub) (n : Slot) : Prop where
  tx : g.links[n].tx = none
  rx : g.links[n].rx = none
  reset : g.trecs[n].IsReset
  link : h.slots[n].state ≠ .fenced → g.links[n].state = .training ∧ g.links[n].helloCount = 0 ∧ Hub.OthersKept h g n
  forwarding : h.slots[n].state = .forwarding → Hub.Recovers h g n
  fenced : h.slots[n].state = .fenced → h.slots[n].latchClosed = true → Hub.FaultsForLink h g n
  other : h.slots[n].state ≠ .forwarding → h.slots[n].state ≠ .fenced → g.slots = h.slots

theorem Hub.ShutDown.tx_of_enterFaulted {k : Hub} {n : Slot} (fault : FaultReason) (reason : SlotReason) :
    (k.enterFaulted n fault reason).links[n].tx = none := by
  cases hlatch : k.slots[n].latchClosed with
  | true =>
    obtain ⟨-, ⟨-, htx, -⟩, -⟩ := k.enterFaulted_spec n fault reason hlatch
    exact htx
  | false =>
    obtain ⟨-, -, htx, -⟩ := k.enterFaulted_open n fault reason hlatch
    exact htx

theorem Hub.loseAlignment_losesLink (h : Hub) (n : Slot) : Hub.LosesLink h (h.loseAlignment n) n := by
  rw [Hub.loseAlignment_eq]
  have hc := h.misaligned_counts n
  have hrun := h.misaligned_alarms n
  obtain ⟨hstate, hcount, htx, hrx⟩ := h.misaligned_link n
  generalize h.misaligned n = k at *
  have hslots := hc.slots
  obtain ⟨hkept, hshut⟩ := Hub.linkLeft_link (k := k) (n := n) .linkLost (by rw [hstate]; decide)
  have hother : h.slots[n].state ≠ .forwarding → h.slots[n].state ≠ .fenced → Hub.HandsOn k (k.linkLeft n .linkLost) :=
    Hub.linkLeft_handsOn .linkLost hc
  have hrecovers := Hub.linkLeft_recovers .linkLost hc hrun
  refine ⟨?_, ?_, Hub.linkLeft_isReset k n .linkLost, fun hn => ?_, hrecovers, Hub.linkLeft_faults .linkLost hc hrun,
    fun hf hn => (hother hf hn).slots.trans hslots⟩
  · by_cases hs : k.slots[n].state = .fenced
    · rw [Hub.linkLeft_of_fenced .linkLost hs]
      have hoff : (k.enterFaulted n .linkLost .linkLost).links[n].state ≠ .locked := by
        rw [(k.enterFaulted_shutDown n .linkLost .linkLost).1]; decide
      rw [(Hub.windowReset_handsOn (k.enterFaulted n .linkLost .linkLost) n).unsent n hoff]
      exact Hub.ShutDown.tx_of_enterFaulted .linkLost .linkLost
    · rw [hkept hs]; exact htx
  · by_cases hs : k.slots[n].state = .fenced
    · exact (hshut hs).2.1
    · rw [hkept hs]; exact hrx
  · have hn' : k.slots[n].state ≠ .fenced := hslots ▸ hn
    refine ⟨by rw [hkept hn']; exact hstate, by rw [hkept hn']; exact hcount, ?_⟩
    by_cases hf : h.slots[n].state = .forwarding
    · exact (hrecovers hf).others
    · exact hc.othersKept (hother hf hn)

theorem exec_helloInvalid (s : State) (n : Slot) : exec (.helloInvalid n) s = s.onHub (·.helloInvalid n) := rfl

theorem exec_linkAlignmentLost (s : State) (n : Slot) : exec (.linkAlignmentLost n) s = s.onHub (·.alignmentLost n) := rfl

/-- The three commands on a LOCKED link. -/
theorem exec_of_locked {s : State} {n : Slot} {c : Instr} (hcase : c = .linkAlignmentLost n ∨ c = .helloValid n ∨ c = .helloInvalid n)
    (hl : s.hub.links[n].state = .locked) : exec c s = .next { s with hub := s.hub.loseAlignment n } := by
  obtain rfl | rfl | rfl := hcase
  · rw [exec_linkAlignmentLost]
    refine State.onHub_to ?_
    unfold Hub.alignmentLost
    simp only [hl]
  · rw [exec_helloValid]
    refine State.onHub_to ?_
    unfold Hub.helloValid
    simp only [hl]
  · rw [exec_helloInvalid]
    refine State.onHub_to ?_
    unfold Hub.helloInvalid
    simp only [hl]

/-- Settles O33: the three commands come to one loss of alignment, whose report changes the slot by its state. -/
theorem linkLost : Obligations.LinkLost := by
  intro s n c hcase h r hl
  have hlost := h.loseAlignment_losesLink n
  refine ⟨_, exec_of_locked hcase hl, ?_⟩
  dsimp only
  change Hub.LosesLink h (s.hub.loseAlignment n) n at hlost
  generalize s.hub.loseAlignment n = g at *
  obtain ⟨htx, hrx, ⟨hwindow, -, happlied, hprobe, -⟩, hlink, hforwarding, hfenced, hother⟩ := hlost
  exact ⟨rfl, htx, hrx, hwindow, happlied, hprobe, hlink, fun hs => ⟨(hforwarding hs).slot, (hforwarding hs).linkLost⟩,
    fun hs hlatch => ⟨(hfenced hs hlatch).slot, (hfenced hs hlatch).shutOff, (hfenced hs hlatch).others, (hfenced hs hlatch).slotFault⟩, hother⟩

/-! ## A link reset -/

/-- The link of a slot that a link reset holds (R5). -/
def Hub.Held (h g : Hub) (n : Slot) : Prop :=
  g.links[n].state = .disabled ∧ g.links[n].tx = none ∧ g.links[n].hold = some { due := h.clock.elapsed + nsPerMs, thenTrain := true }

theorem Hub.resetLink_held (h : Hub) (n : Slot) : Hub.Held h (h.resetLink n) n := by
  obtain ⟨-, hstate, htx, -, hhold⟩ := h.resetLink_link n
  refine ⟨hstate, htx, hhold.trans ?_⟩
  unfold Hub.dueIn
  rw [Nat.one_mul]

theorem Hub.Held.of_link {h g k : Hub} {n : Slot} (hh : Hub.Held h g n) (he : k.links[n] = g.links[n]) : Hub.Held h k n := by
  unfold Hub.Held
  rw [he]
  exact hh

theorem Hub.resetLink_alarms (h : Hub) (n : Slot) : Hub.AlarmRun (· ∈ disableKeys n) (fun _ => False) h (h.resetLink n) :=
  Hub.AlarmRun.resetLink h n List.mem_cons_self

/-- On a link that takes in nothing no errored frame is counted, and the port is left as the purge leaves it. -/
theorem Hub.resetLink_ports {h : Hub} {n : Slot} (hrx : h.links[n].rx = none) : (h.resetLink n).ports[n].entries = [] := by
  have habort : ((h.purge n).abort n).links[n].rx = none := by
    have hpurge : (h.purge n).links[n].rx = none := by
      rcases h.purge_links n with he | he
      · rw [he]; exact hrx
      · rw [he]
        unfold Hub.abort
        split
        · simpa using hrx
        · exact hrx
    unfold Hub.abort
    split
    · simpa using hpurge
    · exact hpurge
  unfold Hub.resetLink Hub.dropPartial
  simp only
  rw [if_neg (by rw [Hub.modLink_self, habort]; decide), Hub.modLink_ports, Hub.abort_entries]
  exact (h.purge_port n).1

section

variable {s : State} {n : Slot} {r : Request} {rest : List Request}

theorem exec_slotLinkReset_of_takes (ht : s.hub.TakesFor Code.slotLinkReset r rest n) :
    exec .slotLinkReset s = .next { s with hub := Hub.slotLinkReset r n (s.hub.popRequest rest) } := State.onHub_takesFor ht Hub.slotLinkReset

theorem Hub.slotLinkReset_of_unlocked {h : Hub} (r : Request) (hs : h.slots[n].state.takesLinkReset = true) (hl : h.links[n].state ≠ .locked) :
    Hub.slotLinkReset r n h = (h.resetLink n).answerLink r n true := by
  unfold Hub.slotLinkReset
  simp only [hs, if_true, beq_eq_false_iff_ne.mpr hl]
  rfl

theorem Hub.slotLinkReset_of_locked {h : Hub} (r : Request) (hs : h.slots[n].state.takesLinkReset = true) (hl : h.links[n].state = .locked) :
    Hub.slotLinkReset r n h = ((h.resetLink n).linkLeft n (.hostRequest Code.slotLinkReset)).answerLink r n true := by
  unfold Hub.slotLinkReset
  simp only [hs, if_true, beq_iff_eq.mpr hl]

theorem Hub.slotLinkReset_of_not {h : Hub} (r : Request) (hs : h.slots[n].state.takesLinkReset = false) :
    Hub.slotLinkReset r n h = h.answerLink r n false := by
  unfold Hub.slotLinkReset
  simp only [hs, Bool.false_eq_true, if_false]

/-- The first hello in a row counts on a TRAINING link (R3). -/
theorem Hub.helloValid_of_first {h : Hub} (hl : h.links[n].state = .training) (hcount : h.links[n].helloCount = 0) :
    h.helloValid n = h.modLink n fun l => { l with helloCount := l.helloCount + 1 } := by
  unfold Hub.helloValid
  simp only [hl, hcount]
  rfl

theorem exec_slotLinkReset_unlocked (ht : s.hub.TakesFor Code.slotLinkReset r rest n) (hs : s.hub.slots[n].state.takesLinkReset = true)
    (hl : s.hub.links[n].state ≠ .locked) (hlegal : s.hub.links[n].Legal) :
    ∃ t, exec .slotLinkReset s = .next t ∧ Hub.Held s.hub t.hub n ∧ t.hub.slots = s.hub.slots ∧ t.hub.ports[n].entries = [] ∧
      t.hub.port.Replied r rest .ok (.slotLink s.hub.slots[n].state .disabled) := by
  have hheld := (s.hub.popRequest rest).resetLink_held n
  have hc := ((s.hub.popRequest rest).resetLink_link n).1
  obtain ⟨-, hreceives, -⟩ := hlegal
  have hports := Hub.resetLink_ports (h := s.hub.popRequest rest) (n := n) (Option.not_isSome_iff_eq_none.mp fun hrx => hl (hreceives hrx))
  have hinbound := ((s.hub.popRequest rest).resetLink_queues n).inbound
  refine ⟨_, exec_slotLinkReset_of_takes ht, ?_⟩
  dsimp only
  rw [Hub.slotLinkReset_of_unlocked (h := s.hub.popRequest rest) r hs hl]
  generalize Hub.resetLink _ n = g at *
  have hslot : g.slots = s.hub.slots := hc.slots
  obtain ⟨hstate, -⟩ := id hheld
  unfold Hub.answerLink
  rw [hslot, hstate]
  exact ⟨hheld, hslot, hports, Hub.answer_replied _ r _ _ hinbound⟩

/-- A reset of a LOCKED link, with the report that it has left LOCKED. -/
theorem exec_slotLinkReset_locked {g : Hub} (ht : s.hub.TakesFor Code.slotLinkReset r rest n) (hs : s.hub.slots[n].state.takesLinkReset = true)
    (hl : s.hub.links[n].state = .locked)
    (hg : ((s.hub.popRequest rest).resetLink n).linkLeft n (.hostRequest Code.slotLinkReset) = g) :
    exec .slotLinkReset s = .next { s with hub := g.answerLink r n true } := by
  rw [exec_slotLinkReset_of_takes ht, Hub.slotLinkReset_of_locked (h := s.hub.popRequest rest) r hs hl, hg]

theorem Hub.Held.answerLink {h g : Hub} {r : Request} (hh : Hub.Held h g n) : Hub.Held h (g.answerLink r n true) n := hh

theorem exec_slotLinkReset_forwarding (ht : s.hub.TakesFor Code.slotLinkReset r rest n) (hs : s.hub.slots[n].state = .forwarding)
    (hl : s.hub.links[n].state = .locked) :
    ∃ t, exec .slotLinkReset s = .next t ∧ Hub.Held s.hub t.hub n ∧ Hub.OthersKept s.hub t.hub n ∧ t.hub.trecs[n].window = [] ∧
      t.hub.slots[n] = { s.hub.slots[n].entering .recovering s.hub.stamp with limit := some (s.hub.dueIn s.hub.tables.recoveryWindow) } ∧
      (s.hub.AlarmRoom → t.hub.isActive (.slot n .linkLost) = true) ∧
      t.hub.port.Replied r rest .ok (.slotLink .recovering .disabled) := by
  obtain ⟨hc, hstate, -⟩ := (s.hub.popRequest rest).resetLink_link n
  have hheld := (s.hub.popRequest rest).resetLink_held n
  have hrun := (s.hub.popRequest rest).resetLink_alarms n
  have hinbound := ((s.hub.popRequest rest).resetLink_queues n).inbound
  generalize hk : (s.hub.popRequest rest).resetLink n = k at *
  have hks : k.slots[n].state = .forwarding := hc.slots ▸ hs
  have hrecovers := Hub.linkLeft_recovers (.hostRequest Code.slotLinkReset) hc hrun hs
  have hlink := (Hub.linkLeft_link (.hostRequest Code.slotLinkReset) (by rw [hstate]; decide)).1 (by rw [hks]; decide)
  have hqueue : (k.linkLeft n (.hostRequest Code.slotLinkReset)).port.inbound = k.port.inbound := by
    rw [Hub.linkLeft_of_forwarding _ hks]
    exact ((k.enterRecovering_handsOn n (.hostRequest Code.slotLinkReset)).trans (Hub.windowReset_handsOn _ n)).inbound
  obtain ⟨hwindow, -⟩ := k.linkLeft_isReset n (.hostRequest Code.slotLinkReset)
  refine ⟨_, exec_slotLinkReset_locked ht (by rw [hs]; rfl) hl (by rw [hk]), ?_⟩
  dsimp only
  generalize k.linkLeft n (.hostRequest Code.slotLinkReset) = g at *
  have hheld' := hheld.of_link hlink
  obtain ⟨hdisabled, -⟩ := id hheld'
  have hslot : g.slots[n] = { s.hub.slots[n].entering .recovering s.hub.stamp with
    limit := some (s.hub.dueIn s.hub.tables.recoveryWindow) } := hrecovers.slot
  unfold Hub.answerLink
  rw [hslot, hdisabled]
  exact ⟨hheld', hrecovers.others.of_popRequest.answer _ _, hwindow, hslot, hrecovers.linkLost,
    Hub.answer_replied _ r _ _ (hqueue.trans hinbound)⟩

theorem exec_slotLinkReset_fenced (ht : s.hub.TakesFor Code.slotLinkReset r rest n) (hs : s.hub.slots[n].state = .fenced)
    (hl : s.hub.links[n].state = .locked) (hlatch : s.hub.slots[n].latchClosed = true) :
    ∃ t, exec .slotLinkReset s = .next t ∧ t.hub.slots[n] = s.hub.slots[n].inFaulted s.hub.stamp .linkLost (s.hub.dueIn 2000) ∧
      t.hub.ShutOff n ∧ t.hub.links[n].hold = some { due := s.hub.clock.elapsed + nsPerMs, thenTrain := false } ∧
      Hub.OthersStand s.hub t.hub n ∧ (s.hub.AlarmRoom → t.hub.isActive (.slot n .slotFault) = true) ∧
      t.hub.port.Replied r rest .ok (.slotLink .faulted .disabled) := by
  obtain ⟨hc, hstate, -⟩ := (s.hub.popRequest rest).resetLink_link n
  obtain ⟨-, -, hhold⟩ := (s.hub.popRequest rest).resetLink_held n
  have hrun := (s.hub.popRequest rest).resetLink_alarms n
  have hinbound := ((s.hub.popRequest rest).resetLink_queues n).inbound
  generalize hk : (s.hub.popRequest rest).resetLink n = k at *
  have hks : k.slots[n].state = .fenced := hc.slots ▸ hs
  have hfaults := Hub.linkLeft_faults (.hostRequest Code.slotLinkReset) hc hrun hs hlatch
  obtain ⟨hdisabled, -, hdisarmed⟩ := (Hub.linkLeft_link (.hostRequest Code.slotLinkReset) (by rw [hstate]; decide)).2 hks
  have hqueue : (k.linkLeft n (.hostRequest Code.slotLinkReset)).port.inbound = k.port.inbound := by
    rw [Hub.linkLeft_of_fenced _ hks]
    exact (Hub.windowReset_handsOn _ n).inbound.trans (k.enterFaulted_queues n .linkLost _).inbound
  refine ⟨_, exec_slotLinkReset_locked ht (by rw [hs]; rfl) hl (by rw [hk]), ?_⟩
  dsimp only
  generalize k.linkLeft n (.hostRequest Code.slotLinkReset) = g at *
  have hslot : g.slots[n] = s.hub.slots[n].inFaulted s.hub.stamp .linkLost (s.hub.dueIn 2000) := hfaults.slot
  have hheld : g.links[n].hold = some { due := s.hub.clock.elapsed + nsPerMs, thenTrain := false } := by rw [hdisarmed, hhold]; rfl
  unfold Hub.answerLink
  rw [hslot, hdisabled]
  exact ⟨hslot, hfaults.shutOff.answer _ _, hheld, hfaults.others.of_popRequest.answer _ _, hfaults.slotFault,
    Hub.answer_replied _ r _ _ (hqueue.trans hinbound)⟩

theorem exec_slotLinkReset_bringUp (ht : s.hub.TakesFor Code.slotLinkReset r rest n)
    (hs : s.hub.slots[n].state = .linking ∨ s.hub.slots[n].state = .identifying ∨ s.hub.slots[n].state = .awaitingAdmit)
    (hl : s.hub.links[n].state = .locked) :
    ∃ t, exec .slotLinkReset s = .next t ∧ Hub.Held s.hub t.hub n ∧ t.hub.slots = s.hub.slots ∧ t.hub.trecs[n].window = [] := by
  have htakes : s.hub.slots[n].state.takesLinkReset = true := by obtain hst | hst | hst := hs <;> rw [hst] <;> rfl
  have hf : s.hub.slots[n].state ≠ .forwarding := by obtain hst | hst | hst := hs <;> rw [hst] <;> decide
  have hn : s.hub.slots[n].state ≠ .fenced := by obtain hst | hst | hst := hs <;> rw [hst] <;> decide
  obtain ⟨hc, hstate, -⟩ := (s.hub.popRequest rest).resetLink_link n
  have hheld := (s.hub.popRequest rest).resetLink_held n
  generalize hk : (s.hub.popRequest rest).resetLink n = k at *
  have hlink := (Hub.linkLeft_link (k := k) (n := n) (.hostRequest Code.slotLinkReset) (by rw [hstate]; decide)).1 (hc.slots ▸ hn)
  have hslots := (Hub.linkLeft_handsOn (.hostRequest Code.slotLinkReset) hc hf hn).slots.trans hc.slots
  obtain ⟨hwindow, -⟩ := k.linkLeft_isReset n (.hostRequest Code.slotLinkReset)
  refine ⟨_, exec_slotLinkReset_locked ht htakes hl (by rw [hk]), ?_⟩
  dsimp only
  generalize k.linkLeft n (.hostRequest Code.slotLinkReset) = g at *
  have hheld' : Hub.Held s.hub g n := hheld.of_link hlink
  exact ⟨hheld'.answerLink, hslots, hwindow⟩

theorem exec_linkResetHoldEnd (s : State) (n : Slot) : exec (.linkResetHoldEnd n) s = s.onHub (·.holdEnd n) := rfl

/-- HELLO_INVALID and LINK_ALIGNMENT_LOST take the count of a TRAINING link to 0. -/
theorem exec_of_training (hl : s.hub.links[n].state = .training) :
    exec (.helloInvalid n) s = .next { s with hub := s.hub.modLink n fun l => { l with helloCount := 0 } } ∧
      exec (.linkAlignmentLost n) s = .next { s with hub := s.hub.modLink n fun l => { l with helloCount := 0 } } := by
  rw [exec_helloInvalid, exec_linkAlignmentLost]
  refine ⟨State.onHub_to ?_, State.onHub_to ?_⟩
  · unfold Hub.helloInvalid
    simp only [hl]
  · unfold Hub.alignmentLost
    simp only [hl]

/-- None of the three does anything on a DISABLED link. -/
theorem exec_of_disabled (hl : s.hub.links[n].state = .disabled) :
    exec (.helloValid n) s = .next s ∧ exec (.helloInvalid n) s = .next s ∧ exec (.linkAlignmentLost n) s = .next s := by
  rw [exec_helloValid, exec_helloInvalid, exec_linkAlignmentLost]
  refine ⟨State.onHub_same ?_, State.onHub_same ?_, State.onHub_same ?_⟩
  · unfold Hub.helloValid
    simp only [hl]
  · unfold Hub.helloInvalid
    simp only [hl]
  · unfold Hub.alignmentLost
    simp only [hl]

end

/-- Settles O39: hellos by the link's state; a link reset holds the link, and its report changes the slot by its state. -/
theorem slotLinks : Obligations.SlotLinks := by
  refine ⟨fun s n => ⟨fun hl hcount => ?_, exec_of_training, exec_of_disabled, fun hold hhold => ?_⟩, fun s n r rest ht =>
    ⟨exec_slotLinkReset_unlocked ht, exec_slotLinkReset_forwarding ht, exec_slotLinkReset_fenced ht, exec_slotLinkReset_bringUp ht,
      fun hs => ?_⟩⟩
  · rw [exec_helloValid]
    refine State.onHub_to ((Hub.helloValid_of_first hl hcount).trans ?_)
    unfold Hub.modLink
    dsimp only
    rw [hcount]
  · rw [exec_linkResetHoldEnd]
    refine State.onHub_to ?_
    unfold Hub.holdEnd
    simp only [hhold]
    rfl
  · rw [exec_slotLinkReset_of_takes ht]
    exact congrArg (fun g => Host.Outcome.next { s with hub := g }) (Hub.slotLinkReset_of_not (h := s.hub.popRequest rest) r hs)

end Sys2Proof.Machine
end

section
/-! PROOFS. The bring-up of a powered slot (sections 3.3 and 4.5). -/

namespace Sys2Proof.Machine

/-! ## The identify position -/

/-- The store once the frame of an identify position has left it (R43). -/
def Hub.identifyLeft (h : Hub) (n : Slot) : Store :=
  match h.ports[n].identify with
  | none => h.store
  | some id => h.store.deref id

/-- The counters of a port once its identify position has been cleared: one entry purged, and aborted where it was in flight (R43, R48). -/
def Hub.identifyCleared (h : Hub) (n : Slot) : PortCounters :=
  if h.ports[n].identify = none then h.ports[n].counters
  else { h.ports[n].counters with
    purged := h.ports[n].counters.purged + 1
    aborted := if h.links[n].tx.any (·.place == .identify) then h.ports[n].counters.aborted + 1 else h.ports[n].counters.aborted }

/-- A hub whose identify position has been cleared: nothing else but the link's transmission and the port has changed. -/
structure Hub.IdentifyGone (h g : Hub) (n : Slot) : Prop where
  store : g.store = h.identifyLeft n
  position : g.ports[n].identify = none
  counters : g.ports[n].counters = h.identifyCleared n
  link : g.links[n] = { h.links[n] with tx := g.links[n].tx }
  slots : g.slots = h.slots
  tables : g.tables = h.tables
  alarms : g.alarms = h.alarms
  clock : g.clock = h.clock
  config : g.config = h.config
  waitList : g.manager.waitList = h.manager.waitList
  inbox : g.agent.inbox = h.agent.inbox

theorem Hub.IdentifyGone.of_none {h : Hub} {n : Slot} (hid : h.ports[n].identify = none) : Hub.IdentifyGone h h n where
  store := by unfold Hub.identifyLeft; rw [hid]
  position := hid
  counters := by unfold Hub.identifyCleared; rw [if_pos hid]
  link := rfl
  slots := rfl
  tables := rfl
  alarms := rfl
  clock := rfl
  config := rfl
  waitList := rfl
  inbox := rfl

/-- The transmission of an identify position is aborted with it, and no other. -/
def Hub.abortIdentify (h : Hub) (n : Slot) : Hub := if h.links[n].tx.any (·.place == .identify) then h.abort n else h

theorem Hub.abortIdentify_counters (h : Hub) (n : Slot) : (h.abortIdentify n).ports[n].counters = { h.ports[n].counters with
    aborted := if h.links[n].tx.any (·.place == .identify) then h.ports[n].counters.aborted + 1 else h.ports[n].counters.aborted } := by
  unfold Hub.abortIdentify
  split
  · next hany =>
    have hsome : h.links[n].tx.isSome = true := by
      obtain ⟨x, hx, -⟩ := (Option.any_eq_true _ _).mp hany
      rw [hx]; rfl
    rw [Hub.abort_counters, if_pos hsome]
  · rfl

theorem Hub.abortIdentify_frame (h : Hub) (n : Slot) :
    h.abortIdentify n = { h with links := (h.abortIdentify n).links, ports := (h.abortIdentify n).ports } := by
  unfold Hub.abortIdentify Hub.abort
  split
  · split <;> rfl
  · rfl

theorem Hub.abortIdentify_link (h : Hub) (n : Slot) :
    (h.abortIdentify n).links[n] = { h.links[n] with tx := (h.abortIdentify n).links[n].tx } := by
  unfold Hub.abortIdentify Hub.abort
  split
  · split
    · simp
    · rfl
  · rfl

theorem Hub.clearIdentify_gone (h : Hub) (n : Slot) : Hub.IdentifyGone h (h.clearIdentify n) n := by
  unfold Hub.clearIdentify
  split
  · next hid => exact .of_none hid
  · next id hid =>
    have hframe := h.abortIdentify_frame n
    have hcounters := h.abortIdentify_counters n
    have hlink := h.abortIdentify_link n
    rw [show (if h.links[n].tx.any (·.place == .identify) then h.abort n else h) = h.abortIdentify n from rfl]
    simp only
    generalize h.abortIdentify n = k at *
    have hne : h.ports[n].identify ≠ none := by rw [hid]; exact Option.some_ne_none id
    refine { store := ?_, position := ?_, counters := ?_, link := hlink, slots := ?_, tables := ?_, alarms := ?_, clock := ?_, config := ?_,
             waitList := ?_, inbox := ?_ }
    · unfold Hub.identifyLeft
      rw [hid, hframe]; rfl
    · rw [Hub.modPort_self]
    · unfold Hub.identifyCleared
      rw [if_neg hne, Hub.modPort_self]
      simp only [hcounters]
    all_goals rw [hframe]; rfl

/-! ## A placement that is refused -/

/-- What a raise leaves alone while no reserve block is free: all that it would send is refused. -/
def Hub.FullKept (h g : Hub) : Prop :=
  g.store = h.store ∧ g.ports = h.ports ∧ g.slots = h.slots ∧ g.links = h.links ∧ g.tables = h.tables

theorem Hub.FullKept.steps {h : Hub} (hfull : h.store.freeReserve = 0) : AlarmSteps (fun _ => True) (fun _ => True) (Hub.FullKept h) where
  judgeOutputs _ hg := hg
  notice _ _ _ hg := hg
  changePermit g cause n hg := by
    unfold Hub.changePermit
    simp only
    split <;> exact hg
  fence _ _ hg := hg
  refusal _ hg := hg
  placed g _ _ _ _ _ _ hroom hg := by
    obtain ⟨hstore, -⟩ := hg
    exact absurd (hstore ▸ hfull) hroom
  renewed _ _ _ _ hg := hg
  created _ _ _ _ _ _ _ hg := hg
  lapsed _ _ _ hg := hg
  overload := trivial
  tableFull := trivial

/-! ## The IDENTIFY of an attempt -/

/-- What becomes of the IDENTIFY of an attempt (R43, R70): it stands in the identify position, or AGENT_OVERLOAD is raised for it; no record
changes, and of the link only what it sends. -/
structure Hub.Identifies (h t : Hub) (n : Slot) (frame : Frame) : Prop where
  placed : (h.identifyLeft n).freeReserve ≠ 0 →
    t.store = (h.identifyLeft n).put frame true 1 ∧ t.ports[n].identify = some (h.identifyLeft n).nextId
  refused : (h.identifyLeft n).freeReserve = 0 →
    t.store = h.identifyLeft n ∧ t.ports[n].identify = none ∧ (h.AlarmRoom → t.isActive (.hub .agentOverload) = true)
  counters : t.ports[n].counters = h.identifyCleared n
  slots : t.slots = h.slots
  tables : t.tables = h.tables
  link : t.links[n] = { h.links[n] with tx := t.links[n].tx }

theorem Hub.schedule_link (h : Hub) (n : Slot) : (h.schedule n).links[n] = { h.links[n] with tx := (h.schedule n).links[n].tx } := by
  rcases h.schedule_cases n with he | ⟨t, -, -, he⟩
  · rw [he]
  · rw [he, Hub.modLink_self]

theorem Hub.schedule_tables (h : Hub) (n : Slot) : (h.schedule n).tables = h.tables := (Hub.Quiet.schedule h n).tables

section

variable {h k : Hub} {n : Slot} {frame : Frame}

/-- The two cases of a frame placed in the identify position of an IDENTIFYING slot. -/
theorem Hub.place_identify_eq (hs : h.slots[n].state = .identifying) (frame : Frame) : (h.place n .identify frame).1 =
    if (h.clearIdentify n).store.freeReserve = 0 then
      Hub.raise { h.clearIdentify n with agent := { (h.clearIdentify n).agent with
        reserveRefusals := (h.clearIdentify n).agent.reserveRefusals + 1 } } (.hub .agentOverload)
    else (Hub.modPort { h.clearIdentify n with store := (h.clearIdentify n).store.put frame true 1 } n
      (·.enter .identify (h.clearIdentify n).store.nextId)).schedule n := by
  have htakes : h.slots[n].state.takesAgent .identify = true := by rw [hs]; rfl
  unfold Hub.place Hub.placeWith
  simp only [htakes, Bool.not_true, Bool.false_eq_true, if_false, if_true, apply_ite Prod.fst]
  rfl

/-- The refused frame: its alarm is raised where no reserve block is free. -/
theorem Hub.IdentifyGone.refused (hgone : Hub.IdentifyGone h k n) (hfull : k.store.freeReserve = 0) :
    Hub.Identifies h (Hub.raise { k with agent := { k.agent with reserveRefusals := k.agent.reserveRefusals + 1 } } (.hub .agentOverload))
      n frame := by
  obtain ⟨hkept, hports, hslots, hlinks, htables⟩ := (Hub.FullKept.steps (h := { k with agent := { k.agent with
    reserveRefusals := k.agent.reserveRefusals + 1 } }) hfull).raise ⟨rfl, rfl, rfl, rfl, rfl⟩ (.hub .agentOverload) trivial
  refine ⟨fun hroom => absurd (hgone.store ▸ hfull) hroom, fun _ => ⟨hkept.trans hgone.store, ?_, fun hroom => ?_⟩, ?_,
    hslots.trans hgone.slots, htables.trans hgone.tables, ?_⟩
  · rw [hports]; exact hgone.position
  · refine Hub.raise_isActive (.inl ?_)
    obtain ⟨-, hlen⟩ := hroom
    rw [show _ = h.alarms from hgone.alarms]
    exact hlen.trans (by decide)
  · rw [hports]; exact hgone.counters
  · rw [hlinks]; exact hgone.link

/-- The placed frame. -/
theorem Hub.IdentifyGone.placed (hgone : Hub.IdentifyGone h k n) (hroom : k.store.freeReserve ≠ 0) :
    Hub.Identifies h ((Hub.modPort { k with store := k.store.put frame true 1 } n (·.enter .identify k.store.nextId)).schedule n) n frame := by
  refine ⟨fun _ => ?_, fun hfull => absurd (hgone.store ▸ hfull) hroom, ?_, ?_, ?_, ?_⟩
  · rw [Hub.schedule_store, Hub.schedule_ports, Hub.modPort_self, ← hgone.store]
    exact ⟨rfl, rfl⟩
  · rw [Hub.schedule_ports, Hub.modPort_self]
    exact hgone.counters
  · rw [Hub.schedule_slots]
    exact hgone.slots
  · rw [Hub.schedule_tables]
    exact hgone.tables
  · rw [Hub.schedule_link, Hub.modPort_links]
    dsimp only
    rw [hgone.link]

theorem Hub.place_identify (hs : h.slots[n].state = .identifying) (frame : Frame) :
    Hub.Identifies h (h.place n .identify frame).1 n frame := by
  rw [Hub.place_identify_eq hs]
  have hgone := h.clearIdentify_gone n
  generalize h.clearIdentify n = k at *
  split
  · next hfull => exact hgone.refused hfull
  · next hroom => exact hgone.placed hroom

end

/-! ## The steps of the bring-up -/

theorem exec_pwrGoodAsserted (s : State) (n : Slot) : exec (.pwrGoodAsserted n) s = s.onHub (·.pwrGoodAsserted n) := rfl

theorem exec_resetHoldEnd (s : State) (n : Slot) :
    exec (.resetHoldEnd n) s = s.onHub fun h => h.expire n .resetHold (·.enterLinking n) := rfl

theorem exec_identifyAttemptTimeout (s : State) (n : Slot) :
    exec (.identifyAttemptTimeout n) s = s.onHub fun h => h.expire n .identifying (·.identifyTimeout n) := rfl

section

variable {h : Hub} {n : Slot}

theorem Hub.pwrGoodAsserted_of_powering (hs : h.slots[n].state = .powering) : h.pwrGoodAsserted n = { h with
    slots := h.slots.set n { h.slots[n].entering .resetHold h.stamp with pwrGood := true, limit := some (h.clock.elapsed + 10 * nsPerMs) }
    port := h.port.notice Code.slotChanged (.slotChanged n .powering .resetHold .powerGood none h.stamp) } := by
  unfold Hub.pwrGoodAsserted
  simp only [Hub.modSlot_self, hs, if_true]
  unfold Hub.enterResetHold Hub.slotNotice Hub.notice Hub.enter Hub.modSlot
  simp [SlotRec.entering, Hub.dueIn, Hub.stamp]

theorem Hub.pwrGoodAsserted_of_not (hs : h.slots[n].state ≠ .powering) :
    h.pwrGoodAsserted n = { h with slots := h.slots.set n { h.slots[n] with pwrGood := true } } := by
  unfold Hub.pwrGoodAsserted
  simp only [Hub.modSlot_self, hs, if_false]
  rfl

theorem Hub.enterLinking_of_disabled (hl : h.links[n].state = .disabled) (hhold : h.links[n].hold = none) : h.enterLinking n = { h with
    slots := h.slots.set n { h.slots[n].entering .linking h.stamp with cardRst := false, limit := some (h.clock.elapsed + 1000 * nsPerMs) }
    links := h.links.set n { h.links[n] with state := .training, helloCount := 0 }
    port := h.port.notice Code.slotChanged (.slotChanged n .resetHold .linking .resetDone none h.stamp) } := by
  unfold Hub.enterLinking Hub.enableLink Hub.slotNotice Hub.notice Hub.enter Hub.modSlot Hub.modLink
  rw [Fin.getElem_fin] at hl hhold
  simp [SlotRec.entering, Hub.dueIn, Hub.stamp, hl, hhold]

/-- The record of a slot at its next identify attempt (R70). -/
def SlotRec.attempting (r : SlotRec) (due : Nat) : SlotRec := { r with attempt := r.attempt + 1, limit := some due }

theorem Hub.identifyAttempt_identifies (hs : h.slots[n].state = .identifying) : Hub.Identifies (h.modSlot n (·.attempting (h.dueIn 100)))
    (h.identifyAttempt n) n (identifyFrame n (h.slots[n].attempt + 1) (h.slots[n].powerClass.getD .d)) := by
  have hplaced := Hub.place_identify (h := h.modSlot n (·.attempting (h.dueIn 100))) (n := n) (by rw [Hub.modSlot_self]; exact hs)
    (identifyFrame n (h.slots[n].attempt + 1) (h.slots[n].powerClass.getD .d))
  unfold Hub.identifyAttempt
  simp only [Hub.modSlot_self]
  exact hplaced

theorem Hub.Identifies.slotNotice {g : Hub} {frame : Frame} (hi : Hub.Identifies h g n frame) (m : Slot) (old new : SlotState)
    (reason : SlotReason) : Hub.Identifies h (g.slotNotice m old new reason) n frame :=
  ⟨hi.placed, hi.refused, hi.counters, hi.slots, hi.tables, hi.link⟩

theorem Hub.Identifies.of_modSlot {g : Hub} {f : SlotRec → SlotRec} {frame : Frame} (hi : Hub.Identifies (h.modSlot n f) g n frame) :
    g.slots = h.slots.set n (f h.slots[n]) ∧ g.tables = h.tables ∧ g.links[n] = { h.links[n] with tx := g.links[n].tx } ∧
      ((h.identifyLeft n).freeReserve ≠ 0 →
        g.store = (h.identifyLeft n).put frame true 1 ∧ g.ports[n].identify = some (h.identifyLeft n).nextId) ∧
      ((h.identifyLeft n).freeReserve = 0 →
        g.store = h.identifyLeft n ∧ g.ports[n].identify = none ∧ (h.AlarmRoom → g.isActive (.hub .agentOverload) = true)) ∧
      g.ports[n].counters = h.identifyCleared n :=
  ⟨hi.slots, hi.tables, hi.link, hi.placed, hi.refused, hi.counters⟩

/-- The entry to IDENTIFYING makes the first attempt. -/
theorem Hub.enterIdentifying_identifies (h : Hub) (n : Slot) :
    Hub.Identifies (h.modSlot n fun r => { r.entering .identifying h.stamp with attempt := 1, limit := some (h.dueIn 100) })
      (h.enterIdentifying n) n (identifyFrame n 1 (h.slots[n].powerClass.getD .d)) := by
  have hattempt := Hub.identifyAttempt_identifies (h := h.enter n .identifying id) (n := n) (by unfold Hub.enter; rw [Hub.modSlot_self]; rfl)
  have hrec : (h.enter n .identifying id).slots[n] = h.slots[n].entering .identifying h.stamp := by
    unfold Hub.enter; rw [Hub.modSlot_self]; rfl
  have hbase : (h.enter n .identifying id).modSlot n (·.attempting ((h.enter n .identifying id).dueIn 100)) =
      h.modSlot n fun r => { r.entering .identifying h.stamp with attempt := 1, limit := some (h.dueIn 100) } := by
    unfold Hub.enter Hub.modSlot
    simp [SlotRec.entering, SlotRec.attempting, Hub.dueIn]
  rw [hbase, hrec] at hattempt
  exact hattempt.slotNotice n _ _ _

/-- A link as the second hello in a row leaves it (R3). -/
def Link.lock (l : Link) : Link := { l with state := .locked, helloCount := 0 }

theorem Hub.identifyCleared_lock (h : Hub) (n : Slot) : (h.modLink n Link.lock).identifyCleared n = h.identifyCleared n := by
  unfold Hub.identifyCleared
  rw [Hub.modLink_self]
  rfl

/-- The scheduler's choice, once the link is LOCKED with nothing in flight (R45). -/
theorem Hub.schedule_chooses (hl : h.links[n].state = .locked) (htx : h.links[n].tx = none) :
    (h.schedule n).links[n].tx.map (fun x => (x.place, x.id)) = h.choose n := by
  have hready : (h.links[n].state == .locked && h.links[n].tx.isNone) = true := by rw [hl, htx]; rfl
  unfold Hub.schedule
  simp only [hready, if_true]
  split
  · next hc => rw [hc, htx]; rfl
  · next hc => rw [hc, Hub.modLink_self]; rfl

theorem Hub.schedule_others (h : Hub) (n : Slot) : h.schedule n = { h with links := (h.schedule n).links } ∧
    ∀ m : Slot, m ≠ n → (h.schedule n).links[m] = h.links[m] := by
  rcases h.schedule_cases n with he | ⟨t, -, -, he⟩
  · rw [he]; exact ⟨rfl, fun _ _ => rfl⟩
  · rw [he]; exact ⟨rfl, fun m hm => Hub.modLink_other _ _ _ _ hm.symm⟩

/-- In a state that the lock does not change, the report is left to the scheduler. -/
theorem Hub.linkLocked_schedules (hlinking : h.slots[n].state ≠ .linking) (hrecovering : h.slots[n].state ≠ .recovering)
    (hauto : ¬ (h.slots[n].state = .awaitingAdmit ∧ h.slots[n].autoAdmit = true)) : h.linkLocked n = h.schedule n := by
  unfold Hub.linkLocked
  simp only
  split
  · next hs => exact absurd hs hlinking
  · next hs => exact absurd hs hrecovering
  · next hs =>
    rw [if_neg fun ha => hauto ⟨hs, ha⟩]
    unfold Hub.schedule Hub.choose
    simp only [hs, ite_self]
  · rfl

end

section

variable {s : State} {n : Slot}

theorem exec_helloValid_identifies (hs : s.hub.slots[n].state = .linking) (hlink : s.hub.links[n].state = .training)
    (hcount : s.hub.links[n].helloCount = 1) : ∃ t, exec (.helloValid n) s = .next t ∧
      Hub.Identifies ((s.hub.modLink n Link.lock).modSlot n fun r =>
        { r.entering .identifying s.hub.stamp with attempt := 1, limit := some (s.hub.dueIn 100) })
        t.hub n (identifyFrame n 1 (s.hub.slots[n].powerClass.getD .d)) := by
  have hlocked : s.hub.helloValid n = (s.hub.modLink n Link.lock).enterIdentifying n := by
    refine (Hub.helloValid_of_second hlink hcount).trans ?_
    unfold Hub.linkLocked
    simp only [Hub.modLink_slots, hs]
    rfl
  exact ⟨_, (exec_helloValid s n).trans (State.onHub_to hlocked), (s.hub.modLink n Link.lock).enterIdentifying_identifies n⟩

theorem exec_helloValid_schedules (hlinking : s.hub.slots[n].state ≠ .linking) (hrecovering : s.hub.slots[n].state ≠ .recovering)
    (hauto : ¬ (s.hub.slots[n].state = .awaitingAdmit ∧ s.hub.slots[n].autoAdmit = true)) (hlink : s.hub.links[n].state = .training)
    (hcount : s.hub.links[n].helloCount = 1) :
    exec (.helloValid n) s = .next { s with hub := (s.hub.modLink n Link.lock).schedule n } :=
  (exec_helloValid s n).trans (State.onHub_to ((Hub.helloValid_of_second hlink hcount).trans
    (Hub.linkLocked_schedules (h := s.hub.modLink n Link.lock) hlinking hrecovering hauto)))

theorem exec_identifyAttemptTimeout_attempts (hs : s.hub.slots[n].state = .identifying) (hlimit : s.hub.slots[n].limit.isSome = true)
    (hattempt : s.hub.slots[n].attempt < 3) : ∃ t, exec (.identifyAttemptTimeout n) s = .next t ∧
      Hub.Identifies (s.hub.modSlot n (·.attempting (s.hub.dueIn 100))) t.hub n
        (identifyFrame n (s.hub.slots[n].attempt + 1) (s.hub.slots[n].powerClass.getD .d)) := by
  have hnext : s.hub.expire n .identifying (·.identifyTimeout n) = s.hub.identifyAttempt n :=
    (Hub.expire_of_running hs hlimit).trans (if_pos hattempt)
  exact ⟨_, (exec_identifyAttemptTimeout s n).trans (State.onHub_to hnext), Hub.identifyAttempt_identifies hs⟩

end

/-- Settles O30: each step of the bring-up is one entry; an attempt clears the identify position and places its frame there, or is refused. -/
theorem bringUp : Obligations.BringUp := by
  refine ⟨fun s n => ⟨fun hs => ?_, fun hs => ?_, fun hs hlimit hl hhold => ?_⟩, fun s n =>
    ⟨fun hs hl hcount => ?_, fun h1 h2 h3 hl hcount => ?_, fun hs hlimit hattempt => ?_⟩⟩
  · exact (exec_pwrGoodAsserted s n).trans (State.onHub_to (Hub.pwrGoodAsserted_of_powering hs))
  · exact (exec_pwrGoodAsserted s n).trans (State.onHub_to (Hub.pwrGoodAsserted_of_not hs))
  · exact (exec_resetHoldEnd s n).trans (State.onHub_to ((Hub.expire_of_running hs hlimit).trans (Hub.enterLinking_of_disabled hl hhold)))
  · obtain ⟨t, ht, hi⟩ := exec_helloValid_identifies hs hl hcount
    obtain ⟨hslots, htables, hlink, hplaced, hrefused, hcounters⟩ := hi.of_modSlot
    rw [Hub.modLink_self] at hlink
    rw [Hub.identifyCleared_lock] at hcounters
    exact ⟨t, ht, hslots, by rw [hlink]; rfl, by rw [hlink]; rfl, htables, hplaced, hrefused, hcounters⟩
  · obtain ⟨heq, hothers⟩ := (s.hub.modLink n Link.lock).schedule_others n
    have hlink := (s.hub.modLink n Link.lock).schedule_link n
    rw [Hub.modLink_self] at hlink
    have hchoose := fun htx => Hub.schedule_chooses (h := s.hub.modLink n Link.lock) (n := n) (by rw [Hub.modLink_self]; rfl) htx
    rw [Hub.modLink_self] at hchoose
    refine ⟨_, exec_helloValid_schedules h1 h2 h3 hl hcount, rfl, heq, ?_, ?_, fun m hm => ?_, hchoose⟩
    · exact congrArg Link.state hlink
    · exact congrArg Link.helloCount hlink
    · exact (hothers m hm).trans (Hub.modLink_other _ _ _ _ hm.symm)
  · obtain ⟨t, ht, hi⟩ := exec_identifyAttemptTimeout_attempts hs hlimit hattempt
    obtain ⟨hslots, htables, -, hplaced, hrefused, hcounters⟩ := hi.of_modSlot
    exact ⟨t, ht, hslots, htables, hplaced, hrefused, hcounters⟩

/-! ## The identity -/

theorem Hub.Move.tables {strict : Bool} {h g : Hub} (m : Hub.Move strict h g) : g.tables = h.tables := by
  cases m with
  | join n hn hs => rw [Hub.join_frame]
  | _ => rfl

/-- No elementary move touches a setting. -/
theorem Hub.MovesWith.tables {strict : Bool} {h g : Hub} (m : Hub.MovesWith strict h g) : g.tables = h.tables := by
  induction m with
  | refl => rfl
  | tail _ m ih => exact m.tables.trans ih

theorem Hub.formOk_identityReply {h : Hub} {f : Frame} {i : Identity} (hk : f.kind = Kind.identityReply) (hc : f.cls = .control)
    (hp : parseIdentity f.payload = some i) : h.formOk f = true := by
  unfold Hub.formOk
  rw [if_pos hk, hc, hp]
  rfl

theorem Hub.accepts_identityReply {h : Hub} {f : Frame} {n : Slot} (hk : f.kind = Kind.identityReply) (hs : h.slots[n].state = .identifying) :
    h.accepts f n = true := by
  unfold Hub.accepts
  simp only [hk, hs]
  rfl

/-- A record with the identity that its card gave. -/
def SlotRec.named (i : Identity) (r : SlotRec) : SlotRec := { r with identity := some i }

theorem exec_identityReply_of_taken {s : State} {e : InboxFrame} {rest : List InboxFrame} {i : Identity} (he : s.hub.agent.inbox = e :: rest)
    (hk : e.frame.kind = Kind.identityReply) (hc : e.frame.cls = .control) (hp : parseIdentity e.frame.payload = some i)
    (hs : s.hub.slots[e.slot].state = .identifying) :
    exec .identityReply s = .next { s with hub := (s.hub.popInbox rest).identified e.slot i } := by
  refine State.onHub_to ((Hub.dispatch_accepted _ he hk (Hub.formOk_identityReply hk hc hp) (Hub.accepts_identityReply hk hs)).trans ?_)
  simp only [hp]

section

variable {h : Hub} {n : Slot} {i : Identity}

/-- The three ways of a valid reply (R71). -/
theorem Hub.identified_eq (h : Hub) (n : Slot) (i : Identity) : h.identified n i =
    if i.declared.higher (h.slots[n].powerClass.getD .d) then (h.modSlot n (·.named i)).enterFaulted n .powerMismatch .identified
    else if h.tables.plan[n].kind.any (· != i.kind) then (h.modSlot n (·.named i)).enterAwaiting n false true
    else (h.modSlot n (·.named i)).enterAwaiting n h.tables.plan[n].autoAdmit false := by
  unfold Hub.identified
  simp only [Hub.modSlot_self]
  rfl

/-- A hub whose slot has entered AWAITING_ADMIT. -/
def Hub.awaiting (h : Hub) (n : Slot) (autoAdmit mismatch : Bool) : Hub :=
  (((h.clearIdentify n).enter n .awaitingAdmit fun r => { r with autoAdmit }).raiseIf mismatch (.slot n .cardMismatch)).slotNotice n
    .identifying .awaitingAdmit .identified

theorem Hub.enterAwaiting_eq (h : Hub) (n : Slot) (autoAdmit mismatch : Bool) : h.enterAwaiting n autoAdmit mismatch =
    if autoAdmit && (h.awaiting n autoAdmit mismatch).links[n].state == .locked then
      (h.awaiting n autoAdmit mismatch).enterForwarding n .autoAdmitted
    else h.awaiting n autoAdmit mismatch := rfl

theorem Hub.awaiting_handsOn (h : Hub) (n : Slot) (autoAdmit mismatch : Bool) :
    Hub.HandsOn ((h.clearIdentify n).enter n .awaitingAdmit fun r => { r with autoAdmit }) (h.awaiting n autoAdmit mismatch) :=
  (Hub.raiseIf_handsOn _ _ _).trans (Hub.slotNotice_handsOn _ _ _ _ _)

theorem Hub.awaiting_spec (h : Hub) (n : Slot) (autoAdmit mismatch : Bool) :
    (h.awaiting n autoAdmit mismatch).slots[n] = { h.slots[n].entering .awaitingAdmit h.stamp with autoAdmit } ∧
      Hub.OthersKept h (h.awaiting n autoAdmit mismatch) n ∧ (h.awaiting n autoAdmit mismatch).links[n].state = h.links[n].state ∧
      (h.awaiting n autoAdmit mismatch).agent.inbox = h.agent.inbox := by
  have hgone := h.clearIdentify_gone n
  have hhands := h.awaiting_handsOn n autoAdmit mismatch
  obtain ⟨hslot, hothers⟩ := hhands.enteredKept hgone.slots hgone.clock hgone.tables hgone.config hgone.waitList
  refine ⟨hslot, hothers, ?_, hhands.inbox.trans hgone.inbox⟩
  rw [hhands.links n]
  change (h.clearIdentify n).links[n].state = h.links[n].state
  rw [hgone.link]

/-- A card of another kind is told of by CARD_MISMATCH. -/
theorem Hub.awaiting_mismatch (h : Hub) (n : Slot) (autoAdmit : Bool) (hroom : h.AlarmRoom) :
    (h.awaiting n autoAdmit true).isActive (.slot n .cardMismatch) = true := by
  refine Hub.raise_isActive (.inl ?_)
  obtain ⟨-, hlen⟩ := hroom
  change (h.clearIdentify n).alarms.recs.length < 63
  rw [(h.clearIdentify_gone n).alarms]
  exact hlen.trans (by decide)

/-- What an identified card's slot comes to that waits for the host, or enters FORWARDING at once. -/
theorem Hub.enterAwaiting_spec (h : Hub) (n : Slot) (autoAdmit mismatch : Bool) :
    Hub.OthersKept h (h.enterAwaiting n autoAdmit mismatch) n ∧ (h.enterAwaiting n autoAdmit mismatch).agent.inbox = h.agent.inbox ∧
      (h.enterAwaiting n autoAdmit mismatch).slots[n] = if autoAdmit && h.links[n].state == .locked then
        { ({ h.slots[n].entering .awaitingAdmit h.stamp with autoAdmit } : SlotRec).entering .forwarding h.stamp with fault := none }
        else { h.slots[n].entering .awaitingAdmit h.stamp with autoAdmit } := by
  obtain ⟨hslot, hothers, hlink, hinbox⟩ := h.awaiting_spec n autoAdmit mismatch
  rw [Hub.enterAwaiting_eq, hlink]
  generalize h.awaiting n autoAdmit mismatch = k at *
  split
  · obtain ⟨hfwd, hfwdOthers⟩ := k.enterForwarding_slot n .autoAdmitted
    have hfwdInbox := (k.enterForwarding_handsOn n .autoAdmitted).inbox
    obtain ⟨hs, ht, hc, hf, hw⟩ := hothers
    obtain ⟨hs', ht', hc', hf', hw'⟩ := hfwdOthers
    have hstamp : k.stamp = h.stamp := by unfold Hub.stamp; rw [hc]
    refine ⟨⟨fun m hm => (hs' m hm).trans (hs m hm), ht'.trans ht, hc'.trans hc, hf'.trans hf, hw'.trans hw⟩, hfwdInbox.trans hinbox, ?_⟩
    rw [hfwd, hslot, hstamp]
  · exact ⟨hothers, hinbox, hslot⟩

theorem Hub.awaiting_of_mismatch {h : Hub} {n : Slot} (hroom : h.AlarmRoom) :
    (h.enterAwaiting n false true).isActive (.slot n .cardMismatch) = true := h.awaiting_mismatch n false hroom

/-- A card that declares too high a class (R71). -/
theorem Hub.identified_tooHigh (hhigh : i.declared.higher (h.slots[n].powerClass.getD .d) = true) :
    Hub.FaultedAs h (h.identified n i) n (h.slots[n].named i) .powerMismatch ∧ (h.identified n i).tables = h.tables ∧
      (h.identified n i).agent.inbox = h.agent.inbox := by
  have hspec := (h.modSlot n (·.named i)).enterFaulted_faultedAs n .powerMismatch .identified
  rw [Hub.modSlot_self] at hspec
  have htables := ((h.modSlot n (·.named i)).enterFaulted_moves (strict := true) n .powerMismatch .identified).tables
  have hinbox := ((h.modSlot n (·.named i)).enterFaulted_queues n .powerMismatch .identified).inbox
  rw [Hub.identified_eq, if_pos hhigh]
  exact ⟨hspec.of_modSlot, htables, hinbox⟩

/-- What the plan makes of any other (R71, R72). -/
theorem Hub.identified_inPlan (hhigh : i.declared.higher (h.slots[n].powerClass.getD .d) = false) {auto mismatch : Bool}
    (hmismatch : h.tables.plan[n].kind.any (· != i.kind) = mismatch) (hauto : auto = (!mismatch && h.tables.plan[n].autoAdmit)) :
    h.identified n i = (h.modSlot n (·.named i)).enterAwaiting n auto mismatch := by
  rw [Hub.identified_eq, if_neg (by rw [hhigh]; decide), hmismatch, hauto]
  cases mismatch <;> rfl

end

theorem exec_identityReply_inPlan {s : State} {e : InboxFrame} {rest : List InboxFrame} {i : Identity} {auto mismatch : Bool}
    (he : s.hub.agent.inbox = e :: rest) (hk : e.frame.kind = Kind.identityReply) (hc : e.frame.cls = .control)
    (hp : parseIdentity e.frame.payload = some i) (hs : s.hub.slots[e.slot].state = .identifying)
    (hhigh : i.declared.higher (s.hub.slots[e.slot].powerClass.getD .d) = false)
    (hmismatch : s.hub.tables.plan[e.slot].kind.any (· != i.kind) = mismatch)
    (hauto : auto = (!mismatch && s.hub.tables.plan[e.slot].autoAdmit)) :
    ∃ g, exec .identityReply s = .next { s with hub := g } ∧ g.agent.inbox = rest ∧ Hub.OthersKept s.hub g e.slot ∧
      (mismatch = true → s.hub.AlarmRoom → g.isActive (.slot e.slot .cardMismatch) = true) ∧
      g.slots[e.slot] = if auto && s.hub.links[e.slot].state == .locked then
        { ({ (s.hub.slots[e.slot].named i).entering .awaitingAdmit s.hub.stamp with autoAdmit := auto } : SlotRec).entering .forwarding
          s.hub.stamp with fault := none }
        else { (s.hub.slots[e.slot].named i).entering .awaitingAdmit s.hub.stamp with autoAdmit := auto } := by
  have hspec := ((s.hub.popInbox rest).modSlot e.slot (·.named i)).enterAwaiting_spec e.slot auto mismatch
  rw [Hub.modSlot_self] at hspec
  have hactive : mismatch = true → s.hub.AlarmRoom → (((s.hub.popInbox rest).modSlot e.slot (·.named i)).enterAwaiting e.slot auto
      mismatch).isActive (.slot e.slot .cardMismatch) = true := by
    rintro rfl hroom
    rw [hauto]
    exact Hub.awaiting_of_mismatch (hroom.of_eq rfl)
  have hidentified := Hub.identified_inPlan (h := s.hub.popInbox rest) hhigh hmismatch hauto
  obtain ⟨hothers, hinbox, hslot⟩ := hspec
  exact ⟨_, (exec_identityReply_of_taken he hk hc hp hs).trans (by rw [hidentified]), hinbox, hothers.of_modSlot.of_popInbox, hactive, hslot⟩

/-- Settles O31: the identity is recorded, and the slot enters FAULTED, AWAITING_ADMIT or FORWARDING by what is judged of it. -/
theorem identityReply : Obligations.IdentityReply := by
  intro s e rest i h n r plan tooHigh waits he hk hc hp hs
  cases hhigh : tooHigh with
  | true =>
    obtain ⟨⟨hclosed, hopen⟩, htables, hinbox⟩ := Hub.identified_tooHigh (h := h.popInbox rest) (n := n) (i := i) hhigh
    refine ⟨_, exec_identityReply_of_taken he hk hc hp hs, rfl, hinbox, htables, fun _ hlatch => ?_, fun _ hlatch => (hopen hlatch).1,
      nofun, nofun⟩
    obtain ⟨hslot, hshut, hothers, -⟩ := hclosed hlatch
    exact ⟨hslot, hshut, hothers.of_popInbox⟩
  | false =>
    cases hmismatch : plan.kind.any (· != i.kind) with
    | true =>
      obtain ⟨g, hg, hinbox, hothers, hactive, hslot⟩ := exec_identityReply_inPlan he hk hc hp hs hhigh hmismatch rfl
      exact ⟨_, hg, rfl, hinbox, hothers.2.1, nofun, nofun,
        fun _ _ => ⟨hslot, hothers, hactive rfl⟩, fun _ => nofun⟩
    | false =>
      obtain ⟨g, hg, hinbox, hothers, -, hslot⟩ := exec_identityReply_inPlan he hk hc hp hs hhigh hmismatch rfl
      refine ⟨_, hg, rfl, hinbox, hothers.2.1, nofun, nofun, fun _ => nofun,
        fun _ _ => ⟨hothers, hslot.trans ?_⟩⟩
      cases hauto : plan.autoAdmit with
      | true => rfl
      | false => rfl

end Sys2Proof.Machine
end

section
/-! PROOFS. The end of a load, and the start-up event (sections 4.3 and 11.2). -/

namespace Sys2Proof.Machine

/-! ## A message that waits for the host -/

theorem HostPort.mem_outbound_notice {p : HostPort} {m : Message} (code : Byte) (body : Body) (hm : m ∈ p.outbound) :
    m ∈ (p.notice code body).outbound := by
  unfold HostPort.notice
  split
  · exact hm
  · exact List.mem_append_left _ hm

/-- What follows a change of the alarm table takes no message from the queue. -/
theorem AlarmSteps.sent (m : Message) : AlarmSteps (fun _ => True) (fun _ => True) fun h => m ∈ h.port.outbound where
  judgeOutputs _ hh := hh
  notice _ code body hh := HostPort.mem_outbound_notice code body hh
  changePermit h cause n hh := by
    unfold Hub.changePermit
    simp only
    split
    · exact hh
    · exact HostPort.mem_outbound_notice _ _ hh
  fence _ _ hh := hh
  refusal _ hh := hh
  placed _ _ _ _ _ _ _ _ hh := by rw [(Hub.schedule_others _ _).1]; exact hh
  renewed _ _ _ _ hh := hh
  created _ _ _ _ _ _ _ hh := hh
  lapsed _ _ _ hh := hh
  overload := trivial
  tableFull := trivial

theorem HostPort.notice_sent {p : HostPort} (code : Byte) (body : Body) (hroom : p.notices < 24) :
    ∃ m ∈ (p.notice code body).outbound, m.body = body := by
  unfold HostPort.notice
  rw [if_neg (by omega)]
  exact ⟨_, List.mem_append_right _ (List.mem_singleton.mpr rfl), rfl⟩

/-! ## LOAD_COMPLETE -/

theorem exec_loadComplete (s : State) (acknowledged : Bool) : exec (.loadComplete acknowledged) s =
    s.onHub fun h => if h.config.loading then h.loadDone (loadOutcome h.config.strap acknowledged s.eeprom) else h := rfl

/-- The timer of an input that differs, as every debounce begins with it (R59). -/
def Hub.startTimer (h : Hub) (differs : Bool) : Option Debounce := if differs then some { due := h.dueIn 50, startUp := true } else none

/-- A record with its debounce begun (R59). -/
def Hub.debouncing (h : Hub) (r : SlotRec) : SlotRec :=
  { r with presenceTimer := h.startTimer (r.rawPresent != r.presence), latchTimer := h.startTimer (r.rawLatch != r.latchClosed) }

/-- What the start of management leaves (R184). -/
structure Hub.Started (h g : Hub) : Prop where
  config : g.config = h.config
  clock : g.clock = h.clock
  tables : g.tables = h.tables
  timing : g.timing = h.timing
  startUpDue : g.manager.startUpDue = some (h.dueIn 50)
  slots : ∀ n : Slot, g.slots[n] = h.debouncing h.slots[n]
  told : h.port.notices < 24 → ∃ m ∈ g.port.outbound,
    m.body = .started h.config.status h.config.fault h.config.version h.config.strap h.config.lastReset
  alarm : h.config.status = .defaultsAfterFailure → h.AlarmRoom → g.isActive (.hub .configImageInvalid) = true

/-- The debounce begun on a hub that has told of its start. -/
theorem Hub.beginDebounce_started {h k : Hub} (hq : Hub.Quiet h k)
    (htold : h.port.notices < 24 → ∃ m ∈ k.port.outbound,
      m.body = .started h.config.status h.config.fault h.config.version h.config.strap h.config.lastReset)
    (halarm : h.config.status = .defaultsAfterFailure → h.AlarmRoom → k.isActive (.hub .configImageInvalid) = true) :
    Hub.Started h k.beginDebounce where
  config := hq.config
  clock := hq.clock
  tables := hq.tables
  timing := hq.timing
  startUpDue := by
    unfold Hub.beginDebounce Hub.dueIn
    rw [hq.clock]
  slots n := by
    unfold Hub.beginDebounce Hub.dueIn
    rw [hq.clock, hq.slots]
    exact mapEach_get _ _ _ _
  told := htold
  alarm := halarm

theorem Hub.started_started (h : Hub) : Hub.Started h h.started := by
  unfold Hub.started
  have hnotice := Hub.Quiet.notice h Code.started
    (.started h.config.status h.config.fault h.config.version h.config.strap h.config.lastReset)
  have hsent := fun hroom => HostPort.notice_sent (p := h.port) Code.started
    (.started h.config.status h.config.fault h.config.version h.config.strap h.config.lastReset) hroom
  simp only
  split
  · refine Hub.beginDebounce_started (hnotice.trans (Hub.raise_quiet _ _)) (fun hroom => ?_) fun _ hroom => Hub.raise_isActive (.inl ?_)
    · obtain ⟨m, hm, hbody⟩ := hsent hroom
      exact ⟨m, (AlarmSteps.sent m).raise (h := h.notice Code.started _) hm _ trivial, hbody⟩
    · obtain ⟨-, hlen⟩ := hroom
      exact hlen.trans (by decide)
  · next hstatus => exact Hub.beginDebounce_started hnotice hsent fun he => absurd he hstatus

/-- The hub with the settings and the image status that a load found (R184). -/
def Hub.afterLoad (h : Hub) (outcome : Option (LoadFault ⊕ Settings)) : Hub :=
  let g := match outcome with
    | some (.inr settings) => h.applySettings settings
    | _ => h
  { g with config := h.config.afterLoad outcome }

theorem Hub.loadDone_eq (h : Hub) (outcome : Option (LoadFault ⊕ Settings)) : h.loadDone outcome = (h.afterLoad outcome).started := by
  obtain _ | ⟨_ | _⟩ := outcome <;> rfl

theorem exec_loadComplete_of_loading {s : State} (acknowledged : Bool) (hl : s.hub.config.loading = true) :
    exec (.loadComplete acknowledged) s =
      .next { s with hub := (s.hub.afterLoad (loadOutcome s.hub.config.strap acknowledged s.eeprom)).started } :=
  (exec_loadComplete s acknowledged).trans (State.onHub_to ((if_pos hl).trans (Hub.loadDone_eq _ _)))

theorem loadOutcome_of_high (acknowledged : Bool) (m : List Host.Cell) :
    loadOutcome true acknowledged m = some (if acknowledged then judgeImage m else .inl .noAck) := by
  cases acknowledged <;> rfl

/-- The settings and the image status are all that a load changes until management starts. -/
theorem Hub.afterLoad_same (h : Hub) (outcome : Option (LoadFault ⊕ Settings)) :
    (h.afterLoad outcome).config = h.config.afterLoad outcome ∧ (h.afterLoad outcome).clock = h.clock ∧
      (h.afterLoad outcome).slots = h.slots ∧ (h.afterLoad outcome).port = h.port ∧ (h.afterLoad outcome).alarms = h.alarms := by
  obtain _ | ⟨_ | _⟩ := outcome <;> exact ⟨rfl, rfl, rfl, rfl, rfl⟩

theorem ConfigStore.afterLoad_kept (c : ConfigStore) (outcome : Option (LoadFault ⊕ Settings)) :
    (c.afterLoad outcome).loading = false ∧ (c.afterLoad outcome).save = c.save ∧ (c.afterLoad outcome).strap = c.strap ∧
      (c.afterLoad outcome).lastReset = c.lastReset := by
  obtain _ | ⟨_ | _⟩ := outcome <;> exact ⟨rfl, rfl, rfl, rfl⟩

/-- Settles O21: the load's outcome sets the settings and the status; the start of management follows whatever it is. -/
theorem loadComplete : Obligations.LoadComplete := by
  intro s acknowledged h found
  refine ⟨fun hl => ?_, fun hl => ⟨_, exec_loadComplete_of_loading acknowledged hl, rfl, rfl, ?_⟩⟩
  · exact (exec_loadComplete s acknowledged).trans (State.onHub_same (if_neg (by rw [hl]; decide)))
  · dsimp only
    generalize houtcome : loadOutcome s.hub.config.strap acknowledged s.eeprom = outcome
    obtain ⟨gconfig, gclock, gtables, gtiming, gdue, gslots, gtold, galarm⟩ := Hub.started_started (h.afterLoad outcome)
    obtain ⟨hloading, hsave, hstrap, hreset⟩ := h.config.afterLoad_kept outcome
    obtain ⟨hconfig, hclock, hslots, hport, halarms⟩ := h.afterLoad_same outcome
    unfold Hub.debouncing Hub.startTimer at gslots
    unfold Hub.dueIn at gdue gslots
    rw [hclock] at gclock gdue
    rw [hclock, hslots] at gslots
    rw [hport, hconfig, hstrap, hreset] at gtold
    rw [hconfig] at galarm
    have ghigh : h.config.strap = true → outcome = some found := fun hs => by
      rw [← houtcome, show s.hub.config.strap = true from hs, loadOutcome_of_high]
    rw [hconfig] at gconfig
    generalize hg : (h.afterLoad outcome).started = g at *
    rw [gconfig]
    refine ⟨hloading, hsave, gclock, gdue, gslots, gtold, fun hs => ?_, fun hs f hf => ?_, fun hs v hv => ?_⟩
    · have hnone : outcome = none := by rw [← houtcome, show s.hub.config.strap = false from hs]; rfl
      subst hnone
      exact ⟨rfl, rfl, gtables⟩
    · have hfault : outcome = some (.inl f) := by rw [ghigh hs, hf]
      subst hfault
      exact ⟨rfl, rfl, gtables, fun hroom => galarm rfl (hroom.of_eq halarms)⟩
    · have hvalid : outcome = some (.inr v) := by rw [ghigh hs, hv]
      subst hvalid
      exact ⟨rfl, rfl, rfl, gtables, congrArg Timing.cands gtiming⟩

/-! ## START_UP_EVENT -/

theorem exec_startUpEvent (s : State) :
    exec .startUpEvent s = s.onHub fun h => if h.manager.startUpDue.isSome then h.startUp else h := rfl

/-- A slot found PRESENT reads its power class and is seated (R59, R65). -/
def Hub.seatFound (h : Hub) (n : Slot) : Hub := (h.modSlot n fun r => { r with powerClass := some (classOfPins r.pcode) }).seat n false

/-- A record seated with the class that its pins code (R65, R66). -/
def SlotRec.foundAs (r : SlotRec) (t : Stamp) : SlotRec := ({ r with powerClass := some (classOfPins r.pcode) } : SlotRec).inSeated t

/-- Whether a slot that is seated joins the wait list (R66). -/
def Hub.joinsList (h : Hub) (n : Slot) : Bool := h.tables.plan[n].expected && h.slots[n].latchClosed

/-- What the seating of the slots of a list, one by one, has left. -/
structure Hub.SeatedAll (h g : Hub) (l : List Slot) : Prop where
  frame : g = { h with slots := g.slots, manager := { h.manager with waitList := g.manager.waitList } }
  waitList : g.manager.waitList = h.manager.waitList ++ l.filter h.joinsList
  slots : ∀ n : Slot, g.slots[n] =
    if n ∈ l then
      if h.joinsList n then (h.slots[n].foundAs h.stamp).waiting h.clock.now h.clock.elapsed else h.slots[n].foundAs h.stamp
    else h.slots[n]

/-- A hub with one slot seated, before it joins the list. -/
def Hub.placedIn (h : Hub) (n : Slot) : Hub := h.modSlot n (·.foundAs h.stamp)

theorem Hub.seatFound_eq (h : Hub) (n : Slot) :
    h.seatFound n = if h.joinsList n then (h.placedIn n).join n else h.placedIn n := by
  have hplaced : (h.modSlot n fun r => { r with powerClass := some (classOfPins r.pcode) }).enter n .seated
      (fun r => { r.unpower false with identity := none }) = h.placedIn n := by
    unfold Hub.placedIn Hub.enter Hub.modSlot
    simp [SlotRec.foundAs, SlotRec.inSeated, SlotRec.entering, SlotRec.unpower, Hub.stamp]
  have hlatch : (h.placedIn n).slots[n].latchClosed = h.slots[n].latchClosed := by
    unfold Hub.placedIn
    rw [Hub.modSlot_self]
    rfl
  unfold Hub.seatFound Hub.seat
  simp only [hplaced, hlatch, Bool.false_or]
  rfl

theorem Hub.seatFound_seated {h : Hub} {n : Slot} (hn : n ∉ h.manager.waitList) : Hub.SeatedAll h (h.seatFound n) [n] := by
  have hself : (h.placedIn n).slots[n] = h.slots[n].foundAs h.stamp := by unfold Hub.placedIn; rw [Hub.modSlot_self]
  have hother : ∀ m : Slot, m ≠ n → (h.placedIn n).slots[m] = h.slots[m] := fun m hm => by
    unfold Hub.placedIn; rw [Hub.modSlot_other _ _ _ _ hm.symm]
  rw [Hub.seatFound_eq]
  cases hj : h.joinsList n with
  | true =>
    rw [if_pos rfl]
    obtain ⟨hjoined, hrest, hlist⟩ := (h.placedIn n).join_slot n hn
    refine ⟨(h.placedIn n).join_frame n, ?_, fun m => ?_⟩
    · rw [List.filter_cons_of_pos hj]
      exact hlist
    · by_cases hm : m = n
      · subst hm
        rw [if_pos (List.mem_singleton.mpr rfl), hj]
        exact hjoined.trans (by rw [hself]; rfl)
      · rw [if_neg (by simpa using hm)]
        exact (hrest m hm).trans (hother m hm)
  | false =>
    rw [if_neg (by decide)]
    refine ⟨rfl, ?_, fun m => ?_⟩
    · rw [List.filter_cons_of_neg (by rw [hj]; decide)]
      exact (List.append_nil _).symm
    · by_cases hm : m = n
      · subst hm
        rw [if_pos (List.mem_singleton.mpr rfl), hj]
        exact hself
      · rw [if_neg (by simpa using hm)]
        exact hother m hm

theorem Hub.SeatedAll.nil (h : Hub) : Hub.SeatedAll h h [] := ⟨rfl, (List.append_nil _).symm, fun _ => (if_neg List.not_mem_nil).symm⟩

/-- The seatings of two lists without a slot in common follow on each other. -/
theorem Hub.SeatedAll.trans {h g k : Hub} {l l' : List Slot} (a : Hub.SeatedAll h g l) (b : Hub.SeatedAll g k l')
    (hd : ∀ n ∈ l', n ∉ l) : Hub.SeatedAll h k (l ++ l') := by
  have hstamp : g.stamp = h.stamp := by unfold Hub.stamp; rw [a.frame]
  have hclock : g.clock = h.clock := by rw [a.frame]
  have hkept : ∀ n ∈ l', g.slots[n] = h.slots[n] := fun n hn => (a.slots n).trans (if_neg (hd n hn))
  have hjoins : ∀ n ∈ l', g.joinsList n = h.joinsList n := fun n hn => by
    unfold Hub.joinsList
    rw [hkept n hn, a.frame]
  refine ⟨?_, ?_, fun n => ?_⟩
  · rw [b.frame, a.frame]
  · rw [b.waitList, a.waitList, List.filter_append, List.append_assoc, List.filter_congr hjoins]
  · rw [b.slots n]
    by_cases hn : n ∈ l'
    · rw [if_pos hn, if_pos (List.mem_append_right _ hn), hjoins n hn, hkept n hn, hstamp, hclock]
    · rw [if_neg hn, a.slots n]
      simp only [List.mem_append, hn, or_false]

/-- The seating of a list, one by one. -/
theorem Hub.seatFound_all (l : List Slot) (h : Hub) (hnodup : l.Nodup) (hout : ∀ n ∈ l, n ∉ h.manager.waitList) :
    Hub.SeatedAll h (l.foldl Hub.seatFound h) l := by
  induction l generalizing h with
  | nil => exact .nil h
  | cons n l ih =>
    obtain ⟨hn, hnodup⟩ := List.nodup_cons.mp hnodup
    have hfirst := Hub.seatFound_seated (hout n List.mem_cons_self)
    refine hfirst.trans (ih (h.seatFound n) hnodup fun m hm => ?_) fun m hm => ?_
    · rw [hfirst.waitList, List.mem_append, not_or]
      refine ⟨hout m (List.mem_cons_of_mem _ hm), fun hin => hn ?_⟩
      have he : m = n := List.mem_singleton.mp (List.mem_of_mem_filter hin)
      exact he ▸ hm
    · rw [List.mem_singleton]
      exact fun he => hn (he ▸ hm)

/-- The slots found PRESENT at the first expiry (R59). -/
def Hub.found (h : Hub) (n : Slot) : Bool := h.slots[n].presenceTimer.any (·.startUp) && h.slots[n].rawPresent

/-- A hub whose inputs that differed at the load have been taken (R59). -/
def Hub.firstTaken (h : Hub) : Hub :=
  { h with slots := mapEach SlotRec.startUp h.slots, manager := { h.manager with startUpDue := none, startUpAt := some h.clock.now } }

/-- A hub whose found slots have been seated. -/
def Hub.foundSeated (h : Hub) : Hub := (allSlots.filter h.found).foldl Hub.seatFound h.firstTaken

/-- The notices of the slots found follow the service of the wait list. -/
theorem Hub.startUp_handsOn (h : Hub) : Hub.HandsOn h.foundSeated.serve.1 h.startUp := by
  unfold Hub.startUp
  refine Hub.HandsOn.trans ?_ (Hub.announceGrants_handsOn _ _)
  exact foldl_keeps (P := Hub.HandsOn h.foundSeated.serve.1) (fun _ _ hg => hg.trans (.notice _ _ _)) _ (.refl _)

theorem Hub.foundSeated_all {h : Hub} (hw : h.manager.waitList = []) :
    Hub.SeatedAll h.firstTaken h.foundSeated (allSlots.filter h.found) :=
  Hub.seatFound_all _ _ (allSlots_nodup.filter _) fun n _ hn => by
    rw [show h.firstTaken.manager.waitList = [] from hw] at hn
    cases hn

/-- The slots that join the list, in ascending number. -/
theorem Hub.foundSeated_waitList {h : Hub} (hw : h.manager.waitList = []) : h.foundSeated.manager.waitList =
    allSlots.filter fun n => h.found n && h.tables.plan[n].expected && h.slots[n].startUp.latchClosed := by
  rw [(Hub.foundSeated_all hw).waitList, show h.firstTaken.manager.waitList = [] from hw, List.nil_append, List.filter_filter]
  refine List.filter_congr fun n _ => ?_
  rw [Bool.and_assoc, Bool.and_comm]
  unfold Hub.joinsList Hub.firstTaken
  simp

/-- The record of a slot found PRESENT, seated. -/
def Hub.foundRec (h : Hub) (n : Slot) : SlotRec :=
  ({ h.slots[n].startUp with powerClass := some (classOfPins h.slots[n].pcode) } : SlotRec).inSeated h.stamp

/-- Whether a slot found PRESENT joins the list. -/
def Hub.foundJoins (h : Hub) (n : Slot) : Bool := h.found n && h.tables.plan[n].expected && h.slots[n].startUp.latchClosed

theorem Hub.foundSeated_slot {h : Hub} (hw : h.manager.waitList = []) (n : Slot) : h.foundSeated.slots[n] =
    if h.foundJoins n then (h.foundRec n).waiting h.clock.now h.clock.elapsed
    else if h.found n then h.foundRec n else h.slots[n].startUp := by
  have hslot : h.firstTaken.slots[n] = h.slots[n].startUp := mapEach_get _ _ _ _
  have hrec : (h.slots[n].startUp.foundAs h.stamp) = h.foundRec n := rfl
  have hmem : n ∈ allSlots.filter h.found ↔ h.found n = true := by simp [mem_allSlots]
  have hjoins : h.foundJoins n = (h.found n && h.firstTaken.joinsList n) := by
    unfold Hub.foundJoins Hub.joinsList
    rw [hslot, Bool.and_assoc]
    rfl
  rw [(Hub.foundSeated_all hw).slots n, hslot, show h.firstTaken.stamp = h.stamp from rfl, hrec]
  cases hf : h.found n with
  | true =>
    rw [if_pos (hmem.mpr hf), hjoins, hf, Bool.true_and]
    rfl
  | false =>
    rw [if_neg (fun hin => absurd (hmem.mp hin) (by rw [hf]; decide)), hjoins, hf]
    rfl

/-- What START_UP_EVENT leaves of a slot (R59): those that joined the list wait in it or have been given power. -/
theorem Hub.startUp_slot {h : Hub} (hw : h.manager.waitList = []) (n : Slot) :
    (h.found n = false → h.startUp.slots[n] = h.slots[n].startUp) ∧
      (h.found n = true → h.foundJoins n = false → h.startUp.slots[n] = h.foundRec n) ∧
      (h.foundJoins n = true →
        if n ∈ h.startUp.manager.waitList then h.startUp.slots[n] = (h.foundRec n).waiting h.clock.now h.clock.elapsed
        else h.startUp.slots[n] = h.powered ((h.foundRec n).waiting h.clock.now h.clock.elapsed)) := by
  have hands := h.startUp_handsOn
  have hseated := Hub.foundSeated_slot hw n
  have hin : n ∈ h.foundSeated.manager.waitList ↔ h.foundJoins n = true := by
    rw [Hub.foundSeated_waitList hw, List.mem_filter]
    exact and_iff_right (mem_allSlots n)
  have hpowered : ∀ r, h.foundSeated.powered r = h.powered r := fun r => by
    have hclock : h.foundSeated.clock = h.clock := by rw [(Hub.foundSeated_all hw).frame]; rfl
    unfold Hub.powered Hub.stamp Hub.dueIn
    rw [hclock]
  rw [hands.waitList, hands.slots]
  have hkeeps : h.foundJoins n = false → h.foundSeated.serve.1.slots[n] = h.foundSeated.slots[n] := fun hnot =>
    Hub.serve_other _ _ fun hn => absurd (hin.mp hn) (by rw [hnot]; decide)
  refine ⟨fun hf => ?_, fun hf hnot => ?_, fun hj => ?_⟩
  · have hnot : h.foundJoins n = false := by unfold Hub.foundJoins; rw [hf]; rfl
    rw [hkeeps hnot, hseated, hnot, hf]
    rfl
  · rw [hkeeps hnot, hseated, hnot, hf]
    rfl
  · rw [hj] at hseated
    obtain ⟨hiff, hsame⟩ | ⟨-, hout, hgranted⟩ := h.foundSeated.serve_place n
    · rw [if_pos (hiff.mpr (hin.mpr hj)), hsame, hseated]
      rfl
    · rw [if_neg hout, hgranted, hpowered, hseated]
      rfl

/-- Settles O22: each slot found is seated, those of the plan join the list, and its service takes them from its head. -/
theorem startUpEvent : Obligations.StartUpEvent := by
  intro s h found seated joins hdue hw
  have hstart : (if s.hub.manager.startUpDue.isSome then s.hub.startUp else s.hub) = s.hub.startUp := if_pos hdue
  have hands := h.startUp_handsOn
  have hall := (Hub.foundSeated_all hw).frame
  have hlist : h.foundSeated.manager.waitList = allSlots.filter joins := Hub.foundSeated_waitList hw
  have hnodup : h.foundSeated.manager.waitList.Nodup := hlist ▸ allSlots_nodup.filter _
  obtain ⟨k, hdrop, -⟩ := Hub.serveAt_prefix h.foundSeated.manager.waitList.length h.foundSeated hnodup
  have hframe := h.foundSeated.serve_frame
  refine ⟨_, (exec_startUpEvent s).trans (State.onHub_to hstart), ?_⟩
  refine ⟨?_, ?_, ?_, ?_, hands.listServed h.foundSeated.serve_listServed, ⟨k, ?_⟩, Hub.startUp_slot hw⟩
  · exact hands.startUpDue.trans (by rw [hframe, hall]; rfl)
  · exact hands.startUpAt.trans (by rw [hframe, hall]; rfl)
  · exact hands.clock.trans (by rw [hframe, hall]; rfl)
  · exact hands.tables.trans (by rw [hframe, hall]; rfl)
  · exact hands.waitList.trans (hdrop.trans (by rw [hlist]))

end Sys2Proof.Machine
end

section
/-! PROOFS. The configuration image is read back as it was encoded (section 12.4): record by record, then section by section. -/

namespace Sys2Proof.Machine

/-! ## Fields -/

theorem fieldAt_be_only (k v : Nat) : fieldAt (be k v) 0 k = v % 256 ^ k := by
  have hfield := fieldAt_be_zero [] k v
  rwa [List.append_nil] at hfield

/-- A field that lies in the first of two parts. -/
theorem fieldAt_append_left (xs ys : List Byte) (off k : Nat) (hk : off + k ≤ xs.length) : fieldAt (xs ++ ys) off k = fieldAt xs off k := by
  unfold fieldAt
  rw [List.drop_append_of_le_length (by omega), List.take_append_of_le_length (by rw [List.length_drop]; omega)]

theorem codeIn_le {α : Type} [DecidableEq α] (l : List α) (a : α) (ha : a ∈ l) : codeIn l a ≤ l.length := by
  unfold codeIn
  exact List.idxOf_lt_length_of_mem ha

/-- The code of a value in a short list fits a byte. -/
theorem codeIn_byte {α : Type} [DecidableEq α] (l : List α) (a : α) (ha : a ∈ l) (hl : l.length < 256) : codeIn l a % 256 = codeIn l a :=
  Nat.mod_eq_of_lt ((codeIn_le l a ha).trans_lt hl)

theorem boolCode_byte (b : Bool) : boolCode b % 256 = boolCode b := by cases b <;> rfl

theorem Slot.number_byte (n : Slot) : Slot.number n % 256 = Slot.number n := Nat.mod_eq_of_lt ((Slot.number_lt n).trans (by decide))

theorem encOpt_length {α : Type} {size : Nat} {enc : α → List Byte} (henc : ∀ a, (enc a).length = size) (o : Option α) :
    (encOpt size enc o).length = 1 + size := by
  cases o with
  | none => simp [encOpt]
  | some a => simp [encOpt, henc]

theorem be_zero (k : Nat) : be k 0 = List.replicate k 0 := by
  induction k with
  | zero => rfl
  | succ k ih => rw [be, ih, Nat.zero_div, List.replicate_succ]; rfl

theorem encOpt_none {α : Type} (size : Nat) (enc : α → List Byte) : encOpt size enc none = be 1 0 ++ be size 0 := by
  unfold encOpt
  rw [be_zero size]

theorem encOpt_some {α : Type} (size : Nat) (enc : α → List Byte) (a : α) : encOpt size enc (some a) = be 1 1 ++ enc a := rfl

/-! ## Records -/

theorem mem_cardKinds (k : CardKind) : k ∈ cardKinds := by cases k <;> decide

theorem encPlan_length (p : PlanEntry) : (encPlan p).length = 5 := by
  simp [encPlan, encOpt_length (size := 1) fun k => be_length 1 (codeIn cardKinds k)]

theorem parsePlan_encPlan {p : PlanEntry} (hp : p.retryLimit ≤ 3) : parsePlan (encPlan p) = some p := by
  have hlimit : p.retryLimit % 256 = p.retryLimit := Nat.mod_eq_of_lt (by omega)
  obtain ⟨expected, kind, auto, limit⟩ := p
  cases kind with
  | none =>
    simp [parsePlan, encPlan, encOpt_none, fieldAt_append, fieldAt_be_zero, fieldAt_be_only, boolCode_byte, boolOf_boolCode, optOf, hlimit]
  | some k =>
    simp [parsePlan, encPlan, encOpt_some, fieldAt_append, fieldAt_be_zero, fieldAt_be_only, boolCode_byte, boolOf_boolCode, optOf, hlimit,
      codeIn_byte cardKinds k (mem_cardKinds k) (by decide), ofCode_codeIn cardKinds k (mem_cardKinds k)]

theorem PlanEntry.clamp_of_legal {p : PlanEntry} (hp : p.retryLimit ≤ 3) : p.clamp = p := by
  unfold PlanEntry.clamp clampNat
  rw [Nat.max_eq_right (Nat.zero_le _), Nat.min_eq_right hp]

theorem encBudget_length (b : BudgetRec) : (encBudget b).length = 6 := by simp [encBudget]

theorem parseBudget_encBudget (b : BudgetRec) (hb : b.budget < 65536 ∧ b.recoveryWindow < 65536 ∧ b.drainTimeout < 65536) :
    parseBudget (encBudget b) = b := by
  obtain ⟨h1, h2, h3⟩ := hb
  simp [parseBudget, encBudget, fieldAt_append, fieldAt_be_zero, fieldAt_be_only, Nat.mod_eq_of_lt h1, Nat.mod_eq_of_lt h2, Nat.mod_eq_of_lt h3]

theorem BudgetRec.clamp_of_legal {b : BudgetRec} (h1 : 100 ≤ b.budget ∧ b.budget ≤ 2000) (h2 : 50 ≤ b.recoveryWindow ∧ b.recoveryWindow ≤ 2000)
    (h3 : 100 ≤ b.drainTimeout ∧ b.drainTimeout ≤ 5000) : b.clamp = b := by
  unfold BudgetRec.clamp clampNat
  rw [Nat.max_eq_right h1.1, Nat.min_eq_right h1.2, Nat.max_eq_right h2.1, Nat.min_eq_right h2.2, Nat.max_eq_right h3.1, Nat.min_eq_right h3.2]

theorem encTarget_length (t : Target) : (encTarget t).length = 2 := by cases t <;> simp [encTarget]

theorem groupOf_number (g : Fin 16) : groupOf (g.val + 1) = some g := by
  unfold groupOf
  rw [dif_pos (by omega)]
  rfl

theorem group_byte (g : Fin 16) : (g.val + 1) % 256 = g.val + 1 := Nat.mod_eq_of_lt (by omega)

/-- A target is read back from its kind and its number (R28). -/
theorem targetOf_encTarget (t : Target) (rest : List Byte) :
    targetOf (fieldAt (encTarget t ++ rest) 0 1) (fieldAt (encTarget t ++ rest) 1 1) = some t := by
  cases t with
  | slot n => simp [encTarget, fieldAt_append, fieldAt_be_zero, targetOf, Slot.number_byte]
  | group g => simp [encTarget, fieldAt_append, fieldAt_be_zero, targetOf, group_byte, groupOf_number]

theorem classFilterOf_code {c : ClassFilter} (hc : (c.control || c.bulk) = true) : classFilterOf (classFilterCode c % 256) = some c := by
  obtain ⟨control, bulk⟩ := c
  cases control <;> cases bulk <;> first | rfl | cases hc

theorem encPortLimit_length (p : PortLimit) : (encPortLimit p).length = 4 := by simp [encPortLimit]

theorem parsePortLimit_encPortLimit {p : PortLimit} (h1 : p.limit ≤ 1984) (h2 : p.threshold ≤ 1000) :
    parsePortLimit (encPortLimit p) = p := by
  simp [parsePortLimit, encPortLimit, fieldAt_append, fieldAt_be_zero, fieldAt_be_only,
    Nat.mod_eq_of_lt (show p.limit < 65536 by omega), Nat.mod_eq_of_lt (show p.threshold < 65536 by omega)]

theorem PortLimit.clamp_of_legal {p : PortLimit} (hp : 17 ≤ p.limit ∧ p.limit ≤ 1984 ∧ 1 ≤ p.threshold ∧ p.threshold ≤ 1000) : p.clamp = p := by
  obtain ⟨h1, h2, h3, h4⟩ := hp
  unfold PortLimit.clamp clampNat
  rw [Nat.max_eq_right h1, Nat.min_eq_right h2, Nat.max_eq_right h3, Nat.min_eq_right h4]

theorem encDefaultTarget_length (d : DefaultTarget) : (encDefaultTarget d).length = 2 := by
  obtain _ | ⟨_ | _⟩ := d <;> simp [encDefaultTarget]

theorem parseDefaultTarget_enc (d : DefaultTarget) : parseDefaultTarget (encDefaultTarget d) = some d := by
  obtain _ | ⟨n | g⟩ := d
  · simp [parseDefaultTarget, encDefaultTarget, fieldAt_be_zero]
  · simp [parseDefaultTarget, encDefaultTarget, fieldAt_append, fieldAt_be_zero, fieldAt_be_only, Slot.number_byte]
  · simp [parseDefaultTarget, encDefaultTarget, fieldAt_append, fieldAt_be_zero, fieldAt_be_only, group_byte, groupOf_number]

theorem mask_read (w : SlotMask) (rest : List Byte) : Mask.ofValue (fieldAt (Mask.encode w ++ rest) 0 2) = some w := by
  rw [fieldAt_append_left _ _ _ _ (by simp)]
  unfold fieldAt
  rw [List.drop_zero, List.take_of_length_le (by simp), Mask.ofValue_encode]

theorem mask_read_only (w : SlotMask) : Mask.ofValue (fieldAt (Mask.encode w) 0 2) = some w := by
  have hread := mask_read w []
  rwa [List.append_nil] at hread

theorem encRelay_length (r : Option Slot) : (encRelay r).length = 2 := by
  unfold encRelay
  rw [encOpt_length fun n => be_length 1 _]

theorem parseRelay_encRelay (r : Option Slot) : parseRelay (encRelay r) = some r := by
  cases r with
  | none => simp [parseRelay, encRelay, encOpt_none, fieldAt_be_zero, optOf]
  | some n => simp [parseRelay, encRelay, encOpt_some, fieldAt_append, fieldAt_be_zero, fieldAt_be_only, Slot.number_byte, optOf]

theorem mem_severities (s : Severity) : s ∈ severities := by cases s <;> decide

theorem mem_actions (a : Action) : a ∈ actions := by cases a <;> decide

theorem encKindEntry_length (e : KindEntry) : (encKindEntry e).length = 5 := by
  simp [encKindEntry, encOpt_length (size := 1) fun s => be_length 1 (codeIn severities s)]

theorem parseKindEntry_enc {k : AlarmKind} {e : KindEntry} (hk : e.action = .fenceSlot → k.slotSourced = true) :
    parseKindEntry k (encKindEntry e) = some e := by
  obtain ⟨severity, notify, action, relay⟩ := e
  have hallowed : (decide (action = .fenceSlot) && !k.slotSourced) = false := by
    by_cases ha : action = .fenceSlot
    · rw [hk ha, Bool.not_true, Bool.and_false]
    · rw [decide_eq_false ha, Bool.false_and]
  cases severity with
  | none =>
    simp [parseKindEntry, encKindEntry, encOpt_none, fieldAt_append, fieldAt_be_zero, fieldAt_be_only, boolCode_byte, boolOf_boolCode, optOf,
      codeIn_byte actions action (mem_actions action) (by decide), ofCode_codeIn actions action (mem_actions action)]
    simpa using hallowed
  | some s =>
    simp [parseKindEntry, encKindEntry, encOpt_some, fieldAt_append, fieldAt_be_zero, fieldAt_be_only, boolCode_byte, boolOf_boolCode, optOf,
      codeIn_byte actions action (mem_actions action) (by decide), ofCode_codeIn actions action (mem_actions action),
      codeIn_byte severities s (mem_severities s) (by decide), ofCode_codeIn severities s (mem_severities s)]
    simpa using hallowed

theorem encWindow_length (w : Window) : (encWindow w).length = 16 := by
  simp [encWindow, encTarget_length, encOpt_length (size := 4) fun r : BitVec 32 => be_length 4 r.toNat]

/-- The fields of a window entry. -/
theorem encWindow_fields {w : Window} (hw : w.Legal) :
    boolOf (fieldAt (encWindow w) 0 1) = some w.enabled ∧ fieldAt (encWindow w) 1 4 = w.base.toNat ∧ fieldAt (encWindow w) 5 1 = w.sizeExp ∧
      targetOf (fieldAt (encWindow w) 6 1) (fieldAt (encWindow w) 7 1) = some w.target ∧
      optOf (fieldAt (encWindow w) 8 1) (some (fieldAt (encWindow w) 9 4)) = some (w.remap.map (·.toNat)) ∧
      classFilterOf (fieldAt (encWindow w) 13 1) = some w.classes ∧ Mask.ofValue (fieldAt (encWindow w) 14 2) = some w.sources := by
  obtain ⟨-, hexp, -, -, hclasses⟩ := hw
  have hbase : w.base.toNat % 4294967296 = w.base.toNat := Nat.mod_eq_of_lt w.base.isLt
  have hsize : w.sizeExp % 256 = w.sizeExp := Nat.mod_eq_of_lt (by omega)
  have hremap : ∀ r : BitVec 32, r.toNat % 4294967296 = r.toNat := fun r => Nat.mod_eq_of_lt r.isLt
  have hcode := classFilterOf_code hclasses
  obtain ⟨enabled, base, exp, target, remap, classes, sources⟩ := w
  cases remap with
  | none =>
    simp [encWindow, encOpt_none, fieldAt_append, fieldAt_be_zero, encTarget_length, boolCode_byte, boolOf_boolCode, targetOf_encTarget,
      mask_read_only, optOf, hbase, hsize, hcode]
  | some r =>
    simp [encWindow, encOpt_some, fieldAt_append, fieldAt_be_zero, encTarget_length, boolCode_byte, boolOf_boolCode, targetOf_encTarget,
      mask_read_only, optOf, hbase, hsize, hcode, hremap]

theorem parseWindow_encWindow {w : Window} (hw : w.Legal) : parseWindow (encWindow w) = some w := by
  obtain ⟨henabled, hbase, hexp, htarget, hremap, hclasses, hsources⟩ := encWindow_fields hw
  obtain ⟨hlo, hhi, halign, hremapAlign, -⟩ := hw
  unfold Window.size at halign hremapAlign
  have hrange : (decide (w.sizeExp < 8) || decide (31 < w.sizeExp)) = false := by simp; omega
  have haligned : (w.remap.map (·.toNat)).any (fun r => r % 2 ^ w.sizeExp != 0) = false := by
    cases hr : w.remap with
    | none => rfl
    | some r => simpa using hremapAlign r hr
  unfold parseWindow
  rw [henabled, hbase, hexp, htarget, hremap, hclasses, hsources]
  simp only [Option.bind_eq_bind, Option.bind_some, hrange, halign, haligned, bne_self_eq_false, Bool.false_eq_true, if_false]
  simp [Option.map_map, Function.comp_def]

theorem encTimingParams_length (p : TimingParams) : (encTimingParams p).length = 19 := by simp [encTimingParams]

theorem parseTimingParams_enc {p : TimingParams} (hp : p.Legal) : parseTimingParams (encTimingParams p) = p := by
  obtain ⟨⟨-, hq⟩, ⟨-, hlimit⟩, ⟨-, hslew⟩, ⟨-, hwindow⟩, ⟨-, hunlock⟩, hcable, ⟨-, hinterval⟩, ⟨-, hstep⟩, ⟨-, hphase⟩⟩ := hp
  simp [parseTimingParams, encTimingParams, fieldAt_append, fieldAt_be_zero, fieldAt_be_only, Nat.mod_eq_of_lt (show p.q < 256 by omega),
    Nat.mod_eq_of_lt (show p.holdoverLimit < 4294967296 by omega), Nat.mod_eq_of_lt (show p.slewLimit < 65536 by omega),
    Nat.mod_eq_of_lt (show p.lockWindow < 65536 by omega), Nat.mod_eq_of_lt (show p.unlockThreshold < 65536 by omega),
    Nat.mod_eq_of_lt (show p.cableDelay < 65536 by omega), Nat.mod_eq_of_lt (show p.announceInterval < 256 by omega),
    Nat.mod_eq_of_lt (show p.slewStep < 256 by omega), Nat.mod_eq_of_lt (show p.phaseLimit < 4294967296 by omega)]

theorem clampNat_of_range {lo hi v : Nat} (hv : lo ≤ v ∧ v ≤ hi) : clampNat lo hi v = v := by
  unfold clampNat
  rw [Nat.max_eq_right hv.1, Nat.min_eq_right hv.2]

theorem TimingParams.clamp_of_legal {p : TimingParams} (hp : p.Legal) : p.clamp = p := by
  obtain ⟨hq, hlimit, hslew, hwindow, hunlock, hcable, hinterval, hstep, hphase⟩ := hp
  unfold TimingParams.clamp
  simp only [clampNat_of_range hq, clampNat_of_range hlimit, clampNat_of_range hslew, clampNat_of_range hwindow, clampNat_of_range hunlock,
    clampNat_of_range ⟨Nat.zero_le _, hcable⟩, clampNat_of_range hinterval, clampNat_of_range hstep, clampNat_of_range hphase]

theorem beInt_length (k : Nat) (v : Int) : (beInt k v).length = k := be_length _ _

/-- An asymmetry is read back from its two bytes in two's complement (R130). -/
theorem parseAsymmetry_beInt {a : Int} (ha : -4000 ≤ a ∧ a ≤ 4000) : parseAsymmetry (beInt 2 a) = some a := by
  have hfield : fieldAt (beInt 2 a) 0 2 = (a % 65536).toNat := by
    unfold beInt
    rw [fieldAt_be_only]
    norm_num
    omega
  have hsigned : toSigned 2 (fieldAt (beInt 2 a) 0 2) = a := by
    rw [hfield]
    unfold toSigned
    norm_num
    split <;> omega
  unfold parseAsymmetry
  simp only [hsigned]
  exact if_neg (by omega)

/-! ### Candidates -/

theorem sourceOf_code (s : Source) : sourceOf (sourceCode s % 256) = some s := by
  cases s with
  | ext => rfl
  | slot n =>
    unfold sourceCode sourceOf
    rw [Slot.number_byte, if_neg (by unfold Slot.number; omega), Slot.ofNumber_number]
    rfl

/-- The bytes of a list of sources are read back, whatever follows them, where each is listed once. -/
theorem parseSources_map (sources : List Source) (pre rest : List Byte) (off : Nat) (hoff : pre.length = off) (hnodup : sources.Nodup) :
    parseSources (pre ++ (sources.map (fun s => BitVec.ofNat 8 (sourceCode s)) ++ rest)) off sources.length = some sources := by
  induction sources generalizing pre off with
  | nil => rfl
  | cons s sources ih =>
    obtain ⟨hnew, hnodup⟩ := List.nodup_cons.mp hnodup
    have hbyte : fieldAt (pre ++ ((s :: sources).map (fun s => BitVec.ofNat 8 (sourceCode s)) ++ rest)) off 1 = sourceCode s % 256 := by
      subst hoff
      rw [fieldAt, List.drop_left]
      simp [ofBe]
    have htail := ih (pre ++ [BitVec.ofNat 8 (sourceCode s)]) (off + 1) (by simp [hoff]) hnodup
    rw [List.append_assoc] at htail
    rw [List.length_cons, parseSources, hbyte, sourceOf_code]
    simp only [List.map_cons, List.cons_append, List.nil_append, Option.bind_eq_bind, Option.bind_some] at htail ⊢
    rw [htail]
    simp [hnew]

theorem encCandidates_length (revertive : Bool) (sources : List Source) : (encCandidates revertive sources).length = 6 := by
  simp [encCandidates]

theorem parseCandidates_enc (revertive : Bool) {sources : List Source} (hlen : sources.length ≤ 4) (hnodup : sources.Nodup) :
    parseCandidates (encCandidates revertive sources) = some (revertive, sources) := by
  have hcount : sources.length % 256 = sources.length := Nat.mod_eq_of_lt (by omega)
  have hbody : (sources.map (fun s => BitVec.ofNat 8 (sourceCode s)) ++ List.replicate 4 0).take 4 =
      sources.map (fun s => BitVec.ofNat 8 (sourceCode s)) ++ List.replicate (4 - sources.length) 0 := by
    rw [List.take_append, List.take_of_length_le (by simpa using hlen), List.take_replicate]
    simp
  have hsources := parseSources_map sources (be 1 (boolCode revertive) ++ be 1 sources.length) (List.replicate (4 - sources.length) 0) 2
    (by simp) hnodup
  unfold encCandidates parseCandidates
  rw [hbody, List.append_assoc, fieldAt_be_zero, fieldAt_append _ _ _ _ (by simp), be_length, fieldAt_be_zero]
  simp only [Nat.pow_one, boolCode_byte, boolOf_boolCode, hcount, Option.bind_eq_bind, Option.bind_some, if_neg (by omega : ¬ 4 < sources.length)]
  rw [← List.append_assoc, hsources]
  rfl

/-! ## Sections of many records -/

/-- A list whose elements all parse is parsed as the list of what they give. -/
theorem mapM_of_getElem {α β : Type} {f : α → Option β} {l : List α} {l' : List β} (hlen : l'.length = l.length)
    (hall : ∀ (i : Nat) (hi : i < l.length), f l[i] = some (l'[i]'(hlen ▸ hi))) : l.mapM f = some l' := by
  induction l generalizing l' with
  | nil =>
    rw [List.length_eq_zero_iff.mp hlen]
    rfl
  | cons a l ih =>
    cases l' with
    | nil => cases hlen
    | cons b l' =>
      have hhead : f a = some b := hall 0 (by simp)
      have htail := ih (Nat.succ.inj hlen) fun i hi => hall (i + 1) (by simpa using hi)
      simp only [List.mapM_cons, hhead, htail]
      rfl

/-- The chunk of one record among records of one size. -/
theorem flatMap_chunk {α : Type} {enc : α → List Byte} {size : Nat} (henc : ∀ a, (enc a).length = size) (l : List α) (post : List Byte)
    (i : Nat) (hi : i < l.length) : ((l.flatMap enc ++ post).drop (i * size)).take size = enc l[i] := by
  induction l generalizing i with
  | nil => cases hi
  | cons a l ih =>
    rw [List.flatMap_cons, List.append_assoc]
    cases i with
    | zero =>
      rw [Nat.zero_mul, List.drop_zero, List.take_left' (henc a)]
      rfl
    | succ i =>
      have hdrop : (enc a ++ (l.flatMap enc ++ post)).drop ((i + 1) * size) = (l.flatMap enc ++ post).drop (i * size) := by
        rw [Nat.succ_mul, Nat.add_comm, ← List.drop_drop, List.drop_left' (henc a)]
      rw [hdrop]
      exact ih i (by simpa using hi)

theorem flatMap_length {α : Type} {enc : α → List Byte} {size : Nat} (henc : ∀ a, (enc a).length = size) (l : List α) :
    (l.flatMap enc).length = l.length * size := by
  rw [List.length_flatMap, List.map_congr_left (fun a _ => henc a), List.map_const', List.sum_replicate, smul_eq_mul]

section

variable {pre post : List Byte} {off size : Nat}

theorem drop_section (hoff : pre.length = off) (xs : List Byte) (i : Nat) : (pre ++ xs).drop (off + i) = xs.drop i := by
  rw [← List.drop_drop, List.drop_left' hoff]

/-- A section of `k` records of one size is read back record by record. -/
theorem parseMany_flatMap {α : Type} {enc : α → List Byte} {parse : List Byte → Option α} {k : Nat} (v : Vector α k) (hoff : pre.length = off)
    (henc : ∀ a, (enc a).length = size) (hparse : ∀ i : Fin k, parse (enc v[i]) = some v[i]) :
    parseMany parse size (pre ++ (v.toList.flatMap enc ++ post)) off k = some v := by
  have hread : ((List.range k).mapM fun i => parse (((pre ++ (v.toList.flatMap enc ++ post)).drop (off + i * size)).take size)) =
      some v.toList := by
    refine mapM_of_getElem (by simp) fun i hi => ?_
    have hi' : i < k := by simpa using hi
    rw [List.getElem_range, drop_section hoff, flatMap_chunk henc v.toList post i (by simpa using hi')]
    simpa using hparse ⟨i, hi'⟩
  unfold parseMany
  rw [hread]
  simp [show v.toList.toArray = v.toArray from Array.toArray_toList]

/-- The kind entries are read back, each for its kind. -/
theorem parseKinds_flatMap (v : Vector KindEntry 20) (hoff : pre.length = off)
    (hlegal : ∀ k ∈ alarmKinds, v[k.idx].action = .fenceSlot → k.slotSourced = true) :
    parseKinds (pre ++ (v.toList.flatMap encKindEntry ++ post)) off = some v := by
  have hidx : ∀ (i : Nat) (hi : i < alarmKinds.length), (alarmKinds[i].idx).val = i := by decide
  have hread : (alarmKinds.mapM fun k => parseKindEntry k
      (((pre ++ (v.toList.flatMap encKindEntry ++ post)).drop (off + k.idx.val * 5)).take 5)) = some v.toList := by
    refine mapM_of_getElem (by simp; rfl) fun i hi => ?_
    have hkind := hlegal alarmKinds[i] (List.getElem_mem hi)
    rw [hidx i hi, drop_section hoff, flatMap_chunk encKindEntry_length v.toList post i (by rw [Vector.length_toList]; exact hi)]
    have hentry : v[alarmKinds[i].idx] = v.toList[i]'(by rw [Vector.length_toList]; exact hi) := by
      rw [Fin.getElem_fin, Vector.getElem_toList]
      simp only [hidx i hi]
    rw [hentry] at hkind
    exact parseKindEntry_enc hkind
  unfold parseKinds
  rw [hread]
  simp [show v.toList.toArray = v.toArray from Array.toArray_toList]

end

/-! ## The image -/

theorem drop_take_section {pre x post : List Byte} {off k : Nat} (hoff : pre.length = off) (hk : x.length = k) :
    ((pre ++ (x ++ post)).drop off).take k = x := by
  rw [List.drop_left' hoff, List.take_left' hk]

/-- The header and the sections of an image, in their order (R191). -/
def imageSections (v : Settings) : List (List Byte) :=
  [be 4 imageTag ++ be 2 imageVersion ++ be 2 imageLength,
    v.tables.plan.toList.flatMap encPlan,
    encBudget ⟨v.tables.budget, v.tables.recoveryWindow, v.tables.drainTimeout⟩,
    v.tables.windows.toList.flatMap encWindow,
    v.tables.groups.toList.flatMap Mask.encode,
    encDefaultTarget v.tables.defaultTarget,
    v.tables.ports.toList.flatMap encPortLimit,
    encCandidates v.tables.revertive v.sources,
    encTimingParams v.tables.timing,
    v.tables.asymmetry.toList.flatMap (beInt 2),
    v.tables.kinds.toList.flatMap encKindEntry,
    encRelay v.tables.relay]

/-- Their lengths. -/
def sectionLengths : List Nat := [8, 60, 6, 512, 32, 2, 48, 6, 19, 24, 100, 2]

theorem imageSections_lengths (v : Settings) : (imageSections v).map List.length = sectionLengths := by
  simp [imageSections, sectionLengths, flatMap_length encPlan_length, encBudget_length, flatMap_length encWindow_length,
    flatMap_length Mask.encode_length, encDefaultTarget_length, flatMap_length encPortLimit_length, encCandidates_length,
    encTimingParams_length, flatMap_length (beInt_length 2), flatMap_length encKindEntry_length, encRelay_length]

theorem imageBody_eq (v : Settings) : imageBody v = (imageSections v).flatten := by
  simp [imageBody, imageSections, List.append_assoc]

theorem imageBody_length (v : Settings) : (imageBody v).length = 819 := by
  rw [imageBody_eq, List.length_flatten, imageSections_lengths]
  rfl

/-- An image with whatever follows it, split at one of its sections. -/
theorem image_split (v : Settings) (crc : List Byte) (i : Nat) (hi : i < 12) : imageBody v ++ crc =
    ((imageSections v).take i).flatten ++ (((imageSections v)[i]'hi) ++ (((imageSections v).drop (i + 1)).flatten ++ crc)) := by
  rw [imageBody_eq, ← List.append_assoc, ← List.append_assoc]
  congr 1
  conv_lhs => rw [← List.take_append_drop i (imageSections v), List.drop_eq_getElem_cons hi]
  rw [List.flatten_append, List.flatten_cons, List.append_assoc]

/-- Where a section begins. -/
theorem image_before (v : Settings) (i : Nat) : (((imageSections v).take i).flatten).length = (sectionLengths.take i).sum := by
  rw [List.length_flatten, List.map_take, imageSections_lengths]

/-- A section of one record. -/
theorem image_section (v : Settings) (crc : List Byte) (i : Nat) (hi : i < 12) {off k : Nat}
    (hoff : (sectionLengths.take i).sum = off) (hk : ((imageSections v)[i]'hi).length = k) :
    ((imageBody v ++ crc).drop off).take k = ((imageSections v)[i]'hi) := by
  rw [image_split v crc i hi]
  exact drop_take_section ((image_before v i).trans hoff) hk

/-- A section of many records. -/
theorem image_many {α : Type} (v : Settings) (crc : List Byte) (i : Nat) (hi : i < 12) {off size k : Nat}
    {enc : α → List Byte} {parse : List Byte → Option α} (w : Vector α k) (hsection : ((imageSections v)[i]'hi) = w.toList.flatMap enc)
    (hoff : (sectionLengths.take i).sum = off) (henc : ∀ a, (enc a).length = size) (hparse : ∀ j : Fin k, parse (enc w[j]) = some w[j]) :
    parseMany parse size (imageBody v ++ crc) off k = some w := by
  rw [image_split v crc i hi, hsection]
  exact parseMany_flatMap w ((image_before v i).trans hoff) henc hparse

theorem mapEach_of_fixed {α : Type} {k : Nat} {f : α → α} (w : Vector α k) (hf : ∀ i : Fin k, f w[i] = w[i]) : mapEach f w = w := by
  ext i hi
  rw [mapEach_get]
  exact hf ⟨i, hi⟩

/-- The sections of an image give its settings back. -/
theorem parseSections_image {v : Settings} (crc : List Byte) (hv : v.tables.Legal) (hlen : v.sources.length ≤ 4) (hnodup : v.sources.Nodup) :
    parseSections (imageBody v ++ crc) = some v := by
  obtain ⟨hplan, hbudget, hrecovery, hdrain, hwindows, hports, htiming, hasymmetry, hkinds⟩ := hv
  have h1 := image_many v crc 1 (by decide) v.tables.plan rfl (off := 8) rfl encPlan_length fun n => parsePlan_encPlan (hplan n)
  have h2 := image_section v crc 2 (by decide) (off := 68) rfl (encBudget_length _)
  have h3 := image_many v crc 3 (by decide) v.tables.windows rfl (off := 74) rfl encWindow_length fun i => parseWindow_encWindow (hwindows i)
  have h4 := image_many v crc 4 (by decide) (parse := fun r => Mask.ofValue (fieldAt r 0 2)) v.tables.groups rfl (off := 586) rfl
    Mask.encode_length fun g => mask_read_only _
  have h5 := image_section v crc 5 (by decide) (off := 618) rfl (encDefaultTarget_length _)
  have h6 := image_many v crc 6 (by decide) (parse := fun r => some (parsePortLimit r)) v.tables.ports rfl (off := 620) rfl encPortLimit_length
    fun n => congrArg some (parsePortLimit_encPortLimit (hports n).2.1 (hports n).2.2.2)
  have h7 := image_section v crc 7 (by decide) (off := 668) rfl (encCandidates_length _ _)
  have h8 := image_section v crc 8 (by decide) (off := 674) rfl (encTimingParams_length _)
  have h9 := image_many v crc 9 (by decide) v.tables.asymmetry rfl (off := 693) rfl (beInt_length 2) fun n => parseAsymmetry_beInt (hasymmetry n)
  have h10 : parseKinds (imageBody v ++ crc) 717 = some v.tables.kinds := by
    rw [image_split v crc 10 (by decide)]
    exact parseKinds_flatMap v.tables.kinds (image_before v 10) hkinds
  have h11 := image_section v crc 11 (by decide) (off := 817) rfl (encRelay_length _)
  unfold parseSections
  simp only [h1, h2, h3, h4, h5, h6, h7, h8, h9, h10, h11, Option.bind_eq_bind, Option.bind_some]
  simp only [imageSections, List.getElem_cons_succ, List.getElem_cons_zero]
  rw [parseDefaultTarget_enc, parseCandidates_enc _ hlen hnodup, parseRelay_encRelay, parseTimingParams_enc htiming,
    TimingParams.clamp_of_legal htiming, parseBudget_encBudget _ ⟨by dsimp only; omega, by dsimp only; omega, by dsimp only; omega⟩,
    BudgetRec.clamp_of_legal hbudget hrecovery hdrain, mapEach_of_fixed _ fun n => PlanEntry.clamp_of_legal (hplan n),
    mapEach_of_fixed _ fun n => PortLimit.clamp_of_legal (hports n)]
  rfl

/-! ## The judgment of an image -/

theorem Memory.bytes_add (m : List Host.Cell) (off k l : Nat) :
    Memory.bytes m off (k + l) = Memory.bytes m off k ++ Memory.bytes m (off + k) l := by
  induction k generalizing off with
  | zero => rw [Nat.zero_add]; rfl
  | succ k ih =>
    rw [Nat.succ_add, Memory.bytes, ih (off + 1), Memory.bytes, List.cons_append, Nat.add_assoc, Nat.add_comm 1 k]

theorem imageCrc_length (v : Settings) : (imageCrc v).length = 2 := by simp [imageCrc]

theorem image_head (v : Settings) (rest : List Byte) : (imageBody v ++ rest).take 8 = be 4 imageTag ++ be 2 imageVersion ++ be 2 imageLength :=
  image_section v rest 0 (by decide) (off := 0) rfl rfl

theorem imageTag_read : fieldAt (be 4 imageTag ++ be 2 imageVersion ++ be 2 imageLength) 0 4 = imageTag ∧
    fieldAt (be 4 imageTag ++ be 2 imageVersion ++ be 2 imageLength) 4 2 = imageVersion ∧
    fieldAt (be 4 imageTag ++ be 2 imageVersion ++ be 2 imageLength) 6 2 = imageLength := by decide

theorem imageCrc_read (v : Settings) : fieldAt (imageBody v ++ imageCrc v) 819 2 = (crc16 (imageBody v)).toNat := by
  rw [fieldAt_append _ _ _ _ (by rw [imageBody_length]), imageBody_length]
  unfold imageCrc
  rw [fieldAt_be_only]
  exact Nat.mod_eq_of_lt (crc16 (imageBody v)).isLt

/-- Settles O23: the header and the CRC are those of an image, and each section is read back. -/
theorem imageIsReadBack : Obligations.ImageIsReadBack := by
  intro m v hlegal hlen hnodup hbytes
  have hhead : Memory.bytes m 0 8 = be 4 imageTag ++ be 2 imageVersion ++ be 2 imageLength := by
    rw [← image_head v (imageCrc v), ← hbytes, show imageLength = 8 + 813 from rfl, Memory.bytes_add, List.take_left' (Memory.bytes_length _ _ _)]
  obtain ⟨htag, hversion, hlength⟩ := imageTag_read
  have hbody : (imageBody v ++ imageCrc v).take 819 = imageBody v := List.take_left' (imageBody_length v)
  unfold judgeImage
  simp only [hhead, htag, hversion, hlength]
  rw [if_neg (by decide), if_neg (by decide), if_neg (by decide), hbytes]
  rw [if_neg (by rw [show imageLength - 2 = 819 from rfl, imageCrc_read, hbody]; exact fun hne => hne rfl),
    parseSections_image (imageCrc v) hlegal hlen hnodup]

end Sys2Proof.Machine
end

section
/-! PROOFS. A save of the configuration image, whole or cut off (section 11.3). -/

namespace Sys2Proof.Machine

/-! ## The EEPROM, byte by byte -/

/-- The bytes of a list written from an offset on, in order. -/
def writesFrom (off : Nat) (bs : List Byte) : List (Nat × Byte) := (bs.zipIdx off).map fun p => (p.2, p.1)

theorem writesFrom_cons (off : Nat) (b : Byte) (bs : List Byte) : writesFrom off (b :: bs) = (off, b) :: writesFrom (off + 1) bs := rfl

theorem writesFrom_take (off : Nat) (bs : List Byte) (k : Nat) : (writesFrom off bs).take k = writesFrom off (bs.take k) := by
  induction bs generalizing off k with
  | nil => rw [List.take_nil]; exact List.take_nil
  | cons b bs ih =>
    cases k with
    | zero => rfl
    | succ k => rw [writesFrom_cons, List.take_succ_cons, List.take_succ_cons, writesFrom_cons, ih]

theorem Memory.writeAll_cons (m : List Host.Cell) (w : Nat × Byte) (ws : List (Nat × Byte)) :
    Memory.writeAll m (w :: ws) = Memory.writeAll (Memory.write m w.1 w.2) ws := rfl

theorem Memory.writeAll_append (m : List Host.Cell) (ws ws' : List (Nat × Byte)) :
    Memory.writeAll m (ws ++ ws') = Memory.writeAll (Memory.writeAll m ws) ws' := by
  unfold Memory.writeAll
  rw [List.foldl_append]

theorem writesFrom_offsets (off : Nat) (bs : List Byte) (y : Nat) : y ∈ (writesFrom off bs).map (·.1) ↔ off ≤ y ∧ y < off + bs.length := by
  induction bs generalizing off with
  | nil =>
    simp [writesFrom]
  | cons b bs ih =>
    rw [writesFrom_cons, List.map_cons, List.mem_cons, ih, List.length_cons]
    omega

/-- What a byte reads as after a list of bytes has been written from an offset on. -/
theorem Memory.read_writesFrom {m : List Host.Cell} (hm : Memory.wf m = true) (off : Nat) (bs : List Byte) (hsize : off + bs.length ≤ eepromSize)
    (i : Nat) (hi : i < bs.length) : Memory.read (Memory.writeAll m (writesFrom off bs)) (off + i) = bs[i] := by
  induction bs generalizing m off i with
  | nil => cases hi
  | cons b bs ih =>
    rw [List.length_cons] at hsize
    rw [writesFrom_cons, Memory.writeAll_cons]
    have hwrite : Memory.wf (Memory.write m off b) = true := Memory.write_wf hm off b
    cases i with
    | zero =>
      rw [Memory.read_writeAll_other hwrite _ _ (by rw [Nat.add_zero, writesFrom_offsets]; omega), Nat.add_zero,
        Memory.read_write hm _ _ _ (by omega), if_pos rfl]
      rfl
    | succ i =>
      have hnext := ih hwrite (off + 1) (by omega) i (by simpa using hi)
      rw [Nat.add_right_comm, Nat.add_assoc] at hnext
      exact hnext

theorem Memory.read_writesFrom_other {m : List Host.Cell} (hm : Memory.wf m = true) (off : Nat) (bs : List Byte) (y : Nat)
    (hy : y < off ∨ off + bs.length ≤ y) : Memory.read (Memory.writeAll m (writesFrom off bs)) y = Memory.read m y :=
  Memory.read_writeAll_other hm _ _ (by rw [writesFrom_offsets]; omega)

/-- Bytes of two EEPROMs that read alike. -/
theorem Memory.bytes_congr {m m' : List Host.Cell} (off k : Nat) (hread : ∀ y, off ≤ y → y < off + k → Memory.read m y = Memory.read m' y) :
    Memory.bytes m off k = Memory.bytes m' off k := by
  induction k generalizing off with
  | zero => rfl
  | succ k ih =>
    rw [Memory.bytes, Memory.bytes, hread off (Nat.le_refl _) (by omega), ih (off + 1) fun y hlo hhi => hread y (by omega) (by omega)]

/-- Bytes that read as those of a list. -/
theorem Memory.bytes_eq_list {m : List Host.Cell} (off : Nat) (bs : List Byte)
    (hread : ∀ (i : Nat) (hi : i < bs.length), Memory.read m (off + i) = bs[i]) : Memory.bytes m off bs.length = bs := by
  induction bs generalizing off with
  | nil => rfl
  | cons b bs ih =>
    rw [List.length_cons, Memory.bytes, ih (off + 1) fun i hi => ?_]
    · exact congrArg (· :: bs) (hread 0 (by simp))
    · have hnext := hread (i + 1) (by simpa using hi)
      rw [Nat.add_right_comm, Nat.add_assoc]
      exact hnext

/-! ## The stored length and the CRC field -/

/-- The stored length of the image (R186). -/
def storedLength (m : List Host.Cell) : Nat := fieldAt (Memory.bytes m 6 2) 0 2

theorem crcOffset_eq (m : List Host.Cell) :
    crcOffset m = (if storedLength m < 821 ∨ 4096 < storedLength m then 821 else storedLength m) - 2 := rfl

theorem crcOffset_range (m : List Host.Cell) : 819 ≤ crcOffset m ∧ crcOffset m ≤ 4094 := by
  rw [crcOffset_eq]
  split <;> omega

theorem storedLength_congr {m m' : List Host.Cell} (h6 : Memory.read m 6 = Memory.read m' 6) (h7 : Memory.read m 7 = Memory.read m' 7) :
    storedLength m = storedLength m' := by
  unfold storedLength
  rw [Memory.bytes_congr 6 2 fun y hlo hhi => ?_]
  obtain rfl | rfl : y = 6 ∨ y = 7 := by omega
  · exact h6
  · exact h7

theorem crcOffset_congr {m m' : List Host.Cell} (hl : storedLength m = storedLength m') : crcOffset m = crcOffset m' := by
  rw [crcOffset_eq, crcOffset_eq, hl]

theorem crcMatches_iff (m : List Host.Cell) : crcMatches m = true ↔
    821 ≤ storedLength m ∧ storedLength m ≤ 4096 ∧
      fieldAt (Memory.bytes m (storedLength m - 2) 2) 0 2 = (crc16 (Memory.bytes m 0 (storedLength m - 2))).toNat := by
  unfold crcMatches storedLength
  simp only [Bool.and_eq_true, decide_eq_true_eq, beq_iff_eq, and_assoc]

/-- The CRC field of two bytes, as a number. -/
theorem field_two (m : List Host.Cell) (off : Nat) :
    fieldAt (Memory.bytes m off 2) 0 2 = (Memory.read m off).toNat * 256 + (Memory.read m (off + 1)).toNat := by
  simp [fieldAt, Memory.bytes, ofBe]

/-- An image whose CRC field has been complemented does not match. -/
theorem crcMatches_unmatched {m : List Host.Cell} (hm : Memory.wf m = true) : crcMatches (unmatched m) = false := by
  cases hmatch : crcMatches m with
  | false => rw [unmatched_eq_self hmatch]; exact hmatch
  | true =>
    obtain ⟨hlo, hhi, hfield⟩ := (crcMatches_iff m).mp hmatch
    have hoff : crcOffset m = storedLength m - 2 := by rw [crcOffset_eq, if_neg (by omega)]
    have hother : ∀ y, y < 819 → Memory.read (unmatched m) y = Memory.read m y := fun y hy =>
      read_unmatched_other hm y (by omega) (by omega)
    have hlength : storedLength (unmatched m) = storedLength m := storedLength_congr (hother 6 (by decide)) (hother 7 (by decide))
    have hfirst : Memory.read (unmatched m) (storedLength m - 2) = ~~~ Memory.read m (storedLength m - 2) := by
      unfold unmatched
      rw [if_pos hmatch, hoff]
      exact Memory.read_writesFrom hm (storedLength m - 2) [~~~ Memory.read m (storedLength m - 2), ~~~ Memory.read m (storedLength m - 2 + 1)]
        (show storedLength m - 2 + 2 ≤ 8192 by omega) 0 (Nat.zero_lt_succ _)
    refine Bool.eq_false_iff.mpr fun hagain => ?_
    obtain ⟨-, -, hfield'⟩ := (crcMatches_iff _).mp hagain
    rw [hlength, Memory.bytes_congr 0 (storedLength m - 2) (m' := m) fun y _ hy => read_unmatched_other hm y (by omega) (by omega), ← hfield,
      field_two, field_two, hfirst] at hfield'
    have hne : (~~~ Memory.read m (storedLength m - 2)).toNat ≠ (Memory.read m (storedLength m - 2)).toNat := by
      rw [BitVec.toNat_not]
      omega
    have h1 := (Memory.read (unmatched m) (storedLength m - 2 + 1)).isLt
    have h2 := (Memory.read m (storedLength m - 2 + 1)).isLt
    omega

/-! ## The judgment of a stored image -/

/-- The stored tag, version and length are such as an image can have (R183). -/
def HeadGood (m : List Host.Cell) : Prop :=
  fieldAt (Memory.bytes m 0 8) 0 4 = imageTag ∧ fieldAt (Memory.bytes m 0 8) 4 2 = imageVersion ∧
    821 ≤ fieldAt (Memory.bytes m 0 8) 6 2 ∧ fieldAt (Memory.bytes m 0 8) 6 2 ≤ 4096

theorem storedLength_eq (m : List Host.Cell) : storedLength m = fieldAt (Memory.bytes m 0 8) 6 2 := by
  unfold storedLength
  rw [show (8 : Nat) = 6 + 2 from rfl, Memory.bytes_add, fieldAt_append _ _ _ _ (by rw [Memory.bytes_length])]
  rfl

/-- The CRC of an image as a load judges it is that of its bytes before the field. -/
theorem judged_crc (m : List Host.Cell) (len : Nat) (hlen : 2 ≤ len) :
    fieldAt (Memory.bytes m 0 len) (len - 2) 2 = fieldAt (Memory.bytes m (len - 2) 2) 0 2 ∧
      (Memory.bytes m 0 len).take (len - 2) = Memory.bytes m 0 (len - 2) := by
  obtain ⟨k, rfl⟩ := Nat.exists_eq_add_of_le' hlen
  rw [Nat.add_sub_cancel, Memory.bytes_add, Nat.zero_add]
  exact ⟨by rw [fieldAt_append _ _ _ _ (by rw [Memory.bytes_length]), Memory.bytes_length, Nat.sub_self],
    List.take_left' (Memory.bytes_length _ _ _)⟩

/-- A load judges the CRC of an image whose tag, version and length are good (R183). -/
theorem judgeImage_of_badCrc {m : List Host.Cell} (hgood : HeadGood m) (hc : crcMatches m = false) : judgeImage m = .inl .badCrc := by
  obtain ⟨htag, hversion, hlo, hhi⟩ := hgood
  have hlen := storedLength_eq m
  rw [← hlen] at hlo hhi
  obtain ⟨hfield, htake⟩ := judged_crc m (storedLength m) (by omega)
  have hcrc : fieldAt (Memory.bytes m 0 (storedLength m)) (storedLength m - 2) 2 ≠
      (crc16 ((Memory.bytes m 0 (storedLength m)).take (storedLength m - 2))).toNat := by
    rw [hfield, htake]
    exact fun hm => absurd ((crcMatches_iff m).mpr ⟨hlo, hhi, hm⟩) (by rw [hc]; decide)
  unfold judgeImage
  simp only [← hlen, htag, hversion]
  rw [if_neg (fun hne => hne rfl), if_neg (fun hne => hne rfl), if_neg (fun hor => hor.elim (Nat.not_lt.mpr hlo) (Nat.not_lt.mpr hhi)),
    if_pos hcrc]

theorem judgeImage_of_badHead {m : List Host.Cell} (hbad : ¬ HeadGood m) :
    ∃ found, judgeImage m = .inl found ∧ found ≠ .badCrc ∧ found ≠ .badContent := by
  unfold judgeImage
  simp only
  split
  · exact ⟨_, rfl, by decide, by decide⟩
  · next htag =>
    split
    · exact ⟨_, rfl, by decide, by decide⟩
    · next hversion =>
      split
      · exact ⟨_, rfl, by decide, by decide⟩
      · next hlen =>
        obtain ⟨hlo, hhi⟩ := not_or.mp hlen
        exact absurd ⟨not_not.mp htag, not_not.mp hversion, Nat.not_lt.mp hlo, Nat.not_lt.mp hhi⟩ hbad

/-- A load that finds nothing worse than a bad CRC has found the tag, the version and the length good. -/
theorem headGood_of_found {m : List Host.Cell} (hfound : ∀ found, judgeImage m = .inl found → found = .badCrc ∨ found = .badContent) :
    HeadGood m := by
  by_contra hbad
  obtain ⟨found, hf, h1, h2⟩ := judgeImage_of_badHead hbad
  exact (hfound found hf).elim h1 h2

/-- An image that its CRC does not fit is not loaded; with a good head it is the CRC that the load finds. -/
theorem judgeImage_of_unmatched {m : List Host.Cell} (hm : crcMatches m = false) :
    (∃ found, judgeImage m = .inl found) ∧ (HeadGood m → judgeImage m = .inl .badCrc) := by
  have hcrc : HeadGood m → judgeImage m = .inl .badCrc := fun hgood => judgeImage_of_badCrc hgood hm
  refine ⟨?_, hcrc⟩
  by_cases hgood : HeadGood m
  · exact ⟨_, hcrc hgood⟩
  · obtain ⟨found, hf, -⟩ := judgeImage_of_badHead hgood
    exact ⟨found, hf⟩

theorem HeadGood.of_read {m m' : List Host.Cell} (hgood : HeadGood m) (hread : ∀ y, y < 8 → Memory.read m' y = Memory.read m y) :
    HeadGood m' := by
  unfold HeadGood
  rw [Memory.bytes_congr 0 8 (m' := m) fun y _ hy => hread y (by omega)]
  exact hgood

/-! ## A save -/

/-- The bytes of the image that a save writes. -/
def imageBytes (v : Settings) : List Byte := imageBody v ++ imageCrc v

theorem imageBytes_length (v : Settings) : (imageBytes v).length = 821 := by
  unfold imageBytes
  rw [List.length_append, imageBody_length, imageCrc_length]

/-- The first stage of a save: the CRC field complemented (R186). -/
def crcStage (m : List Host.Cell) : List (Nat × Byte) :=
  [(crcOffset m, ~~~ Memory.read m (crcOffset m)), (crcOffset m + 1, ~~~ Memory.read m (crcOffset m + 1))]

theorem saveSequence_eq (m : List Host.Cell) (v : Settings) : saveSequence m v = crcStage m ++ writesFrom 0 (imageBytes v) := rfl

/-- The first `k` bytes of a save's stages, with `k` at least 2: the CRC field and `k - 2` bytes of the image. -/
theorem saveSequence_take (m : List Host.Cell) (v : Settings) (k : Nat) :
    (saveSequence m v).take k = (crcStage m).take k ++ writesFrom 0 ((imageBytes v).take (k - 2)) := by
  rw [saveSequence_eq, List.take_append, writesFrom_take]
  rfl

/-- The EEPROM once `k` bytes of a save's stages have been stored. -/
def savePart (m : List Host.Cell) (v : Settings) (k : Nat) : List Host.Cell := Memory.writeAll m ((saveSequence m v).take k)

theorem savePart_eq (m : List Host.Cell) (v : Settings) (k : Nat) : savePart m v k =
    Memory.writeAll (Memory.writeAll m ((crcStage m).take k)) (writesFrom 0 ((imageBytes v).take (k - 2))) := by
  unfold savePart
  rw [saveSequence_take, Memory.writeAll_append]

theorem savePart_full (m : List Host.Cell) (v : Settings) (k : Nat) (hk : 823 ≤ k) :
    savePart m v k = Memory.writeAll m (saveSequence m v) := by
  have hlen : (saveSequence m v).length = 823 := by
    rw [saveSequence_eq, List.length_append]
    unfold writesFrom
    rw [List.length_map, List.length_zipIdx, imageBytes_length]
    rfl
  unfold savePart
  rw [List.take_of_length_le (hlen.trans_le hk)]

section

variable {m : List Host.Cell} (hm : Memory.wf m = true) (v : Settings)

include hm

/-- What a byte of the image reads as. -/
theorem savePart_read {k y : Nat} (hy : y < k - 2) (hi : y < (imageBytes v).length) : Memory.read (savePart m v k) y = (imageBytes v)[y] := by
  have hlen : ((imageBytes v).take (k - 2)).length ≤ 821 := by
    rw [List.length_take, imageBytes_length]
    omega
  have hread := Memory.read_writesFrom (Memory.writeAll_wf hm ((crcStage m).take k)) 0 ((imageBytes v).take (k - 2))
    (show 0 + _ ≤ 8192 by omega) y (by rw [List.length_take]; omega)
  rw [Nat.zero_add, List.getElem_take] at hread
  rw [savePart_eq]
  exact hread

/-- A byte outside what has been written of the image, and outside the CRC field, stands. -/
theorem savePart_other {k y : Nat} (hy : k - 2 ≤ y ∨ 821 ≤ y) (hlo : y ≠ crcOffset m) (hhi : y ≠ crcOffset m + 1) :
    Memory.read (savePart m v k) y = Memory.read m y := by
  have hlen := imageBytes_length v
  rw [savePart_eq, Memory.read_writesFrom_other (Memory.writeAll_wf hm _) _ _ _ (by rw [List.length_take]; omega)]
  refine Memory.read_writeAll_other hm _ _ fun hin => ?_
  obtain ⟨w, hw, rfl⟩ := List.mem_map.mp hin
  have hstage := List.mem_of_mem_take hw
  simp only [crcStage, List.mem_cons, List.not_mem_nil, or_false] at hstage
  rcases hstage with rfl | rfl
  · exact hlo rfl
  · exact hhi rfl

/-- The whole image stands once every byte of it has been written. -/
theorem savePart_bytes {k : Nat} (hk : 823 ≤ k) : Memory.bytes (savePart m v k) 0 imageLength = imageBytes v := by
  have hall := Memory.bytes_eq_list (m := savePart m v k) 0 (imageBytes v) fun i hi => by
    rw [Nat.zero_add]
    exact savePart_read hm v (by rw [imageBytes_length] at hi; omega) hi
  rw [imageBytes_length] at hall
  exact hall

end

theorem imageBytes_head (v : Settings) : (imageBytes v).take 8 = be 4 imageTag ++ be 2 imageVersion ++ be 2 imageLength :=
  image_head v (imageCrc v)

/-- The first eight bytes, where they read as those of an image. -/
theorem bytes_of_image {m : List Host.Cell} (v : Settings)
    (hread : ∀ (y : Nat) (hy : y < (imageBytes v).length), y < 8 → Memory.read m y = (imageBytes v)[y]) :
    Memory.bytes m 0 8 = be 4 imageTag ++ be 2 imageVersion ++ be 2 imageLength := by
  have hlen : ((imageBytes v).take 8).length = 8 := by rw [List.length_take, imageBytes_length]; rfl
  have hbytes := Memory.bytes_eq_list (m := m) 0 ((imageBytes v).take 8) fun i hi => by
    rw [Nat.zero_add, List.getElem_take]
    exact hread i (by rw [List.length_take] at hi; omega) (by omega)
  rwa [hlen, imageBytes_head] at hbytes

/-- Such bytes are a good head, and their length is that of the image. -/
theorem headGood_of_bytes {m : List Host.Cell} (hbytes : Memory.bytes m 0 8 = be 4 imageTag ++ be 2 imageVersion ++ be 2 imageLength) :
    HeadGood m ∧ storedLength m = 821 := by
  obtain ⟨htag, hversion, hlength⟩ := imageTag_read
  rw [storedLength_eq]
  unfold HeadGood
  rw [hbytes, htag, hversion, hlength]
  exact ⟨⟨rfl, rfl, by decide, by decide⟩, rfl⟩

/-- Bytes of one length that spell one number are the same. -/
theorem ofBe_injective {xs ys : List Byte} (hlen : xs.length = ys.length) (he : ofBe xs = ofBe ys) : xs = ys := by
  induction xs generalizing ys with
  | nil => exact (List.length_eq_zero_iff.mp hlen.symm).symm
  | cons x xs ih =>
    cases ys with
    | nil => cases hlen
    | cons y ys =>
      have htail : xs.length = ys.length := Nat.succ.inj hlen
      rw [ofBe_cons, ofBe_cons, htail] at he
      have hx := ofBe_lt xs
      have hy := ofBe_lt ys
      rw [htail] at hx
      have hpos : 0 < 256 ^ ys.length := Nat.pow_pos (by decide)
      have hdiv := congrArg (· / 256 ^ ys.length) he
      have hmod := congrArg (· % 256 ^ ys.length) he
      simp only [Nat.mul_comm _ (256 ^ ys.length), Nat.mul_add_div hpos, Nat.mul_add_mod, Nat.div_eq_of_lt hx, Nat.div_eq_of_lt hy,
        Nat.mod_eq_of_lt hx, Nat.mod_eq_of_lt hy, Nat.add_zero] at hdiv hmod
      rw [BitVec.eq_of_toNat_eq hdiv, ih htail hmod]

/-- A good head starts with the tag and the version that every image has. -/
theorem HeadGood.bytes {m : List Host.Cell} (hgood : HeadGood m) : Memory.bytes m 0 6 = be 4 imageTag ++ be 2 imageVersion := by
  obtain ⟨htag, hversion, -⟩ := hgood
  rw [show (8 : Nat) = 4 + 4 from rfl, Memory.bytes_add] at htag hversion
  rw [fieldAt_append_left _ _ _ _ (by simp)] at htag
  rw [fieldAt_append _ _ _ _ (by simp), Memory.bytes_length, show (4 : Nat) = 2 + 2 from rfl, Memory.bytes_add,
    fieldAt_append_left _ _ _ _ (by simp)] at hversion
  rw [show (6 : Nat) = 4 + 2 from rfl, Memory.bytes_add]
  congr 1
  · refine ofBe_injective (by simp) ?_
    rw [ofBe_be, Nat.mod_eq_of_lt (by decide)]
    simpa [fieldAt, List.take_of_length_le] using htag
  · refine ofBe_injective (by simp) ?_
    rw [ofBe_be, Nat.mod_eq_of_lt (by decide)]
    simpa [fieldAt, List.take_of_length_le] using hversion

theorem Memory.bytes_getElem (m : List Host.Cell) (off k i : Nat) (hi : i < (Memory.bytes m off k).length) :
    (Memory.bytes m off k)[i] = Memory.read m (off + i) := by
  induction k generalizing off i with
  | zero => cases hi
  | succ k ih =>
    cases i with
    | zero => rfl
    | succ i =>
      have hnext := ih (off + 1) i (by simpa using hi)
      rw [Nat.add_right_comm, Nat.add_assoc] at hnext
      exact hnext

theorem HeadGood.read {m : List Host.Cell} (hgood : HeadGood m) (v : Settings) {y : Nat} (hy : y < 6) (hi : y < (imageBytes v).length) :
    Memory.read m y = (imageBytes v)[y] := by
  have hbytes : Memory.bytes m 0 6 = (imageBytes v).take 6 := by
    have hhead := congrArg (List.take 6) (imageBytes_head v)
    rw [List.take_take] at hhead
    exact hgood.bytes.trans hhead.symm
  have hget : (Memory.bytes m 0 6)[y]'(by rw [Memory.bytes_length]; exact hy) = ((imageBytes v).take 6)[y]'(by
    rw [List.length_take]; omega) := by simp only [hbytes]
  rw [Memory.bytes_getElem, List.getElem_take, Nat.zero_add] at hget
  exact hget

/-- The number of bytes stored is never 9: the two of the length are stored together. -/
theorem storedWrites_cases (w : Nat) : storedWrites w ≤ 8 ∧ w ≤ 9 ∨ 10 ≤ storedWrites w ∧ storedWrites w = w := by
  unfold storedWrites
  split <;> omega

section

variable {m : List Host.Cell} (hm : Memory.wf m = true) (v : Settings)

include hm

/-- Once the header has been written it is the image's own. -/
theorem savePart_head {k : Nat} (hk : 10 ≤ k) :
    Memory.bytes (savePart m v k) 0 8 = be 4 imageTag ++ be 2 imageVersion ++ be 2 imageLength :=
  bytes_of_image v fun y hi hy => savePart_read hm v (by omega) hi

/-- Before that the length stands. -/
theorem savePart_length {k : Nat} (hk : k ≤ 8) : storedLength (savePart m v k) = storedLength m := by
  have hrange := crcOffset_range m
  exact storedLength_congr (savePart_other hm v (by omega) (by omega) (by omega)) (savePart_other hm v (by omega) (by omega) (by omega))

/-- A good head stays good at every byte of a save. -/
theorem savePart_good (hgood : HeadGood m) (w : Nat) : HeadGood (savePart m v (storedWrites w)) := by
  obtain ⟨hk, -⟩ | ⟨hk, -⟩ := storedWrites_cases w
  · have hrange := crcOffset_range m
    refine hgood.of_read fun y hy => ?_
    by_cases hwritten : y < storedWrites w - 2
    · have hi : y < (imageBytes v).length := by rw [imageBytes_length]; omega
      rw [savePart_read hm v hwritten hi, hgood.read v (by omega) hi]
    · exact savePart_other hm v (by omega) (by omega) (by omega)
  · exact (headGood_of_bytes (savePart_head hm v hk)).1

/-- The CRC field lies where it lay, or where the image has it. -/
theorem savePart_crcOffset (w : Nat) : crcOffset (savePart m v (storedWrites w)) = crcOffset m ∨
    crcOffset (savePart m v (storedWrites w)) = 819 := by
  obtain ⟨hk, -⟩ | ⟨hk, -⟩ := storedWrites_cases w
  · exact .inl (crcOffset_congr (savePart_length hm v hk))
  · right
    rw [crcOffset_eq, (headGood_of_bytes (savePart_head hm v hk)).2]
    rfl

end

theorem HeadGood.unmatched {m : List Host.Cell} (hgood : HeadGood m) (hm : Memory.wf m = true) : HeadGood (unmatched m) := by
  have hrange := crcOffset_range m
  exact hgood.of_read fun y hy => read_unmatched_other hm y (by omega) (by omega)

/-! ## What a failed save, and one cut off, leave -/

/-- An EEPROM that a failed save leaves: the CRC does not match, and where `good` holds the head is that of an image. -/
def Spoilt (m : List Host.Cell) (good : Prop) : Prop :=
  crcMatches m = false ∧ (∃ found, judgeImage m = .inl found) ∧ (good → judgeImage m = .inl .badCrc)

theorem spoilt_unmatched {m : List Host.Cell} {good : Prop} (hm : Memory.wf m = true) (hgood : good → HeadGood m) :
    Spoilt (unmatched m) good := by
  have hcrc := crcMatches_unmatched hm
  obtain ⟨hfound, hjudge⟩ := judgeImage_of_unmatched hcrc
  exact ⟨hcrc, hfound, fun hg => hjudge ((hgood hg).unmatched hm)⟩

theorem saveCutOff_between {m : List Host.Cell} (v : Settings) {w : Nat} (h1 : 1 ≤ w) (h2 : w < 823) :
    saveCutOff m v w = unmatched (savePart m v (storedWrites w)) := if_pos ⟨h1, h2⟩

theorem saveCutOff_after (m : List Host.Cell) (v : Settings) {w : Nat} (hw : 823 ≤ w) :
    saveCutOff m v w = Memory.writeAll m (saveSequence m v) := by
  have hstored : storedWrites w = w := if_neg (by omega)
  unfold saveCutOff
  rw [hstored]
  refine (if_neg (fun hb => absurd hb.2 (Nat.not_lt.mpr hw))).trans ?_
  exact savePart_full m v w hw

section

variable {m : List Host.Cell} (hm : Memory.wf m = true) (v : Settings)

include hm

theorem savePart_wf (k : Nat) : Memory.wf (savePart m v k) = true := Memory.writeAll_wf hm _

theorem savePart_goodWhen {w : Nat} (hgood : HeadGood m ∨ 10 ≤ w) : HeadGood (savePart m v (storedWrites w)) := by
  rcases hgood with hg | hw
  · exact savePart_good hm v hg w
  · have hstored : storedWrites w = w := if_neg (by omega)
    exact (headGood_of_bytes (savePart_head hm v (hw.trans_eq hstored.symm))).1

theorem saveCutOff_spoilt {w : Nat} (h1 : 1 ≤ w) (h2 : w < 823) : Spoilt (saveCutOff m v w) (HeadGood m ∨ 10 ≤ w) := by
  rw [saveCutOff_between v h1 h2]
  exact spoilt_unmatched (savePart_wf hm v _) (savePart_goodWhen hm v)

/-- The whole save, written. -/
theorem saveWritten_bytes : Memory.bytes (Memory.writeAll m (saveSequence m v)) 0 imageLength = imageBody v ++ imageCrc v := by
  rw [← savePart_full m v 823 (Nat.le_refl _)]
  exact savePart_bytes hm v (Nat.le_refl _)

theorem saveWritten_head :
    Memory.bytes (Memory.writeAll m (saveSequence m v)) 0 8 = be 4 imageTag ++ be 2 imageVersion ++ be 2 imageLength := by
  rw [← savePart_full m v 823 (Nat.le_refl _)]
  exact savePart_head hm v (by decide)

end

theorem flipByte_head {m : List Host.Cell} (hm : Memory.wf m = true) (p : Fin 821 × Fin 255) {y : Nat} (hy : y < 8) :
    Memory.read (flipByte m p) y = Memory.read m y := by
  unfold flipByte
  split
  · rw [Memory.read_write hm _ _ _ (show p.1.val < 8192 by omega), if_neg (by omega)]
  · rfl

theorem flipBytes_head (flips : List (Fin 821 × Fin 255)) {m : List Host.Cell} (hm : Memory.wf m = true) {y : Nat} (hy : y < 8) :
    Memory.read (flips.foldl flipByte m) y = Memory.read m y := by
  induction flips generalizing m with
  | nil => rfl
  | cons p flips ih => rw [List.foldl_cons, ih (flipByte_wf hm p), flipByte_head hm p hy]

/-- A save that ended in a failure past its first byte. -/
theorem saveEnded_spoilt {m : List Host.Cell} (hm : Memory.wf m = true) (v : Settings) {result : SaveEnd} {fault : SaveFault}
    (hfault : (saveResult result).1 = some fault) (hsome : result ≠ .noAck 0) :
    Spoilt (saveEnded m v result) (HeadGood m ∨ ∀ w, result = .noAck w → 10 ≤ w) := by
  cases result with
  | saved => cases hfault
  | noAck w =>
    have hpos : 1 ≤ w := Nat.one_le_iff_ne_zero.mpr fun he => hsome (he ▸ rfl)
    by_cases hw : w < 823
    · obtain ⟨hcrc, hfound, hjudge⟩ := saveCutOff_spoilt hm v hpos hw
      rw [show saveEnded m v (.noAck w) = saveCutOff m v w from if_pos hw]
      exact ⟨hcrc, hfound, fun hgood => hjudge (hgood.imp_right fun hall => hall w rfl)⟩
    · rw [show saveEnded m v (.noAck w) = unmatched (saveCutOff m v w) from if_neg hw, saveCutOff_after m v (Nat.not_lt.mp hw)]
      exact spoilt_unmatched (Memory.writeAll_wf hm _) fun _ => (headGood_of_bytes (saveWritten_head hm v)).1
  | mismatch flips =>
    refine spoilt_unmatched (flipBytes_wf flips (Memory.writeAll_wf hm _)) fun _ => ?_
    exact (headGood_of_bytes (saveWritten_head hm v)).1.of_read fun y hy => flipBytes_head flips (Memory.writeAll_wf hm _) hy

/-- Settles O25: what is left is kept from matching, with its head good where it was or has been written; and the whole image is read back. -/
theorem cutOffSaveIsFound : Obligations.CutOffSaveIsFound := by
  intro m v written hm
  refine ⟨fun h1 h2 => ?_, fun hw hlegal hlen hnodup => ?_⟩
  · obtain ⟨hcrc, hfound, hjudge⟩ := saveCutOff_spoilt hm v h1 h2
    exact ⟨hcrc, hfound, fun hgood => hjudge (hgood.imp_left headGood_of_found)⟩
  · rw [saveCutOff_after m v hw]
    exact imageIsReadBack _ v hlegal hlen hnodup (saveWritten_bytes hm v)

/-! ## CONFIG_SAVE and the end of its write -/

theorem exec_configSave_of_takes {s : State} {r : Request} {rest : List Request} (ht : s.hub.Takes Code.configSave r rest) :
    exec .configSave s = .next { s with hub := Hub.configSave r (s.hub.popRequest rest) } := State.onHub_take ht Hub.configSave

theorem exec_configSaveWriteEnd_of_saving {s : State} {save : Save} (result : SaveEnd) (hs : s.hub.config.save = some save) :
    exec (.configSaveWriteEnd result) s =
      .next { s with eeprom := saveEnded s.eeprom save.snapshot result, hub := s.hub.saveDone save (saveResult result) } := by
  change execConfigSaveWriteEnd result s = _
  unfold execConfigSaveWriteEnd
  rw [hs]

/-- What the end of a save leaves of the hub (R186). -/
structure Hub.SaveOver (h g : Hub) (save : Save) (result : Option SaveFault × Nat) : Prop where
  config : g.config = { h.config with save := none }
  slots : g.slots = h.slots
  tables : g.tables = h.tables
  clock : g.clock = h.clock
  failed : result.1.isSome = true → h.AlarmRoom → g.isActive (.hub .configSaveFailed) = true
  replied : save.replyDue = true → ∃ m, g.port.outbound.getLast? = some m ∧ m.isReply = true ∧ m.tag = save.tag ∧
    m.body = .configSave result.1 result.2

theorem Hub.saveDone_over (h : Hub) (save : Save) (result : Option SaveFault × Nat) : Hub.SaveOver h (h.saveDone save result) save result := by
  have hraised := Hub.raiseIf_handsOn { h with config := { h.config with save := none } } result.1.isSome (.hub .configSaveFailed)
  have hactive : result.1.isSome = true → h.AlarmRoom → (Hub.raiseIf { h with config := { h.config with save := none } } result.1.isSome
      (.hub .configSaveFailed)).isActive (.hub .configSaveFailed) = true := fun hfailed hroom => by
    unfold Hub.raiseIf
    rw [if_pos hfailed]
    obtain ⟨-, hlen⟩ := hroom
    exact Hub.raise_isActive (.inl (hlen.trans (by decide)))
  rw [Hub.saveDone_eq]
  simp only
  generalize Hub.raiseIf _ result.1.isSome (.hub .configSaveFailed) = k at *
  cases hdue : save.replyDue with
  | true =>
    refine ⟨hraised.config, hraised.slots, hraised.tables, hraised.clock, hactive, fun _ => ⟨_, List.getLast?_concat, rfl, rfl, rfl⟩⟩
  | false => exact ⟨hraised.config, hraised.slots, hraised.tables, hraised.clock, hactive, fun hnot => by rw [hdue] at hnot; cases hnot⟩

/-- A save that ends well is answered, and nothing else changes. -/
theorem Hub.saveDone_saved (h : Hub) (save : Save) : h.saveDone save (saveResult .saved) = { h with
    config := { h.config with save := none }
    port := if save.replyDue then h.port.reply save.tag Code.configSave .ok (.configSave none imageLength) else h.port } := by
  rw [Hub.saveDone_eq]
  cases save.replyDue <;> rfl

/-- Settles O24: the snapshot is taken as it stands, and each end of its write leaves the EEPROM and the hub as `saveEnded` and `saveDone` say. -/
theorem configSave : Obligations.ConfigSave := by
  intro s r rest h
  refine ⟨fun ht hidle => ?_, fun ht hbusy => ?_, fun save result hs => ⟨_, exec_configSaveWriteEnd_of_saving result hs, ?_⟩⟩
  · have hsave : Hub.configSave r (s.hub.popRequest rest) = _ :=
      if_neg (show ¬ s.hub.config.save.isSome = true from fun hsome => by rw [show s.hub.config.save = none from hidle] at hsome; cases hsome)
    rw [exec_configSave_of_takes ht, hsave]
    rfl
  · have hsave : Hub.configSave r (s.hub.popRequest rest) = (s.hub.popRequest rest).refuse r .busy := if_pos hbusy
    rw [exec_configSave_of_takes ht, hsave]
    exact ⟨_, rfl, _, s.hub.popRequest_refuse r rest .busy⟩
  · have hover := s.hub.saveDone_over save (saveResult result)
    have hsaved := s.hub.saveDone_saved save
    dsimp only
    refine ⟨hover.config, hover.slots, hover.tables, hover.clock, ?_, ?_, fun fault hfault => ?_⟩
    · rintro rfl
      exact ⟨hsaved, fun hm => saveWritten_bytes hm save.snapshot⟩
    · rintro written rfl hw
      exact if_pos hw
    · have hfailed := hover.failed
      have hreplied := hover.replied
      rw [hfault] at hfailed hreplied
      refine ⟨hfailed rfl, fun hm hsome => ?_, hreplied⟩
      obtain ⟨hcrc, hfound, hjudge⟩ := saveEnded_spoilt hm save.snapshot hfault hsome
      exact ⟨hcrc, hfound, fun hgood => hjudge (hgood.imp_left headGood_of_found)⟩

/-! ## Every command completes -/

section

variable {m : List Host.Cell} (hm : Memory.wf m = true) (v : Settings)

include hm

/-- A save touches the image and the CRC field as it stood, and nothing else. -/
theorem savePart_frame (w : Nat) {a : Nat} (ha : 821 ≤ a) (hlo : a ≠ crcOffset m) (hhi : a ≠ crcOffset m + 1) :
    Memory.read (savePart m v (storedWrites w)) a = Memory.read m a ∧
      Memory.read (unmatched (savePart m v (storedWrites w))) a = Memory.read m a := by
  have hpart := savePart_other hm v (k := storedWrites w) (.inr ha) hlo hhi
  refine ⟨hpart, (read_unmatched_other (savePart_wf hm v _) a ?_ ?_).trans hpart⟩
  · rcases savePart_crcOffset hm v w with he | he <;> rw [he] <;> omega
  · rcases savePart_crcOffset hm v w with he | he <;> rw [he] <;> omega

theorem saveCutOff_frame (w : Nat) {a : Nat} (ha : 821 ≤ a) (hlo : a ≠ crcOffset m) (hhi : a ≠ crcOffset m + 1) :
    Memory.read (saveCutOff m v w) a = Memory.read m a := by
  obtain ⟨hpart, hunmatched⟩ := savePart_frame hm v w ha hlo hhi
  unfold saveCutOff
  simp only
  split
  · exact hunmatched
  · exact hpart

/-- The image that stands once it has been written keeps its CRC field within itself. -/
theorem saveWritten_frame {a : Nat} (ha : 821 ≤ a) (hlo : a ≠ crcOffset m) (hhi : a ≠ crcOffset m + 1) :
    Memory.read (Memory.writeAll m (saveSequence m v)) a = Memory.read m a := by
  rw [← savePart_full m v 823 (Nat.le_refl _)]
  exact savePart_other hm v (.inr ha) hlo hhi

end

theorem flipBytes_frame (flips : List (Fin 821 × Fin 255)) {m : List Host.Cell} (hm : Memory.wf m = true) {a : Nat} (ha : 821 ≤ a) :
    Memory.read (flips.foldl flipByte m) a = Memory.read m a := by
  induction flips generalizing m with
  | nil => rfl
  | cons p flips ih =>
    rw [List.foldl_cons, ih (flipByte_wf hm p)]
    unfold flipByte
    split
    · rw [Memory.read_write hm _ _ _ (show p.1.val < 8192 by omega), if_neg (by omega)]
    · rfl

/-- An image whose head is that of a save is kept from matching within its 821 bytes. -/
theorem unmatched_frame {m : List Host.Cell} (hm : Memory.wf m = true) (hlen : storedLength m = 821) {a : Nat} (ha : 821 ≤ a) :
    Memory.read (unmatched m) a = Memory.read m a := by
  have hoff : crcOffset m = 819 := by rw [crcOffset_eq, hlen]; rfl
  exact read_unmatched_other hm a (by omega) (by omega)

theorem saveEnded_frame {m : List Host.Cell} (hm : Memory.wf m = true) (v : Settings) (result : SaveEnd) {a : Nat} (ha : 821 ≤ a)
    (hlo : a ≠ crcOffset m) (hhi : a ≠ crcOffset m + 1) : Memory.read (saveEnded m v result) a = Memory.read m a := by
  have hwritten := saveWritten_frame hm v ha hlo hhi
  have hwf := Memory.writeAll_wf hm (saveSequence m v)
  have hlen := (headGood_of_bytes (saveWritten_head hm v)).2
  cases result with
  | saved => exact hwritten
  | noAck w =>
    by_cases hw : w < 823
    · rw [show saveEnded m v (.noAck w) = saveCutOff m v w from if_pos hw]
      exact saveCutOff_frame hm v w ha hlo hhi
    · rw [show saveEnded m v (.noAck w) = unmatched (saveCutOff m v w) from if_neg hw, saveCutOff_after m v (Nat.not_lt.mp hw)]
      exact (unmatched_frame hwf hlen ha).trans hwritten
  | mismatch flips =>
    have hflips : storedLength (flips.foldl flipByte (Memory.writeAll m (saveSequence m v))) = 821 :=
      (storedLength_congr (flipBytes_head flips hwf (by decide)) (flipBytes_head flips hwf (by decide))).trans hlen
    exact (unmatched_frame (flipBytes_wf flips hwf) hflips ha).trans ((flipBytes_frame flips hwf ha).trans hwritten)

/-- Every command but a power-on reset and the end of a save is an event of the hub alone. -/
theorem exec_onHub (c : Instr) (s : State) : (∃ e w, c = .powerOnReset e w) ∨ (∃ result, c = .configSaveWriteEnd result) ∨
    ∃ g, exec c s = .next { s with hub := g } := by
  cases c
  case powerOnReset e w => exact .inl ⟨e, w, rfl⟩
  case configSaveWriteEnd result => exact .inr (.inl ⟨result, rfl⟩)
  all_goals exact .inr (.inr ⟨_, rfl⟩)

/-- Settles O5: two commands write the EEPROM, and only where a save does. -/
theorem everyCommandCompletes : Obligations.EveryCommandCompletes := by
  intro c s
  obtain ⟨e, w, rfl⟩ | ⟨result, rfl⟩ | ⟨g, hg⟩ := exec_onHub c s
  · refine ⟨_, rfl, rfl, fun hm a ha hlo hhi => ?_⟩
    dsimp only
    split
    · exact saveCutOff_frame hm _ w ha hlo hhi
    · rfl
  · cases hs : s.hub.config.save with
    | none =>
      have hidle : exec (.configSaveWriteEnd result) s = .next s := by
        change execConfigSaveWriteEnd result s = _
        unfold execConfigSaveWriteEnd
        rw [hs]
      exact ⟨s, hidle, rfl, fun _ _ _ _ _ => rfl⟩
    | some save => exact ⟨_, exec_configSaveWriteEnd_of_saving result hs, rfl, fun hm a ha hlo hhi => saveEnded_frame hm _ result ha hlo hhi⟩
  · exact ⟨_, hg, rfl, fun _ _ _ _ _ => rfl⟩

end Sys2Proof.Machine
end

section
/-! PROOFS. Frames through the hub: the integrity check, the window lookup and classification (chapters 1 and 2). -/

namespace Sys2Proof.Machine

/-! ## The integrity check -/

theorem be_ofBe {xs : List Byte} {k : Nat} (hk : xs.length = k) : be k (ofBe xs) = xs := by
  subst hk
  refine ofBe_injective (be_length _ _) ?_
  rw [ofBe_be]
  exact Nat.mod_eq_of_lt (ofBe_lt xs)

/-- A field of bytes, written again. -/
theorem be_fieldAt (bs : List Byte) (off k : Nat) (hk : off + k ≤ bs.length) : be k (fieldAt bs off k) = (bs.drop off).take k :=
  be_ofBe (by rw [List.length_take, List.length_drop]; omega)

theorem classOf_classCode (c : TrafficClass) : classOf (classCode c) = some c := by cases c <;> rfl

theorem classCode_of_classOf {v : Nat} {c : TrafficClass} (hc : classOf v = some c) : classCode c = v := by
  unfold classOf at hc
  split at hc
  · cases hc; rfl
  · cases hc; rfl
  · cases hc; rfl
  · cases hc

theorem classCode_le (c : TrafficClass) : classCode c ≤ 3 := by cases c <;> decide

/-- The header's class byte carries the class in its upper two bits and the kind in its lower six. -/
theorem Frame.classByte_toNat (f : Frame) : f.classByte.toNat = classCode f.cls * 64 + f.kind.toNat := by
  have hclass := classCode_le f.cls
  have hkind : f.kind.toNat < 64 := f.kind.isLt
  unfold Frame.classByte
  rw [BitVec.toNat_ofNat]
  exact Nat.mod_eq_of_lt (by norm_num; omega)

/-- The check's answer: the bytes' length and CRC are those of a frame, and its fields are the frame's (R7). -/
theorem Frame.check_eq_some (bs : List Byte) (f : Frame) : Frame.check bs = some f ↔
    fieldAt bs 8 2 ≤ 1024 ∧ bs.length = 16 + fieldAt bs 8 2 ∧
      fieldAt bs (12 + fieldAt bs 8 2) 4 = (crc32 (bs.take (12 + fieldAt bs 8 2))).toNat ∧ classOf (fieldAt bs 0 1 / 64) = some f.cls ∧
      f = { cls := f.cls, kind := BitVec.ofNat 6 (fieldAt bs 0 1), source := bs.getD 1 0, flags := bs.getD 2 0, sequence := bs.getD 3 0,
            dest := BitVec.ofNat 32 (fieldAt bs 4 4), tag := BitVec.ofNat 16 (fieldAt bs 10 2),
            payload := (bs.drop 12).take (fieldAt bs 8 2) } := by
  unfold Frame.check
  simp only
  split
  · next hshort => exact ⟨nofun, fun ⟨_, hlen, _⟩ => by omega⟩
  · split
    · next hlong => exact ⟨nofun, fun ⟨hle, _⟩ => by omega⟩
    · next hle =>
      split
      · next hlen => exact ⟨nofun, fun ⟨_, hl, _⟩ => absurd hl hlen⟩
      · next hlen =>
        split
        · next hcrc => exact ⟨nofun, fun ⟨_, _, hc, _⟩ => absurd hc hcrc⟩
        · next hcrc =>
          cases hclass : classOf (fieldAt bs 0 1 / 64) with
          | none => exact ⟨nofun, fun ⟨_, _, _, hc, _⟩ => by cases hc⟩
          | some cls =>
            simp only [Option.some.injEq]
            refine ⟨fun he => ?_, fun ⟨_, _, _, hc, hf⟩ => ?_⟩
            · subst he
              exact ⟨by omega, not_not.mp hlen, not_not.mp hcrc, rfl, rfl⟩
            · rw [hc]
              exact hf.symm

/-- The fields of a header, with whatever follows it. -/
theorem Frame.encode_fields (f : Frame) (rest : List Byte) (hlen : f.payload.length ≤ 1024) :
    fieldAt (f.encode ++ rest) 0 1 = f.classByte.toNat ∧ (f.encode ++ rest).getD 1 0 = f.source ∧ (f.encode ++ rest).getD 2 0 = f.flags ∧
      (f.encode ++ rest).getD 3 0 = f.sequence ∧ fieldAt (f.encode ++ rest) 4 4 = f.dest.toNat ∧
      fieldAt (f.encode ++ rest) 8 2 = f.payload.length ∧ fieldAt (f.encode ++ rest) 10 2 = f.tag.toNat ∧
      ((f.encode ++ rest).drop 12).take f.payload.length = f.payload := by
  have hdest : f.dest.toNat % 4294967296 = f.dest.toNat := Nat.mod_eq_of_lt f.dest.isLt
  have hpayload : f.payload.length % 65536 = f.payload.length := Nat.mod_eq_of_lt (by omega)
  have htag : f.tag.toNat % 65536 = f.tag.toNat := Nat.mod_eq_of_lt f.tag.isLt
  have hshape : f.encode ++ rest = [f.classByte, f.source, f.flags, f.sequence] ++
      (be 4 f.dest.toNat ++ (be 2 f.payload.length ++ (be 2 f.tag.toNat ++ (f.payload ++ rest)))) := by
    simp [Frame.encode, List.append_assoc]
  rw [hshape]
  refine ⟨by simp [fieldAt, ofBe], rfl, rfl, rfl, ?_, ?_, ?_, ?_⟩
  · simp only [fieldAt_append, fieldAt_be_zero, List.length_cons, List.length_nil, le_refl, Nat.sub_self]
    exact hdest
  · rw [fieldAt_append _ _ _ _ (by simp), fieldAt_append _ _ _ _ (by simp), be_length, show 8 - _ - 4 = 0 from rfl, fieldAt_be_zero]
    exact hpayload
  · rw [fieldAt_append _ _ _ _ (by simp), fieldAt_append _ _ _ _ (by simp), fieldAt_append _ _ _ _ (by simp), be_length, be_length,
      show 10 - _ - 4 - 2 = 0 from rfl, fieldAt_be_zero]
    exact htag
  · rw [← List.append_assoc, ← List.append_assoc, ← List.append_assoc, List.drop_left' (by simp), List.take_left' rfl]

/-- A frame as it is sent passes the check. -/
theorem Frame.check_wire (f : Frame) (hlen : f.payload.length ≤ 1024) : Frame.check f.wire = some f := by
  obtain ⟨hclass, hsource, hflags, hsequence, hdest, hlength, htag, hpayload⟩ := f.encode_fields (be 4 (crc32 f.encode).toNat) hlen
  have hkind : f.kind.toNat < 64 := f.kind.isLt
  have hcrc : (crc32 f.encode).toNat % 4294967296 = (crc32 f.encode).toNat := Nat.mod_eq_of_lt (crc32 f.encode).isLt
  rw [Frame.check_eq_some]
  unfold Frame.wire
  rw [hlength, hclass, f.classByte_toNat, hsource, hflags, hsequence, hdest, htag, hpayload]
  refine ⟨hlen, ?_, ?_, ?_, ?_⟩
  · rw [List.length_append, Frame.encode_length, be_length]; omega
  · rw [List.take_left' (Frame.encode_length f), fieldAt_append _ _ _ _ (by rw [Frame.encode_length]), Frame.encode_length, Nat.sub_self,
      fieldAt_be_only]
    exact hcrc
  · rw [show (classCode f.cls * 64 + f.kind.toNat) / 64 = classCode f.cls by omega]
    exact classOf_classCode f.cls
  · have hkindBits : BitVec.ofNat 6 (classCode f.cls * 64 + f.kind.toNat) = f.kind := by
      apply BitVec.eq_of_toNat_eq
      rw [BitVec.toNat_ofNat]
      omega
    rw [hkindBits, BitVec.ofNat_toNat, BitVec.ofNat_toNat, BitVec.setWidth_eq, BitVec.setWidth_eq]

/-- Bytes with the next field split off. -/
theorem drop_field (bs : List Byte) (off k : Nat) (hk : off + k ≤ bs.length) : bs.drop off = be k (fieldAt bs off k) ++ bs.drop (off + k) := by
  rw [be_fieldAt bs off k hk, ← List.drop_drop, List.take_append_drop]

theorem take_four (bs : List Byte) (hlen : 4 ≤ bs.length) : bs.take 4 = [bs.getD 0 0, bs.getD 1 0, bs.getD 2 0, bs.getD 3 0] := by
  match bs, hlen with
  | _ :: _ :: _ :: _ :: _, _ => rfl

/-- Bytes that pass the check are a frame as it is sent. -/
theorem Frame.wire_of_check {bs : List Byte} {f : Frame} (hf : Frame.check bs = some f) : f.payload.length ≤ 1024 ∧ bs = f.wire := by
  obtain ⟨hle, hlen, hcrc, hclass, hfields⟩ := (Frame.check_eq_some bs f).mp hf
  have hpayload : f.payload = (bs.drop 12).take (fieldAt bs 8 2) := by rw [hfields]
  have hlength : f.payload.length = fieldAt bs 8 2 := by rw [hpayload, List.length_take, List.length_drop]; omega
  have hdest : f.dest.toNat = fieldAt bs 4 4 := by
    rw [hfields]
    exact (BitVec.toNat_ofNat _ _).trans (Nat.mod_eq_of_lt (fieldAt_lt bs 4 4))
  have htag : f.tag.toNat = fieldAt bs 10 2 := by
    rw [hfields]
    exact (BitVec.toNat_ofNat _ _).trans (Nat.mod_eq_of_lt (fieldAt_lt bs 10 2))
  have hbyte : f.classByte = bs.getD 0 0 := by
    apply BitVec.eq_of_toNat_eq
    have hfirst : fieldAt bs 0 1 = (bs.getD 0 0).toNat := by
      match bs, hlen with
      | b :: _, _ => simp [fieldAt, ofBe]
    have hkind : f.kind.toNat = fieldAt bs 0 1 % 64 := by
      rw [hfields]
      exact BitVec.toNat_ofNat _ _
    rw [f.classByte_toNat, classCode_of_classOf hclass, hkind, ← hfirst]
    omega
  have htail : bs.drop (12 + fieldAt bs 8 2) = be 4 (fieldAt bs (12 + fieldAt bs 8 2) 4) := by
    rw [drop_field bs _ 4 (by omega), List.drop_of_length_le (by omega), List.append_nil]
  have hsplit : (bs.drop 12).take (fieldAt bs 8 2) ++ bs.drop (12 + fieldAt bs 8 2) = bs.drop 12 := by
    rw [← List.drop_drop, List.take_append_drop]
  have hbs : bs = f.encode ++ be 4 (fieldAt bs (12 + fieldAt bs 8 2) 4) := by
    calc bs = bs.take 4 ++ bs.drop 4 := (List.take_append_drop 4 bs).symm
      _ = [bs.getD 0 0, bs.getD 1 0, bs.getD 2 0, bs.getD 3 0] ++ (be 4 (fieldAt bs 4 4) ++ (be 2 (fieldAt bs 8 2) ++
          (be 2 (fieldAt bs 10 2) ++ ((bs.drop 12).take (fieldAt bs 8 2) ++ bs.drop (12 + fieldAt bs 8 2))))) := by
        rw [take_four bs (by omega), drop_field bs 4 4 (by omega), drop_field bs 8 2 (by omega), drop_field bs 10 2 (by omega),
          hsplit]
      _ = f.encode ++ be 4 (fieldAt bs (12 + fieldAt bs 8 2) 4) := by
        have hsource : f.source = bs.getD 1 0 := by rw [hfields]
        have hflags : f.flags = bs.getD 2 0 := by rw [hfields]
        have hsequence : f.sequence = bs.getD 3 0 := by rw [hfields]
        unfold Frame.encode
        rw [hbyte, hsource, hflags, hsequence, hdest, hlength, htag, hpayload, htail]
        simp only [List.append_assoc]
  have hencode : bs.take (12 + fieldAt bs 8 2) = f.encode := by
    rw [hbs]
    exact List.take_left' (by rw [← hbs, Frame.encode_length, hlength])
  refine ⟨hlength.trans_le hle, ?_⟩
  unfold Frame.wire
  rw [← hencode, ← hcrc]
  conv_lhs => rw [hbs]
  rw [hencode]

/-- Settles O40: the header's fields, the payload and the CRC are read back, and determine every byte. -/
theorem frameIsReadBack : Obligations.FrameIsReadBack := fun _ _ =>
  ⟨Frame.wire_of_check, fun ⟨hlen, he⟩ => he ▸ Frame.check_wire _ hlen⟩

/-! ## FRAME_RECEIVED -/

theorem exec_frameReceived (s : State) (n : Slot) (dt : Nat) (bytes : List Byte) (whole : Bool) :
    exec (.frameReceived n dt bytes whole) s = s.onHub fun h => (h.run dt).receive n bytes whole := rfl

/-- What a link's monitor comes to at an errored frame (R11). -/
def Monitor.counted (m : Monitor) (threshold : Nat) : Monitor :=
  if m.reached then m else { m with errored := m.errored + 1, reached := decide (threshold ≤ m.errored + 1) }

/-- What an errored frame leaves (R8, R11). -/
structure Hub.Errored (h g : Hub) (n : Slot) : Prop where
  rx : g.links[n].rx = h.links[n].rx
  handedOn : g.ports[n].handedOn = h.ports[n].handedOn
  counters : g.ports[n].counters = { h.ports[n].counters with errored := h.ports[n].counters.errored + 1 }
  slots : g.slots = h.slots
  clock : g.clock = h.clock
  monitor : g.links[n].monitor = h.links[n].monitor.counted h.tables.ports[n].threshold

/-- What is told of a change leaves what an errored frame has changed. -/
theorem Hub.Errored.handsOn {h k g : Hub} {n : Slot} (he : Hub.Errored h k n) (hands : Hub.HandsOn k g) : Hub.Errored h g n where
  rx := by rw [hands.links n]; exact he.rx
  handedOn := by rw [hands.ports n]; exact he.handedOn
  counters := by rw [hands.ports n]; exact he.counters
  slots := hands.slots.trans he.slots
  clock := hands.clock.trans he.clock
  monitor := by rw [hands.links n]; exact he.monitor

/-- The errored frame counted at the port, and in the monitor as `m`. -/
def Hub.errorCounted (h : Hub) (n : Slot) (m : Monitor) : Hub :=
  (h.count n fun c => { c with errored := c.errored + 1 }).modLink n fun l => { l with monitor := m }

theorem Hub.errorCounted_errored {h : Hub} {n : Slot} {m : Monitor} (hm : m = h.links[n].monitor.counted h.tables.ports[n].threshold) :
    Hub.Errored h (h.errorCounted n m) n where
  rx := by unfold Hub.errorCounted; rw [Hub.modLink_self]; rfl
  handedOn := by unfold Hub.errorCounted Hub.count; rw [Hub.modLink_ports, Hub.modPort_self]
  counters := by unfold Hub.errorCounted Hub.count; rw [Hub.modLink_ports, Hub.modPort_self]
  slots := rfl
  clock := rfl
  monitor := by unfold Hub.errorCounted; rw [Hub.modLink_self]; exact hm

/-- An errored frame after the one that reached the threshold counts at the port alone. -/
theorem Hub.countErrored_reached {h : Hub} {n : Slot} (hreached : h.links[n].monitor.reached = true) :
    h.countErrored n = h.count n fun c => { c with errored := c.errored + 1 } := if_pos hreached

/-- One below the threshold counts in the monitor too. -/
theorem Hub.countErrored_below {h : Hub} {n : Slot} (hreached : h.links[n].monitor.reached = false)
    (hbelow : ¬ h.tables.ports[n].threshold ≤ h.links[n].monitor.errored + 1) :
    h.countErrored n = h.errorCounted n { h.links[n].monitor with errored := h.links[n].monitor.errored + 1 } :=
  (if_neg (Bool.eq_false_iff.mp hreached)).trans (if_neg hbelow)

/-- The one that reaches the threshold raises LINK_ERRORS. -/
theorem Hub.countErrored_at {h : Hub} {n : Slot} (hreached : h.links[n].monitor.reached = false)
    (hthreshold : h.tables.ports[n].threshold ≤ h.links[n].monitor.errored + 1) :
    h.countErrored n =
      (h.errorCounted n { h.links[n].monitor with errored := h.links[n].monitor.errored + 1, reached := true }).raise (.slot n .linkErrors) :=
  (if_neg (Bool.eq_false_iff.mp hreached)).trans (if_pos hthreshold)

theorem Monitor.counted_of_reached {m : Monitor} (threshold : Nat) (hreached : m.reached = true) : m.counted threshold = m := if_pos hreached

theorem Monitor.counted_of_not_reached {m : Monitor} (threshold : Nat) (hreached : m.reached = false) :
    m.counted threshold = { m with errored := m.errored + 1, reached := decide (threshold ≤ m.errored + 1) } :=
  if_neg (Bool.eq_false_iff.mp hreached)

theorem Hub.countErrored_errored (h : Hub) (n : Slot) : Hub.Errored h (h.countErrored n) n := by
  cases hreached : h.links[n].monitor.reached with
  | true =>
    rw [Hub.countErrored_reached hreached]
    exact ⟨rfl, by unfold Hub.count; rw [Hub.modPort_self], by unfold Hub.count; rw [Hub.modPort_self], rfl, rfl,
      (Monitor.counted_of_reached _ hreached).symm⟩
  | false =>
    by_cases hthreshold : h.tables.ports[n].threshold ≤ h.links[n].monitor.errored + 1
    · rw [Hub.countErrored_at hreached hthreshold]
      refine (Hub.errorCounted_errored ?_).handsOn (Hub.raise_handsOn _ _)
      rw [Monitor.counted_of_not_reached _ hreached, decide_eq_true hthreshold]
    · rw [Hub.countErrored_below hreached hthreshold]
      refine Hub.errorCounted_errored ?_
      rw [Monitor.counted_of_not_reached _ hreached, decide_eq_false hthreshold, ← hreached]

/-- The frame that reaches the threshold raises LINK_ERRORS. -/
theorem Hub.countErrored_raises {h : Hub} {n : Slot} (hreached : h.links[n].monitor.reached = false)
    (hthreshold : h.tables.ports[n].threshold ≤ h.links[n].monitor.errored + 1) (hroom : h.AlarmRoom) :
    (h.countErrored n).isActive (.slot n .linkErrors) = true := by
  rw [Hub.countErrored_at hreached hthreshold]
  refine Hub.raise_isActive (.inl ?_)
  obtain ⟨-, hlen⟩ := hroom
  exact Nat.lt_of_lt_of_le hlen (by decide)

/-- Bytes on a link that is not LOCKED belong to no frame. -/
theorem Hub.receive_of_not_locked {h : Hub} {n : Slot} (bytes : List Byte) (whole : Bool) (hl : h.links[n].state ≠ .locked) :
    h.receive n bytes whole = h := if_neg hl

/-- On a LOCKED one they are kept until the frame is whole. -/
theorem Hub.receive_part {h : Hub} {n : Slot} (bytes : List Byte) (hl : h.links[n].state = .locked) :
    h.receive n bytes false =
      h.modLink n fun l => { l with rx := some (h.links[n].received { time := h.clock.now, elapsed := h.clock.elapsed } bytes) } :=
  if_pos hl

/-- A whole frame goes through the checks. -/
theorem Hub.receive_whole {h : Hub} {n : Slot} (bytes : List Byte) (hl : h.links[n].state = .locked) :
    h.receive n bytes true = (h.modLink n fun l => { l with rx := none }).checkFrame n
      (h.links[n].received { time := h.clock.now, elapsed := h.clock.elapsed } bytes).bytes
      (h.links[n].received { time := h.clock.now, elapsed := h.clock.elapsed } bytes).arrival :=
  if_pos hl

theorem Hub.checkFrame_of_bad {h : Hub} {n : Slot} {bytes : List Byte} (arrival : Arrival) (hbad : Frame.check bytes = none) :
    h.checkFrame n bytes arrival = h.countErrored n := by
  unfold Hub.checkFrame
  rw [hbad]

theorem Hub.checkFrame_of_violation {h : Hub} {n : Slot} {bytes : List Byte} {f : Frame} (arrival : Arrival) (hgood : Frame.check bytes = some f)
    (hcls : f.cls = .timing) (hdest : inAgentRange f.dest = false) :
    h.checkFrame n bytes arrival = h.count n fun c => { c with classViolations := c.classViolations + 1 } := by
  unfold Hub.checkFrame
  rw [hgood]
  exact if_pos ⟨hcls, by rw [hdest]; rfl⟩

theorem Hub.checkFrame_of_good {h : Hub} {n : Slot} {bytes : List Byte} {f : Frame} (arrival : Arrival) (hgood : Frame.check bytes = some f)
    (hpass : ¬ (f.cls = .timing ∧ inAgentRange f.dest = false)) :
    h.checkFrame n bytes arrival = h.modPort n fun p =>
      { p with handedOn := p.handedOn ++ [{ frame := { f with source := BitVec.ofNat 8 (Slot.number n) },
                                            arrival := if f.cls = .timing then some arrival else none }]
               counters := { p.counters with framesReceived := p.counters.framesReceived + 1 } } := by
  unfold Hub.checkFrame
  rw [hgood]
  exact if_neg fun ⟨hcls, hdest⟩ => hpass ⟨hcls, by simpa using hdest⟩

/-- Settles O41, by the link's state, whether the frame is whole, and the checks of section 1.3 in order. -/
theorem frameReceived : Obligations.FrameReceived := by
  intro s n dt bytes
  refine ⟨fun whole hl => ?_, fun hrx => ?_, fun begun hrx => ?_, fun hl => ?_, fun hl f hgood hcls hdest => ?_, fun hl f hgood hpass => ?_,
    fun hl hbad => ?_⟩
  · rw [exec_frameReceived]
    exact State.onHub_to (Hub.receive_of_not_locked (h := s.hub.run dt) bytes whole hl)
  · unfold Link.received
    rw [hrx]
  · unfold Link.received
    rw [hrx]
  · rw [exec_frameReceived]
    exact State.onHub_to (Hub.receive_part (h := s.hub.run dt) bytes hl)
  · rw [exec_frameReceived]
    exact State.onHub_to ((Hub.receive_whole (h := s.hub.run dt) bytes hl).trans (Hub.checkFrame_of_violation _ hgood hcls hdest))
  · rw [exec_frameReceived]
    exact State.onHub_to ((Hub.receive_whole (h := s.hub.run dt) bytes hl).trans (Hub.checkFrame_of_good _ hgood hpass))
  · have heq := (Hub.receive_whole (h := s.hub.run dt) bytes hl).trans (Hub.checkFrame_of_bad _ hbad)
    refine ⟨_, (exec_frameReceived s n dt bytes true).trans (State.onHub_to heq), ?_⟩
    dsimp only
    have hmonitor : ((s.hub.run dt).modLink n fun l => { l with rx := none }).links[n].monitor = s.hub.links[n].monitor := by
      rw [Hub.modLink_self]; rfl
    have hraises := fun hreached hthreshold hroom =>
      Hub.countErrored_raises (h := (s.hub.run dt).modLink n fun l => { l with rx := none }) (n := n) hreached hthreshold hroom
    obtain ⟨hrx, hhanded, hcounters, hslots, hclock, hm⟩ :=
      ((s.hub.run dt).modLink n fun l => { l with rx := none }).countErrored_errored n
    rw [hmonitor] at hm hraises
    refine ⟨hrx.trans (by rw [Hub.modLink_self]), hhanded, hslots, hclock, hcounters, fun hreached => ?_, hraises, fun hreached => ?_⟩
    · rw [hm]; exact Monitor.counted_of_not_reached _ hreached
    · rw [hm]; exact Monitor.counted_of_reached _ hreached

/-! ## The window lookup -/

theorem Window.claims_iff (w : Window) (f : Frame) (n : Slot) : w.claims f n = true ↔
    w.enabled = true ∧ w.base.toNat ≤ f.dest.toNat ∧ f.dest.toNat < w.base.toNat + 2 ^ w.sizeExp ∧
      (f.cls = .control ∧ w.classes.control = true ∨ f.cls = .bulk ∧ w.classes.bulk = true) ∧ Mask.has w.sources n = true := by
  have hclass : w.classes.includes f.cls = true ↔
      (f.cls = .control ∧ w.classes.control = true ∨ f.cls = .bulk ∧ w.classes.bulk = true) := by
    cases f.cls <;> simp [ClassFilter.includes]
  unfold Window.claims Window.contains Window.size
  simp only [Bool.and_eq_true, decide_eq_true_eq, hclass, and_assoc]

/-- A block of an aligned base ends within the address space. -/
theorem aligned_block_le (base : BitVec 32) {exp : Nat} (hexp : exp ≤ 31) (haligned : base.toNat % 2 ^ exp = 0) :
    base.toNat + 2 ^ exp ≤ 2 ^ 32 := by
  obtain ⟨q, hq⟩ := Nat.dvd_of_mod_eq_zero haligned
  have hspace : 2 ^ 32 = 2 ^ exp * 2 ^ (32 - exp) := by rw [← Nat.pow_add]; congr 1; omega
  have hlt : 2 ^ exp * q < 2 ^ exp * 2 ^ (32 - exp) := by rw [← hq, ← hspace]; exact base.isLt
  have hblocks : q + 1 ≤ 2 ^ (32 - exp) := Nat.lt_of_mul_lt_mul_left hlt
  calc base.toNat + 2 ^ exp = 2 ^ exp * (q + 1) := by rw [hq, Nat.mul_succ]
    _ ≤ 2 ^ exp * 2 ^ (32 - exp) := Nat.mul_le_mul_left _ hblocks
    _ = 2 ^ 32 := hspace.symm

/-- A remapped destination keeps its offset in the window (R21). -/
theorem Window.rewrite_dest {w : Window} {f : Frame} {base : BitVec 32} (hremap : w.remap = some base) (hlegal : w.Legal)
    (hbase : w.base.toNat ≤ f.dest.toNat) (hend : f.dest.toNat < w.base.toNat + 2 ^ w.sizeExp) :
    (w.rewrite f).dest.toNat = base.toNat + (f.dest.toNat - w.base.toNat) ∧ (w.rewrite f).dest.toNat < base.toNat + w.size := by
  obtain ⟨-, hexp, -, haligned, -⟩ := hlegal
  have hblock := aligned_block_le base hexp (haligned base hremap)
  have hoffset : (f.dest - w.base).toNat = f.dest.toNat - w.base.toNat := BitVec.toNat_sub_of_le hbase
  have hdest : (w.rewrite f).dest.toNat = base.toNat + (f.dest.toNat - w.base.toNat) := by
    unfold Window.rewrite
    rw [hremap]
    show (base + (f.dest - w.base)).toNat = _
    rw [BitVec.toNat_add, hoffset]
    exact Nat.mod_eq_of_lt (by omega)
  refine ⟨hdest, hdest ▸ ?_⟩
  unfold Window.size
  omega

theorem Window.rewrite_frame (w : Window) (f : Frame) : w.rewrite f = { f with dest := (w.rewrite f).dest } := by
  unfold Window.rewrite
  cases w.remap <;> rfl

theorem Window.rewrite_of_none {w : Window} (f : Frame) (hremap : w.remap = none) : w.rewrite f = f := by
  unfold Window.rewrite
  rw [hremap]

/-- The matching window of lowest index claims the frame (R20). -/
theorem Tables.route_of_claims {t : Tables} {f : Frame} {n : Slot} {i : Fin 32} (hi : t.windows[i].claims f n = true)
    (hlow : ∀ j : Fin 32, j < i → t.windows[j].claims f n = false) : t.route f n = some (t.windows[i].target, t.windows[i].rewrite f) := by
  have hfind : t.windows.toList.find? (fun w => w.claims f n) = some t.windows[i] := by
    refine List.find?_eq_some_iff_getElem.mpr ⟨hi, i.val, by simp, by simp, fun j hj => ?_⟩
    have hlt : j < 32 := hj.trans i.isLt
    simpa using hlow ⟨j, hlt⟩ hj
  unfold Tables.route
  rw [hfind]

/-- A frame that no window matches takes the default target (R22, R23). -/
theorem Tables.route_of_no_window {t : Tables} {f : Frame} {n : Slot} (hnone : ∀ i : Fin 32, t.windows[i].claims f n = false) :
    t.route f n = t.defaultTarget.map (·, f) := by
  have hfind : t.windows.toList.find? (fun w => w.claims f n) = none := by
    refine List.find?_eq_none.mpr fun w hw => ?_
    obtain ⟨i, hi, rfl⟩ := List.mem_iff_getElem.mp hw
    have hlt : i < 32 := by simpa using hi
    simpa using hnone ⟨i, hlt⟩
  unfold Tables.route
  rw [hfind]

/-- Settles O42: what a window matches, the first window that matches, and the default target where none does. -/
theorem windowLookup : Obligations.WindowLookup := by
  refine fun t f n => ⟨fun w => w.claims_iff f n, fun i hi hlow hlegal => ?_, fun hnone => ?_⟩
  · refine ⟨_, Tables.route_of_claims hi hlow, Window.rewrite_frame _ f, ?_⟩
    obtain ⟨-, hbase, hend, -⟩ := (Window.claims_iff _ f n).mp hi
    generalize t.windows[i] = w at *
    cases hremap : w.remap with
    | none => exact congrArg Frame.dest (Window.rewrite_of_none f hremap)
    | some base => exact Window.rewrite_dest hremap hlegal hbase hend
  · rw [Tables.route_of_no_window hnone]
    cases t.defaultTarget <;> rfl

/-! ## Classification -/

theorem exec_frameClassification (s : State) (n : Slot) : exec (.frameClassification n) s = s.onHub (·.classifyNext n) := rfl

theorem inAgentRange_iff (a : BitVec 32) : inAgentRange a = true ↔ 0xFFFFF000 ≤ a.toNat := by
  unfold inAgentRange
  exact decide_eq_true_iff

/-- The ingress state filter (R19). -/
theorem SlotRec.admits_iff (r : SlotRec) (agentBound : Bool) (kind : BitVec 6) : r.admits agentBound kind = true ↔ match r.state with
    | .forwarding => True
    | .draining => agentBound = true ∨ r.quiesced = false
    | .fenced => agentBound = true ∧ kind = Kind.cardAlarm
    | _ => agentBound = true := by
  unfold SlotRec.admits
  cases r.state <;> simp

/-- The hub with the first frame that a slot's link has handed on taken. -/
def Hub.taken (h : Hub) (n : Slot) (rest : List HandedOn) : Hub := h.modPort n fun p => { p with handedOn := rest }

theorem Hub.taken_port (h : Hub) (n : Slot) (rest : List HandedOn) : (h.taken n rest).ports[n] = { h.ports[n] with handedOn := rest } := by
  unfold Hub.taken
  rw [Hub.modPort_self]

theorem Hub.classifyNext_nil {h : Hub} {n : Slot} (hp : h.ports[n].handedOn = []) : h.classifyNext n = h := by
  unfold Hub.classifyNext
  rw [hp]

section
variable {h : Hub} {n : Slot} {e : HandedOn} {rest : List HandedOn}

theorem Hub.classifyNext_cons (hp : h.ports[n].handedOn = e :: rest) : h.classifyNext n = (h.taken n rest).classify n e := by
  unfold Hub.classifyNext
  rw [hp]
  rfl

theorem Hub.classify_of_filtered (hf : h.slots[n].admits (inAgentRange e.frame.dest) e.frame.kind = false) :
    h.classify n e = h.count n fun c => { c with sourceNotInService := c.sourceNotInService + 1 } :=
  if_pos (by rw [hf]; rfl)

theorem Hub.classify_of_agent (hf : h.slots[n].admits (inAgentRange e.frame.dest) e.frame.kind = true) (ha : inAgentRange e.frame.dest = true) :
    h.classify n e = h.inboxJoin n e :=
  (if_neg (by rw [hf]; decide)).trans (if_pos ha)

theorem Hub.classify_of_unroutable (hf : h.slots[n].admits (inAgentRange e.frame.dest) e.frame.kind = true)
    (ha : inAgentRange e.frame.dest = false) (hr : h.tables.route e.frame n = none) :
    h.classify n e = (h.count n fun c => { c with unroutable := c.unroutable + 1 }).raise (.slot n .unroutable) := by
  unfold Hub.classify
  simp only
  rw [if_neg (by rw [hf]; decide), if_neg (by rw [ha]; decide), hr]

theorem Hub.classify_of_route (hf : h.slots[n].admits (inAgentRange e.frame.dest) e.frame.kind = true)
    (ha : inAgentRange e.frame.dest = false) {target : Target} {f : Frame} (hr : h.tables.route e.frame n = some (target, f)) :
    h.classify n e = h.pendingJoin n { frame := f, target, targets := h.tables.targetSet target n } := by
  unfold Hub.classify
  simp only
  rw [if_neg (by rw [hf]; decide), if_neg (by rw [ha]; decide), hr]

/-- What a drop that an alarm tells of leaves (R54): the counter, the frames handed on, and every slot's record. -/
structure Hub.Dropped (h g : Hub) (n : Slot) (f : PortCounters → PortCounters) (key : AlarmKey) : Prop where
  counters : g.ports[n].counters = f h.ports[n].counters
  handedOn : g.ports[n].handedOn = h.ports[n].handedOn
  slots : g.slots = h.slots
  raised : h.AlarmRoom → g.isActive key = true

theorem Hub.countRaise_dropped (h : Hub) (n : Slot) (f : PortCounters → PortCounters) (key : AlarmKey) :
    Hub.Dropped h ((h.count n f).raise key) n f key := by
  have hands := (h.count n f).raise_handsOn key
  have hport : (h.count n f).ports[n] = { h.ports[n] with counters := f h.ports[n].counters } := by
    unfold Hub.count
    rw [Hub.modPort_self]
  refine ⟨?_, ?_, hands.slots, fun ⟨_, hlen⟩ => Hub.raise_isActive (.inl (Nat.lt_of_lt_of_le hlen (by decide)))⟩
  · rw [hands.ports n, hport]
  · rw [hands.ports n, hport]

end

/-! ## The three ends of classification -/

theorem Hub.inboxJoin_of_room {h : Hub} {n : Slot} {e : HandedOn} (hroom : h.agent.inbox.length < 16) : h.inboxJoin n e =
    { h with agent := { h.agent with inbox := h.agent.inbox ++ [{ frame := e.frame, slot := n, arrival := e.arrival }] } } := if_pos hroom

theorem Hub.inboxJoin_of_full {h : Hub} {n : Slot} {e : HandedOn} (hfull : 16 ≤ h.agent.inbox.length) : h.inboxJoin n e =
    { h with agent := { h.agent with inboxOverflows := h.agent.inboxOverflows + 1 } }.raise (.hub .agentOverload) :=
  if_neg (Nat.not_lt.mpr hfull)

section
variable {h : Hub} {n : Slot} {p : PendingFrame}

theorem Hub.pendingJoin_bulk (hcls : p.frame.cls = .bulk) (hroom : h.ports[n].pendBulk.length < 4) :
    h.pendingJoin n p = h.modPort n fun q => { q with pendBulk := q.pendBulk ++ [p] } := (if_pos hcls).trans (if_pos hroom)

theorem Hub.pendingJoin_control (hcls : p.frame.cls ≠ .bulk) (hroom : h.ports[n].pendControl.length < 4) :
    h.pendingJoin n p = h.modPort n fun q => { q with pendControl := q.pendControl ++ [p] } := (if_neg hcls).trans (if_pos hroom)

theorem Hub.pendingJoin_full (hfull : 4 ≤ (if p.frame.cls = .bulk then h.ports[n].pendBulk else h.ports[n].pendControl).length) :
    h.pendingJoin n p = h.storeFull n := by
  unfold Hub.pendingJoin
  by_cases hcls : p.frame.cls = .bulk
  · rw [if_pos hcls] at hfull ⊢
    exact if_neg (Nat.not_lt.mpr hfull)
  · rw [if_neg hcls] at hfull ⊢
    exact if_neg (Nat.not_lt.mpr hfull)

end

theorem Hub.taken_then_port (h : Hub) (n : Slot) (rest : List HandedOn) (f : Port → Port) :
    (h.taken n rest).modPort n f = { h with ports := h.ports.set n (f { h.ports[n] with handedOn := rest }) } := by
  unfold Hub.taken
  rw [Hub.modPort_modPort]
  rfl

theorem Tables.has_targetSet_group (t : Tables) (g : Fin 16) (n k : Slot) :
    Mask.has (t.targetSet (.group g) n) k = true ↔ Mask.has t.groups[g] k = true ∧ k ≠ n := by
  show Mask.has (Mask.erase t.groups[g] n) k = true ↔ _
  rw [Mask.has_erase, Bool.and_eq_true, Bool.not_eq_true', decide_eq_false_iff_not, ne_comm]

theorem Tables.has_targetSet_slot (t : Tables) (m n k : Slot) : Mask.has (t.targetSet (.slot m) n) k = true ↔ k = m := by
  show Mask.has (Mask.single m) k = true ↔ _
  rw [Mask.has_single, decide_eq_true_iff, eq_comm]

/-- A frame taken and dropped at its source, with an alarm. -/
theorem Hub.taken_dropped (h : Hub) (n : Slot) (rest : List HandedOn) (f : PortCounters → PortCounters) (key : AlarmKey) :
    let g := ((h.taken n rest).count n f).raise key
    g.ports[n].handedOn = rest ∧ g.slots = h.slots ∧ g.ports[n].counters = f h.ports[n].counters ∧
      (h.AlarmRoom → g.isActive key = true) := by
  obtain ⟨hcounters, hhanded, hslots, hraised⟩ := Hub.countRaise_dropped (h.taken n rest) n f key
  rw [Hub.taken_port] at hcounters hhanded
  exact ⟨hhanded, hslots, hcounters, hraised⟩

/-- A frame dropped at a full inbox (R156). -/
theorem Hub.inboxFull_leaves (h : Hub) (v : Counter) :
    let g := { h with agent := { h.agent with inboxOverflows := v } }.raise (.hub .agentOverload)
    g.agent.inbox = h.agent.inbox ∧ g.agent.inboxOverflows = v ∧ (∀ n : Slot, g.ports[n].handedOn = h.ports[n].handedOn) ∧ g.slots = h.slots ∧
      (h.AlarmRoom → g.isActive (.hub .agentOverload) = true) := by
  have hands := Hub.raise_handsOn { h with agent := { h.agent with inboxOverflows := v } } (.hub .agentOverload)
  have quiet := Hub.raise_quiet { h with agent := { h.agent with inboxOverflows := v } } (.hub .agentOverload)
  refine ⟨hands.inbox, by rw [quiet.agent], fun n => ?_, hands.slots,
    fun ⟨_, hlen⟩ => Hub.raise_isActive (.inl (Nat.lt_of_lt_of_le hlen (by decide)))⟩
  rw [hands.ports n]

/-- Settles O43: the filter, the agent range, the lookup and the pending list, in the order of R17. -/
theorem frameClassification : Obligations.FrameClassification := by
  intro s n e rest
  refine ⟨inAgentRange_iff _, SlotRec.admits_iff _ _ _, fun m k => Tables.has_targetSet_slot _ m n k,
    fun g k => Tables.has_targetSet_group _ g n k, fun hp => ?_, fun hp => ?_⟩
  · exact (exec_frameClassification s n).trans (State.onHub_same (Hub.classifyNext_nil hp))
  have hnext := Hub.classifyNext_cons hp
  refine ⟨fun hf => ?_, fun hf ha hroom => ?_, fun hf ha hfull => ?_, fun hf ha hr => ?_, fun target f hf ha hr => ?_⟩
  · exact (exec_frameClassification s n).trans
      (State.onHub_to ((hnext.trans (Hub.classify_of_filtered hf)).trans (Hub.taken_then_port _ n rest _)))
  · exact (exec_frameClassification s n).trans
      (State.onHub_to ((hnext.trans (Hub.classify_of_agent hf ha)).trans (Hub.inboxJoin_of_room hroom)))
  · have hjoin := (hnext.trans (Hub.classify_of_agent hf ha)).trans (Hub.inboxJoin_of_full hfull)
    obtain ⟨hinbox, hcount, hhanded, hslots, hraised⟩ := (s.hub.taken n rest).inboxFull_leaves (s.hub.agent.inboxOverflows + 1)
    have hport := (hhanded n).trans (congrArg Port.handedOn (s.hub.taken_port n rest))
    refine ⟨_, (exec_frameClassification s n).trans (State.onHub_to hjoin), ?_⟩
    exact ⟨hinbox, hcount, hport, hslots, hraised⟩
  · have hdropped := s.hub.taken_dropped n rest (fun c => { c with unroutable := c.unroutable + 1 }) (.slot n .unroutable)
    exact ⟨_, (exec_frameClassification s n).trans (State.onHub_to (hnext.trans (Hub.classify_of_unroutable hf ha hr))), hdropped⟩
  · have hroute : s.hub.classifyNext n = (s.hub.taken n rest).pendingJoin n
        { frame := f, target, targets := s.hub.tables.targetSet target n } :=
      hnext.trans (Hub.classify_of_route (h := s.hub.taken n rest) (n := n) (e := e) hf ha (target := target) (f := f) hr)
    refine ⟨fun hcls hroom => ?_, fun hcls hroom => ?_, fun hfull => ?_⟩
    · exact (exec_frameClassification s n).trans (State.onHub_to ((hroute.trans
        (Hub.pendingJoin_bulk hcls (by rw [Hub.taken_port]; exact hroom))).trans (Hub.taken_then_port _ n rest _)))
    · exact (exec_frameClassification s n).trans (State.onHub_to ((hroute.trans
        (Hub.pendingJoin_control hcls (by rw [Hub.taken_port]; exact hroom))).trans (Hub.taken_then_port _ n rest _)))
    · have hdropped := s.hub.taken_dropped n rest (fun c => { c with storeFull := c.storeFull + 1 }) (.hub .storeExhausted)
      exact ⟨_, (exec_frameClassification s n).trans
        (State.onHub_to (hroute.trans (Hub.pendingJoin_full (by rw [Hub.taken_port]; exact hfull)))), hdropped⟩

end Sys2Proof.Machine
end

section
/-! PROOFS. Requests of the tables, the counters and the transfers of the host port (chapters 3, 4, 7 and 10). -/

namespace Sys2Proof.Machine

section

variable {s : State} {h : Hub} {r : Request} {rest : List Request} {n : Slot}

/-- A request refused with BAD_PARAM, and nothing else changed (R176). -/
theorem State.refused_badParam {o : Host.Outcome State Fault Refusal} (act : Hub → Hub)
    (ho : o = .next { s with hub := act (s.hub.popRequest rest) })
    (hact : act (s.hub.popRequest rest) = (s.hub.popRequest rest).refuse r .badParam) :
    ∃ t, o = .next t ∧ s.hub.Refused t.hub r rest .badParam := by
  obtain ⟨t, hnext, -, -, hrefused⟩ := State.refused_of_next (r := r) (rest := rest) (status := .badParam) (o := o) (s := s) (hact ▸ ho)
  exact ⟨t, hnext, hrefused⟩

theorem clampStatus_ne {α : Type} [BEq α] [LawfulBEq α] [DecidableEq α] (applied asked : α) :
    clampStatus (applied != asked) = if applied = asked then .ok else .clamped := by
  unfold clampStatus
  by_cases he : applied = asked
  · rw [if_pos he, if_neg (by simpa using he)]
  · rw [if_neg he, if_pos (by simpa using he)]

/-! ## SLOT_PLAN_SET (R78) -/

theorem exec_slotPlanSet_of_takes (ht : s.hub.TakesFor Code.slotPlanSet r rest n) :
    exec .slotPlanSet s = .next { s with hub := Hub.planSet r n (s.hub.popRequest rest) } := State.onHub_takesFor ht Hub.planSet

theorem Hub.planSet_of_valid {entry : PlanEntry} (hp : parsePlan (r.body.drop 1) = some entry) : Hub.planSet r n h =
    { h with tables := { h.tables with plan := h.tables.plan.set n entry.clamp } }.judgeOutputs.answer r
      (clampStatus (entry.clamp != entry)) (.slotPlan entry.clamp) := by
  unfold Hub.planSet
  rw [hp]

theorem Hub.planSet_of_invalid (hp : parsePlan (r.body.drop 1) = none) : Hub.planSet r n h = h.refuse r .badParam := by
  unfold Hub.planSet
  rw [hp]

theorem PlanEntry.clamp_eq (p : PlanEntry) : p.clamp = { p with retryLimit := min 3 p.retryLimit } := by
  unfold PlanEntry.clamp clampNat
  rw [Nat.zero_max]

/-- The retry limit alone is clamped (R57). -/
theorem PlanEntry.clamp_eq_self (p : PlanEntry) : p.clamp = p ↔ ¬ 3 < p.retryLimit := by
  rw [PlanEntry.clamp_eq]
  constructor
  · intro he
    have hlimit : min 3 p.retryLimit = p.retryLimit := congrArg PlanEntry.retryLimit he
    omega
  · intro hle
    rw [show min 3 p.retryLimit = p.retryLimit by omega]

theorem PlanEntry.clampStatus_eq (p : PlanEntry) : clampStatus (p.clamp != p) = if 3 < p.retryLimit then .clamped else .ok := by
  rw [clampStatus_ne]
  by_cases hlimit : 3 < p.retryLimit
  · rw [if_pos hlimit, if_neg (fun he => (PlanEntry.clamp_eq_self p).mp he hlimit)]
  · rw [if_neg hlimit, if_pos ((PlanEntry.clamp_eq_self p).mpr hlimit)]

/-- The outputs judged after a change of the tables and of the port are those of the hub that it leaves. -/
theorem Hub.planSet_hub (rest : List Request) {entry : PlanEntry} (hp : parsePlan (r.body.drop 1) = some entry) :
    let g := Hub.planSet r n (h.popRequest rest)
    let applied : PlanEntry := { entry with retryLimit := min 3 entry.retryLimit }
    g = { h with
      tables := { h.tables with plan := h.tables.plan.set n applied }
      alarms := { h.alarms with lamps := g.lampLevels }
      port := h.port.answered r rest (if 3 < entry.retryLimit then .clamped else .ok) (.slotPlan applied) } := by
  intro g applied
  have hg : g = { (h.popRequest rest) with tables := { h.tables with plan := h.tables.plan.set n applied } }.judgeOutputs.answer r
      (if 3 < entry.retryLimit then .clamped else .ok) (.slotPlan applied) := by
    show Hub.planSet r n (h.popRequest rest) = _
    rw [Hub.planSet_of_valid hp, PlanEntry.clampStatus_eq, PlanEntry.clamp_eq]
    rfl
  rw [hg]
  rfl

/-! ## BUDGET_SET (R77, R80) -/

theorem exec_budgetSet_of_takes (ht : s.hub.Takes Code.budgetSet r rest) :
    exec .budgetSet s = .next { s with hub := Hub.budgetSet r (s.hub.popRequest rest) } := State.onHub_take ht Hub.budgetSet

/-- The hub with the three values of BUDGET_SET in effect. -/
def Hub.withBudget (h : Hub) (b : BudgetRec) : Hub :=
  { h with tables := { h.tables with budget := b.budget, recoveryWindow := b.recoveryWindow, drainTimeout := b.drainTimeout } }

/-- The hub as it stands when the reply is formed: a budget above the one before serves the list. -/
def Hub.budgeted (h : Hub) (b : BudgetRec) : Hub :=
  if h.tables.budget < b.budget then (h.withBudget b).serve.1.announceGrants (h.withBudget b).serve.2 else h.withBudget b

theorem Hub.budgetSet_of_short (hb : (parseBudget r.body).clamp.budget < h.committed) :
    Hub.budgetSet r h = h.answer r .badState h.budgetBody := if_pos hb

theorem Hub.budgetSet_of_enough (hb : h.committed ≤ (parseBudget r.body).clamp.budget) :
    Hub.budgetSet r h = (h.budgeted (parseBudget r.body).clamp).answer r
      (clampStatus ((parseBudget r.body).clamp != parseBudget r.body)) (h.budgeted (parseBudget r.body).clamp).budgetBody :=
  if_neg (Nat.not_lt.mpr hb)

/-- What the service and its notices leave: the tables as set and the inbound queue. -/
theorem Hub.budgeted_leaves (h : Hub) (b : BudgetRec) : (h.budgeted b).tables = (h.withBudget b).tables ∧
    (h.budgeted b).port.inbound = h.port.inbound ∧ (h.tables.budget < b.budget → (h.budgeted b).ListServed) ∧
    (b.budget ≤ h.tables.budget → (h.budgeted b).slots = h.slots) := by
  unfold Hub.budgeted
  by_cases hb : h.tables.budget < b.budget
  · rw [if_pos hb]
    have hands := Hub.announceGrants_handsOn (h.withBudget b).serve.1 (h.withBudget b).serve.2
    have hframe := (h.withBudget b).serve_frame
    refine ⟨?_, ?_, fun _ => hands.listServed (h.withBudget b).serve_listServed, fun hle => absurd hb (Nat.not_lt.mpr hle)⟩
    · rw [hands.tables, hframe]
    · rw [hands.inbound, hframe]
      rfl
  · rw [if_neg hb]
    exact ⟨rfl, rfl, fun hlt => absurd hlt hb, fun _ => rfl⟩

/-- What an accepted BUDGET_SET leaves (R77, R80). -/
theorem Hub.budgetSet_leaves (rest : List Request) (hb : h.committed ≤ (parseBudget r.body).clamp.budget) :
    let b := (parseBudget r.body).clamp
    let g := Hub.budgetSet r (h.popRequest rest)
    g.tables = { h.tables with budget := b.budget, recoveryWindow := b.recoveryWindow, drainTimeout := b.drainTimeout } ∧
      (h.tables.budget < b.budget → g.ListServed) ∧ (b.budget ≤ h.tables.budget → g.slots = h.slots) ∧
      g.port.Replied r rest (if b = parseBudget r.body then .ok else .clamped)
        (.budget b.budget g.committed g.manager.waitList b.recoveryWindow b.drainTimeout) := by
  intro b g
  have hg : g = ((h.popRequest rest).budgeted b).answer r (if b = parseBudget r.body then .ok else .clamped)
      ((h.popRequest rest).budgeted b).budgetBody := by
    rw [← clampStatus_ne]
    exact Hub.budgetSet_of_enough hb
  obtain ⟨htables, hinbound, hserved, hslots⟩ := (h.popRequest rest).budgeted_leaves b
  rw [hg]
  generalize (h.popRequest rest).budgeted b = k at *
  have hbody : k.budgetBody = .budget b.budget k.committed k.manager.waitList b.recoveryWindow b.drainTimeout := by
    unfold Hub.budgetBody
    rw [htables]
    rfl
  refine ⟨htables, hserved, hslots, ?_⟩
  rw [hbody]
  exact Hub.answer_replied k r _ _ hinbound

/-! ## WINDOW_SET (R28) -/

theorem exec_windowSet_of_takes (ht : s.hub.Takes Code.windowSet r rest) :
    exec .windowSet s = .next { s with hub := Hub.windowSet r (s.hub.popRequest rest) } := State.onHub_take ht Hub.windowSet

theorem indexOf_val {size v : Nat} {i : Fin size} (hv : v = i.val) : indexOf size v = some i := by
  subst hv
  exact dif_pos i.isLt

theorem indexOf_none {size v : Nat} (hv : size ≤ v) : indexOf size v = none := dif_neg (Nat.not_lt.mpr hv)

theorem Hub.windowSet_of_valid {i : Fin 32} {w : Window} (hi : fieldAt r.body 0 1 = i.val) (hw : parseWindow (r.body.drop 1) = some w) :
    Hub.windowSet r h = { h with tables := { h.tables with windows := h.tables.windows.set i w } }.answer r .ok (.window w) := by
  unfold Hub.windowSet
  rw [indexOf_val hi, hw]

theorem Hub.windowSet_of_invalid (hn : 32 ≤ fieldAt r.body 0 1 ∨ parseWindow (r.body.drop 1) = none) :
    Hub.windowSet r h = h.refuse r .badParam := by
  unfold Hub.windowSet
  obtain hi | hw := hn
  · rw [indexOf_none hi]
  · rw [hw]
    cases indexOf 32 (fieldAt r.body 0 1) <;> rfl

/-! ## PORT_LIMIT_SET (R53) -/

theorem exec_portLimitSet_of_takes (ht : s.hub.TakesFor Code.portLimitSet r rest n) :
    exec .portLimitSet s = .next { s with hub := Hub.portLimitSet r n (s.hub.popRequest rest) } :=
  State.onHub_takesFor ht Hub.portLimitSet

theorem Hub.portLimitSet_of_short (hl : (parsePortLimit (r.body.drop 1)).clamp.limit < h.occupancy n) :
    Hub.portLimitSet r n h = h.answer r .badState (.portLimit h.tables.ports[n] (h.occupancy n)) := if_pos hl

theorem PortLimit.clampStatus_eq (applied asked : PortLimit) :
    (if applied != asked then Status.clamped else .ok) = if applied = asked then .ok else .clamped := clampStatus_ne applied asked

theorem Hub.portLimitSet_of_enough (hl : ¬ (parsePortLimit (r.body.drop 1)).clamp.limit < h.occupancy n) :
    Hub.portLimitSet r n h =
      { h with tables := { h.tables with ports := h.tables.ports.set n (parsePortLimit (r.body.drop 1)).clamp } }.answer r
        (if (parsePortLimit (r.body.drop 1)).clamp = parsePortLimit (r.body.drop 1) then .ok else .clamped)
        (.portLimit (parsePortLimit (r.body.drop 1)).clamp (h.occupancy n)) := by
  rw [← PortLimit.clampStatus_eq]
  exact if_neg hl

/-! ## ASYMMETRY_SET (R130) -/

theorem exec_asymmetrySet_of_takes (ht : s.hub.TakesFor Code.asymmetrySet r rest n) :
    exec .asymmetrySet s = .next { s with hub := Hub.asymmetrySet r n (s.hub.popRequest rest) } :=
  State.onHub_takesFor ht Hub.asymmetrySet

theorem fieldAt_drop (bs : List Byte) (a off k : Nat) : fieldAt (bs.drop a) off k = fieldAt bs (a + off) k := by
  unfold fieldAt
  rw [List.drop_drop]

theorem parseAsymmetry_of_range {bs : List Byte} (hlow : -4000 ≤ toSigned 2 (fieldAt bs 1 2)) (hhigh : toSigned 2 (fieldAt bs 1 2) ≤ 4000) :
    parseAsymmetry (bs.drop 1) = some (toSigned 2 (fieldAt bs 1 2)) := by
  unfold parseAsymmetry
  rw [fieldAt_drop, Nat.add_zero]
  exact if_neg (by omega)

theorem parseAsymmetry_of_outside {bs : List Byte} (ha : toSigned 2 (fieldAt bs 1 2) < -4000 ∨ 4000 < toSigned 2 (fieldAt bs 1 2)) :
    parseAsymmetry (bs.drop 1) = none := by
  unfold parseAsymmetry
  rw [fieldAt_drop]
  exact if_pos ha

theorem Hub.asymmetrySet_of_valid {a : Int} (ha : parseAsymmetry (r.body.drop 1) = some a) : Hub.asymmetrySet r n h =
    { h with tables := { h.tables with asymmetry := h.tables.asymmetry.set n a } }.answer r .ok
      (.asymmetry h.tables.asymmetry[n] a h.trecs[n].target h.trecs[n].applied) := by
  unfold Hub.asymmetrySet
  rw [ha]

theorem Hub.asymmetrySet_of_invalid (ha : parseAsymmetry (r.body.drop 1) = none) : Hub.asymmetrySet r n h = h.refuse r .badParam := by
  unfold Hub.asymmetrySet
  rw [ha]

end

/-- Settles O58: each request's value is parsed or refused, and stored as the reply gives it. -/
theorem settingRequests : Obligations.SettingRequests := by
  intro s r rest
  refine ⟨fun n ht => ⟨fun entry hp => ?_, fun hp => ?_⟩, fun ht => ⟨fun hb => ?_, fun hb => ?_⟩, fun ht => ⟨fun i w hi hw => ?_, fun hn => ?_⟩,
    fun n ht => ?_, fun n ht => ⟨fun hlow hhigh => ?_, fun ha => ?_⟩⟩
  · exact ⟨_, exec_slotPlanSet_of_takes ht, Hub.planSet_hub rest hp⟩
  · exact State.refused_badParam (Hub.planSet r n) (exec_slotPlanSet_of_takes ht) (Hub.planSet_of_invalid hp)
  · rw [exec_budgetSet_of_takes ht, Hub.budgetSet_of_short (h := s.hub.popRequest rest) hb]
    rfl
  · have hleaves := Hub.budgetSet_leaves rest hb
    refine ⟨_, exec_budgetSet_of_takes ht, ?_⟩
    dsimp only at hleaves ⊢
    generalize Hub.budgetSet r (s.hub.popRequest rest) = g at *
    exact hleaves
  · refine ⟨parseWindow_legal hw, ?_⟩
    rw [exec_windowSet_of_takes ht, Hub.windowSet_of_valid hi hw]
    rfl
  · exact State.refused_badParam (Hub.windowSet r) (exec_windowSet_of_takes ht) (Hub.windowSet_of_invalid hn)
  · by_cases hl : (parsePortLimit (r.body.drop 1)).clamp.limit < s.hub.occupancy n
    · rw [exec_portLimitSet_of_takes ht, Hub.portLimitSet_of_short (h := s.hub.popRequest rest) hl]
      exact (if_pos hl).symm
    · rw [exec_portLimitSet_of_takes ht, Hub.portLimitSet_of_enough (h := s.hub.popRequest rest) hl]
      exact (if_neg hl).symm
  · rw [exec_asymmetrySet_of_takes ht, Hub.asymmetrySet_of_valid (parseAsymmetry_of_range hlow hhigh)]
    rfl
  · exact State.refused_badParam (Hub.asymmetrySet r n) (exec_asymmetrySet_of_takes ht)
      (Hub.asymmetrySet_of_invalid (parseAsymmetry_of_outside ha))

/-! ## PORT_COUNTS (R52) -/

section

variable {s : State} {h : Hub} {r : Request} {rest : List Request} {n : Slot}

theorem exec_portCounts (s : State) : exec .portCounts s = s.onHub (Hub.take Code.portCounts fun r => Hub.withSlot r (Hub.portCounts r)) := rfl

theorem Hub.withSlot_of_number {act : Slot → Hub → Hub} (hn : Slot.ofNumber (fieldAt r.body 0 1) = some n) :
    Hub.withSlot r act h = act n h := by
  unfold Hub.withSlot
  rw [hn]

theorem Hub.withSlot_of_no_number {act : Slot → Hub → Hub} (hn : Slot.ofNumber (fieldAt r.body 0 1) = none) :
    Hub.withSlot r act h = h.refuse r .badParam := by
  unfold Hub.withSlot
  rw [hn]

theorem Hub.portCounts_of_flag {clear : Bool} (hc : boolOf (fieldAt r.body 1 1) = some clear) :
    Hub.portCounts r n h = (if clear then h.count n fun _ => {} else h).answer r .ok (.portCounts (h.portCountsBody n)) := by
  unfold Hub.portCounts
  rw [hc]

theorem Hub.portCounts_of_no_flag (hc : boolOf (fieldAt r.body 1 1) = none) : Hub.portCounts r n h = h.refuse r .badParam := by
  unfold Hub.portCounts
  rw [hc]

theorem boolOf_none {v : Nat} (hv : 2 ≤ v) : boolOf v = none := (if_neg (by omega)).trans (if_neg (by omega))

/-- The bodies that PORT_COUNTS refuses (R188). -/
theorem Hub.portCounts_refused (hbad : fieldAt r.body 0 1 < 1 ∨ 12 < fieldAt r.body 0 1 ∨ 2 ≤ fieldAt r.body 1 1) :
    Hub.withSlot r (Hub.portCounts r) h = h.refuse r .badParam := by
  cases hn : Slot.ofNumber (fieldAt r.body 0 1) with
  | none => exact Hub.withSlot_of_no_number hn
  | some n =>
    have hnumber := Slot.ofNumber_eq hn
    have hn12 : n.val < 12 := n.isLt
    rw [Hub.withSlot_of_number hn]
    exact Hub.portCounts_of_no_flag (boolOf_none (by omega))

end

/-- Settles O56: the counters read and cleared in one event, and a refusal whose body keeps the free counts (R34). -/
theorem portCounts : Obligations.PortCounts := by
  intro s r rest h p body ht
  have htaken := State.onHub_take ht fun r => Hub.withSlot r (Hub.portCounts r)
  refine ⟨fun n hn hflag => ?_, fun hbad => ?_⟩
  · rw [exec_portCounts, htaken, Hub.withSlot_of_number (Slot.ofNumber_val hn)]
    obtain hclear | hkeep : fieldAt r.body 1 1 = 1 ∨ fieldAt r.body 1 1 = 0 := by omega
    · rw [Hub.portCounts_of_flag (clear := true) (by rw [hclear]; rfl), if_pos hclear]
      rfl
    · rw [Hub.portCounts_of_flag (clear := false) (by rw [hkeep]; rfl), hkeep]
      rfl
  · obtain ⟨fields, hlength, hencode⟩ := refusedPortCounts_cases h.draws h.store.freeShared h.store.freeReserve
    obtain ⟨-, -, -, hcode, -⟩ := ht
    have hexec : exec .portCounts s = .next { s with hub := (s.hub.popRequest rest).refuse r .badParam } := by
      rw [exec_portCounts, htaken, Hub.portCounts_refused hbad]
    refine ⟨_, _, fields, hexec, rfl, rfl, Hub.popRequest_refuse h r rest .badParam, ?_, fun n => ?_⟩
    · rw [hcode, Hub.refusalBody_portCounts]
      exact hencode
    · rw [hlength]
      exact (encPortCounts_length (body n)).symm

/-! ## The transfers of the host port (R171, R172, R175) -/

section

variable {s : State} {h : Hub} {p : HostPort} {bs : List Byte}

theorem exec_writeTransfer (s : State) (hprst : Bool) (bytes : List Byte) :
    exec (.writeTransfer hprst bytes) s = s.onHub (·.writeBytes hprst bytes) := rfl

theorem exec_readTransfer (s : State) (hprst : Bool) (t : Byte) (started : Bool) (clocked : Nat) :
    exec (.readTransfer hprst t started clocked) s =
      s.onHub fun h => if hprst || t != Code.readType then h else h.readBytes started clocked := rfl

/-- Another type byte, or HPRST asserted, is no transfer (R171, R181). -/
theorem not_a_transfer {hprst : Bool} {t own : Byte} (hn : hprst = true ∨ t ≠ own) : (hprst || t != own) = true := by
  obtain rfl | hne := hn
  · rfl
  · rw [bne_iff_ne.mpr hne, Bool.or_true]

theorem Hub.writeBytes_own (h : Hub) (bs : List Byte) :
    h.writeBytes false (Code.writeType :: bs) = { h with port := h.port.write h.config.loading bs } := by
  unfold Hub.writeBytes
  exact if_neg (by decide)

theorem HostPort.write_truncated (loading : Bool) (hlen : bs.length < 6) :
    p.write loading bs = { p with truncatedWrites := p.truncatedWrites + 1 } := if_pos hlen

theorem HostPort.write_discarded {loading : Bool} (hlen : 6 ≤ bs.length) (hfull : loading = true ∨ 8 ≤ p.openCount) :
    p.write loading bs = { p with requestsDiscarded := p.requestsDiscarded + 1, overrun := true } :=
  (if_neg (Nat.not_lt.mpr hlen)).trans (if_pos (by simpa using hfull))

theorem HostPort.write_wellSized (hlen : 6 ≤ bs.length) (hopen : p.openCount < 8) (hsized : wellSized bs = true) :
    p.write false bs = { p with openCount := p.openCount + 1, inbound := p.inbound ++ [requestOf bs] } :=
  (if_neg (Nat.not_lt.mpr hlen)).trans ((if_neg (by simpa using hopen)).trans (if_pos hsized))

theorem HostPort.write_badLength (hlen : 6 ≤ bs.length) (hopen : p.openCount < 8) (hsized : wellSized bs = false) :
    p.write false bs = { p with openCount := p.openCount + 1, lengthErrors := p.lengthErrors + 1 }.reply (requestOf bs).tag (requestOf bs).code
      .badLength .empty :=
  (if_neg (Nat.not_lt.mpr hlen)).trans ((if_neg (by simpa using hopen)).trans (if_neg (Bool.eq_false_iff.mp hsized)))

/-- The bytes of a write: a head of four, a length and a body (R190). -/
theorem writeBytes_fields (kind code tag flags : Byte) {length : Nat} (body : List Byte) (hl : length < 65536) :
    fieldAt ([kind, code, tag, flags] ++ be 2 length ++ body) 4 2 = length ∧
      ([kind, code, tag, flags] ++ be 2 length ++ body).length = 6 + body.length ∧
      requestOf ([kind, code, tag, flags] ++ be 2 length ++ body) = { kind, code, tag, flags, body } := by
  refine ⟨?_, ?_, ?_⟩
  · rw [List.append_assoc, fieldAt_append _ _ _ _ (by simp), show 4 - _ = 0 from rfl, fieldAt_be_zero]
    exact Nat.mod_eq_of_lt (by norm_num; omega)
  · rw [List.length_append, List.length_append, be_length]
    rfl
  · unfold requestOf
    rw [List.drop_left' (by rw [List.length_append, be_length]; rfl)]
    rfl

theorem wellSized_iff (bs : List Byte) : wellSized bs = true ↔ fieldAt bs 4 2 ≤ 1024 ∧ bs.length = 6 + fieldAt bs 4 2 := by
  unfold wellSized
  rw [Bool.and_eq_true, decide_eq_true_iff, beq_iff_eq]

theorem Hub.readBytes_empty {started : Bool} {clocked : Nat} (he : started = true ∨ h.port.outbound = []) :
    h.readBytes started clocked = { h with port := { h.port with driven := emptyMarker.take clocked } } := by
  unfold Hub.readBytes
  cases ho : h.port.outbound with
  | nil => rfl
  | cons m later => exact if_pos (he.resolve_right (by rw [ho]; nofun))

variable {m : Message} {later : List Message} {clocked : Nat}

theorem Hub.readBytes_part (ho : h.port.outbound = m :: later) (hc : clocked < m.encode.length) :
    h.readBytes false clocked = { h with port := { h.port with driven := m.encode.take clocked } } := by
  unfold Hub.readBytes
  rw [ho]
  exact if_neg (Nat.not_le.mpr hc)

theorem Hub.readBytes_whole (ho : h.port.outbound = m :: later) (hc : m.encode.length ≤ clocked)
    (hreset : (m.isResetReply && h.port.resetPending) = false) :
    h.readBytes false clocked = { h with port := { h.port with
      driven := m.encode, outbound := later, attn := !later.isEmpty
      openCount := if m.isReply then h.port.openCount - 1 else h.port.openCount } } := by
  unfold Hub.readBytes
  rw [ho]
  refine (if_pos hc).trans ?_
  unfold Hub.readWhole
  refine (if_neg (Bool.eq_false_iff.mp hreset)).trans ?_
  rw [List.take_of_length_le hc]

theorem resetRead_eq_false (hn : ¬ (m.isReply = true ∧ m.code = Code.hubReset ∧ m.status = .ok ∧ h.port.resetPending = true)) :
    (m.isResetReply && h.port.resetPending) = false := by
  rw [Bool.eq_false_iff]
  intro htrue
  unfold Message.isResetReply at htrue
  simp only [Bool.and_eq_true, beq_iff_eq] at htrue
  obtain ⟨⟨⟨hreply, hcode⟩, hstatus⟩, hpending⟩ := htrue
  exact hn ⟨hreply, hcode, hstatus, hpending⟩

end

/-- Settles O51: a write by its length, by what is open and by its size; a read by the head message and the bytes clocked. -/
theorem transfers : Obligations.Transfers := by
  intro s
  have hwrite (bs : List Byte) : exec (.writeTransfer false (Code.writeType :: bs)) s =
      .next { s with hub := { s.hub with port := s.hub.port.write s.hub.config.loading bs } } :=
    (exec_writeTransfer s _ _).trans (State.onHub_to (s.hub.writeBytes_own bs))
  have hread (started : Bool) (clocked : Nat) : exec (.readTransfer false Code.readType started clocked) s =
      .next { s with hub := s.hub.readBytes started clocked } :=
    (exec_readTransfer s _ _ _ _).trans (State.onHub_to (if_neg (by decide)))
  refine ⟨fun bs hlen => ?_, fun bs hlen hfull => ?_, fun kind code tag flags body hlen hloading hopen => ?_,
    fun kind code tag flags length body hl hloading hopen hbad => ?_, fun hprst t bs hn => ?_, fun hprst t started clocked hn => ?_,
    fun started clocked he => ?_, fun m later clocked ho => ⟨fun hc => ?_, fun hc hn => ?_⟩⟩
  · rw [← HostPort.write_truncated s.hub.config.loading hlen]
    exact hwrite bs
  · rw [← HostPort.write_discarded hlen hfull]
    exact hwrite bs
  · obtain ⟨hfield, hlength, hrequest⟩ := writeBytes_fields kind code tag flags body (length := body.length) (by omega)
    have heq := HostPort.write_wellSized (p := s.hub.port) (bs := [kind, code, tag, flags] ++ be 2 body.length ++ body) (by omega) hopen ((wellSized_iff _).mpr ⟨by omega, by omega⟩)
    have hnext := hwrite ([kind, code, tag, flags] ++ be 2 body.length ++ body)
    rw [hloading, heq, hrequest] at hnext
    exact hnext
  · obtain ⟨hfield, hlength, hrequest⟩ := writeBytes_fields kind code tag flags body hl
    have heq := HostPort.write_badLength (p := s.hub.port) (bs := [kind, code, tag, flags] ++ be 2 length ++ body) (by omega) hopen
      (Bool.eq_false_iff.mpr fun htrue => by
        obtain ⟨hle, hsum⟩ := (wellSized_iff _).mp htrue
        omega)
    have hnext := hwrite ([kind, code, tag, flags] ++ be 2 length ++ body)
    rw [hloading, heq, hrequest] at hnext
    exact hnext
  · exact (exec_writeTransfer s _ _).trans (State.onHub_same (if_pos (not_a_transfer hn)))
  · exact (exec_readTransfer s _ _ _ _).trans (State.onHub_same (if_pos (not_a_transfer hn)))
  · exact (hread started clocked).trans (by rw [Hub.readBytes_empty he]; rfl)
  · exact (hread false clocked).trans (by rw [Hub.readBytes_part ho hc])
  · exact (hread false clocked).trans (by rw [Hub.readBytes_whole ho hc (resetRead_eq_false hn)])

end Sys2Proof.Machine
end

section
/-! PROOFS. Frames and requests that are not accepted (R158, R159, R173, R176), and the requests that read. -/

namespace Sys2Proof.Machine

/-! ## The forms of agent frames (R158) -/

theorem ofCode_isSome {α : Type} (l : List α) (v : Nat) : (ofCode l v).isSome = true ↔ 1 ≤ v ∧ v ≤ l.length := by
  cases v with
  | zero => exact ⟨nofun, fun ⟨hpos, _⟩ => absurd hpos (by decide)⟩
  | succ k => simp [ofCode]

theorem parseIdentity_isSome (p : List Byte) : (parseIdentity p).isSome = true ↔
    7 ≤ p.length ∧ p.length = 7 + fieldAt p 6 1 ∧ fieldAt p 6 1 ≤ 16 ∧ (1 ≤ fieldAt p 0 1 ∧ fieldAt p 0 1 ≤ 6) ∧
      (1 ≤ fieldAt p 4 1 ∧ fieldAt p 4 1 ≤ 4) := by
  have hkind : (ofCode cardKinds (fieldAt p 0 1)).isSome = true ↔ 1 ≤ fieldAt p 0 1 ∧ fieldAt p 0 1 ≤ 6 := ofCode_isSome _ _
  have hclass : (ofCode powerClasses (fieldAt p 4 1)).isSome = true ↔ 1 ≤ fieldAt p 4 1 ∧ fieldAt p 4 1 ≤ 4 := ofCode_isSome _ _
  rw [← hkind, ← hclass]
  unfold parseIdentity
  cases ofCode cardKinds (fieldAt p 0 1) with
  | none => simp
  | some kind =>
    cases ofCode powerClasses (fieldAt p 4 1) with
    | none => simp
    | some declared =>
      simp only [Option.bind_eq_bind, Option.bind_some, Option.isSome_some, and_true]
      split
      · next hbad =>
        simp only [Bool.or_eq_true, decide_eq_true_eq, bne_iff_ne] at hbad
        exact ⟨nofun, fun ⟨_, _, _⟩ => by omega⟩
      · next hgood =>
        simp only [Bool.or_eq_true, decide_eq_true_eq, bne_iff_ne] at hgood
        exact ⟨fun _ => by omega, fun _ => rfl⟩

theorem parseSourceReport_isSome (p : List Byte) : (parseSourceReport p).isSome = true ↔ p.length = 7 ∧ fieldAt p 6 1 ≤ 1 := by
  have hflag : (boolOf (fieldAt p 6 1)).isSome = true ↔ fieldAt p 6 1 ≤ 1 := by
    unfold boolOf
    split
    · next hzero => exact ⟨fun _ => by omega, fun _ => rfl⟩
    · split
      · next hone => exact ⟨fun _ => by omega, fun _ => rfl⟩
      · next hzero hone => exact ⟨nofun, fun _ => by omega⟩
  unfold parseSourceReport
  split
  · next hlen => rw [Option.isSome_map, hflag, and_iff_right hlen]
  · next hlen => exact ⟨nofun, fun ⟨hl, _⟩ => absurd hl hlen⟩

theorem parseCardAlarm_isSome (p : List Byte) : (parseCardAlarm p).isSome = true ↔
    p.length = 4 ∧ (fieldAt p 2 1 = 1 ∨ fieldAt p 2 1 = 2) ∧ (1 ≤ fieldAt p 3 1 ∧ fieldAt p 3 1 ≤ 4) := by
  have hsev : (ofCode severities (fieldAt p 3 1)).isSome = true ↔ 1 ≤ fieldAt p 3 1 ∧ fieldAt p 3 1 ≤ 4 := ofCode_isSome _ _
  rw [← hsev]
  unfold parseCardAlarm
  by_cases hlen : p.length = 4
  · rw [if_pos hlen]
    cases ofCode severities (fieldAt p 3 1) with
    | none =>
      split
      · next heq => cases heq
      · next heq => cases heq
      · exact ⟨nofun, fun ⟨_, _, hs⟩ => by cases hs⟩
    | some sev =>
      split
      · next h1 _ => exact ⟨fun _ => ⟨hlen, .inl h1, rfl⟩, fun _ => rfl⟩
      · next h2 _ => exact ⟨fun _ => ⟨hlen, .inr h2, rfl⟩, fun _ => rfl⟩
      · next hn1 hn2 => exact ⟨nofun, fun ⟨_, hone, _⟩ => hone.elim (fun h1 => absurd rfl (hn1 sev h1)) fun h2 => absurd rfl (hn2 sev h2)⟩
  · rw [if_neg hlen]
    exact ⟨nofun, fun ⟨hl, _⟩ => absurd hl hlen⟩

/-- The length of a SWEEP_REPLY's value, by the sweep in flight (section 9.4). -/
def Sweep.valueFits (w : Sweep) (len : Nat) : Bool := if w.inFlight then w.item.fits len else len ≤ 32

theorem parseSweepReply_isSome (w : Sweep) (p : List Byte) : (parseSweepReply w p).isSome = true ↔
    p.length = 1 + fieldAt p 0 1 ∧ 1 ≤ fieldAt p 0 1 ∧ w.valueFits (fieldAt p 0 1) = true := by
  unfold parseSweepReply
  show (if (decide (p.length = 1 + fieldAt p 0 1) && decide (1 ≤ fieldAt p 0 1) && w.valueFits (fieldAt p 0 1)) = true then some (p.drop 1)
    else none).isSome = true ↔ _
  split
  · next hgood =>
    simp only [Bool.and_eq_true, decide_eq_true_eq] at hgood
    obtain ⟨⟨hlen, hpos⟩, hfits⟩ := hgood
    exact ⟨fun _ => ⟨hlen, hpos, hfits⟩, fun _ => rfl⟩
  · next hbad =>
    refine ⟨nofun, fun ⟨hlen, hpos, hfits⟩ => absurd ?_ hbad⟩
    simp only [Bool.and_eq_true, decide_eq_true_eq]
    exact ⟨⟨hlen, hpos⟩, hfits⟩

/-- The first judgment, kind by kind (R158). -/
theorem Hub.formOk_iff (h : Hub) (f : Frame) : h.formOk f = true ↔
    f.kind = Kind.identityReply ∧ f.cls = .control ∧ (parseIdentity f.payload).isSome = true ∨
    f.kind = Kind.quiesced ∧ f.cls = .control ∧ f.payload.length = 0 ∨
    f.kind = Kind.probeReply ∧ f.cls = .timing ∧ f.payload.length = 4 ∨
    f.kind = Kind.phaseReport ∧ f.cls = .control ∧ f.payload.length = 4 ∨
    f.kind = Kind.sourceReport ∧ f.cls = .timing ∧ (parseSourceReport f.payload).isSome = true ∨
    f.kind = Kind.cardAlarm ∧ f.cls = .control ∧ (parseCardAlarm f.payload).isSome = true ∨
    f.kind = Kind.sweepReply ∧ f.cls = .control ∧ (parseSweepReply h.agent.sweep f.payload).isSome = true := by
  simp only [Hub.formOk, Kind.identityReply, Kind.quiesced, Kind.probeReply, Kind.phaseReport,
    Kind.sourceReport, Kind.cardAlarm, Kind.sweepReply]
  split
  · next hk => simp [hk]
  · next h1 =>
    split
    · next hk => simp [hk]
    · next h2 =>
      split
      · next hk => simp [hk]
      · next h3 =>
        split
        · next hk => simp [hk]
        · next h4 =>
          split
          · next hk => simp [hk]
          · next h5 =>
            split
            · next hk => simp [hk]
            · next h6 =>
              split
              · next hk => simp [hk]
              · next h7 => simp [h1, h2, h3, h4, h5, h6, h7]

/-! ## The second judgment (R159) -/

section

variable {h : Hub} {f : Frame} {n : Slot}

theorem Hub.accepts_identityReply_iff (hk : f.kind = Kind.identityReply) : h.accepts f n = true ↔ h.slots[n].state = .identifying := by
  simp [Hub.accepts, hk]

theorem Hub.accepts_quiesced_iff (hk : f.kind = Kind.quiesced) : h.accepts f n = true ↔ h.slots[n].state = .draining := by
  simp [Hub.accepts, hk, Kind.identityReply, Kind.quiesced]

theorem Hub.accepts_probeReply_iff (hk : f.kind = Kind.probeReply) : h.accepts f n = true ↔ h.trecs[n].probe ≠ none := by
  simp [Hub.accepts, hk, Kind.identityReply, Kind.quiesced, Kind.probeReply, Option.isSome_iff_ne_none]

theorem Hub.accepts_phaseReport_iff (hk : f.kind = Kind.phaseReport) : h.accepts f n = true ↔
    h.slots[n].state = .forwarding ∧ h.slots[n].identity.any (fun i => i.caps.timeSink || i.caps.timeSource) = true := by
  simp [Hub.accepts, hk, Kind.identityReply, Kind.quiesced, Kind.probeReply, Kind.phaseReport, Hub.eligible, Hub.hasCap]

theorem Hub.accepts_sourceReport_iff (hk : f.kind = Kind.sourceReport) : h.accepts f n = true ↔ h.slots[n].state = .forwarding := by
  simp [Hub.accepts, hk, Kind.identityReply, Kind.quiesced, Kind.probeReply, Kind.phaseReport, Kind.sourceReport]

theorem Hub.accepts_cardAlarm_iff (hk : f.kind = Kind.cardAlarm) : h.accepts f n = true ↔
    h.slots[n].state = .forwarding ∨ h.slots[n].state = .draining ∨ h.slots[n].state = .fenced := by
  simp [Hub.accepts, hk, Kind.identityReply, Kind.quiesced, Kind.probeReply, Kind.phaseReport, Kind.sourceReport, Kind.cardAlarm, or_assoc]

theorem Hub.accepts_sweepReply_iff (hk : f.kind = Kind.sweepReply) : h.accepts f n = true ↔
    h.agent.sweep.inFlight = true ∧ Mask.has h.agent.sweep.pending n = true ∧ f.sequence = h.agent.sweep.number := by
  simp [Hub.accepts, hk, Kind.identityReply, Kind.quiesced, Kind.probeReply, Kind.phaseReport, Kind.sourceReport, Kind.cardAlarm, Kind.sweepReply, and_assoc]

end

/-! ## The rows of the inbox -/

/-- The kinds that a card sends, with the row that dispatches each (R157). -/
def frameRows : List (BitVec 6 × Instr) :=
  [(Kind.identityReply, .identityReply), (Kind.quiesced, .quiesced), (Kind.probeReply, .probeReply), (Kind.phaseReport, .phaseReport),
   (Kind.sourceReport, .sourceReport), (Kind.cardAlarm, .cardAlarm), (Kind.sweepReply, .sweepReply)]

theorem exec_frameRow : ∀ p ∈ frameRows, ∃ act, ∀ s : State, exec p.2 s = s.onHub (Hub.dispatch p.1 act) := by
  unfold frameRows
  simp only [List.forall_mem_cons, List.not_mem_nil, false_implies, implies_true, and_true]
  and_intros <;> exact ⟨_, fun _ => rfl⟩

theorem exec_frameRow_refused {s : State} {kind : BitVec 6} {c : Instr} {e : InboxFrame} {rest : List InboxFrame} (hc : (kind, c) ∈ frameRows)
    (he : s.hub.agent.inbox = e :: rest) (hk : e.frame.kind = kind) (hf : s.hub.formOk e.frame = true)
    (ha : s.hub.accepts e.frame e.slot = false) : exec c s = .next { s with hub := (s.hub.popInbox rest).stateDiscard e.slot } := by
  obtain ⟨act, hexec⟩ := exec_frameRow _ hc
  exact (hexec s).trans (State.onHub_to (Hub.dispatch_refused act he hk hf ha))

theorem exec_invalidAgentFrame {s : State} {e : InboxFrame} {rest : List InboxFrame} (he : s.hub.agent.inbox = e :: rest)
    (hf : s.hub.formOk e.frame = false) : exec .invalidAgentFrame s = .next { s with hub := (s.hub.popInbox rest).formDiscard e.slot } := by
  have hinvalid : s.hub.invalidFrame = (s.hub.popInbox rest).formDiscard e.slot := by
    unfold Hub.invalidFrame
    rw [he]
    exact if_neg (Bool.eq_false_iff.mp hf)
  exact State.onHub_to hinvalid

/-! ## Requests that are not accepted (R173) -/

section

variable {s : State} {h : Hub} {r : Request} {rest : List Request}

theorem Hub.take_of_badLength {code : Byte} (act : Request → Hub → Hub) (hi : h.port.inbound = r :: rest) (hp : h.port.resetPending = false)
    (hk : r.kind = 1) (hcode : r.code = code) (hl : bodyLengthOk code r.body = false) :
    Hub.take code act h = (h.popRequest rest).answer r .badLength .empty := by
  simp [Hub.take, hi, hp, hk, hcode, hl]

theorem exec_unknownRequest (hi : s.hub.port.inbound = r :: rest) (hp : s.hub.port.resetPending = false)
    (hn : r.kind ≠ 1 ∨ isRequestCode r.code = false) :
    exec .unknownRequest s = .next { s with hub := (s.hub.popRequest rest).answer r .unknownRequest .empty } := by
  have hunknown : s.hub.unknownRequest = (s.hub.popRequest rest).answer r .unknownRequest .empty := by
    unfold Hub.unknownRequest
    rw [hi]
    refine if_neg ?_
    rw [hp, Bool.false_or, Bool.and_eq_true, beq_iff_eq]
    exact fun ⟨hk, hc⟩ => hn.elim (absurd hk) fun hc' => absurd hc (Bool.eq_false_iff.mp hc')
  exact State.onHub_to hunknown

/-- The requests of a slot, with the row that takes each. -/
def slotRequestRows : List (Byte × Instr) :=
  [(Code.slotPlanSet, .slotPlanSet), (Code.slotQuery, .slotQuery), (Code.slotPower, .slotPower), (Code.slotAdmit, .slotAdmit),
   (Code.slotRelease, .slotRelease), (Code.slotFence, .slotFence), (Code.slotRestore, .slotRestore), (Code.slotRestart, .slotRestart),
   (Code.slotLinkReset, .slotLinkReset), (Code.portLimitSet, .portLimitSet), (Code.portCounts, .portCounts),
   (Code.slotTimingQuery, .slotTimingQuery), (Code.asymmetrySet, .asymmetrySet)]

theorem exec_slotRequestRow : ∀ p ∈ slotRequestRows, ∃ act : Request → Slot → Hub → Hub, ∀ s : State,
    exec p.2 s = s.onHub (Hub.take p.1 fun r => Hub.withSlot r (act r)) := by
  unfold slotRequestRows
  simp only [List.forall_mem_cons, List.not_mem_nil, false_implies, implies_true, and_true]
  and_intros <;> exact ⟨_, fun _ => rfl⟩

theorem mem_slotRequestRows : ∀ p ∈ requestRows, p.2 ∈ slotRequestRows.map (·.2) → p ∈ slotRequestRows := by decide

/-- The first judgment with the lengths and codes of each body written out (R158). -/
theorem Hub.formOk_fields (h : Hub) (f : Frame) (fits : Prop)
    (hfits : 1 ≤ fieldAt f.payload 0 1 ∧ h.agent.sweep.valueFits (fieldAt f.payload 0 1) = true ↔ fits) : h.formOk f = true ↔
    f.kind = Kind.identityReply ∧ f.cls = .control ∧ 7 ≤ f.payload.length ∧ f.payload.length = 7 + fieldAt f.payload 6 1 ∧
      fieldAt f.payload 6 1 ≤ 16 ∧ (1 ≤ fieldAt f.payload 0 1 ∧ fieldAt f.payload 0 1 ≤ 6) ∧
      (1 ≤ fieldAt f.payload 4 1 ∧ fieldAt f.payload 4 1 ≤ 4) ∨
    f.kind = Kind.quiesced ∧ f.cls = .control ∧ f.payload.length = 0 ∨
    f.kind = Kind.probeReply ∧ f.cls = .timing ∧ f.payload.length = 4 ∨
    f.kind = Kind.phaseReport ∧ f.cls = .control ∧ f.payload.length = 4 ∨
    f.kind = Kind.sourceReport ∧ f.cls = .timing ∧ f.payload.length = 7 ∧ fieldAt f.payload 6 1 ≤ 1 ∨
    f.kind = Kind.cardAlarm ∧ f.cls = .control ∧ f.payload.length = 4 ∧ (fieldAt f.payload 2 1 = 1 ∨ fieldAt f.payload 2 1 = 2) ∧
      (1 ≤ fieldAt f.payload 3 1 ∧ fieldAt f.payload 3 1 ≤ 4) ∨
    f.kind = Kind.sweepReply ∧ f.cls = .control ∧ f.payload.length = 1 + fieldAt f.payload 0 1 ∧ fits := by
  rw [Hub.formOk_iff, parseIdentity_isSome, parseSourceReport_isSome, parseCardAlarm_isSome, parseSweepReply_isSome, hfits]

theorem Sweep.valueFits_iff (w : Sweep) (len : Nat) : 1 ≤ len ∧ w.valueFits len = true ↔
    (if w.inFlight then (w.item = .status ∨ w.item = .alarmSummary) ∧ len = 4 ∨ w.item = .temperature ∧ len = 2 ∨
        w.item = .inventory ∧ 1 ≤ len ∧ len ≤ 32
      else 1 ≤ len ∧ len ≤ 32) := by
  unfold Sweep.valueFits
  cases w.inFlight with
  | false => simp
  | true =>
    cases w.item <;> simp [SweepItem.fits] <;> omega

end

/-- Settles O52: the first judgment by the frame's kind, the second by the slot's state, and the refusals of R173 in its order. -/
theorem notAccepted : Obligations.NotAccepted := by
  intro s
  refine ⟨fun e rest he => ⟨?_, ⟨Hub.accepts_identityReply_iff, Hub.accepts_quiesced_iff, Hub.accepts_probeReply_iff, Hub.accepts_phaseReport_iff,
    Hub.accepts_sourceReport_iff, Hub.accepts_cardAlarm_iff, Hub.accepts_sweepReply_iff⟩, exec_invalidAgentFrame he, fun c hc hf ha => ?_⟩,
    fun r rest hi hp => ⟨exec_unknownRequest hi hp, fun hk c hc => ⟨fun hl => ?_, fun hslot hl hn => ?_⟩⟩⟩
  · refine s.hub.formOk_fields e.frame _ ((s.hub.agent.sweep.valueFits_iff _).trans ?_)
    cases s.hub.agent.sweep.inFlight with
    | false => simp
    | true => cases s.hub.agent.sweep.item <;> simp
  · have hrow : (e.frame.kind, c) ∈ frameRows := by
      obtain ⟨rfl, hk⟩ | ⟨rfl, hk⟩ | ⟨rfl, hk⟩ | ⟨rfl, hk⟩ | ⟨rfl, hk⟩ | ⟨rfl, hk⟩ | ⟨rfl, hk⟩ := hc
      all_goals
        rw [hk]
        decide
    exact exec_frameRow_refused hrow he rfl hf ha
  · obtain ⟨act, hexec⟩ := exec_requestRow _ hc
    exact (hexec s).trans (State.onHub_to (Hub.take_of_badLength act hi hp hk rfl hl))
  · obtain ⟨act, hexec⟩ := exec_slotRequestRow _ (mem_slotRequestRows _ hc hslot)
    have htakes : s.hub.Takes r.code r rest := ⟨hi, hp, hk, rfl, hl⟩
    refine State.refused_of_next ((hexec s).trans ((State.onHub_take htakes _).trans ?_))
    rw [Hub.withSlot_of_no_number (Slot.ofNumber_none hn)]

end Sys2Proof.Machine
end

section
/-! PROOFS. The requests that read (sections 2.6, 4.7, 6.7, 7.5, 8.8 and 10.6). -/

namespace Sys2Proof.Machine

/-! ## Positions of the alarm table (R155) -/

/-- A record stands at a position: position 0, or the place of an ordinary record counted from 1. -/
theorem Alarms.mem_fromPosition (a : Alarms) (start p : Nat) (x : AlarmRec) : (p, x) ∈ a.fromPosition start ↔
    start ≤ p ∧ if p = 0 then a.full = some x else a.recs[p - 1]? = some x := by
  unfold Alarms.fromPosition
  rw [List.mem_filter, decide_eq_true_iff, List.mem_append, List.mem_map, List.mem_map, and_comm]
  refine and_congr_right fun _ => ?_
  constructor
  · rintro (⟨y, hy, he⟩ | ⟨⟨y, i⟩, hy, he⟩)
    · obtain ⟨rfl, rfl⟩ := Prod.mk.injEq .. ▸ he
      exact (if_pos rfl).mpr (by simpa using hy)
    · obtain ⟨rfl, rfl⟩ := Prod.mk.injEq .. ▸ he
      exact (if_neg (Nat.succ_ne_zero i)).mpr (List.mem_zipIdx_iff_getElem?.mp hy)
  · intro hx
    by_cases hp : p = 0
    · rw [if_pos hp] at hx
      exact .inl ⟨x, by simpa using hx, by rw [hp]⟩
    · rw [if_neg hp] at hx
      exact .inr ⟨(x, p - 1), List.mem_zipIdx_iff_getElem?.mpr hx, by simp only [Prod.mk.injEq, and_true]; omega⟩

/-- The positions ascend. -/
theorem Alarms.fromPosition_ascends (a : Alarms) (start : Nat) : (a.fromPosition start).Pairwise fun x y => x.1 < y.1 := by
  refine List.Pairwise.filter _ (List.pairwise_append.mpr ⟨?_, ?_, ?_⟩)
  · cases a.full <;> simp
  · have hidx : (a.recs.zipIdx.map Prod.snd).Pairwise (· < ·) := by
      rw [List.zipIdx_map_snd]
      exact List.pairwise_lt_range' 1
    rw [List.pairwise_map] at hidx ⊢
    exact hidx.imp fun hlt => Nat.succ_lt_succ hlt
  · intro x hx y hy
    obtain ⟨_, -, rfl⟩ := List.mem_map.mp hx
    obtain ⟨_, -, rfl⟩ := List.mem_map.mp hy
    exact Nat.succ_pos _

/-- A page of eight of an ascending list: the whole list, or all below the position of the ninth. -/
theorem page_of_eight {found : List (Nat × AlarmRec)} (hasc : found.Pairwise fun x y => x.1 < y.1) :
    ((found[8]?).map (·.1) = none → ∀ x ∈ found, x ∈ found.take 8) ∧
      ∀ q, (found[8]?).map (·.1) = some q → (found.take 8).length = 8 ∧ (∃ x, (q, x) ∈ found) ∧ (∀ x ∈ found.take 8, x.1 < q) ∧
        ∀ x ∈ found, x.1 < q → x ∈ found.take 8 := by
  constructor
  · intro hnone x hx
    rw [Option.map_eq_none_iff, List.getElem?_eq_none_iff] at hnone
    rwa [List.take_of_length_le hnone]
  · intro q hq
    obtain ⟨y, hy, rfl⟩ := Option.map_eq_some_iff.mp hq
    obtain ⟨hlen, rfl⟩ := List.getElem?_eq_some_iff.mp hy
    have hordered := List.pairwise_iff_getElem.mp hasc
    refine ⟨by rw [List.length_take]; omega, ⟨found[8].2, List.getElem_mem hlen⟩, fun x hx => ?_, fun x hx hlt => ?_⟩
    · obtain ⟨j, hj, rfl⟩ := List.mem_take_iff_getElem.mp hx
      exact hordered j 8 (by omega) hlen (by omega)
    · obtain ⟨j, hj, rfl⟩ := List.mem_iff_getElem.mp hx
      refine List.mem_take_iff_getElem.mpr ⟨j, ?_, rfl⟩
      by_contra hge
      rcases Nat.lt_or_ge 8 j with h8 | h8
      · have := hordered 8 j hlen hj h8
        omega
      · obtain rfl : j = 8 := by omega
        omega

/-! ## Claim masks and references to a group (R29, R31) -/

theorem Mask.has_diff (m w : SlotMask) (n : Slot) : Mask.has (m &&& ~~~ w) n = (Mask.has m n && !Mask.has w n) := by
  unfold Mask.has
  rw [BitVec.getLsbD_and, BitVec.getLsbD_not, decide_eq_true n.isLt, Bool.true_and]

theorem claimMask_lower (lower : List Window) (w : Window) (cls : TrafficClass) (n : Slot) (m : SlotMask) :
    Mask.has (lower.foldl (fun m v => if v.enabled && v.covers w && v.classes.includes cls then m &&& ~~~ v.sources else m) m) n = true ↔
      Mask.has m n = true ∧ ∀ v ∈ lower, v.enabled = true → v.covers w = true → v.classes.includes cls = true → Mask.has v.sources n = false := by
  induction lower generalizing m with
  | nil => simp
  | cons v lower ih =>
    rw [List.foldl_cons, ih, List.forall_mem_cons]
    by_cases hv : (v.enabled && v.covers w && v.classes.includes cls) = true
    · rw [if_pos hv, Mask.has_diff]
      simp only [Bool.and_eq_true, Bool.not_eq_true'] at hv ⊢
      obtain ⟨⟨he, hc⟩, hi⟩ := hv
      simp only [he, hc, hi, forall_const, and_assoc]
    · rw [if_neg hv]
      simp only [Bool.and_eq_true] at hv
      exact and_congr_right fun _ => ⟨fun hl => ⟨fun he hc hi => absurd ⟨⟨he, hc⟩, hi⟩ hv, hl⟩, fun hl => hl.2⟩

theorem claimMask_iff (windows : Vector Window 32) (i : Fin 32) (cls : TrafficClass) (n : Slot) :
    Mask.has (claimMask (windows.toList.take i.val) windows[i] cls) n = true ↔
      windows[i].enabled = true ∧ windows[i].classes.includes cls = true ∧ Mask.has windows[i].sources n = true ∧
        ∀ j : Fin 32, j < i → windows[j].enabled = true → windows[j].covers windows[i] = true → windows[j].classes.includes cls = true →
          Mask.has windows[j].sources n = false := by
  have hlower (P : Window → Prop) : (∀ v ∈ windows.toList.take i.val, P v) ↔ ∀ j : Fin 32, j < i → P windows[j] := by
    constructor
    · intro hall j hj
      exact hall _ (List.mem_take_iff_getElem.mpr ⟨j.val, by simp only [Vector.length_toList]; omega, by simp⟩)
    · intro hall v hv
      obtain ⟨j, hj, rfl⟩ := List.mem_take_iff_getElem.mp hv
      have hj' : j < i.val := (Nat.lt_min.mp hj).1
      simpa using hall ⟨j, hj'.trans i.isLt⟩ hj'
  unfold claimMask
  split
  · next hw =>
    rw [Bool.and_eq_true] at hw
    obtain ⟨henabled, hincludes⟩ := hw
    rw [claimMask_lower, hlower]
    exact ⟨fun h => ⟨henabled, hincludes, h⟩, fun ⟨_, _, h⟩ => h⟩
  · next hw =>
    rw [Bool.and_eq_true] at hw
    refine ⟨fun hnone => absurd hnone ?_, fun ⟨he, hi, _⟩ => absurd ⟨he, hi⟩ hw⟩
    simp [Mask.has]

theorem getLsbD_bit (k i : Nat) (hk : k < 32) : (1#32 <<< k).getLsbD i = decide (k = i) := by
  rw [BitVec.getLsbD_shiftLeft, BitVec.getLsbD_one]
  by_cases he : k = i
  · subst he; simp [hk]
  · by_cases hlt : i < k
    · simp [he, hlt]
    · have hne : i - k ≠ 0 := by omega
      simp [he, hne]

theorem references_bits (g : Fin 16) (l : List (Window × Nat)) (hl : ∀ p ∈ l, p.2 < 32) (i : Nat) (m : BitVec 32) :
    (l.foldl (fun m p => if p.1.target = .group g then m ||| (1#32 <<< p.2) else m) m).getLsbD i = true ↔
      m.getLsbD i = true ∨ ∃ p ∈ l, p.1.target = .group g ∧ p.2 = i := by
  induction l generalizing m with
  | nil => simp
  | cons p l ih =>
    rw [List.forall_mem_cons] at hl
    rw [List.foldl_cons, ih hl.2, List.exists_mem_cons_iff]
    by_cases hp : p.1.target = .group g
    · rw [if_pos hp, BitVec.getLsbD_or, getLsbD_bit _ _ hl.1, Bool.or_eq_true, decide_eq_true_iff, or_assoc]
      exact or_congr_right (or_congr_left ⟨fun h => ⟨hp, h⟩, fun h => h.2⟩)
    · rw [if_neg hp]
      exact or_congr_right ⟨.inr, fun h => h.resolve_left fun h => hp h.1⟩

theorem Tables.referencing_iff (t : Tables) (g : Fin 16) (i : Fin 32) :
    (t.referencing g).getLsbD i.val = true ↔ t.windows[i].target = .group g := by
  unfold Tables.referencing
  rw [references_bits g _ (fun p hp => by simpa using List.snd_lt_of_mem_zipIdx hp)]
  constructor
  · rintro (hzero | ⟨⟨w, k⟩, hmem, htarget, rfl⟩)
    · simp at hzero
    · obtain ⟨_, hw⟩ := List.getElem?_eq_some_iff.mp (List.mem_zipIdx_iff_getElem?.mp hmem)
      have hwindow : t.windows[i] = w := by simpa using hw
      rw [hwindow]
      exact htarget
  · intro htarget
    refine .inr ⟨(t.windows[i], i.val), List.mem_zipIdx_iff_getElem?.mpr ?_, htarget, rfl⟩
    exact List.getElem?_eq_some_iff.mpr ⟨by simp, by simp⟩

theorem Mask.has_ofTest (p : Slot → Bool) (n : Slot) : Mask.has (Mask.ofTest p) n = true ↔ p n = true := by
  have hfold (l : List Slot) (m : SlotMask) : Mask.has (l.foldl (fun m n => if p n then Mask.insert m n else m) m) n = true ↔
      Mask.has m n = true ∨ (n ∈ l ∧ p n = true) := by
    induction l generalizing m with
    | nil => simp
    | cons k l ih =>
      rw [List.foldl_cons, ih]
      by_cases hk : p k = true
      · rw [if_pos hk, Mask.has_insert, Bool.or_eq_true, decide_eq_true_iff, List.mem_cons, or_assoc]
        refine or_congr_right ?_
        constructor
        · rintro (rfl | ⟨hl, hp⟩)
          · exact ⟨.inl rfl, hk⟩
          · exact ⟨.inr hl, hp⟩
        · rintro ⟨rfl | hl, hp⟩
          · exact .inl rfl
          · exact .inr ⟨hl, hp⟩
      · rw [if_neg hk, List.mem_cons]
        refine or_congr_right ⟨fun ⟨hl, hp⟩ => ⟨.inr hl, hp⟩, ?_⟩
        rintro ⟨rfl | hl, hp⟩
        · exact absurd hp hk
        · exact ⟨hl, hp⟩
  unfold Mask.ofTest
  rw [hfold]
  simp [Mask.has, mem_allSlots]

/-! ## What the replies carry -/

theorem TimingState.inSpec_iff (st : TimingState) : st.inSpec = true ↔ st = .locked ∨ st = .holdover ∨ st = .acquiring .locked := by
  rcases st with _ | ⟨_ | _ | _⟩ | _ | _ | _ <;> simp [TimingState.inSpec]

theorem least_eq_none : ∀ {l : List Nat}, least l = none → l = []
  | [], _ => rfl
  | a :: rest, he => by
    unfold least at he
    split at he <;> cases he

theorem least_mem_le : ∀ {l : List Nat} {v : Nat}, least l = some v → v ∈ l ∧ ∀ w ∈ l, v ≤ w
  | [], _, he => by cases he
  | a :: rest, v, he => by
    unfold least at he
    split at he
    · next hnone =>
      cases he
      rw [least_eq_none hnone]
      exact ⟨List.mem_cons_self, by simp⟩
    · next w hsome =>
      cases he
      obtain ⟨hmem, hle⟩ := least_mem_le hsome
      refine ⟨?_, fun x hx => ?_⟩
      · rcases Nat.le_total a w with haw | haw
        · rw [Nat.min_eq_left haw]; exact List.mem_cons_self
        · rw [Nat.min_eq_right haw]; exact List.mem_cons_of_mem _ hmem
      · obtain rfl | hx := List.mem_cons.mp hx
        · exact Nat.min_le_left _ _
        · exact (Nat.min_le_right _ _).trans (hle x hx)

theorem least_iff (l : List Nat) (v : Nat) : least l = some v ↔ v ∈ l ∧ ∀ w ∈ l, v ≤ w := by
  refine ⟨least_mem_le, fun ⟨hmem, hle⟩ => ?_⟩
  cases hl : least l with
  | none => rw [least_eq_none hl] at hmem; cases hmem
  | some w =>
    obtain ⟨hw, hwle⟩ := least_mem_le hl
    rw [Nat.le_antisymm (hwle v hmem) (hle w hw)]

/-- Committed power is the sum of the wattages of the slots whose state counts (R61). -/
theorem Hub.sum_of_watts (h : Hub) (watts : Slot → Nat)
    (hw : ∀ n : Slot, watts n = if h.slots[n].state.powered then h.slots[n].watts else 0) : (allSlots.map watts).sum = h.committed := by
  unfold Hub.committed
  rw [funext hw]

theorem HostPort.replies_add_notices (p : HostPort) : p.replies + p.notices = p.outbound.length := by
  unfold HostPort.replies HostPort.notices
  rw [← List.countP_eq_length_filter, ← List.countP_eq_length_filter, List.length_eq_countP_add_countP (·.isReply)]
  simp

section

variable {s : State} {r : Request} {rest : List Request} {n : Slot}

theorem exec_slotQuery_of_takes (ht : s.hub.TakesFor Code.slotQuery r rest n) :
    exec .slotQuery s = .next { s with hub := (s.hub.popRequest rest).answer r .ok (.slotQuery (s.hub.slotQueryBody n)) } :=
  State.onHub_takesFor ht fun r n h => h.answer r .ok (.slotQuery (h.slotQueryBody n))

theorem exec_slotTimingQuery_of_takes (ht : s.hub.TakesFor Code.slotTimingQuery r rest n) :
    exec .slotTimingQuery s = .next { s with hub := (s.hub.popRequest rest).answer r .ok (.slotTiming (s.hub.slotTimingBody n)) } :=
  State.onHub_takesFor ht fun r n h => h.answer r .ok (.slotTiming (h.slotTimingBody n))

theorem exec_alarmList_of_takes (ht : s.hub.Takes Code.alarmList r rest) :
    exec .alarmList s = .next { s with hub := Hub.alarmList r (s.hub.popRequest rest) } := State.onHub_take ht Hub.alarmList

theorem exec_windowGet_of_takes (ht : s.hub.Takes Code.windowGet r rest) :
    exec .windowGet s = .next { s with hub := Hub.windowGet r (s.hub.popRequest rest) } := State.onHub_take ht Hub.windowGet

theorem exec_groupGet_of_takes (ht : s.hub.Takes Code.groupGet r rest) :
    exec .groupGet s = .next { s with hub := Hub.groupGet r (s.hub.popRequest rest) } := State.onHub_take ht Hub.groupGet

end

section

variable {h : Hub} {r : Request}

theorem Hub.alarmList_of_position (hp : fieldAt r.body 0 1 < 64) :
    Hub.alarmList r h = h.answer r .ok (.alarmList (h.alarmListBody (fieldAt r.body 0 1))) := if_pos hp

theorem Hub.alarmList_of_outside (hp : 64 ≤ fieldAt r.body 0 1) : Hub.alarmList r h = h.refuse r .badParam := if_neg (Nat.not_lt.mpr hp)

theorem Hub.windowGet_of_index {i : Fin 32} (hi : fieldAt r.body 0 1 = i.val) : Hub.windowGet r h = h.answer r .ok (.windowGet h.tables.windows[i]
    (claimMask (h.tables.windows.toList.take i.val) h.tables.windows[i] .control)
    (claimMask (h.tables.windows.toList.take i.val) h.tables.windows[i] .bulk)) := by
  unfold Hub.windowGet
  rw [indexOf_val hi]

theorem Hub.windowGet_of_outside (hi : 32 ≤ fieldAt r.body 0 1) : Hub.windowGet r h = h.refuse r .badParam := by
  unfold Hub.windowGet
  rw [indexOf_none hi]

theorem Hub.groupGet_of_number {g : Fin 16} (hg : fieldAt r.body 0 1 = g.val + 1) : Hub.groupGet r h = h.answer r .ok (.groupGet h.tables.groups[g]
    (Mask.ofTest fun n => Mask.has h.tables.groups[g] n && h.slots[n].state.reachable) (h.tables.referencing g)
    (h.tables.defaultTarget == some (.group g))) := by
  unfold Hub.groupGet
  rw [groupOf_val hg]

theorem Hub.groupGet_of_outside (hg : fieldAt r.body 0 1 < 1 ∨ 16 < fieldAt r.body 0 1) : Hub.groupGet r h = h.refuse r .badParam := by
  unfold Hub.groupGet
  rw [groupOf_none hg]

end

/-- No record withholds the permit (R133, R148). -/
theorem Hub.noAlarm_iff (h : Hub) (n : Slot) : (h.permitInputs n).noAlarm = true ↔ ∀ x ∈ h.alarms.full.toList ++ h.alarms.recs,
    (x.key.source = none ∨ x.key.source = some n) → x.active = true →
      h.tables.kinds[x.key.kind.idx].action = .withdrawPermit → x.key.kind = .cardReported ∧ x.severity ≠ .critical := by
  unfold Hub.permitInputs Hub.alarmWithholds Alarms.all
  rw [Bool.not_eq_true', List.any_eq_false]
  refine forall₂_congr fun x _ => ?_
  unfold AlarmRec.counts actionApplies Hub.kindEntry
  simp only [Bool.and_eq_true, Bool.or_eq_true, beq_iff_eq, bne_iff_ne, ne_eq, not_and, not_or]
  tauto

theorem Hub.hasCap_iff (h : Hub) (n : Slot) (p : Caps → Bool) : h.hasCap n p = true ↔ ∃ i, h.slots[n].identity = some i ∧ p i.caps = true := by
  unfold Hub.hasCap
  cases h.slots[n].identity <;> simp

theorem Hub.eligible_iff (h : Hub) (n : Slot) : h.eligible n = true ↔
    h.slots[n].state = .forwarding ∧ ∃ i, h.slots[n].identity = some i ∧ (i.caps.timeSink || i.caps.timeSource) = true := by
  unfold Hub.eligible
  rw [Bool.and_eq_true, beq_iff_eq, Hub.hasCap_iff]

/-- A page of the table from a position (R155). -/
theorem Hub.alarmListBody_page (h : Hub) (start : Nat) (stands : Nat → AlarmRec → Prop)
    (hstands : ∀ p x, stands p x ↔ if p = 0 then h.alarms.full = some x else h.alarms.recs[p - 1]? = some x) :
    let b := h.alarmListBody start
    b.page.length ≤ 8 ∧ b.page.Pairwise (fun x y => x.1 < y.1) ∧ (∀ x ∈ b.page, start ≤ x.1 ∧ stands x.1 x.2) ∧
      (b.next = none → ∀ p x, start ≤ p → stands p x → (p, x) ∈ b.page) ∧
      ∀ q, b.next = some q → b.page.length = 8 ∧ (∃ x, stands q x) ∧ (∀ x ∈ b.page, x.1 < q) ∧
        ∀ p x, start ≤ p → p < q → stands p x → (p, x) ∈ b.page := by
  have hasc := h.alarms.fromPosition_ascends start
  have hmem (p x) : (p, x) ∈ h.alarms.fromPosition start ↔ start ≤ p ∧ stands p x := by rw [Alarms.mem_fromPosition, hstands]
  obtain ⟨hlast, hmore⟩ := page_of_eight hasc
  refine ⟨List.length_take_le _ _, hasc.sublist (List.take_sublist _ _), fun x hx => (hmem _ _).mp (List.mem_of_mem_take hx),
    fun hnext p x hp hx => hlast hnext _ ((hmem _ _).mpr ⟨hp, hx⟩), fun q hq => ?_⟩
  obtain ⟨hlen, ⟨x, hx⟩, hbelow, hall⟩ := hmore q hq
  exact ⟨hlen, ⟨x, ((hmem _ _).mp hx).2⟩, hbelow, fun p y hp hlt hy => hall _ ((hmem _ _).mpr ⟨hp, hy⟩) hlt⟩

/-- Settles O53: each request's body is what stands, field by field. -/
theorem readingRequests : Obligations.ReadingRequests := by
  intro s r rest h replies
  refine ⟨fun ht => State.onHub_take ht Hub.hubInfo, ?_⟩
  intro committed inSpec stands records
  have hcommitted : committed = h.committed := h.sum_of_watts _ fun n => by
    unfold SlotRec.watts
    generalize h.slots[n].state = st
    generalize h.slots[n].powerClass = pc
    rcases pc with _ | _ | _ | _ | _ <;> cases st <;> rfl
  refine ⟨fun ht => ?_, fun ht => State.onHub_take ht Hub.timingStatus, fun n ht => ?_, fun n ht => ?_, fun start ht hp hlt => ?_,
    fun i ht hi => ?_, fun g ht hg => ?_, fun ht hi => ?_, fun ht hg => ?_, fun ht hp => ?_⟩
  · exact ⟨h.statusBody, State.onHub_take ht Hub.hubStatus, rfl, rfl, TimingState.inSpec_iff _, rfl, fun n => mapEach_get _ _ _ _, rfl,
      hcommitted.symm, rfl, rfl, rfl, rfl, rfl, rfl, rfl, rfl, rfl, rfl, rfl, rfl, rfl, rfl, rfl,
      List.countP_eq_length_filter.symm, rfl, List.countP_eq_length_filter.symm, h.port.replies_add_notices, rfl, rfl, rfl, rfl, rfl, rfl⟩
  · rw [exec_slotQuery_of_takes ht, hcommitted]
    rfl
  · exact ⟨h.slotTimingBody n, exec_slotTimingQuery_of_takes ht, rfl, rfl, rfl, rfl, rfl, least_iff _, h.eligible_iff n, decide_eq_true_iff, rfl,
      beq_iff_eq, h.hasCap_iff n _, TimingState.inSpec_iff _, rfl, rfl, h.noAlarm_iff n⟩
  · obtain ⟨hlen, hasc, hmem, hlast, hmore⟩ := h.alarmListBody_page start stands fun _ _ => Iff.rfl
    have hexec : exec .alarmList s = replies (.alarmList (h.alarmListBody start)) := by
      rw [exec_alarmList_of_takes ht, Hub.alarmList_of_position (hp ▸ hlt), hp]
      rfl
    exact ⟨h.alarmListBody start, hexec, hlen, hasc, hmem, hlast, hmore, rfl, rfl, rfl, List.countP_eq_length_filter.symm,
      List.countP_eq_length_filter.symm, List.countP_eq_length_filter.symm, List.countP_eq_length_filter.symm,
      List.countP_eq_length_filter.symm, rfl, rfl⟩
  · have hexec := (exec_windowGet_of_takes ht).trans (by rw [Hub.windowGet_of_index hi])
    exact ⟨_, _, hexec, fun n => ⟨claimMask_iff _ i .control n, claimMask_iff _ i .bulk n⟩⟩
  · have hexec := (exec_groupGet_of_takes ht).trans (by rw [Hub.groupGet_of_number hg])
    refine ⟨_, _, hexec, fun n => ?_, fun i => h.tables.referencing_iff g i⟩
    rw [Mask.has_ofTest, Bool.and_eq_true]
    exact Iff.rfl
  · exact State.refused_badParam (Hub.windowGet r) (exec_windowGet_of_takes ht) (Hub.windowGet_of_outside hi)
  · exact State.refused_badParam (Hub.groupGet r) (exec_groupGet_of_takes ht) (Hub.groupGet_of_outside hg)
  · exact State.refused_badParam (Hub.alarmList r) (exec_alarmList_of_takes ht) (Hub.alarmList_of_outside hp)

end Sys2Proof.Machine
end

section
/-! PROOFS. The requests of the Timing Unit that set (section 6.7). -/

namespace Sys2Proof.Machine

/-! ## A new Timing taken over (R112, R113) -/

/-- A Timing as it stands once its results have followed: REFERENCE_LOST's cause is settled (R112). -/
def Timing.followed (t : Timing) (mayRaise : Bool) : Timing := { t with refLost := t.lost && (t.refLost || mayRaise) }

theorem Hub.setTiming_timing (h : Hub) (new : Timing) (reason : TimingReason) (mayRaise : Bool) :
    (h.setTiming new reason mayRaise).timing = new.followed mayRaise := by
  unfold Hub.setTiming
  rw [Hub.timingResults_timing, Hub.timingNotice_timing]
  rfl

/-! ## REF_LIST_SET (R114) -/

section

variable {t : Timing} {s : State} {h : Hub} {r : Request} {rest : List Request}

theorem Timing.newSelection_of_holds (hh : t.selectionHolds = true) : t.newSelection false = t.selection := if_pos (by rw [hh]; rfl)

theorem Timing.reselect_of_same {revertive : Bool} (hn : t.newSelection revertive = t.selection) : t.reselect revertive = t := if_pos hn

/-- With an empty list there is nothing to select. -/
theorem Timing.newSelection_of_empty (revertive : Bool) (hc : t.cands = []) : t.newSelection revertive = none := by
  have hholds : t.selectionHolds = false := by
    unfold Timing.selectionHolds
    rw [hc]
    rfl
  have hbest : t.best = none := by
    unfold Timing.best
    rw [hc]
    rfl
  unfold Timing.newSelection
  rw [hholds, hbest, Bool.and_false]
  rfl

theorem Timing.reselect_of_lost {revertive : Bool} (hn : t.newSelection revertive = none) (hs : t.selection.isSome = true) :
    t.reselect revertive = { t with selection := none, state := t.state.lose, correction := 0 } := by
  obtain ⟨source, hsource⟩ := Option.isSome_iff_exists.mp hs
  unfold Timing.reselect
  rw [hn, hsource]
  rfl

theorem Timing.reselect_empty (revertive : Bool) (hc : t.cands = []) : (t.reselect revertive).selection = none := by
  have hnew := Timing.newSelection_of_empty revertive hc
  cases hs : t.selection with
  | none => rw [Timing.reselect_of_same (hnew.trans hs.symm), hs]
  | some source => rw [Timing.reselect_of_lost hnew (by rw [hs]; rfl)]

theorem exec_refListSet_of_takes (ht : s.hub.Takes Code.refListSet r rest) :
    exec .refListSet s = .next { s with hub := Hub.refListSet r (s.hub.popRequest rest) } := State.onHub_take ht Hub.refListSet

/-- The Timing that REF_LIST_SET takes over. -/
def Hub.relisted (h : Hub) (revertive : Bool) (sources : List Source) : Timing := (h.timing.relist sources).reselect revertive

/-- The hub as it stands when the reply is formed. -/
def Hub.afterRelist (h : Hub) (revertive : Bool) (sources : List Source) : Hub :=
  { h with tables := { h.tables with revertive } }.setTiming (h.relisted revertive sources) .hostRequest
    (h.timing.cands.isEmpty || (h.timing.selection.isSome && (h.relisted revertive sources).selection.isNone))

theorem Hub.refListSet_of_valid {revertive : Bool} {sources : List Source} (hp : parseCandidates r.body = some (revertive, sources)) :
    Hub.refListSet r h = (h.afterRelist revertive sources).answer r .ok (.refList (h.afterRelist revertive sources).timing.cands
      (h.afterRelist revertive sources).timing.selection (h.afterRelist revertive sources).timing.state) := by
  unfold Hub.refListSet
  rw [hp]
  rfl

theorem Hub.refListSet_of_invalid (hp : parseCandidates r.body = none) : Hub.refListSet r h = h.refuse r .badParam := by
  unfold Hub.refListSet
  rw [hp]

/-- What the new list leaves (R105, R106, R112, R114). -/
structure Hub.Relisted (h g : Hub) (revertive : Bool) (sources : List Source) : Prop where
  tables : g.tables = { h.tables with revertive }
  slots : g.slots = h.slots
  clock : g.clock = h.clock
  inbound : g.port.inbound = h.port.inbound
  cands : g.timing.cands = sources.map fun source => (h.timing.cands.find? fun c => c.source == source).getD { source }
  kept : revertive = false → (g.timing.cands.any fun c => c.status == .qualified && h.timing.selection == some c.source) = true →
    g.timing.selection = h.timing.selection ∧ g.timing.state = h.timing.state
  lost : sources = [] → g.timing.selection = none ∧ g.timing.refLost = false ∧
    (h.timing.selection.isSome = true → h.timing.state = .locked → g.timing.state = .holdover ∧ g.timing.correction = 0)

theorem Hub.afterRelist_relisted (h : Hub) (revertive : Bool) (sources : List Source) :
    Hub.Relisted h (h.afterRelist revertive sources) revertive sources := by
  have hands := Hub.setTiming_handsOn { h with tables := { h.tables with revertive } } (h.relisted revertive sources) .hostRequest
    (h.timing.cands.isEmpty || (h.timing.selection.isSome && (h.relisted revertive sources).selection.isNone))
  have htiming := Hub.setTiming_timing { h with tables := { h.tables with revertive } } (h.relisted revertive sources) .hostRequest
    (h.timing.cands.isEmpty || (h.timing.selection.isSome && (h.relisted revertive sources).selection.isNone))
  have hcands : (h.afterRelist revertive sources).timing.cands =
      sources.map fun source => (h.timing.cands.find? fun c => c.source == source).getD { source } := by
    unfold Hub.afterRelist
    rw [htiming]
    exact Timing.reselect_cands _ _
  refine ⟨hands.tables, hands.slots, hands.clock, hands.inbound, hcands, fun hrevertive hholds => ?_, fun hempty => ?_⟩
  · have hsame : h.relisted revertive sources = h.timing.relist sources := by
      rw [hcands] at hholds
      subst hrevertive
      exact Timing.reselect_of_same (Timing.newSelection_of_holds hholds)
    unfold Hub.afterRelist
    rw [htiming, hsame]
    exact ⟨rfl, rfl⟩
  · have hnone : (h.timing.relist sources).cands = [] := by rw [hempty]; rfl
    unfold Hub.afterRelist
    rw [htiming]
    refine ⟨Timing.reselect_empty revertive hnone, ?_, fun hs hlocked => ?_⟩
    · have hrelisted : (h.relisted revertive sources).cands = [] := (Timing.reselect_cands _ _).trans hnone
      unfold Timing.followed Timing.lost
      rw [hrelisted]
      rfl
    · have hlost : h.relisted revertive sources = { h.timing.relist sources with
          selection := none, state := h.timing.state.lose, correction := 0 } :=
        Timing.reselect_of_lost (Timing.newSelection_of_empty revertive hnone) hs
      rw [hlost, hlocked]
      exact ⟨rfl, rfl⟩

/-! ## TIMING_SET (R107, R115) -/

theorem exec_timingSet_of_takes (ht : s.hub.Takes Code.timingSet r rest) :
    exec .timingSet s = .next { s with hub := Hub.timingSet r (s.hub.popRequest rest) } := State.onHub_take ht Hub.timingSet

/-- The hub with new parameters, when the reply is formed. -/
def Hub.afterTimingSet (h : Hub) (params : TimingParams) : Hub :=
  { h with tables := { h.tables with timing := params } }.setTiming (h.timing.setHoldoverLimit params.holdoverLimit) .hostRequest false

theorem Hub.timingSet_eq (r : Request) (h : Hub) : Hub.timingSet r h = (h.afterTimingSet (parseTimingParams r.body).clamp).answer r
    (if (parseTimingParams r.body).clamp = parseTimingParams r.body then .ok else .clamped) (.timingSet (parseTimingParams r.body).clamp) := by
  rw [← clampStatus_ne]
  rfl

theorem Timing.setHoldoverLimit_state_of_rest {limit : Nat} (hr : t.state.running = false) : (t.setHoldoverLimit limit).state = t.state := by
  unfold Timing.setHoldoverLimit
  rw [hr]
  simp only [Bool.false_eq_true, if_false]
  split <;> rfl

theorem Timing.setHoldoverLimit_state_of_holdover {limit : Nat} (hs : t.state = .holdover) :
    (t.setHoldoverLimit limit).state = if limit ≤ t.holdover then .holdoverLapsed else .holdover := by
  unfold Timing.setHoldoverLimit
  rw [hs]
  simp only [show TimingState.holdover.running = true from rfl, if_true]
  split
  · unfold Timing.holdoverLimit
    rw [hs]
  · exact hs

/-- What TIMING_SET leaves. -/
structure Hub.TimingSet (h g : Hub) (params : TimingParams) : Prop where
  tables : g.tables = { h.tables with timing := params }
  slots : g.slots = h.slots
  inbound : g.port.inbound = h.port.inbound
  cands : g.timing.cands = h.timing.cands
  selection : g.timing.selection = h.timing.selection
  rest : h.timing.state.running = false → g.timing.state = h.timing.state
  holdover : h.timing.state = .holdover → g.timing.state = if params.holdoverLimit ≤ h.timing.holdover then .holdoverLapsed else .holdover

theorem Hub.afterTimingSet_set (h : Hub) (params : TimingParams) : Hub.TimingSet h (h.afterTimingSet params) params := by
  have hands := Hub.setTiming_handsOn { h with tables := { h.tables with timing := params } }
    (h.timing.setHoldoverLimit params.holdoverLimit) .hostRequest false
  have htiming : (h.afterTimingSet params).timing = (h.timing.setHoldoverLimit params.holdoverLimit).followed false :=
    Hub.setTiming_timing _ _ _ _
  refine ⟨hands.tables, hands.slots, hands.inbound, ?_, ?_, fun hr => ?_, fun hs => ?_⟩
  · rw [htiming]; exact Timing.setHoldoverLimit_cands _ _
  · rw [htiming]; exact Timing.setHoldoverLimit_selection _ _
  · rw [htiming]; exact Timing.setHoldoverLimit_state_of_rest hr
  · rw [htiming]; exact Timing.setHoldoverLimit_state_of_holdover hs

/-! ## TIME_SET (R116) -/

theorem exec_timeSet_of_takes (ht : s.hub.Takes Code.timeSet r rest) :
    exec .timeSet s = .next { s with hub := Hub.timeSet r (s.hub.popRequest rest) } := State.onHub_take ht Hub.timeSet

theorem Hub.timeSet_of_rest (hs : h.timing.state = .freeRun ∨ h.timing.state = .holdoverLapsed) : Hub.timeSet r h =
    { h with timing := { h.timing with pendingTime := some (fieldAt r.body 0 6) } }.answer r .ok (.timeSet h.clock.nextSecond) := if_pos hs

theorem Hub.timeSet_of_other (hf : h.timing.state ≠ .freeRun) (hl : h.timing.state ≠ .holdoverLapsed) :
    Hub.timeSet r h = h.refuse r .badState := if_neg (by rintro (hs | hs); exacts [hf hs, hl hs])

end

/-- Settles O59: the new list and its re-evaluation, the parameters with a new holdover limit, and the pending time setting. -/
theorem timingRequests : Obligations.TimingRequests := by
  intro s r rest
  refine ⟨fun ht => ⟨fun revertive sources hp => ?_, fun hp => ?_⟩, fun ht => ?_, fun ht => ⟨fun hs => ?_, fun hf hl => ?_⟩⟩
  · have hg := Hub.refListSet_of_valid (h := s.hub.popRequest rest) hp
    obtain ⟨htables, hslots, hclock, hinbound, hcands, hkept, hlost⟩ := (s.hub.popRequest rest).afterRelist_relisted revertive sources
    refine ⟨_, exec_refListSet_of_takes ht, ?_⟩
    dsimp only
    rw [hg]
    generalize (s.hub.popRequest rest).afterRelist revertive sources = g at *
    exact ⟨htables, hslots, hclock, hcands, Hub.answer_replied g r .ok _ hinbound, hkept, hlost⟩
  · exact State.refused_badParam (Hub.refListSet r) (exec_refListSet_of_takes ht) (Hub.refListSet_of_invalid hp)
  · obtain ⟨htables, hslots, hinbound, hcands, hselection, hrest, hholdover⟩ :=
      (s.hub.popRequest rest).afterTimingSet_set (parseTimingParams r.body).clamp
    refine ⟨_, exec_timingSet_of_takes ht, ?_⟩
    dsimp only
    rw [Hub.timingSet_eq]
    generalize (s.hub.popRequest rest).afterTimingSet (parseTimingParams r.body).clamp = g at *
    exact ⟨htables, TimingParams.clamp_legal _, hcands, hselection, hslots, Hub.answer_replied g r _ _ hinbound, hrest, hholdover⟩
  · rw [exec_timeSet_of_takes ht, Hub.timeSet_of_rest (h := s.hub.popRequest rest) hs]
    rfl
  · obtain ⟨t, hnext, -, -, hrefused⟩ := State.refused_of_next (s := s) (r := r) (rest := rest) (status := .badState)
      ((exec_timeSet_of_takes ht).trans (by rw [Hub.timeSet_of_other (h := s.hub.popRequest rest) hf hl]))
    exact ⟨t, hnext, hrefused⟩

end Sys2Proof.Machine
end

section
/-! PROOFS. The requests of the Alarm Unit (sections 8.3 and 8.8). -/

namespace Sys2Proof.Machine

/-! ## The outputs after a change of the table (R151, R152) -/

/-- What is told of a change leaves the outputs as the rules give them. -/
theorem TellClosed.lamps : TellClosed fun h => h.alarms.lamps = h.lampLevels where
  judgeOutputs _ _ := rfl
  notice _ _ _ hh := hh
  changePermit h cause n hh := by
    unfold Hub.changePermit
    simp only
    split
    · exact hh
    · exact hh
  fence _ _ hh := hh
  refusal _ hh := hh
  placed _ _ _ _ _ _ _ _ hh := by
    rw [(Hub.schedule_others _ _).1]
    exact hh

section

variable {again : AlarmKey → Hub → Hub} (hagain : ∀ h : Hub, h.alarms.lamps = h.lampLevels →
  (again (.hub .agentOverload) h).alarms.lamps = (again (.hub .agentOverload) h).lampLevels)

include hagain

/-- What follows a change judges the outputs, whatever they were. -/
theorem Hub.changedWith_lamps (old h : Hub) (key : AlarmKey) (reason : AlarmReason) :
    (Hub.changedWith again old key reason h).alarms.lamps = (Hub.changedWith again old key reason h).lampLevels :=
  TellClosed.lamps.tellAll hagain rfl reason _

end

/-- A raise leaves the outputs as the rules give them. -/
theorem Hub.raiseAt_lamps (depth : Nat) {h : Hub} (key : AlarmKey) (reported : Option Severity) (hh : h.alarms.lamps = h.lampLevels) :
    (Hub.raiseAt depth key reported h).alarms.lamps = (Hub.raiseAt depth key reported h).lampLevels := by
  induction depth generalizing h key reported with
  | zero => exact hh
  | succ depth ih =>
    have hagain (g : Hub) (hg : g.alarms.lamps = g.lampLevels) := ih (.hub .agentOverload) none hg
    show (h.raiseWith (fun k h => Hub.raiseAt depth k none h) key reported).alarms.lamps = _
    obtain ⟨p, -, ⟨reason, hr⟩ | ⟨-, -, hr⟩⟩ | ⟨-, ⟨a, -, hr⟩ | ⟨-, hr⟩⟩ :=
      h.raiseWith_cases (fun k h => Hub.raiseAt depth k none h) key reported
    · rw [show Hub.raiseAt (depth + 1) key reported h = _ from hr, hr]
      exact Hub.changedWith_lamps hagain _ _ _ _
    · rw [show Hub.raiseAt (depth + 1) key reported h = _ from hr, hr]
      rfl
    · rw [show Hub.raiseAt (depth + 1) key reported h = _ from hr, hr]
      exact Hub.changedWith_lamps hagain _ _ _ _
    · rw [show Hub.raiseAt (depth + 1) key reported h = _ from hr, hr]
      exact ih _ none hh

theorem Hub.changedAll_lamps (old h : Hub) (keys : List AlarmKey) (reason : AlarmReason) :
    (Hub.changedAll old keys reason h).alarms.lamps = (Hub.changedAll old keys reason h).lampLevels :=
  TellClosed.lamps.tellAll (fun _ hg => Hub.raiseAt_lamps 8 _ none hg) rfl reason _

/-! ## Records that stand while others are told of

What follows a change may raise AGENT_OVERLOAD, and with room in the table that touches no other record. -/

/-- The table `b` holds position 0 and every record of `a` but AGENT_OVERLOAD's, with room for that one. -/
structure Alarms.StandsIn (a b : Alarms) : Prop where
  full : b.full = a.full
  recs : ∀ x ∈ a.recs, x.key.kind ≠ .agentOverload → x ∈ b.recs
  room : b.need [.hub .agentOverload] ≤ 63

theorem Alarms.StandsIn.refl {a : Alarms} (hroom : a.recs.length < 63) : a.StandsIn a :=
  ⟨rfl, fun _ hx _ => hx, (a.need_le _).trans (by simpa using hroom)⟩

theorem Alarms.StandsIn.tellClosed (a : Alarms) : TellClosed fun h => a.StandsIn h.alarms where
  judgeOutputs _ hh := ⟨hh.full, hh.recs, hh.room⟩
  notice _ _ _ hh := hh
  changePermit h cause n hh := by
    unfold Hub.changePermit
    simp only
    split
    · exact hh
    · exact hh
  fence _ _ hh := hh
  refusal _ hh := hh
  placed _ _ _ _ _ _ _ _ hh := by
    rw [(Hub.schedule_others _ _).1]
    exact hh

theorem Alarms.StandsIn.renewed {a : Alarms} {h : Hub} (hh : a.StandsIn h.alarms) : a.StandsIn (h.renewed (.hub .agentOverload) none) := by
  have hneed : (h.renewed (.hub .agentOverload) none).need [.hub .agentOverload] = h.alarms.need [.hub .agentOverload] :=
    h.alarms.need_update _ _ (·.raised (h.kindEntry .agentOverload) none h.stamp) fun _ => rfl
  refine ⟨hh.full, fun x hx hk => ?_, hneed.trans_le hh.room⟩
  refine List.mem_map.mpr ⟨x, hh.recs x hx hk, if_neg fun he => hk ?_⟩
  rw [he]
  rfl

theorem Alarms.StandsIn.created {a b : Alarms} {h : Hub} (hh : a.StandsIn h.alarms) (hnone : h.alarms.find (.hub .agentOverload) = none)
    (hc : h.alarms.create (h.newRecord (.hub .agentOverload) none) = some b) : a.StandsIn b := by
  have hneed := Alarms.need_create (r := h.newRecord (.hub .agentOverload) none) (keys := [.hub .agentOverload])
    (.inl List.mem_cons_self) hnone hc hh.room
  have hroom := (Alarms.room_of_need hh.room List.mem_cons_self).resolve_right fun hne => hne hnone
  unfold Alarms.create at hc
  have hkind : (h.newRecord (.hub .agentOverload) none).key.kind ≠ .alarmTableFull := show AlarmKind.agentOverload ≠ _ by decide
  rw [if_neg hkind, if_pos hroom] at hc
  cases hc
  exact ⟨hh.full, fun x hx hk => List.mem_append_left _ (hh.recs x hx hk), hneed⟩

theorem Alarms.StandsIn.raiseOverload {a : Alarms} (depth : Nat) {h : Hub} (hh : a.StandsIn h.alarms) :
    a.StandsIn (Hub.raiseAt depth (.hub .agentOverload) none h).alarms := by
  induction depth generalizing h with
  | zero => exact hh
  | succ depth ih =>
    have htells := Alarms.StandsIn.tellClosed a
    have hagain (g : Hub) (hg : a.StandsIn g.alarms) := ih hg
    show a.StandsIn (h.raiseWith (fun k h => Hub.raiseAt depth k none h) (.hub .agentOverload) none).alarms
    obtain ⟨p, -, ⟨reason, hr⟩ | ⟨-, -, hr⟩⟩ | ⟨hnone, ⟨b, hc, hr⟩ | ⟨hc, -⟩⟩ :=
      h.raiseWith_cases (fun k h => Hub.raiseAt depth k none h) (.hub .agentOverload) none
    · rw [hr]
      exact htells.changedWith hagain (h := { h with alarms := h.renewed _ none }) hh.renewed _ _
    · rw [hr]
      exact htells.judgeOutputs _ hh.renewed
    · rw [hr]
      exact htells.changedWith hagain (h := { h with alarms := b }) (hh.created hnone hc) _ _
    · have hroom := (Alarms.room_of_need hh.room List.mem_cons_self).resolve_right fun hne => hne hnone
      obtain ⟨b, hb⟩ := Alarms.create_of_room (h.newRecord (.hub .agentOverload) none) hroom
      rw [hc] at hb
      cases hb

theorem Alarms.StandsIn.changedAll {a : Alarms} (old : Hub) {h : Hub} (keys : List AlarmKey) (reason : AlarmReason) (hh : a.StandsIn h.alarms) :
    a.StandsIn (Hub.changedAll old keys reason h).alarms := by
  have htells := Alarms.StandsIn.tellClosed a
  have hagain (g : Hub) (hg : a.StandsIn g.alarms) : a.StandsIn (raiseAgain (.hub .agentOverload) g).alarms := hg.raiseOverload 8
  exact htells.tellAll hagain (htells.judgeOutputs _ (htells.judgeWithheldWith hagain hh)) reason _

/-! ## Several records changed by key -/

/-- A change made by key after key, where making it twice changes no more: the records of those keys are changed. -/
theorem Alarms.foldl_update (f : AlarmRec → AlarmRec) (hkey : ∀ r, (f r).key = r.key) (hidem : ∀ r, f (f r) = f r) (keys : List AlarmKey)
    (a : Alarms) : (keys.foldl (fun (a : Alarms) key => a.update key f) a).recs =
        a.recs.map (fun r => if r.key ∈ keys ∧ r.key.kind ≠ .alarmTableFull then f r else r) ∧
      (keys.foldl (fun (a : Alarms) key => a.update key f) a).full =
        if keys.any (·.kind == .alarmTableFull) then a.full.map f else a.full := by
  induction keys generalizing a with
  | nil => simp
  | cons key keys ih =>
    obtain ⟨hrecs, hfull⟩ := ih (a.update key f)
    rw [List.foldl_cons, hrecs, hfull, List.any_cons]
    unfold Alarms.update
    by_cases hk : key.kind = .alarmTableFull
    · rw [if_pos hk]
      refine ⟨List.map_congr_left fun r _ => ?_, ?_⟩
      · by_cases hr : r.key.kind = .alarmTableFull
        · rw [if_neg (fun h => h.2 hr), if_neg (fun h => h.2 hr)]
        · have hne : r.key ≠ key := fun he => hr (he ▸ hk)
          simp only [List.mem_cons, hne, false_or]
      · rw [show (key.kind == .alarmTableFull) = true by simpa using hk, Bool.true_or, if_pos rfl]
        split
        · rw [Option.map_map]
          exact congrArg (Option.map · a.full) (funext hidem)
        · rfl
    · rw [if_neg hk]
      refine ⟨?_, ?_⟩
      · rw [List.map_map]
        refine List.map_congr_left fun r _ => ?_
        simp only [Function.comp_apply]
        by_cases hr : r.key = key
        · subst hr
          have hmem : r.key ∈ r.key :: keys := List.mem_cons_self
          rw [if_pos rfl, hkey, if_pos (And.intro hmem hk), hidem, ite_self]
        · simp only [List.mem_cons, hr, false_or, if_false]
      · rw [show (key.kind == .alarmTableFull) = false by simpa using hk, Bool.false_or]

theorem AlarmRec.ack_ack (r : AlarmRec) (t : Stamp) : (r.ack t).ack t = r.ack t := by
  unfold AlarmRec.ack
  cases r.active <;> cases r.key.kind.isEvent <;> rfl

/-! ## ALARM_ACK (R144) -/

section

variable {s : State} {h : Hub} {r : Request} {rest : List Request} {keys : List AlarmKey}

theorem exec_alarmAck_of_takes (ht : s.hub.Takes Code.alarmAck r rest) :
    exec .alarmAck s = .next { s with hub := Hub.alarmAck r (s.hub.popRequest rest) } := State.onHub_take ht Hub.alarmAck

/-- The records that an ALARM_ACK acknowledges. -/
def Hub.ackFresh (h : Hub) (keys : List AlarmKey) : List AlarmRec := h.alarms.all.filter fun x => decide (x.key ∈ keys) && !x.acked

/-- Those of them that become CLEARED. -/
theorem Hub.ackFresh_cleared (h : Hub) (keys : List AlarmKey) : (h.ackFresh keys).filter (fun x => x.active && x.key.kind.isEvent) =
    h.alarms.all.filter fun x => decide (x.key ∈ keys) && !x.acked && x.active && x.key.kind.isEvent := by
  unfold Hub.ackFresh
  rw [List.filter_filter]
  refine List.filter_congr fun x _ => ?_
  rw [Bool.and_comm, ← Bool.and_assoc]

theorem Hub.alarmAck_of_keys (hk : h.ackKeys r.body = some keys) : Hub.alarmAck r h =
    (h.ackAll ((h.ackFresh keys).map (·.key))).answer r .ok (.alarmAck (h.ackFresh keys).length
      ((h.ackFresh keys).filter fun x => x.active && x.key.kind.isEvent).length (h.ackAll ((h.ackFresh keys).map (·.key))).alarms.lamps) := by
  unfold Hub.alarmAck
  rw [hk]
  rfl

theorem Hub.alarmAck_of_refused (hk : h.ackKeys r.body = none) : Hub.alarmAck r h = h.refuse r .badParam := by
  unfold Hub.alarmAck
  rw [hk]

/-- A record of a legal table is the one of its key. -/
theorem Alarms.Legal.eq_of_key {a : Alarms} (ha : a.Legal) {x y : AlarmRec} (hx : x ∈ a.all) (hy : y ∈ a.all) (hk : x.key = y.key) : x = y := by
  obtain ⟨hfull, hrecs, -, hnodup⟩ := ha
  have hxx : a.full = some x ∨ x ∈ a.recs := by simpa [Alarms.all] using hx
  have hyy : a.full = some y ∨ y ∈ a.recs := by simpa [Alarms.all] using hy
  rcases hxx with hxf | hxr <;> rcases hyy with hyf | hyr
  · rw [hxf] at hyf
    cases hyf
    rfl
  · exact absurd (hk ▸ hfull x hxf) (hrecs y hyr)
  · exact absurd (hk ▸ hfull y hyf) (hrecs x hxr)
  · exact List.inj_on_of_nodup_map hnodup hxr hyr hk

/-- A record is among those acknowledged exactly where its key is selected and it was not acknowledged. -/
theorem Hub.mem_ackFresh_key (ha : h.alarms.Legal) {x : AlarmRec} (hx : x ∈ h.alarms.all) :
    x.key ∈ (h.ackFresh keys).map (·.key) ↔ x.key ∈ keys ∧ x.acked = false := by
  constructor
  · intro hmem
    obtain ⟨y, hy, hkey⟩ := List.mem_map.mp hmem
    obtain ⟨hyall, hcond⟩ := List.mem_filter.mp hy
    rw [ha.eq_of_key hyall hx hkey] at hcond
    simpa using hcond
  · rintro ⟨hk, hacked⟩
    exact List.mem_map.mpr ⟨x, List.mem_filter.mpr ⟨hx, by simp [hk, hacked]⟩, rfl⟩

/-- What ALARM_ACK leaves of the table before what follows it. -/
theorem Hub.ackAll_stands (hlen : h.alarms.recs.length < 63) (l : List AlarmKey) :
    Alarms.StandsIn (l.foldl (fun (a : Alarms) key => a.update key (·.ack h.stamp)) h.alarms) (h.ackAll l).alarms := by
  refine Alarms.StandsIn.changedAll h l .acknowledged (h := { h with alarms := _ }) (Alarms.StandsIn.refl ?_)
  rw [(Alarms.foldl_update (·.ack h.stamp) (fun _ => rfl) (fun x => x.ack_ack _) l h.alarms).1, List.length_map]
  exact hlen

theorem alarmSource_iff (v : Nat) (source : Option Slot) : alarmSource v = some source ↔
    v = 0 ∧ source = none ∨ ∃ n : Slot, v = n.val + 1 ∧ source = some n := by
  unfold alarmSource
  split
  · next hzero =>
    constructor
    · rintro he
      cases he
      exact .inl ⟨hzero, rfl⟩
    · rintro (⟨-, rfl⟩ | ⟨n, hn, -⟩)
      · rfl
      · omega
  · next hpos =>
    rw [Option.map_eq_some_iff]
    constructor
    · rintro ⟨n, hn, rfl⟩
      exact .inr ⟨n, Slot.ofNumber_eq hn, rfl⟩
    · rintro (⟨hzero, -⟩ | ⟨n, hn, rfl⟩)
      · exact absurd hzero hpos
      · exact ⟨n, Slot.ofNumber_val hn, rfl⟩

/-- The keys that an ALARM_ACK selects: in mode KEY the one of a record, in mode SEVERITY those of every record of it or below (R144). -/
theorem Hub.ackKeys_iff (h : Hub) (body : List Byte) (keys : List AlarmKey) : h.ackKeys body = some keys ↔
    (fieldAt body 0 1 = 1 ∧ ∃ key : AlarmKey, keys = [key] ∧ alarmSource (fieldAt body 1 1) = some key.source ∧
      ofCode alarmKinds (fieldAt body 2 1) = some key.kind ∧ key.detail = BitVec.ofNat 16 (fieldAt body 3 2) ∧
      (key.source.isSome = true ↔ key.kind.slotSourced = true) ∧ ∃ x ∈ h.alarms.all, x.key = key) ∨
    (fieldAt body 0 1 = 2 ∧ ∃ sev, ofCode severities (fieldAt body 5 1) = some sev ∧
      keys = (h.alarms.all.filter fun x => codeIn severities sev ≤ codeIn severities x.severity).map (·.key)) := by
  have hmode1 (hm : fieldAt body 0 1 = 1) : h.ackKeys body = some keys ↔ ∃ key : AlarmKey, keys = [key] ∧
      alarmSource (fieldAt body 1 1) = some key.source ∧ ofCode alarmKinds (fieldAt body 2 1) = some key.kind ∧
      key.detail = BitVec.ofNat 16 (fieldAt body 3 2) ∧ (key.source.isSome = true ↔ key.kind.slotSourced = true) ∧
      ∃ x ∈ h.alarms.all, x.key = key := by
    unfold Hub.ackKeys
    rw [hm]
    simp only
    cases hsource : alarmSource (fieldAt body 1 1) with
    | none => exact ⟨nofun, fun ⟨_, _, hs, _⟩ => by cases hs⟩
    | some source =>
      cases hkind : ofCode alarmKinds (fieldAt body 2 1) with
      | none => exact ⟨nofun, fun ⟨_, _, _, hk, _⟩ => by cases hk⟩
      | some kind =>
        simp only [List.any_eq_true, beq_iff_eq]
        split
        · next hgood =>
          constructor
          · intro he
            cases he
            exact ⟨_, rfl, rfl, rfl, rfl, Bool.eq_iff_iff.mp hgood.1, hgood.2⟩
          · rintro ⟨⟨source', kind', detail'⟩, rfl, hs, hk, rfl, -⟩
            cases hs
            cases hk
            rfl
        · next hbad =>
          refine ⟨nofun, ?_⟩
          rintro ⟨⟨source', kind', detail'⟩, -, hs, hk, rfl, hsourced, hstands⟩
          cases hs
          cases hk
          exact absurd ⟨Bool.eq_iff_iff.mpr hsourced, hstands⟩ hbad
  have hmode2 (hm : fieldAt body 0 1 = 2) : h.ackKeys body = some keys ↔ ∃ sev, ofCode severities (fieldAt body 5 1) = some sev ∧
      keys = (h.alarms.all.filter fun x => codeIn severities sev ≤ codeIn severities x.severity).map (·.key) := by
    unfold Hub.ackKeys
    rw [hm]
    simp only
    cases ofCode severities (fieldAt body 5 1) with
    | none => exact ⟨nofun, fun ⟨_, hs, _⟩ => by cases hs⟩
    | some sev => exact ⟨fun he => ⟨sev, rfl, (Option.some.inj he).symm⟩, fun ⟨_, hs, hk⟩ => by cases hs; rw [hk]⟩
  by_cases h1 : fieldAt body 0 1 = 1
  · rw [hmode1 h1]
    exact ⟨fun hk => .inl ⟨h1, hk⟩, fun hk => hk.elim (·.2) fun h2 => absurd (h1.symm.trans h2.1) (by decide)⟩
  · by_cases h2 : fieldAt body 0 1 = 2
    · rw [hmode2 h2]
      exact ⟨fun hk => .inr ⟨h2, hk⟩, fun hk => hk.elim (fun h => absurd h.1 h1) (·.2)⟩
    · refine ⟨fun hk => ?_, fun hk => hk.elim (fun h => absurd h.1 h1) fun h => absurd h.1 h2⟩
      unfold Hub.ackKeys at hk
      split at hk
      · next hm => exact absurd hm h1
      · next hm => exact absurd hm h2
      · cases hk

def Hub.withAlarms (h : Hub) (a : Alarms) : Hub := { h with alarms := a }

theorem Hub.withAlarms_quiet (h : Hub) (a : Alarms) : Hub.Quiet h (h.withAlarms a) := by constructor <;> intros <;> rfl

/-- What ALARM_ACK leaves (R144). -/
structure Hub.Acknowledged (h g : Hub) (keys : List AlarmKey) : Prop where
  quiet : Hub.Quiet h g
  acked : h.alarms.recs.length < 63 → ∀ x ∈ h.alarms.recs, x.key.kind ≠ .agentOverload → x.key ∈ keys → x.acked = false →
    x.ack h.stamp ∈ g.alarms.recs
  kept : h.alarms.recs.length < 63 → ∀ x ∈ h.alarms.recs, x.key.kind ≠ .agentOverload → (x.key ∉ keys ∨ x.acked = true) → x ∈ g.alarms.recs
  full : h.alarms.recs.length < 63 → ∀ x, h.alarms.full = some x →
    g.alarms.full = some (if x.key ∈ keys ∧ x.acked = false then x.ack h.stamp else x)
  lamps : g.alarms.lamps = g.lampLevels

theorem Hub.ackAll_acknowledged (ha : h.alarms.Legal) (keys : List AlarmKey) :
    Hub.Acknowledged h (h.ackAll ((h.ackFresh keys).map (·.key))) keys := by
  obtain ⟨hrecs, hfull⟩ := Alarms.foldl_update (·.ack h.stamp) (fun _ => rfl) (fun x => x.ack_ack _) ((h.ackFresh keys).map (·.key)) h.alarms
  have hordinary {x : AlarmRec} (hx : x ∈ h.alarms.recs) : x.key.kind ≠ .alarmTableFull := ha.2.1 x hx
  have hmem {x : AlarmRec} (hx : x ∈ h.alarms.recs) : x ∈ h.alarms.all := List.mem_append_right _ hx
  refine ⟨?_, fun hlen x hx hk hkey hacked => ?_, fun hlen x hx hk hother => ?_, fun hlen x hx => ?_, Hub.changedAll_lamps _ _ _ _⟩
  · have hchanged : Hub.Quiet (h.withAlarms (((h.ackFresh keys).map (·.key)).foldl (fun (a : Alarms) key => a.update key (·.ack h.stamp)) h.alarms))
        (h.ackAll ((h.ackFresh keys).map (·.key))) := Hub.changedAll_quiet _ _ _ _
    exact (h.withAlarms_quiet _).trans hchanged
  · refine (Hub.ackAll_stands hlen _).recs _ ?_ hk
    rw [hrecs]
    exact List.mem_map.mpr ⟨x, hx, if_pos ⟨(Hub.mem_ackFresh_key ha (hmem hx)).mpr ⟨hkey, hacked⟩, hordinary hx⟩⟩
  · refine (Hub.ackAll_stands hlen _).recs _ ?_ hk
    rw [hrecs]
    refine List.mem_map.mpr ⟨x, hx, if_neg fun ⟨hfresh, _⟩ => ?_⟩
    obtain ⟨hkey, hacked⟩ := (Hub.mem_ackFresh_key ha (hmem hx)).mp hfresh
    exact hother.elim (· hkey) fun htrue => absurd (hacked.symm.trans htrue) (by decide)
  · rw [(Hub.ackAll_stands hlen _).full, hfull, hx]
    have hxall : x ∈ h.alarms.all := List.mem_append_left _ (by simpa using hx)
    have hxkind : x.key.kind = .alarmTableFull := ha.1 x hx
    have hany : ((h.ackFresh keys).map (·.key)).any (·.kind == .alarmTableFull) = true ↔ x.key ∈ keys ∧ x.acked = false := by
      rw [← Hub.mem_ackFresh_key ha hxall, List.any_eq_true]
      constructor
      · rintro ⟨key, hkey, hkind⟩
        obtain ⟨y, hy, rfl⟩ := List.mem_map.mp hkey
        have hyall := (List.mem_filter.mp hy).1
        have hykind : y.key.kind = .alarmTableFull := by simpa using hkind
        have hyx : y = x := by
          have hyy : h.alarms.full = some y ∨ y ∈ h.alarms.recs := by simpa [Alarms.all] using hyall
          rcases hyy with hyf | hyr
          · rw [hx] at hyf
            cases hyf
            rfl
          · exact absurd hykind (hordinary hyr)
        exact hyx ▸ hkey
      · intro hkey
        exact ⟨x.key, hkey, by simpa using hxkind⟩
    by_cases hsel : x.key ∈ keys ∧ x.acked = false
    · rw [if_pos (hany.mpr hsel), if_pos hsel]
      rfl
    · rw [if_neg (fun h => hsel (hany.mp h)), if_neg hsel]

end

/-! ## KIND_SET (R153) -/

section

variable {s : State} {h : Hub} {r : Request} {rest : List Request} {kind : AlarmKind} {entry : KindEntry}

theorem exec_kindSet_of_takes (ht : s.hub.Takes Code.kindSet r rest) :
    exec .kindSet s = .next { s with hub := Hub.kindSet r (s.hub.popRequest rest) } := State.onHub_take ht Hub.kindSet

theorem Hub.kindSet_of_valid (hk : ofCode alarmKinds (fieldAt r.body 0 1) = some kind) (he : parseKindEntry kind (r.body.drop 1) = some entry) :
    Hub.kindSet r h = (h.setKind kind entry).answer r .ok
      (.kindSet entry ((h.setKind kind entry).alarms.all.filter fun x => x.key.kind == kind).length
        (((h.setKind kind entry).alarms.all.filter fun x => x.key.kind == kind).filter (·.active)).length) := by
  unfold Hub.kindSet
  rw [hk]
  simp only
  rw [he]

theorem Hub.kindSet_of_no_kind (hk : ofCode alarmKinds (fieldAt r.body 0 1) = none) : Hub.kindSet r h = h.refuse r .badParam := by
  unfold Hub.kindSet
  rw [hk]

theorem Hub.kindSet_of_no_entry (hk : ofCode alarmKinds (fieldAt r.body 0 1) = some kind) (he : parseKindEntry kind (r.body.drop 1) = none) :
    Hub.kindSet r h = h.refuse r .badParam := by
  unfold Hub.kindSet
  rw [hk]
  simp only
  rw [he]

/-- The entries that KIND_SET refuses (R137, R153). -/
theorem parseKindEntry_refused {b : List Byte} (hbad : fieldAt b 0 1 = 1 ∧ ofCode severities (fieldAt b 1 1) = none ∨
    ofCode actions (fieldAt b 3 1) = none ∨ ofCode actions (fieldAt b 3 1) = some .fenceSlot ∧ kind.slotSourced = false) :
    parseKindEntry kind b = none := by
  cases hparse : parseKindEntry kind b with
  | none => rfl
  | some entry =>
    have hfence := parseKindEntry_legal hparse
    unfold parseKindEntry at hparse
    simp only [Option.bind_eq_bind, Option.bind_eq_some_iff] at hparse
    obtain ⟨severity, hsev, notify, -, action, haction, relay, -, hentry⟩ := hparse
    rcases hbad with ⟨hflag, hnone⟩ | hnone | ⟨hfenced, hsourced⟩
    · rw [hflag, hnone] at hsev
      cases hsev
    · rw [hnone] at haction
      cases haction
    · rw [hfenced] at haction
      cases haction
      split at hentry
      · cases hentry
      · cases hentry
        exact absurd ((hfence rfl).symm.trans hsourced) (by decide)

/-- A record with its kind's entry formed again (R138). -/
def AlarmRec.reformed (x : AlarmRec) (kind : AlarmKind) (entry : KindEntry) : AlarmRec :=
  if x.key.kind = kind then { x with severity := effectiveSeverity entry kind x.reported } else x

theorem filter_kind_active (l : List AlarmRec) (kind : AlarmKind) : (l.filter fun x => x.key.kind == kind).filter (·.active) =
    l.filter fun x => x.key.kind == kind && x.active := by
  rw [List.filter_filter]
  exact List.filter_congr fun x _ => Bool.and_comm _ _

/-- What KIND_SET leaves. -/
structure Hub.KindSet (h g : Hub) (kind : AlarmKind) (entry : KindEntry) : Prop where
  slots : g.slots = h.slots
  tables : g.tables = { h.tables with kinds := h.tables.kinds.set kind.idx entry }
  inbound : g.port.inbound = h.port.inbound
  recs : h.alarms.recs.length < 63 → ∀ x ∈ h.alarms.recs, x.key.kind ≠ .agentOverload → x.reformed kind entry ∈ g.alarms.recs
  full : h.alarms.recs.length < 63 → ∀ x, h.alarms.full = some x → g.alarms.full = some (x.reformed kind entry)
  lamps : g.alarms.lamps = g.lampLevels

/-- The hub with a kind's entry replaced and its records formed again, before what follows. -/
def Hub.reformed (h : Hub) (kind : AlarmKind) (entry : KindEntry) : Hub :=
  { h with tables := { h.tables with kinds := h.tables.kinds.set kind.idx entry }, alarms := h.alarms.reform kind entry }

theorem AlarmRec.reformed_kind (x : AlarmRec) : (x.reformed kind entry).key.kind = x.key.kind := by
  unfold AlarmRec.reformed
  split <;> rfl

theorem Hub.setKind_set (h : Hub) (kind : AlarmKind) (entry : KindEntry) : Hub.KindSet h (h.setKind kind entry) kind entry := by
  let keys := (h.alarms.all.filter fun x => decide (x.key.kind = kind ∧ x.severity ≠ effectiveSeverity entry kind x.reported)).map (·.key)
  have hquiet : Hub.Quiet (h.reformed kind entry) (h.setKind kind entry) := Hub.changedAll_quiet h (h.reformed kind entry) keys .severity
  have hstands (hlen : h.alarms.recs.length < 63) : Alarms.StandsIn (h.alarms.reform kind entry) (h.setKind kind entry).alarms := by
    refine Alarms.StandsIn.changedAll h keys .severity (h := h.reformed kind entry) (Alarms.StandsIn.refl ?_)
    unfold Alarms.reform
    rw [List.length_map]
    exact hlen
  refine ⟨hquiet.slots, hquiet.tables, by rw [hquiet.port]; rfl, fun hlen x hx hk => ?_, fun hlen x hx => ?_, Hub.changedAll_lamps _ _ _ _⟩
  · exact (hstands hlen).recs _ (List.mem_map.mpr ⟨x, hx, rfl⟩) (fun he => hk (x.reformed_kind.symm.trans he))
  · rw [(hstands hlen).full]
    unfold Alarms.reform
    rw [hx]
    rfl

/-! ## ALARM_PURGE (R145) -/

theorem exec_alarmPurge_of_takes (ht : s.hub.Takes Code.alarmPurge r rest) :
    exec .alarmPurge s = .next { s with hub := Hub.alarmPurge r (s.hub.popRequest rest) } := State.onHub_take ht Hub.alarmPurge

end

/-- A severity or below, by its code or by its rank. -/
theorem codeIn_severities_le (rank : Severity → Nat) (hrank : ∀ sev, rank sev + codeIn severities sev = 5) (a b : Severity) :
    codeIn severities a ≤ codeIn severities b ↔ rank b ≤ rank a := by
  have ha := hrank a
  have hb := hrank b
  omega

/-- Settles O60: the records that each request changes, what follows left aside by the room in the table, and the outputs judged last. -/
theorem alarmRequests : Obligations.AlarmRequests := by
  intro s r rest h steady atZero records rank
  have hrank (sev : Severity) : rank sev + codeIn severities sev = 5 := by cases sev <;> decide
  refine ⟨fun keys => ?_, fun ht ha => ⟨fun keys hk => ?_, fun hk => ?_⟩, fun ht => ?_, fun ht => ⟨fun kind entry hk he => ?_, fun kind hk => ?_,
    fun hk => ?_⟩⟩
  · rw [Hub.ackKeys_iff]
    simp only [alarmSource_iff, codeIn_severities_le rank hrank]
    exact Iff.rfl
  · have hg := Hub.alarmAck_of_keys (h := h.popRequest rest) hk
    obtain ⟨hquiet, hacked, hkept, hfull, hlamps⟩ := (h.popRequest rest).ackAll_acknowledged ha keys
    refine ⟨_, exec_alarmAck_of_takes ht, ?_⟩
    dsimp only
    rw [hg]
    generalize (h.popRequest rest).ackAll (((h.popRequest rest).ackFresh keys).map (·.key)) = g at *
    refine ⟨hquiet.slots, hquiet.tables, fun x ⟨hx, hkind, hlen⟩ => hacked hlen x hx hkind, fun x ⟨hx, hkind, hlen⟩ => hkept hlen x hx hkind,
      fun x ⟨hx, hlen⟩ => ?_, hlamps, ?_⟩
    · rw [show (g.answer r _ _).alarms.full = _ from hfull hlen x hx]
      have hevent : (x.ack h.stamp) = { x with acked := true, lastChange := h.stamp, active := false } := by
        unfold AlarmRec.ack
        rw [ha.1 x hx, show AlarmKind.isEvent .alarmTableFull = true from rfl, Bool.not_true, Bool.and_false]
      rw [← hevent]
      rfl
    · have hreplied := Hub.answer_replied (rest := rest) g r .ok (.alarmAck ((h.popRequest rest).ackFresh keys).length
        (((h.popRequest rest).ackFresh keys).filter fun x => x.active && x.key.kind.isEvent).length g.alarms.lamps)
        (by rw [hquiet.port]; rfl)
      rw [Hub.ackFresh_cleared, hlamps] at hreplied
      rw [Hub.ackFresh_cleared, hlamps]
      exact hreplied
  · exact State.refused_badParam (Hub.alarmAck r) (exec_alarmAck_of_takes ht) (Hub.alarmAck_of_refused hk)
  · exact ⟨_, exec_alarmPurge_of_takes ht, rfl⟩
  · have hg := Hub.kindSet_of_valid (h := h.popRequest rest) hk he
    obtain ⟨hslots, htables, hinbound, hrecs, hfull, hlamps⟩ := (h.popRequest rest).setKind_set kind entry
    refine ⟨_, exec_kindSet_of_takes ht, ?_⟩
    dsimp only
    rw [hg]
    generalize (h.popRequest rest).setKind kind entry = g at *
    refine ⟨hslots, htables, fun x ⟨hx, hkind, hlen⟩ hown => ?_, fun x ⟨hx, hkind, hlen⟩ hother => ?_, fun x ⟨hx, hlen⟩ => hfull hlen x hx, hlamps, ?_⟩
    · have hmem := hrecs hlen x hx hkind
      rwa [show x.reformed kind entry = _ from if_pos hown] at hmem
    · have hmem := hrecs hlen x hx hkind
      rwa [show x.reformed kind entry = _ from if_neg hother] at hmem
    · have hreplied := Hub.answer_replied (rest := rest) g r .ok (.kindSet entry (g.alarms.all.filter fun x => x.key.kind == kind).length
        ((g.alarms.all.filter fun x => x.key.kind == kind).filter (·.active)).length) hinbound
      rw [filter_kind_active] at hreplied
      rw [filter_kind_active]
      exact hreplied
  · refine ⟨parseKindEntry_refused, fun he => ?_⟩
    exact State.refused_badParam (Hub.kindSet r) (exec_kindSet_of_takes ht) (Hub.kindSet_of_no_entry hk he)
  · exact State.refused_badParam (Hub.kindSet r) (exec_kindSet_of_takes ht) (Hub.kindSet_of_no_kind hk)

end Sys2Proof.Machine
end

section
/-! PROOFS. The scheduler's choice, and completed transmissions (R14, R45 to R47). -/

namespace Sys2Proof.Machine

/-! ## The scheduler's choice (R46, R85) -/

section

variable {h : Hub} {n : Slot}

/-- A QUIESCE at the CONTROL head is held while another queue holds an entry (R85). -/
theorem Hub.quiesceHeld_iff (h : Hub) (n : Slot) : h.quiesceHeld n = true ↔ h.slots[n].state = .draining ∧
    (∃ id later, h.ports[n].controlQ = id :: later ∧ h.store.isQuiesce id = true) ∧
    (h.ports[n].timingQ ≠ [] ∨ h.ports[n].bulkQ ≠ []) := by
  have hhead : h.ports[n].controlQ.head?.any h.store.isQuiesce = true ↔
      ∃ id later, h.ports[n].controlQ = id :: later ∧ h.store.isQuiesce id = true := by
    cases h.ports[n].controlQ with
    | nil => exact ⟨nofun, fun ⟨_, _, he, _⟩ => by cases he⟩
    | cons id later => exact ⟨fun hq => ⟨id, later, rfl, hq⟩, fun ⟨_, _, he, hq⟩ => by cases he; exact hq⟩
  have hother : (!(h.ports[n].timingQ.isEmpty && h.ports[n].bulkQ.isEmpty)) = true ↔ h.ports[n].timingQ ≠ [] ∨ h.ports[n].bulkQ ≠ [] := by
    cases h.ports[n].timingQ <;> cases h.ports[n].bulkQ <;> simp
  unfold Hub.quiesceHeld
  simp only [Bool.and_eq_true, beq_iff_eq, hhead, hother, and_assoc]

theorem Hub.choose_identifying (hs : h.slots[n].state = .identifying) : h.choose n = h.ports[n].identify.map fun id => (.identify, id) := by
  unfold Hub.choose
  simp only [hs]

theorem Hub.choose_none (hs : ¬ (h.slots[n].state = .forwarding ∨ h.slots[n].state = .draining)) (hi : h.slots[n].state ≠ .identifying) :
    h.choose n = none := by
  unfold Hub.choose
  simp only
  split
  · next hst => exact absurd hst hi
  · next hst => exact absurd (.inl hst) hs
  · next hst => exact absurd (.inr hst) hs
  · rfl

variable (hs : h.slots[n].state = .forwarding ∨ h.slots[n].state = .draining) {id : Nat} {later : List Nat}

include hs

theorem Hub.choose_timing (ht : h.ports[n].timingQ = id :: later) : h.choose n = some (.timing, id) := by
  unfold Hub.choose
  obtain hs | hs := hs <;> simp only [hs, ht]

theorem Hub.choose_bulk (ht : h.ports[n].timingQ = []) (hb : h.ports[n].bulkQ = id :: later)
    (hc : h.ports[n].controlRun = 8 ∨ h.ports[n].controlQ = [] ∨ h.quiesceHeld n = true) : h.choose n = some (.bulk, id) := by
  unfold Hub.choose
  obtain hs | hs := hs <;> simp only [hs, ht, hb, if_pos hc]

theorem Hub.choose_control (ht : h.ports[n].timingQ = []) (hq : h.ports[n].controlQ = id :: later) (hh : ¬ h.quiesceHeld n = true)
    (hc : h.ports[n].controlRun ≠ 8 ∨ h.ports[n].bulkQ = []) : h.choose n = some (.control, id) := by
  have hchosen : ∀ bulk : Nat, (if h.ports[n].controlRun = 8 ∨ h.ports[n].controlQ = [] ∨ h.quiesceHeld n = true then some (.bulk, bulk)
      else (h.ports[n].controlQ.head?).map (Place.control, ·)) = some (Place.control, id) ∨ h.ports[n].bulkQ = [] := by
    intro bulk
    by_cases hb : h.ports[n].bulkQ = []
    · exact .inr hb
    · left
      rw [if_neg, hq]
      · rfl
      · rintro (hrun | hnil | hheld)
        · exact hc.elim (· hrun) hb
        · rw [hq] at hnil
          cases hnil
        · exact hh hheld
  unfold Hub.choose
  cases hb : h.ports[n].bulkQ with
  | nil => obtain hs | hs := hs <;> simp only [hs, ht, hq, hb]
  | cons bulk rest =>
    have hpick := (hchosen bulk).resolve_right (by rw [hb]; nofun)
    obtain hs | hs := hs <;> simp only [hs, ht, hb] <;> exact hpick

theorem Hub.choose_empty (he : h.ports[n].entries = []) : h.choose n = none := by
  unfold Port.entries at he
  simp only [List.append_eq_nil_iff] at he
  obtain ⟨⟨ht, hq⟩, hb⟩ := he
  unfold Hub.choose
  obtain hs | hs := hs <;> simp only [hs, ht, hq, hb]

end

/-- The choice looks at no link. -/
theorem Hub.choose_congr {h g : Hub} {n : Slot} (hs : g.slots = h.slots) (hp : g.ports = h.ports) (ht : g.store = h.store) :
    g.choose n = h.choose n := by
  unfold Hub.choose Hub.quiesceHeld
  rw [hs, hp, ht]

/-! ## Completed transmissions (R14, R47, R86) -/

/-- The port with the entry of a completed frame gone, the run and the counter changed (R46, R47). -/
def Port.completed (p : Port) (x : InFlight) : Port :=
  { p.leave x.place with controlRun := (p.leave x.place).runAfter x.place
                         counters := { p.counters with framesSent := p.counters.framesSent + 1 } }

/-- The hub with the completed frame gone, before the drain or the scheduler is judged. -/
def Hub.gone (h : Hub) (n : Slot) (x : InFlight) : Hub :=
  { h.modLink n fun l => { l with tx := none } with store := h.store.deref x.id }.modPort n (·.completed x)

/-- The same with the report taken to the Timing Unit (R123). -/
def Hub.reported (h : Hub) (n : Slot) (x : InFlight) : Hub :=
  match h.store.find x.id with
  | some f => if f.frame.cls = .timing then (h.gone n x).modTrec n (·.sent f.frame x.sentAt) else h.gone n x
  | none => h.gone n x

section

variable {h : Hub} {n : Slot} {x : InFlight}

theorem Hub.complete_of_none (hx : h.links[n].tx = none) : h.complete n = h := by
  unfold Hub.complete
  rw [hx]

theorem Hub.complete_of_some (hx : h.links[n].tx = some x) :
    h.complete n = if (h.reported n x).drainDone n then (h.reported n x).enterOff n .drainDone else (h.reported n x).schedule n := by
  unfold Hub.complete
  rw [hx]
  rfl

/-- The report to the Timing Unit changes the slot's timing record alone. -/
theorem Hub.reported_eq (h : Hub) (n : Slot) (x : InFlight) : h.reported n x = { h.gone n x with trecs := (h.reported n x).trecs } := by
  unfold Hub.reported
  cases h.store.find x.id with
  | none => rfl
  | some f =>
    by_cases hc : f.frame.cls = .timing
    · simp only [if_pos hc]; rfl
    · simp only [if_neg hc]

theorem Hub.reported_slots : (h.reported n x).slots = h.slots := by rw [Hub.reported_eq]; rfl

theorem Hub.reported_clock : (h.reported n x).clock = h.clock := by rw [Hub.reported_eq]; rfl

theorem Hub.reported_store : (h.reported n x).store = h.store.deref x.id := by rw [Hub.reported_eq]; rfl

theorem Hub.reported_ports : (h.reported n x).ports = (h.gone n x).ports := by rw [Hub.reported_eq]

theorem Hub.reported_links : (h.reported n x).links = (h.gone n x).links := by rw [Hub.reported_eq]

theorem Hub.gone_links : (h.gone n x).links = (h.modLink n fun l => { l with tx := none }).links := rfl

theorem Hub.reported_port : (h.reported n x).ports[n] = h.ports[n].completed x := by
  rw [Hub.reported_ports]
  unfold Hub.gone
  rw [Hub.modPort_self]
  rfl

theorem Hub.reported_link : (h.reported n x).links[n] = { h.links[n] with tx := none } := by
  rw [Hub.reported_links, Hub.gone_links, Hub.modLink_self]

theorem Hub.reported_others (m : Slot) (hm : m ≠ n) :
    (h.reported n x).ports[m] = h.ports[m] ∧ (h.reported n x).links[m] = h.links[m] := by
  rw [Hub.reported_ports, Hub.reported_links, Hub.gone_links, Hub.modLink_other _ _ _ _ hm.symm]
  unfold Hub.gone
  rw [Hub.modPort_other _ _ _ _ hm.symm]
  exact ⟨rfl, rfl⟩

/-- The t1 of an outstanding probe (R14, R123). -/
theorem Hub.reported_probe {f : StoredFrame} {probe : Probe} (hf : h.store.find x.id = some f) (hc : f.frame.cls = .timing)
    (hk : f.frame.kind = Kind.delayProbe) (hp : h.trecs[n].probe = some probe) (hseq : f.frame.sequence = probe.sequence) (ht : probe.t1 = none) :
    (h.reported n x).trecs[n].probe = some { probe with t1 := x.sentAt } := by
  have hreported : h.reported n x = (h.gone n x).modTrec n (·.sent f.frame x.sentAt) := by
    unfold Hub.reported
    rw [hf]
    exact if_pos hc
  have hsame : (h.gone n x).trecs[n] = h.trecs[n] := rfl
  rw [hreported, Hub.modTrec_self, hsame]
  unfold TimingRec.sent
  rw [hp]
  exact congrArg TimingRec.probe (if_pos ⟨hk, hseq, by rw [ht]; rfl⟩)

theorem Hub.reported_drainDone : (h.reported n x).drainDone n = true ↔
    h.slots[n].state = .draining ∧ h.slots[n].quiesced = true ∧ (h.ports[n].leave x.place).entries = [] := by
  unfold Hub.drainDone
  rw [Hub.reported_slots, Hub.reported_port, Hub.reported_link]
  simp only [Bool.and_eq_true, beq_iff_eq, List.isEmpty_iff, Option.isNone_none, and_true, and_assoc]
  exact Iff.rfl

/-- What the scheduler hands over on a LOCKED link that sends nothing (R13, R45). -/
theorem Hub.schedule_tx {g : Hub} {n : Slot} (htx : g.links[n].tx = none) : (g.schedule n).links[n].tx =
    if g.links[n].state = .locked then (g.choose n).map fun c =>
      { place := c.1, id := c.2, sentAt := if (g.store.find c.2).any (·.frame.cls == .timing) then some g.clock.now else none }
    else none := by
  unfold Hub.schedule
  by_cases hl : g.links[n].state = .locked
  · have hready : (g.links[n].state == .locked && g.links[n].tx.isNone) = true := by rw [hl, htx]; rfl
    simp only [hready, if_true, if_pos hl]
    cases g.choose n with
    | none => exact htx
    | some c => simp only [Hub.modLink_self]; rfl
  · have hready : ¬ (g.links[n].state == .locked && g.links[n].tx.isNone) = true := fun htrue =>
      hl (beq_iff_eq.mp (Bool.and_eq_true_iff.mp htrue).1)
    rw [if_neg hready, if_neg hl]
    exact htx

theorem Port.completed_eq (p : Port) (x : InFlight) (run : Nat) (hrun : (p.leave x.place).runAfter x.place = run) : p.completed x =
    { p.leave x.place with controlRun := run, counters := { p.counters with framesSent := p.counters.framesSent + 1 } } := by
  subst hrun
  rfl

end

theorem exec_transmissionComplete (s : State) (n : Slot) (dt : Nat) :
    exec (.transmissionComplete n dt) s = s.onHub fun h => (h.run dt).complete n := rfl

/-- What a completion leaves where the scheduler judges again. -/
structure Hub.Completed (h g : Hub) (n : Slot) (x : InFlight) : Prop where
  clock : g.clock = h.clock
  slots : g.slots = h.slots
  store : g.store = h.store.deref x.id
  port : g.ports[n] = h.ports[n].completed x
  others : ∀ m : Slot, m ≠ n → g.ports[m] = h.ports[m] ∧ g.links[m] = h.links[m]
  probe : ∀ f probe, h.store.find x.id = some f → f.frame.cls = .timing → f.frame.kind = Kind.delayProbe → h.trecs[n].probe = some probe →
    f.frame.sequence = probe.sequence → probe.t1 = none → g.trecs[n].probe = some { probe with t1 := x.sentAt }
  tx : g.links[n].tx = if h.links[n].state = .locked then (g.choose n).map fun c =>
      { place := c.1, id := c.2, sentAt := if (g.store.find c.2).any (·.frame.cls == .timing) then some h.clock.now else none }
    else none

theorem Hub.reported_schedule (h : Hub) (n : Slot) (x : InFlight) : Hub.Completed h ((h.reported n x).schedule n) n x := by
  obtain ⟨hframe, hothers⟩ := (h.reported n x).schedule_others n
  have hslots : ((h.reported n x).schedule n).slots = (h.reported n x).slots := by rw [hframe]
  have hports := (h.reported n x).schedule_ports n
  have hstore := (h.reported n x).schedule_store n
  refine ⟨?_, hslots.trans Hub.reported_slots, hstore.trans Hub.reported_store, ?_, fun m hm => ?_, fun f probe hf hc hk hp hs ht => ?_, ?_⟩
  · rw [hframe]; exact Hub.reported_clock
  · rw [hports]; exact Hub.reported_port
  · rw [hports, hothers m hm]; exact Hub.reported_others m hm
  · rw [hframe]; exact Hub.reported_probe hf hc hk hp hs ht
  · rw [Hub.schedule_tx (by rw [Hub.reported_link]), Hub.choose_congr hslots hports hstore, hstore, Hub.reported_clock]
    rw [Hub.reported_link]

/-- Settles O45: the choice by the slot's state and the queues, and a completion by whether it ends a drain. -/
theorem transmissionComplete : Obligations.TransmissionComplete := by
  refine ⟨fun h n => ?_, fun s n dt => ⟨fun hx => ?_, fun x hx => ?_⟩⟩
  · intro state p held sends
    have hheld : h.quiesceHeld n = true ↔ held := h.quiesceHeld_iff n
    refine ⟨Hub.choose_identifying, Hub.choose_none, fun hs id later => Hub.choose_timing hs, fun hs ht id later hb hc => ?_,
      fun hs ht id later hq hh hc => ?_, Hub.choose_empty⟩
    · exact Hub.choose_bulk hs ht hb (hc.imp_right (Or.imp_right hheld.mpr))
    · exact Hub.choose_control hs ht hq (fun htrue => hh (hheld.mp htrue)) hc
  · exact (exec_transmissionComplete s n dt).trans (State.onHub_to (Hub.complete_of_none (h := s.hub.run dt) hx))
  · intro q drained
    have hdone : ((s.hub.run dt).reported n x).drainDone n = true ↔ drained := Hub.reported_drainDone
    have hcomplete := (exec_transmissionComplete s n dt).trans (State.onHub_to (Hub.complete_of_some (h := s.hub.run dt) hx))
    refine ⟨fun hn => ?_, fun hd => ?_⟩
    · rw [if_neg (fun htrue => hn (hdone.mp htrue))] at hcomplete
      obtain ⟨hclock, hslots, hstore, hport, hothers, hprobe, htx⟩ := (s.hub.run dt).reported_schedule n x
      generalize ((s.hub.run dt).reported n x).schedule n = g at *
      refine ⟨_, hcomplete, hclock, hslots, hstore, ?_, hothers, hprobe, htx⟩
      rw [hport]
      refine Port.completed_eq _ x _ ?_
      obtain ⟨place, id, sentAt⟩ := x
      show ((s.hub.ports[n]).leave place).runAfter place = _
      cases place with
      | timing => rfl
      | bulk => rfl
      | control => simp only [Port.runAfter, List.isEmpty_iff]; rfl
      | identify => simp only [Port.runAfter, List.isEmpty_iff]; rfl
    · rw [if_pos (hdone.mpr hd)] at hcomplete
      obtain ⟨hslot, hshut, -⟩ := ((s.hub.run dt).reported n x).enterOff_spec n .drainDone
      have hstamp : ((s.hub.run dt).reported n x).stamp = (s.hub.run dt).stamp := by
        unfold Hub.stamp
        rw [Hub.reported_clock]
      rw [hstamp, Hub.reported_slots] at hslot
      generalize ((s.hub.run dt).reported n x).enterOff n .drainDone = g at *
      exact ⟨_, hcomplete, hslot, hshut⟩

end Sys2Proof.Machine
end

section
/-! PROOFS. Sweeps (section 9.4): the queries of a sweep, its answers and its end. -/

namespace Sys2Proof.Machine

/-! ## The lists of pairs -/

/-- The pairs after one has been put at its place. -/
theorem mem_insertSlot_iff {α : Type} (n : Slot) (a : α) (p : Slot × α) (l : List (Slot × α)) :
    p ∈ insertSlot n a l ↔ p = (n, a) ∨ p ∈ l := by
  induction l with
  | nil => simp [insertSlot]
  | cons q l ih =>
    rw [insertSlot]
    split
    · rw [List.mem_cons]
    · rw [List.mem_cons, ih, List.mem_cons]
      exact or_left_comm

/-- A pair of a new slot keeps the ascending order. -/
theorem pairwise_insertSlot {α : Type} (n : Slot) (a : α) {l : List (Slot × α)} (hl : l.Pairwise fun p q => p.1 < q.1)
    (hn : n ∉ l.map (·.1)) : (insertSlot n a l).Pairwise fun p q => p.1 < q.1 := by
  induction l with
  | nil => exact List.pairwise_singleton _ _
  | cons q l ih =>
    obtain ⟨hq, hl⟩ := List.pairwise_cons.mp hl
    rw [List.map_cons, List.mem_cons, not_or] at hn
    obtain ⟨hne, hnl⟩ := hn
    rw [insertSlot]
    split
    · next hlt =>
      refine List.pairwise_cons.mpr ⟨fun p hp => ?_, List.pairwise_cons.mpr ⟨hq, hl⟩⟩
      obtain rfl | hp := List.mem_cons.mp hp
      · exact hlt
      · exact hlt.trans (hq p hp)
    · next hge =>
      refine List.pairwise_cons.mpr ⟨fun p hp => ?_, ih hl hnl⟩
      obtain rfl | hp := (mem_insertSlot_iff n a p l).mp hp
      · exact lt_of_le_of_ne (not_lt.mp hge) (Ne.symm hne)
      · exact hq p hp

/-! ## The body of the reply (R168) -/

theorem allSlots_ascending : allSlots.Pairwise (· < ·) := by decide

/-- The first slot of a mask is its least. -/
theorem Mask.head_slots_iff (m : SlotMask) (n : Slot) :
    (Mask.slots m).head? = some n ↔ Mask.has m n = true ∧ ∀ k, Mask.has m k = true → n ≤ k := by
  have hsorted : (Mask.slots m).Pairwise (· < ·) := allSlots_ascending.filter _
  have hmem := fun k => Mask.mem_slots m k
  generalize Mask.slots m = l at *
  simp only [← hmem]
  cases l with
  | nil => simp
  | cons k l =>
    obtain ⟨hlt, -⟩ := List.pairwise_cons.mp hsorted
    constructor
    · intro he
      obtain rfl : k = n := Option.some.inj he
      refine ⟨List.mem_cons_self, fun j hj => ?_⟩
      obtain rfl | hj := List.mem_cons.mp hj
      · exact le_refl _
      · exact (hlt j hj).le
    · rintro ⟨hn, hle⟩
      obtain rfl | hn := List.mem_cons.mp hn
      · rfl
      · exact absurd (hlt n hn) (not_lt.mpr (hle k List.mem_cons_self))

theorem Sweep.firstFailed_iff (w : Sweep) (n : Slot) :
    w.body.firstFailed = some n ↔ n ∈ w.failures.map (·.1) ∧ ∀ m ∈ w.failures.map (·.1), n ≤ m := by
  show (Mask.slots w.remaining).head? = some n ↔ _
  rw [Mask.head_slots_iff]
  simp only [Sweep.has_remaining]

/-! ## The end of a sweep -/

/-- Every slot of a list fails: it leaves the pending mask, and joins the failures. -/
theorem Sweep.failSlots_eq (l : List Slot) (reason : SweepFailure) (w : Sweep) :
    let w' := l.foldl (fun w n => w.fail n reason) w
    w' = { w with pending := w'.pending, failures := w'.failures } ∧
      (∀ n, Mask.has w'.pending n = true ↔ Mask.has w.pending n = true ∧ n ∉ l) ∧
      ∀ p, p ∈ w'.failures ↔ p ∈ w.failures ∨ p.1 ∈ l ∧ p.2 = reason := by
  induction l generalizing w with
  | nil => exact ⟨rfl, by simp, by simp⟩
  | cons k l ih =>
    obtain ⟨heq, hpending, hfailures⟩ := ih (w.fail k reason)
    refine ⟨heq, fun n => (hpending n).trans ?_, fun p => (hfailures p).trans ?_⟩
    · simp only [Sweep.fail, Mask.has_erase, Bool.and_eq_true, Bool.not_eq_true', decide_eq_false_iff_not, List.mem_cons, not_or,
        and_assoc, @eq_comm _ k n]
    · simp only [Sweep.fail, mem_insertSlot_iff, List.mem_cons, Prod.ext_iff, or_and_right]
      tauto

theorem Mask.eq_zero {m : SlotMask} (hm : ∀ n, Mask.has m n = false) : m = 0 := by
  refine BitVec.eq_of_getLsbD_eq fun i hi => ?_
  have hbit : m.getLsbD i = false := hm ⟨i, hi⟩
  rw [hbit]
  simp

/-- The sweep with every pending slot failed for one reason. -/
def Sweep.failAll (w : Sweep) (reason : SweepFailure) : Sweep :=
  (Mask.slots w.pending).foldl (fun w n => w.fail n reason) w

theorem Sweep.failAll_eq (w : Sweep) (reason : SweepFailure) :
    w.failAll reason = { w with pending := 0, failures := (w.failAll reason).failures } ∧
      ∀ p, p ∈ (w.failAll reason).failures ↔ p ∈ w.failures ∨ Mask.has w.pending p.1 = true ∧ p.2 = reason := by
  obtain ⟨heq, hpending, hfailures⟩ := Sweep.failSlots_eq (Mask.slots w.pending) reason w
  simp only [Mask.mem_slots] at hpending hfailures
  have hzero : (w.failAll reason).pending = 0 := Mask.eq_zero fun n => by
    cases hn : Mask.has (w.failAll reason).pending n with
    | false => rfl
    | true =>
      obtain ⟨hin, hout⟩ := (hpending n).mp hn
      exact absurd hin hout
  exact ⟨by rw [← hzero]; exact heq, hfailures⟩

/-! ## The queries of a sweep (R164) -/

/-- A slot queried gets its query while the reserve has a block: the slots are served in the order of the list. -/
def SentAmong (queried : List Slot) (free : Nat) (n : Slot) : Prop := n ∈ queried ∧ queried.idxOf n < free

theorem sentAmong_append {queried : List Slot} {n : Slot} (hn : n ∉ queried) (free : Nat) (m : Slot) :
    SentAmong (queried ++ [n]) free m ↔ SentAmong queried free m ∨ m = n ∧ queried.length < free := by
  unfold SentAmong
  by_cases hm : m ∈ queried
  · have hne : m ≠ n := fun he => hn (he ▸ hm)
    rw [List.idxOf_append_of_mem hm]
    simp [hm, hne]
  · by_cases he : m = n
    · subst he
      rw [List.idxOf_append_of_notMem hm]
      simp [hm]
    · simp [hm, he]

theorem idxOf_append_self {queried : List Slot} {n : Slot} (hn : n ∉ queried) : (queried ++ [n]).idxOf n = queried.length := by
  rw [List.idxOf_append_of_notMem hn]
  simp

theorem Hub.place_placed_of_room {h : Hub} {n : Slot} {frame : Frame} (htakes : h.slots[n].state.takesAgent .control = true)
    (hroom : h.store.freeReserve ≠ 0) : (h.place n .control frame).2 = true := by
  unfold Hub.place Hub.placeWith
  simp only [htakes, Bool.not_true, Bool.false_eq_true, if_false, reduceCtorEq, if_neg hroom]

theorem Hub.place_placed_of_full {h : Hub} {n : Slot} {frame : Frame} (htakes : h.slots[n].state.takesAgent .control = true)
    (hfull : h.store.freeReserve = 0) : (h.place n .control frame).2 = false := by
  unfold Hub.place Hub.placeWith
  simp only [htakes, Bool.not_true, Bool.false_eq_true, if_false, reduceCtorEq, if_pos hfull]

/-- The slots of a list that are FORWARDING. -/
def Hub.queriedOf (h : Hub) (l : List Slot) : List Slot := l.filter fun n => h.slots[n].state == .forwarding

/-- Where the query of a slot stands: stored under the identifier of its place in the order, at the tail of the CONTROL queue. -/
def Hub.QueryPlaced (h g : Hub) (queried : List Slot) (n : Slot) : Prop :=
  g.ports[n] = { h.ports[n] with controlQ := h.ports[n].controlQ ++ [h.store.nextId + queried.idxOf n] } ∧
    { id := h.store.nextId + queried.idxOf n, frame := h.agent.sweep.query n, blocks := 1, refs := 1, fromAgent := true } ∈ g.store.frames

/-- A requested slot fails: it is not FORWARDING, or its query found the reserve empty. -/
def Hub.QueryFails (h : Hub) (queried : List Slot) (n : Slot) (reason : SweepFailure) : Prop :=
  h.slots[n].state ≠ .forwarding ∧ reason = .notInService ∨
    h.slots[n].state = .forwarding ∧ ¬ SentAmong queried h.store.freeReserve n ∧ reason = .queryNotSent

/-- What the queries to the slots of a list leave, of a hub whose sweep has just been formed. -/
structure Hub.Queries (h g : Hub) (done : List Slot) : Prop where
  slots : g.slots = h.slots
  tables : g.tables = h.tables
  inbound : g.port.inbound = h.port.inbound
  sweep : g.agent.sweep = { h.agent.sweep with pending := g.agent.sweep.pending, failures := g.agent.sweep.failures }
  pending : ∀ n, Mask.has g.agent.sweep.pending n = true ↔ SentAmong (h.queriedOf done) h.store.freeReserve n
  failures : ∀ p, p ∈ g.agent.sweep.failures ↔ p.1 ∈ done ∧ h.QueryFails (h.queriedOf done) p.1 p.2
  free : g.store.freeReserve = h.store.freeReserve - (h.queriedOf done).length
  nextId : (h.queriedOf done).length ≤ h.store.freeReserve → g.store.nextId = h.store.nextId + (h.queriedOf done).length
  sent : ∀ n, SentAmong (h.queriedOf done) h.store.freeReserve n → h.QueryPlaced g (h.queriedOf done) n
  unsent : ∀ n, ¬ SentAmong (h.queriedOf done) h.store.freeReserve n → g.ports[n] = h.ports[n]
  quiet : (h.queriedOf done).length ≤ h.store.freeReserve → g.alarms = h.alarms ∧ g.port.outbound = h.port.outbound
  overload : h.store.freeReserve < (h.queriedOf done).length → h.AlarmRoom → g.isActive (.hub .agentOverload) = true

section

variable {h g : Hub} {done : List Slot} {n : Slot}

theorem Hub.Queries.nil (hpending : h.agent.sweep.pending = 0) (hfailures : h.agent.sweep.failures = []) : h.Queries h [] where
  slots := rfl
  tables := rfl
  inbound := rfl
  sweep := rfl
  pending m := by simp [hpending, Mask.has, SentAmong, Hub.queriedOf]
  failures p := by simp [hfailures]
  free := rfl
  nextId _ := rfl
  sent m hm := absurd hm.1 (by simp [Hub.queriedOf])
  unsent _ _ := rfl
  quiet _ := ⟨rfl, rfl⟩
  overload hlt := absurd hlt (Nat.not_lt_zero _)

theorem Hub.queriedOf_append (h : Hub) (done : List Slot) (n : Slot) :
    h.queriedOf (done ++ [n]) = if h.slots[n].state = .forwarding then h.queriedOf done ++ [n] else h.queriedOf done := by
  unfold Hub.queriedOf
  rw [List.filter_append]
  by_cases hs : h.slots[n].state = .forwarding
  · rw [if_pos hs, List.filter_cons_of_pos (by simpa using hs), List.filter_nil]
  · rw [if_neg hs, List.filter_cons_of_neg (by simpa using hs), List.filter_nil, List.append_nil]

/-- The failures once a slot more is done, where none of the slots done before is that slot. -/
theorem Hub.queryFails_append {queried queried' : List Slot} (hn : n ∉ done) (k : Slot) (reason : SweepFailure)
    (hsame : k ≠ n → (SentAmong queried' h.store.freeReserve k ↔ SentAmong queried h.store.freeReserve k)) :
    (k ∈ done ++ [n] ∧ h.QueryFails queried' k reason) ↔
      (k ∈ done ∧ h.QueryFails queried k reason) ∨ (k = n ∧ h.QueryFails queried' n reason) := by
  rw [List.mem_append, List.mem_singleton]
  by_cases he : k = n
  · subst he
    simp only [hn, or_true, true_and, false_and, false_or]
  · unfold Hub.QueryFails
    simp only [he, hsame he, or_false, false_and]

/-- A slot that is not FORWARDING fails (R164, step 4). -/
theorem Hub.Queries.notInService (hq : h.Queries g done) (hn : n ∉ done) (hs : h.slots[n].state ≠ .forwarding) :
    h.Queries (g.setSweep (g.agent.sweep.fail n .notInService)) (done ++ [n]) := by
  have heq : h.queriedOf (done ++ [n]) = h.queriedOf done := (h.queriedOf_append done n).trans (if_neg hs)
  have hunsent : ¬ SentAmong (h.queriedOf done) h.store.freeReserve n :=
    fun hsent => hn (List.mem_filter.mp hsent.1).1
  exact {
    slots := hq.slots
    tables := hq.tables
    inbound := hq.inbound
    sweep := by
      have hsweep := hq.sweep
      simp only [Hub.setSweep_sweep, Sweep.fail]
      rw [hsweep]
    pending := fun m => by
      simp only [Hub.setSweep_sweep, Sweep.fail, Mask.has_erase, Bool.and_eq_true, hq.pending m, heq, Bool.not_eq_true',
        decide_eq_false_iff_not]
      exact ⟨fun hm => hm.1, fun hm => ⟨hm, fun he => hunsent (he ▸ hm)⟩⟩
    failures := fun p => by
      obtain ⟨k, reason⟩ := p
      rw [Hub.queryFails_append (queried := h.queriedOf done) hn k reason (fun _ => by rw [heq]), ← hq.failures (k, reason)]
      simp only [Hub.setSweep_sweep, Sweep.fail, mem_insertSlot_iff, Prod.mk.injEq]
      rw [or_comm]
      refine or_congr Iff.rfl (and_congr Iff.rfl ⟨fun hr => .inl ⟨hs, hr⟩, fun hfails => ?_⟩)
      obtain ⟨-, hr⟩ | ⟨hf, -⟩ := hfails
      · exact hr
      · exact absurd hf hs
    free := by rw [heq]; exact hq.free
    nextId := by rw [heq]; exact hq.nextId
    sent := by rw [heq]; exact hq.sent
    unsent := by rw [heq]; exact hq.unsent
    quiet := by rw [heq]; exact hq.quiet
    overload := by rw [heq]; exact hq.overload }

theorem Sweep.query_eq (w : Sweep) (pending : SlotMask) (failures : List (Slot × SweepFailure)) (n : Slot) :
    ({ w with pending, failures } : Sweep).query n = w.query n := rfl

theorem Hub.Queries.query (hq : h.Queries g done) (n : Slot) : g.agent.sweep.query n = h.agent.sweep.query n :=
  (congrArg (·.query n) hq.sweep).trans (Sweep.query_eq _ _ _ _)

theorem Sweep.query_blocks (w : Sweep) (n : Slot) : (w.query n).blocks = 1 := by
  simp [Sweep.query, agentFrame, Frame.blocks]

theorem Hub.notMem_queriedOf (h : Hub) (hn : n ∉ done) : n ∉ h.queriedOf done := fun hq => hn (List.mem_filter.mp hq).1

theorem Hub.queriedOf_append_forwarding (done : List Slot) (hs : h.slots[n].state = .forwarding) :
    h.queriedOf (done ++ [n]) = h.queriedOf done ++ [n] := (h.queriedOf_append done n).trans (if_pos hs)

/-- The slot whose query is placed is sent, and is the only one added. -/
theorem Hub.sentAmong_placed (hn : n ∉ done) (hs : h.slots[n].state = .forwarding)
    (hroom : (h.queriedOf done).length < h.store.freeReserve) (m : Slot) :
    SentAmong (h.queriedOf (done ++ [n])) h.store.freeReserve m ↔ SentAmong (h.queriedOf done) h.store.freeReserve m ∨ m = n := by
  rw [Hub.queriedOf_append_forwarding done hs, sentAmong_append (h.notMem_queriedOf hn)]
  simp only [hroom, and_true]

theorem Hub.sentAmong_refused (hn : n ∉ done) (hs : h.slots[n].state = .forwarding)
    (hfull : h.store.freeReserve ≤ (h.queriedOf done).length) (m : Slot) :
    SentAmong (h.queriedOf (done ++ [n])) h.store.freeReserve m ↔ SentAmong (h.queriedOf done) h.store.freeReserve m := by
  rw [Hub.queriedOf_append_forwarding done hs, sentAmong_append (h.notMem_queriedOf hn)]
  simp only [Nat.not_lt.mpr hfull, and_false, or_false]

/-- What stands of a query placed before stands with one slot more. -/
theorem Hub.QueryPlaced.append {k : Hub} {m : Slot} (hplaced : h.QueryPlaced g (h.queriedOf done) m) (hm : m ∈ h.queriedOf done)
    (hs : h.slots[n].state = .forwarding) (hport : k.ports[m] = g.ports[m])
    (hframes : ∀ f ∈ g.store.frames, f ∈ k.store.frames) : h.QueryPlaced k (h.queriedOf (done ++ [n])) m := by
  obtain ⟨hp, hf⟩ := hplaced
  unfold Hub.QueryPlaced
  rw [Hub.queriedOf_append_forwarding done hs, List.idxOf_append_of_mem hm, hport]
  exact ⟨hp, hframes _ hf⟩

/-- The hub with the query of a slot stored and at the tail of its CONTROL queue. -/
def Hub.withQuery (g : Hub) (n : Slot) : Hub :=
  ({ g with store := g.store.put (g.agent.sweep.query n) true 1 }.modPort n (·.enter .control g.store.nextId)).schedule n

theorem Hub.withQuery_port_other (g : Hub) {m : Slot} (hm : m ≠ n) : (g.withQuery n).ports[m] = g.ports[m] := by
  unfold Hub.withQuery
  rw [Hub.schedule_ports, Hub.modPort_other _ _ _ _ (Ne.symm hm)]

theorem Hub.withQuery_port_self (g : Hub) (n : Slot) :
    (g.withQuery n).ports[n] = { g.ports[n] with controlQ := g.ports[n].controlQ ++ [g.store.nextId] } := by
  unfold Hub.withQuery
  rw [Hub.schedule_ports, Hub.modPort_self]
  rfl

theorem Hub.withQuery_store (g : Hub) (n : Slot) : (g.withQuery n).store = g.store.put (g.agent.sweep.query n) true 1 := by
  unfold Hub.withQuery
  rw [Hub.schedule_store]
  rfl

/-- The rest stands. -/
theorem Hub.withQuery_rest (g : Hub) (n : Slot) : (g.withQuery n).slots = g.slots ∧ (g.withQuery n).tables = g.tables ∧
    (g.withQuery n).port = g.port ∧ (g.withQuery n).agent = g.agent ∧ (g.withQuery n).alarms = g.alarms := by
  unfold Hub.withQuery
  rcases Hub.schedule_cases ({ g with store := g.store.put (g.agent.sweep.query n) true 1 }.modPort n (·.enter .control g.store.nextId)) n
    with he | ⟨t, -, -, he⟩
  · rw [he]
    exact ⟨rfl, rfl, rfl, rfl, rfl⟩
  · rw [he]
    exact ⟨rfl, rfl, rfl, rfl, rfl⟩

/-- A slot queried with a block of the reserve free (R164, step 5). -/
theorem Hub.Queries.placed (hq : h.Queries g done) (hn : n ∉ done) (hs : h.slots[n].state = .forwarding)
    (hroom : g.store.freeReserve ≠ 0) :
    h.Queries ((g.withQuery n).setSweep { g.agent.sweep with pending := Mask.insert g.agent.sweep.pending n }) (done ++ [n]) := by
  obtain ⟨hslots, htables, hport, -, halarms⟩ := g.withQuery_rest n
  have hlt : (h.queriedOf done).length < h.store.freeReserve := by
    have hfree := hq.free
    omega
  have hsent := Hub.sentAmong_placed hn hs hlt
  have hlen : (h.queriedOf (done ++ [n])).length = (h.queriedOf done).length + 1 := by
    rw [Hub.queriedOf_append_forwarding done hs, List.length_append, List.length_singleton]
  obtain ⟨hkept, hquiet⟩ := hq.quiet hlt.le
  have hself : g.ports[n] = h.ports[n] := hq.unsent n fun hm => h.notMem_queriedOf hn hm.1
  have hstore := g.withQuery_store n
  exact {
    slots := hslots.trans hq.slots
    tables := htables.trans hq.tables
    inbound := (congrArg HostPort.inbound hport).trans hq.inbound
    sweep := by
      have hsweep := hq.sweep
      simp only [Hub.setSweep_sweep]
      rw [hsweep]
    pending := fun m => by
      rw [hsent m, ← hq.pending m]
      simp only [Hub.setSweep_sweep, Mask.has_insert, Bool.or_eq_true, decide_eq_true_eq, @eq_comm _ n m]
    failures := fun p => by
      obtain ⟨k, reason⟩ := p
      rw [Hub.queryFails_append (queried := h.queriedOf done) hn k reason fun hne => by rw [hsent k, or_iff_left hne]]
      refine (hq.failures (k, reason)).trans (or_iff_left ?_).symm
      rintro ⟨-, ⟨hnot, -⟩ | ⟨-, hunsent, -⟩⟩
      · exact hnot hs
      · exact hunsent ((hsent n).mpr (.inr rfl))
    free := by
      show (g.withQuery n).store.freeReserve = _
      have hfree := hq.free
      rw [hstore, hlen]
      unfold Store.freeReserve Store.put at *
      simp only [if_true, Sweep.query_blocks]
      omega
    nextId := fun _ => by
      show (g.withQuery n).store.nextId = _
      rw [hstore, hlen]
      show g.store.nextId + 1 = _
      rw [hq.nextId hlt.le]
      rfl
    sent := fun m hm => by
      obtain hm | rfl := (hsent m).mp hm
      · have hne : m ≠ n := fun he => h.notMem_queriedOf hn (he ▸ hm.1)
        refine (hq.sent m hm).append hm.1 hs (g.withQuery_port_other hne) fun f hf => ?_
        show f ∈ (g.withQuery n).store.frames
        rw [hstore]
        exact List.mem_append_left _ hf
      · unfold Hub.QueryPlaced
        rw [Hub.queriedOf_append_forwarding done hs, idxOf_append_self (h.notMem_queriedOf hn), ← hq.nextId hlt.le]
        show (g.withQuery m).ports[m] = _ ∧ _ ∈ (g.withQuery m).store.frames
        rw [g.withQuery_port_self, hstore, hself, ← hq.query]
        refine ⟨rfl, List.mem_append_right _ (List.mem_singleton.mpr ?_)⟩
        rw [Sweep.query_blocks]
    unsent := fun m hm => by
      rw [hsent m, not_or] at hm
      exact (g.withQuery_port_other hm.2).trans (hq.unsent m hm.1)
    quiet := fun _ => ⟨halarms.trans hkept, (congrArg HostPort.outbound hport).trans hquiet⟩
    overload := fun hover => absurd hover (by omega) }

/-- The hub where the query is refused: AGENT_OVERLOAD is raised. -/
def Hub.queryRefused (g : Hub) : Hub :=
  { g with agent := { g.agent with reserveRefusals := g.agent.reserveRefusals + 1 } }.raise (.hub .agentOverload)

/-- The alarm is ACTIVE after it, where it was or where the table has room. -/
theorem Hub.queryRefused_isActive {g : Hub} (hroom : g.alarms.recs.length < 63 ∨ g.isActive (.hub .agentOverload) = true) :
    g.queryRefused.isActive (.hub .agentOverload) = true := by
  refine Hub.raise_isActive (hroom.imp_right fun hactive hnone => ?_)
  rw [Hub.isActive, show g.alarms.find (.hub .agentOverload) = none from hnone] at hactive
  cases hactive

/-- A slot queried with no block of the reserve free (R164, step 5). -/
theorem Hub.Queries.refused (hq : h.Queries g done) (hn : n ∉ done) (hs : h.slots[n].state = .forwarding)
    (hfull : g.store.freeReserve = 0) :
    h.Queries (g.queryRefused.setSweep (g.agent.sweep.fail n .queryNotSent)) (done ++ [n]) := by
  have hle : h.store.freeReserve ≤ (h.queriedOf done).length := by
    have hfree := hq.free
    omega
  have hsent := Hub.sentAmong_refused hn hs hle
  have hlen : (h.queriedOf (done ++ [n])).length = (h.queriedOf done).length + 1 := by
    rw [Hub.queriedOf_append_forwarding done hs, List.length_append, List.length_singleton]
  have hunsent : ¬ SentAmong (h.queriedOf done) h.store.freeReserve n := fun hm => h.notMem_queriedOf hn hm.1
  obtain ⟨hstore, hports, hslots, -, htables⟩ := (Hub.FullKept.steps
    (h := { g with agent := { g.agent with reserveRefusals := g.agent.reserveRefusals + 1 } }) hfull).raise
    ⟨rfl, rfl, rfl, rfl, rfl⟩ (.hub .agentOverload) trivial
  have hport := (Hub.raise_quiet { g with agent := { g.agent with reserveRefusals := g.agent.reserveRefusals + 1 } } (.hub .agentOverload)).port
  exact {
    slots := hslots.trans hq.slots
    tables := htables.trans hq.tables
    inbound := (congrArg HostPort.inbound hport).trans hq.inbound
    sweep := by
      have hsweep := hq.sweep
      simp only [Hub.setSweep_sweep, Sweep.fail]
      rw [hsweep]
    pending := fun m => by
      rw [hsent m, ← hq.pending m]
      simp only [Hub.setSweep_sweep, Sweep.fail, Mask.has_erase, Bool.and_eq_true, Bool.not_eq_true', decide_eq_false_iff_not]
      exact ⟨fun hm => hm.1, fun hm => ⟨hm, fun he => hunsent ((hq.pending n).mp (he ▸ hm))⟩⟩
    failures := fun p => by
      obtain ⟨k, reason⟩ := p
      rw [Hub.queryFails_append (queried := h.queriedOf done) hn k reason fun _ => hsent k, ← hq.failures (k, reason)]
      simp only [Hub.setSweep_sweep, Sweep.fail, mem_insertSlot_iff, Prod.mk.injEq]
      rw [or_comm]
      refine or_congr Iff.rfl (and_congr Iff.rfl ⟨fun hr => .inr ⟨hs, fun hm => hunsent ((hsent n).mp hm), hr⟩, fun hfails => ?_⟩)
      obtain ⟨hnot, -⟩ | ⟨-, -, hr⟩ := hfails
      · exact absurd hs hnot
      · exact hr
    free := by
      show g.queryRefused.store.freeReserve = _
      unfold Hub.queryRefused
      rw [hstore, hlen]
      show g.store.freeReserve = _
      omega
    nextId := fun hroom => absurd hroom (by omega)
    sent := fun m hm => (hq.sent m ((hsent m).mp hm)).append ((hsent m).mp hm).1 hs (congrArg (·[m]) hports) fun f hf => by
      show f ∈ g.queryRefused.store.frames
      unfold Hub.queryRefused
      rw [hstore]
      exact hf
    unsent := fun m hm => (congrArg (·[m]) hports).trans (hq.unsent m fun hs => hm ((hsent m).mpr hs))
    quiet := fun hroom => absurd hroom (by omega)
    overload := fun _ hroom => by
      refine Hub.queryRefused_isActive ?_
      have ⟨_, hrecs⟩ := hroom
      by_cases heq : (h.queriedOf done).length ≤ h.store.freeReserve
      · obtain ⟨halarms, -⟩ := hq.quiet heq
        rw [halarms]
        exact .inl (hrecs.trans (by decide))
      · exact .inr (hq.overload (Nat.lt_of_not_le heq) hroom) }

theorem Hub.querySlot_of_forwarding (hs : g.slots[n].state = .forwarding) : g.querySlot n =
    if g.store.freeReserve = 0 then g.queryRefused.setSweep (g.agent.sweep.fail n .queryNotSent)
    else (g.withQuery n).setSweep { g.agent.sweep with pending := Mask.insert g.agent.sweep.pending n } := by
  have htakes : g.slots[n].state.takesAgent .control = true := by rw [hs]; rfl
  have hsweep : (g.place n .control (g.agent.sweep.query n)).1.agent.sweep = g.agent.sweep :=
    (g.place_quiet n .control _ (.inr rfl) (by simp [Sweep.query, agentFrame])).sweep
  have hquery : g.querySlot n = (g.place n .control (g.agent.sweep.query n)).1.setSweep
      (if (g.place n .control (g.agent.sweep.query n)).2 = true then
        { (g.place n .control (g.agent.sweep.query n)).1.agent.sweep with
          pending := Mask.insert (g.place n .control (g.agent.sweep.query n)).1.agent.sweep.pending n }
      else (g.place n .control (g.agent.sweep.query n)).1.agent.sweep.fail n .queryNotSent) := if_neg (not_not.mpr hs)
  rw [hquery, hsweep]
  by_cases hfull : g.store.freeReserve = 0
  · rw [if_pos hfull, Hub.place_placed_of_full htakes hfull, Hub.place_of_full (by decide) htakes hfull]
    rfl
  · rw [if_neg hfull, Hub.place_placed_of_room htakes hfull, Hub.place_of_room (by decide) htakes hfull]
    rfl

theorem Hub.Queries.step (hq : h.Queries g done) (hn : n ∉ done) : h.Queries (g.querySlot n) (done ++ [n]) := by
  by_cases hs : h.slots[n].state = .forwarding
  · rw [Hub.querySlot_of_forwarding (hq.slots ▸ hs)]
    split
    · next hfull => exact hq.refused hn hs hfull
    · next hroom => exact hq.placed hn hs hroom
  · have hnot : g.slots[n].state ≠ .forwarding := by rw [hq.slots]; exact hs
    rw [show g.querySlot n = g.setSweep (g.agent.sweep.fail n .notInService) from if_pos hnot]
    exact hq.notInService hn hs

theorem Hub.Queries.steps (l : List Slot) (hnd : (done ++ l).Nodup) (hq : h.Queries g done) :
    h.Queries (l.foldl Hub.querySlot g) (done ++ l) := by
  induction l generalizing g done with
  | nil => rw [List.append_nil]; exact hq
  | cons n l ih =>
    rw [List.append_cons] at hnd ⊢
    have hn : n ∉ done := by
      obtain ⟨hdone, -, -⟩ := List.nodup_append.mp hnd
      exact fun hm => (List.nodup_append.mp hdone).2.2 n hm n (List.mem_singleton_self n) rfl
    exact ih hnd (hq.step hn)

end

/-! ## SWEEP and its end (R164 to R168) -/

/-- The end where nothing is pending: the flag is cleared and the reply produced. -/
theorem Hub.endSweepIfDone_eq (g : Hub) : g.endSweepIfDone = { g with
    agent := { g.agent with sweep := { g.agent.sweep with
      inFlight := if g.agent.sweep.pending = 0 then false else g.agent.sweep.inFlight } }
    port := if g.agent.sweep.pending = 0 then
      g.port.reply g.agent.sweep.tag Code.sweep (if g.agent.sweep.clamped then .clamped else .ok) (.sweep g.agent.sweep.body) else g.port } := by
  unfold Hub.endSweepIfDone
  split <;> rfl

section

variable {s : State} {h : Hub} {r : Request} {rest : List Request} {item : SweepItem} {mask : SlotMask}

/-- The sweep as it is formed before its queries. -/
def Sweep.formed (w : Sweep) (tag : Byte) (item : SweepItem) (mask : SlotMask) (timeout due : Nat) : Sweep :=
  { inFlight := true, nextNumber := w.nextNumber + 1, number := w.nextNumber, item, requested := mask, timeout := clampNat 10 1000 timeout,
    clamped := clampNat 10 1000 timeout != timeout, tag, due }

/-- The hub whose sweep has just been formed. -/
def Hub.sweepFormed (h : Hub) (r : Request) (rest : List Request) (item : SweepItem) (mask : SlotMask) : Hub :=
  (h.popRequest rest).setSweep (h.agent.sweep.formed r.tag item mask (fieldAt r.body 3 2) (h.dueIn (clampNat 10 1000 (fieldAt r.body 3 2))))

/-- The hub with every requested slot queried. -/
def Hub.swept (h : Hub) (r : Request) (rest : List Request) (item : SweepItem) (mask : SlotMask) : Hub :=
  (Mask.slots mask).foldl Hub.querySlot (h.sweepFormed r rest item mask)

theorem Hub.swept_queries (h : Hub) (r : Request) (rest : List Request) (item : SweepItem) (mask : SlotMask) :
    (h.sweepFormed r rest item mask).Queries (h.swept r rest item mask) (Mask.slots mask) :=
  (Hub.Queries.nil rfl rfl).steps (Mask.slots mask) (allSlots_nodup.filter _)

theorem exec_sweep_of_takes (ht : s.hub.Takes Code.sweep r rest) :
    exec .sweep s = .next { s with hub := Hub.sweepRequest r (s.hub.popRequest rest) } := State.onHub_take ht Hub.sweepRequest

theorem exec_sweepAbort_of_takes (ht : s.hub.Takes Code.sweepAbort r rest) :
    exec .sweepAbort s = .next { s with hub := Hub.sweepAbort r (s.hub.popRequest rest) } := State.onHub_take ht Hub.sweepAbort

theorem Hub.sweepRequest_of_mask (h : Hub) (hi : ofCode sweepItems (fieldAt r.body 0 1) = some item)
    (hm : Mask.ofValue (fieldAt r.body 1 2) = some mask) (hne : mask ≠ 0) : Hub.sweepRequest r h =
      if h.agent.sweep.inFlight then h.refuse r .busy else h.startSweep r.tag item mask (fieldAt r.body 3 2) := by
  unfold Hub.sweepRequest
  rw [hi, hm]
  exact if_neg hne

theorem Hub.sweepRequest_of_bad (h : Hub) (hbad : ofCode sweepItems (fieldAt r.body 0 1) = none ∨ Mask.ofValue (fieldAt r.body 1 2) = none ∨
    Mask.ofValue (fieldAt r.body 1 2) = some 0) : Hub.sweepRequest r h = h.refuse r .badParam := by
  unfold Hub.sweepRequest
  cases hi : ofCode sweepItems (fieldAt r.body 0 1) with
  | none => rfl
  | some item =>
    cases hm : Mask.ofValue (fieldAt r.body 1 2) with
    | none => rfl
    | some mask =>
      rw [hi, hm] at hbad
      obtain hno | hno | hzero := hbad
      · cases hno
      · cases hno
      · exact if_pos (Option.some.inj hzero)

/-- A refused SWEEP has a body of its reply's format that accounts for its requested mask. -/
theorem Hub.sweep_refused (h : Hub) (hc : r.code = Code.sweep) : ∃ b, (h.refusalBody r.code).encode = encSweep b ∧ b.Accounts := by
  rw [hc, Hub.refusalBody_unstated h (by decide)]
  exact ⟨_, unstatedBody_sweep h.draws, freeSweep_accounts _ _⟩

/-- The code of an item read back. -/
theorem codeIn_of_ofCode {α : Type} [DecidableEq α] {l : List α} {v : Nat} {a : α} (hnd : l.Nodup) (hv : ofCode l v = some a) :
    codeIn l a = v := by
  cases v with
  | zero => cases hv
  | succ k =>
    obtain ⟨hk, ha⟩ := List.getElem?_eq_some_iff.mp (show l[k]? = some a from hv)
    show l.idxOf a + 1 = k + 1
    rw [← ha, hnd.idxOf_getElem k hk]

theorem Sweep.query_formed (w : Sweep) (tag : Byte) (mask : SlotMask) (timeout due v : Nat) (n : Slot)
    (hi : ofCode sweepItems v = some item) : (w.formed tag item mask timeout due).query n =
      agentFrame .control Kind.sweepQuery 0 w.nextNumber n [BitVec.ofNat 8 v] := by
  unfold Sweep.query
  show agentFrame .control Kind.sweepQuery 0 w.nextNumber n (be 1 (codeIn sweepItems item)) = _
  rw [codeIn_of_ofCode (by decide) hi, show be 1 v = [BitVec.ofNat 8 v] by simp [be]]

/-- The requested slots that are FORWARDING, in ascending order. -/
theorem Hub.queriedOf_slots (h : Hub) (mask : SlotMask) : h.queriedOf (Mask.slots mask) =
    allSlots.filter fun n => Mask.has mask n && h.slots[n].state == .forwarding := by
  unfold Hub.queriedOf Mask.slots
  rw [List.filter_filter]
  exact List.filter_congr fun n _ => Bool.and_comm _ _

/-- The body of the reply does not tell whether the sweep is in flight. -/
theorem Sweep.body_inFlight (w : Sweep) (b : Bool) : ({ w with inFlight := b } : Sweep).body = w.body := rfl

/-- The reply of a sweep that ends at once. -/
theorem Hub.endSweepIfDone_replied {g : Hub} (hzero : g.agent.sweep.pending = 0) (hi : g.port.inbound = rest)
    (hc : r.code = Code.sweep) (ht : g.agent.sweep.tag = r.tag) : g.endSweepIfDone.port.Replied r rest
      (if g.agent.sweep.clamped then .clamped else .ok) (.sweep g.endSweepIfDone.agent.sweep.body) := by
  have hport : g.endSweepIfDone.port = (g.answer r (if g.agent.sweep.clamped then .clamped else .ok) (.sweep g.agent.sweep.body)).port := by
    rw [Hub.endSweepIfDone_eq, if_pos hzero, ht, ← hc]
    exact if_pos hzero
  have hbody : g.endSweepIfDone.agent.sweep.body = g.agent.sweep.body := by
    rw [Hub.endSweepIfDone_eq]
    exact Sweep.body_inFlight _ _
  rw [hport, hbody]
  exact Hub.answer_replied g r _ _ hi

theorem Hub.endSweepIfDone_sweep (g : Hub) : g.endSweepIfDone.agent.sweep = { g.agent.sweep with
    inFlight := if g.agent.sweep.pending = 0 then false else g.agent.sweep.inFlight } := by
  rw [Hub.endSweepIfDone_eq]

theorem Hub.endSweepIfDone_port_of_pending {g : Hub} (hne : g.agent.sweep.pending ≠ 0) : g.endSweepIfDone.port = g.port := by
  rw [Hub.endSweepIfDone_eq]
  exact if_neg hne

/-- The end leaves the tables, the slots, the egress ports, the store and the alarms. -/
theorem Hub.endSweepIfDone_leaves (g : Hub) : g.endSweepIfDone.slots = g.slots ∧ g.endSweepIfDone.tables = g.tables ∧
    g.endSweepIfDone.ports = g.ports ∧ g.endSweepIfDone.store = g.store ∧ g.endSweepIfDone.alarms = g.alarms ∧
    g.endSweepIfDone.port.inbound = g.port.inbound := by
  rw [Hub.endSweepIfDone_eq]
  refine ⟨rfl, rfl, rfl, rfl, rfl, ?_⟩
  dsimp only
  split <;> rfl

/-- The sweep formed by a request, with what its queries changed. -/
theorem Hub.swept_sweep (h : Hub) (r : Request) (rest : List Request) (item : SweepItem) (mask : SlotMask) :
    (h.swept r rest item mask).agent.sweep = { h.agent.sweep.formed r.tag item mask (fieldAt r.body 3 2)
      (h.dueIn (clampNat 10 1000 (fieldAt r.body 3 2))) with
        pending := (h.swept r rest item mask).agent.sweep.pending, failures := (h.swept r rest item mask).agent.sweep.failures } :=
  (h.swept_queries r rest item mask).sweep

theorem bne_eq_decide (a b : Nat) : (a != b) = decide (a ≠ b) := by
  by_cases he : a = b
  · simp [he]
  · simp [he]

theorem if_bne_eq {α : Type} (a b : Nat) (x y : α) : (if (a != b) = true then x else y) = if a = b then y else x := by
  by_cases he : a = b
  · simp [he]
  · simp [he]

/-- A query that is placed, as the statement names it. -/
theorem Hub.QueryPlaced.formed {g : Hub} {queried : List Slot} {n : Slot} (hi : ofCode sweepItems (fieldAt r.body 0 1) = some item)
    (hp : (h.sweepFormed r rest item mask).QueryPlaced g queried n) :
    g.ports[n] = { h.ports[n] with controlQ := h.ports[n].controlQ ++ [h.store.nextId + queried.idxOf n] } ∧
      { id := h.store.nextId + queried.idxOf n
        frame := agentFrame .control Kind.sweepQuery 0 h.agent.sweep.nextNumber n [BitVec.ofNat 8 (fieldAt r.body 0 1)]
        blocks := 1, refs := 1, fromAgent := true } ∈ g.store.frames := by
  obtain ⟨hport, hframe⟩ := hp
  refine ⟨hport, ?_⟩
  rw [← Sweep.query_formed h.agent.sweep r.tag mask (fieldAt r.body 3 2) (h.dueIn (clampNat 10 1000 (fieldAt r.body 3 2))) _ n hi]
  exact hframe

end

/-- An answer to a query, at the head of the inbox (R165). -/
theorem Hub.sweepReply_accepted {s : State} {e : InboxFrame} {rest : List InboxFrame} {value : List Byte} (he : s.hub.agent.inbox = e :: rest)
    (hk : e.frame.kind = Kind.sweepReply) (hc : e.frame.cls = .control) (hp : parseSweepReply s.hub.agent.sweep e.frame.payload = some value)
    (hf : s.hub.agent.sweep.inFlight = true) (hn : Mask.has s.hub.agent.sweep.pending e.slot = true)
    (hs : e.frame.sequence = s.hub.agent.sweep.number) :
    exec .sweepReply s = .next { s with hub := (s.hub.popInbox rest).sweepReply e.slot value } := by
  have hform : s.hub.formOk e.frame = true := (s.hub.formOk_iff e.frame).mpr (by simp only [hk, hc, hp, Option.isSome_some, and_self, or_true])
  have haccepts : s.hub.accepts e.frame e.slot = true := (Hub.accepts_sweepReply_iff hk).mpr ⟨hf, hn, hs⟩
  refine State.onHub_to ((Hub.dispatch_accepted _ he hk hform haccepts).trans ?_)
  simp only [show (s.hub.popInbox rest).agent.sweep = s.hub.agent.sweep from rfl, hp]

theorem Hub.sweepReply_eq (h : Hub) (n : Slot) (value : List Byte) : h.sweepReply n value =
    if Mask.erase h.agent.sweep.pending n = 0 then
      (h.setSweep { h.agent.sweep with
        pending := Mask.erase h.agent.sweep.pending n, results := insertSlot n value h.agent.sweep.results }).endSweep
    else h.setSweep { h.agent.sweep with
      pending := Mask.erase h.agent.sweep.pending n, results := insertSlot n value h.agent.sweep.results } := rfl

/-- SWEEP_TIMEOUT, with a sweep in flight and with none. -/
theorem exec_sweepTimeout_of_inFlight {s : State} (hf : s.hub.agent.sweep.inFlight = true) :
    exec .sweepTimeout s = .next { s with hub := s.hub.failSweep .noAnswer } :=
  State.onHub_to (f := fun h => if h.agent.sweep.inFlight then h.failSweep .noAnswer else h) (if_pos hf)

theorem exec_sweepTimeout_of_none {s : State} (hf : s.hub.agent.sweep.inFlight = false) : exec .sweepTimeout s = .next s :=
  State.onHub_to (f := fun h => if h.agent.sweep.inFlight then h.failSweep .noAnswer else h) (if_neg (by rw [hf]; decide))

/-- Settles O50: the loop over the requested slots keeps `Hub.Queries`, and the ends of a sweep go through `Sweep.failAll` and `endSweepIfDone`. -/
theorem sweeps : Obligations.Sweeps := by
  intro s h w ended refuses allFail
  refine ⟨⟨rfl, Sweep.has_remaining w, Sweep.firstFailed_iff w⟩, fun r rest ht => ?_, fun e rest value he hk hc hp hf hn hs => ?_,
    fun hf => ?_, fun hf => ?_, fun r rest ht => ⟨fun hf => ?_, fun hf => ?_⟩⟩
  · have hcode : r.code = Code.sweep := by obtain ⟨-, -, -, hc, -⟩ := ht; exact hc
    have hrefuses : ∀ status, Hub.sweepRequest r (s.hub.popRequest rest) = (s.hub.popRequest rest).refuse r status →
        refuses r rest status := fun status hr => by
      obtain ⟨b, hb, haccounts⟩ := h.sweep_refused hcode
      exact ⟨{ s with hub := (s.hub.popRequest rest).refuse r status }, _, b, (exec_sweep_of_takes ht).trans (by rw [hr]), rfl, rfl,
        h.popRequest_refuse r rest status, hb, haccounts⟩
    refine ⟨fun item mask hi hm hne => ⟨fun hf => hrefuses .busy ?_, fun hf => ?_⟩, fun hbad => hrefuses .badParam (Hub.sweepRequest_of_bad _ hbad)⟩
    · exact (Hub.sweepRequest_of_mask _ hi hm hne).trans (if_pos hf)
    · have hreq : Hub.sweepRequest r (s.hub.popRequest rest) = (h.swept r rest item mask).endSweepIfDone :=
        (Hub.sweepRequest_of_mask _ hi hm hne).trans (if_neg (by rw [show (s.hub.popRequest rest).agent.sweep.inFlight = false from hf]; decide))
      refine ⟨_, exec_sweep_of_takes ht, ?_⟩
      dsimp only
      rw [hreq, ← h.queriedOf_slots mask]
      have hq : (h.sweepFormed r rest item mask).Queries (h.swept r rest item mask) (Mask.slots mask) := h.swept_queries r rest item mask
      have hsweep := h.swept_sweep r rest item mask
      generalize h.swept r rest item mask = g at *
      obtain ⟨hslots, htables, hports, hstore, halarms, hinbound⟩ := g.endSweepIfDone_leaves
      have hended := g.endSweepIfDone_sweep
      have hin : g.port.inbound = rest := hq.inbound
      have htag : g.agent.sweep.tag = r.tag := by rw [hsweep]; rfl
      have hclamped : g.agent.sweep.clamped = (clampNat 10 1000 (fieldAt r.body 3 2) != fieldAt r.body 3 2) := by rw [hsweep]; rfl
      have htimeout : g.agent.sweep.timeout = min 1000 (max 10 (fieldAt r.body 3 2)) := by rw [hsweep]; rfl
      have hinflight : g.agent.sweep.inFlight = true := by rw [hsweep]; rfl
      rw [hended]
      dsimp only
      refine ⟨hinbound.trans hin, hslots.trans hq.slots, htables.trans hq.tables, by rw [hsweep]; rfl, by rw [hsweep]; rfl, by rw [hsweep]; rfl,
        by rw [hsweep]; rfl, htag, htimeout, ?_, by rw [hsweep]; rfl, by rw [hsweep]; rfl, hq.pending, fun p => ?_,
        fun n hn => ?_, fun n hn => ?_, fun hover hroom => ?_, fun hne => ⟨(if_neg hne).trans hinflight, fun hle => ?_⟩, fun hzero => ⟨if_pos hzero, ?_⟩⟩
      · rw [hclamped, htimeout]
        exact bne_eq_decide _ _
      · rw [hq.failures p, Mask.mem_slots]
        rfl
      · rw [hports, hstore]
        exact (hq.sent n hn).formed hi
      · rw [hports]
        exact hq.unsent n hn
      · rw [Hub.isActive, halarms]
        exact hq.overload hover hroom
      · rw [Hub.endSweepIfDone_port_of_pending hne]
        exact (hq.quiet hle).2
      · have hreplied := Hub.endSweepIfDone_replied hzero hin hcode htag
        rw [hended, hclamped, if_bne_eq, show clampNat 10 1000 (fieldAt r.body 3 2) = g.agent.sweep.timeout from htimeout.symm] at hreplied
        exact hreplied
  · rw [Hub.sweepReply_accepted he hk hc hp hf hn hs]
    refine ⟨fun p => mem_insertSlot_iff e.slot value p w.results, fun hpw hnot => pairwise_insertSlot e.slot value hpw hnot, ?_⟩
    rw [Hub.sweepReply_eq]
    by_cases hzero : Mask.erase w.pending e.slot = 0
    · rw [if_pos hzero, if_pos (show Mask.erase (s.hub.popInbox rest).agent.sweep.pending e.slot = 0 from hzero)]
      rfl
    · rw [if_neg hzero, if_neg (show ¬ Mask.erase (s.hub.popInbox rest).agent.sweep.pending e.slot = 0 from hzero)]
      rfl
  · exact ⟨_, w.failAll_eq .noAnswer, exec_sweepTimeout_of_inFlight hf⟩
  · exact exec_sweepTimeout_of_none hf
  · refine ⟨_, w.failAll_eq .aborted, (exec_sweepAbort_of_takes ht).trans ?_⟩
    rw [show Hub.sweepAbort r (s.hub.popRequest rest) = ((s.hub.popRequest rest).failSweep .aborted).answer r .ok .empty from if_pos hf]
    rfl
  · rw [exec_sweepAbort_of_takes ht, show Hub.sweepAbort r (s.hub.popRequest rest) = (s.hub.popRequest rest).answer r .badState .empty from
      if_neg (by rw [show (s.hub.popRequest rest).agent.sweep.inFlight = false from hf]; decide)]
    rfl

end Sys2Proof.Machine
end

section
/-! PROOFS. The accounts of the frame store: the references that queue entries hold, with those that an event in progress has still to enter or
to give up (R34 to R36, R41, R45). -/

namespace Sys2Proof.Machine

/-! ## References to a stored frame -/

/-- The references of a name; 0 where no frame is stored under it. -/
def Store.refsOf (st : Store) (id : Nat) : Nat := (st.find id).elim 0 (·.refs)

/-- Every reference that a port holds. -/
def Port.ids (p : Port) : List Nat := p.entries ++ p.identify.toList

section

variable {st : Store}

theorem Store.find_eq_none_iff (st : Store) (id : Nat) : st.find id = none ↔ ∀ f ∈ st.frames, f.id ≠ id := by
  unfold Store.find
  simp only [List.find?_eq_none, beq_iff_eq, ne_eq]

theorem Store.Legal.find_nextId (hs : st.Legal) : st.find st.nextId = none :=
  (st.find_eq_none_iff _).mpr fun f hf => (hs.2.1 f hf).ne

theorem Store.Legal.find_put (hs : st.Legal) (frame : Frame) (fromAgent : Bool) (refs : Nat) (id : Nat) :
    (st.put frame fromAgent refs).find id =
      if id = st.nextId then some { id := st.nextId, frame, blocks := frame.blocks, refs, fromAgent } else st.find id := by
  have happend : (st.put frame fromAgent refs).find id = (st.find id).or
      (([{ id := st.nextId, frame, blocks := frame.blocks, refs, fromAgent }] : List StoredFrame).find? fun f => f.id == id) := List.find?_append
  rw [happend]
  by_cases hid : id = st.nextId
  · subst hid
    rw [hs.find_nextId, if_pos rfl]
    simp
  · rw [if_neg hid, List.find?_cons_of_neg (by simpa using Ne.symm hid), List.find?_nil, Option.or_none]

theorem Store.Legal.find_mem (hs : st.Legal) {f : StoredFrame} (hf : f ∈ st.frames) : st.find f.id = some f := by
  cases hfind : st.find f.id with
  | none => exact absurd rfl ((st.find_eq_none_iff _).mp hfind f hf)
  | some g =>
    obtain ⟨hg, hid⟩ := Store.find_some hfind
    rw [List.inj_on_of_nodup_map hs.1 hg hf hid]

/-- One reference fewer, and none where it was the last. -/
theorem Store.find_deref (st : Store) (id j : Nat) : (st.deref id).find j =
    if j = id then (st.find id).bind (fun f => if f.refs ≤ 1 then none else some { f with refs := f.refs - 1 }) else st.find j := by
  unfold Store.deref
  cases hfind : st.find id with
  | none =>
    simp only
    split
    · next he =>
      rw [he, hfind]
      rfl
    · rfl
  | some f =>
    obtain ⟨-, hid⟩ := Store.find_some hfind
    simp only
    split
    · next hlast =>
      rw [Option.bind_some, if_pos hlast]
      show (st.frames.filter fun g => g.id != id).find? (fun g => g.id == j) = _
      rw [List.find?_filter]
      split
      · next he =>
        subst he
        rw [List.find?_eq_none]
        intro g _
        simp
      · next hne =>
        refine congrArg (fun p => st.frames.find? p) (funext fun g => ?_)
        by_cases hg : g.id = j
        · simp [hg, hne]
        · simp [hg]
    · next hmany =>
      rw [Option.bind_some, if_neg hmany]
      have hsame : ((fun g : StoredFrame => g.id == j) ∘ fun g : StoredFrame => if g.id = id then { g with refs := g.refs - 1 } else g) =
          fun g => g.id == j := by
        funext g
        simp only [Function.comp_apply]
        split <;> rfl
      show (st.frames.map fun g => if g.id = id then { g with refs := g.refs - 1 } else g).find? (fun g => g.id == j) = _
      rw [List.find?_map, hsame]
      split
      · next he =>
        subst he
        rw [show st.frames.find? (fun g => g.id == j) = some f from hfind, Option.map_some, if_pos hid]
      · next hne =>
        show (st.find j).map _ = st.find j
        cases hj : st.find j with
        | none => rfl
        | some g =>
          obtain ⟨-, hgid⟩ := Store.find_some hj
          rw [Option.map_some, if_neg (hgid ▸ hne)]

theorem Store.refsOf_deref (st : Store) (id j : Nat) : (st.deref id).refsOf j = st.refsOf j - if j = id then 1 else 0 := by
  unfold Store.refsOf
  rw [Store.find_deref]
  split
  · next he =>
    subst he
    cases st.find j with
    | none => rfl
    | some f =>
      rw [Option.bind_some]
      split
      · next hlast => exact (Nat.sub_eq_zero_of_le hlast).symm
      · rfl
  · rfl

theorem Store.refsOf_derefAll (ids : List Nat) (st : Store) (j : Nat) : (ids.foldl Store.deref st).refsOf j = st.refsOf j - ids.count j := by
  induction ids generalizing st with
  | nil => rfl
  | cons id ids ih =>
    rw [List.foldl_cons, ih, Store.refsOf_deref, List.count_cons, Nat.sub_sub, Nat.add_comm]
    simp only [beq_iff_eq, eq_comm (a := id)]

theorem Store.cardBlocks_deref (st : Store) (id j : Nat) : (st.deref id).cardBlocks j ≤ st.cardBlocks j := by
  unfold Store.cardBlocks
  rw [Store.find_deref]
  by_cases he : j = id
  · subst he
    rw [if_pos rfl]
    cases st.find j with
    | none => exact Nat.le_refl _
    | some f =>
      rw [Option.bind_some]
      by_cases hlast : f.refs ≤ 1
      · rw [if_pos hlast]
        exact Nat.zero_le _
      · rw [if_neg hlast]
  · rw [if_neg he]

theorem Store.cardBlocks_derefAll (ids : List Nat) (st : Store) (j : Nat) : (ids.foldl Store.deref st).cardBlocks j ≤ st.cardBlocks j := by
  induction ids generalizing st with
  | nil => exact Nat.le_refl _
  | cons id ids ih => exact (ih _).trans (st.cardBlocks_deref id j)

theorem Store.Legal.deref_positive (hs : st.Legal) (hpos : ∀ f ∈ st.frames, 0 < f.refs) (id : Nat) : ∀ f ∈ (st.deref id).frames, 0 < f.refs := by
  intro f hf
  have hfind := (hs.deref id).find_mem hf
  rw [Store.find_deref] at hfind
  split at hfind
  · obtain ⟨g, -, hg⟩ := Option.bind_eq_some_iff.mp hfind
    split at hg
    · cases hg
    · next hmany =>
      cases hg
      exact Nat.sub_pos_of_lt (by omega)
  · exact hpos f (Store.find_some hfind).1

theorem Store.Legal.derefAll_positive (ids : List Nat) {st : Store} (hs : st.Legal) (hpos : ∀ f ∈ st.frames, 0 < f.refs) :
    ∀ f ∈ (ids.foldl Store.deref st).frames, 0 < f.refs := by
  induction ids generalizing st with
  | nil => exact hpos
  | cons id ids ih => exact ih (hs.deref id) (hs.deref_positive hpos id)

end

/-! ## What the ports refer to -/

theorem Hub.references_count (h : Hub) (id : Nat) : h.references.count id = (allSlots.map fun n => h.ports[n].ids.count id).sum := by
  unfold Hub.references
  rw [List.count_flatMap]
  rfl

/-- A sum over the slots where one term changes. -/
theorem sum_allSlots_update {F G : Slot → Nat} (n : Slot) (hother : ∀ m, m ≠ n → G m = F m) :
    (allSlots.map G).sum + F n = (allSlots.map F).sum + G n := by
  have hsum (H : Slot → Nat) : (allSlots.map H).sum = H n + ∑ m ∈ allSlots.toFinset.erase n, H m := by
    rw [← List.sum_toFinset _ allSlots_nodup, Finset.add_sum_erase _ _ (List.mem_toFinset.mpr (mem_allSlots n))]
  have hrest : ∑ m ∈ allSlots.toFinset.erase n, G m = ∑ m ∈ allSlots.toFinset.erase n, F m :=
    Finset.sum_congr rfl fun m hm => hother m (Finset.ne_of_mem_erase hm)
  rw [hsum F, hsum G, hrest]
  omega

theorem Hub.references_modPort (h : Hub) (n : Slot) (f : Port → Port) (id : Nat) :
    (h.modPort n f).references.count id + h.ports[n].ids.count id = h.references.count id + (f h.ports[n]).ids.count id := by
  rw [Hub.references_count, Hub.references_count, ← h.modPort_self n f]
  exact sum_allSlots_update (F := fun m => h.ports[m].ids.count id) (G := fun m => (h.modPort n f).ports[m].ids.count id) n fun m hm => by
    rw [h.modPort_other n m f (Ne.symm hm)]

theorem Hub.mem_references {h : Hub} {id : Nat} : id ∈ h.references ↔ ∃ n : Slot, id ∈ h.ports[n].ids := by
  unfold Hub.references
  rw [List.mem_flatMap]
  exact ⟨fun ⟨n, _, hn⟩ => ⟨n, hn⟩, fun ⟨n, hn⟩ => ⟨n, mem_allSlots n, hn⟩⟩

/-! ## The accounts -/

/-- The accounts of the store: as many references as entries, but for those of `due`, which an event in progress has still to enter or to
give up; a frame in flight stands at its place; no port holds more than its limit; and while the load runs nothing is held. -/
structure Hub.FiledBut (due : List Nat) (h : Hub) : Prop where
  store : h.store.Legal
  positive : ∀ f ∈ h.store.frames, 0 < f.refs
  counted : ∀ id, h.store.refsOf id = h.references.count id + due.count id
  heads : ∀ n : Slot, ∀ x ∈ h.links[n].tx, h.ports[n].headOf x.place = some x.id
  room : ∀ n : Slot, h.occupancy n ≤ h.tables.ports[n].limit
  still : h.config.loading = true → h.references = []

/-- The accounts of the store with nothing due. -/
abbrev Hub.Filed (h : Hub) : Prop := h.FiledBut []

theorem Hub.filed_iff (h : Hub) : h.Filed ↔ h.store.Legal ∧ h.EntriesLegal := by
  constructor
  · intro hf
    have hcounted : ∀ id, h.store.refsOf id = h.references.count id := hf.counted
    refine ⟨hf.store, fun f hmem => ⟨?_, hf.positive f hmem⟩, fun id hid => ?_, hf.heads, hf.room, hf.still⟩
    · rw [← hcounted, Store.refsOf, hf.store.find_mem hmem]
      rfl
    · have hpos := List.count_pos_iff.mpr hid
      rw [← hcounted, Store.refsOf] at hpos
      cases hfind : h.store.find id with
      | none =>
        rw [hfind] at hpos
        exact absurd hpos (Nat.lt_irrefl 0)
      | some f =>
        obtain ⟨hmem, hfid⟩ := Store.find_some hfind
        exact List.mem_map.mpr ⟨f, hmem, hfid⟩
  · rintro ⟨hs, hframes, hids, hheads, hroom, hstill⟩
    refine ⟨hs, fun f hmem => (hframes f hmem).2, fun id => ?_, hheads, hroom, hstill⟩
    rw [List.count_nil, Nat.add_zero, Store.refsOf]
    cases hfind : h.store.find id with
    | none =>
      refine (List.count_eq_zero.mpr fun hid => ?_).symm
      obtain ⟨f, hf, hfid⟩ := List.mem_map.mp (hids id hid)
      exact (h.store.find_eq_none_iff id).mp hfind f hf hfid
    | some f =>
      obtain ⟨hmem, hfid⟩ := Store.find_some hfind
      rw [← hfid]
      exact (hframes f hmem).1

section

variable {due : List Nat} {h g : Hub} {n : Slot}

/-- Two ports hold the same entries. -/
structure Port.Same (p p' : Port) : Prop where
  timingQ : p'.timingQ = p.timingQ
  controlQ : p'.controlQ = p.controlQ
  bulkQ : p'.bulkQ = p.bulkQ
  identify : p'.identify = p.identify

theorem Port.Same.refl (p : Port) : p.Same p := ⟨rfl, rfl, rfl, rfl⟩

theorem Port.Same.entries {p p' : Port} (hs : p.Same p') : p'.entries = p.entries := by
  unfold Port.entries
  rw [hs.timingQ, hs.controlQ, hs.bulkQ]

theorem Port.Same.ids {p p' : Port} (hs : p.Same p') : p'.ids = p.ids := by
  unfold Port.ids
  rw [hs.entries, hs.identify]

theorem Port.Same.headOf {p p' : Port} (hs : p.Same p') (place : Place) : p'.headOf place = p.headOf place := by
  cases place
  · exact congrArg List.head? hs.timingQ
  · exact congrArg List.head? hs.controlQ
  · exact congrArg List.head? hs.bulkQ
  · exact hs.identify

/-- What the accounts are read from stands; a frame in flight may be gone. -/
theorem Hub.FiledBut.congr (hf : h.FiledBut due) (hstore : g.store.frames = h.store.frames ∧ g.store.sharedUsed = h.store.sharedUsed ∧
      g.store.reserveUsed = h.store.reserveUsed ∧ g.store.nextId = h.store.nextId)
    (hports : ∀ m : Slot, h.ports[m].Same g.ports[m]) (hlinks : ∀ m : Slot, g.links[m].tx = h.links[m].tx ∨ g.links[m].tx = none)
    (htables : g.tables.ports = h.tables.ports) (hloading : g.config.loading = h.config.loading) : g.FiledBut due := by
  have hrefs : g.references = h.references := by
    unfold Hub.references
    refine congrArg (List.flatMap · allSlots) (funext fun m => (hports m).ids)
  obtain ⟨hframes, hshared, hreserve, hnext⟩ := hstore
  have hfind (id : Nat) : g.store.find id = h.store.find id := by
    unfold Store.find
    rw [hframes]
  refine ⟨?_, ?_, fun id => ?_, fun m x hx => ?_, fun m => ?_, fun hl => ?_⟩
  · have hs := hf.store
    unfold Store.Legal at hs ⊢
    rw [hframes, hshared, hreserve, hnext]
    exact hs
  · rw [hframes]
    exact hf.positive
  · rw [hrefs, Store.refsOf, hfind]
    exact hf.counted id
  · rw [(hports m).headOf]
    rcases hlinks m with he | hnone
    · exact hf.heads m x (he ▸ hx)
    · rw [hnone] at hx
      cases hx
  · have hroom := hf.room m
    have hblocks : g.store.cardBlocks = h.store.cardBlocks := funext fun id => by
      unfold Store.cardBlocks
      rw [hfind]
    unfold Hub.occupancy at hroom ⊢
    rw [(hports m).entries, htables, hblocks]
    exact hroom
  · rw [hrefs]
    exact hf.still (hloading ▸ hl)

/-- A change outside the store, the ports and the links. -/
theorem Hub.FiledBut.outside (hf : h.FiledBut due) (hstore : g.store = h.store) (hports : g.ports = h.ports) (hlinks : g.links = h.links)
    (htables : g.tables.ports = h.tables.ports) (hloading : g.config.loading = h.config.loading) : g.FiledBut due :=
  hf.congr (by rw [hstore]; exact ⟨rfl, rfl, rfl, rfl⟩) (fun m => by rw [hports]; exact .refl _) (fun m => .inl (by rw [hlinks])) htables hloading

theorem Hub.FiledBut.modPort {f : Port → Port} (hs : h.ports[n].Same (f h.ports[n])) (hf : h.FiledBut due) : (h.modPort n f).FiledBut due := by
  refine hf.congr ⟨rfl, rfl, rfl, rfl⟩ (fun m => ?_) (fun m => .inl rfl) rfl rfl
  by_cases hm : n = m
  · subst hm
    rw [Hub.modPort_self]
    exact hs
  · rw [Hub.modPort_other _ _ _ _ hm]
    exact .refl _

theorem Hub.FiledBut.count (f : PortCounters → PortCounters) (hf : h.FiledBut due) : (h.count n f).FiledBut due :=
  Hub.FiledBut.modPort ⟨rfl, rfl, rfl, rfl⟩ hf

/-- A change of a link that begins no transmission. -/
theorem Hub.FiledBut.modLink {f : Link → Link} (htx : (f h.links[n]).tx = h.links[n].tx ∨ (f h.links[n]).tx = none) (hf : h.FiledBut due) :
    (h.modLink n f).FiledBut due := by
  refine hf.congr ⟨rfl, rfl, rfl, rfl⟩ (fun m => .refl _) (fun m => ?_) rfl rfl
  by_cases hm : n = m
  · subst hm
    rw [Hub.modLink_self]
    exact htx
  · rw [Hub.modLink_other _ _ _ _ hm]
    exact .inl rfl

theorem Hub.FiledBut.abort (n : Slot) (hf : h.FiledBut due) : (h.abort n).FiledBut due := by
  unfold Hub.abort
  split
  · exact (hf.modLink (f := fun l => { l with tx := none }) (.inr rfl)).count _
  · exact hf

/-- What the scheduler chooses stands at its place. -/
theorem Hub.headOf_choose {place : Place} {id : Nat} (hc : h.choose n = some (place, id)) : h.ports[n].headOf place = some id := by
  unfold Hub.choose at hc
  simp only at hc
  split at hc
  · obtain ⟨i, hi, he⟩ := Option.map_eq_some_iff.mp hc
    cases he
    exact hi
  iterate 2
    next =>
      split at hc
      · next hq =>
        cases hc
        exact congrArg List.head? hq
      · split at hc
        · next hq =>
          split at hc
          · cases hc
            exact congrArg List.head? hq
          · obtain ⟨i, hi, he⟩ := Option.map_eq_some_iff.mp hc
            cases he
            exact hi
        · next hq _ =>
          cases hc
          exact congrArg List.head? hq
        · cases hc
  · cases hc

theorem Hub.FiledBut.schedule (n : Slot) (hf : h.FiledBut due) : (h.schedule n).FiledBut due := by
  unfold Hub.schedule
  split
  · split
    · exact hf
    · next place id hc =>
      refine ⟨hf.store, hf.positive, hf.counted, fun m x hx => ?_, hf.room, hf.still⟩
      by_cases hm : n = m
      · subst hm
        rw [Hub.modLink_self] at hx
        cases hx
        exact Hub.headOf_choose hc
      · rw [Hub.modLink_other _ _ _ _ hm] at hx
        exact hf.heads m x hx
  · exact hf

/-! ## Frames stored and entered, entries gone -/

/-- A frame that no entry refers to yet counts at no port. -/
theorem Hub.FiledBut.occupancy_put (hf : h.FiledBut due) (frame : Frame) (fromAgent : Bool) (refs : Nat) (m : Slot) :
    ({ h with store := h.store.put frame fromAgent refs } : Hub).occupancy m = h.occupancy m := by
  have hnew : h.references.count h.store.nextId + due.count h.store.nextId = 0 := by
    rw [← hf.counted, Store.refsOf, hf.store.find_nextId]
    rfl
  have hstand : ∀ id ∈ h.ports[m].entries, (h.store.put frame fromAgent refs).cardBlocks id = h.store.cardBlocks id := fun id hid => by
    have hne : id ≠ h.store.nextId := fun he => by
      have hmem : id ∈ h.references := Hub.mem_references.mpr ⟨m, List.mem_append_left _ hid⟩
      have := List.count_pos_iff.mpr hmem
      rw [he] at this
      omega
    unfold Store.cardBlocks
    rw [hf.store.find_put, if_neg hne]
  exact congrArg List.sum (List.map_congr_left hstand)

/-- A frame stored: its references are due. -/
theorem Hub.FiledBut.put (frame : Frame) (fromAgent : Bool) {refs : Nat} (hrefs : 0 < refs)
    (hroom : if fromAgent then h.store.reserveUsed + frame.blocks ≤ 64 else h.store.sharedUsed + frame.blocks ≤ 1984) (hf : h.FiledBut due) :
    Hub.FiledBut (List.replicate refs h.store.nextId ++ due) { h with store := h.store.put frame fromAgent refs } := by
  have hnew : h.references.count h.store.nextId + due.count h.store.nextId = 0 := by
    rw [← hf.counted, Store.refsOf, hf.store.find_nextId]
    rfl
  have hfind := hf.store.find_put frame fromAgent refs
  refine ⟨hf.store.put frame fromAgent refs hroom, fun f hmem => ?_, fun id => ?_, hf.heads, fun m => ?_, hf.still⟩
  · rcases List.mem_append.mp hmem with hold | hnew
    · exact hf.positive f hold
    · rw [List.mem_singleton.mp hnew]
      exact hrefs
  · rw [List.count_append, List.count_replicate, Store.refsOf, hfind]
    show _ = h.references.count id + _
    by_cases hid : id = h.store.nextId
    · subst hid
      simp only [if_true, Option.elim_some, beq_self_eq_true]
      omega
    · have hold := hf.counted id
      rw [Store.refsOf] at hold
      rw [if_neg hid, if_neg (by simpa using Ne.symm hid), hold, Nat.zero_add]
  · rw [hf.occupancy_put]
    exact hf.room m

theorem Port.enter_ids (p : Port) (place : Place) (id j : Nat) (hid : place = .identify → p.identify = none) :
    (p.enter place id).ids.count j = p.ids.count j + [id].count j := by
  unfold Port.enter Port.ids Port.entries
  cases place with
  | identify =>
    rw [hid rfl]
    simp only [List.count_append, Option.toList_some, Option.toList_none, List.count_nil, Nat.add_zero]
  | _ =>
    simp only [List.count_append]
    omega

theorem Port.enter_headOf (p : Port) (place : Place) (id : Nat) (hid : place = .identify → p.identify = none) {at' : Place} {j : Nat}
    (hhead : p.headOf at' = some j) : (p.enter place id).headOf at' = some j := by
  unfold Port.headOf Port.enter at *
  cases place with
  | identify =>
    cases at' with
    | identify =>
      rw [show p.identify = some j from hhead] at hid
      cases hid rfl
    | _ => exact hhead
  | timing => cases at' <;> simp_all
  | control => cases at' <;> simp_all
  | bulk => cases at' <;> simp_all

theorem Port.enter_load (p : Port) (place : Place) (id : Nat) (blocks : Nat → Nat) :
    ((p.enter place id).entries.map blocks).sum ≤ (p.entries.map blocks).sum + blocks id := by
  unfold Port.enter Port.entries
  cases place <;> simp only [List.map_append, List.sum_append, List.map_cons, List.map_nil, List.sum_cons, List.sum_nil] <;> omega

/-- A due reference entered at a port with room for it. -/
theorem Hub.FiledBut.enter {id : Nat} (place : Place) (hloading : h.config.loading = false)
    (hid : place = .identify → h.ports[n].identify = none) (hroom : h.occupancy n + h.store.cardBlocks id ≤ h.tables.ports[n].limit)
    (hf : h.FiledBut (id :: due)) : (h.modPort n (·.enter place id)).FiledBut due := by
  refine ⟨hf.store, hf.positive, fun j => ?_, fun m x hx => ?_, fun m => ?_, fun hl => ?_⟩
  · have hold := hf.counted j
    have hports := h.references_modPort n (·.enter place id) j
    have hids := h.ports[n].enter_ids place id j hid
    rw [List.count_cons] at hold
    rw [List.count_singleton] at hids
    show h.store.refsOf j = _
    omega
  · have hhead := hf.heads m x hx
    by_cases hm : n = m
    · subst hm
      rw [Hub.modPort_self]
      exact Port.enter_headOf _ place id hid hhead
    · rw [Hub.modPort_other _ _ _ _ hm]
      exact hhead
  · by_cases hm : n = m
    · subst hm
      show (((h.modPort n (·.enter place id)).ports[n]).entries.map h.store.cardBlocks).sum ≤ _
      rw [Hub.modPort_self]
      exact (Port.enter_load _ place id _).trans hroom
    · have hold := hf.room m
      unfold Hub.occupancy at hold ⊢
      rw [Hub.modPort_other _ _ _ _ hm]
      exact hold
  · rw [show h.config.loading = true from hl] at hloading
    cases hloading

theorem sum_map_le_of_sublist {l l' : List Nat} (hs : l'.Sublist l) (f : Nat → Nat) : (l'.map f).sum ≤ (l.map f).sum :=
  (hs.map f).sum_le_sum fun _ _ => Nat.zero_le _

/-- Entries that leave a port: their references are due to be given up. -/
theorem Hub.FiledBut.leave (f : Port → Port) (gone : List Nat) (hids : ∀ j, h.ports[n].ids.count j = (f h.ports[n]).ids.count j + gone.count j)
    (hentries : (f h.ports[n]).entries.Sublist h.ports[n].entries)
    (hheads : ∀ x ∈ h.links[n].tx, (f h.ports[n]).headOf x.place = some x.id) (hf : h.FiledBut due) : (h.modPort n f).FiledBut (gone ++ due) := by
  refine ⟨hf.store, hf.positive, fun j => ?_, fun m x hx => ?_, fun m => ?_, fun hl => ?_⟩
  · have hold := hf.counted j
    have hports := h.references_modPort n f j
    have := hids j
    rw [List.count_append]
    show h.store.refsOf j = _
    omega
  · by_cases hm : n = m
    · subst hm
      rw [Hub.modPort_self]
      exact hheads x hx
    · rw [Hub.modPort_other _ _ _ _ hm]
      exact hf.heads m x hx
  · have hold := hf.room m
    unfold Hub.occupancy at hold ⊢
    by_cases hm : n = m
    · subst hm
      rw [Hub.modPort_self]
      exact (sum_map_le_of_sublist hentries _).trans hold
    · rw [Hub.modPort_other _ _ _ _ hm]
      exact hold
  · have hnone := hf.still hl
    refine List.eq_nil_iff_forall_not_mem.mpr fun j hj => ?_
    have hpos := List.count_pos_iff.mpr hj
    have hports := h.references_modPort n f j
    have hzero : h.references.count j = 0 := by
      rw [hnone]
      rfl
    have := hids j
    omega

/-- The references that are due given up. -/
theorem Hub.FiledBut.derefAll (gone : List Nat) (hf : h.FiledBut (gone ++ due)) :
    Hub.FiledBut due { h with store := gone.foldl Store.deref h.store } := by
  refine ⟨hf.store.derefAll gone, Store.Legal.derefAll_positive gone hf.store hf.positive, fun j => ?_, hf.heads, fun m => ?_, hf.still⟩
  · have hold := hf.counted j
    rw [List.count_append] at hold
    rw [Store.refsOf_derefAll]
    show _ = h.references.count j + _
    omega
  · exact (List.sum_le_sum fun j _ => Store.cardBlocks_derefAll gone h.store j).trans (hf.room m)

end

end Sys2Proof.Machine
end

section
/-! PROOFS. The operations of the frame store and of the egress queues keep its accounts (R34 to R36, R40 to R49). -/

namespace Sys2Proof.Machine

/-- While the load runs every slot is EMPTY with no debounce begun, no request waits and there is no candidate and no selection (R59, R172,
R182, R183). -/
def Hub.LoadLegal (h : Hub) : Prop :=
  h.config.loading = true → (∀ n : Slot, h.slots[n].state = .empty ∧ h.slots[n].presenceTimer = none ∧ h.slots[n].latchTimer = none) ∧
    h.port.inbound = [] ∧ h.timing.cands = [] ∧ h.timing.selection = none

/-- While the load runs every slot is EMPTY (R183). -/
def Hub.Vacant (h : Hub) : Prop := h.config.loading = true → ∀ n : Slot, h.slots[n].state = .empty

/-- While the load runs no slot takes an agent frame. -/
def Hub.Untaking (h : Hub) : Prop := h.config.loading = true → ∀ (n : Slot) (place : Place), h.slots[n].state.takesAgent place = false

section

variable {due : List Nat} {h g : Hub} {n : Slot}

theorem Hub.LoadLegal.vacant (hv : h.LoadLegal) : h.Vacant := fun hl n => ((hv hl).1 n).1

theorem Hub.Vacant.untaking (hv : h.Vacant) : h.Untaking := fun hl n place => by
  rw [hv hl n]
  cases place <;> rfl

theorem Hub.Untaking.not_loading (hu : h.Untaking) {place : Place} (hn : h.slots[n].state.takesAgent place = true) : h.config.loading = false := by
  by_contra hl
  rw [hu (by simpa using hl) n place] at hn
  cases hn

theorem Hub.Vacant.not_loading (hv : h.Vacant) (hn : h.slots[n].state ≠ .empty) : h.config.loading = false := by
  by_contra hl
  exact hn (hv (by simpa using hl) n)

/-! ## Frames of the agent -/

theorem Hub.Filed.cardBlocks_put (hf : h.Filed) (frame : Frame) (fromAgent : Bool) (refs : Nat) :
    (h.store.put frame fromAgent refs).cardBlocks h.store.nextId = if fromAgent then 0 else frame.blocks := by
  unfold Store.cardBlocks
  rw [hf.store.find_put, if_pos rfl]

/-- An agent frame stored and placed. -/
theorem Hub.Filed.placed (n : Slot) (place : Place) (frame : Frame) (hloading : h.config.loading = false)
    (hid : place = .identify → h.ports[n].identify = none) (hlen : frame.payload.length ≤ 52) (hroom : h.store.freeReserve ≠ 0)
    (hf : h.Filed) : Hub.Filed (({ h with store := h.store.put frame true 1 }.modPort n (·.enter place h.store.nextId)).schedule n) := by
  have hblocks : h.store.reserveUsed + frame.blocks ≤ 64 := by
    have := frame.blocks_le_one hlen
    unfold Store.freeReserve at hroom
    omega
  have hput : Hub.FiledBut [h.store.nextId] { h with store := h.store.put frame true 1 } := hf.put frame true Nat.one_pos hblocks
  refine (Hub.FiledBut.enter (h := { h with store := h.store.put frame true 1 }) (n := n) place hloading hid ?_ hput).schedule n
  have hold := hput.room n
  rw [show ({ h with store := h.store.put frame true 1 } : Hub).store.cardBlocks h.store.nextId = 0 from hf.cardBlocks_put frame true 1]
  exact hold

/-- What follows a change of the alarm table keeps the accounts. -/
theorem Hub.Filed.alarmClosed : AlarmClosed fun h => h.Untaking ∧ h.Filed where
  alarms _ _ _ hh := ⟨hh.1, hh.2.outside rfl rfl rfl rfl rfl⟩
  notice _ _ _ hh := ⟨hh.1, hh.2.outside rfl rfl rfl rfl rfl⟩
  permit _ _ _ hh := ⟨hh.1, hh.2.outside rfl rfl rfl rfl rfl⟩
  fence _ _ hh := ⟨hh.1, hh.2.outside rfl rfl rfl rfl rfl⟩
  refusal _ hh := ⟨hh.1, hh.2.outside rfl rfl rfl rfl rfl⟩
  placed h n place frame hplace htakes hlen hroom hh := by
    obtain ⟨hu, hf⟩ := hh
    have hq := Hub.Quiet.schedule ({ h with store := h.store.put frame true 1 }.modPort n (·.enter place h.store.nextId)) n
    refine ⟨?_, hf.placed n place frame (hu.not_loading htakes) (fun he => ?_) hlen hroom⟩
    · unfold Hub.Untaking
      rw [hq.config, hq.slots]
      exact hu
    · rcases hplace with rfl | rfl
      · cases he
      · cases he

/-! ## Entries that leave a port -/

theorem Hub.abort_same (h : Hub) (n : Slot) : h.ports[n].Same (h.abort n).ports[n] := by
  unfold Hub.abort
  split
  · unfold Hub.count
    rw [Hub.modPort_self]
    exact ⟨rfl, rfl, rfl, rfl⟩
  · exact .refl _

theorem Hub.Filed.purge (n : Slot) (hf : h.Filed) : (h.purge n).Filed := by
  unfold Hub.purge
  simp only
  split
  · exact hf
  · have habort := hf.abort n
    have htx := h.abort_tx n
    have hports := (h.abort_same n).ids
    have hgone : Hub.FiledBut (h.ports[n].ids ++ []) ((h.abort n).modPort n fun p =>
        { p with timingQ := [], controlQ := [], bulkQ := [], identify := none, controlRun := 0,
                 counters := { p.counters with purged := p.counters.purged + BitVec.ofNat 32 h.ports[n].ids.length } }) := by
      refine habort.leave _ _ (fun j => ?_) (List.nil_sublist _) (fun x hx => ?_)
      · rw [hports]
        exact (Nat.zero_add _).symm
      · rw [htx] at hx
        cases hx
    exact hgone.derefAll

theorem Hub.Filed.clearIdentify (n : Slot) (hf : h.Filed) : (h.clearIdentify n).Filed := by
  unfold Hub.clearIdentify
  split
  · exact hf
  · next id hid =>
    have haborted : (if (h.links[n].tx.any fun x => x.place == .identify) = true then h.abort n else h).Filed := by
      split
      · exact hf.abort n
      · exact hf
    have hsame : h.ports[n].Same (if (h.links[n].tx.any fun x => x.place == .identify) = true then h.abort n else h).ports[n] := by
      split
      · exact h.abort_same n
      · exact .refl _
    have htx : ∀ x ∈ (if (h.links[n].tx.any fun x => x.place == .identify) = true then h.abort n else h).links[n].tx, x.place ≠ .identify := by
      intro x hx hplace
      split at hx
      · rw [h.abort_tx n] at hx
        cases hx
      · next hnone =>
        refine hnone ?_
        rw [Option.mem_def.mp hx]
        simpa using hplace
    generalize (if (h.links[n].tx.any fun x => x.place == .identify) = true then h.abort n else h) = k at haborted hsame htx ⊢
    have hkid : k.ports[n].identify = some id := hsame.identify.trans hid
    have hgone : Hub.FiledBut ([id] ++ []) (k.modPort n fun p =>
        { p with identify := none, counters := { p.counters with purged := p.counters.purged + 1 } }) := by
      refine haborted.leave _ _ (fun j => ?_) (List.Sublist.refl _) (fun x hx => ?_)
      · unfold Port.ids
        rw [hkid]
        simp only [Port.entries, List.count_append, Option.toList_some, Option.toList_none, List.count_nil, Nat.add_zero]
      · have hhead := haborted.heads n x hx
        have hplace := htx x hx
        unfold Port.headOf at hhead ⊢
        cases hp : x.place with
        | identify => exact absurd hp hplace
        | _ =>
          rw [hp] at hhead
          exact hhead
    exact hgone.derefAll

theorem Hub.clearIdentify_identify (h : Hub) (n : Slot) : (h.clearIdentify n).ports[n].identify = none := by
  unfold Hub.clearIdentify
  split
  · next hid => exact hid
  · rw [Hub.modPort_self]

/-- The entry of a completed frame leaves its place. -/
theorem Port.leave_ids {p : Port} {place : Place} {id : Nat} (hhead : p.headOf place = some id) (j : Nat) :
    p.ids.count j = (p.leave place).ids.count j + [id].count j := by
  unfold Port.headOf at hhead
  unfold Port.leave Port.ids Port.entries
  cases place with
  | timing =>
    obtain ⟨later, hq⟩ := List.head?_eq_some_iff.mp hhead
    simp only [hq, List.drop_one, List.tail_cons, List.count_append, List.count_cons, List.count_nil]
    omega
  | control =>
    obtain ⟨later, hq⟩ := List.head?_eq_some_iff.mp hhead
    simp only [hq, List.drop_one, List.tail_cons, List.count_append, List.count_cons, List.count_nil]
    omega
  | bulk =>
    obtain ⟨later, hq⟩ := List.head?_eq_some_iff.mp hhead
    simp only [hq, List.drop_one, List.tail_cons, List.count_append, List.count_cons, List.count_nil]
    omega
  | identify =>
    rw [show p.identify = some id from hhead]
    simp only [List.count_append, Option.toList_some, Option.toList_none, List.count_nil, Nat.add_zero]

theorem Port.leave_entries (p : Port) (place : Place) : (p.leave place).entries.Sublist p.entries := by
  unfold Port.leave Port.entries
  cases place with
  | timing => exact ((List.drop_sublist _ _).append (List.Sublist.refl _)).append (List.Sublist.refl _)
  | control => exact ((List.Sublist.refl _).append (List.drop_sublist _ _)).append (List.Sublist.refl _)
  | bulk => exact (List.Sublist.refl _).append (List.drop_sublist _ _)
  | identify => exact List.Sublist.refl _

/-- A completed transmission. -/
theorem Hub.Filed.completed {t : InFlight} (htx : h.links[n].tx = some t) (f : Port → Port)
    (hfsame : (h.ports[n].leave t.place).Same (f h.ports[n])) (hf : h.Filed) :
    Hub.Filed ({ h.modLink n (fun l => { l with tx := none }) with store := h.store.deref t.id }.modPort n f) := by
  have hhead := hf.heads n t (Option.mem_def.mpr htx)
  have hsent : (h.modLink n fun l => { l with tx := none }).Filed := hf.modLink (.inr rfl)
  have hgone : Hub.FiledBut ([t.id] ++ []) ((h.modLink n fun l => { l with tx := none }).modPort n f) := by
    refine hsent.leave f _ (fun j => ?_) ?_ (fun x hx => ?_)
    · show h.ports[n].ids.count j = (f h.ports[n]).ids.count j + _
      rw [hfsame.ids]
      exact Port.leave_ids hhead j
    · show (f h.ports[n]).entries.Sublist h.ports[n].entries
      rw [hfsame.entries]
      exact Port.leave_entries _ _
    · rw [Hub.modLink_self] at hx
      cases hx
  exact hgone.derefAll

/-! ## Card frames -/

/-- The rest of a group entered, one member after another. -/
theorem Hub.FiledBut.takeMembers (place : Place) (id : Nat) (hplace : place ≠ .identify) (blocks : Nat) (members : List Slot) (hnd : members.Nodup)
    (hloading : h.config.loading = false) (hblocks : h.store.cardBlocks id = blocks)
    (hroom : ∀ m ∈ members, h.occupancy m + blocks ≤ h.tables.ports[m].limit) (hf : h.FiledBut (List.replicate members.length id)) :
    (members.foldl (fun (h : Hub) n => (h.modPort n (·.enter place id)).schedule n) h).Filed := by
  induction members generalizing h with
  | nil => exact hf
  | cons n members ih =>
    obtain ⟨hn, hnd⟩ := List.nodup_cons.mp hnd
    have hq := Hub.Quiet.schedule (h.modPort n (·.enter place id)) n
    have hothers := Hub.schedule_others (h.modPort n (·.enter place id)) n
    have hentered := (hf.enter (n := n) place hloading (fun he => absurd he hplace) (by rw [hblocks]; exact hroom n List.mem_cons_self)).schedule n
    have hframe := hothers.1
    rw [List.foldl_cons]
    generalize (h.modPort n (·.enter place id)).schedule n = g at *
    refine ih hnd ?_ ?_ (fun m hm => ?_) hentered
    · rw [hframe]
      exact hloading
    · rw [hframe]
      exact hblocks
    · have hne : n ≠ m := fun he => hn (he ▸ hm)
      have hold := hroom m (List.mem_cons_of_mem _ hm)
      unfold Hub.occupancy at hold ⊢
      rw [hframe]
      show ((h.modPort n (·.enter place id)).ports[m].entries.map h.store.cardBlocks).sum + blocks ≤ _
      rw [Hub.modPort_other _ _ _ _ hne]
      exact hold

theorem Hub.takeIn_frame (h : Hub) (frame : Frame) (members : List Slot) : h.takeIn frame members =
    { h with store := (h.takeIn frame members).store, ports := (h.takeIn frame members).ports, links := (h.takeIn frame members).links } := by
  unfold Hub.takeIn
  simp only
  refine foldl_keeps (P := fun g : Hub => g = { h with store := g.store, ports := g.ports, links := g.links })
    (f := fun (g : Hub) n => (g.modPort n (·.enter frame.cls.place h.store.nextId)).schedule n) (fun g n hg => ?_) _ rfl
  rw [(Hub.schedule_others _ _).1]
  generalize (Hub.schedule _ n).links = links
  rw [hg]
  rfl

theorem TrafficClass.place_ne_identify (c : TrafficClass) : c.place ≠ .identify := by cases c <;> decide

/-- A card frame taken in by the members that have room for it. -/
theorem Hub.Filed.takeIn {frame : Frame} {members : List Slot} (hloading : h.config.loading = false) (hnd : members.Nodup) (hne : members ≠ [])
    (hroom : ∀ m ∈ members, h.occupancy m + frame.blocks ≤ h.tables.ports[m].limit) (hpasses : h.store.passes frame.cls frame.blocks = true)
    (hf : h.Filed) : (h.takeIn frame members).Filed := by
  have hpool : h.store.sharedUsed + frame.blocks ≤ 1984 := by
    have hused := hf.store.2.2.2.2.1
    unfold Store.passes Store.freeShared at hpasses
    split at hpasses
    · have := of_decide_eq_true hpasses
      omega
    · have := of_decide_eq_true hpasses
      omega
  have hput := hf.put frame false (List.length_pos_iff.mpr hne) hpool
  rw [List.append_nil] at hput
  have hnew := hf.cardBlocks_put frame false members.length
  unfold Hub.takeIn
  simp only
  refine hput.takeMembers frame.cls.place h.store.nextId frame.cls.place_ne_identify frame.blocks members hnd hloading hnew fun m hm => ?_
  have hold := hroom m hm
  have hstand := Hub.FiledBut.occupancy_put hf frame false members.length m
  rw [hstand]
  exact hold

end

/-! ## Frames of the agent count at no port -/

/-- `g` differs from `h` in its store and its entries by frames of the agent alone. -/
def Hub.AgentAdded (h g : Hub) : Prop :=
  ∃ added : List StoredFrame, g.store.frames = h.store.frames ++ added ∧ (∀ f ∈ added, f.fromAgent = true) ∧
    ∀ n : Slot, ∃ ids : List Nat, g.ports[n].entries.Perm (h.ports[n].entries ++ ids) ∧ ∀ id ∈ ids, ∃ f ∈ added, f.id = id

section

variable {h g k : Hub}

theorem Hub.AgentAdded.of_eq (hframes : g.store.frames = h.store.frames) (hentries : ∀ n : Slot, g.ports[n].entries = h.ports[n].entries) :
    Hub.AgentAdded h g :=
  ⟨[], by rw [hframes, List.append_nil], nofun, fun n => ⟨[], by rw [hentries, List.append_nil], nofun⟩⟩

theorem Hub.AgentAdded.trans (hk : Hub.AgentAdded h k) (hg : Hub.AgentAdded k g) : Hub.AgentAdded h g := by
  obtain ⟨first, hframes, hagent, hentries⟩ := hk
  obtain ⟨later, hframes', hagent', hentries'⟩ := hg
  refine ⟨first ++ later, by rw [hframes', hframes, List.append_assoc], fun f hf => ?_, fun n => ?_⟩
  · exact (List.mem_append.mp hf).elim (hagent f) (hagent' f)
  · obtain ⟨ids, hperm, hids⟩ := hentries n
    obtain ⟨ids', hperm', hids'⟩ := hentries' n
    refine ⟨ids ++ ids', hperm'.trans (by rw [← List.append_assoc]; exact hperm.append_right ids'), fun id hid => ?_⟩
    rcases List.mem_append.mp hid with hid | hid
    · obtain ⟨f, hf, he⟩ := hids id hid
      exact ⟨f, List.mem_append_left _ hf, he⟩
    · obtain ⟨f, hf, he⟩ := hids' id hid
      exact ⟨f, List.mem_append_right _ hf, he⟩

theorem Port.enter_entries_perm (p : Port) (place : Place) (id : Nat) (hplace : place ≠ .identify) :
    (p.enter place id).entries.Perm (p.entries ++ [id]) := by
  rw [List.perm_iff_count]
  intro j
  unfold Port.enter Port.entries
  cases place with
  | identify => exact absurd rfl hplace
  | _ =>
    simp only [List.count_append]
    omega

theorem Hub.modPort_enter_perm (h : Hub) (n m : Slot) {place : Place} (hplace : place ≠ .identify) (id : Nat) :
    (h.modPort n (·.enter place id)).ports[m].entries.Perm (h.ports[m].entries ++ if n = m then [id] else []) := by
  by_cases hm : n = m
  · subst hm
    rw [Hub.modPort_self, if_pos rfl]
    exact Port.enter_entries_perm _ _ _ hplace
  · rw [Hub.modPort_other _ _ _ _ hm, if_neg hm, List.append_nil]

theorem Hub.AgentAdded.closed (h : Hub) : AlarmClosed (Hub.AgentAdded h) where
  alarms _ _ _ hg := hg
  notice _ _ _ hg := hg
  permit _ _ _ hg := hg
  fence _ _ hg := hg
  refusal _ hg := hg
  placed g n place frame hplace _ _ _ hg := by
    rw [(Hub.schedule_others _ _).1]
    refine hg.trans ⟨[{ id := g.store.nextId, frame, blocks := frame.blocks, refs := 1, fromAgent := true }], rfl, by simp, fun m =>
      ⟨if n = m then [g.store.nextId] else [], Hub.modPort_enter_perm { g with store := g.store.put frame true 1 } n m ?_ g.store.nextId,
        fun id hid => ?_⟩⟩
    · rcases hplace with rfl | rfl <;> decide
    · split at hid
      · exact ⟨_, List.mem_singleton_self _, (List.mem_singleton.mp hid).symm⟩
      · cases hid

theorem Hub.AgentAdded.egressDrops (h : Hub) (slots : List Slot) : Hub.AgentAdded h (slots.foldl Hub.egressDrop h) := by
  refine foldl_keeps (P := Hub.AgentAdded h) (fun g n hg => ?_) _ (.of_eq rfl fun _ => rfl)
  unfold Hub.egressDrop
  refine (Hub.AgentAdded.closed h).raise ?_ _
  unfold Hub.count
  refine hg.trans (.of_eq rfl fun m => ?_)
  by_cases hm : n = m
  · subst hm
    rw [Hub.modPort_self]
    rfl
  · rw [Hub.modPort_other _ _ _ _ hm]

/-- They count at no port. -/
theorem Hub.AgentAdded.occupancy (hg : Hub.AgentAdded h g) (hs : g.store.Legal) (n : Slot) : g.occupancy n = h.occupancy n := by
  obtain ⟨added, hframes, hagent, hentries⟩ := hg
  obtain ⟨ids, hperm, hids⟩ := hentries n
  have hnew : ∀ id ∈ ids, g.store.cardBlocks id = 0 := fun id hid => by
    obtain ⟨f, hf, rfl⟩ := hids id hid
    unfold Store.cardBlocks
    rw [hs.find_mem (by rw [hframes]; exact List.mem_append_right _ hf)]
    exact if_pos (hagent f hf)
  have hold (id : Nat) : g.store.cardBlocks id = h.store.cardBlocks id := by
    have happend : g.store.find id = (h.store.find id).or (added.find? fun f => f.id == id) := by
      unfold Store.find
      rw [hframes, List.find?_append]
    unfold Store.cardBlocks
    rw [happend]
    cases h.store.find id with
    | some f => rfl
    | none =>
      rw [Option.none_or]
      cases hfind : added.find? fun f => f.id == id with
      | none => rfl
      | some f => exact if_pos (hagent f (List.mem_of_find?_eq_some hfind))
  unfold Hub.occupancy
  rw [(hperm.map g.store.cardBlocks).sum_eq, List.map_append, List.sum_append, List.map_congr_left hnew]
  simp [funext hold]

end

end Sys2Proof.Machine
end

section
/-! PROOFS. What every command keeps, said once: a promise that the judgments of an event restore is kept by every command but the loads, the
resets and the requests that set a value, if it is kept by the few changes that `Hub.Closed` lists. -/

namespace Sys2Proof.Machine

/-! ## Changes that a promise does not see -/

/-- The states of a slot that is neither EMPTY, SEATED nor FORWARDING. -/
def SlotState.plain (st : SlotState) : Bool := st != .empty && st != .seated && st != .forwarding

/-- A debounce timer stands, or is gone, or is one of its own that begins outside a load. -/
def TimerStays (loading : Bool) (old new : Option Debounce) : Prop :=
  new = old ∨ new.any (·.startUp) = false ∧ (loading = true → new = none)

/-- A slot's record changes in nothing that a promise reads. -/
structure SlotRec.Stays (loading : Bool) (r r' : SlotRec) : Prop where
  state : r'.state = r.state ∨ r.state.plain = true ∧ r'.state.plain = true
  waitStart : r'.waitStart = r.waitStart
  presence : TimerStays loading r.presenceTimer r'.presenceTimer
  latch : TimerStays loading r.latchTimer r'.latchTimer
  identity : r.state = .forwarding → r'.identity = r.identity

/-- A timing record changes in nothing that the permit rule reads. -/
structure TimingRec.Stays (r r' : TimingRec) : Prop where
  window : r'.window = r.window
  pathLost : r'.pathLost = r.pathLost
  phaseCond : r'.phaseCond = r.phaseCond
  granted : r'.granted = r.granted

/-- The hub changes in nothing that a promise reads. -/
structure Hub.Still (h g : Hub) : Prop where
  slots : ∀ n : Slot, SlotRec.Stays h.config.loading h.slots[n] g.slots[n]
  waitList : g.manager.waitList = h.manager.waitList
  timing : g.timing.state = h.timing.state
  selection : g.timing.selection = h.timing.selection
  cands : g.timing.cands = h.timing.cands
  trecs : ∀ n : Slot, TimingRec.Stays h.trecs[n] g.trecs[n]
  alarms : g.alarms = h.alarms
  tables : g.tables = h.tables
  loading : g.config.loading = h.config.loading
  inbound : h.config.loading = true → h.port.inbound = [] → g.port.inbound = []
  filed : h.Vacant → h.Filed → g.Filed

theorem TimerStays.refl (loading : Bool) (d : Option Debounce) : TimerStays loading d d := .inl rfl

theorem TimerStays.none (loading : Bool) (d : Option Debounce) : TimerStays loading d none := .inr ⟨rfl, fun _ => rfl⟩

theorem SlotRec.Stays.refl (loading : Bool) (r : SlotRec) : SlotRec.Stays loading r r :=
  ⟨.inl rfl, rfl, .inl rfl, .inl rfl, fun _ => rfl⟩

theorem TimingRec.Stays.refl (r : TimingRec) : TimingRec.Stays r r := ⟨rfl, rfl, rfl, rfl⟩

section

variable {h g : Hub} {n : Slot}

theorem Hub.Still.refl (h : Hub) : Hub.Still h h :=
  ⟨fun _ => .refl _ _, rfl, rfl, rfl, rfl, fun _ => .refl _, rfl, rfl, rfl, fun _ hi => hi, fun _ hf => hf⟩

/-- A change outside the slots, the timing, the alarms and the settings, that keeps the accounts of the store. -/
theorem Hub.Still.filing (hslots : g.slots = h.slots) (hwait : g.manager.waitList = h.manager.waitList) (htiming : g.timing = h.timing)
    (htrecs : g.trecs = h.trecs) (halarms : g.alarms = h.alarms) (htables : g.tables = h.tables)
    (hloading : g.config.loading = h.config.loading) (hinbound : h.config.loading = true → h.port.inbound = [] → g.port.inbound = [])
    (hfiled : h.Vacant → h.Filed → g.Filed) : Hub.Still h g where
  slots m := by rw [hslots]; exact .refl _ _
  waitList := hwait
  timing := by rw [htiming]
  selection := by rw [htiming]
  cands := by rw [htiming]
  trecs m := by rw [htrecs]; exact .refl _
  alarms := halarms
  tables := htables
  loading := hloading
  inbound := hinbound
  filed := hfiled

/-- A change outside the store, the ports and the links too. -/
theorem Hub.Still.outside (hslots : g.slots = h.slots) (hwait : g.manager.waitList = h.manager.waitList) (htiming : g.timing = h.timing)
    (htrecs : g.trecs = h.trecs) (halarms : g.alarms = h.alarms) (htables : g.tables = h.tables)
    (hloading : g.config.loading = h.config.loading) (hstore : g.store = h.store) (hports : g.ports = h.ports) (hlinks : g.links = h.links)
    (hinbound : h.config.loading = true → h.port.inbound = [] → g.port.inbound = []) : Hub.Still h g :=
  .filing hslots hwait htiming htrecs halarms htables hloading hinbound fun _ hf => hf.outside hstore hports hlinks (by rw [htables]) hloading

theorem Hub.Still.modSlot {f : SlotRec → SlotRec} (hf : SlotRec.Stays h.config.loading h.slots[n] (f h.slots[n])) : Hub.Still h (h.modSlot n f) :=
  { Hub.Still.refl h with
    slots := fun m => by
      by_cases he : n = m
      · subst he
        rw [Hub.modSlot_self]
        exact hf
      · rw [Hub.modSlot_other _ _ _ _ he]
        exact .refl _ _
    filed := fun _ hf => hf.outside rfl rfl rfl rfl rfl }

theorem Hub.Still.modTrec {f : TimingRec → TimingRec} (hf : TimingRec.Stays h.trecs[n] (f h.trecs[n])) : Hub.Still h (h.modTrec n f) :=
  { Hub.Still.refl h with
    trecs := fun m => by
      by_cases he : n = m
      · subst he
        rw [Hub.modTrec_self]
        exact hf
      · rw [Hub.modTrec_other _ _ _ _ he]
        exact .refl _
    filed := fun _ hf => hf.outside rfl rfl rfl rfl rfl }

/-- A change of a link that begins no transmission. -/
theorem Hub.Still.modLink {f : Link → Link} (htx : (f h.links[n]).tx = h.links[n].tx ∨ (f h.links[n]).tx = none) : Hub.Still h (h.modLink n f) :=
  .filing rfl rfl rfl rfl rfl rfl rfl (fun _ hi => hi) fun _ hf => hf.modLink htx

/-- A change of a port that leaves its entries. -/
theorem Hub.Still.modPort {f : Port → Port} (hs : h.ports[n].Same (f h.ports[n])) : Hub.Still h (h.modPort n f) :=
  .filing rfl rfl rfl rfl rfl rfl rfl (fun _ hi => hi) fun _ hf => hf.modPort hs

theorem Hub.Still.count (h : Hub) (n : Slot) (f : PortCounters → PortCounters) : Hub.Still h (h.count n f) := .modPort ⟨rfl, rfl, rfl, rfl⟩

theorem Hub.Still.abort (h : Hub) (n : Slot) : Hub.Still h (h.abort n) := by
  have hfiled : h.Vacant → h.Filed → (h.abort n).Filed := fun _ hf => hf.abort n
  unfold Hub.abort at hfiled ⊢
  split
  · next hsome => exact .filing rfl rfl rfl rfl rfl rfl rfl (fun _ hi => hi) (by rwa [if_pos hsome] at hfiled)
  · exact .refl _

theorem Hub.Still.purge (h : Hub) (n : Slot) : Hub.Still h (h.purge n) := by
  have hfiled : h.Vacant → h.Filed → (h.purge n).Filed := fun _ hf => hf.purge n
  rw [Hub.purge_frame] at hfiled ⊢
  exact .filing rfl rfl rfl rfl rfl rfl rfl (fun _ hi => hi) hfiled

theorem Hub.Still.schedule (h : Hub) (n : Slot) : Hub.Still h (h.schedule n) := by
  have hfiled : h.Vacant → h.Filed → (h.schedule n).Filed := fun _ hf => hf.schedule n
  rcases h.schedule_cases n with he | ⟨t, -, -, he⟩
  · rw [he]
    exact .refl _
  · rw [he] at hfiled ⊢
    exact .filing rfl rfl rfl rfl rfl rfl rfl (fun _ hi => hi) hfiled

theorem Hub.clearIdentify_frame (h : Hub) (n : Slot) : h.clearIdentify n =
    { h with links := (h.clearIdentify n).links, ports := (h.clearIdentify n).ports, store := (h.clearIdentify n).store } := by
  unfold Hub.clearIdentify Hub.abort
  split
  · rfl
  · split
    · split <;> rfl
    · rfl

theorem Hub.Still.clearIdentify (h : Hub) (n : Slot) : Hub.Still h (h.clearIdentify n) := by
  have hfiled : h.Vacant → h.Filed → (h.clearIdentify n).Filed := fun _ hf => hf.clearIdentify n
  rw [Hub.clearIdentify_frame] at hfiled ⊢
  exact .filing rfl rfl rfl rfl rfl rfl rfl (fun _ hi => hi) hfiled

/-- An agent frame stored and placed. -/
theorem Hub.Still.placed {place : Place} {frame : Frame} (htakes : h.slots[n].state.takesAgent place = true)
    (hid : place = .identify → h.ports[n].identify = none) (hlen : frame.payload.length ≤ 52) (hroom : h.store.freeReserve ≠ 0) :
    Hub.Still h (({ h with store := h.store.put frame true 1 }.modPort n (·.enter place h.store.nextId)).schedule n) := by
  have hfiled := fun (hv : h.Vacant) (hf : h.Filed) => hf.placed n place frame (hv.untaking.not_loading htakes) hid hlen hroom
  rw [(Hub.schedule_others _ _).1] at hfiled ⊢
  exact .filing rfl rfl rfl rfl rfl rfl rfl (fun _ hi => hi) hfiled

/-- The rotation point of the arbiter moves, and the head of a pending list leaves it. -/
theorem Hub.Still.rotated {store : Store} {f : Port → Port} (hstore : store.frames = h.store.frames ∧ store.sharedUsed = h.store.sharedUsed ∧
      store.reserveUsed = h.store.reserveUsed ∧ store.nextId = h.store.nextId) (hs : h.ports[n].Same (f h.ports[n])) :
    Hub.Still h ({ h with store }.modPort n f) :=
  .filing rfl rfl rfl rfl rfl rfl rfl (fun _ hi => hi) fun _ hf =>
    Hub.FiledBut.modPort (h := { h with store }) hs (hf.congr hstore (fun _ => .refl _) (fun _ => .inl rfl) rfl rfl)

/-- A card frame taken in by members that have room for it. -/
theorem Hub.Still.takeIn {frame : Frame} {members : List Slot} (hnd : members.Nodup) (hreach : ∃ m : Slot, h.slots[m].state.reachable = true)
    (hne : members ≠ []) (hroom : h.store.Legal → ∀ m ∈ members, h.occupancy m + frame.blocks ≤ h.tables.ports[m].limit)
    (hpasses : h.store.passes frame.cls frame.blocks = true) : Hub.Still h (h.takeIn frame members) := by
  have hfiled : h.Vacant → h.Filed → (h.takeIn frame members).Filed := fun hv hf => by
    obtain ⟨m, hm⟩ := hreach
    exact hf.takeIn (hv.not_loading (n := m) fun he => by rw [he] at hm; cases hm) hnd hne (hroom hf.store) hpasses
  rw [Hub.takeIn_frame] at hfiled ⊢
  exact .filing rfl rfl rfl rfl rfl rfl rfl (fun _ hi => hi) hfiled

/-- A completed transmission. -/
theorem Hub.Still.completed {t : InFlight} (htx : h.links[n].tx = some t) {f : Port → Port}
    (hfsame : (h.ports[n].leave t.place).Same (f h.ports[n])) :
    Hub.Still h ({ h.modLink n (fun l => { l with tx := none }) with store := h.store.deref t.id }.modPort n f) :=
  .filing rfl rfl rfl rfl rfl rfl rfl (fun _ hi => hi) fun _ hf => hf.completed htx f hfsame

theorem Hub.Still.notice (h : Hub) (code : Byte) (body : Body) : Hub.Still h (h.notice code body) :=
  .outside rfl rfl rfl rfl rfl rfl rfl rfl rfl rfl fun _ hi => by
    show (h.port.notice code body).inbound = []
    unfold HostPort.notice
    split <;> exact hi

theorem Hub.Still.enableLink (h : Hub) (n : Slot) : Hub.Still h (h.enableLink n) := by
  refine .modLink (.inl ?_)
  split
  · rfl
  · split <;> rfl

theorem Hub.Still.countFrame (h : Hub) (time : HubTime) : Hub.Still h (h.countFrame time) := by
  unfold Hub.countFrame
  split
  · exact ⟨fun _ => .refl _ _, rfl, rfl, rfl, rfl, fun _ => .refl _, rfl, rfl, rfl, fun _ hi => hi, fun _ hf => hf.outside rfl rfl rfl rfl rfl⟩
  · exact ⟨fun _ => .refl _ _, rfl, rfl, rfl, rfl, fun _ => .refl _, rfl, rfl, rfl, fun _ hi => hi, fun _ hf => hf.outside rfl rfl rfl rfl rfl⟩

end

/-! ## What a promise must be kept by -/

/-- What an event has still to judge: nothing, the permit of a slot, the permit of a slot and the cabinet outputs, or every permit and
the outputs. -/
inductive Owed where
  | nothing
  | permit (n : Slot)
  | slot (n : Slot)
  | all

/-- The Timing Unit changes and keeps its sources; and with no candidate and no selection, it selects nothing and stays in FREE_RUN. -/
structure Timing.Follows (old new : Timing) : Prop where
  sources : new.cands.map (·.source) = old.cands.map (·.source)
  idle : old.cands = [] → old.selection = none → new.selection = none ∧ (old.state = .freeRun → new.state = .freeRun)

/-- A slot's record is replaced: its place in the wait list and its timers stand, and a slot leaves EMPTY only once its debounce is over. -/
structure Hub.Replaces (h : Hub) (n : Slot) (r : SlotRec) : Prop where
  wait : n ∉ h.manager.waitList ∨ h.slots[n].state ≠ .seated
  waitStart : r.waitStart = h.slots[n].waitStart
  presence : r.presenceTimer = h.slots[n].presenceTimer
  latch : r.latchTimer = h.slots[n].latchTimer
  leaves : h.slots[n].state ≠ .empty ∨ r.state = .empty ∨ h.config.loading = false ∧ h.slots[n].presenceTimer = none

/-- Something stirs, so that the load no longer runs where a promise says that every slot is EMPTY while it does. -/
def Hub.Stirs (P : Owed → Hub → Prop) (h : Hub) : Prop :=
  h.config.loading = false ∨ ∃ (o : Owed) (k : Hub) (n : Slot), P o k ∧ k.slots[n].state ≠ .empty ∧ h.config.loading = k.config.loading

/-- A promise, by what the event has still to judge, is kept by the changes that events are made of. -/
structure Hub.Closed (P : Owed → Hub → Prop) : Prop where
  permit : ∀ {h} (n : Slot), P .nothing h → P (.permit n) h
  slot : ∀ {h} (n : Slot), P .nothing h → P (.slot n) h
  all : ∀ {o h}, P o h → P .all h
  still : ∀ {o h g}, P o h → Hub.Still h g → P o g
  raiseReported : ∀ {o h} (key : AlarmKey) (reported : Option Severity), P o h → P o (h.raiseReported key reported)
  clear : ∀ {o h} (key : AlarmKey), P o h → P o (h.clear key)
  replace : ∀ {o h} (n : Slot) (f : SlotRec → SlotRec), (o = .slot n ∨ h.slots[n].state ≠ .forwarding ∧ (f h.slots[n]).state ≠ .forwarding) →
    h.Replaces n (f h.slots[n]) → P o h → P o (h.modSlot n f)
  join : ∀ {o h} (n : Slot), h.slots[n].state = .seated → P o h → P o (h.join n)
  unjoin : ∀ {o h} (n : Slot), P o h → P o (h.unjoin n)
  serve : ∀ {o h}, Hub.Stirs P h → P o h → P o h.serve.1
  trec : ∀ {o h} (n : Slot) (f : TimingRec → TimingRec), (o = .slot n ∨ o = .permit n) → (∀ r, (f r).granted = r.granted) → P o h →
    P o (h.modTrec n f)
  judge : ∀ {h} (cause : PermitReason) (n : Slot), P (.permit n) h → P .nothing (h.judgePermit cause n)
  close : ∀ {h} (n : Slot), P (.slot n) h → P .nothing (h.judgePermit .slotState n).judgeOutputs
  retime : ∀ {o h} (new : Timing), h.timing.Follows new → (o = .all ∨ new.state.inSpec = h.timing.state.inSpec) → P o h →
    P o { h with timing := new }
  judgeAll : ∀ {h}, P .all h → P .nothing (h.judgePermits .timeSpecification).judgeOutputs
  acked : ∀ {h} (keys : List AlarmKey), P .nothing h → P .nothing (h.ackAll keys)
  purged : ∀ {h : Hub}, P .nothing h → P .nothing ({ h with alarms := h.alarms.purge } : Hub).judgeOutputs

section

variable {P : Owed → Hub → Prop} (hP : Hub.Closed P) {o : Owed} {h : Hub}

include hP

/-! ## The Alarm Unit and the store -/

theorem Hub.Closed.raise (key : AlarmKey) (ho : P o h) : P o (h.raise key) := hP.raiseReported key none ho

theorem Hub.Closed.raiseIf (cause : Bool) (key : AlarmKey) (ho : P o h) : P o (h.raiseIf cause key) := by
  unfold Hub.raiseIf
  split
  · exact hP.raise key ho
  · exact ho

theorem Hub.Closed.clearIf (held : Bool) (key : AlarmKey) (ho : P o h) : P o (h.clearIf held key) := by
  unfold Hub.clearIf
  split
  · exact hP.clear key ho
  · exact ho

theorem Hub.Closed.clearWait (n : Slot) (raised : Bool) (ho : P o h) : P o (h.clearWait n raised) := by
  unfold Hub.clearWait
  split
  · exact hP.clear _ ho
  · exact ho

theorem Hub.Closed.clearReported (n : Slot) (ho : P o h) : P o (h.clearReported n) := by
  unfold Hub.clearReported
  exact foldl_keeps (P := P o) (f := Hub.clear) (fun _ key hg => hP.clear key hg) _ ho

theorem Hub.Closed.notice (code : Byte) (body : Body) (ho : P o h) : P o (h.notice code body) := hP.still ho (.notice h code body)

theorem Hub.Closed.slotNotice (n : Slot) (old new : SlotState) (reason : SlotReason) (ho : P o h) : P o (h.slotNotice n old new reason) :=
  hP.notice _ _ ho

theorem Hub.Closed.schedule (n : Slot) (ho : P o h) : P o (h.schedule n) := hP.still ho (.schedule h n)

/-- An agent frame placed, or refused. -/
theorem Hub.Closed.place (n : Slot) (place : Place) (frame : Frame) (hlen : frame.payload.length ≤ 52) (ho : P o h) :
    P o (h.place n place frame).1 := by
  unfold Hub.place Hub.placeWith
  split
  · exact ho
  · next htakes =>
    have hid : P o (if place = .identify then h.clearIdentify n else h) ∧
        (if place = .identify then h.clearIdentify n else h).slots[n].state.takesAgent place = true ∧
        (place = .identify → (if place = .identify then h.clearIdentify n else h).ports[n].identify = none) := by
      split
      · have hslots := congrArg (fun v : Vector SlotRec 12 => v[n].state.takesAgent place) (h.clearIdentify_slots n)
        exact ⟨hP.still ho (.clearIdentify h n), hslots.trans (by simpa using htakes), fun _ => h.clearIdentify_identify n⟩
      · next hne => exact ⟨ho, by simpa using htakes, fun he => absurd he hne⟩
    simp only
    generalize (if place = .identify then h.clearIdentify n else h) = k at hid ⊢
    obtain ⟨hk, htakes, hnone⟩ := hid
    split
    · exact hP.raise _ (hP.still hk (.outside rfl rfl rfl rfl rfl rfl rfl rfl rfl rfl fun _ hi => hi))
    · next hroom => exact hP.still hk (.placed htakes hnone hlen hroom)

theorem Hub.Closed.count (n : Slot) (f : PortCounters → PortCounters) (ho : P o h) : P o (h.count n f) :=
  hP.still ho (.count h n f)

theorem Hub.Closed.countErrored (n : Slot) (ho : P o h) : P o (h.countErrored n) := by
  unfold Hub.countErrored
  simp only
  have hcount := hP.count n (fun c => { c with errored := c.errored + 1 }) ho
  split
  · exact hcount
  · split
    · exact hP.raise _ (hP.still hcount (.modLink (.inl rfl)))
    · exact hP.still hcount (.modLink (.inl rfl))

theorem Hub.Closed.judgeErrored (n : Slot) (ho : P o h) : P o (h.judgeErrored n) := by
  unfold Hub.judgeErrored
  simp only
  split
  · exact hP.clear _ (hP.still ho (.modLink (.inl rfl)))
  · exact hP.still ho (.modLink (.inl rfl))

theorem Hub.Closed.judgeErroredSeconds (ho : P o h) : P o h.judgeErroredSeconds := by
  unfold Hub.judgeErroredSeconds
  exact foldl_keeps (P := P o) (f := Hub.judgeErrored) (fun _ n hg => hP.judgeErrored n hg) _ ho

theorem Hub.Closed.stepTo (target : Int) (ho : P o h) : P o (h.stepTo target) := by
  unfold Hub.stepTo
  simp only
  have hclock : P o { h with clock := { h.clock with
      now := HubTime.ofTotal (target % (2 ^ 48 * nsPerSec : Nat)).toNat, timeStepped := true } } :=
    hP.still ho (.outside rfl rfl rfl rfl rfl rfl rfl rfl rfl rfl fun _ hi => hi)
  generalize Hub.mk _ _ _ _ _ _ _ _ _ _ _ _ _ _ = k at hclock ⊢
  have hseconds : P o (if (h.clock.now.total : Int) / nsPerSec < target / nsPerSec then k.judgeErroredSeconds else k) := by
    split
    · exact hP.judgeErroredSeconds hclock
    · exact hclock
  split
  · exact hP.still hseconds (.countFrame _ _)
  · exact hseconds

/-! ## The Timing Unit -/

theorem Hub.Closed.follow (kind : AlarmKind) (was is : Bool) (ho : P o h) : P o (h.follow kind was is) := by
  unfold Hub.follow
  split
  · exact hP.raise _ ho
  · split
    · exact hP.clear _ ho
    · exact ho

/-- The conditions of a change of the timing state, followed and judged, whatever the change left to judge. -/
theorem Hub.Closed.timingResults (old : TimingState) (mayRaise : Bool)
    (hsame : old.inSpec = h.timing.state.inSpec → P o h) (hother : old.inSpec ≠ h.timing.state.inSpec → P .all h) :
    (old.inSpec = h.timing.state.inSpec → P o (h.timingResults old mayRaise)) ∧
      (old.inSpec ≠ h.timing.state.inSpec → P .nothing (h.timingResults old mayRaise)) := by
  unfold Hub.timingResults Hub.followReference
  simp only
  have hfollow : ∀ {o : Owed}, P o h → P o ((({ h with timing := { h.timing with refLost := h.timing.lost && (h.timing.refLost || mayRaise) } }.follow
      .referenceLost h.timing.refLost (h.timing.lost && (h.timing.refLost || mayRaise))).follow .holdoverActive (old == TimingState.holdover)
      (h.timing.state == TimingState.holdover)).follow .holdoverLapsed old.lapsed h.timing.state.lapsed) := fun ho =>
    hP.follow _ _ _ (hP.follow _ _ _ (hP.follow _ _ _ (hP.still ho
      ⟨fun _ => .refl _ _, rfl, rfl, rfl, rfl, fun _ => .refl _, rfl, rfl, rfl, fun _ hi => hi, fun _ hf => hf.outside rfl rfl rfl rfl rfl⟩)))
  constructor
  · intro he
    rw [if_pos he]
    exact hfollow (hsame he)
  · intro hne
    rw [if_neg hne]
    exact hP.judgeAll (hfollow (hother hne))

theorem Hub.Closed.timingNotice (old new : Timing) (reason : TimingReason) (ho : P o h) : P o (h.timingNotice old new reason) := by
  unfold Hub.timingNotice
  split
  · exact ho
  · exact hP.notice _ _ ho

end

/-- What an event owes before a judgment that may judge everything: the judgment of everything meets it too. -/
theorem Hub.Closed.of_nothing {P : Owed → Hub → Prop} (hP : Hub.Closed P) {h : Hub} (o : Owed) (ho : P .nothing h) : P o h := by
  cases o with
  | nothing => exact ho
  | permit n => exact hP.permit n ho
  | slot n => exact hP.slot n ho
  | all => exact hP.all ho

section

variable {P : Owed → Hub → Prop} (hP : Hub.Closed P) {o : Owed} {h : Hub}

include hP

/-- A new Timing taken over, with its notice and results. -/
theorem Hub.Closed.setTiming (new : Timing) (reason : TimingReason) (mayRaise : Bool) (hnew : h.timing.Follows new) (ho : P o h) :
    P o (h.setTiming new reason mayRaise) := by
  unfold Hub.setTiming
  simp only
  have hstate := Hub.timingNotice_timing { h with timing := new } h.timing new reason
  obtain ⟨hsame, hother⟩ := hP.timingResults (h := ({ h with timing := new } : Hub).timingNotice h.timing new reason) (o := o) h.timing.state mayRaise
    (fun he => hP.timingNotice _ _ _ (hP.retime new hnew (.inr (by rw [he, hstate])) ho))
    (fun _ => hP.timingNotice _ _ _ (hP.retime new hnew (.inl rfl) (hP.all ho)))
  by_cases he : h.timing.state.inSpec = (({ h with timing := new } : Hub).timingNotice h.timing new reason).timing.state.inSpec
  · exact hsame he
  · exact hP.of_nothing o (hother he)

omit hP in
theorem Timing.loseSource_sources (t : Timing) (n : Slot) : (t.loseSource n).cands.map (·.source) = t.cands.map (·.source) := by
  unfold Timing.loseSource
  rw [List.map_map]
  refine List.map_congr_left fun c _ => ?_
  simp only [Function.comp]
  split <;> rfl

theorem Hub.Closed.sourceLeft (n : Slot) (ho : P o h) : P o (h.sourceLeft n) := by
  unfold Hub.sourceLeft
  split
  · next hany =>
    refine hP.setTiming _ _ _ ⟨?_, fun hnil => ?_⟩ ho
    · rw [Timing.reselect_cands, Timing.loseSource_sources]
    · rw [hnil] at hany
      cases hany
  · exact ho

theorem Hub.Closed.windowReset (n : Slot) (ho : P .nothing h) : P .nothing (h.windowReset n) := by
  unfold Hub.windowReset
  exact hP.judge _ n (hP.sourceLeft n (hP.trec n _ (.inr rfl) (fun _ => rfl) (hP.permit n ho)))

theorem Hub.Closed.miss (n : Slot) (ho : P .nothing h) : P .nothing (h.miss n) := by
  unfold Hub.miss
  simp only
  split
  · exact hP.judge _ n (hP.raise _ (hP.trec n _ (.inr rfl) (fun _ => rfl) (hP.permit n ho)))
  · exact hP.still ho (.modTrec ⟨rfl, rfl, rfl, rfl⟩)

theorem Hub.Closed.takeSample (n : Slot) (t1 t4 : HubTime) (turnaround : Nat) (ho : P .nothing h) :
    P .nothing (h.takeSample n t1 t4 turnaround) := by
  unfold Hub.takeSample
  simp only
  split
  · exact hP.still ho (.modTrec ⟨rfl, rfl, rfl, rfl⟩)
  · refine hP.judge _ n ?_
    have htrec : P (.permit n) (h.modTrec n (·.useSample (roundTrip t1 t4 turnaround).toNat h.tables.asymmetry[n] h.tables.timing.slewStep)) :=
      hP.trec n _ (.inr rfl) (fun _ => rfl) (hP.permit n ho)
    split
    · exact hP.clear _ htrec
    · exact htrec

omit hP in
theorem TimingRec.phase_stays (r : TimingRec) (error : Int) (limit : Nat) : TimingRec.Stays r (r.phase error limit) := by
  unfold TimingRec.phase
  simp only
  split <;> exact ⟨rfl, rfl, rfl, rfl⟩

theorem Hub.Closed.phaseReport (n : Slot) (error : Int) (ho : P .nothing h) : P .nothing (h.phaseReport n error) := by
  unfold Hub.phaseReport
  simp only
  have hphase : P .nothing (h.modTrec n (·.phase error h.tables.timing.phaseLimit)) := hP.still ho (.modTrec (TimingRec.phase_stays _ _ _))
  split
  · exact hP.judge _ n (hP.raise _ (hP.trec n _ (.inr rfl) (fun _ => rfl) (hP.permit n hphase)))
  · split
    · exact hP.judge _ n (hP.clear _ (hP.trec n _ (.inr rfl) (fun _ => rfl) (hP.permit n hphase)))
    · exact hphase

theorem Hub.Closed.probeAttempt (n : Slot) (ho : P .nothing h) : P .nothing (h.probeAttempt n) := by
  unfold Hub.probeAttempt
  simp only
  have hplace := hP.place n .timing (agentFrame .timing Kind.delayProbe 0 (h.trecs[n].sequence + 1) n []) (Nat.zero_le _)
    (hP.still ho (.modTrec (f := fun r => { r with sequence := h.trecs[n].sequence + 1 }) (n := n) ⟨rfl, rfl, rfl, rfl⟩))
  split
  · exact hP.still hplace (.modTrec ⟨rfl, rfl, rfl, rfl⟩)
  · exact hP.miss n hplace

theorem Hub.Closed.announceSlot (b : HubTime) (n : Slot) (ho : P .nothing h) : P .nothing (Hub.announceSlot b h n) := by
  unfold Hub.announceSlot
  simp only
  refine hP.probeAttempt n (hP.place _ _ _ (Hub.announceFrame_length _ b n) ?_)
  split
  · exact hP.miss n (hP.still ho (.modTrec ⟨rfl, rfl, rfl, rfl⟩))
  · exact ho

theorem Hub.Closed.announce (b : HubTime) (ho : P .nothing h) : P .nothing (h.announce b) := by
  unfold Hub.announce
  simp only
  exact hP.still (foldl_keeps (P := P .nothing) (f := Hub.announceSlot b) (fun _ n hg => hP.announceSlot b n hg) _ ho)
    (.outside rfl rfl rfl rfl rfl rfl rfl rfl rfl rfl fun _ hi => hi)

end

/-! ## The second judgment (R103) -/

theorem Timing.judgeCands_sources (t : Timing) (q : Nat) (valid : Source → Bool) :
    (t.judgeCands q valid).cands.map (·.source) = t.cands.map (·.source) := by
  unfold Timing.judgeCands
  rw [List.map_map]
  refine List.map_congr_left fun c _ => ?_
  simp only [Function.comp, Candidate.judge]
  split
  · rfl
  · split <;> rfl

theorem Timing.useOffset_sources (t : Timing) (p : TimingParams) (offset : Option Int) :
    (t.useOffset p offset).cands.map (·.source) = t.cands.map (·.source) := by
  obtain ⟨hc | ⟨v, hc⟩, -⟩ := t.useOffset_parts p offset
  · rw [hc]
  · rw [hc]
    unfold Timing.recordOffset
    rw [List.map_map]
    refine List.map_congr_left fun c _ => ?_
    simp only [Function.comp]
    split <;> rfl

theorem Timing.holdoverLimit_freeRun {t : Timing} (limit : Nat) (hs : t.state = .freeRun) : t.holdoverLimit limit = t := by
  unfold Timing.holdoverLimit
  rw [hs]

theorem Timing.advanceHoldover_freeRun {t : Timing} (limit : Nat) (hs : t.state = .freeRun) : t.advanceHoldover limit = t :=
  if_pos (by rw [hs]; rfl)

theorem Timing.advanceHoldover_selection (t : Timing) (limit : Nat) : (t.advanceHoldover limit).selection = t.selection := by
  unfold Timing.advanceHoldover
  split
  · rfl
  · split
    · exact Timing.holdoverLimit_selection _ _
    · rfl

/-- The Timing Unit after the fourth part of a judgment. -/
def Hub.midTiming (h : Hub) : Timing :=
  ((h.timing.advanceHoldover h.tables.timing.holdoverLimit).judgeCands h.tables.timing.q h.sourceValid).reselect h.tables.revertive

theorem Hub.midTiming_follows (h : Hub) : h.timing.Follows h.midTiming := by
  unfold Hub.midTiming
  refine ⟨?_, fun hnil hnone => ?_⟩
  · rw [Timing.reselect_cands, Timing.judgeCands_sources, Timing.advanceHoldover_cands]
  · have hempty : ((h.timing.advanceHoldover h.tables.timing.holdoverLimit).judgeCands h.tables.timing.q h.sourceValid).cands = [] := by
      unfold Timing.judgeCands
      rw [Timing.advanceHoldover_cands, hnil, List.map_nil]
    have hselection : ((h.timing.advanceHoldover h.tables.timing.holdoverLimit).judgeCands h.tables.timing.q h.sourceValid).selection = none :=
      (Timing.advanceHoldover_selection _ _).trans hnone
    rw [Timing.reselect_of_same ((Timing.newSelection_of_empty _ hempty).trans hselection.symm)]
    refine ⟨hselection, fun hs => ?_⟩
    show (h.timing.advanceHoldover h.tables.timing.holdoverLimit).state = .freeRun
    rw [Timing.advanceHoldover_freeRun _ hs]
    exact hs

/-- The offset that a judgment uses. -/
def Hub.judgedOffset (h : Hub) : Option Int := ({ h with timing := h.midTiming } : Hub).measuredOffset

/-- The Timing Unit after the fifth part of a judgment. -/
def Hub.newTiming (h : Hub) : Timing := h.midTiming.useOffset h.tables.timing h.judgedOffset

theorem Hub.newTiming_follows (h : Hub) : h.midTiming.Follows h.newTiming := by
  refine ⟨Timing.useOffset_sources _ _ _, fun hnil hnone => ?_⟩
  have hoffset : h.judgedOffset = none := by
    unfold Hub.judgedOffset Hub.measuredOffset
    simp only [hnone]
  unfold Hub.newTiming
  rw [hoffset]
  exact ⟨hnone, fun hs => hs⟩

/-- The notice of a judgment, before its conditions are followed. -/
def Hub.judgedNotice (h : Hub) : Hub :=
  let reasons := judgmentReasons h.timing h.midTiming h.newTiming
  let g := ({ h with timing := h.midTiming } : Hub).timingNotice h.timing h.newTiming (pickReason h.draws reasons)
  if 1 < reasons.length then { g with draws := g.draws + 1 } else g

/-- The hub once the conditions of the first four parts have been followed, with the correction and the state of the fifth. -/
def Hub.judgedTiming (h : Hub) : Hub :=
  let g := h.judgedNotice.timingResults h.timing.state true
  { g with timing := { h.newTiming with refLost := g.timing.refLost } }

/-- The measurement used, and the step of hub time that a first offset makes. -/
def Hub.useMeasurement (h : Hub) (mid : Timing) (offset : Option Int) : Hub :=
  match offset with
  | none => h
  | some o => let h := h.consumeMeasurement; if mid.steps o then h.stepTo (h.clock.now.total + o) else h

/-- The third part of a judgment and those after it. -/
def Hub.judgeReference (h : Hub) : Hub :=
  (h.judgedTiming.useMeasurement h.midTiming h.judgedOffset).timingResults h.midTiming.state false

theorem Hub.secondJudgment_eq (h : Hub) : h.secondJudgment = h.judgeErroredSeconds.applyTimeSet.judgeReference := by
  unfold Hub.secondJudgment
  generalize h.judgeErroredSeconds.applyTimeSet = g
  unfold Hub.judgeReference Hub.judgedTiming Hub.judgedNotice Hub.newTiming
  simp only
  rw [show ({ g with timing := ((g.timing.advanceHoldover g.tables.timing.holdoverLimit).judgeCands g.tables.timing.q
    g.sourceValid).reselect g.tables.revertive } : Hub).measuredOffset = g.judgedOffset from rfl]
  unfold Hub.midTiming Hub.useMeasurement
  cases g.judgedOffset with
  | none => rfl
  | some offset => rfl

theorem Hub.judgedNotice_timing (h : Hub) : h.judgedNotice.timing = h.midTiming := by
  unfold Hub.judgedNotice
  simp only
  split <;> exact Hub.timingNotice_timing _ _ _ _

theorem Hub.judgeErroredSeconds_timing (h : Hub) : h.judgeErroredSeconds.timing = h.timing := by
  unfold Hub.judgeErroredSeconds
  refine foldl_keeps (P := fun g : Hub => g.timing = h.timing) (f := Hub.judgeErrored) (fun g n hg => ?_) _ rfl
  unfold Hub.judgeErrored
  simp only
  split
  · exact (Hub.clear_quiet _ _).timing.trans hg
  · exact hg

theorem Hub.countFrame_state (h : Hub) (time : HubTime) : (h.countFrame time).timing.state = h.timing.state := by
  unfold Hub.countFrame
  split <;> rfl

theorem Hub.stepTo_state (h : Hub) (target : Int) : (h.stepTo target).timing.state = h.timing.state := by
  unfold Hub.stepTo
  simp only
  split
  · rw [Hub.countFrame_state]
    split
    · rw [Hub.judgeErroredSeconds_timing]
    · rfl
  · split
    · rw [Hub.judgeErroredSeconds_timing]
    · rfl

theorem Hub.consumeMeasurement_state (h : Hub) : h.consumeMeasurement.timing.state = h.timing.state := by
  unfold Hub.consumeMeasurement
  split <;> rfl

theorem Hub.useMeasurement_state (h : Hub) (mid : Timing) (offset : Option Int) : (h.useMeasurement mid offset).timing.state = h.timing.state := by
  unfold Hub.useMeasurement
  split
  · rfl
  · simp only
    split
    · rw [Hub.stepTo_state, Hub.consumeMeasurement_state]
    · rw [Hub.consumeMeasurement_state]

section

variable {P : Owed → Hub → Prop} (hP : Hub.Closed P) {o : Owed} {h : Hub}

include hP

theorem Hub.Closed.consumeMeasurement (ho : P o h) : P o h.consumeMeasurement := by
  unfold Hub.consumeMeasurement
  split
  · exact hP.still ho ⟨fun _ => .refl _ _, rfl, rfl, rfl, rfl, fun _ => .refl _, rfl, rfl, rfl, fun _ hi => hi, fun _ hf => hf.outside rfl rfl rfl rfl rfl⟩
  · exact hP.still ho (.modTrec ⟨rfl, rfl, rfl, rfl⟩)
  · exact ho

theorem Hub.Closed.useMeasurement (mid : Timing) (offset : Option Int) (ho : P o h) : P o (h.useMeasurement mid offset) := by
  unfold Hub.useMeasurement
  split
  · exact ho
  · simp only
    split
    · exact hP.stepTo _ (hP.consumeMeasurement ho)
    · exact hP.consumeMeasurement ho

theorem Hub.Closed.judgedNotice (hsame : o = .all ∨ h.midTiming.state.inSpec = h.timing.state.inSpec) (ho : P o h) : P o h.judgedNotice := by
  unfold Hub.judgedNotice
  simp only
  have hnotice := hP.timingNotice h.timing h.newTiming (pickReason h.draws (judgmentReasons h.timing h.midTiming h.newTiming))
    (hP.retime _ h.midTiming_follows hsame ho)
  split
  · exact hP.still hnotice (.outside rfl rfl rfl rfl rfl rfl rfl rfl rfl rfl fun _ hi => hi)
  · exact hnotice

theorem Hub.Closed.judgedTiming (hsame : o = .all ∨ h.newTiming.state.inSpec = h.midTiming.state.inSpec) (ho : P .nothing h) :
    P o h.judgedTiming := by
  have hstate : h.judgedNotice.timing = h.midTiming := h.judgedNotice_timing
  have hresults : P .nothing (h.judgedNotice.timingResults h.timing.state true) := by
    obtain ⟨hin, hout⟩ := hP.timingResults (h := h.judgedNotice) (o := .nothing) h.timing.state true
      (fun he => hP.judgedNotice (.inr (by rw [he, hstate])) ho) (fun _ => hP.judgedNotice (.inl rfl) (hP.all ho))
    by_cases he : h.timing.state.inSpec = h.judgedNotice.timing.state.inSpec
    · exact hin he
    · exact hout he
  have htiming := h.judgedNotice.timingResults_timing h.timing.state true
  unfold Hub.judgedTiming
  simp only
  generalize h.judgedNotice.timingResults h.timing.state true = g at *
  have hfollows := h.newTiming_follows
  refine hP.retime _ ?_ ?_ (hP.of_nothing o hresults)
  · rw [htiming, hstate]
    exact ⟨hfollows.sources, hfollows.idle⟩
  · rw [htiming, hstate]
    exact hsame

theorem Hub.Closed.judgeReference (ho : P .nothing h) : P .nothing h.judgeReference := by
  unfold Hub.judgeReference
  have hstate : (h.judgedTiming.useMeasurement h.midTiming h.judgedOffset).timing.state = h.newTiming.state := by
    rw [Hub.useMeasurement_state]
    rfl
  obtain ⟨hin, hout⟩ := hP.timingResults (h := h.judgedTiming.useMeasurement h.midTiming h.judgedOffset) (o := .nothing) h.midTiming.state false
    (fun he => hP.useMeasurement _ _ (hP.judgedTiming (.inr (by rw [he, hstate])) ho))
    (fun _ => hP.useMeasurement _ _ (hP.judgedTiming (.inl rfl) ho))
  by_cases he : h.midTiming.state.inSpec = (h.judgedTiming.useMeasurement h.midTiming h.judgedOffset).timing.state.inSpec
  · exact hin he
  · exact hout he

theorem Hub.Closed.applyTimeSet (ho : P o h) : P o h.applyTimeSet := by
  unfold Hub.applyTimeSet
  split
  · exact ho
  · refine hP.stepTo _ (hP.still ho ⟨fun _ => .refl _ _, rfl, rfl, rfl, rfl, fun m => ?_, rfl, rfl, rfl, fun _ hi => hi,
      fun _ hf => hf.outside rfl rfl rfl rfl rfl⟩)
    simp only [Fin.getElem_fin, mapEach_get]
    exact ⟨rfl, rfl, rfl, rfl⟩

theorem Hub.Closed.secondJudgment (ho : P .nothing h) : P .nothing h.secondJudgment := by
  rw [Hub.secondJudgment_eq]
  exact hP.judgeReference (hP.applyTimeSet (hP.judgeErroredSeconds ho))

end

end Sys2Proof.Machine
end

section
/-! PROOFS. The entries to the slot states, and the events of the slots, the links, the ports and the clock, keep every promise that is
closed (`Hub.Closed`). -/

namespace Sys2Proof.Machine

section

variable {P : Owed → Hub → Prop} (hP : Hub.Closed P) {o : Owed} {h : Hub} {n : Slot}

/-! ## What an entry to a state owes -/

/-- A slot that leaves FORWARDING owes its judgment; any other owes nothing. -/
def owedFrom (n : Slot) (old : SlotState) : Owed := if old = .forwarding then .slot n else .nothing

theorem owedFrom_forwarding (n : Slot) : owedFrom n .forwarding = .slot n := rfl

theorem owedFrom_other {old : SlotState} (n : Slot) (hs : old ≠ .forwarding) : owedFrom n old = .nothing := if_neg hs

/-- A change of a slot from a state: it owes the slot's judgment, or it keeps out of FORWARDING. -/
theorem owedFrom_replaces {old new : SlotState} (n : Slot) (hnew : new ≠ .forwarding) :
    owedFrom n old = .slot n ∨ old ≠ .forwarding ∧ new ≠ .forwarding := by
  by_cases hs : old = .forwarding
  · exact .inl (if_pos hs)
  · exact .inr ⟨hs, hnew⟩

include hP

theorem Hub.Closed.owed (old : SlotState) (ho : P .nothing h) : P (owedFrom n old) h := hP.of_nothing _ ho

/-! ## What follows a change -/

theorem Hub.Closed.endSweepIfDone (ho : P o h) : P o h.endSweepIfDone := by
  unfold Hub.endSweepIfDone Hub.endSweep
  split
  · exact hP.still ho (.outside rfl rfl rfl rfl rfl rfl rfl rfl rfl rfl fun _ hi => hi)
  · exact ho

theorem Hub.Closed.setSweep (w : Sweep) (ho : P o h) : P o (h.setSweep w) :=
  hP.still ho (.outside rfl rfl rfl rfl rfl rfl rfl rfl rfl rfl fun _ hi => hi)

theorem Hub.Closed.leaveSweep (n : Slot) (ho : P o h) : P o (h.leaveSweep n) := by
  unfold Hub.leaveSweep
  split
  · exact hP.endSweepIfDone (hP.setSweep _ ho)
  · exact ho

theorem Hub.Closed.leaveForwarding (n : Slot) (ho : P (.slot n) h) : P .nothing (h.leaveForwarding n) := by
  unfold Hub.leaveForwarding
  simp only
  exact hP.leaveSweep n (hP.close n (hP.sourceLeft n (hP.clearIf _ _ (hP.clearIf _ _ (hP.trec n _ (.inl rfl) (fun _ => rfl) ho)))))

theorem Hub.Closed.handOn (n : Slot) (old : SlotState) (linkLeft : Bool) (ho : P (owedFrom n old) h) : P .nothing (h.handOn n old linkLeft) := by
  unfold Hub.handOn
  simp only
  have hleft : P .nothing (if old = .forwarding then h.leaveForwarding n else h) := by
    split
    · next hs =>
      rw [hs, owedFrom_forwarding] at ho
      exact hP.leaveForwarding n ho
    · next hs =>
      rw [owedFrom_other n hs] at ho
      exact ho
  split
  · exact hP.windowReset n hleft
  · exact hleft

theorem Hub.Closed.announceGrant (g : Slot × Bool) (ho : P o h) : P o (h.announceGrant g) := by
  unfold Hub.announceGrant
  simp only
  have hnotice := hP.slotNotice g.1 .seated .powering .powerGranted (hP.clearWait g.1 g.2 ho)
  split
  · exact hP.slotNotice _ _ _ _ hnotice
  · exact hnotice

theorem Hub.Closed.announceGrants (gs : List (Slot × Bool)) (ho : P o h) : P o (h.announceGrants gs) := by
  unfold Hub.announceGrants
  exact foldl_keeps (P := P o) (f := Hub.announceGrant) (fun _ g hg => hP.announceGrant g hg) _ ho

/-! ## Links -/

theorem Hub.Closed.dropPartial (n : Slot) (ho : P o h) : P o (h.dropPartial n) := by
  unfold Hub.dropPartial
  split
  · exact hP.countErrored n (hP.still ho (.modLink (.inl rfl)))
  · exact ho

theorem Hub.Closed.disableLink (n : Slot) (ho : P o h) : P o (h.disableLink n) := by
  unfold Hub.disableLink
  exact hP.dropPartial n (hP.still (hP.still ho (.abort h n)) (.modLink (.inl rfl)))

theorem Hub.Closed.resetLink (n : Slot) (ho : P o h) : P o (h.resetLink n) := by
  unfold Hub.resetLink
  exact hP.dropPartial n (hP.still (hP.still (hP.still ho (.purge h n)) (.abort _ n)) (.modLink (.inl rfl)))

/-! ## Entries -/

omit hP in
/-- A record on entry to a state keeps the timers and the place in the wait list of the record before. -/
theorem Hub.Replaces.enter (state : SlotState) (f : SlotRec → SlotRec) (hwait : n ∉ h.manager.waitList ∨ h.slots[n].state ≠ .seated)
    (hf : ∀ r, (f r).state = r.state ∧ (f r).waitStart = r.waitStart ∧ (f r).presenceTimer = r.presenceTimer ∧ (f r).latchTimer = r.latchTimer)
    (hleaves : h.slots[n].state ≠ .empty ∨ state = .empty ∨ h.config.loading = false ∧ h.slots[n].presenceTimer = none) :
    h.Replaces n (f { h.slots[n] with state, entry := h.stamp, limit := none, attempt := 0, autoAdmit := false }) := by
  obtain ⟨hstate, hstart, hpresence, hlatch⟩ := hf { h.slots[n] with state, entry := h.stamp, limit := none, attempt := 0, autoAdmit := false }
  exact ⟨hwait, hstart, hpresence, hlatch, by rw [hstate]; exact hleaves⟩

/-- An entry to a state. -/
theorem Hub.Closed.enter (state : SlotState) (f : SlotRec → SlotRec)
    (howed : o = .slot n ∨ h.slots[n].state ≠ .forwarding ∧ state ≠ .forwarding)
    (hwait : n ∉ h.manager.waitList ∨ h.slots[n].state ≠ .seated)
    (hf : ∀ r, (f r).state = r.state ∧ (f r).waitStart = r.waitStart ∧ (f r).presenceTimer = r.presenceTimer ∧ (f r).latchTimer = r.latchTimer)
    (hleaves : h.slots[n].state ≠ .empty ∨ state = .empty ∨ h.config.loading = false ∧ h.slots[n].presenceTimer = none) (ho : P o h) :
    P o (h.enter n state f) := by
  unfold Hub.enter
  refine hP.replace n _ ?_ (.enter state f hwait hf hleaves) ho
  rw [(hf _).1]
  exact howed

/-- A slot that goes to a state without power. -/
theorem Hub.Closed.powerDown (state : SlotState) (f : SlotRec → SlotRec) (hstate : state ≠ .forwarding)
    (hf : ∀ r, (f r).state = r.state ∧ (f r).waitStart = r.waitStart ∧ (f r).presenceTimer = r.presenceTimer ∧ (f r).latchTimer = r.latchTimer)
    (hleaves : h.slots[n].state ≠ .empty ∨ state = .empty) (ho : P .nothing h) :
    P (owedFrom n h.slots[n].state) (h.powerDown n state f) := by
  unfold Hub.powerDown
  have hold : ((h.purge n).unjoin n).slots[n].state = h.slots[n].state := by
    unfold Hub.unjoin
    rw [Hub.modSlot_self]
    show (h.purge n).slots[n].state = _
    rw [Hub.purge_slots]
  refine hP.disableLink n (hP.enter state f ?_ (.inl (Hub.unjoin_not_mem _ n)) hf ?_ (hP.unjoin n (hP.still (hP.owed _ ho) (.purge h n))))
  · rw [hold]
    exact owedFrom_replaces n hstate
  · rw [hold]
    exact hleaves.imp_right .inl

omit hP in
theorem Hub.countErrored_config (h : Hub) (n : Slot) : (h.countErrored n).config = h.config := by
  unfold Hub.countErrored
  simp only
  split
  · rfl
  · split
    · exact (Hub.raise_quiet _ _).config
    · rfl

omit hP in
theorem Hub.powerDown_config (h : Hub) (n : Slot) (state : SlotState) (f : SlotRec → SlotRec) : (h.powerDown n state f).config = h.config := by
  have hpurge : (((h.purge n).unjoin n).enter n state f).config = h.config := by
    show (h.purge n).config = _
    rw [Hub.purge_frame]
  unfold Hub.powerDown Hub.disableLink Hub.dropPartial
  simp only
  generalize ((h.purge n).unjoin n).enter n state f = k at hpurge ⊢
  have habort : (k.abort n).config = k.config := by rw [Hub.abort_frame]
  split
  · rw [Hub.countErrored_config]
    exact habort.trans hpurge
  · exact habort.trans hpurge

/-- The service after a slot has gone without power. -/
theorem Hub.Closed.powerDownServed (state : SlotState) (f : SlotRec → SlotRec) (hstate : state ≠ .forwarding)
    (hf : ∀ r, (f r).state = r.state ∧ (f r).waitStart = r.waitStart ∧ (f r).presenceTimer = r.presenceTimer ∧ (f r).latchTimer = r.latchTimer)
    (hs : h.slots[n].state ≠ .empty) (ho : P .nothing h) : P (owedFrom n h.slots[n].state) (h.powerDown n state f).serve.1 :=
  hP.serve (.inr ⟨.nothing, h, n, ho, hs, by rw [Hub.powerDown_config]⟩) (hP.powerDown state f hstate hf (.inl hs) ho)

theorem Hub.Closed.enterOffWith (forced : Bool) (reason : SlotReason) (hs : h.slots[n].state ≠ .empty) (ho : P .nothing h) :
    P .nothing (h.enterOffWith forced n reason) := by
  unfold Hub.enterOffWith
  simp only
  have hdown := hP.powerDownServed (n := n) .off (fun r => { r.unpower true with identity := none }) (by decide) (fun _ => ⟨rfl, rfl, rfl, rfl⟩) hs ho
  exact hP.announceGrants _ (hP.slotNotice _ _ _ _ (hP.handOn n _ _ (hP.clearReported n (hP.clearIf _ _ (hP.clear _ (hP.clearWait _ _
    (hP.raiseIf _ _ hdown)))))))

theorem Hub.Closed.enterOff (reason : SlotReason) (hs : h.slots[n].state ≠ .empty) (ho : P .nothing h) : P .nothing (h.enterOff n reason) :=
  hP.enterOffWith false reason hs ho

theorem Hub.Closed.enterEmpty (hs : h.slots[n].state ≠ .empty) (ho : P .nothing h) : P .nothing (h.enterEmpty n) := by
  unfold Hub.enterEmpty
  simp only
  have hdown := hP.powerDownServed (n := n) .empty SlotRec.emptied (by decide) (fun _ => ⟨rfl, rfl, rfl, rfl⟩) hs ho
  exact hP.announceGrants _ (hP.slotNotice _ _ _ _ (hP.handOn n _ _ (hP.clearReported n (hP.raiseIf _ _ (hP.clearIf _ _ (hP.clearIf _ _
    (hP.clear _ (hP.clearWait _ _ hdown))))))))

theorem Hub.Closed.enterFaulted (fault : FaultReason) (reason : SlotReason) (hs : h.slots[n].state ≠ .empty) (ho : P .nothing h) :
    P .nothing (h.enterFaulted n fault reason) := by
  unfold Hub.enterFaulted
  simp only
  have hdown := hP.powerDownServed (n := n) .faulted (fun r => { r.unpower false with fault := some fault }) (by decide)
    (fun _ => ⟨rfl, rfl, rfl, rfl⟩) hs ho
  obtain ⟨hslot, -⟩ := h.powerDown_spec n .faulted (fun r => { r.unpower false with fault := some fault }) (fun _ => rfl) rfl
  generalize (h.powerDown n .faulted fun r => { r.unpower false with fault := some fault }).serve = served at hdown hslot ⊢
  have hcleared := hP.clearIf (h.slots[n].state == .recovering) (.slot n .linkLost) (hP.raise (.slot n .slotFault) hdown)
  have hands := (served.1.raise_handsOn (.slot n .slotFault)).trans
    (Hub.clearIf_handsOn _ (h.slots[n].state == .recovering) (.slot n .linkLost))
  generalize (served.1.raise (.slot n .slotFault)).clearIf (h.slots[n].state == .recovering) (.slot n .linkLost) = k at hcleared hands ⊢
  have hlimit : P (owedFrom n h.slots[n].state) (k.modSlot n fun r => { r with limit := some (k.dueIn 2000) }) :=
    hP.still hcleared (.modSlot ⟨.inl rfl, rfl, .inl rfl, .inl rfl, fun _ => rfl⟩)
  have hhanded := ((Hub.clearReported_handsOn (k.modSlot n fun r => { r with limit := some (k.dueIn 2000) }) n).trans
    (Hub.handOn_handsOn _ n h.slots[n].state (h.links[n].state == .locked))).trans
    ((Hub.slotNotice_handsOn _ n h.slots[n].state .faulted reason).trans (Hub.announceGrants_handsOn _ served.2))
  have hkept := hP.announceGrants served.2 (hP.slotNotice n h.slots[n].state .faulted reason
    (hP.handOn n _ (h.links[n].state == .locked) (hP.clearReported n hlimit)))
  split
  · exact hkept
  · refine hP.enterOff _ ?_ hkept
    rw [hhanded.slots, Hub.modSlot_self]
    show k.slots[n].state ≠ .empty
    rw [hands.slots, hslot]
    exact SlotState.noConfusion

theorem Hub.Closed.seat (joins : Bool) (hwait : n ∉ h.manager.waitList ∨ h.slots[n].state ≠ .seated)
    (hs : h.slots[n].state ≠ .forwarding)
    (hleaves : h.slots[n].state ≠ .empty ∨ h.config.loading = false ∧ h.slots[n].presenceTimer = none) (ho : P .nothing h) :
    P .nothing (h.seat n joins) := by
  unfold Hub.seat
  simp only
  have henter : P .nothing (h.enter n .seated fun r => { r.unpower false with identity := none }) :=
    hP.enter .seated _ (.inr ⟨hs, by decide⟩) hwait (fun _ => ⟨rfl, rfl, rfl, rfl⟩) (hleaves.imp_right .inr) ho
  split
  · exact hP.join n (Hub.enter_state h n .seated _ fun _ => rfl) henter
  · exact henter

omit hP in
theorem Hub.seat_config (h : Hub) (n : Slot) (joins : Bool) : (h.seat n joins).config = h.config := by
  unfold Hub.seat Hub.join
  simp only
  split
  · split <;> rfl
  · rfl

theorem Hub.Closed.enterSeated (joins : Bool) (reason : SlotReason) (hwait : n ∉ h.manager.waitList ∨ h.slots[n].state ≠ .seated)
    (hs : h.slots[n].state ≠ .forwarding)
    (hleaves : h.slots[n].state ≠ .empty ∨ h.config.loading = false ∧ h.slots[n].presenceTimer = none) (ho : P .nothing h) :
    P .nothing (h.enterSeated n joins reason) := by
  unfold Hub.enterSeated
  simp only
  have hstirs : Hub.Stirs P (h.seat n joins) := by
    unfold Hub.Stirs
    rw [Hub.seat_config]
    exact hleaves.elim (fun hne => .inr ⟨.nothing, h, n, ho, hne, rfl⟩) fun hover => .inl hover.1
  exact hP.announceGrants _ (hP.notice _ _ (hP.clearIf _ _ (hP.serve hstirs (hP.seat joins hwait hs hleaves ho))))

/-- A slot that joins the wait list where it is SEATED. -/
theorem Hub.Closed.joinServed (hs : h.slots[n].state = .seated) (ho : P .nothing h) :
    P .nothing ((h.join n).serve.1.announceGrants (h.join n).serve.2) :=
  hP.announceGrants _ (hP.serve (.inr ⟨.nothing, h, n, ho, by rw [hs]; decide, by rw [Hub.join_frame]⟩) (hP.join n hs ho))

omit hP in
/-- A change between the states that no promise tells apart. -/
theorem Hub.Still.enter (state : SlotState) (f : SlotRec → SlotRec)
    (hf : ∀ r, (f r).state = r.state ∧ (f r).waitStart = r.waitStart ∧ (f r).presenceTimer = r.presenceTimer ∧ (f r).latchTimer = r.latchTimer)
    (hold : h.slots[n].state.plain = true) (hnew : state.plain = true) : Hub.Still h (h.enter n state f) := by
  unfold Hub.enter
  obtain ⟨hstate, hstart, hpresence, hlatch⟩ := hf { h.slots[n] with state, entry := h.stamp, limit := none, attempt := 0, autoAdmit := false }
  refine .modSlot ⟨.inr ⟨hold, ?_⟩, hstart, .inl hpresence, .inl hlatch, fun hs => ?_⟩
  · rw [hstate]
    exact hnew
  · rw [hs] at hold
    cases hold

theorem Hub.Closed.enterResetHold (hs : h.slots[n].state = .powering) (ho : P o h) : P o (h.enterResetHold n) := by
  unfold Hub.enterResetHold
  simp only
  exact hP.slotNotice _ _ _ _ (hP.still ho (.enter _ _ (fun _ => ⟨rfl, rfl, rfl, rfl⟩) (by rw [hs]; rfl) rfl))

theorem Hub.Closed.enterLinking (hs : h.slots[n].state = .resetHold) (ho : P o h) : P o (h.enterLinking n) := by
  unfold Hub.enterLinking
  simp only
  have henter : P o (h.enter n .linking fun r => { r with cardRst := false, limit := some (h.dueIn 1000) }) :=
    hP.still ho (.enter _ _ (fun _ => ⟨rfl, rfl, rfl, rfl⟩) (by rw [hs]; rfl) rfl)
  exact hP.slotNotice _ _ _ _ (hP.still henter (.enableLink _ _))

theorem Hub.Closed.identifyAttempt (ho : P o h) : P o (h.identifyAttempt n) := by
  unfold Hub.identifyAttempt
  simp only
  exact hP.place _ _ _ (identifyFrame_length _ _ _) (hP.still ho (.modSlot ⟨.inl rfl, rfl, .inl rfl, .inl rfl, fun _ => rfl⟩))

theorem Hub.Closed.enterIdentifying (hs : h.slots[n].state = .linking) (ho : P o h) : P o (h.enterIdentifying n) := by
  unfold Hub.enterIdentifying
  exact hP.slotNotice _ _ _ _ (hP.identifyAttempt (hP.still ho (.enter _ _ (fun _ => ⟨rfl, rfl, rfl, rfl⟩) (by rw [hs]; rfl) rfl)))

/-- A change between states of service owes the judgment of the slot. -/
theorem Hub.Closed.enterServed (state : SlotState) (f : SlotRec → SlotRec) (howed : o = .slot n ∨ h.slots[n].state ≠ .forwarding ∧ state ≠ .forwarding)
    (hs : h.slots[n].state.released = true)
    (hf : ∀ r, (f r).state = r.state ∧ (f r).waitStart = r.waitStart ∧ (f r).presenceTimer = r.presenceTimer ∧ (f r).latchTimer = r.latchTimer)
    (ho : P o h) : P o (h.enter n state f) := by
  refine hP.enter state f howed (.inr fun he => ?_) hf (.inl fun he => ?_) ho
  · rw [he] at hs
    cases hs
  · rw [he] at hs
    cases hs

theorem Hub.Closed.enterForwarding (reason : SlotReason) (hs : h.slots[n].state.released = true) (ho : P .nothing h) :
    P .nothing (h.enterForwarding n reason) := by
  unfold Hub.enterForwarding
  simp only
  exact hP.slotNotice _ _ _ _ (hP.close n (hP.clearIf _ _ (hP.schedule n (hP.enterServed .forwarding _ (.inl rfl) hs
    (fun _ => ⟨rfl, rfl, rfl, rfl⟩) (hP.slot n ho)))))

theorem Hub.Closed.enterAwaiting (autoAdmit mismatch : Bool) (hs : h.slots[n].state = .identifying) (ho : P .nothing h) :
    P .nothing (h.enterAwaiting n autoAdmit mismatch) := by
  unfold Hub.enterAwaiting
  simp only
  have hplain : (h.clearIdentify n).slots[n].state.plain = true := by
    rw [Hub.clearIdentify_slots, hs]
    rfl
  have henter : P .nothing ((h.clearIdentify n).enter n .awaitingAdmit fun r => { r with autoAdmit }) :=
    hP.still (hP.still ho (.clearIdentify h n)) (.enter _ _ (fun _ => ⟨rfl, rfl, rfl, rfl⟩) hplain rfl)
  have hstate : ((h.clearIdentify n).enter n .awaitingAdmit fun r => { r with autoAdmit }).slots[n].state = .awaitingAdmit :=
    Hub.enter_state _ n _ _ fun _ => rfl
  generalize (h.clearIdentify n).enter n .awaitingAdmit _ = k at henter hstate ⊢
  have hnotice := hP.slotNotice n .identifying .awaitingAdmit .identified (hP.raiseIf mismatch (.slot n .cardMismatch) henter)
  split
  · refine hP.enterForwarding _ ?_ hnotice
    show (k.raiseIf mismatch (.slot n .cardMismatch)).slots[n].state.released = true
    rw [(Hub.raiseIf_quiet _ _ _).slot, hstate]
    rfl
  · exact hnotice

theorem Hub.Closed.enterRecovering (reason : SlotReason) (hs : h.slots[n].state = .forwarding) (ho : P .nothing h) :
    P .nothing (h.enterRecovering n reason) := by
  unfold Hub.enterRecovering
  simp only
  exact hP.slotNotice _ _ _ _ (hP.leaveForwarding n (hP.raise _ (hP.enterServed .recovering _ (.inl rfl) (by rw [hs]; rfl)
    (fun _ => ⟨rfl, rfl, rfl, rfl⟩) (hP.slot n ho))))

theorem Hub.Closed.enterDraining (reason : SlotReason) (hs : h.slots[n].state.released = true) (ho : P .nothing h) :
    P .nothing (h.enterDraining n reason) := by
  unfold Hub.enterDraining
  simp only
  exact hP.slotNotice _ _ _ _ (hP.handOn n _ _ (hP.clearIf _ _ (hP.schedule n (hP.place _ _ _ (Nat.zero_le _) (hP.enterServed .draining _
    (owedFrom_replaces n (by decide)) hs (fun _ => ⟨rfl, rfl, rfl, rfl⟩) (hP.owed _ ho))))))

theorem Hub.Closed.enterFenced (reason : SlotReason) (hs : h.slots[n].state.released = true) (ho : P .nothing h) :
    P .nothing (h.enterFenced n reason) := by
  unfold Hub.enterFenced
  simp only
  have hpurged : (h.purge n).slots[n] = h.slots[n] := congrArg (·[n]) (Hub.purge_slots h n)
  refine hP.slotNotice _ _ _ _ (hP.handOn n _ _ (hP.clearIf _ _ (hP.enterServed .fenced _ ?_ ?_ (fun _ => ⟨rfl, rfl, rfl, rfl⟩)
    (hP.still (hP.owed _ ho) (.purge h n)))))
  · rw [hpurged]
    exact owedFrom_replaces n (by decide)
  · rw [hpurged]
    exact hs

/-! ## Events that several commands share -/

theorem Hub.Closed.release (reason : SlotReason) (ho : P .nothing h) : P .nothing (h.release n reason) := by
  unfold Hub.release
  split
  iterate 7
    next hs => exact hP.enterOff reason (by rw [hs]; decide) ho
  iterate 3
    next hs => exact hP.enterDraining reason (by rw [hs]; rfl) ho
  all_goals exact ho

theorem Hub.Closed.fence (reason : SlotReason) (ho : P .nothing h) : P .nothing (h.fence n reason) := by
  unfold Hub.fence
  split
  · next hs => exact hP.enterFenced reason (by rw [hs]; rfl) ho
  · next hs => exact hP.enterFenced reason (by rw [hs]; rfl) ho
  · exact ho

theorem Hub.Closed.linkLocked (ho : P .nothing h) : P .nothing (h.linkLocked n) := by
  unfold Hub.linkLocked
  simp only
  split
  · next hs => exact hP.enterIdentifying hs ho
  · next hs => exact hP.enterForwarding _ (by rw [hs]; rfl) ho
  · next hs =>
    split
    · exact hP.enterForwarding _ (by rw [hs]; rfl) ho
    · exact ho
  · exact hP.schedule n ho

theorem Hub.Closed.linkLeft (reason : SlotReason) (ho : P .nothing h) : P .nothing (h.linkLeft n reason) := by
  unfold Hub.linkLeft
  simp only
  refine hP.windowReset n ?_
  split
  · next hs => exact hP.enterRecovering reason hs ho
  · next hs => exact hP.enterFaulted _ reason (by rw [hs]; decide) ho
  · exact ho

/-! ## Inputs and limits -/

omit hP in
theorem Hub.debounce_stays (h : Hub) (raw debounced : Bool) (old : Option Debounce) :
    TimerStays h.config.loading old (h.debounce raw debounced) := by
  unfold Hub.debounce
  split
  · next hruns =>
    rw [Bool.and_eq_true, Bool.not_eq_true'] at hruns
    obtain ⟨-, hloading⟩ := hruns
    exact .inr ⟨rfl, fun hl => by rw [hloading] at hl; cases hl⟩
  · exact .none _ _

theorem Hub.Closed.rawInput (input : RawInput) (ho : P o h) : P o (h.rawInput n input) := by
  unfold Hub.rawInput
  split
  · split
    · exact ho
    · exact hP.still ho (.modSlot ⟨.inl rfl, rfl, h.debounce_stays _ _ _, .inl rfl, fun _ => rfl⟩)
  · split
    · exact ho
    · exact hP.still ho (.modSlot ⟨.inl rfl, rfl, .inl rfl, h.debounce_stays _ _ _, fun _ => rfl⟩)
  · exact hP.still ho (.modSlot ⟨.inl rfl, rfl, .inl rfl, .inl rfl, fun _ => rfl⟩)

/-- A slot found PRESENT: where it is EMPTY it is seated, its debounce over. -/
theorem Hub.Closed.presencePresent (hstart : h.LoadLegal) (ho : P .nothing h) : P .nothing (h.presencePresent n) := by
  unfold Hub.presencePresent
  simp only
  split
  · exact ho
  · next hends =>
    have htimer : P .nothing (h.modSlot n fun r => { r with presence := true, presenceTimer := none }) :=
      hP.still ho (.modSlot ⟨.inl rfl, rfl, .none _ _, .inl rfl, fun _ => rfl⟩)
    split
    · next hs =>
      have hloading : h.config.loading = false := by
        cases hl : h.config.loading with
        | false => rfl
        | true =>
          obtain ⟨hempty, -⟩ := hstart hl
          obtain ⟨-, hnone, -⟩ := hempty n
          unfold SlotRec.presenceEnds at hends
          rw [hnone] at hends
          exact absurd rfl hends
      refine hP.enterSeated false .inserted (.inr ?_) ?_ (.inr ⟨hloading, ?_⟩)
        (hP.still htimer (.modSlot ⟨.inl rfl, rfl, .inl rfl, .inl rfl, fun _ => rfl⟩))
      · rw [Hub.modSlot_self]
        show (h.modSlot n fun r => { r with presence := true, presenceTimer := none }).slots[n].state ≠ .seated
        rw [hs]
        decide
      · rw [Hub.modSlot_self]
        show (h.modSlot n fun r => { r with presence := true, presenceTimer := none }).slots[n].state ≠ .forwarding
        rw [hs]
        decide
      · rw [Hub.modSlot_self, Hub.modSlot_self]
    · exact htimer

theorem Hub.Closed.presenceAbsent (ho : P .nothing h) : P .nothing (h.presenceAbsent n) := by
  unfold Hub.presenceAbsent
  simp only
  split
  · exact ho
  · have htimer : P .nothing (h.modSlot n fun r => { r with presence := false, presenceTimer := none }) :=
      hP.still ho (.modSlot ⟨.inl rfl, rfl, .none _ _, .inl rfl, fun _ => rfl⟩)
    split
    · exact htimer
    · next hs => exact hP.enterEmpty hs htimer

theorem Hub.Closed.latchCloses (ho : P .nothing h) : P .nothing (h.latchCloses n) := by
  unfold Hub.latchCloses
  simp only
  split
  · exact ho
  · have htimer : P .nothing (h.modSlot n fun r => { r with latchClosed := true, latchTimer := none }) :=
      hP.still ho (.modSlot ⟨.inl rfl, rfl, .inl rfl, .none _ _, fun _ => rfl⟩)
    split
    · next hs =>
      split
      · exact hP.joinServed hs htimer
      · exact htimer
    · next hs =>
      split
      · exact hP.enterSeated _ _ (.inr (by rw [hs]; decide)) (by rw [hs]; decide) (.inl (by rw [hs]; decide)) htimer
      · exact htimer
    · exact htimer

theorem Hub.Closed.latchOpens (ho : P .nothing h) : P .nothing (h.latchOpens n) := by
  unfold Hub.latchOpens
  split
  · exact ho
  · exact hP.release _ (hP.still ho (.modSlot ⟨.inl rfl, rfl, .inl rfl, .none _ _, fun _ => rfl⟩))

theorem Hub.Closed.pwrGoodAsserted (ho : P o h) : P o (h.pwrGoodAsserted n) := by
  unfold Hub.pwrGoodAsserted
  simp only
  have hline : P o (h.modSlot n fun r => { r with pwrGood := true }) :=
    hP.still ho (.modSlot ⟨.inl rfl, rfl, .inl rfl, .inl rfl, fun _ => rfl⟩)
  split
  · next hs => exact hP.enterResetHold hs hline
  · exact hline

theorem Hub.Closed.pwrGoodLost (ho : P .nothing h) : P .nothing (h.pwrGoodLost n) := by
  unfold Hub.pwrGoodLost
  simp only
  have hline : P .nothing (h.modSlot n fun r => { r with pwrGood := false }) :=
    hP.still ho (.modSlot ⟨.inl rfl, rfl, .inl rfl, .inl rfl, fun _ => rfl⟩)
  split
  · next hlost =>
    refine hP.enterFaulted _ _ (fun he => ?_) hline
    rw [he] at hlost
    simp [SlotState.readsPowerLoss] at hlost
  · exact hline

omit hP in
/-- The limit of a state expires. -/
theorem Hub.expire_keeps (state : SlotState) (act : Hub → Hub) (hact : h.slots[n].state = state → P o (act h)) (ho : P o h) :
    P o (h.expire n state act) := by
  unfold Hub.expire
  split
  · next hs => exact hact hs.1
  · exact ho

theorem Hub.Closed.identifyTimeout (hs : h.slots[n].state = .identifying) (ho : P .nothing h) : P .nothing (h.identifyTimeout n) := by
  unfold Hub.identifyTimeout
  split
  · exact hP.identifyAttempt ho
  · exact hP.enterFaulted _ _ (by rw [hs]; decide) ho

theorem Hub.Closed.powerWait (ho : P o h) : P o (h.powerWait n) := by
  unfold Hub.powerWait
  split
  · exact hP.raise _ (hP.still ho (.modSlot ⟨.inl rfl, rfl, .inl rfl, .inl rfl, fun _ => rfl⟩))
  · exact ho

theorem Hub.Closed.retry (hs : h.slots[n].state = .faulted) (ho : P .nothing h) : P .nothing (h.retry n) := by
  unfold Hub.retry
  split
  · refine hP.enterSeated _ _ (.inr ?_) ?_ (.inl ?_) (hP.still ho (.modSlot ⟨.inl rfl, rfl, .inl rfl, .inl rfl, fun _ => rfl⟩))
    all_goals
      rw [Hub.modSlot_self]
      show h.slots[n].state ≠ _
      rw [hs]
      decide
  · exact hP.still ho (.modSlot ⟨.inl rfl, rfl, .inl rfl, .inl rfl, fun _ => rfl⟩)

theorem Hub.Closed.takeFence (ho : P .nothing h) : P .nothing (h.takeFence n) := by
  unfold Hub.takeFence
  split
  · exact hP.fence _ (hP.still ho (.outside rfl rfl rfl rfl rfl rfl rfl rfl rfl rfl fun _ hi => hi))
  · exact ho

/-! ## Links -/

theorem Hub.Closed.loseAlignment (ho : P .nothing h) : P .nothing (h.loseAlignment n) := by
  unfold Hub.loseAlignment
  simp only
  exact hP.linkLeft _ (hP.dropPartial n (hP.still (hP.still ho (.abort h n)) (.modLink (.inl rfl))))

theorem Hub.Closed.helloValid (ho : P .nothing h) : P .nothing (h.helloValid n) := by
  unfold Hub.helloValid
  split
  · exact ho
  · split
    · exact hP.still ho (.modLink (.inl rfl))
    · exact hP.linkLocked (hP.still ho (.modLink (.inl rfl)))
  · exact hP.loseAlignment ho

theorem Hub.Closed.helloInvalid (ho : P .nothing h) : P .nothing (h.helloInvalid n) := by
  unfold Hub.helloInvalid
  split
  · exact ho
  · exact hP.still ho (.modLink (.inl rfl))
  · exact hP.loseAlignment ho

theorem Hub.Closed.alignmentLost (ho : P .nothing h) : P .nothing (h.alignmentLost n) := by
  unfold Hub.alignmentLost
  split
  · exact ho
  · exact hP.still ho (.modLink (.inl rfl))
  · exact hP.loseAlignment ho

theorem Hub.Closed.holdEnd (ho : P o h) : P o (h.holdEnd n) := by
  unfold Hub.holdEnd
  split
  · exact ho
  · exact hP.still ho (.modLink (.inl rfl))

theorem Hub.Closed.run (dt : Nat) (ho : P o h) : P o (h.run dt) :=
  hP.still ho (.outside rfl rfl rfl rfl rfl rfl rfl rfl rfl rfl fun _ hi => hi)

theorem Hub.Closed.checkFrame (bytes : List Byte) (arrival : Arrival) (ho : P o h) : P o (h.checkFrame n bytes arrival) := by
  unfold Hub.checkFrame
  split
  · exact hP.countErrored n ho
  · simp only
    split
    · exact hP.count n _ ho
    · exact hP.still ho (.modPort ⟨rfl, rfl, rfl, rfl⟩)

theorem Hub.Closed.receive (bytes : List Byte) (whole : Bool) (ho : P o h) : P o (h.receive n bytes whole) := by
  unfold Hub.receive
  simp only
  split
  · split
    · exact hP.checkFrame _ _ (hP.still ho (.modLink (.inl rfl)))
    · exact hP.still ho (.modLink (.inl rfl))
  · exact ho

/-! ## The switch and the ports -/

theorem Hub.Closed.inboxJoin (e : HandedOn) (ho : P o h) : P o (h.inboxJoin n e) := by
  unfold Hub.inboxJoin
  split
  · exact hP.still ho (.outside rfl rfl rfl rfl rfl rfl rfl rfl rfl rfl fun _ hi => hi)
  · exact hP.raise _ (hP.still ho (.outside rfl rfl rfl rfl rfl rfl rfl rfl rfl rfl fun _ hi => hi))

theorem Hub.Closed.storeFull (n : Slot) (ho : P o h) : P o (h.storeFull n) := by
  unfold Hub.storeFull
  exact hP.raise _ (hP.count n _ ho)

theorem Hub.Closed.pendingJoin (p : PendingFrame) (ho : P o h) : P o (h.pendingJoin n p) := by
  unfold Hub.pendingJoin
  split <;> split
  · exact hP.still ho (.modPort ⟨rfl, rfl, rfl, rfl⟩)
  · exact hP.storeFull n ho
  · exact hP.still ho (.modPort ⟨rfl, rfl, rfl, rfl⟩)
  · exact hP.storeFull n ho

theorem Hub.Closed.classify (e : HandedOn) (ho : P o h) : P o (h.classify n e) := by
  unfold Hub.classify
  simp only
  split
  · exact hP.count n _ ho
  · split
    · exact hP.inboxJoin e ho
    · split
      · exact hP.raise _ (hP.count n _ ho)
      · exact hP.pendingJoin _ ho

theorem Hub.Closed.classifyNext (ho : P o h) : P o (h.classifyNext n) := by
  unfold Hub.classifyNext
  split
  · exact ho
  · exact hP.classify _ (hP.still ho (.modPort ⟨rfl, rfl, rfl, rfl⟩))

theorem Hub.Closed.egressDrop (n : Slot) (ho : P o h) : P o (h.egressDrop n) := by
  unfold Hub.egressDrop
  exact hP.raise _ (hP.count n _ ho)

theorem Hub.Closed.serveFrame (source : Slot) (p : PendingFrame) (ho : P o h) : P o (h.serveFrame source p) := by
  unfold Hub.serveFrame
  simp only
  split
  · split <;> exact hP.count _ _ ho
  · next hreachable =>
    generalize (List.filter (fun n => !h.hasRoom p.frame.blocks n) _) = lacking
    have hdropped := foldl_keeps (P := P o) (f := Hub.egressDrop) (fun _ n hg => hP.egressDrop n hg) lacking ho
    have hadded := Hub.AgentAdded.egressDrops h lacking
    have hquiet := foldl_keeps (P := fun g : Hub => g.slots = h.slots ∧ g.tables = h.tables) (f := Hub.egressDrop)
      (fun g n hg => ⟨(Hub.raise_quiet _ _).slots.trans hg.1, (Hub.raise_quiet _ _).tables.trans hg.2⟩) lacking ⟨rfl, rfl⟩
    generalize lacking.foldl Hub.egressDrop h = g at hdropped hadded hquiet ⊢
    obtain ⟨hslots, htables⟩ := hquiet
    split
    · exact hdropped
    · next hmembers =>
      split
      · next hpasses =>
        obtain ⟨m, hm⟩ := List.exists_mem_of_ne_nil _ fun he => hreachable (List.isEmpty_iff.mpr he)
        refine hP.still hdropped (.takeIn (((allSlots_nodup.filter _).filter _).filter _) ⟨m, ?_⟩ (fun he => hmembers (List.isEmpty_iff.mpr he))
          (fun hs m hm => ?_) hpasses)
        · rw [hslots]
          exact (List.mem_filter.mp hm).2
        · rw [hadded.occupancy hs, htables]
          exact of_decide_eq_true (List.mem_filter.mp hm).2
      · exact hP.storeFull source hdropped

theorem Hub.Closed.arbitrate (ho : P o h) : P o h.arbitrate := by
  unfold Hub.arbitrate
  split
  · split
    · exact ho
    · exact hP.serveFrame _ _ (hP.still ho (.rotated ⟨rfl, rfl, rfl, rfl⟩ ⟨rfl, rfl, rfl, rfl⟩))
  · split
    · split
      · exact ho
      · exact hP.serveFrame _ _ (hP.still ho (.rotated ⟨rfl, rfl, rfl, rfl⟩ ⟨rfl, rfl, rfl, rfl⟩))
    · exact ho

omit hP in
theorem TimingRec.sent_stays (r : TimingRec) (f : Frame) (sentAt : Option HubTime) : TimingRec.Stays r (r.sent f sentAt) := by
  unfold TimingRec.sent
  split
  · split <;> exact ⟨rfl, rfl, rfl, rfl⟩
  · exact .refl _

theorem Hub.Closed.complete (ho : P .nothing h) : P .nothing (h.complete n) := by
  unfold Hub.complete
  split
  · exact ho
  · next t htx =>
    simp only
    have hleft : P .nothing (Hub.modPort { h.modLink n fun l => { l with tx := none } with store := h.store.deref t.id } n fun p =>
        { p.leave t.place with
          controlRun := (p.leave t.place).runAfter t.place
          counters := { p.counters with framesSent := p.counters.framesSent + 1 } }) :=
      hP.still ho (.completed htx ⟨rfl, rfl, rfl, rfl⟩)
    have key : ∀ k : Hub, P .nothing k → P .nothing (if k.drainDone n then k.enterOff n .drainDone else k.schedule n) := by
      intro k hk
      split
      · next hdone =>
        refine hP.enterOff _ (fun he => ?_) hk
        unfold Hub.drainDone at hdone
        rw [he] at hdone
        cases hdone
      · exact hP.schedule n hk
    apply key
    split
    · split
      · exact hP.still hleft (.modTrec (TimingRec.sent_stays _ _ _))
      · exact hleft
    · exact hleft

/-! ## The clock and EXTREF -/

theorem Hub.Closed.clock (c : Clock) (ho : P o h) : P o { h with clock := c } :=
  hP.still ho (.outside rfl rfl rfl rfl rfl rfl rfl rfl rfl rfl fun _ hi => hi)

theorem Hub.Closed.frameBoundary (ho : P o h) : P o h.frameBoundary := by
  unfold Hub.frameBoundary
  simp only
  split
  · exact hP.still (hP.clock _ ho) (.countFrame _ _)
  · exact ho

theorem Hub.Closed.takeAnnounce (ho : P .nothing h) : P .nothing h.takeAnnounce := by
  unfold Hub.takeAnnounce
  split
  · exact ho
  · exact hP.announce _ (hP.still ho (.outside rfl rfl rfl rfl rfl rfl rfl rfl rfl rfl fun _ hi => hi))

theorem Hub.Closed.announceBoundary (ho : P .nothing h) : P .nothing h.announceBoundary := by
  unfold Hub.announceBoundary
  split
  · exact hP.takeAnnounce (hP.frameBoundary ho)
  · exact hP.takeAnnounce ho

theorem Hub.Closed.towardsSecond (depth : Nat) (ho : P .nothing h) : P .nothing (Hub.towardsSecond depth h) := by
  induction depth generalizing h with
  | zero => exact ho
  | succ depth ih =>
    rw [Hub.towardsSecond]
    split
    · exact ih (hP.takeAnnounce ho)
    · split
      · exact ho
      · exact ih (hP.frameBoundary ho)

theorem Hub.Closed.takeSecond (ho : P .nothing h) : P .nothing h.takeSecond := by
  unfold Hub.takeSecond
  simp only
  have hreached : P .nothing (if (h.clock.first .second).isSome then h else h.towardsSecond h.clock.eventsInSecond) := by
    split
    · exact ho
    · exact hP.towardsSecond _ ho
  generalize (if (h.clock.first .second).isSome then h else h.towardsSecond h.clock.eventsInSecond) = k at hreached ⊢
  exact hP.secondJudgment (hP.still hreached (.outside rfl rfl rfl rfl rfl rfl rfl rfl rfl rfl fun _ hi => hi))

theorem Hub.Closed.linkErrorsClear (ho : P o h) : P o (h.linkErrorsClear n) := by
  unfold Hub.linkErrorsClear
  simp only
  split
  · exact hP.judgeErrored n ho
  · exact ho

theorem Hub.Closed.holdoverReached (ho : P o h) : P o h.holdoverReached := by
  unfold Hub.holdoverReached
  split
  · refine hP.setTiming _ _ _ ⟨by rw [Timing.holdoverLimit_cands], fun _ hnone => ⟨?_, fun hs => ?_⟩⟩ ho
    · rw [Timing.holdoverLimit_selection]
      exact hnone
    · rw [Timing.holdoverLimit_freeRun _ hs]
      exact hs
  · exact ho

theorem Hub.Closed.takePulse (ho : P o h) : P o h.takePulse :=
  hP.still ho ⟨fun _ => .refl _ _, rfl, rfl, rfl, rfl, fun _ => .refl _, rfl, rfl, rfl, fun _ hi => hi, fun _ hf => hf.outside rfl rfl rfl rfl rfl⟩

theorem Hub.Closed.pulseLost (ho : P o h) : P o h.pulseLost :=
  hP.still ho ⟨fun _ => .refl _ _, rfl, rfl, rfl, rfl, fun _ => .refl _, rfl, rfl, rfl, fun _ hi => hi, fun _ hf => hf.outside rfl rfl rfl rfl rfl⟩

/-! ## The agent's inbox -/

theorem Hub.Closed.identified (i : Identity) (hs : h.slots[n].state = .identifying) (ho : P .nothing h) : P .nothing (h.identified n i) := by
  unfold Hub.identified
  simp only
  have hrecorded : P .nothing (h.modSlot n fun r => { r with identity := some i }) := by
    refine hP.still ho (.modSlot ⟨.inl rfl, rfl, .inl rfl, .inl rfl, fun hf => ?_⟩)
    rw [hs] at hf
    cases hf
  have hstate : (h.modSlot n fun r => { r with identity := some i }).slots[n].state = .identifying := by
    rw [Hub.modSlot_self]
    exact hs
  split
  · exact hP.enterFaulted _ _ (by rw [hstate]; decide) hrecorded
  · split
    · exact hP.enterAwaiting _ _ hstate hrecorded
    · exact hP.enterAwaiting _ _ hstate hrecorded

theorem Hub.Closed.quiesce (ho : P .nothing h) : P .nothing (h.quiesce n) := by
  unfold Hub.quiesce
  simp only
  have hflag : P .nothing (h.modSlot n fun r => { r with quiesced := true }) :=
    hP.still ho (.modSlot ⟨.inl rfl, rfl, .inl rfl, .inl rfl, fun _ => rfl⟩)
  split
  · next hdone =>
    refine hP.enterOff _ (fun he => ?_) hflag
    unfold Hub.drainDone at hdone
    rw [he] at hdone
    cases hdone
  · exact hflag

theorem Hub.Closed.probeReply (e : InboxFrame) (ho : P .nothing h) : P .nothing (h.probeReply e) := by
  unfold Hub.probeReply
  split
  · split
    · exact hP.takeSample _ _ _ _ ho
    · exact hP.still ho (.modTrec ⟨rfl, rfl, rfl, rfl⟩)
  · exact hP.still ho (.modTrec ⟨rfl, rfl, rfl, rfl⟩)

theorem Hub.Closed.sourceReport (e : InboxFrame) (refSec : Nat) (traceable : Bool) (ho : P o h) : P o (h.sourceReport e refSec traceable) := by
  unfold Hub.sourceReport
  exact hP.still ho (.modTrec ⟨rfl, rfl, rfl, rfl⟩)

theorem Hub.Closed.cardAlarm (code : BitVec 16) (isRaise : Bool) (sev : Severity) (ho : P o h) : P o (h.cardAlarm n code isRaise sev) := by
  unfold Hub.cardAlarm
  simp only
  split
  · exact hP.raiseReported _ _ ho
  · exact hP.clear _ ho

theorem Hub.Closed.sweepReply (value : List Byte) (ho : P o h) : P o (h.sweepReply n value) := by
  unfold Hub.sweepReply
  exact hP.endSweepIfDone (hP.setSweep _ ho)

/-- The dispatch of a frame. -/
theorem Hub.Closed.dispatch (kind : BitVec 6) (act : InboxFrame → Hub → Hub)
    (hact : ∀ (e : InboxFrame) (g : Hub), e.frame.kind = kind → g.accepts e.frame e.slot = true → P o g → P o (act e g)) (ho : P o h) :
    P o (Hub.dispatch kind act h) := by
  unfold Hub.dispatch
  split
  · exact ho
  · next e rest _ =>
    split
    · exact ho
    · next hk =>
      simp only
      have hpopped : P o (h.popInbox rest) := hP.still ho (.outside rfl rfl rfl rfl rfl rfl rfl rfl rfl rfl fun _ hi => hi)
      split
      · exact hP.still hpopped (.outside rfl rfl rfl rfl rfl rfl rfl rfl rfl rfl fun _ hi => hi)
      · split
        · exact hP.still hpopped (.outside rfl rfl rfl rfl rfl rfl rfl rfl rfl rfl fun _ hi => hi)
        · next hacc => exact hact e _ (by simpa using hk) (by simpa using hacc) hpopped

theorem Hub.Closed.invalidFrame (ho : P o h) : P o h.invalidFrame := by
  unfold Hub.invalidFrame
  split
  · exact ho
  · split
    · exact ho
    · exact hP.still ho (.outside rfl rfl rfl rfl rfl rfl rfl rfl rfl rfl fun _ hi => hi)

end

end Sys2Proof.Machine
end

section
/-! PROOFS. Every command but the loads, the resets and the requests that set a value keeps every promise that is closed (`Hub.Closed`). -/

namespace Sys2Proof.Machine

section

variable {P : Owed → Hub → Prop} (hP : Hub.Closed P) {o : Owed} {h : Hub} {n : Slot} {r : Request} {rest : List Request}

include hP

/-! ## Requests -/

theorem Hub.Closed.answer (r : Request) (status : Status) (body : Body) (ho : P o h) : P o (h.answer r status body) :=
  hP.still ho (.outside rfl rfl rfl rfl rfl rfl rfl rfl rfl rfl fun _ hi => hi)

theorem Hub.Closed.refuse (r : Request) (status : Status) (ho : P o h) : P o (h.refuse r status) :=
  hP.still ho (.outside rfl rfl rfl rfl rfl rfl rfl rfl rfl rfl fun _ hi => hi)

theorem Hub.Closed.popRequest (hi : h.port.inbound = r :: rest) (ho : P o h) : P o (h.popRequest rest) :=
  hP.still ho (.outside rfl rfl rfl rfl rfl rfl rfl rfl rfl rfl fun _ hnil => by rw [hi] at hnil; cases hnil)

/-- A request taken: nothing happens, or it is answered, or its owner acts. -/
theorem Hub.Closed.take (code : Byte) (act : Request → Hub → Hub)
    (hact : ∀ r rest, h.port.inbound = r :: rest → P o (h.popRequest rest) → P o (act r (h.popRequest rest))) (ho : P o h) :
    P o (Hub.take code act h) := by
  unfold Hub.take
  split
  · exact ho
  · next r rest hi =>
    split
    · exact ho
    · split
      · exact hact r rest hi (hP.popRequest hi ho)
      · exact hP.answer _ _ _ (hP.popRequest hi ho)

theorem Hub.Closed.takeSlot (code : Byte) (act : Request → Slot → Hub → Hub)
    (hact : ∀ r rest n, h.port.inbound = r :: rest → P o (h.popRequest rest) → P o (act r n (h.popRequest rest))) (ho : P o h) :
    P o (Hub.take code (fun r => Hub.withSlot r (act r)) h) := by
  refine hP.take code _ (fun r rest hi hpopped => ?_) ho
  unfold Hub.withSlot
  split
  · exact hP.refuse _ _ hpopped
  · exact hact r rest _ hi hpopped

theorem Hub.Closed.unknownRequest (ho : P o h) : P o h.unknownRequest := by
  unfold Hub.unknownRequest
  split
  · exact ho
  · next r rest hi =>
    split
    · exact ho
    · exact hP.answer _ _ _ (hP.popRequest hi ho)

theorem Hub.Closed.hubReset (ho : P o h) : P o (Hub.hubReset r h) := by
  unfold Hub.hubReset
  split
  · exact hP.answer _ _ _ ho
  · exact hP.still ho (.outside rfl rfl rfl rfl rfl rfl rfl rfl rfl rfl fun _ hi => hi)

theorem Hub.Closed.querySlot (n : Slot) (ho : P o h) : P o (h.querySlot n) := by
  unfold Hub.querySlot
  split
  · exact hP.setSweep _ ho
  · exact hP.setSweep _ (hP.place _ _ _ (by simp [Sweep.query, agentFrame]) ho)

theorem Hub.Closed.startSweep (tag : Byte) (item : SweepItem) (mask : SlotMask) (timeout : Nat) (ho : P o h) :
    P o (h.startSweep tag item mask timeout) := by
  unfold Hub.startSweep
  exact hP.endSweepIfDone (foldl_keeps (P := P o) (f := Hub.querySlot) (fun _ n hg => hP.querySlot n hg) _ (hP.setSweep _ ho))

theorem Hub.Closed.sweepRequest (ho : P o h) : P o (Hub.sweepRequest r h) := by
  unfold Hub.sweepRequest
  split
  · split
    · exact hP.refuse _ _ ho
    · split
      · exact hP.refuse _ _ ho
      · exact hP.startSweep _ _ _ _ ho
  · exact hP.refuse _ _ ho

theorem Hub.Closed.failSweep (reason : SweepFailure) (ho : P o h) : P o (h.failSweep reason) := by
  unfold Hub.failSweep Hub.endSweep
  exact hP.still ho (.outside rfl rfl rfl rfl rfl rfl rfl rfl rfl rfl fun _ hi => hi)

theorem Hub.Closed.sweepAbort (ho : P o h) : P o (Hub.sweepAbort r h) := by
  unfold Hub.sweepAbort
  split
  · exact hP.answer _ _ _ (hP.failSweep _ ho)
  · exact hP.answer _ _ _ ho

theorem Hub.Closed.configSave (ho : P o h) : P o (Hub.configSave r h) := by
  unfold Hub.configSave
  split
  · exact hP.refuse _ _ ho
  · exact hP.still ho (.outside rfl rfl rfl rfl rfl rfl rfl rfl rfl rfl fun _ hi => hi)

theorem Hub.Closed.power (ho : P .nothing h) : P .nothing (h.power n).1 := by
  unfold Hub.power
  split
  · next hs _ =>
    split
    · exact ho
    · exact hP.joinServed hs ho
  · next hs _ => exact hP.enterSeated _ _ (.inr (by rw [hs]; decide)) (by rw [hs]; decide) (.inl (by rw [hs]; decide)) ho
  · exact ho

theorem Hub.Closed.slotAdmit (ho : P .nothing h) : P .nothing (Hub.slotAdmit r n h) := by
  unfold Hub.slotAdmit
  split
  · next hs => exact hP.answer _ _ _ (hP.enterForwarding _ (by rw [hs.1]; rfl) ho)
  · exact hP.answer _ _ _ ho

theorem Hub.Closed.slotRestore (ho : P .nothing h) : P .nothing (Hub.slotRestore r n h) := by
  unfold Hub.slotRestore Hub.answerLink
  split
  · next hs => exact hP.answer _ _ _ (hP.enterForwarding _ (by rw [hs.1]; rfl) ho)
  · exact hP.answer _ _ _ ho

theorem Hub.Closed.slotRestart (ho : P .nothing h) : P .nothing (Hub.slotRestart r n h) := by
  unfold Hub.slotRestart
  split
  · next hs =>
    have hstate : (h.modSlot n fun r => { r with retries := 0 }).slots[n].state = .faulted := by
      rw [Hub.modSlot_self]
      exact hs
    exact hP.answer _ _ _ (hP.enterSeated _ _ (.inr (by rw [hstate]; decide)) (by rw [hstate]; decide) (.inl (by rw [hstate]; decide))
      (hP.still ho (.modSlot ⟨.inl rfl, rfl, .inl rfl, .inl rfl, fun _ => rfl⟩)))
  · exact hP.answer _ _ _ ho

theorem Hub.Closed.slotLinkReset (ho : P .nothing h) : P .nothing (Hub.slotLinkReset r n h) := by
  unfold Hub.slotLinkReset Hub.answerLink
  split
  · simp only
    split
    · exact hP.answer _ _ _ (hP.linkLeft _ (hP.resetLink n ho))
    · exact hP.answer _ _ _ (hP.resetLink n ho)
  · exact hP.answer _ _ _ ho

theorem Hub.Closed.windowGet (ho : P o h) : P o (Hub.windowGet r h) := by
  unfold Hub.windowGet
  split
  · exact hP.answer _ _ _ ho
  · exact hP.refuse _ _ ho

theorem Hub.Closed.groupGet (ho : P o h) : P o (Hub.groupGet r h) := by
  unfold Hub.groupGet
  split
  · exact hP.answer _ _ _ ho
  · exact hP.refuse _ _ ho

theorem Hub.Closed.portCounts (ho : P o h) : P o (Hub.portCounts r n h) := by
  unfold Hub.portCounts
  split
  · exact hP.refuse _ _ ho
  · simp only
    split
    · exact hP.answer _ _ _ (hP.count _ _ ho)
    · exact hP.answer _ _ _ ho

theorem Hub.Closed.timeSet (ho : P o h) : P o (Hub.timeSet r h) := by
  unfold Hub.timeSet
  split
  · exact hP.still ho ⟨fun _ => .refl _ _, rfl, rfl, rfl, rfl, fun _ => .refl _, rfl, rfl, rfl, fun _ hi => hi, fun _ hf => hf.outside rfl rfl rfl rfl rfl⟩
  · exact hP.refuse _ _ ho

theorem Hub.Closed.alarmList (ho : P o h) : P o (Hub.alarmList r h) := by
  unfold Hub.alarmList
  split
  · exact hP.answer _ _ _ ho
  · exact hP.refuse _ _ ho

theorem Hub.Closed.alarmAck (ho : P .nothing h) : P .nothing (Hub.alarmAck r h) := by
  unfold Hub.alarmAck
  split
  · exact hP.refuse _ _ ho
  · exact hP.answer _ _ _ (hP.acked _ ho)

theorem Hub.Closed.alarmPurge (ho : P .nothing h) : P .nothing (Hub.alarmPurge r h) := by
  unfold Hub.alarmPurge
  exact hP.answer _ _ _ (hP.purged ho)

/-! ## Start-up, saves and transfers -/

omit hP in
theorem SlotRec.startUp_stays (loading : Bool) (r : SlotRec) : SlotRec.Stays loading r r.startUp := by
  unfold SlotRec.startUp
  refine ⟨.inl rfl, rfl, ?_, ?_, fun _ => rfl⟩
  · dsimp only
    split
    · exact .none _ _
    · exact .refl _ _
  · dsimp only
    split
    · exact .none _ _
    · exact .refl _ _

omit hP in
/-- Seating one slot leaves the record of every other. -/
theorem Hub.seat_other (h : Hub) (n : Slot) (joins : Bool) {m : Slot} (hm : n ≠ m) : (h.seat n joins).slots[m] = h.slots[m] := by
  have henter : (h.enter n .seated fun r => { r.unpower false with identity := none }).slots[m] = h.slots[m] := by
    unfold Hub.enter
    rw [Hub.modSlot_other _ _ _ _ hm]
  unfold Hub.seat Hub.join
  simp only
  split
  · split
    · exact henter
    · rw [Hub.modSlot_other _ _ _ _ hm]
      exact henter
  · exact henter

/-- The slots found at the start-up event, one after another. -/
theorem Hub.Closed.seatFound (l : List Slot) (hnd : l.Nodup) (hloading : l ≠ [] → h.config.loading = false)
    (hempty : ∀ n ∈ l, h.slots[n].state = .empty ∧ h.slots[n].presenceTimer = none) (ho : P .nothing h) :
    P .nothing (l.foldl (fun h n => (h.modSlot n fun r => { r with powerClass := some (classOfPins r.pcode) }).seat n false) h) := by
  induction l generalizing h with
  | nil => exact ho
  | cons n l ih =>
    obtain ⟨hn, hnd⟩ := List.nodup_cons.mp hnd
    obtain ⟨hs, htimer⟩ := hempty n List.mem_cons_self
    have hclass : P .nothing (h.modSlot n fun r => { r with powerClass := some (classOfPins r.pcode) }) :=
      hP.still ho (.modSlot ⟨.inl rfl, rfl, .inl rfl, .inl rfl, fun _ => rfl⟩)
    have hself : (h.modSlot n fun r => { r with powerClass := some (classOfPins r.pcode) }).slots[n].state = .empty ∧
        (h.modSlot n fun r => { r with powerClass := some (classOfPins r.pcode) }).slots[n].presenceTimer = none := by
      rw [Hub.modSlot_self]
      exact ⟨hs, htimer⟩
    have hother : ∀ m ∈ l, (h.modSlot n fun r => { r with powerClass := some (classOfPins r.pcode) }).slots[m] = h.slots[m] := fun m hm =>
      Hub.modSlot_other _ _ _ _ fun he => hn (he ▸ hm)
    have hl : (h.modSlot n fun r => { r with powerClass := some (classOfPins r.pcode) }).config.loading = false := hloading (List.cons_ne_nil _ _)
    rw [List.foldl_cons]
    generalize h.modSlot n (fun r => { r with powerClass := some (classOfPins r.pcode) }) = k at hclass hself hother hl ⊢
    obtain ⟨hstate, hover⟩ := hself
    refine ih hnd (fun _ => by rw [Hub.seat_config]; exact hl) (fun m hm => ?_)
      (hP.seat false (.inr (by rw [hstate]; decide)) (by rw [hstate]; decide) (.inr ⟨hl, hover⟩) hclass)
    rw [k.seat_other n false fun he => hn (he ▸ hm), hother m hm]
    exact hempty m (List.mem_cons_of_mem _ hm)

omit hP in
/-- The first expiry of the debounce timers. -/
theorem Hub.startUp_still (h : Hub) : Hub.Still h { h with
    slots := mapEach SlotRec.startUp h.slots, manager := { h.manager with startUpDue := none, startUpAt := some h.clock.now } } :=
  { Hub.Still.refl h with
    slots := fun m => by
      simp only [Fin.getElem_fin, mapEach_get]
      exact SlotRec.startUp_stays _ _
    filed := fun _ hf => hf.outside rfl rfl rfl rfl rfl }

/-- The slots whose card is found at the start-up event. -/
def Hub.foundAtStart (h : Hub) : List Slot := allSlots.filter fun n => h.slots[n].presenceTimer.any (·.startUp) && h.slots[n].rawPresent

/-- The hub at the start-up event, its cards seated, before the wait list is served. -/
def Hub.startSeated (h : Hub) : Hub :=
  h.foundAtStart.foldl (fun (h : Hub) n => (h.modSlot n fun r => { r with powerClass := some (classOfPins r.pcode) }).seat n false)
    { h with slots := mapEach SlotRec.startUp h.slots, manager := { h.manager with startUpDue := none, startUpAt := some h.clock.now } }

omit hP in
theorem Hub.startUp_eq (h : Hub) : h.startUp = (h.foundAtStart.foldl
    (fun (g : Hub) n => g.notice Code.slotChanged (.slotChanged n .empty .seated .inserted none g.slots[n].entry))
    h.startSeated.serve.1).announceGrants h.startSeated.serve.2 := rfl

theorem Hub.Closed.startSeated (hstart : h.StartUpLegal) (ho : P .nothing h) : P .nothing h.startSeated := by
  unfold Hub.startSeated
  have hfound : ∀ n ∈ h.foundAtStart, h.slots[n].presenceTimer.any (·.startUp) = true := fun n hn => by
    obtain ⟨-, hn⟩ := List.mem_filter.mp hn
    rw [Bool.and_eq_true] at hn
    exact hn.1
  have hnd : h.foundAtStart.Nodup := allSlots_nodup.filter _
  generalize h.foundAtStart = found at *
  obtain ⟨hload, hempty⟩ := hstart
  refine hP.seatFound found hnd (fun hne => ?_) (fun n hn => ?_) (hP.still ho h.startUp_still)
  · obtain ⟨n, hn⟩ := List.exists_mem_of_ne_nil _ hne
    by_contra hloading
    obtain ⟨hslots, -⟩ := hload (by simpa using hloading)
    have htimer := hfound n hn
    rw [(hslots n).2.1] at htimer
    cases htimer
  · have htimer := hfound n hn
    simp only [Fin.getElem_fin, mapEach_get]
    refine ⟨hempty n htimer, ?_⟩
    simp only [Fin.getElem_fin] at htimer
    unfold SlotRec.startUp
    dsimp only
    rw [htimer]
    rfl

theorem Hub.Closed.startUp (hserve : ∀ {g : Hub}, P .nothing g → P .nothing g.serve.1) (hstart : h.StartUpLegal) (ho : P .nothing h) :
    P .nothing h.startUp := by
  rw [Hub.startUp_eq]
  exact hP.announceGrants _ (foldl_keeps (P := P .nothing)
    (f := fun (g : Hub) n => g.notice Code.slotChanged (.slotChanged n .empty .seated .inserted none g.slots[n].entry))
    (fun _ n hg => hP.notice _ _ hg) _ (hserve (hP.startSeated hstart ho)))

theorem Hub.Closed.saveDone (save : Save) (result : Option SaveFault × Nat) (ho : P o h) : P o (h.saveDone save result) := by
  unfold Hub.saveDone
  simp only
  have hidle : P o { h with config := { h.config with save := none } } := hP.still ho (.outside rfl rfl rfl rfl rfl rfl rfl rfl rfl rfl fun _ hi => hi)
  have hraised : P o (if result.1.isSome = true then ({ h with config := { h.config with save := none } } : Hub).raise (.hub .configSaveFailed)
      else { h with config := { h.config with save := none } }) := by
    split
    · exact hP.raise _ hidle
    · exact hidle
  split
  · exact hP.still hraised (.outside rfl rfl rfl rfl rfl rfl rfl rfl rfl rfl fun _ hi => hi)
  · exact hraised

theorem Hub.Closed.writeBytes (hprst : Bool) (bytes : List Byte) (ho : P o h) : P o (h.writeBytes hprst bytes) := by
  unfold Hub.writeBytes
  split
  · exact ho
  · split
    · exact ho
    · refine hP.still ho (.outside rfl rfl rfl rfl rfl rfl rfl rfl rfl rfl fun hl hi => ?_)
      show (h.port.write h.config.loading _).inbound = []
      unfold HostPort.write
      rw [hl]
      split <;> exact hi

/-- A read, whatever a reset that it takes leaves. -/
theorem Hub.Closed.readBytes (startedEmpty : Bool) (clocked : Nat)
    (hreset : ∀ (g : Hub) (kind : ResetKind) (strap : Bool), P .nothing (g.afterReset kind strap)) (ho : P .nothing h) :
    P .nothing (h.readBytes startedEmpty clocked) := by
  unfold Hub.readBytes
  split
  · exact hP.still ho (.outside rfl rfl rfl rfl rfl rfl rfl rfl rfl rfl fun _ hi => hi)
  · split
    · exact hP.still ho (.outside rfl rfl rfl rfl rfl rfl rfl rfl rfl rfl fun _ hi => hi)
    · simp only
      split
      · unfold Hub.readWhole
        simp only
        split
        · exact hreset _ _ _
        · exact hP.still ho (.outside rfl rfl rfl rfl rfl rfl rfl rfl rfl rfl fun _ hi => hi)
      · exact hP.still ho (.outside rfl rfl rfl rfl rfl rfl rfl rfl rfl rfl fun _ hi => hi)

theorem Hub.Closed.hostPortReset (ho : P o h) : P o h.hostPortReset :=
  hP.still ho ⟨fun _ => .refl _ _, rfl, rfl, rfl, rfl, fun _ => .refl _, rfl, rfl, rfl, fun _ _ => rfl, fun _ hf => hf.outside rfl rfl rfl rfl rfl⟩

end

/-! ## Every command -/

/-- The commands that neither reset the hub nor load or set a value. -/
def isOrdinary : Instr → Bool
  | .powerOnReset _ _ | .loadComplete _ | .readTransfer _ _ _ _ | .slotPlanSet | .budgetSet | .windowSet | .groupSet | .defaultTargetSet
  | .portLimitSet | .refListSet | .timingSet | .asymmetrySet | .kindSet | .relaySet => false
  | _ => true

section

variable {P : Owed → Hub → Prop} (hP : Hub.Closed P) {h : Hub}

include hP

/-- What an ordinary command keeps, given that the two events that seat a card keep it. -/
theorem Hub.Closed.exec {c : Instr} {s t : State} (hexec : exec c s = .next t) (hc : isOrdinary c = true)
    (hpresent : ∀ n, c = .presencePresent n → P .nothing (s.hub.presencePresent n)) (hstart : c = .startUpEvent → P .nothing s.hub.startUp)
    (ho : P .nothing s.hub) : P .nothing t.hub := by
  have onHub : ∀ (f : Hub → Hub), s.onHub f = .next t → P .nothing (f s.hub) → P .nothing t.hub := by
    intro f hf hkept
    rw [State.onHub_eq] at hf
    cases hf
    exact hkept
  cases c with simp only [Machine.exec] at hexec
  | powerOnReset imageEn written => cases hc
  | loadComplete acknowledged => cases hc
  | readTransfer hprst typeByte startedEmpty clocked => cases hc
  | slotPlanSet => cases hc
  | budgetSet => cases hc
  | windowSet => cases hc
  | groupSet => cases hc
  | defaultTargetSet => cases hc
  | portLimitSet => cases hc
  | refListSet => cases hc
  | timingSet => cases hc
  | asymmetrySet => cases hc
  | kindSet => cases hc
  | relaySet => cases hc
  | hostPortReset => exact onHub _ hexec (hP.hostPortReset ho)
  | startUpEvent =>
    refine onHub _ hexec ?_
    split
    · exact hstart rfl
    · exact ho
  | rawInputChange n input => exact onHub _ hexec (hP.rawInput input ho)
  | presencePresent n => exact onHub _ hexec (hpresent n rfl)
  | presenceAbsent n => exact onHub _ hexec (hP.presenceAbsent ho)
  | latchClosed n => exact onHub _ hexec (hP.latchCloses ho)
  | latchOpen n => exact onHub _ hexec (hP.latchOpens ho)
  | pwrGoodAsserted n => exact onHub _ hexec (hP.pwrGoodAsserted ho)
  | pwrGoodLost n => exact onHub _ hexec (hP.pwrGoodLost ho)
  | poweringTimeout n =>
    exact onHub _ hexec (Hub.expire_keeps _ _ (fun hs => hP.enterFaulted _ _ (by rw [hs]; decide) ho) ho)
  | resetHoldEnd n => exact onHub _ hexec (Hub.expire_keeps _ _ (fun hs => hP.enterLinking hs ho) ho)
  | linkingTimeout n =>
    exact onHub _ hexec (Hub.expire_keeps _ _ (fun hs => hP.enterFaulted _ _ (by rw [hs]; decide) ho) ho)
  | identifyAttemptTimeout n => exact onHub _ hexec (Hub.expire_keeps _ _ (fun hs => hP.identifyTimeout hs ho) ho)
  | powerWait n => exact onHub _ hexec (hP.powerWait ho)
  | recoveryWindowExpiry n =>
    exact onHub _ hexec (Hub.expire_keeps _ _ (fun hs => hP.enterFaulted _ _ (by rw [hs]; decide) ho) ho)
  | drainTimeout n => exact onHub _ hexec (Hub.expire_keeps _ _ (fun hs => hP.enterOffWith true _ (by rw [hs]; decide) ho) ho)
  | retryTimerExpiry n => exact onHub _ hexec (Hub.expire_keeps _ _ (fun hs => hP.retry hs ho) ho)
  | helloValid n => exact onHub _ hexec (hP.helloValid ho)
  | helloInvalid n => exact onHub _ hexec (hP.helloInvalid ho)
  | linkAlignmentLost n => exact onHub _ hexec (hP.alignmentLost ho)
  | linkResetHoldEnd n => exact onHub _ hexec (hP.holdEnd ho)
  | frameReceived n dt bytes whole => exact onHub _ hexec (hP.receive bytes whole (hP.run dt ho))
  | frameClassification n => exact onHub _ hexec (hP.classifyNext ho)
  | arbiterService => exact onHub _ hexec (hP.arbitrate ho)
  | transmissionComplete n dt => exact onHub _ hexec (hP.complete (hP.run dt ho))
  | frameBoundary => exact onHub _ hexec (hP.frameBoundary ho)
  | announceBoundary => exact onHub _ hexec (hP.announceBoundary ho)
  | secondJudgment => exact onHub _ hexec (hP.takeSecond ho)
  | linkErrorsClear n => exact onHub _ hexec (hP.linkErrorsClear ho)
  | holdoverLimitReached => exact onHub _ hexec (hP.holdoverReached ho)
  | extrefPulse dt => exact onHub _ hexec (hP.takePulse (hP.run dt ho))
  | extPulseLost => exact onHub _ hexec (hP.pulseLost ho)
  | identityReply =>
    refine onHub _ hexec (hP.dispatch _ _ (fun e g hk hacc hg => ?_) ho)
    split
    · refine hP.identified _ ?_ hg
      simpa [Hub.accepts, hk] using hacc
    · exact hg
  | quiesced => exact onHub _ hexec (hP.dispatch _ _ (fun _ _ _ _ hg => hP.quiesce hg) ho)
  | probeReply => exact onHub _ hexec (hP.dispatch _ _ (fun e _ _ _ hg => hP.probeReply e hg) ho)
  | phaseReport => exact onHub _ hexec (hP.dispatch _ _ (fun _ _ _ _ hg => hP.phaseReport _ _ hg) ho)
  | sourceReport =>
    refine onHub _ hexec (hP.dispatch _ _ (fun e g _ _ hg => ?_) ho)
    split
    · exact hP.sourceReport e _ _ hg
    · exact hg
  | cardAlarm =>
    refine onHub _ hexec (hP.dispatch _ _ (fun e g _ _ hg => ?_) ho)
    split
    · exact hP.cardAlarm _ _ _ hg
    · exact hg
  | sweepReply =>
    refine onHub _ hexec (hP.dispatch _ _ (fun e g _ _ hg => ?_) ho)
    split
    · exact hP.sweepReply _ hg
    · exact hg
  | invalidAgentFrame => exact onHub _ hexec (hP.invalidFrame ho)
  | fenceSlot n => exact onHub _ hexec (hP.takeFence ho)
  | sweepTimeout =>
    refine onHub _ hexec ?_
    split
    · exact hP.failSweep _ ho
    · exact ho
  | configSaveWriteEnd result =>
    simp only [execConfigSaveWriteEnd] at hexec
    split at hexec
    · cases hexec
      exact ho
    · next save hs =>
      cases hexec
      exact hP.saveDone _ _ ho
  | writeTransfer hprst bytes => exact onHub _ hexec (hP.writeBytes _ _ ho)
  | unknownRequest => exact onHub _ hexec (hP.unknownRequest ho)
  | hubInfo =>
    exact onHub _ hexec (hP.take _ _ (fun _ _ _ hpopped => hP.answer _ _ _ (hP.still hpopped (.outside rfl rfl rfl rfl rfl rfl rfl rfl rfl rfl fun _ hi => hi))) ho)
  | hubStatus => exact onHub _ hexec (hP.take _ _ (fun _ _ _ hpopped => hP.answer _ _ _ hpopped) ho)
  | hubReset => exact onHub _ hexec (hP.take _ _ (fun _ _ _ hpopped => hP.hubReset hpopped) ho)
  | slotQuery => exact onHub _ hexec (hP.takeSlot _ _ (fun _ _ _ _ hpopped => hP.answer _ _ _ hpopped) ho)
  | slotPower => exact onHub _ hexec (hP.takeSlot _ _ (fun _ _ _ _ hpopped => hP.answer _ _ _ (hP.power hpopped)) ho)
  | slotAdmit => exact onHub _ hexec (hP.takeSlot _ _ (fun _ _ _ _ hpopped => hP.slotAdmit hpopped) ho)
  | slotRelease => exact onHub _ hexec (hP.takeSlot _ _ (fun _ _ _ _ hpopped => hP.answer _ _ _ (hP.release _ hpopped)) ho)
  | slotFence => exact onHub _ hexec (hP.takeSlot _ _ (fun _ _ _ _ hpopped => hP.answer _ _ _ (hP.fence _ hpopped)) ho)
  | slotRestore => exact onHub _ hexec (hP.takeSlot _ _ (fun _ _ _ _ hpopped => hP.slotRestore hpopped) ho)
  | slotRestart => exact onHub _ hexec (hP.takeSlot _ _ (fun _ _ _ _ hpopped => hP.slotRestart hpopped) ho)
  | slotLinkReset => exact onHub _ hexec (hP.takeSlot _ _ (fun _ _ _ _ hpopped => hP.slotLinkReset hpopped) ho)
  | windowGet => exact onHub _ hexec (hP.take _ _ (fun _ _ _ hpopped => hP.windowGet hpopped) ho)
  | groupGet => exact onHub _ hexec (hP.take _ _ (fun _ _ _ hpopped => hP.groupGet hpopped) ho)
  | portCounts => exact onHub _ hexec (hP.takeSlot _ _ (fun _ _ _ _ hpopped => hP.portCounts hpopped) ho)
  | timingStatus => exact onHub _ hexec (hP.take _ _ (fun _ _ _ hpopped => hP.answer _ _ _ hpopped) ho)
  | timeSet => exact onHub _ hexec (hP.take _ _ (fun _ _ _ hpopped => hP.timeSet hpopped) ho)
  | slotTimingQuery => exact onHub _ hexec (hP.takeSlot _ _ (fun _ _ _ _ hpopped => hP.answer _ _ _ hpopped) ho)
  | alarmList => exact onHub _ hexec (hP.take _ _ (fun _ _ _ hpopped => hP.alarmList hpopped) ho)
  | alarmAck => exact onHub _ hexec (hP.take _ _ (fun _ _ _ hpopped => hP.alarmAck hpopped) ho)
  | alarmPurge => exact onHub _ hexec (hP.take _ _ (fun _ _ _ hpopped => hP.alarmPurge hpopped) ho)
  | sweep => exact onHub _ hexec (hP.take _ _ (fun _ _ _ hpopped => hP.sweepRequest hpopped) ho)
  | sweepAbort => exact onHub _ hexec (hP.take _ _ (fun _ _ _ hpopped => hP.sweepAbort hpopped) ho)
  | configSave => exact onHub _ hexec (hP.take _ _ (fun _ _ _ hpopped => hP.configSave hpopped) ho)

/-- The same where the hub is still while the load runs, but for the start-up event, which serves the wait list whatever it holds. -/
theorem Hub.Closed.exec_or_startUp {c : Instr} {s t : State} (hexec : Machine.exec c s = .next t) (hc : isOrdinary c = true)
    (hload : s.hub.LoadLegal) (ho : P .nothing s.hub) : P .nothing t.hub ∨ t.hub = s.hub.startUp := by
  by_cases hstart : c = .startUpEvent
  · subst hstart
    simp only [Machine.exec, execStartUpEvent] at hexec
    rw [State.onHub_eq] at hexec
    cases hexec
    by_cases hdue : s.hub.manager.startUpDue.isSome = true
    · exact .inr (if_pos hdue)
    · exact .inl ((congrArg (P .nothing) (if_neg hdue)).mpr ho)
  · exact .inl (hP.exec hexec hc (fun _ _ => hP.presencePresent hload ho) (fun he => absurd he hstart) ho)

end

end Sys2Proof.Machine
end

section
/-! PROOFS. The hub while the load runs, and the slots that wait for the start-up event (R59, R172, R182, R183). -/

namespace Sys2Proof.Machine

/-- The promises of the Slot Manager that the others rest on: the wait list and what the start-up asks. -/
def Hub.Ready (h : Hub) : Prop := h.WaitListLegal ∧ h.StartUpLegal

section

variable {h g : Hub} {n : Slot}

theorem Hub.LoadLegal.congr (hload : h.LoadLegal) (hslots : g.slots = h.slots) (hcands : g.timing.cands = h.timing.cands)
    (hselection : g.timing.selection = h.timing.selection) (hloading : g.config.loading = h.config.loading)
    (hinbound : h.config.loading = true → h.port.inbound = [] → g.port.inbound = []) : g.LoadLegal := by
  unfold Hub.LoadLegal at *
  rw [hslots, hcands, hselection, hloading]
  intro hl
  obtain ⟨hslots, hin, hrest⟩ := hload hl
  exact ⟨hslots, hinbound hl hin, hrest⟩

theorem Hub.LoadLegal.quiet (hload : h.LoadLegal) (q : Hub.Quiet h g) : g.LoadLegal :=
  hload.congr q.slots (by rw [q.timing]) (by rw [q.timing]) (by rw [q.config]) fun _ hi => q.inbound.trans hi

/-- A slot that waits, or is EMPTY, keeps its state. -/
theorem SlotRec.Stays.state_of_not_plain {loading : Bool} {r r' : SlotRec} (hs : SlotRec.Stays loading r r') (hr : r.state.plain = false) :
    r'.state = r.state := hs.state.resolve_right fun hp => by rw [hr] at hp; exact Bool.noConfusion hp.1

theorem Hub.LoadLegal.still (hload : h.LoadLegal) (hs : Hub.Still h g) : g.LoadLegal := by
  intro hl
  rw [hs.loading] at hl
  obtain ⟨hslots, hin, hcands, hselection⟩ := hload hl
  refine ⟨fun n => ?_, hs.inbound hl hin, hs.cands.trans hcands, hs.selection.trans hselection⟩
  obtain ⟨hempty, hpresence, hlatch⟩ := hslots n
  refine ⟨?_, ?_, ?_⟩
  · rw [(hs.slots n).state_of_not_plain (by rw [hempty]; rfl)]
    exact hempty
  · exact (hs.slots n).presence.elim (fun he => he.trans hpresence) fun hnew => hnew.2 hl
  · exact (hs.slots n).latch.elim (fun he => he.trans hlatch) fun hnew => hnew.2 hl

theorem Hub.LoadLegal.replace (f : SlotRec → SlotRec) (hf : h.Replaces n (f h.slots[n])) (hload : h.LoadLegal) : (h.modSlot n f).LoadLegal := by
  intro hl
  obtain ⟨hslots, hrest⟩ := hload hl
  refine ⟨fun m => ?_, hrest⟩
  by_cases hm : n = m
  · subst hm
    obtain ⟨hempty, hpresence, hlatch⟩ := hslots n
    rw [Hub.modSlot_self, hf.presence, hf.latch]
    refine ⟨?_, hpresence, hlatch⟩
    rcases hf.leaves with hne | hnew | ⟨hfalse, -⟩
    · exact absurd hempty hne
    · exact hnew
    · rw [show h.config.loading = true from hl] at hfalse
      cases hfalse
  · rw [Hub.modSlot_other _ _ _ _ hm]
    exact hslots m

/-- Joining the wait list, or leaving it, keeps every state and every timer. -/
theorem Hub.LoadLegal.slots (hload : h.LoadLegal)
    (hslots : ∀ m : Slot, (g.slots[m].state = h.slots[m].state ∨ h.slots[m].state = .seated) ∧
      g.slots[m].presenceTimer = h.slots[m].presenceTimer ∧ g.slots[m].latchTimer = h.slots[m].latchTimer)
    (htiming : g.timing = h.timing) (hconfig : g.config = h.config) (hport : g.port = h.port) : g.LoadLegal := by
  intro hl
  rw [hconfig] at hl
  obtain ⟨hall, hrest⟩ := hload hl
  rw [htiming, hport]
  refine ⟨fun m => ?_, hrest⟩
  obtain ⟨hempty, hpresence, hlatch⟩ := hall m
  refine ⟨((hslots m).1.resolve_right fun hs => ?_).trans hempty, (hslots m).2.1.trans hpresence, (hslots m).2.2.trans hlatch⟩
  rw [hempty] at hs
  cases hs

theorem Hub.LoadLegal.join (hload : h.LoadLegal) : (h.join n).LoadLegal := by
  by_cases hn : n ∈ h.manager.waitList
  · unfold Hub.join
    rw [if_pos hn]
    exact hload
  · obtain ⟨hself, hother, -⟩ := h.join_slot n hn
    refine hload.slots (fun m => ?_) (by rw [Hub.join_frame]) (by rw [Hub.join_frame]) (by rw [Hub.join_frame])
    by_cases hm : m = n
    · subst hm
      rw [hself]
      exact ⟨.inl rfl, rfl, rfl⟩
    · rw [hother m hm]
      exact ⟨.inl rfl, rfl, rfl⟩

theorem Hub.LoadLegal.unjoin (n : Slot) (hload : h.LoadLegal) : (h.unjoin n).LoadLegal := by
  refine hload.slots (fun m => ?_) rfl rfl rfl
  unfold Hub.unjoin
  rw [Hub.modSlot_slots]
  split
  · next hm =>
    subst hm
    exact ⟨.inl rfl, rfl, rfl⟩
  · exact ⟨.inl rfl, rfl, rfl⟩

theorem Hub.LoadLegal.retime (new : Timing) (hnew : h.timing.Follows new) (hload : h.LoadLegal) : Hub.LoadLegal { h with timing := new } := by
  intro hl
  obtain ⟨hslots, hin, hcands, hselection⟩ := hload hl
  have hsources := hnew.sources
  rw [hcands, List.map_nil, List.map_eq_nil_iff] at hsources
  exact ⟨hslots, hin, hsources, (hnew.idle hcands hselection).1⟩

theorem Hub.Ready.congr (hr : h.Ready) (hslots : g.slots = h.slots) (hwait : g.manager.waitList = h.manager.waitList)
    (hcands : g.timing.cands = h.timing.cands) (hselection : g.timing.selection = h.timing.selection)
    (hloading : g.config.loading = h.config.loading) (hinbound : h.config.loading = true → h.port.inbound = [] → g.port.inbound = []) : g.Ready := by
  obtain ⟨hlist, hload, hevent⟩ := hr
  refine ⟨?_, Hub.LoadLegal.congr hload hslots hcands hselection hloading hinbound, ?_⟩
  · unfold Hub.WaitListLegal at *
    rw [hslots, hwait]
    exact hlist
  · rw [hslots]
    exact hevent

theorem Hub.Ready.quiet (hr : h.Ready) (q : Hub.Quiet h g) : g.Ready :=
  hr.congr q.slots q.waitList (by rw [q.timing]) (by rw [q.timing]) (by rw [q.config]) fun _ hi => q.inbound.trans hi

theorem Hub.Ready.still (hr : h.Ready) (hs : Hub.Still h g) : g.Ready := by
  obtain ⟨⟨hnodup, hlist⟩, hload, hevent⟩ := hr
  refine ⟨⟨hs.waitList ▸ hnodup, fun n => ?_⟩, Hub.LoadLegal.still hload hs, fun n htimer => ?_⟩
  · obtain ⟨hseated, hstart⟩ := hlist n
    rw [hs.waitList, (hs.slots n).waitStart]
    refine ⟨fun hn => ?_, hstart⟩
    rw [(hs.slots n).state_of_not_plain (by rw [hseated hn]; rfl)]
    exact hseated hn
  · rcases (hs.slots n).presence with he | ⟨hnew, -⟩
    · rw [he] at htimer
      have hempty := hevent n htimer
      rw [(hs.slots n).state_of_not_plain (by rw [hempty]; rfl)]
      exact hempty
    · rw [hnew] at htimer
      cases htimer

theorem Hub.Ready.replace (f : SlotRec → SlotRec) (hf : h.Replaces n (f h.slots[n])) (hr : h.Ready) : (h.modSlot n f).Ready := by
  obtain ⟨⟨hnodup, hlist⟩, hload, hevent⟩ := hr
  refine ⟨⟨hnodup, fun m => ?_⟩, Hub.LoadLegal.replace f hf hload, fun m htimer => ?_⟩
  · by_cases hm : n = m
    · subst hm
      obtain ⟨hseated, hstart⟩ := hlist n
      rw [Hub.modSlot_self, hf.waitStart]
      exact ⟨fun hn => absurd (hseated hn) (hf.wait.resolve_left fun hnot => hnot hn), hstart⟩
    · rw [Hub.modSlot_other _ _ _ _ hm]
      exact hlist m
  · by_cases hm : n = m
    · subst hm
      rw [Hub.modSlot_self] at htimer ⊢
      rw [hf.presence] at htimer
      rcases hf.leaves with hne | hnew | ⟨-, hnone⟩
      · exact absurd (hevent n htimer) hne
      · exact hnew
      · rw [hnone] at htimer
        cases htimer
    · rw [Hub.modSlot_other _ _ _ _ hm] at htimer ⊢
      exact hevent m htimer

theorem Hub.Ready.slots {g : Hub} (hr : h.Ready) (hlist : g.WaitListLegal)
    (hslots : ∀ m : Slot, (g.slots[m].state = h.slots[m].state ∨ h.slots[m].state = .seated) ∧
      g.slots[m].presenceTimer = h.slots[m].presenceTimer ∧ g.slots[m].latchTimer = h.slots[m].latchTimer)
    (htiming : g.timing = h.timing) (hconfig : g.config = h.config) (hport : g.port = h.port) : g.Ready := by
  obtain ⟨-, hload, hevent⟩ := hr
  refine ⟨hlist, Hub.LoadLegal.slots hload hslots htiming hconfig hport, fun m htimer => ?_⟩
  rw [(hslots m).2.1] at htimer
  refine ((hslots m).1.resolve_right fun hs => ?_).trans (hevent m htimer)
  rw [hevent m htimer] at hs
  cases hs

theorem Hub.Ready.join (hs : h.slots[n].state = .seated) (hr : h.Ready) : (h.join n).Ready := by
  by_cases hn : n ∈ h.manager.waitList
  · unfold Hub.join
    rw [if_pos hn]
    exact hr
  · obtain ⟨hself, hother, -⟩ := h.join_slot n hn
    refine hr.slots (hr.1.join hn hs) (fun m => ?_) (by rw [Hub.join_frame]) (by rw [Hub.join_frame]) (by rw [Hub.join_frame])
    by_cases hm : m = n
    · subst hm
      rw [hself]
      exact ⟨.inl rfl, rfl, rfl⟩
    · rw [hother m hm]
      exact ⟨.inl rfl, rfl, rfl⟩

theorem Hub.Ready.unjoin (n : Slot) (hr : h.Ready) : (h.unjoin n).Ready := by
  refine hr.slots (hr.1.unjoin n) (fun m => ?_) rfl rfl rfl
  unfold Hub.unjoin
  rw [Hub.modSlot_slots]
  split
  · next hm =>
    subst hm
    exact ⟨.inl rfl, rfl, rfl⟩
  · exact ⟨.inl rfl, rfl, rfl⟩

theorem Hub.Ready.serve (hr : h.Ready) : h.serve.1.Ready := by
  refine hr.slots (Hub.kept_waitListLegal.moves (h.serve_moves (strict := false)) hr.1) (fun m => ?_)
    (by rw [Hub.serve_frame]) (by rw [Hub.serve_frame]) (by rw [Hub.serve_frame])
  rcases h.serve_slot m with he | ⟨hm, he⟩
  · rw [he]
    exact ⟨.inl rfl, rfl, rfl⟩
  · rw [he]
    exact ⟨.inr ((hr.1.2 m).1 hm), rfl, rfl⟩

theorem Hub.Ready.retime (new : Timing) (hnew : h.timing.Follows new) (hr : h.Ready) : Hub.Ready { h with timing := new } := by
  obtain ⟨hlist, hload, hevent⟩ := hr
  exact ⟨hlist, Hub.LoadLegal.retime new hnew hload, hevent⟩

theorem Hub.purged_quiet (h : Hub) : Hub.Quiet h ({ h with alarms := h.alarms.purge } : Hub).judgeOutputs :=
  (Hub.withAlarms_quiet h h.alarms.purge).trans (Hub.judgeOutputs_quiet _)

end

theorem Hub.Ready.closed : Hub.Closed fun _ => Hub.Ready where
  permit _ hr := hr
  slot _ hr := hr
  all hr := hr
  still hr hs := hr.still hs
  raiseReported key reported hr := hr.quiet (Hub.raiseReported_quiet _ key reported)
  clear key hr := hr.quiet (Hub.clear_quiet _ key)
  replace _ f _ hf hr := hr.replace f hf
  join _ hs hr := hr.join hs
  unjoin n hr := hr.unjoin n
  serve _ hr := hr.serve
  trec _ _ _ _ hr := hr.congr rfl rfl rfl rfl rfl fun _ hi => hi
  judge cause n hr := hr.quiet (Hub.judgePermit_quiet _ cause n)
  close n hr := hr.quiet ((Hub.judgePermit_quiet _ _ n).trans (Hub.judgeOutputs_quiet _))
  retime new hnew _ hr := hr.retime new hnew
  judgeAll hr := hr.quiet ((Hub.judgePermits_quiet _ _).trans (Hub.judgeOutputs_quiet _))
  acked keys hr := hr.quiet ((Hub.withAlarms_quiet _ _).trans (Hub.changedAll_quiet _ _ keys _))
  purged hr := hr.quiet (Hub.purged_quiet _)

end Sys2Proof.Machine
end

section
/-! PROOFS. The commands that reset the hub and those that load or set a value, and with them every step. -/

namespace Sys2Proof.Machine

/-- The settings change in nothing that a promise reads: the plan and the alarm kinds stand, and a port limit that changes is met. -/
structure Hub.Admits (h : Hub) (tables : Tables) : Prop where
  plan : tables.plan = h.tables.plan
  kinds : tables.kinds = h.tables.kinds
  limits : ∀ n : Slot, tables.ports[n] = h.tables.ports[n] ∨ h.occupancy n ≤ tables.ports[n].limit

/-- A promise that is kept by new settings, and that a reset brings about. -/
structure Hub.Settles (P : Owed → Hub → Prop) : Prop extends Hub.Closed P where
  loads : ∀ {o h}, P o h → h.LoadLegal
  reset : ∀ (h : Hub) (kind : ResetKind) (strap : Bool), P .nothing (h.afterReset kind strap)
  load : ∀ {h} (tables : Tables) (cands : List Candidate) (c : ConfigStore), h.config.loading = true → c.loading = false → P .nothing h →
    P .nothing { h with tables, timing := { h.timing with cands }, config := c }
  debounce : ∀ {h : Hub}, (∀ n : Slot, h.slots[n].state = .empty) → h.config.loading = false → P .nothing h → P .nothing h.beginDebounce
  settled : ∀ {h : Hub} (tables : Tables), h.Admits tables → P .nothing h → P .nothing { h with tables }
  plan : ∀ {h : Hub} (plan : Vector PlanEntry 12), P .nothing h → P .nothing ({ h with tables := { h.tables with plan } } : Hub).judgeOutputs
  kind : ∀ {h : Hub} (kind : AlarmKind) (e : KindEntry), P .nothing h → P .nothing (h.setKind kind e)
  relist : ∀ {o h} (new : Timing), h.config.loading = false → (o = .all ∨ new.state.inSpec = h.timing.state.inSpec) → P o h →
    P o { h with timing := new }

section

variable {P : Owed → Hub → Prop} (hP : Hub.Settles P) {h : Hub} {r : Request} {rest : List Request} {n : Slot}

include hP

/-- No request waits while the load runs. -/
theorem Hub.Settles.not_loading (hi : h.port.inbound = r :: rest) (ho : P .nothing h) : h.config.loading = false := by
  by_contra hl
  obtain ⟨-, hin, -⟩ := hP.loads ho (by simpa using hl)
  rw [hi] at hin
  cases hin

/-! ## Loads -/

theorem Hub.Settles.started (hempty : ∀ n : Slot, h.slots[n].state = .empty) (hl : h.config.loading = false) (ho : P .nothing h) :
    P .nothing h.started := by
  unfold Hub.started
  simp only
  have hnotice := hP.notice Code.started (.started h.config.status h.config.fault h.config.version h.config.strap h.config.lastReset) ho
  have hq := Hub.Quiet.notice h Code.started (.started h.config.status h.config.fault h.config.version h.config.strap h.config.lastReset)
  generalize h.notice Code.started (.started h.config.status h.config.fault h.config.version h.config.strap h.config.lastReset) = k at hnotice hq ⊢
  split
  · refine hP.debounce (fun n => ?_) ?_ (hP.raise _ hnotice)
    · rw [(hq.trans (Hub.raise_quiet k (.hub .configImageInvalid))).slot]
      exact hempty n
    · rw [(hq.trans (Hub.raise_quiet k (.hub .configImageInvalid))).config]
      exact hl
  · refine hP.debounce (fun n => ?_) ?_ hnotice
    · rw [hq.slot]
      exact hempty n
    · rw [hq.config]
      exact hl

theorem Hub.Settles.loadDone (outcome : Option (LoadFault ⊕ Settings)) (hl : h.config.loading = true) (ho : P .nothing h) :
    P .nothing (h.loadDone outcome) := by
  obtain ⟨hslots, -⟩ := hP.loads ho hl
  unfold Hub.loadDone
  match outcome with
  | none => exact hP.started (fun n => (hslots n).1) rfl (hP.load h.tables h.timing.cands (h.config.afterLoad none) hl rfl ho)
  | some (.inl fault) =>
    exact hP.started (fun n => (hslots n).1) rfl (hP.load h.tables h.timing.cands (h.config.afterLoad (some (.inl fault))) hl rfl ho)
  | some (.inr s) =>
    exact hP.started (fun n => (hslots n).1) rfl
      (hP.load (h := h) s.tables (s.sources.map fun source => { source }) (h.config.afterLoad (some (.inr s))) hl rfl ho)

/-! ## Requests that set a value -/

/-- The Timing Unit as a request leaves it. -/
theorem Hub.Settles.setTiming (new : Timing) (mayRaise : Bool) (hl : h.config.loading = false) (ho : P .nothing h) :
    P .nothing (h.setTiming new .hostRequest mayRaise) := by
  unfold Hub.setTiming
  simp only
  have hstate := Hub.timingNotice_timing { h with timing := new } h.timing new .hostRequest
  obtain ⟨hsame, hother⟩ := hP.timingResults (h := ({ h with timing := new } : Hub).timingNotice h.timing new .hostRequest) (o := .nothing)
    h.timing.state mayRaise (fun he => hP.timingNotice _ _ _ (hP.relist new hl (.inr (by rw [he, hstate])) ho))
    (fun _ => hP.timingNotice _ _ _ (hP.relist new hl (.inl rfl) (hP.all ho)))
  by_cases he : h.timing.state.inSpec = (({ h with timing := new } : Hub).timingNotice h.timing new .hostRequest).timing.state.inSpec
  · exact hsame he
  · exact hother he

theorem Hub.Settles.planSet (ho : P .nothing h) : P .nothing (Hub.planSet r n h) := by
  unfold Hub.planSet
  split
  · exact hP.refuse _ _ ho
  · exact hP.answer _ _ _ (hP.plan _ ho)

theorem Hub.Settles.budgetSet (hl : h.config.loading = false) (ho : P .nothing h) : P .nothing (Hub.budgetSet r h) := by
  unfold Hub.budgetSet
  simp only
  split
  · exact hP.answer _ _ _ ho
  · have hbudget := hP.settled { h.tables with
        budget := (parseBudget r.body).clamp.budget, recoveryWindow := (parseBudget r.body).clamp.recoveryWindow,
        drainTimeout := (parseBudget r.body).clamp.drainTimeout } ⟨rfl, rfl, fun _ => .inl rfl⟩ ho
    split
    · exact hP.answer _ _ _ (hP.announceGrants _ (hP.serve (.inl hl) hbudget))
    · exact hP.answer _ _ _ hbudget

theorem Hub.Settles.windowSet (ho : P .nothing h) : P .nothing (Hub.windowSet r h) := by
  unfold Hub.windowSet
  split
  · exact hP.answer _ _ _ (hP.settled _ ⟨rfl, rfl, fun _ => .inl rfl⟩ ho)
  · exact hP.refuse _ _ ho

theorem Hub.Settles.groupSet (ho : P .nothing h) : P .nothing (Hub.groupSet r h) := by
  unfold Hub.groupSet
  split
  · exact hP.answer _ _ _ (hP.settled _ ⟨rfl, rfl, fun _ => .inl rfl⟩ ho)
  · exact hP.refuse _ _ ho

theorem Hub.Settles.defaultTargetSet (ho : P .nothing h) : P .nothing (Hub.defaultTargetSet r h) := by
  unfold Hub.defaultTargetSet
  split
  · exact hP.answer _ _ _ (hP.settled _ ⟨rfl, rfl, fun _ => .inl rfl⟩ ho)
  · exact hP.refuse _ _ ho

theorem Hub.Settles.portLimitSet (ho : P .nothing h) : P .nothing (Hub.portLimitSet r n h) := by
  unfold Hub.portLimitSet
  simp only
  split
  · exact hP.answer _ _ _ ho
  · next hmet =>
    refine hP.answer _ _ _ (hP.settled _ ⟨rfl, rfl, fun m => ?_⟩ ho)
    simp only [Fin.getElem_fin]
    by_cases hm : n = m
    · subst hm
      rw [Vector.getElem_set_self]
      exact .inr (Nat.le_of_not_lt hmet)
    · rw [Vector.getElem_set_ne _ _ fun he => hm (Fin.ext he)]
      exact .inl rfl

theorem Hub.Settles.refListSet (hl : h.config.loading = false) (ho : P .nothing h) : P .nothing (Hub.refListSet r h) := by
  unfold Hub.refListSet
  split
  · exact hP.refuse _ _ ho
  · next revertive sources _ =>
    simp only
    exact hP.answer _ _ _ (hP.setTiming (h := { h with tables := { h.tables with revertive } }) _ _ hl (hP.settled _ ⟨rfl, rfl, fun _ => .inl rfl⟩ ho))

theorem Hub.Settles.timingSet (hl : h.config.loading = false) (ho : P .nothing h) : P .nothing (Hub.timingSet r h) := by
  unfold Hub.timingSet
  simp only
  exact hP.answer _ _ _ (hP.setTiming (h := { h with tables := { h.tables with timing := _ } }) _ _ hl (hP.settled _ ⟨rfl, rfl, fun _ => .inl rfl⟩ ho))

theorem Hub.Settles.asymmetrySet (ho : P .nothing h) : P .nothing (Hub.asymmetrySet r n h) := by
  unfold Hub.asymmetrySet
  split
  · exact hP.refuse _ _ ho
  · exact hP.answer _ _ _ (hP.settled _ ⟨rfl, rfl, fun _ => .inl rfl⟩ ho)

theorem Hub.Settles.kindSet (ho : P .nothing h) : P .nothing (Hub.kindSet r h) := by
  unfold Hub.kindSet
  split
  · exact hP.refuse _ _ ho
  · split
    · exact hP.refuse _ _ ho
    · exact hP.answer _ _ _ (hP.kind _ _ ho)

theorem Hub.Settles.relaySet (ho : P .nothing h) : P .nothing (Hub.relaySet r h) := by
  unfold Hub.relaySet
  split
  · exact hP.refuse _ _ ho
  · exact hP.answer _ _ _ (hP.settled _ ⟨rfl, rfl, fun _ => .inl rfl⟩ ho)

/-! ## Every command and every step -/

theorem Hub.Settles.exec_or_startUp {c : Instr} {s t : State} (hexec : Machine.exec c s = .next t) (ho : P .nothing s.hub) :
    P .nothing t.hub ∨ t.hub = s.hub.startUp := by
  by_cases hc : isOrdinary c = true
  · exact hP.toClosed.exec_or_startUp hexec hc (hP.loads ho) ho
  refine .inl ?_
  have onHub : ∀ (f : Hub → Hub), s.onHub f = .next t → P .nothing (f s.hub) → P .nothing t.hub := by
    intro f hf hkept
    rw [State.onHub_eq] at hf
    cases hf
    exact hkept
  cases c with simp only [Machine.exec] at hexec
  | powerOnReset imageEn written =>
    simp only [execPowerOnReset] at hexec
    cases hexec
    exact hP.reset _ _ _
  | loadComplete acknowledged =>
    refine onHub _ hexec ?_
    split
    · next hl => exact hP.loadDone _ hl ho
    · exact ho
  | readTransfer hprst typeByte startedEmpty clocked =>
    refine onHub _ hexec ?_
    split
    · exact ho
    · exact hP.readBytes _ _ hP.reset ho
  | slotPlanSet => exact onHub _ hexec (hP.takeSlot _ _ (fun _ _ _ _ hpopped => hP.planSet hpopped) ho)
  | budgetSet => exact onHub _ hexec (hP.take _ _ (fun _ _ hi hpopped => hP.budgetSet (h := s.hub.popRequest _) (hP.not_loading (h := s.hub) hi ho) hpopped) ho)
  | windowSet => exact onHub _ hexec (hP.take _ _ (fun _ _ _ hpopped => hP.windowSet hpopped) ho)
  | groupSet => exact onHub _ hexec (hP.take _ _ (fun _ _ _ hpopped => hP.groupSet hpopped) ho)
  | defaultTargetSet => exact onHub _ hexec (hP.take _ _ (fun _ _ _ hpopped => hP.defaultTargetSet hpopped) ho)
  | portLimitSet => exact onHub _ hexec (hP.takeSlot _ _ (fun _ _ _ _ hpopped => hP.portLimitSet hpopped) ho)
  | refListSet => exact onHub _ hexec (hP.take _ _ (fun _ _ hi hpopped => hP.refListSet (h := s.hub.popRequest _) (hP.not_loading (h := s.hub) hi ho) hpopped) ho)
  | timingSet => exact onHub _ hexec (hP.take _ _ (fun _ _ hi hpopped => hP.timingSet (h := s.hub.popRequest _) (hP.not_loading (h := s.hub) hi ho) hpopped) ho)
  | asymmetrySet => exact onHub _ hexec (hP.takeSlot _ _ (fun _ _ _ _ hpopped => hP.asymmetrySet hpopped) ho)
  | kindSet => exact onHub _ hexec (hP.take _ _ (fun _ _ _ hpopped => hP.kindSet hpopped) ho)
  | relaySet => exact onHub _ hexec (hP.take _ _ (fun _ _ _ hpopped => hP.relaySet hpopped) ho)
  | _ => exact absurd rfl hc

/-- A step keeps the promise, but for the start-up event. -/
theorem Hub.Settles.step_or_startUp {s t : State} (hst : Machine.step s = .next t) (ho : P .nothing s.hub) :
    P .nothing t.hub ∨ t.hub = s.hub.startUp := by
  unfold Machine.step at hst
  split at hst
  · next c rest hp => exact hP.exec_or_startUp (s := { s with pending := rest }) hst ho
  · unfold idle at hst
    split at hst
    · exact hP.exec_or_startUp hst ho
    · rw [State.onHub_eq] at hst
      cases hst
      exact .inl (hP.clock _ ho)

/-- A promise that the service of the wait list keeps is kept by every step. -/
theorem Hub.Settles.step {s t : State} (hserve : ∀ {g : Hub}, P .nothing g → P .nothing g.serve.1) (hst : Machine.step s = .next t)
    (hstart : s.hub.StartUpLegal) (ho : P .nothing s.hub) : P .nothing t.hub := by
  rcases hP.step_or_startUp hst ho with hkept | he
  · exact hkept
  · rw [he]
    exact hP.toClosed.startUp hserve hstart ho

end

/-! ## The start-up (R59) -/

theorem Hub.setKind_quiet (h : Hub) (kind : AlarmKind) (e : KindEntry) :
    Hub.Quiet { h with tables := { h.tables with kinds := h.tables.kinds.set kind.idx e } } (h.setKind kind e) :=
  (Hub.withAlarms_quiet _ _).trans (Hub.changedAll_quiet _ _ _ _)

theorem Hub.Ready.afterReset (h : Hub) (kind : ResetKind) (strap : Bool) : (h.afterReset kind strap).Ready := by
  refine ⟨Hub.kept_waitListLegal.reset h kind strap, fun _ => ⟨fun n => ?_, rfl, rfl, rfl⟩, fun n htimer => ?_⟩
  · simp only [Hub.afterReset, Fin.getElem_fin, mapEach_get]
    exact ⟨rfl, rfl, rfl⟩
  · simp only [Hub.afterReset, Fin.getElem_fin, mapEach_get] at htimer
    cases htimer

theorem Hub.Ready.beginDebounce {h : Hub} (hempty : ∀ n : Slot, h.slots[n].state = .empty) (hl : h.config.loading = false) (hr : h.Ready) :
    h.beginDebounce.Ready := by
  obtain ⟨⟨hnodup, hlist⟩, -⟩ := hr
  refine ⟨⟨hnodup, fun n => ?_⟩, fun hloading => ?_, fun n _ => ?_⟩
  · simp only [Hub.beginDebounce, Fin.getElem_fin, mapEach_get]
    exact hlist n
  · rw [show h.config.loading = true from hloading] at hl
    cases hl
  · simp only [Hub.beginDebounce, Fin.getElem_fin, mapEach_get]
    exact hempty n

theorem Hub.Ready.retabled {h : Hub} (tables : Tables) (hr : h.Ready) : Hub.Ready { h with tables } := hr

theorem Hub.Ready.settles : Hub.Settles fun _ => Hub.Ready where
  toClosed := Hub.Ready.closed
  loads hr := hr.2.1
  reset := Hub.Ready.afterReset
  load tables cands c hl hc hr := by
    obtain ⟨hlist, -, hevent⟩ := hr
    refine ⟨hlist, fun hloading => ?_, hevent⟩
    rw [show c.loading = true from hloading] at hc
    cases hc
  debounce hempty hl hr := hr.beginDebounce hempty hl
  settled _ _ hr := hr
  plan _ hr := (Hub.Ready.retabled _ hr).quiet (Hub.judgeOutputs_quiet _)
  kind kind e hr := (Hub.Ready.retabled _ hr).quiet (Hub.setKind_quiet _ kind e)
  relist new hl _ hr := by
    obtain ⟨hlist, -, hevent⟩ := hr
    refine ⟨hlist, fun hloading => ?_, hevent⟩
    rw [show _ = true from hloading] at hl
    cases hl

/-- Settles O17: each change of an event keeps the hub still while the load runs, and a slot is seated only once its debounce is over. -/
theorem startUpStaysLegal : Obligations.StartUpStaysLegal :=
  fun _ _ hst hw hs => (Hub.Ready.settles.step Hub.Ready.serve hst hs ⟨hw, hs⟩).2

end Sys2Proof.Machine
end

section
/-! PROOFS. The cabinet outputs (R151, R152). -/

namespace Sys2Proof.Machine

/-! ## What the outputs are read from -/

theorem Hub.cabOkLevel_congr {h g : Hub} (halarms : g.alarms.all = h.alarms.all) (hplan : g.tables.plan = h.tables.plan)
    (hslots : ∀ n : Slot, (g.slots[n].state = .forwarding ↔ h.slots[n].state = .forwarding))
    (hstate : g.timing.state.inSpec = h.timing.state.inSpec) : g.cabOkLevel = h.cabOkLevel := by
  unfold Hub.cabOkLevel Hub.inSpec
  rw [halarms, hplan, hstate]
  have hforwarding (n : Slot) : (g.slots[n].state == .forwarding) = (h.slots[n].state == .forwarding) := by
    rw [Bool.eq_iff_iff, beq_iff_eq, beq_iff_eq]
    exact hslots n
  simp only [hforwarding]

theorem Hub.lampLevels_congr {h g : Hub} (halarms : g.alarms.all = h.alarms.all) (hcab : g.cabOkLevel = h.cabOkLevel) :
    g.lampLevels = h.lampLevels := by
  unfold Hub.lampLevels
  rw [halarms, hcab]

/-- Hub time out of specification keeps CAB_OK low, whatever the plan. -/
theorem Hub.cabOkLevel_of_freeRun {h : Hub} (hs : h.timing.state = .freeRun) : h.cabOkLevel = false := by
  unfold Hub.cabOkLevel Hub.inSpec
  rw [hs]
  simp [TimingState.inSpec]

/-- The outputs are those that the rules give. -/
def Hub.LampsRight (h : Hub) : Prop := h.alarms.lamps = h.lampLevels

section

variable {h g : Hub} {n : Slot}

/-- What the outputs are read from stands. -/
theorem Hub.LampsRight.congr (hh : h.LampsRight) (halarms : g.alarms = h.alarms) (hplan : g.tables.plan = h.tables.plan)
    (hslots : ∀ n : Slot, (g.slots[n].state = .forwarding ↔ h.slots[n].state = .forwarding))
    (hstate : g.timing.state.inSpec = h.timing.state.inSpec) : g.LampsRight := by
  unfold Hub.LampsRight
  rw [Hub.lampLevels_congr (by rw [halarms]) (Hub.cabOkLevel_congr (by rw [halarms]) hplan hslots hstate), halarms]
  exact hh

/-- In FREE_RUN the plan and the slots do not matter. -/
theorem Hub.LampsRight.of_freeRun (halarms : g.alarms = h.alarms) (hold : h.timing.state = .freeRun) (hnew : g.timing.state = .freeRun)
    (hh : h.LampsRight) : g.LampsRight := by
  have hlevels : g.lampLevels = h.lampLevels :=
    Hub.lampLevels_congr (by rw [halarms]) (by rw [Hub.cabOkLevel_of_freeRun hold, Hub.cabOkLevel_of_freeRun hnew])
  unfold Hub.LampsRight
  rw [hlevels, halarms]
  exact hh

theorem SlotRec.Stays.forwarding_iff {loading : Bool} {r r' : SlotRec} (hs : SlotRec.Stays loading r r') :
    r'.state = .forwarding ↔ r.state = .forwarding := by
  rcases hs.state with he | ⟨hold, hnew⟩
  · rw [he]
  · exact ⟨fun he => (by rw [he] at hnew; cases hnew), fun he => (by rw [he] at hold; cases hold)⟩

theorem Hub.LampsRight.still (hs : Hub.Still h g) (hh : h.LampsRight) : g.LampsRight :=
  hh.congr hs.alarms (by rw [hs.tables]) (fun n => (hs.slots n).forwarding_iff) (by rw [hs.timing])

/-- A change of the slots that takes none in or out of FORWARDING. -/
theorem Hub.LampsRight.slots (hh : h.LampsRight) (halarms : g.alarms = h.alarms) (htables : g.tables = h.tables)
    (htiming : g.timing = h.timing) (hslots : ∀ n : Slot, (g.slots[n].state = .forwarding ↔ h.slots[n].state = .forwarding)) : g.LampsRight :=
  hh.congr halarms (by rw [htables]) hslots (by rw [htiming])

theorem Hub.LampsRight.modSlot (f : SlotRec → SlotRec) (hf : (f h.slots[n]).state = .forwarding ↔ h.slots[n].state = .forwarding)
    (hh : h.LampsRight) : (h.modSlot n f).LampsRight := by
  refine hh.slots rfl rfl rfl fun m => ?_
  by_cases hm : n = m
  · subst hm
    rw [Hub.modSlot_self]
    exact hf
  · rw [Hub.modSlot_other _ _ _ _ hm]

theorem Hub.LampsRight.join (hh : h.LampsRight) : (h.join n).LampsRight := by
  unfold Hub.join
  split
  · exact hh
  · exact Hub.LampsRight.modSlot (h := { h with manager := _ }) _ Iff.rfl hh

theorem Hub.LampsRight.unjoin (n : Slot) (hh : h.LampsRight) : (h.unjoin n).LampsRight := by
  unfold Hub.unjoin
  exact Hub.LampsRight.modSlot (h := { h with manager := _ }) _ Iff.rfl hh

theorem Hub.LampsRight.serve (hr : h.Ready) (hh : h.LampsRight) : h.serve.1.LampsRight := by
  refine hh.slots (by rw [Hub.serve_frame]) (by rw [Hub.serve_frame]) (by rw [Hub.serve_frame]) fun m => ?_
  rcases h.serve_slot m with he | ⟨hm, he⟩
  · rw [he]
  · rw [he, (hr.1.2 m).1 hm]
    unfold Hub.powered SlotRec.entering SlotRec.notWaiting
    dsimp only
    split <;> simp

theorem Hub.LampsRight.raiseReported (key : AlarmKey) (reported : Option Severity) (hh : h.LampsRight) : (h.raiseReported key reported).LampsRight :=
  Hub.raiseAt_lamps 8 key reported hh

theorem Hub.LampsRight.clear (key : AlarmKey) (hh : h.LampsRight) : (h.clear key).LampsRight := by
  rcases h.clear_cases key with ⟨-, he⟩ | ⟨-, he⟩
  · rw [he]
    exact Hub.changedWith_lamps (fun _ hg => Hub.raiseAt_lamps 8 _ none hg) _ _ _ _
  · rw [he]
    exact hh

theorem Hub.LampsRight.judgePermit (cause : PermitReason) (hh : h.LampsRight) : (h.judgePermit cause n).LampsRight :=
  TellClosed.lamps.judgePermitsWith (fun _ hg => Hub.raiseAt_lamps 8 _ none hg) hh cause [n]

end

/-! ## The promise -/

/-- The outputs are owed where a slot has left or entered FORWARDING, or the timing state has changed. -/
def Owed.lampsStand : Owed → Bool
  | .nothing | .permit _ => true
  | .slot _ | .all => false

/-- The outputs as the rules give them, once they are judged; and FREE_RUN while the load runs, which may change the plan. -/
def Hub.LampsKept (o : Owed) (h : Hub) : Prop :=
  h.Ready ∧ (h.config.loading = true → h.timing.state = .freeRun) ∧ (o.lampsStand = true → h.LampsRight)

section

variable {o : Owed} {h g : Hub}

/-- A change that keeps the timing state and the load state. -/
theorem Hub.LampsKept.of (hh : Hub.LampsKept o h) (hr : g.Ready) (htiming : g.timing.state = h.timing.state)
    (hconfig : g.config.loading = h.config.loading) (hlamps : o.lampsStand = true → h.LampsRight → g.LampsRight) : Hub.LampsKept o g := by
  obtain ⟨-, hfree, hright⟩ := hh
  refine ⟨hr, fun hl => ?_, fun ho => hlamps ho (hright ho)⟩
  rw [htiming]
  exact hfree (hconfig ▸ hl)

theorem Hub.LampsKept.quiet (hh : Hub.LampsKept o h) (q : Hub.Quiet h g) (hlamps : o.lampsStand = true → h.LampsRight → g.LampsRight) :
    Hub.LampsKept o g :=
  hh.of (hh.1.quiet q) (by rw [q.timing]) (by rw [q.config]) hlamps

/-- A change after which the outputs are judged. -/
theorem Hub.LampsKept.judged {o' : Owed} (hh : Hub.LampsKept o h) (q : Hub.Quiet h g) : Hub.LampsKept o' g.judgeOutputs := by
  have q' := q.trans g.judgeOutputs_quiet
  refine ⟨hh.1.quiet q', fun hl => ?_, fun _ => rfl⟩
  rw [q'.timing]
  exact hh.2.1 (q'.config ▸ hl)

theorem Hub.LampsKept.replace (n : Slot) (f : SlotRec → SlotRec) (howed : o = .slot n ∨ h.slots[n].state ≠ .forwarding ∧ (f h.slots[n]).state ≠ .forwarding)
    (hf : h.Replaces n (f h.slots[n])) (hh : Hub.LampsKept o h) : Hub.LampsKept o (h.modSlot n f) := by
  refine hh.of (hh.1.replace f hf) rfl rfl fun ho hright => ?_
  rcases howed with rfl | ⟨hold, hnew⟩
  · cases ho
  · exact hright.modSlot f ⟨fun he => absurd he hnew, fun he => absurd he hold⟩

theorem Hub.LampsKept.retime (new : Timing) (hnew : h.timing.Follows new) (hsame : o = .all ∨ new.state.inSpec = h.timing.state.inSpec)
    (hh : Hub.LampsKept o h) : Hub.LampsKept o { h with timing := new } := by
  obtain ⟨hr, hfree, hright⟩ := hh
  refine ⟨hr.retime new hnew, fun hl => ?_, fun ho => ?_⟩
  · obtain ⟨-, -, hcands, hselection⟩ := hr.2.1 hl
    exact (hnew.idle hcands hselection).2 (hfree hl)
  · rcases hsame with rfl | hsame
    · cases ho
    · exact (hright ho).congr rfl rfl (fun _ => Iff.rfl) hsame

end

theorem Hub.LampsKept.serve (hh : Hub.LampsKept o h) : Hub.LampsKept o h.serve.1 :=
  hh.of hh.1.serve (by rw [Hub.serve_frame]) (by rw [Hub.serve_frame]) fun _ hright => hright.serve hh.1

theorem Hub.LampsKept.closed : Hub.Closed Hub.LampsKept where
  permit _ hh := hh
  slot _ hh := ⟨hh.1, hh.2.1, nofun⟩
  all hh := ⟨hh.1, hh.2.1, nofun⟩
  still hh hs := hh.of (hh.1.still hs) hs.timing hs.loading fun _ hright => hright.still hs
  raiseReported key reported hh := hh.quiet (Hub.raiseReported_quiet _ key reported) fun _ hright => hright.raiseReported key reported
  clear key hh := hh.quiet (Hub.clear_quiet _ key) fun _ hright => hright.clear key
  replace n f howed hf hh := hh.replace n f howed hf
  join _ hs hh := hh.of (hh.1.join hs) (by rw [Hub.join_frame]) (by rw [Hub.join_frame]) fun _ hright => hright.join
  unjoin n hh := hh.of (hh.1.unjoin n) rfl rfl fun _ hright => hright.unjoin n
  serve _ hh := hh.serve
  trec n f _ _ hh := hh.of (Hub.Ready.closed.trec (o := .permit n) n f (.inr rfl) (by assumption) hh.1) rfl rfl fun _ hright => hright
  judge cause n hh := hh.quiet (Hub.judgePermit_quiet _ cause n) fun _ hright => hright.judgePermit cause
  close n hh := hh.judged (Hub.judgePermit_quiet _ .slotState n)
  retime new hnew hsame hh := hh.retime new hnew hsame
  judgeAll hh := hh.judged (Hub.judgePermits_quiet _ _)
  acked keys hh := hh.quiet ((Hub.withAlarms_quiet _ _).trans (Hub.changedAll_quiet _ _ keys _)) fun _ _ => Hub.changedAll_lamps _ _ _ _
  purged hh := hh.judged (Hub.withAlarms_quiet _ _)

theorem Hub.LampsKept.afterReset (h : Hub) (kind : ResetKind) (strap : Bool) : Hub.LampsKept .nothing (h.afterReset kind strap) := by
  refine ⟨Hub.Ready.afterReset h kind strap, fun _ => rfl, fun _ => ?_⟩
  unfold Hub.LampsRight Hub.lampLevels
  rw [Hub.cabOkLevel_of_freeRun rfl]
  rfl

theorem Hub.LampsKept.settles : Hub.Settles Hub.LampsKept where
  toClosed := Hub.LampsKept.closed
  loads hh := hh.1.2.1
  reset := Hub.LampsKept.afterReset
  load {h} tables cands c hl hc hh := by
    have hfree := hh.2.1 hl
    refine ⟨Hub.Ready.settles.load tables cands c hl hc hh.1, fun hloading => ?_, fun _ => ?_⟩
    · rw [show c.loading = true from hloading] at hc
      cases hc
    · exact Hub.LampsRight.of_freeRun (h := h) rfl hfree hfree (hh.2.2 rfl)
  debounce {h} hempty hl hh := by
    refine hh.of (hh.1.beginDebounce hempty hl) rfl rfl fun _ hright => hright.slots rfl rfl rfl fun n => ?_
    simp only [Hub.beginDebounce, Fin.getElem_fin, mapEach_get]
  settled tables ht hh := hh.of (hh.1.retabled tables) rfl rfl fun _ hright => hright.congr rfl ht.plan (fun _ => Iff.rfl) rfl
  plan {h} plan hh := (show Hub.LampsKept .all { h with tables := { h.tables with plan } } from
    ⟨hh.1.retabled _, hh.2.1, nofun⟩).judged (.refl _)
  kind {h} kind e hh := by
    have q := Hub.setKind_quiet h kind e
    refine ⟨(hh.1.retabled _).quiet q, fun hl => ?_, fun _ => Hub.changedAll_lamps _ _ _ _⟩
    rw [q.timing]
    exact hh.2.1 (q.config ▸ hl)
  relist {o h} new hl hsame hh := by
    refine ⟨Hub.Ready.settles.relist (o := o) new hl hsame hh.1, fun hloading => ?_, fun ho => ?_⟩
    · rw [show h.config.loading = true from hloading] at hl
      cases hl
    · rcases hsame with rfl | hsame
      · cases ho
      · exact (hh.2.2 ho).congr rfl rfl (fun _ => Iff.rfl) hsame

/-! ## The outputs in words -/

theorem anyActive_iff (l : List AlarmRec) (sev : Severity) : anyActive l sev = true ↔ ∃ x, x ∈ l ∧ x.active = true ∧ x.severity = sev := by
  unfold anyActive
  rw [List.any_eq_true]
  exact exists_congr fun x => and_congr_right fun _ => by rw [Bool.and_eq_true, beq_iff_eq]

theorem Hub.cabOkLevel_iff (h : Hub) : h.cabOkLevel = true ↔ (∀ n : Slot, h.tables.plan[n].expected = true → h.slots[n].state = .forwarding) ∧
    h.inSpec = true ∧ ¬ ∃ x, x ∈ h.alarms.all ∧ x.active = true ∧ x.severity = .critical := by
  unfold Hub.cabOkLevel
  rw [Bool.and_eq_true, Bool.and_eq_true, Bool.not_eq_true', ← Bool.not_eq_true, anyActive_iff, List.all_eq_true, and_assoc]
  refine and_congr_left fun _ => ⟨fun hall n hn => ?_, fun hall n _ => ?_⟩
  · have hslot := hall n (mem_allSlots n)
    rw [hn] at hslot
    simpa using hslot
  · cases he : h.tables.plan[n].expected with
    | false => rfl
    | true => simpa using hall n he

/-- Settles O12: every change of the table, of a slot in or out of FORWARDING and of hub time in or out of specification ends in a judgment of
the outputs. -/
theorem alarmTableStaysLegal : Obligations.AlarmTableStaysLegal := by
  intro s t hst
  refine ⟨Hub.kept_alarmsLegal.effect (step_effect s t hst).2 trivial, fun hw hs ⟨hlamps, hfree⟩ => ?_⟩
  obtain ⟨-, hfree, hright⟩ := Hub.LampsKept.settles.step Hub.LampsKept.serve hst hs ⟨⟨hw, hs⟩, hfree, fun _ => hlamps⟩
  have hright : t.hub.alarms.lamps = t.hub.lampLevels := hright rfl
  refine ⟨⟨hright, hfree⟩, ?_⟩
  simp only
  rw [hright]
  refine ⟨anyActive_iff _ _, anyActive_iff _ _, anyActive_iff _ _, ?_, t.hub.cabOkLevel_iff⟩
  unfold Hub.lampLevels
  simp only [List.any_eq_true, Bool.and_eq_true, Bool.or_eq_true, beq_iff_eq, Bool.not_eq_true']
  constructor
  · rintro ⟨x, hx, ⟨hactive, hacked⟩, hsev⟩
    exact ⟨x, hsev.imp (⟨hx, hactive, ·⟩) (⟨hx, hactive, ·⟩), hacked⟩
  · rintro ⟨x, ⟨hx, hactive, hsev⟩ | ⟨hx, hactive, hsev⟩, hacked⟩
    · exact ⟨x, hx, ⟨hactive, hacked⟩, .inl hsev⟩
    · exact ⟨x, hx, ⟨hactive, hacked⟩, .inr hsev⟩

end Sys2Proof.Machine
end

section
/-! PROOFS. The transmit permits (R133, R148): granted only while every input holds, and exactly so where it was exact. -/

namespace Sys2Proof.Machine

/-! ## What a permit is read from -/

/-- A GRANTED permit has all its inputs; and where `exact`, one that has them all is GRANTED. -/
def Hub.PermitRight (exact : Prop) (h : Hub) (n : Slot) : Prop :=
  (h.trecs[n].granted = true → (h.permitInputs n).all = true) ∧ (exact → (h.permitInputs n).all = true → h.trecs[n].granted = true)

section

variable {exact : Prop} {h g : Hub} {n : Slot}

theorem Hub.PermitRight.congr (hall : (g.permitInputs n).all = (h.permitInputs n).all) (hgranted : g.trecs[n].granted = h.trecs[n].granted)
    (hh : h.PermitRight exact n) : g.PermitRight exact n := by
  unfold Hub.PermitRight
  rw [hall, hgranted]
  exact hh

theorem Hub.permitInputs_all_of_not_forwarding (hs : h.slots[n].state ≠ .forwarding) : (h.permitInputs n).all = false := by
  have hf : (h.slots[n].state == SlotState.forwarding) = false := by simpa using hs
  unfold Hub.permitInputs PermitInputs.all
  simp only
  rw [hf]
  rfl

theorem Hub.alarmWithholds_congr (hall : g.alarms.all = h.alarms.all) (hkinds : g.tables.kinds = h.tables.kinds) :
    g.alarmWithholds n = h.alarmWithholds n := by
  unfold Hub.alarmWithholds Hub.kindEntry
  rw [hall, hkinds]

/-- The inputs of a slot that is FORWARDING before and after, or neither. -/
theorem Hub.permitInputs_all_congr (hstate : g.slots[n].state = .forwarding ↔ h.slots[n].state = .forwarding)
    (hid : h.slots[n].state = .forwarding → g.slots[n].identity = h.slots[n].identity)
    (hspec : g.timing.state.inSpec = h.timing.state.inSpec) (hwindow : g.trecs[n].window = h.trecs[n].window)
    (hpath : g.trecs[n].pathLost = h.trecs[n].pathLost) (hphase : g.trecs[n].phaseCond = h.trecs[n].phaseCond)
    (halarms : g.alarmWithholds n = h.alarmWithholds n) : (g.permitInputs n).all = (h.permitInputs n).all := by
  by_cases hs : h.slots[n].state = .forwarding
  · unfold Hub.permitInputs Hub.hasCap Hub.inSpec TimingRec.settled
    rw [hid hs, hs, hstate.mpr hs, hspec, hwindow, hpath, hphase, halarms]
  · rw [Hub.permitInputs_all_of_not_forwarding hs, Hub.permitInputs_all_of_not_forwarding fun he => hs (hstate.mp he)]

/-- Nothing that a permit is read from changes but the slot, and that in no way that it sees. -/
theorem Hub.PermitRight.slots (hstate : g.slots[n].state = .forwarding ↔ h.slots[n].state = .forwarding)
    (hid : h.slots[n].state = .forwarding → g.slots[n].identity = h.slots[n].identity)
    (htiming : g.timing = h.timing) (htrecs : g.trecs = h.trecs) (halarms : g.alarms = h.alarms) (htables : g.tables = h.tables)
    (hh : h.PermitRight exact n) : g.PermitRight exact n :=
  hh.congr (Hub.permitInputs_all_congr hstate hid (by rw [htiming]) (by rw [htrecs]) (by rw [htrecs]) (by rw [htrecs])
    (Hub.alarmWithholds_congr (by rw [halarms]) (by rw [htables]))) (by rw [htrecs])

theorem Hub.PermitRight.still (hs : Hub.Still h g) (hh : h.PermitRight exact n) : g.PermitRight exact n :=
  hh.congr (Hub.permitInputs_all_congr (hs.slots n).forwarding_iff (hs.slots n).identity (by rw [hs.timing]) (hs.trecs n).window
    (hs.trecs n).pathLost (hs.trecs n).phaseCond (Hub.alarmWithholds_congr (by rw [hs.alarms]) (by rw [hs.tables]))) (hs.trecs n).granted

/-- A slot out of FORWARDING before and after. -/
theorem Hub.PermitRight.out (hold : h.slots[n].state ≠ .forwarding) (hnew : g.slots[n].state ≠ .forwarding)
    (hgranted : g.trecs[n].granted = h.trecs[n].granted) (hh : h.PermitRight exact n) : g.PermitRight exact n :=
  hh.congr (by rw [Hub.permitInputs_all_of_not_forwarding hold, Hub.permitInputs_all_of_not_forwarding hnew]) hgranted

end

/-! ## A permit judged -/

/-- The permits of the slots but some are right; and where they are to be exact, the alarm table is legal. -/
def Hub.PermitsBut (exact : Prop) (S : Slot → Prop) (h : Hub) : Prop :=
  (exact → h.alarms.Legal) ∧ ∀ n : Slot, ¬ S n → h.PermitRight exact n

section

variable {exact : Prop} {S : Slot → Prop} {h g : Hub} {n : Slot}

theorem Hub.PermitsBut.mono {T : Slot → Prop} (hST : ∀ n, S n → T n) (hh : h.PermitsBut exact S) : h.PermitsBut exact T :=
  ⟨hh.1, fun n hn => hh.2 n fun hs => hn (hST n hs)⟩

theorem Hub.grantPermit_trec (h : Hub) (m n : Slot) (granted : Bool) : (h.modTrec m fun r => { r with granted }).trecs[n] =
    { h.trecs[n] with granted := if m = n then granted else h.trecs[n].granted } := by
  by_cases hm : m = n
  · subst hm
    rw [Hub.modTrec_self, if_pos rfl]
  · rw [Hub.modTrec_other _ _ _ _ hm, if_neg hm]

theorem Hub.fireFence_eq (h : Hub) (key : AlarmKey) : ∃ l, h.fireFence key = { h with manager := { h.manager with fenceRequests := l } } := by
  unfold Hub.fireFence
  split
  · split
    · exact ⟨_, rfl⟩
    · exact ⟨_, rfl⟩
  · exact ⟨_, rfl⟩

/-- A judged permit is right, and every other stands. -/
theorem Hub.PermitRight.changePermit (cause : PermitReason) (m : Slot) (hh : m = n ∨ h.PermitRight exact n) :
    (Hub.changePermit cause h m).PermitRight exact n := by
  unfold Hub.changePermit
  simp only
  split
  · next he =>
    rcases hh with rfl | hh
    · exact ⟨fun hg => he.trans hg, fun _ hall => he.symm.trans hall⟩
    · exact hh
  · have htrec := h.grantPermit_trec m n (h.permitInputs m).all
    have hinputs := Hub.permitInputs_all_congr (h := h) (g := (h.modTrec m fun r => { r with granted := (h.permitInputs m).all }).notice
        Code.permitChanged (.permitChanged m h.trecs[m].granted (h.permitInputs m).all h.stamp
          (if (h.permitInputs m).all = true then cause else (h.permitInputs m).firstFailing))) (n := n)
      Iff.rfl (fun _ => rfl) rfl ((congrArg TimingRec.window htrec).trans rfl) ((congrArg TimingRec.pathLost htrec).trans rfl) ((congrArg TimingRec.phaseCond htrec).trans rfl) rfl
    have hgranted := congrArg TimingRec.granted htrec
    by_cases hm : m = n
    · subst hm
      have hgranted := hgranted.trans (if_pos rfl)
      exact ⟨fun hg => (hinputs.trans hgranted.symm).trans hg, fun _ hall => hgranted.trans (hinputs.symm.trans hall)⟩
    · exact (hh.resolve_left hm).congr hinputs (hgranted.trans (if_neg hm))

theorem Hub.changePermit_alarms (cause : PermitReason) (h : Hub) (m : Slot) : (Hub.changePermit cause h m).alarms = h.alarms := by
  unfold Hub.changePermit
  simp only
  split <;> rfl

theorem Hub.PermitsBut.tellClosed (exact : Prop) (S : Slot → Prop) : TellClosed (Hub.PermitsBut exact S) where
  judgeOutputs _ hh := ⟨hh.1, fun n hn => (hh.2 n hn).congr rfl rfl⟩
  notice _ _ _ hh := ⟨hh.1, fun n hn => (hh.2 n hn).congr rfl rfl⟩
  changePermit h cause m hh :=
    ⟨fun hexact => by rw [Hub.changePermit_alarms]; exact hh.1 hexact, fun n hn => .changePermit cause m (.inr (hh.2 n hn))⟩
  fence _ _ hh := ⟨hh.1, fun n hn => (hh.2 n hn).congr rfl rfl⟩
  refusal _ hh := ⟨hh.1, fun n hn => (hh.2 n hn).congr rfl rfl⟩
  placed h n place frame _ _ _ _ hh := by
    rw [(Hub.schedule_others _ _).1]
    exact ⟨hh.1, fun n hn => (hh.2 n hn).congr rfl rfl⟩

/-- The permits of a list judged one after another are right. -/
theorem Hub.PermitsBut.changePermits (cause : PermitReason) (slots : List Slot) (hh : h.PermitsBut exact fun n => S n ∨ n ∈ slots) :
    (slots.foldl (Hub.changePermit cause) h).PermitsBut exact S := by
  induction slots generalizing h with
  | nil => exact hh.mono fun n hn => hn.resolve_right List.not_mem_nil
  | cons m slots ih =>
    refine ih ⟨fun hexact => by rw [Hub.changePermit_alarms]; exact hh.1 hexact, fun n hn => .changePermit cause m ?_⟩
    by_cases hm : m = n
    · exact .inl hm
    · refine .inr (hh.2 n fun hn' => hn (hn'.imp_right fun hmem => (List.mem_cons.mp hmem).resolve_left (Ne.symm hm)))

section again

variable {again : AlarmKey → Hub → Hub} (hagain : ∀ h : Hub, h.PermitsBut exact S → (again (.hub .agentOverload) h).PermitsBut exact S)

include hagain

theorem Hub.PermitsBut.judgePermitsWith (cause : PermitReason) (slots : List Slot) (hh : h.PermitsBut exact fun n => S n ∨ n ∈ slots) :
    (h.judgePermitsWith again cause slots).PermitsBut exact S :=
  (Hub.PermitsBut.tellClosed exact S).placeOwed hagain (hh.changePermits cause slots) _ _

/-- The permits whose alarm input has changed are judged: `g` is `old` with another alarm input. -/
theorem Hub.PermitsBut.judgeWithheldWith (old : Hub) (halarms : exact → g.alarms.Legal)
    (hinputs : ∀ n, g.alarmWithholds n = old.alarmWithholds n → (g.permitInputs n).all = (old.permitInputs n).all)
    (hgranted : ∀ n : Slot, g.trecs[n].granted = old.trecs[n].granted) (hh : old.PermitsBut exact S) :
    (Hub.judgeWithheldWith again old g).PermitsBut exact S := by
  refine Hub.PermitsBut.judgePermitsWith hagain _ _ ⟨halarms, fun n hn => ?_⟩
  obtain ⟨hS, hlist⟩ := not_or.mp hn
  have hsame : g.alarmWithholds n = old.alarmWithholds n := by
    by_contra hne
    exact hlist (List.mem_filter.mpr ⟨mem_allSlots n, by simpa using Ne.symm hne⟩)
  exact (hh.2 n hS).congr (hinputs n hsame) (hgranted n)

/-- The same where the table alone has changed. -/
theorem Hub.PermitsBut.judgeWithheldWith_alarms (a : Alarms) (halarms : exact → a.Legal) (hh : h.PermitsBut exact S) :
    (Hub.judgeWithheldWith again h { h with alarms := a }).PermitsBut exact S :=
  Hub.PermitsBut.judgeWithheldWith hagain h halarms
    (fun _ hsame => Hub.permitInputs_all_congr Iff.rfl (fun _ => rfl) rfl rfl rfl rfl hsame) (fun _ => rfl) hh

theorem Hub.PermitsBut.changedWith (a : Alarms) (key : AlarmKey) (reason : AlarmReason) (halarms : exact → a.Legal)
    (hh : h.PermitsBut exact S) : (Hub.changedWith again h key reason { h with alarms := a }).PermitsBut exact S := by
  have htells := Hub.PermitsBut.tellClosed exact S
  unfold Hub.changedWith
  refine htells.tellAll hagain (htells.judgeOutputs _ ?_) _ _
  split
  · obtain ⟨l, hfired⟩ := Hub.fireFence_eq { h with alarms := a } key
    rw [hfired]
    exact Hub.PermitsBut.judgeWithheldWith hagain h halarms
      (fun _ hsame => Hub.permitInputs_all_congr Iff.rfl (fun _ => rfl) rfl rfl rfl rfl hsame) (fun _ => rfl) hh
  · exact hh.judgeWithheldWith_alarms hagain a halarms

end again

end

/-! ## A raise that renews an ACTIVE record -/

/-- A renewed record counts against the permits as the ACTIVE record of the same severity did. -/
theorem AlarmRec.counts_raised {r : AlarmRec} {e : KindEntry} {reported : Option Severity} {t : Stamp} (e' : KindEntry) (hactive : r.active = true)
    (hsev : (r.raised e reported t).severity = r.severity) : (r.raised e reported t).counts e' = r.counts e' := by
  unfold AlarmRec.counts
  rw [hsev, hactive]
  rfl

theorem Alarms.all_update (a : Alarms) (key : AlarmKey) (f : AlarmRec → AlarmRec) {x : AlarmRec} (hx : x ∈ (a.update key f).all) :
    x ∈ a.all ∨ ∃ y ∈ a.all, x = f y ∧ (key.kind = .alarmTableFull ∧ a.full = some y ∨ key.kind ≠ .alarmTableFull ∧ y.key = key) := by
  unfold Alarms.update Alarms.all at *
  split at hx
  · next hk =>
    rcases List.mem_append.mp hx with hfull | hrecs
    · obtain ⟨y, hy, rfl⟩ := Option.map_eq_some_iff.mp (Option.mem_toList.mp hfull)
      exact .inr ⟨y, List.mem_append_left _ (Option.mem_toList.mpr hy), rfl, .inl ⟨hk, hy⟩⟩
    · exact .inl (List.mem_append_right _ hrecs)
  · next hk =>
    rcases List.mem_append.mp hx with hfull | hrecs
    · exact .inl (List.mem_append_left _ hfull)
    · obtain ⟨y, hy, rfl⟩ := List.mem_map.mp hrecs
      split
      · next hkey => exact .inr ⟨y, List.mem_append_right _ hy, rfl, .inr ⟨hk, hkey⟩⟩
      · exact .inl (List.mem_append_right _ hy)

end Sys2Proof.Machine
end

section
/-! PROOFS. The permits through every event (R133, R148). -/

namespace Sys2Proof.Machine

/-! ## Raises and clears -/

theorem Alarms.find_some {a : Alarms} {key : AlarmKey} {p : Nat × AlarmRec} (hfind : a.find key = some p) :
    key.kind = .alarmTableFull ∧ a.full = some p.2 ∨ key.kind ≠ .alarmTableFull ∧ p.2 ∈ a.recs ∧ p.2.key = key := by
  have hrecord := a.find_eq key
  rw [hfind, Option.map_some] at hrecord
  split at hrecord
  · next hk => exact .inl ⟨hk, hrecord.symm⟩
  · next hk => exact .inr ⟨hk, List.mem_of_find?_eq_some hrecord.symm, by simpa using List.find?_some hrecord.symm⟩

/-- A record of the table after an update stands as it was, or changed. -/
theorem Alarms.mem_update (a : Alarms) (key : AlarmKey) (f : AlarmRec → AlarmRec) {x : AlarmRec} (hx : x ∈ a.all) :
    x ∈ (a.update key f).all ∨ f x ∈ (a.update key f).all ∧
      (key.kind = .alarmTableFull ∧ a.full = some x ∨ key.kind ≠ .alarmTableFull ∧ x.key = key) := by
  unfold Alarms.update Alarms.all at *
  split
  · next hk =>
    rcases List.mem_append.mp hx with hfull | hrecs
    · have hfull := Option.mem_toList.mp hfull
      exact .inr ⟨List.mem_append_left _ (Option.mem_toList.mpr (Option.map_eq_some_iff.mpr ⟨x, hfull, rfl⟩)), .inl ⟨hk, hfull⟩⟩
    · exact .inl (List.mem_append_right _ hrecs)
  · next hk =>
    rcases List.mem_append.mp hx with hfull | hrecs
    · exact .inl (List.mem_append_left _ hfull)
    · by_cases hkey : x.key = key
      · exact .inr ⟨List.mem_append_right _ (List.mem_map.mpr ⟨x, hrecs, if_pos hkey⟩), .inr ⟨hk, hkey⟩⟩
      · exact .inl (List.mem_append_right _ (List.mem_map.mpr ⟨x, hrecs, if_neg hkey⟩))

section

variable {exact : Prop} {S : Slot → Prop} {h g : Hub} {n : Slot} {key : AlarmKey} {reported : Option Severity} {p : Nat × AlarmRec}

theorem Hub.alarmWithholds_iff (h : Hub) (n : Slot) : h.alarmWithholds n = true ↔
    ∃ x ∈ h.alarms.all, x.counts (h.kindEntry x.key.kind) = true ∧ (x.key.source = none ∨ x.key.source = some n) := by
  unfold Hub.alarmWithholds
  simp only [List.any_eq_true, Bool.and_eq_true, Bool.or_eq_true, beq_iff_eq]

/-- An ACTIVE record raised with its severity withholds no permit that it did not withhold. -/
theorem Hub.alarmWithholds_of_renewed (hfind : h.alarms.find key = some p) (hactive : p.2.active = true)
    (hsev : (p.2.raised (h.kindEntry key.kind) reported h.stamp).severity = p.2.severity)
    (hnew : ({ h with alarms := h.renewed key reported } : Hub).alarmWithholds n = true) : h.alarmWithholds n = true := by
  rw [Hub.alarmWithholds_iff] at hnew ⊢
  obtain ⟨x, hx, hcounts, hsource⟩ := hnew
  rcases h.alarms.all_update key _ hx with hold | ⟨y, hy, rfl, hk⟩
  · exact ⟨x, hold, hcounts, hsource⟩
  · rcases Alarms.find_some hfind with ⟨hkind, hfull⟩ | ⟨hkind, hmem, hkey⟩
    · obtain ⟨-, hyfull⟩ := hk.resolve_right fun hne => hne.1 hkind
      rw [hfull] at hyfull
      cases hyfull
      exact ⟨p.2, hy, (AlarmRec.counts_raised _ hactive hsev).symm.trans hcounts, hsource⟩
    · obtain ⟨-, hykey⟩ := hk.resolve_left fun he => hkind he.1
      have hsame : y.key = p.2.key := hykey.trans hkey.symm
      refine ⟨p.2, List.mem_append_right _ hmem, (AlarmRec.counts_raised _ hactive hsev).symm.trans ?_, hsame ▸ hsource⟩
      have hcounts : ((y.raised (h.kindEntry key.kind) reported h.stamp)).counts (h.kindEntry y.key.kind) = true := hcounts
      unfold AlarmRec.counts AlarmRec.raised at hcounts ⊢
      rw [← hsame]
      exact hcounts

/-- With one record for each key, it withholds every permit that it withheld. -/
theorem Hub.alarmWithholds_renewed (ha : h.alarms.Legal) (hfind : h.alarms.find key = some p) (hactive : p.2.active = true)
    (hsev : (p.2.raised (h.kindEntry key.kind) reported h.stamp).severity = p.2.severity) (hold : h.alarmWithholds n = true) :
    ({ h with alarms := h.renewed key reported } : Hub).alarmWithholds n = true := by
  rw [Hub.alarmWithholds_iff] at hold ⊢
  obtain ⟨x, hx, hcounts, hsource⟩ := hold
  rcases h.alarms.mem_update key (·.raised (h.kindEntry key.kind) reported h.stamp) hx with hkept | ⟨hraised, hk⟩
  · exact ⟨x, hkept, hcounts, hsource⟩
  · have hxp : x = p.2 := by
      rcases Alarms.find_some hfind with ⟨hkind, hfull⟩ | ⟨hkind, hmem, hkey⟩
      · obtain ⟨-, hxfull⟩ := hk.resolve_right fun hne => hne.1 hkind
        rw [hfull] at hxfull
        cases hxfull
        rfl
      · obtain ⟨-, hxkey⟩ := hk.resolve_left fun he => hkind he.1
        exact ha.eq_of_key hx (List.mem_append_right _ hmem) (hxkey.trans hkey.symm)
    subst hxp
    exact ⟨_, hraised, (AlarmRec.counts_raised _ hactive hsev).trans hcounts, hsource⟩

theorem Hub.PermitsBut.renewed (hfind : h.alarms.find key = some p) (hactive : p.2.active = true)
    (hsev : (p.2.raised (h.kindEntry key.kind) reported h.stamp).severity = p.2.severity) (hh : h.PermitsBut exact S) :
    Hub.PermitsBut exact S { h with alarms := h.renewed key reported } := by
  refine ⟨fun hexact => (hh.1 hexact).update key _ fun _ => rfl, fun n hn => ?_⟩
  obtain ⟨hgranted, hall⟩ := hh.2 n hn
  by_cases hsame : ({ h with alarms := h.renewed key reported } : Hub).alarmWithholds n = h.alarmWithholds n
  · exact Hub.PermitRight.congr (h := h) (Hub.permitInputs_all_congr Iff.rfl (fun _ => rfl) rfl rfl rfl rfl hsame) rfl ⟨hgranted, hall⟩
  · have hold : h.alarmWithholds n = true := by
      by_contra hold
      refine hsame ?_
      rw [Bool.not_eq_true] at hold
      rw [hold, ← Bool.not_eq_true]
      intro hnew
      rw [Hub.alarmWithholds_of_renewed hfind hactive hsev hnew] at hold
      cases hold
    have hnot : (h.permitInputs n).all = false := by
      unfold Hub.permitInputs PermitInputs.all
      rw [hold]
      simp
    refine ⟨fun hg => ?_, fun hexact _ => ?_⟩
    · rw [hgranted hg] at hnot
      cases hnot
    · exact absurd ((Hub.alarmWithholds_renewed (hh.1 hexact) hfind hactive hsev hold).trans hold.symm) hsame

theorem Hub.PermitsBut.raiseAt (depth : Nat) (key : AlarmKey) (reported : Option Severity) (hh : h.PermitsBut exact S) :
    (Hub.raiseAt depth key reported h).PermitsBut exact S := by
  induction depth generalizing h key reported with
  | zero => exact hh
  | succ depth ih =>
    have hagain (g : Hub) (hg : g.PermitsBut exact S) := ih (.hub .agentOverload) none hg
    show (h.raiseWith (fun k h => Hub.raiseAt depth k none h) key reported).PermitsBut exact S
    obtain ⟨p, hfind, ⟨reason, hr⟩ | ⟨hactive, hsev, hr⟩⟩ | ⟨hnone, ⟨a, hc, hr⟩ | ⟨-, hr⟩⟩ :=
      h.raiseWith_cases (fun k h => Hub.raiseAt depth k none h) key reported
    · rw [hr]
      exact hh.changedWith hagain _ key reason fun hexact => (hh.1 hexact).update key _ fun _ => rfl
    · rw [hr]
      exact (Hub.PermitsBut.tellClosed exact S).judgeOutputs _ (hh.renewed hfind hactive hsev)
    · rw [hr]
      exact hh.changedWith hagain a key .created fun hexact => (hh.1 hexact).create (r := h.newRecord key reported) hnone hc
    · rw [hr]
      exact ih _ none hh

theorem Hub.PermitsBut.again (h : Hub) (hh : h.PermitsBut exact S) : (raiseAgain (.hub .agentOverload) h).PermitsBut exact S :=
  Hub.PermitsBut.raiseAt 8 _ none hh

theorem Hub.PermitsBut.clear (key : AlarmKey) (hh : h.PermitsBut exact S) : (h.clear key).PermitsBut exact S := by
  rcases h.clear_cases key with ⟨-, he⟩ | ⟨-, he⟩
  · rw [he]
    exact hh.changedWith Hub.PermitsBut.again _ key .cleared fun hexact => (hh.1 hexact).update key _ fun _ => rfl
  · rw [he]
    exact hh

theorem Hub.PermitsBut.judgeOutputs (hh : h.PermitsBut exact S) : h.judgeOutputs.PermitsBut exact S :=
  (Hub.PermitsBut.tellClosed exact S).judgeOutputs _ hh

theorem Hub.PermitsBut.changedAll (old : Hub) (keys : List AlarmKey) (reason : AlarmReason) (halarms : exact → g.alarms.Legal)
    (hinputs : ∀ n, g.alarmWithholds n = old.alarmWithholds n → (g.permitInputs n).all = (old.permitInputs n).all)
    (hgranted : ∀ n : Slot, g.trecs[n].granted = old.trecs[n].granted) (hh : old.PermitsBut exact S) :
    (Hub.changedAll old keys reason g).PermitsBut exact S :=
  (Hub.PermitsBut.tellClosed exact S).tellAll Hub.PermitsBut.again
    (Hub.PermitsBut.judgeWithheldWith Hub.PermitsBut.again old halarms hinputs hgranted hh).judgeOutputs reason _

theorem Hub.ackAll_legal (keys : List AlarmKey) (ha : h.alarms.Legal) :
    (keys.foldl (fun (a : Alarms) key => a.update key (·.ack h.stamp)) h.alarms).Legal := by
  generalize h.alarms = a at ha ⊢
  induction keys generalizing a with
  | nil => exact ha
  | cons key keys ih => exact ih _ (ha.update key _ fun _ => rfl)

/-- A purge removes no ACTIVE record. -/
theorem Hub.alarmWithholds_purge (h : Hub) (n : Slot) : ({ h with alarms := h.alarms.purge } : Hub).alarmWithholds n = h.alarmWithholds n := by
  have hcounts : ∀ x : AlarmRec, x.counts (h.kindEntry x.key.kind) = true → x.purgeable = false := fun x hx => by
    unfold AlarmRec.counts at hx
    simp only [Bool.and_eq_true] at hx
    unfold AlarmRec.purgeable
    rw [hx.1.1]
    rfl
  rw [Bool.eq_iff_iff, Hub.alarmWithholds_iff, Hub.alarmWithholds_iff]
  refine exists_congr fun x => ⟨fun ⟨hx, hrest⟩ => ⟨?_, hrest⟩, fun ⟨hx, hrest⟩ => ⟨?_, hrest⟩⟩
  · unfold Alarms.purge Alarms.all at hx
    simp only [List.mem_append, Option.mem_toList, List.mem_filter, Option.filter_eq_some_iff] at hx
    exact List.mem_append.mpr (hx.imp (fun hf => Option.mem_toList.mpr hf.1) (·.1))
  · have hkept := hcounts x hrest.1
    unfold Alarms.purge Alarms.all
    simp only [List.mem_append, Option.mem_toList, List.mem_filter, Option.filter_eq_some_iff, hkept]
    simpa [Alarms.all] using hx

end

/-! ## The promise -/

/-- The slots whose permit an event has still to judge. -/
def Owed.owes : Owed → Slot → Prop
  | .nothing, _ => False
  | .permit n, m | .slot n, m => m = n
  | .all, _ => True

/-- The permits that are not owed are right. -/
def Hub.PermitsKept (exact : Prop) (o : Owed) (h : Hub) : Prop := h.Ready ∧ h.PermitsBut exact o.owes

section

variable {exact : Prop} {o : Owed} {h g : Hub} {n : Slot}

/-- A change that touches neither the alarm table nor a permit that it does not owe. -/
theorem Hub.PermitsKept.of (hh : Hub.PermitsKept exact o h) (hr : g.Ready) (halarms : g.alarms = h.alarms)
    (hright : ∀ m, ¬ o.owes m → h.PermitRight exact m → g.PermitRight exact m) : Hub.PermitsKept exact o g :=
  ⟨hr, fun hexact => by rw [halarms]; exact hh.2.1 hexact, fun m hm => hright m hm (hh.2.2 m hm)⟩

theorem Owed.owes_slot_or {m : Slot} (ho : o = .slot n ∨ o = .permit n) (hm : ¬ o.owes m) : n ≠ m := by
  rintro rfl
  rcases ho with rfl | rfl
  · exact hm rfl
  · exact hm rfl

theorem Hub.PermitsKept.replace (n : Slot) (f : SlotRec → SlotRec)
    (howed : o = .slot n ∨ h.slots[n].state ≠ .forwarding ∧ (f h.slots[n]).state ≠ .forwarding) (hf : h.Replaces n (f h.slots[n]))
    (hh : Hub.PermitsKept exact o h) : Hub.PermitsKept exact o (h.modSlot n f) := by
  refine hh.of (hh.1.replace f hf) rfl fun m hm hright => ?_
  by_cases hn : n = m
  · subst hn
    rcases howed with rfl | ⟨hold, hnew⟩
    · exact absurd rfl hm
    · refine hright.out hold ?_ rfl
      rw [Hub.modSlot_self]
      exact hnew
  · have hother := h.modSlot_other n m f hn
    exact Hub.PermitRight.slots (h := h) (by rw [hother]) (fun _ => by rw [hother]) rfl rfl rfl rfl hright

theorem Hub.PermitsKept.join (hs : h.slots[n].state = .seated) (hh : Hub.PermitsKept exact o h) : Hub.PermitsKept exact o (h.join n) := by
  refine hh.of (hh.1.join hs) (by rw [Hub.join_frame]) fun m _ hright => ?_
  have hslot : (h.join n).slots[m].state = h.slots[m].state ∧ (h.join n).slots[m].identity = h.slots[m].identity := by
    unfold Hub.join
    split
    · exact ⟨rfl, rfl⟩
    · rw [Hub.modSlot_slots]
      split
      · next he =>
        subst he
        exact ⟨rfl, rfl⟩
      · exact ⟨rfl, rfl⟩
  exact hright.slots (by rw [hslot.1]) (fun _ => hslot.2) (by rw [Hub.join_frame]) (by rw [Hub.join_frame]) (by rw [Hub.join_frame])
    (by rw [Hub.join_frame])

theorem Hub.PermitsKept.unjoin (n : Slot) (hh : Hub.PermitsKept exact o h) : Hub.PermitsKept exact o (h.unjoin n) := by
  refine hh.of (hh.1.unjoin n) rfl fun m _ hright => ?_
  have hslot : (h.unjoin n).slots[m].state = h.slots[m].state ∧ (h.unjoin n).slots[m].identity = h.slots[m].identity := by
    unfold Hub.unjoin
    rw [Hub.modSlot_slots]
    split
    · next he =>
      subst he
      exact ⟨rfl, rfl⟩
    · exact ⟨rfl, rfl⟩
  exact hright.slots (by rw [hslot.1]) (fun _ => hslot.2) rfl rfl rfl rfl

theorem Hub.PermitsKept.serve (hh : Hub.PermitsKept exact o h) : Hub.PermitsKept exact o h.serve.1 := by
  refine hh.of hh.1.serve (by rw [Hub.serve_frame]) fun m _ hright => ?_
  rcases h.serve_slot m with he | ⟨hm, he⟩
  · exact hright.slots (by rw [he]) (fun _ => by rw [he]) (by rw [Hub.serve_frame]) (by rw [Hub.serve_frame]) (by rw [Hub.serve_frame])
      (by rw [Hub.serve_frame])
  · have hseated := (hh.1.1.2 m).1 hm
    refine hright.out (by rw [hseated]; decide) ?_ (by rw [Hub.serve_frame])
    rw [he]
    unfold Hub.powered SlotRec.entering SlotRec.notWaiting
    dsimp only
    split <;> decide

theorem Hub.PermitsKept.retime (new : Timing) (hr : Hub.Ready { h with timing := new })
    (hsame : o = .all ∨ new.state.inSpec = h.timing.state.inSpec) (hh : Hub.PermitsKept exact o h) :
    Hub.PermitsKept exact o { h with timing := new } := by
  refine hh.of hr rfl fun m hm hright => ?_
  rcases hsame with rfl | hsame
  · exact absurd trivial hm
  · exact Hub.PermitRight.congr (h := h) (Hub.permitInputs_all_congr Iff.rfl (fun _ => rfl) hsame rfl rfl rfl rfl) rfl hright

theorem Hub.PermitsKept.judgePermit (cause : PermitReason) (ho : ∀ m, o.owes m → m = n) (hh : Hub.PermitsKept exact o h) :
    Hub.PermitsKept exact .nothing (h.judgePermit cause n) :=
  ⟨hh.1.quiet (Hub.judgePermit_quiet h cause n), Hub.PermitsBut.judgePermitsWith Hub.PermitsBut.again cause [n]
    (hh.2.mono fun m hm => .inr (List.mem_singleton.mpr (ho m hm)))⟩

theorem Hub.PermitsKept.judgeOutputs (hh : Hub.PermitsKept exact o h) : Hub.PermitsKept exact o h.judgeOutputs :=
  ⟨hh.1.quiet (Hub.judgeOutputs_quiet h), hh.2.judgeOutputs⟩

end

theorem Hub.PermitsKept.closed (exact : Prop) : Hub.Closed (Hub.PermitsKept exact) where
  permit _ hh := ⟨hh.1, hh.2.mono fun _ => nofun⟩
  slot _ hh := ⟨hh.1, hh.2.mono fun _ => nofun⟩
  all hh := ⟨hh.1, hh.2.mono fun _ _ => trivial⟩
  still hh hs := hh.of (hh.1.still hs) hs.alarms fun _ _ hright => hright.still hs
  raiseReported key reported hh := ⟨hh.1.quiet (Hub.raiseReported_quiet _ key reported), hh.2.raiseAt 8 key reported⟩
  clear key hh := ⟨hh.1.quiet (Hub.clear_quiet _ key), hh.2.clear key⟩
  replace n f howed hf hh := hh.replace n f howed hf
  join _ hs hh := hh.join hs
  unjoin n hh := hh.unjoin n
  serve _ hh := hh.serve
  trec {o h} n f ho hf hh := by
    refine hh.of (Hub.Ready.closed.trec (o := o) n f ho hf hh.1) rfl fun m hm hright => ?_
    have hother := h.modTrec_other n m f (Owed.owes_slot_or ho hm)
    exact Hub.PermitRight.congr (h := h)
      (Hub.permitInputs_all_congr Iff.rfl (fun _ => rfl) rfl (by rw [hother]) (by rw [hother]) (by rw [hother]) rfl) (by rw [hother]) hright
  judge cause n hh := Hub.PermitsKept.judgePermit (o := .permit n) cause (fun _ hm => hm) hh
  close n hh := (Hub.PermitsKept.judgePermit (o := .slot n) .slotState (fun _ hm => hm) hh).judgeOutputs
  retime new hnew hsame hh := hh.retime new (hh.1.retime new hnew) hsame
  judgeAll hh := Hub.PermitsKept.judgeOutputs ⟨hh.1.quiet (Hub.judgePermits_quiet _ _),
    Hub.PermitsBut.judgePermitsWith Hub.PermitsBut.again _ allSlots (hh.2.mono fun m _ => .inr (mem_allSlots m))⟩
  acked keys hh := ⟨hh.1.quiet ((Hub.withAlarms_quiet _ _).trans (Hub.changedAll_quiet _ _ keys _)),
    hh.2.changedAll _ _ _ (fun hexact => Hub.ackAll_legal keys (hh.2.1 hexact))
      (fun _ hsame => Hub.permitInputs_all_congr Iff.rfl (fun _ => rfl) rfl rfl rfl rfl hsame) fun _ => rfl⟩
  purged {h} hh := by
    refine Hub.PermitsKept.judgeOutputs ⟨hh.1.quiet (Hub.withAlarms_quiet _ _), fun hexact => (hh.2.1 hexact).purge, fun m hm => ?_⟩
    exact Hub.PermitRight.congr (h := h) (Hub.permitInputs_all_congr Iff.rfl (fun _ => rfl) rfl rfl rfl rfl (h.alarmWithholds_purge m)) rfl
      (hh.2.2 m hm)

theorem Hub.PermitsKept.settles (exact : Prop) : Hub.Settles (Hub.PermitsKept exact) where
  toClosed := Hub.PermitsKept.closed exact
  loads hh := hh.1.2.1
  reset h kind strap := by
    refine ⟨Hub.Ready.afterReset h kind strap, fun _ => Hub.kept_alarmsLegal.reset h kind strap, fun m _ => ?_⟩
    have hempty : (h.afterReset kind strap).slots[m].state ≠ .forwarding := by
      simp only [Hub.afterReset, Fin.getElem_fin, mapEach_get]
      exact SlotState.noConfusion
    have hgranted : (h.afterReset kind strap).trecs[m].granted = false := by
      simp [Hub.afterReset]
    unfold Hub.PermitRight
    rw [Hub.permitInputs_all_of_not_forwarding hempty, hgranted]
    exact ⟨nofun, fun _ => nofun⟩
  load {h} tables cands c hl hc hh := by
    obtain ⟨hslots, -⟩ := hh.1.2.1 hl
    have hempty (m : Slot) : h.slots[m].state ≠ .forwarding := by
      rw [(hslots m).1]
      decide
    exact hh.of (Hub.Ready.settles.load tables cands c hl hc hh.1) rfl fun m _ hright =>
      Hub.PermitRight.out (h := h) (hempty m) (hempty m) rfl hright
  debounce {h} hempty hl hh := by
    refine hh.of (hh.1.beginDebounce hempty hl) rfl fun m _ hright =>
      Hub.PermitRight.out (h := h) (by rw [hempty m]; decide) ?_ rfl hright
    simp only [Hub.beginDebounce, Fin.getElem_fin, mapEach_get]
    rw [show h.slots[m.val].state = .empty from hempty m]
    decide
  settled {h} tables ht hh := hh.of (hh.1.retabled tables) rfl fun _ _ hright => Hub.PermitRight.congr (h := h)
    (Hub.permitInputs_all_congr Iff.rfl (fun _ => rfl) rfl rfl rfl rfl (Hub.alarmWithholds_congr rfl ht.kinds)) rfl hright
  plan {h} plan hh := Hub.PermitsKept.judgeOutputs (h := { h with tables := { h.tables with plan } })
    (hh.of (hh.1.retabled _) rfl fun _ _ hright => hright.congr
      (Hub.permitInputs_all_congr Iff.rfl (fun _ => rfl) rfl rfl rfl rfl (Hub.alarmWithholds_congr rfl rfl)) rfl)
  kind {h} kind e hh := ⟨(hh.1.retabled _).quiet (Hub.setKind_quiet h kind e),
    hh.2.changedAll h _ _ (fun hexact => (hh.2.1 hexact).reform kind e)
      (fun _ hsame => Hub.permitInputs_all_congr Iff.rfl (fun _ => rfl) rfl rfl rfl rfl hsame) fun _ => rfl⟩
  relist {o h} new hl hsame hh := hh.retime new (Hub.Ready.settles.relist (o := o) new hl hsame hh.1) hsame

/-- Settles O18: each change of an input is followed by a judgment of the permits that read it. -/
theorem permitsStayLegal : Obligations.PermitsStayLegal := by
  intro s t hst hw hs
  refine ⟨fun hlegal n => ?_, fun halarms hexact n => ?_⟩
  · have hkept := (Hub.PermitsKept.settles False).step Hub.PermitsKept.serve hst hs ⟨⟨hw, hs⟩, False.elim, fun m _ => ⟨hlegal m, False.elim⟩⟩
    exact (hkept.2.2 n id).1
  · have hkept := (Hub.PermitsKept.settles True).step Hub.PermitsKept.serve hst hs ⟨⟨hw, hs⟩, fun _ => halarms, fun m _ =>
      ⟨fun hg => (s.hub.permitInputs_all_iff m).mpr ((hexact m).mp hg),
        fun _ hall => (hexact m).mpr ((s.hub.permitInputs_all_iff m).mp hall)⟩⟩
    rw [← t.hub.permitInputs_all_iff n]
    exact ⟨(hkept.2.2 n id).1, (hkept.2.2 n id).2 trivial⟩

end Sys2Proof.Machine
end

section
/-! PROOFS. Each setting is changed by its own request alone (section 11.1). -/

namespace Sys2Proof.Machine

/-- The settings of `g` are those of `h`, the sources of the candidates among them. -/
structure Hub.SettingsKept (h g : Hub) : Prop where
  tables : g.tables = h.tables
  sources : g.timing.cands.map (·.source) = h.timing.cands.map (·.source)

/-- A command leaves the settings of section 11.1 as they are, but for the one that it sets. -/
structure Hub.SetBy (c : Instr) (h g : Hub) : Prop where
  plan : c ≠ .slotPlanSet → g.tables.plan = h.tables.plan
  budget : c ≠ .budgetSet → g.tables.budget = h.tables.budget ∧ g.tables.recoveryWindow = h.tables.recoveryWindow ∧
    g.tables.drainTimeout = h.tables.drainTimeout
  windows : c ≠ .windowSet → g.tables.windows = h.tables.windows
  groups : c ≠ .groupSet → g.tables.groups = h.tables.groups
  defaultTarget : c ≠ .defaultTargetSet → g.tables.defaultTarget = h.tables.defaultTarget
  ports : c ≠ .portLimitSet → g.tables.ports = h.tables.ports
  list : c ≠ .refListSet → g.tables.revertive = h.tables.revertive ∧
    g.timing.cands.map (·.source) = h.timing.cands.map (·.source)
  timing : c ≠ .timingSet → g.tables.timing = h.tables.timing
  asymmetry : c ≠ .asymmetrySet → g.tables.asymmetry = h.tables.asymmetry
  kinds : c ≠ .kindSet → g.tables.kinds = h.tables.kinds
  relay : c ≠ .relaySet → g.tables.relay = h.tables.relay

section

variable {c : Instr} {h g k : Hub} {r : Request} {n : Slot}

theorem Hub.SettingsKept.refl (h : Hub) : Hub.SettingsKept h h := ⟨rfl, rfl⟩

theorem Hub.SettingsKept.trans (hk : Hub.SettingsKept h k) (hg : Hub.SettingsKept k g) : Hub.SettingsKept h g :=
  ⟨hg.tables.trans hk.tables, hg.sources.trans hk.sources⟩

theorem Hub.SettingsKept.quiet (hk : Hub.SettingsKept h k) (q : Hub.Quiet k g) : Hub.SettingsKept h g :=
  hk.trans ⟨q.tables, by rw [q.timing]⟩

theorem Hub.SettingsKept.serve (hk : Hub.SettingsKept h k) : Hub.SettingsKept h k.serve.1 :=
  hk.trans ⟨by rw [Hub.serve_frame], by rw [Hub.serve_frame]⟩

/-- No operation of an event touches the settings. -/
theorem Hub.SettingsKept.closed (h : Hub) : Hub.Closed fun _ => Hub.SettingsKept h where
  permit _ hk := hk
  slot _ hk := hk
  all hk := hk
  still hk hs := hk.trans ⟨hs.tables, by rw [hs.cands]⟩
  raiseReported key reported hk := hk.quiet (Hub.raiseReported_quiet _ key reported)
  clear key hk := hk.quiet (Hub.clear_quiet _ key)
  replace _ _ _ _ hk := hk.trans ⟨rfl, rfl⟩
  join n _ hk := hk.trans ⟨by rw [Hub.join_frame], by rw [Hub.join_frame]⟩
  unjoin _ hk := hk.trans ⟨rfl, rfl⟩
  serve _ hk := hk.serve
  trec _ _ _ _ hk := hk.trans ⟨rfl, rfl⟩
  judge cause n hk := hk.quiet (Hub.judgePermit_quiet _ cause n)
  close n hk := hk.quiet ((Hub.judgePermit_quiet _ _ n).trans (Hub.judgeOutputs_quiet _))
  retime _ hnew _ hk := hk.trans ⟨rfl, hnew.sources⟩
  judgeAll hk := hk.quiet ((Hub.judgePermits_quiet _ _).trans (Hub.judgeOutputs_quiet _))
  acked keys hk := hk.quiet ((Hub.withAlarms_quiet _ _).trans (Hub.changedAll_quiet _ _ keys _))
  purged hk := hk.quiet (Hub.purged_quiet _)

theorem Hub.SettingsKept.seat (n : Slot) (joins : Bool) (hk : Hub.SettingsKept h k) : Hub.SettingsKept h (k.seat n joins) := by
  unfold Hub.seat
  simp only
  split
  · exact hk.trans ⟨by rw [Hub.join_frame]; rfl, by rw [Hub.join_frame]; rfl⟩
  · exact hk.trans ⟨rfl, rfl⟩

theorem Hub.SettingsKept.enterSeated (n : Slot) (joins : Bool) (reason : SlotReason) (hk : Hub.SettingsKept h k) :
    Hub.SettingsKept h (k.enterSeated n joins reason) := by
  have hP := Hub.SettingsKept.closed h
  unfold Hub.enterSeated
  simp only
  exact hP.announceGrants (o := .nothing) _ (hP.notice (o := .nothing) _ _ (hP.clearIf (o := .nothing) _ _ (hk.seat n joins).serve))

theorem Hub.SettingsKept.presencePresent (h : Hub) (n : Slot) : Hub.SettingsKept h (h.presencePresent n) := by
  unfold Hub.presencePresent
  simp only
  split
  · exact .refl h
  · split
    · exact Hub.SettingsKept.enterSeated n _ _ ⟨rfl, rfl⟩
    · exact ⟨rfl, rfl⟩

theorem Hub.SettingsKept.startUp (h : Hub) : Hub.SettingsKept h h.startUp := by
  have hP := Hub.SettingsKept.closed h
  unfold Hub.startUp
  simp only
  refine hP.announceGrants (o := .nothing) _ (foldl_keeps (P := Hub.SettingsKept h)
    (f := fun (g : Hub) n => g.notice Code.slotChanged (.slotChanged n .empty .seated .inserted none g.slots[n].entry))
    (fun _ n hg => hP.notice (o := .nothing) _ _ hg) _ (Hub.SettingsKept.serve ?_))
  exact foldl_keeps (P := Hub.SettingsKept h)
    (f := fun (g : Hub) n => (g.modSlot n fun r => { r with powerClass := some (classOfPins r.pcode) }).seat n false)
    (fun g n hg => Hub.SettingsKept.seat n false (k := g.modSlot n _) (hg.trans ⟨rfl, rfl⟩)) _ ⟨rfl, rfl⟩

/-! ## The requests that set a value -/

theorem Hub.SetBy.refl (c : Instr) (h : Hub) : Hub.SetBy c h h :=
  ⟨fun _ => rfl, fun _ => ⟨rfl, rfl, rfl⟩, fun _ => rfl, fun _ => rfl, fun _ => rfl, fun _ => rfl, fun _ => ⟨rfl, rfl⟩, fun _ => rfl, fun _ => rfl,
    fun _ => rfl, fun _ => rfl⟩

theorem Hub.SetBy.kept (hs : Hub.SetBy c h k) (hk : Hub.SettingsKept k g) : Hub.SetBy c h g := by
  obtain ⟨htables, hsources⟩ := hk
  constructor
  case list =>
    rw [htables, hsources]
    exact hs.list
  all_goals rw [htables]
  exacts [hs.plan, hs.budget, hs.windows, hs.groups, hs.defaultTarget, hs.ports, hs.timing, hs.asymmetry, hs.kinds, hs.relay]

theorem Hub.SetBy.refuse (r : Request) (status : Status) (hk : Hub.SetBy c h k) : Hub.SetBy c h (k.refuse r status) := hk.kept ⟨rfl, rfl⟩

theorem Hub.SetBy.answer (r : Request) (status : Status) (body : Body) (hk : Hub.SetBy c h k) : Hub.SetBy c h (k.answer r status body) :=
  hk.kept ⟨rfl, rfl⟩

/-- A request taken: nothing happens, or it is answered, or its owner acts. -/
theorem Hub.SetBy.take (code : Byte) (act : Request → Hub → Hub) (hact : ∀ r k, Hub.SetBy c h k → Hub.SetBy c h (act r k)) :
    Hub.SetBy c h (Hub.take code act h) := by
  unfold Hub.take
  split
  · exact .refl c h
  · split
    · exact .refl c h
    · split
      · exact hact _ _ ((Hub.SetBy.refl c h).kept ⟨rfl, rfl⟩)
      · exact (Hub.SetBy.refl c h).kept ⟨rfl, rfl⟩

theorem Hub.SetBy.takeSlot (code : Byte) (act : Request → Slot → Hub → Hub)
    (hact : ∀ r n k, Hub.SetBy c h k → Hub.SetBy c h (act r n k)) : Hub.SetBy c h (Hub.take code (fun r => Hub.withSlot r (act r)) h) := by
  refine .take code _ fun r k hk => ?_
  unfold Hub.withSlot
  split
  · exact hk.refuse _ _
  · exact hact r _ k hk

theorem Hub.SetBy.planSet (hk : Hub.SetBy .slotPlanSet h k) : Hub.SetBy .slotPlanSet h (Hub.planSet r n k) := by
  unfold Hub.planSet
  split
  · exact hk.refuse _ _
  · next entry _ =>
    have hset : Hub.SetBy .slotPlanSet h { k with tables := { k.tables with plan := k.tables.plan.set n entry.clamp } } :=
      { hk with plan := fun hne => absurd rfl hne }
    exact (hset.kept (Hub.SettingsKept.quiet (.refl _) (Hub.judgeOutputs_quiet _))).answer _ _ _

theorem Hub.SetBy.budgetSet (hk : Hub.SetBy .budgetSet h k) : Hub.SetBy .budgetSet h (Hub.budgetSet r k) := by
  unfold Hub.budgetSet
  simp only
  split
  · exact hk.answer _ _ _
  · have hset : Hub.SetBy .budgetSet h { k with tables := { k.tables with
        budget := (parseBudget r.body).clamp.budget, recoveryWindow := (parseBudget r.body).clamp.recoveryWindow,
        drainTimeout := (parseBudget r.body).clamp.drainTimeout } } := { hk with budget := fun hne => absurd rfl hne }
    split
    · have hP := Hub.SettingsKept.closed { k with tables := { k.tables with
        budget := (parseBudget r.body).clamp.budget, recoveryWindow := (parseBudget r.body).clamp.recoveryWindow,
        drainTimeout := (parseBudget r.body).clamp.drainTimeout } }
      exact (hset.kept (hP.announceGrants (o := .nothing) _ (Hub.SettingsKept.refl _).serve)).answer _ _ _
    · exact hset.answer _ _ _

theorem Hub.SetBy.windowSet (hk : Hub.SetBy .windowSet h k) : Hub.SetBy .windowSet h (Hub.windowSet r k) := by
  unfold Hub.windowSet
  split
  · exact Hub.SetBy.answer (k := { k with tables := _ }) _ _ _ { hk with windows := fun hne => absurd rfl hne }
  · exact hk.refuse _ _

theorem Hub.SetBy.groupSet (hk : Hub.SetBy .groupSet h k) : Hub.SetBy .groupSet h (Hub.groupSet r k) := by
  unfold Hub.groupSet
  split
  · exact Hub.SetBy.answer (k := { k with tables := _ }) _ _ _ { hk with groups := fun hne => absurd rfl hne }
  · exact hk.refuse _ _

theorem Hub.SetBy.defaultTargetSet (hk : Hub.SetBy .defaultTargetSet h k) : Hub.SetBy .defaultTargetSet h (Hub.defaultTargetSet r k) := by
  unfold Hub.defaultTargetSet
  split
  · exact Hub.SetBy.answer (k := { k with tables := _ }) _ _ _ { hk with defaultTarget := fun hne => absurd rfl hne }
  · exact hk.refuse _ _

theorem Hub.SetBy.portLimitSet (hk : Hub.SetBy .portLimitSet h k) : Hub.SetBy .portLimitSet h (Hub.portLimitSet r n k) := by
  unfold Hub.portLimitSet
  simp only
  split
  · exact hk.answer _ _ _
  · exact Hub.SetBy.answer (k := { k with tables := _ }) _ _ _ { hk with ports := fun hne => absurd rfl hne }

theorem Hub.SetBy.refListSet (hk : Hub.SetBy .refListSet h k) : Hub.SetBy .refListSet h (Hub.refListSet r k) := by
  unfold Hub.refListSet
  split
  · exact hk.refuse _ _
  · next revertive sources _ =>
    simp only
    have htables := (Hub.setTiming_handsOn { k with tables := { k.tables with revertive } } ((k.timing.relist sources).reselect revertive)
      .hostRequest (k.timing.cands.isEmpty || (k.timing.selection.isSome && ((k.timing.relist sources).reselect revertive).selection.isNone))).tables
    generalize Hub.setTiming _ _ _ _ = g at htables ⊢
    refine Hub.SetBy.answer (k := g) _ _ _ ?_
    constructor
    case list => exact fun hne => absurd rfl hne
    all_goals rw [htables]
    exacts [hk.plan, hk.budget, hk.windows, hk.groups, hk.defaultTarget, hk.ports, hk.timing, hk.asymmetry, hk.kinds, hk.relay]

theorem Hub.SetBy.timingSet (hk : Hub.SetBy .timingSet h k) : Hub.SetBy .timingSet h (Hub.timingSet r k) := by
  unfold Hub.timingSet
  simp only
  have hset : Hub.SetBy .timingSet h { k with tables := { k.tables with timing := (parseTimingParams r.body).clamp } } :=
    { hk with timing := fun hne => absurd rfl hne }
  refine (hset.kept ⟨(Hub.setTiming_handsOn _ _ _ _).tables, ?_⟩).answer _ _ _
  rw [Hub.setTiming_timing]
  exact congrArg (List.map (·.source)) (Timing.setHoldoverLimit_cands _ _)

theorem Hub.SetBy.asymmetrySet (hk : Hub.SetBy .asymmetrySet h k) : Hub.SetBy .asymmetrySet h (Hub.asymmetrySet r n k) := by
  unfold Hub.asymmetrySet
  split
  · exact hk.refuse _ _
  · exact Hub.SetBy.answer (k := { k with tables := _ }) _ _ _ { hk with asymmetry := fun hne => absurd rfl hne }

theorem Hub.SetBy.kindSet (hk : Hub.SetBy .kindSet h k) : Hub.SetBy .kindSet h (Hub.kindSet r k) := by
  unfold Hub.kindSet
  split
  · exact hk.refuse _ _
  · next kind _ =>
    split
    · exact hk.refuse _ _
    · next e _ =>
      have hset : Hub.SetBy .kindSet h { k with tables := { k.tables with kinds := k.tables.kinds.set kind.idx e } } :=
        { hk with kinds := fun hne => absurd rfl hne }
      exact (hset.kept (Hub.SettingsKept.quiet (.refl _) (k.setKind_quiet kind e))).answer _ _ _

theorem Hub.SetBy.relaySet (hk : Hub.SetBy .relaySet h k) : Hub.SetBy .relaySet h (Hub.relaySet r k) := by
  unfold Hub.relaySet
  split
  · exact hk.refuse _ _
  · exact Hub.SetBy.answer (k := { k with tables := _ }) _ _ _ { hk with relay := fun hne => absurd rfl hne }

/-! ## Every command -/

theorem exec_setBy {s t : State} (hexec : exec c s = .next t) (hpower : ∀ e w, c ≠ .powerOnReset e w) (hload : ∀ a, c ≠ .loadComplete a)
    (hread : ∀ p b e k, c ≠ .readTransfer p b e k) : Hub.SetBy c s.hub t.hub := by
  by_cases hc : isOrdinary c = true
  · exact (Hub.SetBy.refl c s.hub).kept ((Hub.SettingsKept.closed s.hub).exec hexec hc (fun n _ => .presencePresent _ n) (fun _ => .startUp _) (.refl _))
  have onHub : ∀ (f : Hub → Hub), s.onHub f = .next t → Hub.SetBy c s.hub (f s.hub) → Hub.SetBy c s.hub t.hub := by
    intro f hf hset
    rw [State.onHub_eq] at hf
    cases hf
    exact hset
  cases c with simp only [exec] at hexec
  | powerOnReset imageEn written => exact absurd rfl (hpower _ _)
  | loadComplete acknowledged => exact absurd rfl (hload _)
  | readTransfer hprst typeByte startedEmpty clocked => exact absurd rfl (hread _ _ _ _)
  | slotPlanSet => exact onHub _ hexec (.takeSlot _ _ fun _ _ _ => .planSet)
  | budgetSet => exact onHub _ hexec (.take _ _ fun _ _ => .budgetSet)
  | windowSet => exact onHub _ hexec (.take _ _ fun _ _ => .windowSet)
  | groupSet => exact onHub _ hexec (.take _ _ fun _ _ => .groupSet)
  | defaultTargetSet => exact onHub _ hexec (.take _ _ fun _ _ => .defaultTargetSet)
  | portLimitSet => exact onHub _ hexec (.takeSlot _ _ fun _ _ _ => .portLimitSet)
  | refListSet => exact onHub _ hexec (.take _ _ fun _ _ => .refListSet)
  | timingSet => exact onHub _ hexec (.take _ _ fun _ _ => .timingSet)
  | asymmetrySet => exact onHub _ hexec (.takeSlot _ _ fun _ _ _ => .asymmetrySet)
  | kindSet => exact onHub _ hexec (.take _ _ fun _ _ => .kindSet)
  | relaySet => exact onHub _ hexec (.take _ _ fun _ _ => .relaySet)
  | _ => exact absurd rfl hc

end

/-- Settles O6: no operation of an event touches the settings, and each request sets its own. -/
theorem settingsChangeByTheirOwnRequest : Obligations.SettingsChangeByTheirOwnRequest := by
  intro c s t hexec hpower hload hread
  obtain ⟨hplan, hbudget, hwindows, hgroups, htarget, hports, hlist, htiming, hasymmetry, hkinds, hrelay⟩ :=
    exec_setBy hexec hpower hload hread
  exact ⟨hplan, hbudget, hwindows, hgroups, htarget, hports, hlist, htiming, hasymmetry, hkinds, hrelay⟩

end Sys2Proof.Machine
end

section
/-! PROOFS. The accounts of the frame store over every step (R34 to R49). -/

namespace Sys2Proof.Machine

/-- The accounts of the store, with what they ask of the hub while the load runs. -/
def Hub.FiledKept (_ : Owed) (h : Hub) : Prop := h.LoadLegal ∧ h.Filed

section

variable {o : Owed} {h g : Hub} {n : Slot}

theorem Hub.FiledKept.alarm (hh : Hub.FiledKept o h) (q : Hub.Quiet h g) (hg : h.Untaking ∧ h.Filed → g.Untaking ∧ g.Filed) : Hub.FiledKept o g :=
  ⟨hh.1.quiet q, (hg ⟨hh.1.vacant.untaking, hh.2⟩).2⟩

theorem Hub.Filed.withAlarms (hh : h.Untaking ∧ h.Filed) (a : Alarms) : ({ h with alarms := a } : Hub).Untaking ∧ Hub.Filed { h with alarms := a } :=
  ⟨hh.1, hh.2.outside rfl rfl rfl rfl rfl⟩

theorem Hub.FiledKept.closed : Hub.Closed Hub.FiledKept where
  permit _ hh := hh
  slot _ hh := hh
  all hh := hh
  still hh hs := ⟨hh.1.still hs, hs.filed hh.1.vacant hh.2⟩
  raiseReported key reported hh := Hub.FiledKept.alarm hh (Hub.raiseReported_quiet _ key reported) fun hf => Hub.Filed.alarmClosed.raiseReported hf _ _
  clear key hh := Hub.FiledKept.alarm hh (Hub.clear_quiet _ key) fun hf => Hub.Filed.alarmClosed.clear hf _
  replace _ f _ hf hh := ⟨hh.1.replace f hf, hh.2.outside rfl rfl rfl rfl rfl⟩
  join n _ hh := ⟨hh.1.join, hh.2.outside (by rw [Hub.join_frame]) (by rw [Hub.join_frame]) (by rw [Hub.join_frame]) (by rw [Hub.join_frame])
    (by rw [Hub.join_frame])⟩
  unjoin n hh := ⟨hh.1.unjoin n, hh.2.outside rfl rfl rfl rfl rfl⟩
  serve {o h} hstirs hh := by
    have hl : h.config.loading = false := hstirs.elim id fun ⟨_, k, n, hk, hn, he⟩ => he.trans (hk.1.vacant.not_loading hn)
    refine ⟨fun hloading => ?_, hh.2.outside (by rw [Hub.serve_frame]) (by rw [Hub.serve_frame]) (by rw [Hub.serve_frame]) (by rw [Hub.serve_frame])
      (by rw [Hub.serve_frame])⟩
    rw [Hub.serve_frame] at hloading
    rw [show h.config.loading = true from hloading] at hl
    cases hl
  trec _ _ _ _ hh := ⟨hh.1.congr rfl rfl rfl rfl fun _ hi => hi, hh.2.outside rfl rfl rfl rfl rfl⟩
  judge cause n hh := Hub.FiledKept.alarm hh (Hub.judgePermit_quiet _ cause n) fun hf => Hub.Filed.alarmClosed.judgePermit hf _ _
  close n hh := Hub.FiledKept.alarm hh ((Hub.judgePermit_quiet _ .slotState n).trans (Hub.judgeOutputs_quiet _)) fun hf =>
    Hub.Filed.alarmClosed.judgeOutputs (Hub.Filed.alarmClosed.judgePermit hf _ _)
  retime new hnew _ hh := ⟨hh.1.retime new hnew, hh.2.outside rfl rfl rfl rfl rfl⟩
  judgeAll hh := Hub.FiledKept.alarm hh ((Hub.judgePermits_quiet _ _).trans (Hub.judgeOutputs_quiet _)) fun hf =>
    Hub.Filed.alarmClosed.judgeOutputs (Hub.Filed.alarmClosed.judgePermits hf _)
  acked keys hh := Hub.FiledKept.alarm hh ((Hub.withAlarms_quiet _ _).trans (Hub.changedAll_quiet _ _ keys _)) fun hf =>
    Hub.Filed.alarmClosed.changedAll (Hub.Filed.withAlarms hf _) _ _
  purged {h} hh := Hub.FiledKept.alarm hh (Hub.purged_quiet h) fun hf => Hub.Filed.alarmClosed.judgeOutputs (Hub.Filed.withAlarms hf h.alarms.purge)

theorem Hub.Filed.of_empty (hstore : h.store.Legal) (hframes : h.store.frames = []) (hports : ∀ n : Slot, h.ports[n].ids = [])
    (hlinks : ∀ n : Slot, h.links[n].tx = none) : h.Filed := by
  have hrefs : h.references = [] := List.eq_nil_iff_forall_not_mem.mpr fun id hid => by
    obtain ⟨n, hn⟩ := Hub.mem_references.mp hid
    rw [hports n] at hn
    cases hn
  have hentries (m : Slot) : h.ports[m].entries = [] := (List.append_eq_nil_iff.mp (hports m)).1
  refine ⟨hstore, ?_, fun id => ?_, fun m x hx => ?_, fun m => ?_, fun _ => hrefs⟩
  · rw [hframes]
    nofun
  · rw [hrefs, Store.refsOf, (h.store.find_eq_none_iff id).mpr (by rw [hframes]; nofun)]
    rfl
  · rw [hlinks m] at hx
    cases hx
  · unfold Hub.occupancy
    rw [hentries m]
    exact Nat.zero_le _

/-- With no entry at any port, any settings are met. -/
theorem Hub.Filed.retabled (hrefs : h.references = []) (hstore : g.store = h.store) (hports : g.ports = h.ports) (hlinks : g.links = h.links)
    (hf : h.Filed) : g.Filed := by
  have hsame : g.references = [] := by
    rw [← hrefs]
    unfold Hub.references
    rw [hports]
  have hentries (m : Slot) : g.ports[m].entries = [] := by
    refine List.eq_nil_iff_forall_not_mem.mpr fun id hid => ?_
    have hmem := Hub.mem_references.mpr ⟨m, List.mem_append_left _ hid⟩
    rw [hsame] at hmem
    cases hmem
  refine ⟨hstore ▸ hf.store, hstore ▸ hf.positive, fun id => ?_, fun m x hx => ?_, fun m => ?_, fun _ => hsame⟩
  · rw [hstore, hf.counted id, hsame, hrefs]
  · rw [hports]
    exact hf.heads m x (hlinks ▸ hx)
  · unfold Hub.occupancy
    rw [hentries m]
    exact Nat.zero_le _

theorem Hub.Filed.afterReset (h : Hub) (kind : ResetKind) (strap : Bool) : (h.afterReset kind strap).Filed :=
  .of_empty (Hub.kept_storeLegal.reset h kind strap) rfl (by decide : ∀ n : Slot, ({} : Hub).ports[n].ids = [])
    (by decide : ∀ n : Slot, ({} : Hub).links[n].tx = none)

/-- New settings whose port limits are met. -/
theorem Hub.Filed.admits {tables : Tables} (hlimits : ∀ m : Slot, tables.ports[m] = h.tables.ports[m] ∨ h.occupancy m ≤ tables.ports[m].limit)
    (hf : h.Filed) : Hub.Filed { h with tables } :=
  ⟨hf.store, hf.positive, hf.counted, hf.heads, fun m => (hlimits m).elim (fun he => by
    show h.occupancy m ≤ tables.ports[m].limit
    rw [he]
    exact hf.room m) id, hf.still⟩

theorem Hub.FiledKept.plan (plan : Vector PlanEntry 12) (hh : Hub.FiledKept .nothing h) :
    Hub.FiledKept .nothing ({ h with tables := { h.tables with plan } } : Hub).judgeOutputs := by
  have hset : Hub.FiledKept .nothing { h with tables := { h.tables with plan } } := ⟨hh.1, hh.2.outside rfl rfl rfl rfl rfl⟩
  generalize ({ h with tables := { h.tables with plan } } : Hub) = g at hset ⊢
  exact Hub.FiledKept.alarm hset (Hub.judgeOutputs_quiet _) fun hf => Hub.Filed.alarmClosed.judgeOutputs hf

theorem Hub.FiledKept.kind (kind : AlarmKind) (e : KindEntry) (hh : Hub.FiledKept .nothing h) : Hub.FiledKept .nothing (h.setKind kind e) := by
  have hset : Hub.FiledKept .nothing { h with tables := { h.tables with kinds := h.tables.kinds.set kind.idx e } } :=
    ⟨hh.1, hh.2.outside rfl rfl rfl rfl rfl⟩
  refine ⟨hset.1.quiet (Hub.setKind_quiet h kind e), ?_⟩
  unfold Hub.setKind
  exact (Hub.Filed.alarmClosed.changedAll (Hub.Filed.withAlarms ⟨hset.1.vacant.untaking, hset.2⟩ _) _ _).2

theorem Hub.FiledKept.settles : Hub.Settles Hub.FiledKept where
  toClosed := Hub.FiledKept.closed
  loads hh := hh.1
  reset h kind strap := ⟨(Hub.Ready.afterReset h kind strap).2.1, .afterReset h kind strap⟩
  load {h} tables cands c hl hc hh := by
    refine ⟨fun hloading => ?_, hh.2.retabled (hh.2.still hl) rfl rfl rfl⟩
    rw [show c.loading = true from hloading] at hc
    cases hc
  debounce {h} _ hl hh := by
    refine ⟨fun hloading => ?_, hh.2.outside rfl rfl rfl rfl rfl⟩
    rw [show h.config.loading = true from hloading] at hl
    cases hl
  settled tables ht hh := ⟨hh.1, hh.2.admits ht.limits⟩
  plan plan hh := hh.plan plan
  kind kind e hh := hh.kind kind e
  relist {o h} new hl _ hh := by
    refine ⟨fun hloading => ?_, hh.2.outside rfl rfl rfl rfl rfl⟩
    rw [show h.config.loading = true from hloading] at hl
    cases hl

/-! ## The start-up event -/

/-- A slot that the service of the list powers takes no agent frame. -/
theorem Hub.LoadLegal.serve_untaking (hload : h.LoadLegal) : h.serve.1.Untaking := by
  intro hl m place
  have hempty := ((hload (by rw [Hub.serve_frame] at hl; exact hl)).1 m).1
  rcases h.serve_slot m with he | ⟨-, he⟩
  · rw [he, hempty]
    cases place <;> rfl
  · rw [he]
    show (if h.slots[m].pwrGood then SlotState.resetHold else .powering).takesAgent place = false
    split <;> cases place <;> rfl

theorem AlarmClosed.announceGrants {P : Hub → Prop} (hP : AlarmClosed P) (gs : List (Slot × Bool)) (hh : P h) : P (h.announceGrants gs) := by
  unfold Hub.announceGrants
  refine foldl_keeps (P := P) (fun g p hg => ?_) gs hh
  have hcleared : P (g.clearWait p.1 p.2) := by
    unfold Hub.clearWait
    split
    · exact hP.clear hg _
    · exact hg
  have htold : P ((g.clearWait p.1 p.2).slotNotice p.1 .seated .powering .powerGranted) := hP.notice _ _ _ hcleared
  unfold Hub.announceGrant
  extract_lets k
  split
  · exact hP.notice _ _ _ htold
  · exact htold

theorem Hub.Filed.startUp (hstart : h.StartUpLegal) (hf : h.Filed) : h.startUp.Filed := by
  obtain ⟨hload, hseated⟩ := Hub.FiledKept.closed.startSeated hstart ⟨hstart.1, hf⟩
  rw [Hub.startUp_eq]
  have hserved : h.startSeated.serve.1.Untaking ∧ h.startSeated.serve.1.Filed :=
    ⟨hload.serve_untaking, hseated.outside (by rw [Hub.serve_frame]) (by rw [Hub.serve_frame]) (by rw [Hub.serve_frame]) (by rw [Hub.serve_frame])
      (by rw [Hub.serve_frame])⟩
  exact (Hub.Filed.alarmClosed.announceGrants _ (foldl_keeps (P := fun g : Hub => g.Untaking ∧ g.Filed)
    (f := fun (g : Hub) n => g.notice Code.slotChanged (.slotChanged n .empty .seated .inserted none g.slots[n].entry))
    (fun g _ hg => Hub.Filed.alarmClosed.notice g _ _ hg) _ hserved)).2

end

/-- Settles O11: each change of an entry changes the references of its frame by as many, and every frame placed fits. -/
theorem storeStaysLegal : Obligations.StoreStaysLegal := by
  intro s t hst hstore
  have hkept : t.hub.store.Legal := Hub.kept_storeLegal.effect (step_effect s t hst).2 trivial hstore
  refine ⟨hkept, fun hstart hentries => ?_⟩
  have hf := s.hub.filed_iff.mpr ⟨hstore, hentries⟩
  rcases Hub.FiledKept.settles.step_or_startUp hst ⟨hstart.1, hf⟩ with ⟨-, hfiled⟩ | he
  · exact (t.hub.filed_iff.mp hfiled).2
  · rw [he]
    exact (s.hub.startUp.filed_iff.mp (hf.startUp hstart)).2

end Sys2Proof.Machine
end

section
/-! PROOFS. What the Alarm Unit tells of a change (section 8.6): permits judged with their updates on the TIMING queues, notices, and one relay frame
on the CONTROL queue of the relay slot. -/

namespace Sys2Proof.Machine

/-- A property of the hub that is kept by a change of the alarm table and by what is told of it, fence requests aside: permits, notices,
PERMIT_UPDATE frames on TIMING queues, and ALARM_RELAY frames on the CONTROL queue of the relay slot. -/
structure ToldClosed (P : Hub → Prop) : Prop where
  alarms : ∀ h a, P h → P { h with alarms := a }
  notice : ∀ h code body, P h → P (h.notice code body)
  permit : ∀ h n b, P h → P (h.modTrec n fun r => { r with granted := b })
  refusal : ∀ h, P h → P { h with agent := { h.agent with reserveRefusals := h.agent.reserveRefusals + 1 } }
  update : ∀ h n frame, h.slots[n].state.takesAgent .timing → h.store.freeReserve ≠ 0 → P h →
    P (({ h with store := h.store.put frame true 1 }.modPort n (·.enter .timing h.store.nextId)).schedule n)
  relay : ∀ h n frame, h.tables.relay = some n → h.slots[n].state = .forwarding → frame.kind = Kind.alarmRelay → h.store.freeReserve ≠ 0 → P h →
    P (({ h with store := h.store.put frame true 1 }.modPort n (·.enter .control h.store.nextId)).schedule n)

/-- A record without a slot fires no fence. -/
theorem Hub.fireFence_of_source_none (h : Hub) {key : AlarmKey} (hsource : key.source = none) : h.fireFence key = h := by
  unfold Hub.fireFence
  rw [hsource]
  split
  · next hnone =>
    cases hnone
  · rfl

namespace ToldClosed

section again

variable {P : Hub → Prop} (hP : ToldClosed P) {again : AlarmKey → Hub → Hub} {h : Hub}

include hP

theorem alarmNotice (hh : P h) (position : Nat) (r : AlarmRec) (reason : AlarmReason) : P (h.alarmNotice position r reason) := by
  unfold Hub.alarmNotice
  split
  · exact hP.notice _ _ _ hh
  · exact hh

theorem changePermit (hh : P h) (cause : PermitReason) (n : Slot) : P (Hub.changePermit cause h n) := by
  unfold Hub.changePermit
  simp only
  split
  · exact hh
  · exact hP.notice _ _ _ (hP.permit _ _ _ hh)

variable (hagain : ∀ g, P g → P (again (.hub .agentOverload) g))

include hagain

theorem updateWith (hh : P h) (n : Slot) (frame : Frame) : P (h.placeWith again n .timing frame).1 := by
  unfold Hub.placeWith
  split
  · exact hh
  · next htakes =>
    simp only [if_neg (show Place.timing ≠ .identify by decide)]
    split
    · exact hagain _ (hP.refusal _ hh)
    · next hroom => exact hP.update _ _ _ (by simpa using htakes) hroom hh

theorem relayWith (hh : P h) (position : Nat) (r : AlarmRec) (reason : AlarmReason) : P (h.relayWith again position r reason) := by
  unfold Hub.relayWith
  split
  · next n hrelay =>
    split
    · next hserves =>
      have hs : h.slots[n].state = .forwarding := by simpa using (Bool.and_eq_true_iff.mp hserves).2
      unfold Hub.placeWith
      split
      · exact hh
      · simp only [if_neg (show Place.control ≠ .identify by decide)]
        split
        · exact hagain _ (hP.refusal _ hh)
        · next hroom => exact hP.relay _ _ _ hrelay hs rfl hroom hh
    · exact hh
  · exact hh

theorem tellWith (hh : P h) (reason : AlarmReason) (changed : Nat × AlarmRec) : P (Hub.tellWith again reason h changed) :=
  hP.relayWith hagain (hP.alarmNotice hh _ _ _) _ _ _

theorem judgePermitsWith (hh : P h) (cause : PermitReason) (slots : List Slot) : P (h.judgePermitsWith again cause slots) :=
  foldl_keeps (P := P) (fun _ p hg => hP.updateWith hagain hg p.1 _) _ (foldl_keeps (P := P) (fun _ n hg => hP.changePermit hg cause n) _ hh)

theorem changedWith {old : Hub} {key : AlarmKey} (hfence : ∀ g, P g → P (g.fireFence key)) (hh : P h) (reason : AlarmReason) :
    P (Hub.changedWith again old key reason h) := by
  unfold Hub.changedWith Hub.judgeWithheldWith Hub.judgeOutputs
  refine foldl_keeps (P := P) (fun _ c hg => hP.tellWith hagain hg reason c) _ (hP.alarms _ _ (hP.judgePermitsWith hagain ?_ _ _))
  split
  · exact hfence _ hh
  · exact hh

end again

section

variable {P : Hub → Prop} (hP : ToldClosed P) {again : AlarmKey → Hub → Hub} {h : Hub}

include hP

theorem raiseWith (hagain : ∀ (k : AlarmKey) g, k.source = none → P g → P (again k g)) {key : AlarmKey} (hfence : ∀ g, P g → P (g.fireFence key))
    (hh : P h) (reported : Option Severity) : P (h.raiseWith again key reported) := by
  have hover (g : Hub) (hg : P g) : P (again (.hub .agentOverload) g) := hagain _ g rfl hg
  obtain ⟨p, -, ⟨reason, hr⟩ | ⟨-, -, hr⟩⟩ | ⟨-, ⟨a, -, hr⟩ | ⟨-, hr⟩⟩ := h.raiseWith_cases again key reported
  · rw [hr]
    exact hP.changedWith hover hfence (hP.alarms _ _ hh) _
  · rw [hr]
    exact hP.alarms _ _ (hP.alarms _ _ hh)
  · rw [hr]
    exact hP.changedWith hover hfence (hP.alarms _ _ hh) _
  · rw [hr]
    exact hagain _ _ rfl hh

theorem raiseHub (depth : Nat) {key : AlarmKey} (hsource : key.source = none) (hh : P h) : P (Hub.raiseAt depth key none h) := by
  induction depth generalizing h key with
  | zero => exact hh
  | succ depth ih =>
    exact hP.raiseWith (fun _ _ hk hg => ih hk hg) (fun g hg => by rw [g.fireFence_of_source_none hsource]; exact hg) hh none

theorem raise {key : AlarmKey} (hfence : ∀ g, P g → P (g.fireFence key)) (hh : P h) : P (h.raise key) :=
  hP.raiseWith (again := fun k h => Hub.raiseAt 7 k none h) (fun _ _ hk hg => hP.raiseHub 7 hk hg) hfence hh none

end

end ToldClosed

/-- No fence is requested by what is told of a change. -/
theorem ToldClosed.fences (l : List Slot) : ToldClosed fun h => h.manager.fenceRequests = l where
  alarms _ _ hh := hh
  notice _ _ _ hh := hh
  permit _ _ _ hh := hh
  refusal _ hh := hh
  update h n frame _ _ hh := by
    rw [(Hub.schedule_others _ _).1]
    exact hh
  relay h n frame _ _ _ _ hh := by
    rw [(Hub.schedule_others _ _).1]
    exact hh

/-! ## A frame placed -/

theorem Hub.placed_store (h : Hub) (n : Slot) (place : Place) (frame : Frame) :
    (({ h with store := h.store.put frame true 1 }.modPort n (·.enter place h.store.nextId)).schedule n).store = h.store.put frame true 1 := by
  rw [(Hub.schedule_others _ _).1]
  rfl

theorem Hub.placed_port (h : Hub) (n : Slot) (place : Place) (frame : Frame) (m : Slot) :
    (({ h with store := h.store.put frame true 1 }.modPort n (·.enter place h.store.nextId)).schedule n).ports[m] =
      if n = m then h.ports[m].enter place h.store.nextId else h.ports[m] := by
  rw [Hub.schedule_ports]
  split
  · next hm =>
    subst hm
    exact Hub.modPort_self { h with store := h.store.put frame true 1 } n _
  · next hm => exact Hub.modPort_other { h with store := h.store.put frame true 1 } n m _ hm

/-! ## A record that an event does not change -/

/-- A record that stands, of another key than AGENT_OVERLOAD's, stays as it is while only AGENT_OVERLOAD is raised. -/
theorem AlarmSteps.stands {x : AlarmRec} (hover : x.key ≠ .hub .agentOverload) :
    AlarmSteps (fun key => key = .hub .agentOverload ∨ key.kind = .alarmTableFull) (fun _ => False)
      fun h => x ∈ h.alarms.recs ∧ h.alarms.need [.hub .agentOverload] ≤ 63 where
  toTellClosed := TellClosed.ofRecords fun full recs => x ∈ recs ∧ ({ full, recs } : Alarms).need [.hub .agentOverload] ≤ 63
  renewed h key reported hk hh := by
    refine ⟨?_, (h.alarms.need_update _ key (·.raised (h.kindEntry key.kind) reported h.stamp) fun _ => rfl).trans_le hh.2⟩
    show x ∈ (h.alarms.update key _).recs
    unfold Alarms.update
    split
    · exact hh.1
    · next hkind =>
      refine List.mem_map.mpr ⟨x, hh.1, if_neg ?_⟩
      rw [hk.resolve_right hkind]
      exact hover
  created h key reported a hk hnone hc hh := by
    refine ⟨?_, Alarms.need_create (r := h.newRecord key reported) (hk.imp_left fun he => List.mem_singleton.mpr he) hnone hc hh.2⟩
    show x ∈ a.recs
    unfold Alarms.create at hc
    split at hc
    · cases hc
      exact hh.1
    · next hkind =>
      have hroom := (Alarms.room_of_need hh.2 (key := key) (List.mem_singleton.mpr (hk.resolve_right hkind))).resolve_right fun hne => hne hnone
      rw [if_pos hroom] at hc
      cases hc
      exact List.mem_append_left _ hh.1
  lapsed _ _ hk _ := hk.elim
  overload := .inl rfl
  tableFull := .inr rfl

theorem Alarms.need_singleton_le (key : AlarmKey) {a : Alarms} (hlen : a.recs.length ≤ 62) : a.need [key] ≤ 63 :=
  (a.need_le [key]).trans (Nat.add_le_add_right hlen 1)

end Sys2Proof.Machine
end

section
/-! PROOFS. CARD_ALARM: the record, the notice of it and the relay frame (section 8.6, R146). -/

namespace Sys2Proof.Machine

/-! ## Where a record stands in the table -/

section

variable {a a' : Alarms} {key : AlarmKey} {x : AlarmRec}

theorem findIdx_congr_mem {α : Type} {l : List α} {p q : α → Bool} (hpq : ∀ y ∈ l, p y = q y) : l.findIdx p = l.findIdx q := by
  induction l with
  | nil => rfl
  | cons y l ih => rw [List.findIdx_cons, List.findIdx_cons, hpq y List.mem_cons_self, ih fun z hz => hpq z (List.mem_cons_of_mem _ hz)]

theorem Alarms.Legal.find_of_mem (ha : a.Legal) (hx : x ∈ a.recs) : a.find x.key = some (a.recs.idxOf x + 1, x) := by
  obtain ⟨-, hkinds, -, hnodup⟩ := ha
  have hsame (y : AlarmRec) (hy : y ∈ a.recs) : (y.key == x.key) = (y == x) := by
    rw [Bool.eq_iff_iff, beq_iff_eq, beq_iff_eq]
    exact ⟨List.inj_on_of_nodup_map hnodup hy hx, congrArg AlarmRec.key⟩
  have hfound : a.recs.find? (fun r => r.key == x.key) = some x := by
    cases hfind : a.recs.find? fun r => r.key == x.key with
    | none => exact absurd (List.find?_eq_none.mp hfind x hx) (by simp)
    | some y =>
      have hy := List.find?_some hfind
      rw [hsame y (List.mem_of_find?_eq_some hfind)] at hy
      rw [beq_iff_eq.mp hy]
  have hidx : a.recs.findIdx (fun r => r.key == x.key) = a.recs.idxOf x := by
    unfold List.idxOf
    exact findIdx_congr_mem hsame
  unfold Alarms.find
  rw [if_neg (hkinds x hx), hfound, hidx]

theorem Alarms.find_none_of_forall (hkind : key.kind ≠ .alarmTableFull) (hnone : ∀ x ∈ a.recs, x.key ≠ key) : a.find key = none := by
  unfold Alarms.find
  rw [if_neg hkind, List.find?_eq_none.mpr fun y hy => by simpa using hnone y hy]

/-- A changed record keeps its position. -/
theorem Alarms.find_update (hkind : key.kind ≠ .alarmTableFull) {f : AlarmRec → AlarmRec} (hf : ∀ r, (f r).key = r.key) {p : Nat × AlarmRec}
    (hfind : a.find key = some p) : (a.update key f).find key = some (p.1, f p.2) := by
  have hkeys (r : AlarmRec) : (if r.key = key then f r else r).key = r.key := by
    split
    · exact hf r
    · rfl
  unfold Alarms.find at hfind ⊢
  rw [if_neg hkind] at hfind ⊢
  unfold Alarms.update
  rw [if_neg hkind]
  simp only [List.find?_map, List.findIdx_map, Function.comp_def, hkeys]
  split at hfind
  · next r hr =>
    cases hfind
    have hrk : r.key = key := by simpa using List.find?_some hr
    rw [hr, Option.map_some, if_pos hrk]
  · cases hfind

/-- A new record stands last. -/
theorem Alarms.find_created (hkind : x.key.kind ≠ .alarmTableFull) (hnone : ∀ y ∈ a.recs, y.key ≠ x.key) (c : Counter) :
    ({ a with recs := a.recs ++ [x], changeNumber := c } : Alarms).find x.key = some (a.recs.length + 1, x) := by
  have hfind : a.recs.find? (fun r => r.key == x.key) = none := List.find?_eq_none.mpr fun y hy => by simpa using hnone y hy
  have hidx : a.recs.findIdx (fun r => r.key == x.key) = a.recs.length := List.findIdx_eq_length.mpr fun y hy => by simpa using hnone y hy
  unfold Alarms.find
  rw [if_neg hkind, List.find?_append, hfind, List.findIdx_append, hidx]
  simp

theorem Alarms.mem_recs_update (hx : x ∈ a.recs) (f : AlarmRec → AlarmRec) (hkind : key.kind ≠ .alarmTableFull) :
    (x.key = key → f x ∈ (a.update key f).recs) ∧ (x.key ≠ key → x ∈ (a.update key f).recs) := by
  unfold Alarms.update
  rw [if_neg hkind]
  exact ⟨fun he => List.mem_map.mpr ⟨x, hx, if_pos he⟩, fun hne => List.mem_map.mpr ⟨x, hx, if_neg hne⟩⟩

end

/-! ## The permits, where the kind does not withdraw them -/

section

variable {h : Hub} {key : AlarmKey}

theorem AlarmRec.counts_of_action {e : KindEntry} (haction : e.action ≠ .withdrawPermit) (r : AlarmRec) : r.counts e = false := by
  unfold AlarmRec.counts
  rw [show (e.action == Action.withdrawPermit) = false from beq_false_of_ne haction, Bool.and_false, Bool.false_and]

theorem Hub.alarmWithholds_created {r : AlarmRec} (haction : (h.kindEntry r.key.kind).action ≠ .withdrawPermit) (c : Counter) (n : Slot) :
    ({ h with alarms := { h.alarms with recs := h.alarms.recs ++ [r], changeNumber := c } } : Hub).alarmWithholds n = h.alarmWithholds n := by
  unfold Hub.alarmWithholds Alarms.all
  simp only [← List.append_assoc, List.any_append]
  rw [show ({ h with alarms := { h.alarms with recs := h.alarms.recs ++ [r], changeNumber := c } } : Hub).kindEntry = h.kindEntry from rfl]
  simp only [List.any_cons, List.any_nil, AlarmRec.counts_of_action haction, Bool.false_and, Bool.or_false]

theorem Hub.alarmWithholds_updated {f : AlarmRec → AlarmRec} (hf : ∀ r, (f r).key = r.key) (hkind : key.kind ≠ .alarmTableFull)
    (haction : (h.kindEntry key.kind).action ≠ .withdrawPermit) (n : Slot) :
    ({ h with alarms := h.alarms.update key f } : Hub).alarmWithholds n = h.alarmWithholds n := by
  unfold Hub.alarmWithholds Alarms.all Alarms.update
  rw [if_neg hkind]
  simp only [List.any_append, List.any_map]
  rw [show ({ h with alarms := { h.alarms with recs := h.alarms.recs.map fun r => if r.key = key then f r else r } } : Hub).kindEntry = h.kindEntry
    from rfl]
  congr 1
  refine congrArg (List.any h.alarms.recs) (funext fun r => ?_)
  simp only [Function.comp_apply]
  split
  · next he => rw [AlarmRec.counts_of_action (by rw [hf, he]; exact haction), AlarmRec.counts_of_action (by rw [he]; exact haction)]; rfl
  · rfl

end

/-! ## What is told of a change -/

/-- The hub with the fence request of a change handed over, and its outputs judged. -/
def Hub.fencedFor (h : Hub) (key : AlarmKey) (reason : AlarmReason) : Hub :=
  if reason = .created ∨ reason = .activated then h.fireFence key else h

section

variable {old h : Hub} {key : AlarmKey} {reason : AlarmReason} {p : Nat × AlarmRec}

theorem Hub.fireFence_frame (h : Hub) (key : AlarmKey) : h.fireFence key = { h with manager := (h.fireFence key).manager } := by
  unfold Hub.fireFence
  split
  · split <;> rfl
  · rfl

theorem Hub.fencedFor_frame (h : Hub) (key : AlarmKey) (reason : AlarmReason) :
    h.fencedFor key reason = { h with manager := (h.fencedFor key reason).manager } := by
  unfold Hub.fencedFor
  split
  · exact h.fireFence_frame key
  · rfl

/-- Where no permit is withdrawn, one record is told of. -/
theorem Hub.changedWith_eq {again : AlarmKey → Hub → Hub} (hfind : h.alarms.find key = some p)
    (hsame : ∀ n : Slot, h.alarmWithholds n = old.alarmWithholds n) :
    Hub.changedWith again old key reason h = Hub.tellWith again reason (h.fencedFor key reason).judgeOutputs p := by
  have hnone : (allSlots.filter fun n => old.alarmWithholds n != (h.fencedFor key reason).alarmWithholds n) = [] := by
    refine List.filter_eq_nil_iff.mpr fun n _ => ?_
    rw [show (h.fencedFor key reason).alarmWithholds n = h.alarmWithholds n by rw [Hub.fencedFor_frame]; rfl, hsame n]
    simp
  unfold Hub.changedWith Hub.judgeWithheldWith
  rw [hfind]
  show Hub.tellWith again reason (Hub.judgeOutputs (Hub.judgePermitsWith again PermitReason.alarmAction
    (allSlots.filter fun n => old.alarmWithholds n != (h.fencedFor key reason).alarmWithholds n) (h.fencedFor key reason))) p = _
  rw [hnone]
  rfl

/-- The notice of a change, with no relay slot. -/
theorem Hub.changedWith_port {again : AlarmKey → Hub → Hub} (hfind : h.alarms.find key = some p)
    (hsame : ∀ n : Slot, h.alarmWithholds n = old.alarmWithholds n) (hrelay : h.tables.relay = none) :
    (Hub.changedWith again old key reason h).port =
      if (h.kindEntry p.2.key.kind).notify then h.port.notice Code.alarmChanged (.alarmChanged p.1 p.2 reason) else h.port := by
  rw [Hub.changedWith_eq hfind hsame, Hub.fencedFor_frame]
  generalize (h.fencedFor key reason).manager = manager
  unfold Hub.tellWith Hub.relayWith Hub.alarmNotice
  rw [show (Hub.judgeOutputs { h with manager }).kindEntry = h.kindEntry from rfl]
  by_cases hn : (h.kindEntry p.2.key.kind).notify = true
  · rw [if_pos hn, if_pos hn]
    rw [show ((Hub.judgeOutputs { h with manager }).notice Code.alarmChanged (.alarmChanged p.1 p.2 reason)).tables.relay = none from hrelay]
    rfl
  · rw [if_neg hn, if_neg hn]
    rw [show (Hub.judgeOutputs { h with manager }).tables.relay = none from hrelay]
    rfl

theorem Hub.placeWith_of_room {again : AlarmKey → Hub → Hub} {n : Slot} {place : Place} {frame : Frame} (hplace : place ≠ .identify)
    (htakes : h.slots[n].state.takesAgent place = true) (hroom : h.store.freeReserve ≠ 0) :
    (h.placeWith again n place frame).1 = ({ h with store := h.store.put frame true 1 }.modPort n (·.enter place h.store.nextId)).schedule n := by
  unfold Hub.placeWith
  simp only [htakes, if_neg hplace, if_neg hroom]
  rfl

/-- The relay frame of a change, where a block is free. -/
theorem Hub.changedWith_relay {again : AlarmKey → Hub → Hub} (hfind : h.alarms.find key = some p)
    (hsame : ∀ n : Slot, h.alarmWithholds n = old.alarmWithholds n) {m : Slot} (hrelay : h.tables.relay = some m)
    (hkind : (h.kindEntry p.2.key.kind).relay = true) (hs : h.slots[m].state = .forwarding) (hfree : h.store.freeReserve ≠ 0) :
    (Hub.changedWith again old key reason h).ports[m].controlQ = h.ports[m].controlQ ++ [h.store.nextId] ∧
      ∃ f ∈ (Hub.changedWith again old key reason h).store.frames, f.id = h.store.nextId ∧
        f.frame = agentFrame .control Kind.alarmRelay 0 0 m (encAlarmChange p.1 p.2 reason) := by
  have hnoticed : ∃ k : Hub, k.tables = h.tables ∧ k.slots = h.slots ∧ k.store = h.store ∧ k.ports = h.ports ∧
      Hub.changedWith again old key reason h = k.relayWith again p.1 p.2 reason := by
    refine ⟨(h.fencedFor key reason).judgeOutputs.alarmNotice p.1 p.2 reason, ?_, ?_, ?_, ?_, Hub.changedWith_eq hfind hsame⟩
    all_goals
      rw [Hub.fencedFor_frame]
      unfold Hub.alarmNotice
      split <;> rfl
  obtain ⟨k, htables, hslots, hstore, hports, he⟩ := hnoticed
  have hserves : ((k.kindEntry p.2.key.kind).relay && k.slots[m].state == .forwarding) = true := by
    rw [show k.kindEntry p.2.key.kind = h.kindEntry p.2.key.kind by unfold Hub.kindEntry; rw [htables], hkind, hslots, hs]
    rfl
  have hplaced : k.relayWith again p.1 p.2 reason =
      (k.placeWith again m .control (agentFrame .control Kind.alarmRelay 0 0 m (encAlarmChange p.1 p.2 reason))).1 := by
    unfold Hub.relayWith
    rw [show k.tables.relay = some m by rw [htables, hrelay]]
    exact if_pos hserves
  have hstored := Hub.placeWith_of_room (again := again) (h := k) (n := m) (place := .control)
    (frame := agentFrame .control Kind.alarmRelay 0 0 m (encAlarmChange p.1 p.2 reason)) (by decide) (by rw [hslots, hs]; rfl)
    (by rw [hstore]; exact hfree)
  rw [he, hplaced, hstored, Hub.placed_store, Hub.placed_port]
  rw [if_pos rfl, hports, hstore]
  exact ⟨rfl, _, List.mem_append_right _ (List.mem_singleton_self _), rfl, rfl⟩

end

/-- What is told of a change of one record, where its kind does not withdraw permits: the notice, with no relay slot, and the relay frame (R150,
R152). -/
structure Hub.ToldOf (h t : Hub) (position : Nat) (x : AlarmRec) (reason : AlarmReason) : Prop where
  tells : h.tables.relay = none ∧ (h.kindEntry x.key.kind).action ≠ .withdrawPermit →
    t.port = if (h.kindEntry x.key.kind).notify then h.port.notice Code.alarmChanged (.alarmChanged position x reason) else h.port
  relays : ∀ m : Slot, h.tables.relay = some m → (h.kindEntry x.key.kind).relay = true → (h.kindEntry x.key.kind).action ≠ .withdrawPermit →
    h.slots[m].state = .forwarding → h.store.freeReserve ≠ 0 →
    t.ports[m].controlQ = h.ports[m].controlQ ++ [h.store.nextId] ∧ ∃ f ∈ t.store.frames, f.id = h.store.nextId ∧
      f.frame = agentFrame .control Kind.alarmRelay 0 0 m (encAlarmChange position x reason)

section

variable {h : Hub} {key : AlarmKey} {reason : AlarmReason} {depth : Nat} {x : AlarmRec}

/-- The Alarm Unit's own raises, to a depth. -/
def raiseTo (depth : Nat) (key : AlarmKey) (h : Hub) : Hub := Hub.raiseAt depth key none h

theorem Hub.created_told (hkind : x.key.kind ≠ .alarmTableFull) (hnone : ∀ y ∈ h.alarms.recs, y.key ≠ x.key) (c : Counter) :
    Hub.ToldOf h (Hub.changedWith (raiseTo depth) h x.key reason
      { h with alarms := { h.alarms with recs := h.alarms.recs ++ [x], changeNumber := c } }) (h.alarms.recs.length + 1) x reason where
  tells := fun ⟨hrelay, haction⟩ =>
    Hub.changedWith_port (h := { h with alarms := _ }) (Alarms.find_created hkind hnone c) (Hub.alarmWithholds_created haction c) hrelay
  relays _ hrelay hentry haction hs hfree :=
    Hub.changedWith_relay (h := { h with alarms := _ }) (Alarms.find_created hkind hnone c) (Hub.alarmWithholds_created haction c) hrelay hentry hs hfree

theorem Hub.updated_told {f : AlarmRec → AlarmRec} (hf : ∀ r, (f r).key = r.key) (hkind : x.key.kind ≠ .alarmTableFull) (ha : h.alarms.Legal)
    (hx : x ∈ h.alarms.recs) :
    Hub.ToldOf h (Hub.changedWith (raiseTo depth) h x.key reason { h with alarms := h.alarms.update x.key f }) (h.alarms.recs.idxOf x + 1) (f x)
      reason := by
  have hfind := Alarms.find_update hkind hf (ha.find_of_mem hx)
  have hsame (haction : (h.kindEntry (f x).key.kind).action ≠ .withdrawPermit) := Hub.alarmWithholds_updated (h := h) hf hkind (hf x ▸ haction)
  exact ⟨fun ⟨hrelay, haction⟩ => Hub.changedWith_port (h := { h with alarms := _ }) hfind (hsame haction) hrelay,
    fun _ hrelay hentry haction hs hfree => Hub.changedWith_relay (h := { h with alarms := _ }) hfind (hsame haction) hrelay hentry hs hfree⟩

/-- A record of the table after a change stands after what is told of it. -/
theorem Hub.changedWith_stands {old : Hub} (hx : x ∈ h.alarms.recs) (hover : x.key ≠ .hub .agentOverload) (hlen : h.alarms.recs.length ≤ 62) :
    x ∈ (Hub.changedWith (raiseTo depth) old key reason h).alarms.recs :=
  ((AlarmSteps.stands hover).changedWith (fun _ hg => (AlarmSteps.stands hover).raiseAt depth hg _ none (.inl rfl))
    ⟨hx, Alarms.need_singleton_le _ hlen⟩ key reason).1

/-- The fence requests after a change. -/
theorem Hub.changedWith_fences {old : Hub} : (Hub.changedWith (raiseTo depth) old key reason h).manager.fenceRequests =
    (h.fencedFor key reason).manager.fenceRequests := by
  have hP := ToldClosed.fences (h.fencedFor key reason).manager.fenceRequests
  have hagain (g : Hub) (hg : g.manager.fenceRequests = (h.fencedFor key reason).manager.fenceRequests) :
      (raiseTo depth (.hub .agentOverload) g).manager.fenceRequests = (h.fencedFor key reason).manager.fenceRequests := hP.raiseHub depth rfl hg
  unfold Hub.changedWith Hub.judgeWithheldWith Hub.judgeOutputs
  exact foldl_keeps (P := fun g : Hub => g.manager.fenceRequests = (h.fencedFor key reason).manager.fenceRequests)
    (fun _ c hg => hP.tellWith hagain hg reason c) _ (hP.alarms _ _ (hP.judgePermitsWith hagain rfl _ _))

/-! ## A raise and a clear of a card's record -/

theorem Hub.raiseReported_new {reported : Option Severity} (hkind : key.kind ≠ .alarmTableFull) (hnone : ∀ y ∈ h.alarms.recs, y.key ≠ key)
    (hlen : h.alarms.recs.length < 63) : h.raiseReported key reported = Hub.changedWith (raiseTo 7) h key .created
      { h with alarms := { h.alarms with recs := h.alarms.recs ++ [h.newRecord key reported], changeNumber := h.alarms.changeNumber + 1 } } := by
  have hfind := Alarms.find_none_of_forall hkind hnone
  have hcreate : h.alarms.create (h.newRecord key reported) =
      some { h.alarms with recs := h.alarms.recs ++ [h.newRecord key reported], changeNumber := h.alarms.changeNumber + 1 } := by
    unfold Alarms.create
    rw [if_neg (show (h.newRecord key reported).key.kind ≠ .alarmTableFull from hkind), if_pos hlen]
  show h.raiseWith (raiseTo 7) key reported = _
  obtain ⟨p, hp, -⟩ | ⟨-, ⟨a, ha, hr⟩ | ⟨hnew, -⟩⟩ := h.raiseWith_cases (raiseTo 7) key reported
  · rw [hfind] at hp
    cases hp
  · rw [hcreate] at ha
    cases ha
    exact hr
  · rw [hcreate] at hnew
    cases hnew

/-- A raise of a record that stands: it is renewed, and told of where it was not ACTIVE or its severity changes. -/
theorem Hub.raiseReported_standing {reported : Option Severity} (ha : h.alarms.Legal) (hx : x ∈ h.alarms.recs) :
    h.raiseReported x.key reported =
      if x.active = false then Hub.changedWith (raiseTo 7) h x.key .activated { h with alarms := h.renewed x.key reported }
      else if (x.raised (h.kindEntry x.key.kind) reported h.stamp).severity ≠ x.severity then
        Hub.changedWith (raiseTo 7) h x.key .severity { h with alarms := h.renewed x.key reported }
      else ({ h with alarms := h.renewed x.key reported } : Hub).judgeOutputs := by
  show h.raiseWith (raiseTo 7) x.key reported = _
  unfold Hub.raiseWith
  simp only [ha.find_of_mem hx]
  cases x.active <;> rfl

theorem Hub.clear_standing (ha : h.alarms.Legal) (hx : x ∈ h.alarms.recs) (hactive : x.active = true) :
    h.clear x.key = Hub.changedWith (raiseTo 8) h x.key .cleared { h with alarms := h.lapsed x.key } := by
  obtain ⟨-, hr⟩ | ⟨hoff, -⟩ := h.clear_cases x.key
  · exact hr
  · unfold Hub.isActive at hoff
    rw [ha.find_of_mem hx] at hoff
    rw [show (some (h.alarms.recs.idxOf x + 1, x)).any (·.2.active) = x.active from rfl, hactive] at hoff
    cases hoff

theorem Hub.clear_of_inactive (ha : h.alarms.Legal) (hkind : key.kind ≠ .alarmTableFull) (hoff : ∀ x ∈ h.alarms.recs, x.key = key → x.active = false) :
    h.clear key = h := by
  obtain ⟨hon, -⟩ | ⟨-, hr⟩ := h.clear_cases key
  · rw [Hub.isActive_iff, (ha.inactive_iff hkind).mpr hoff] at hon
    cases hon
  · exact hr

end

end Sys2Proof.Machine
end

section
/-! PROOFS. CARD_ALARM, settled (section 8.6, R146). -/

namespace Sys2Proof.Machine

section

variable {h : Hub} {key : AlarmKey} {x : AlarmRec} {sev : Severity} {n : Slot} {code : BitVec 16}

theorem effectiveSeverity_card (e : KindEntry) (sev : Severity) : effectiveSeverity e .cardReported (some sev) = e.severity.getD sev := by
  unfold effectiveSeverity
  cases e.severity <;> rfl

/-- The key of a card's record. -/
def cardKey (n : Slot) (code : BitVec 16) : AlarmKey := { source := some n, kind := .cardReported, detail := code }

theorem cardKey_ne_full : (cardKey n code).kind ≠ .alarmTableFull := by
  unfold cardKey
  exact AlarmKind.noConfusion

theorem cardKey_ne_overload : cardKey n code ≠ .hub .agentOverload := fun he => AlarmKind.noConfusion (congrArg AlarmKey.kind he)

/-- The record of a raise, as it is made. -/
theorem Hub.newRecord_card (h : Hub) (n : Slot) (code : BitVec 16) (sev : Severity) : h.newRecord (cardKey n code) (some sev) =
    { key := cardKey n code, severity := (h.tables.kinds[AlarmKind.cardReported.idx].severity).getD sev, reported := some sev, active := true,
      acked := false, firstRaised := h.stamp, lastChange := h.stamp, occurrences := 1 } := by
  unfold Hub.newRecord
  rw [show (cardKey n code).kind = .cardReported from rfl, effectiveSeverity_card]
  rfl

/-- The record of a raise, as it is renewed. -/
theorem AlarmRec.raised_card (hx : x.key = cardKey n code) : x.raised (h.kindEntry (cardKey n code).kind) (some sev) h.stamp =
    { x with severity := (h.tables.kinds[AlarmKind.cardReported.idx].severity).getD sev, reported := some sev, active := true, acked := false,
             lastChange := h.stamp, occurrences := min 255 (x.occurrences + 1) } := by
  unfold AlarmRec.raised
  rw [hx, show (cardKey n code).kind = .cardReported from rfl, effectiveSeverity_card]
  rfl

/-- A card's frame of this kind, taken. -/
theorem exec_cardAlarm_of_taken {s : State} {e : InboxFrame} {rest : List InboxFrame} {raises : Bool} (he : s.hub.agent.inbox = e :: rest)
    (hk : e.frame.kind = Kind.cardAlarm) (hc : e.frame.cls = .control) (hp : parseCardAlarm e.frame.payload = some (code, raises, sev))
    (hs : s.hub.slots[e.slot].state = .forwarding ∨ s.hub.slots[e.slot].state = .draining ∨ s.hub.slots[e.slot].state = .fenced) :
    exec .cardAlarm s = .next { s with hub :=
      if raises then (s.hub.popInbox rest).raiseReported (cardKey e.slot code) (some sev) else (s.hub.popInbox rest).clear (cardKey e.slot code) } := by
  have hform : s.hub.formOk e.frame = true := (s.hub.formOk_iff e.frame).mpr (by simp only [hk, hc, hp, Option.isSome_some, and_self, or_true, true_or])
  have haccepts : s.hub.accepts e.frame e.slot = true := (Hub.accepts_cardAlarm_iff hk).mpr hs
  refine State.onHub_to ((Hub.dispatch_accepted _ he hk hform haccepts).trans ?_)
  rw [hp]
  rfl

/-- What a raise or a clear leaves of the inbox, the slots and the settings. -/
theorem Hub.cardAlarm_frame {g : Hub} {rest : List InboxFrame} (hands : Hub.HandsOn (h.popInbox rest) g) :
    g.agent.inbox = rest ∧ g.slots = h.slots ∧ g.tables = h.tables :=
  ⟨hands.inbox, hands.slots, hands.tables⟩

theorem Hub.renewed_mem (hx : x ∈ h.alarms.recs) (hkind : key.kind ≠ .alarmTableFull) (reported : Option Severity) :
    (x.key = key → x.raised (h.kindEntry key.kind) reported h.stamp ∈ (h.renewed key reported).recs) ∧
      (x.key ≠ key → x ∈ (h.renewed key reported).recs) :=
  Alarms.mem_recs_update hx _ hkind

theorem Hub.fireFence_of_find {p : Nat × AlarmRec} (hfind : h.alarms.find key = some p) (hsource : key.source = some n)
    (happlies : ((h.kindEntry key.kind).action == .fenceSlot && actionApplies key.kind p.2.severity) = true) :
    h.fireFence key = { h with manager := { h.manager with fenceRequests := h.manager.fenceRequests ++ [n] } } := by
  unfold Hub.fireFence
  rw [hfind, hsource]
  exact if_pos happlies

/-- A new record: what stands, what is told, and the fence. -/
theorem Hub.cardRaised_new (hnone : ∀ y ∈ h.alarms.recs, y.key ≠ cardKey n code) (hlen : h.alarms.recs.length < 62) :
    let t := h.raiseReported (cardKey n code) (some sev)
    let made := h.newRecord (cardKey n code) (some sev)
    (made ∈ t.alarms.recs ∧ Hub.ToldOf h t (h.alarms.recs.length + 1) made .created ∧
      (h.tables.kinds[AlarmKind.cardReported.idx].action = .fenceSlot → made.severity = .critical →
        t.manager.fenceRequests = h.manager.fenceRequests ++ [n])) ∧
    ∀ y ∈ h.alarms.recs, y.key ≠ .hub .agentOverload → y ∈ t.alarms.recs := by
  simp only
  rw [Hub.raiseReported_new cardKey_ne_full hnone (by omega)]
  have hlen' : (h.alarms.recs ++ [h.newRecord (cardKey n code) (some sev)]).length ≤ 62 := by
    rw [List.length_append, List.length_singleton]
    omega
  refine ⟨⟨?_, ?_, fun haction hcritical => ?_⟩, fun y hy hover => ?_⟩
  · exact Hub.changedWith_stands (List.mem_append_right _ (List.mem_singleton_self _)) cardKey_ne_overload hlen'
  · exact Hub.created_told (x := h.newRecord (cardKey n code) (some sev)) cardKey_ne_full hnone _
  · rw [Hub.changedWith_fences]
    have hfind := Alarms.find_created (a := h.alarms) (x := h.newRecord (cardKey n code) (some sev)) cardKey_ne_full hnone (h.alarms.changeNumber + 1)
    unfold Hub.fencedFor
    rw [if_pos (.inl rfl)]
    refine congrArg (·.manager.fenceRequests) (Hub.fireFence_of_find (h := { h with alarms := _ }) hfind rfl ?_)
    have haction' : (h.kindEntry (cardKey n code).kind).action = .fenceSlot := haction
    rw [Bool.and_eq_true, beq_iff_eq]
    refine ⟨haction', ?_⟩
    rw [hcritical]
    rfl
  · exact Hub.changedWith_stands (List.mem_append_left _ hy) hover hlen'

/-- A record that stands, raised. -/
theorem Hub.cardRaised_standing (ha : h.alarms.Legal) (hx : x ∈ h.alarms.recs) (hkey : x.key = cardKey n code) (hlen : h.alarms.recs.length < 62) :
    let t := h.raiseReported (cardKey n code) (some sev)
    let again := x.raised (h.kindEntry (cardKey n code).kind) (some sev) h.stamp
    (again ∈ t.alarms.recs ∧
      (x.active = false → Hub.ToldOf h t (h.alarms.recs.idxOf x + 1) again .activated) ∧
      (x.active = true → x.severity ≠ again.severity → Hub.ToldOf h t (h.alarms.recs.idxOf x + 1) again .severity) ∧
      (x.active = true → x.severity = again.severity → t.port = h.port ∧ t.store = h.store) ∧
      (x.active = true → t.manager.fenceRequests = h.manager.fenceRequests)) ∧
    ∀ y ∈ h.alarms.recs, y.key ≠ cardKey n code → y.key ≠ .hub .agentOverload → y ∈ t.alarms.recs := by
  simp only
  have hkind : x.key.kind ≠ .alarmTableFull := by
    rw [hkey]
    exact cardKey_ne_full
  have hrecs : (h.renewed x.key (some sev)).recs.length ≤ 62 := by
    unfold Hub.renewed
    rw [Alarms.update_recs_length]
    omega
  have htold (reason : AlarmReason) := Hub.updated_told (depth := 7) (reason := reason) (f := (·.raised (h.kindEntry x.key.kind) (some sev) h.stamp))
    (fun _ => rfl) hkind ha hx
  have hagain := (h.renewed_mem hx hkind (some sev)).1 rfl
  have hover : (x.raised (h.kindEntry x.key.kind) (some sev) h.stamp).key ≠ .hub .agentOverload := by
    show x.key ≠ _
    rw [hkey]
    exact cardKey_ne_overload
  rw [← hkey, Hub.raiseReported_standing ha hx]
  by_cases hactive : x.active = false
  · rw [if_pos hactive]
    refine ⟨⟨Hub.changedWith_stands hagain hover hrecs, fun _ => htold _, fun hon => ?_, fun hon => ?_, fun hon => ?_⟩, fun y hy hne hyover =>
      Hub.changedWith_stands ((h.renewed_mem hy hkind (some sev)).2 hne) hyover hrecs⟩
    all_goals
      rw [hactive] at hon
      cases hon
  · rw [if_neg hactive]
    by_cases hsev : (x.raised (h.kindEntry x.key.kind) (some sev) h.stamp).severity ≠ x.severity
    · rw [if_pos hsev]
      exact ⟨⟨Hub.changedWith_stands hagain hover hrecs, fun hoff => absurd hoff hactive, fun _ _ => htold _,
        fun _ he => absurd he.symm hsev, fun _ => Hub.changedWith_fences⟩, fun y hy hne hyover =>
        Hub.changedWith_stands ((h.renewed_mem hy hkind (some sev)).2 hne) hyover hrecs⟩
    · rw [if_neg hsev]
      exact ⟨⟨hagain, fun hoff => absurd hoff hactive, fun _ hne => absurd (Ne.symm hne) hsev, fun _ _ => ⟨rfl, rfl⟩, fun _ => rfl⟩,
        fun y hy hne _ => (h.renewed_mem hy hkind (some sev)).2 hne⟩

/-- A record that stands, cleared. -/
theorem Hub.cardCleared_standing (ha : h.alarms.Legal) (hx : x ∈ h.alarms.recs) (hkey : x.key = cardKey n code) (hlen : h.alarms.recs.length < 62)
    (hactive : x.active = true) :
    let t := h.clear (cardKey n code)
    let ended := { x with active := false, lastChange := h.stamp }
    (ended ∈ t.alarms.recs ∧ Hub.ToldOf h t (h.alarms.recs.idxOf x + 1) ended .cleared) ∧
    ∀ y ∈ h.alarms.recs, y.key ≠ cardKey n code → y.key ≠ .hub .agentOverload → y ∈ t.alarms.recs := by
  simp only
  have hkind : x.key.kind ≠ .alarmTableFull := by
    rw [hkey]
    exact cardKey_ne_full
  have hrecs : (h.lapsed x.key).recs.length ≤ 62 := by
    unfold Hub.lapsed
    rw [Alarms.update_recs_length]
    omega
  have hover : x.key ≠ .hub .agentOverload := by
    rw [hkey]
    exact cardKey_ne_overload
  rw [← hkey, Hub.clear_standing ha hx hactive]
  refine ⟨⟨?_, ?_⟩, fun y hy hne hyover => ?_⟩
  · exact Hub.changedWith_stands (h := { h with alarms := h.lapsed x.key }) (x := { x with active := false, lastChange := h.stamp })
      ((Alarms.mem_recs_update hx _ hkind).1 rfl) hover hrecs
  · exact Hub.updated_told (f := fun r => { r with active := false, lastChange := h.stamp }) (fun _ => rfl) hkind ha hx
  · exact Hub.changedWith_stands (h := { h with alarms := h.lapsed x.key }) ((Alarms.mem_recs_update hy _ hkind).2 hne) hyover hrecs

end

/-- Settles O49: a raise makes the record or renews it, a clear ends it, and what is told of it follows from the record at its place. -/
theorem cardAlarm : Obligations.CardAlarm := by
  intro s e rest code raises sev
  simp only
  intro he hk hc hp hs ha hlen
  have hexec := exec_cardAlarm_of_taken he hk hc hp hs
  refine ⟨_, hexec, ?_⟩
  have ha' : (s.hub.popInbox rest).alarms.Legal := ha
  have hlen' : (s.hub.popInbox rest).alarms.recs.length < 62 := hlen
  cases raises with
  | true =>
    simp only [if_true, true_implies, reduceCtorEq, false_implies, true_and]
    obtain ⟨hinbox, hslots, htables⟩ := Hub.cardAlarm_frame ((Hub.HandsOn.closed (s.hub.popInbox rest)).raiseReported (.refl _) (cardKey e.slot code) (some sev))
    refine ⟨hinbox, hslots, htables, fun hnone => ?_, fun x hx hkey => ?_, fun y hy hne hover => ?_⟩
    · obtain ⟨⟨hmade, htold, hfence⟩, -⟩ := Hub.cardRaised_new (h := s.hub.popInbox rest) (sev := sev) hnone hlen'
      rw [Hub.newRecord_card] at hmade htold hfence
      exact ⟨hmade, htold.tells, htold.relays, hfence⟩
    · obtain ⟨⟨hagain, hactivated, hseverity, hsame, hfence⟩, -⟩ := Hub.cardRaised_standing (h := s.hub.popInbox rest) (sev := sev) ha' hx hkey hlen'
      rw [AlarmRec.raised_card hkey] at hagain hactivated hseverity hsame
      have hentry : (s.hub.popInbox rest).kindEntry x.key.kind = s.hub.tables.kinds[AlarmKind.cardReported.idx] := by
        rw [hkey]
        rfl
      refine ⟨hagain, fun hoff => ?_, fun hon hne => ?_, hsame, hfence⟩
      · obtain ⟨htells, hrelays⟩ := hactivated hoff
        simp only [hentry] at htells hrelays
        exact ⟨htells, hrelays⟩
      · obtain ⟨htells, hrelays⟩ := hseverity hon hne
        simp only [hentry] at htells hrelays
        exact ⟨htells, hrelays⟩
    · by_cases hex : ∃ x ∈ s.hub.alarms.recs, x.key = cardKey e.slot code
      · obtain ⟨x, hx, hkey⟩ := hex
        exact (Hub.cardRaised_standing (h := s.hub.popInbox rest) (sev := sev) ha' hx hkey hlen').2 y hy hne hover
      · exact (Hub.cardRaised_new (h := s.hub.popInbox rest) (sev := sev) (fun x hx hkey => hex ⟨x, hx, hkey⟩) hlen').2 y hy hover
  | false =>
    simp only [if_false, Bool.false_eq_true, false_implies, true_implies, true_and]
    obtain ⟨hinbox, hslots, htables⟩ := Hub.cardAlarm_frame (Hub.clear_handsOn (s.hub.popInbox rest) (cardKey e.slot code))
    refine ⟨hinbox, hslots, htables, fun x hx hkey hactive => ?_, fun hoff => ?_, fun y hy hne hover => ?_⟩
    · obtain ⟨⟨hended, htells, hrelays⟩, -⟩ := Hub.cardCleared_standing (h := s.hub.popInbox rest) ha' hx hkey hlen' hactive
      have hentry : (s.hub.popInbox rest).kindEntry x.key.kind = s.hub.tables.kinds[AlarmKind.cardReported.idx] := by
        rw [hkey]
        rfl
      simp only [hentry] at htells hrelays
      exact ⟨hended, htells, hrelays⟩
    · rw [show cardKey e.slot code = _ from rfl, Hub.clear_of_inactive ha' cardKey_ne_full hoff]
      exact ⟨rfl, rfl⟩
    · by_cases hex : ∃ x ∈ s.hub.alarms.recs, x.key = cardKey e.slot code ∧ x.active = true
      · obtain ⟨x, hx, hkey, hactive⟩ := hex
        exact (Hub.cardCleared_standing (h := s.hub.popInbox rest) ha' hx hkey hlen' hactive).2 y hy hne hover
      · rw [Hub.clear_of_inactive ha' cardKey_ne_full fun x hx hkey => by
          by_contra hon
          exact hex ⟨x, hx, hkey, by simpa using hon⟩]
        exact hy

end Sys2Proof.Machine
end

section
/-! PROOFS. A permit withdrawn by the third report out of the limit, whose notice finds no room (R134, R136). -/

namespace Sys2Proof.Machine

/-- A card in service that may be granted a permit. -/
def sinking : SlotRec :=
  { state := .forwarding
    identity := some { kind := .radio, code := 1, revision := 1, declared := .a, caps := ⟨true, true, true⟩, serial := [] } }

/-- The timing record of a slot whose permit is GRANTED. -/
def permitted : TimingRec := { window := [7, 7, 7, 7], granted := true }

/-- Slot 12's report of a phase error that is out of the limit. -/
def thirdOut : InboxFrame :=
  { frame := { cls := .control, kind := Kind.phaseReport, source := 12, flags := 0, sequence := 0, dest := 0xFFFFF000, tag := 0,
               payload := beInt 4 1101 }
    slot := 11, arrival := none }

/-- Every permit GRANTED, 19 notices waiting, no reserve block free, slot 12 the relay slot, and AGENT_OVERLOAD of the action WITHDRAW_PERMIT:
the relay frame of PHASE_OUT_OF_LIMIT finds no block, and the AGENT_OVERLOAD that is raised withdraws every permit, slot 1's first. -/
def manyPermits : Hub :=
  { config := { loading := false }
    slots := Vector.replicate 12 sinking
    trecs := (Vector.replicate 12 permitted).set 11 { permitted with phaseOut := 2 }
    timing := { state := .locked }
    store := { reserveUsed := 64 }
    agent := { inbox := [thirdOut] }
    port := { outbound := List.replicate 19
                { isReply := false, code := Code.slotChanged, tag := 0, status := .ok, overrun := false, noticesLost := false, body := .empty } }
    tables := { relay := some 11
                kinds := (builtinKinds.set AlarmKind.phaseOutOfLimit.idx { relay := true }).set AlarmKind.agentOverload.idx
                  { action := .withdrawPermit } } }

theorem manyPermits_inputs : (manyPermits.permitInputs 11).all = true := by decide

set_option maxRecDepth 20000 in
theorem manyPermits_unnoticed : ∀ m ∈ (Hub.dispatch Kind.phaseReport
      (fun e h => h.phaseReport e.slot (toSigned 4 (fieldAt e.frame.payload 0 4))) manyPermits).port.outbound,
    m.body ≠ .permitChanged 11 true false manyPermits.stamp .phase := by decide

set_option maxRecDepth 20000 in
/-- Refutes O48: with 19 notices waiting, the AGENT_OVERLOAD that a relay frame raises for lack of a block withdraws the permits of the slots of lower
number first, and their notices leave no room for the PERMIT_CHANGED of the slot that reported. -/
theorem not_timingReports : ¬ Obligations.TimingReports := by
  rintro ⟨-, hreports⟩
  obtain ⟨-, -, hphase⟩ := hreports { hub := manyPermits } thirdOut [] rfl
  obtain ⟨t, hexec, -, -, -, -, hthird, -⟩ := hphase rfl rfl rfl (by decide)
  obtain ⟨-, hnotice, -⟩ := hthird (by decide) (by decide) (by decide) ((manyPermits.permitInputs_all_iff 11).mp manyPermits_inputs) (by decide)
  obtain ⟨m, hm, -, -, hbody⟩ := hnotice (by decide)
  cases hexec
  exact manyPermits_unnoticed m hm hbody

end Sys2Proof.Machine
end

section
/-! PROOFS. The admission arbiter (R38 to R41): the drops, the frames that they make the agent send, and a frame taken in. -/

namespace Sys2Proof.Machine

/-! ## What a drop leaves -/

/-- `d` follows on `g` by what alarms tell: no slot record, no setting and no BULK queue changes, the shared pool stands, what is stored besides is of
the agent, and a CONTROL queue grows by ALARM_RELAY frames at the relay slot alone. -/
structure Hub.Relayed (g d : Hub) : Prop where
  slots : d.slots = g.slots
  tables : d.tables = g.tables
  shared : d.store.sharedUsed = g.store.sharedUsed
  frames : ∃ added : List StoredFrame, d.store.frames = g.store.frames ++ added ∧ ∀ f ∈ added, f.fromAgent = true
  ports : ∀ k : Slot, d.ports[k] =
    { g.ports[k] with timingQ := d.ports[k].timingQ, controlQ := d.ports[k].controlQ, counters := d.ports[k].counters }
  relays : ∀ k : Slot, ∃ relayed : List Nat, d.ports[k].controlQ = g.ports[k].controlQ ++ relayed ∧ (g.tables.relay ≠ some k → relayed = []) ∧
    ∀ id ∈ relayed, ∃ f ∈ d.store.frames, f.id = id ∧ f.fromAgent = true ∧ f.frame.kind = Kind.alarmRelay

section

variable {g d k : Hub} {n m : Slot}

theorem Hub.Relayed.refl (g : Hub) : Hub.Relayed g g :=
  ⟨rfl, rfl, rfl, ⟨[], (List.append_nil _).symm, nofun⟩, fun _ => rfl, fun _ => ⟨[], (List.append_nil _).symm, fun _ => rfl, nofun⟩⟩

/-- A change outside the slots, the settings, the store and the ports. -/
theorem Hub.Relayed.outside (hd : Hub.Relayed g d) (hslots : k.slots = d.slots) (htables : k.tables = d.tables) (hstore : k.store = d.store)
    (hports : k.ports = d.ports) : Hub.Relayed g k := by
  obtain ⟨hs, ht, hshared, hframes, hp, hrelays⟩ := hd
  exact ⟨hslots.trans hs, htables.trans ht, by rw [hstore, hshared], by rw [hstore]; exact hframes, by rw [hports]; exact hp,
    by rw [hports, hstore]; exact hrelays⟩

theorem Hub.Relayed.count (f : PortCounters → PortCounters) (hd : Hub.Relayed g d) : Hub.Relayed g (d.count n f) := by
  obtain ⟨hs, ht, hshared, hframes, hp, hrelays⟩ := hd
  have hsame (m : Slot) : (d.count n f).ports[m] = { d.ports[m] with counters := (d.count n f).ports[m].counters } := by
    unfold Hub.count
    rw [Hub.modPort_ports]
    split
    · next he => rw [he]
    · rfl
  refine ⟨hs, ht, hshared, hframes, fun m => ?_, fun m => ?_⟩
  · have hport := hp m
    rw [hsame m]
    generalize (d.count n f).ports[m].counters = counters
    rw [hport]
  · rw [hsame m]
    exact hrelays m

/-- A frame of the agent stored and placed. -/
theorem Hub.Relayed.placed (place : Place) (frame : Frame) (hplace : place = .timing ∨ place = .control ∧ g.tables.relay = some n ∧
      frame.kind = Kind.alarmRelay) (hd : Hub.Relayed g d) :
    Hub.Relayed g (({ d with store := d.store.put frame true 1 }.modPort n (·.enter place d.store.nextId)).schedule n) := by
  have hquiet := Hub.Quiet.schedule ({ d with store := d.store.put frame true 1 }.modPort n (·.enter place d.store.nextId)) n
  obtain ⟨hs, ht, hshared, ⟨added, hadded, hagent⟩, hp, hrelays⟩ := hd
  refine ⟨hquiet.slots.trans hs, hquiet.tables.trans ht, ?_, ?_, fun m => ?_, fun m => ?_⟩
  · rw [Hub.placed_store]
    exact hshared
  · rw [Hub.placed_store]
    refine ⟨added ++ [{ id := d.store.nextId, frame, blocks := frame.blocks, refs := 1, fromAgent := true }], ?_, fun f hf => ?_⟩
    · show d.store.frames ++ _ = _
      rw [hadded, List.append_assoc]
    · rcases List.mem_append.mp hf with hf | hf
      · exact hagent f hf
      · rw [List.mem_singleton.mp hf]
  · have hport := hp m
    rw [Hub.placed_port]
    split
    · rcases hplace with rfl | ⟨rfl, -, -⟩
      · unfold Port.enter
        simp only
        generalize d.ports[m] = p at hport ⊢
        rw [hport]
      · unfold Port.enter
        simp only
        generalize d.ports[m] = p at hport ⊢
        rw [hport]
    · exact hport
  · obtain ⟨relayed, hq, hnone, hids⟩ := hrelays m
    have hkept : ∀ id ∈ relayed, ∃ f ∈ (d.store.put frame true 1).frames, f.id = id ∧ f.fromAgent = true ∧ f.frame.kind = Kind.alarmRelay :=
      fun id hid => (hids id hid).imp fun f hf => ⟨List.mem_append_left _ hf.1, hf.2⟩
    rw [Hub.placed_port, Hub.placed_store]
    split
    · next hm =>
      rcases hplace with rfl | ⟨rfl, hrelay, hkind⟩
      · exact ⟨relayed, hq, hnone, hkept⟩
      · refine ⟨relayed ++ [d.store.nextId], ?_, fun hne => absurd (hm ▸ hrelay) hne, fun id hid => ?_⟩
        · show d.ports[m].controlQ ++ [d.store.nextId] = _
          rw [hq, List.append_assoc]
        · rcases List.mem_append.mp hid with hid | hid
          · exact hkept id hid
          · rw [List.mem_singleton.mp hid]
            exact ⟨_, List.mem_append_right _ (List.mem_singleton_self _), rfl, rfl, hkind⟩
    · exact ⟨relayed, hq, hnone, hkept⟩

theorem Hub.Relayed.told (g : Hub) : ToldClosed (Hub.Relayed g) where
  alarms _ _ hd := hd.outside rfl rfl rfl rfl
  notice _ _ _ hd := hd.outside rfl rfl rfl rfl
  permit _ _ _ hd := hd.outside rfl rfl rfl rfl
  refusal _ hd := hd.outside rfl rfl rfl rfl
  update _ _ frame _ _ hd := hd.placed .timing frame (.inl rfl)
  relay _ _ frame hrelay _ hkind _ hd := hd.placed .control frame (.inr ⟨rfl, hd.tables ▸ hrelay, hkind⟩)

theorem Hub.Relayed.raise (key : AlarmKey) (hd : Hub.Relayed g d) : Hub.Relayed g (d.raise key) :=
  (Hub.Relayed.told g).raise (fun k hk => by rw [Hub.fireFence_frame]; exact hk.outside rfl rfl rfl rfl) hd

theorem Hub.Relayed.egressDrops (g : Hub) (l : List Slot) : Hub.Relayed g (l.foldl Hub.egressDrop g) :=
  foldl_keeps (P := Hub.Relayed g) (f := Hub.egressDrop) (fun _ n hd => (hd.count (n := n) _).raise _) l (.refl g)

theorem Hub.Relayed.storeFull (n : Slot) (hd : Hub.Relayed g d) : Hub.Relayed g (d.storeFull n) := (hd.count _).raise _

theorem Hub.raise_counters (g : Hub) (key : AlarmKey) (m : Slot) : (g.raise key).ports[m].counters = g.ports[m].counters := by
  rw [(g.raise_handsOn key).ports m]

theorem Hub.count_counters (g : Hub) (n : Slot) (f : PortCounters → PortCounters) (m : Slot) :
    (g.count n f).ports[m].counters = if m = n then f g.ports[n].counters else g.ports[m].counters := by
  unfold Hub.count
  rw [Hub.modPort_ports]
  by_cases hm : n = m
  · rw [if_pos hm, if_pos hm.symm]
  · rw [if_neg hm, if_neg (Ne.symm hm)]

theorem Hub.storeFull_counters (g : Hub) (n m : Slot) : (g.storeFull n).ports[m].counters =
    if m = n then { g.ports[n].counters with storeFull := g.ports[n].counters.storeFull + 1 } else g.ports[m].counters :=
  (Hub.raise_counters _ _ m).trans (g.count_counters n _ m)

theorem Hub.egressDrop_counters (g : Hub) (n m : Slot) : (g.egressDrop n).ports[m].counters =
    if m = n then { g.ports[n].counters with portLimitDrops := g.ports[n].counters.portLimitDrops + 1 } else g.ports[m].counters :=
  (Hub.raise_counters _ _ m).trans (g.count_counters n _ m)

theorem Hub.egressDrops_counters (l : List Slot) (hnd : l.Nodup) (g : Hub) (m : Slot) : (l.foldl Hub.egressDrop g).ports[m].counters =
    if m ∈ l then { g.ports[m].counters with portLimitDrops := g.ports[m].counters.portLimitDrops + 1 } else g.ports[m].counters := by
  induction l generalizing g with
  | nil => rfl
  | cons n l ih =>
    obtain ⟨hn, hnd⟩ := List.nodup_cons.mp hnd
    rw [List.foldl_cons, ih hnd, Hub.egressDrop_counters]
    by_cases hm : m = n
    · subst hm
      rw [if_neg hn, if_pos rfl, if_pos List.mem_cons_self]
    · rw [if_neg hm]
      simp only [List.mem_cons, hm, false_or]

/-! ## The alarms of the drops -/

/-- The alarms of an arbiter service. -/
def arbiterAlarms : List AlarmKey := .hub .agentOverload :: .hub .storeExhausted :: allSlots.map (.slot · .egressDrops)

theorem Hub.egressDrop_run (g : Hub) (n : Slot) : Hub.AlarmRun (· ∈ arbiterAlarms) (fun _ => False) g (g.egressDrop n) := by
  unfold Hub.egressDrop
  exact (Hub.AlarmRun.raise _ (List.mem_cons_of_mem _ (List.mem_cons_of_mem _ (List.mem_map_of_mem (mem_allSlots n))))).after
    (.of_eq rfl)

theorem Hub.egressDrops_run (l : List Slot) (g : Hub) : Hub.AlarmRun (· ∈ arbiterAlarms) (fun _ => False) g (l.foldl Hub.egressDrop g) :=
  foldl_keeps (P := Hub.AlarmRun (· ∈ arbiterAlarms) (fun _ => False) g) (f := Hub.egressDrop) (fun d n hd => hd.trans (d.egressDrop_run n)) l
    (.refl g)

theorem Hub.storeFull_run (g : Hub) (n : Slot) : Hub.AlarmRun (· ∈ arbiterAlarms) (fun _ => False) g (g.storeFull n) := by
  unfold Hub.storeFull
  exact (Hub.AlarmRun.raise _ (List.mem_cons_of_mem _ List.mem_cons_self)).after (.of_eq rfl)

/-- With room in the table, an alarm of an arbiter service is ACTIVE where it is raised. -/
theorem Hub.AlarmRun.arbiter_raise {key : AlarmKey} (hd : Hub.AlarmRun (· ∈ arbiterAlarms) (fun _ => False) g d)
    (hlen : g.alarms.recs.length < 48) (hkey : key ∈ arbiterAlarms) (halarms : k.alarms = d.alarms) : (k.raise key).isActive key = true := by
  refine Hub.raise_isActive ?_
  rw [halarms]
  refine hd.room arbiterAlarms List.mem_cons_self (fun _ hk => hk) ?_ hkey
  have hkeys : arbiterAlarms.length = 14 := by decide
  omega

theorem Hub.egressDrops_isActive (l : List Slot) (hlen : g.alarms.recs.length < 48) (hn : n ∈ l) :
    (l.foldl Hub.egressDrop g).isActive (.slot n .egressDrops) = true := by
  obtain ⟨before, after, rfl⟩ := List.append_of_mem hn
  rw [List.foldl_append, List.foldl_cons]
  refine (Hub.egressDrops_run after _).isActive ?_ fun _ => False.elim
  exact (Hub.egressDrops_run before g).arbiter_raise hlen
    (List.mem_cons_of_mem _ (List.mem_cons_of_mem _ (List.mem_map_of_mem (mem_allSlots n)))) rfl

theorem Hub.storeFull_isActive (l : List Slot) (source : Slot) (hlen : g.alarms.recs.length < 48) :
    ((l.foldl Hub.egressDrop g).storeFull source).isActive (.hub .storeExhausted) = true :=
  (Hub.egressDrops_run l g).arbiter_raise hlen (List.mem_cons_of_mem _ List.mem_cons_self) rfl

/-! ## A frame taken in -/

theorem Hub.takeIn_ports (g : Hub) (f : Frame) (members : List Slot) (hnd : members.Nodup) (m : Slot) :
    (g.takeIn f members).ports[m] = if m ∈ members then g.ports[m].enter f.cls.place g.store.nextId else g.ports[m] := by
  unfold Hub.takeIn
  simp only
  generalize f.cls.place = place
  have key : ∀ (l : List Slot) (k : Hub), l.Nodup →
      (l.foldl (fun (h : Hub) n => (h.modPort n (·.enter place g.store.nextId)).schedule n) k).ports[m] =
        if m ∈ l then k.ports[m].enter place g.store.nextId else k.ports[m] := by
    intro l
    induction l with
    | nil => exact fun k _ => rfl
    | cons n l ih =>
      intro k hl
      obtain ⟨hn, hl⟩ := List.nodup_cons.mp hl
      rw [List.foldl_cons, ih _ hl, Hub.schedule_ports, Hub.modPort_ports]
      by_cases hm : n = m
      · subst hm
        rw [if_neg hn, if_pos rfl, if_pos List.mem_cons_self]
      · rw [if_neg hm]
        simp only [List.mem_cons, Ne.symm hm, false_or]
  exact key members _ hnd

theorem Hub.takeIn_store (g : Hub) (f : Frame) (members : List Slot) : (g.takeIn f members).store = g.store.put f false members.length := by
  unfold Hub.takeIn
  simp only
  refine foldl_keeps (P := fun k : Hub => k.store = g.store.put f false members.length)
    (f := fun (h : Hub) n => (h.modPort n (·.enter f.cls.place g.store.nextId)).schedule n) (fun k n hk => ?_) members rfl
  rw [(Hub.schedule_others _ _).1]
  exact hk

end

end Sys2Proof.Machine
end

section
/-! PROOFS. ARBITER_SERVICE, settled (R38 to R41). -/

namespace Sys2Proof.Machine

/-! ## The frame that is taken -/

/-- The hub with the first pending CONTROL frame of a source taken. -/
def Hub.takenControl (h : Hub) (n : Slot) (rest : List PendingFrame) : Hub :=
  { h with store := { h.store with lastControl := n } }.modPort n fun q => { q with pendControl := rest }

/-- The hub with the first pending BULK frame of a source taken. -/
def Hub.takenBulk (h : Hub) (n : Slot) (rest : List PendingFrame) : Hub :=
  { h with store := { h.store with lastBulk := n } }.modPort n fun q => { q with pendBulk := rest }

/-- `g` differs from `h` by a pending frame taken and a rotation point moved alone. -/
structure Hub.Unpended (h g : Hub) : Prop where
  slots : g.slots = h.slots
  tables : g.tables = h.tables
  alarms : g.alarms = h.alarms
  frames : g.store.frames = h.store.frames
  shared : g.store.sharedUsed = h.store.sharedUsed
  ports : ∀ k : Slot, g.ports[k] = { h.ports[k] with pendControl := g.ports[k].pendControl, pendBulk := g.ports[k].pendBulk }

section

variable {h g : Hub} {n m : Slot} {p : PendingFrame} {rest : List PendingFrame}

theorem Hub.takenControl_unpended (h : Hub) (n : Slot) (rest : List PendingFrame) : Hub.Unpended h (h.takenControl n rest) := by
  refine ⟨rfl, rfl, rfl, rfl, rfl, fun k => ?_⟩
  unfold Hub.takenControl
  rw [Hub.modPort_ports]
  split
  · next hk => rw [← hk]
  · rfl

theorem Hub.takenBulk_unpended (h : Hub) (n : Slot) (rest : List PendingFrame) : Hub.Unpended h (h.takenBulk n rest) := by
  refine ⟨rfl, rfl, rfl, rfl, rfl, fun k => ?_⟩
  unfold Hub.takenBulk
  rw [Hub.modPort_ports]
  split
  · next hk => rw [← hk]
  · rfl

theorem Hub.takenControl_pending (h : Hub) (n : Slot) (rest : List PendingFrame) : (h.takenControl n rest).ports[n].pendControl = rest := by
  unfold Hub.takenControl
  rw [Hub.modPort_self]

theorem Hub.takenBulk_pending (h : Hub) (n : Slot) (rest : List PendingFrame) : (h.takenBulk n rest).ports[n].pendBulk = rest := by
  unfold Hub.takenBulk
  rw [Hub.modPort_self]

theorem Hub.Unpended.occupancy (hu : Hub.Unpended h g) (k : Slot) : g.occupancy k = h.occupancy k := by
  have hblocks : g.store.cardBlocks = h.store.cardBlocks := funext fun id => by
    unfold Store.cardBlocks Store.find
    rw [hu.frames]
  unfold Hub.occupancy
  rw [hblocks, hu.ports k]
  rfl

theorem Hub.arbitrate_control (hfirst : (rotation h.store.lastControl).find? (fun k => !h.ports[k].pendControl.isEmpty) = some n)
    (hp : h.ports[n].pendControl = p :: rest) : h.arbitrate = (h.takenControl n rest).serveFrame n p := by
  unfold Hub.arbitrate
  simp only [hfirst, hp]
  rfl

theorem Hub.arbitrate_bulk (hnone : ∀ k : Slot, h.ports[k].pendControl = [])
    (hfirst : (rotation h.store.lastBulk).find? (fun k => !h.ports[k].pendBulk.isEmpty) = some n) (hp : h.ports[n].pendBulk = p :: rest) :
    h.arbitrate = (h.takenBulk n rest).serveFrame n p := by
  have hcontrol : (rotation h.store.lastControl).find? (fun k => !h.ports[k].pendControl.isEmpty) = none :=
    List.find?_eq_none.mpr fun k _ => by rw [hnone k]; decide
  unfold Hub.arbitrate
  simp only [hcontrol, hfirst, hp]
  rfl

theorem Hub.arbitrate_nothing (hnone : ∀ k : Slot, h.ports[k].pendControl = [] ∧ h.ports[k].pendBulk = []) : h.arbitrate = h := by
  have hcontrol : (rotation h.store.lastControl).find? (fun k => !h.ports[k].pendControl.isEmpty) = none :=
    List.find?_eq_none.mpr fun k _ => by rw [(hnone k).1]; decide
  have hbulk : (rotation h.store.lastBulk).find? (fun k => !h.ports[k].pendBulk.isEmpty) = none :=
    List.find?_eq_none.mpr fun k _ => by rw [(hnone k).2]; decide
  unfold Hub.arbitrate
  simp only [hcontrol, hbulk]

/-! ## The service of a frame -/

/-- The reachable members of a pending frame's target set (R39). -/
def Hub.reachables (h : Hub) (p : PendingFrame) : List Slot := (Mask.slots p.targets).filter fun n => h.slots[n].state.reachable

/-- Those of them that have room. -/
def Hub.roomy (h : Hub) (p : PendingFrame) : List Slot := (h.reachables p).filter (h.hasRoom p.frame.blocks)

/-- The hub with the members that have no room counted and told. -/
def Hub.dropped (h : Hub) (p : PendingFrame) : Hub := ((h.reachables p).filter fun n => !h.hasRoom p.frame.blocks n).foldl Hub.egressDrop h

theorem Hub.serveFrame_slot (ht : p.target = .slot m) (hnone : g.reachables p = []) :
    g.serveFrame n p = g.count m fun c => { c with unreachable := c.unreachable + 1 } := by
  refine (if_pos (List.isEmpty_iff.mpr hnone)).trans ?_
  rw [ht]

theorem Hub.serveFrame_group {i : Fin 16} (ht : p.target = .group i) (hnone : g.reachables p = []) :
    g.serveFrame n p = g.count n fun c => { c with noReachableTarget := c.noReachableTarget + 1 } := by
  refine (if_pos (List.isEmpty_iff.mpr hnone)).trans ?_
  rw [ht]

theorem Hub.serveFrame_reached (hne : g.reachables p ≠ []) : g.serveFrame n p =
    if (g.roomy p).isEmpty then g.dropped p
    else if (g.dropped p).store.passes p.frame.cls p.frame.blocks then (g.dropped p).takeIn p.frame (g.roomy p)
    else (g.dropped p).storeFull n :=
  if_neg fun he => hne (List.isEmpty_iff.mp he)

theorem Hub.Unpended.mem_reached (hu : Hub.Unpended h g) {k : Slot} :
    k ∈ g.reachables p ↔ Mask.has p.targets k = true ∧ h.slots[k].state.reachable = true := by
  unfold Hub.reachables
  rw [List.mem_filter, Mask.mem_slots, hu.slots]

theorem Hub.Unpended.hasRoom_iff (hu : Hub.Unpended h g) {k : Slot} {blocks : Nat} :
    g.hasRoom blocks k = true ↔ h.occupancy k + blocks ≤ h.tables.ports[k].limit := by
  unfold Hub.hasRoom
  rw [decide_eq_true_iff, hu.occupancy, hu.tables]

theorem Hub.Unpended.mem_roomy (hu : Hub.Unpended h g) {k : Slot} : k ∈ g.roomy p ↔
    (Mask.has p.targets k = true ∧ h.slots[k].state.reachable = true) ∧ h.occupancy k + p.frame.blocks ≤ h.tables.ports[k].limit := by
  unfold Hub.roomy
  rw [List.mem_filter, hu.mem_reached, hu.hasRoom_iff]

theorem Hub.reachables_nodup (g : Hub) (p : PendingFrame) : (g.reachables p).Nodup := (allSlots_nodup.filter _).filter _

theorem Hub.roomy_nodup (g : Hub) (p : PendingFrame) : (g.roomy p).Nodup := (g.reachables_nodup p).filter _

theorem Hub.roomy_length (hu : Hub.Unpended h g) (q : Slot → Bool)
    (hq : ∀ k, q k = true ↔ (Mask.has p.targets k = true ∧ h.slots[k].state.reachable = true) ∧
      h.occupancy k + p.frame.blocks ≤ h.tables.ports[k].limit) : (g.roomy p).length = (allSlots.filter q).length := by
  refine List.Perm.length_eq ((List.perm_ext_iff_of_nodup (g.roomy_nodup p) (allSlots_nodup.filter _)).mpr fun k => ?_)
  rw [hu.mem_roomy, List.mem_filter, hq, and_iff_right (mem_allSlots k)]

theorem Hub.dropped_relayed (g : Hub) (p : PendingFrame) : Hub.Relayed g (g.dropped p) := Hub.Relayed.egressDrops g _

/-- Nothing is dropped where every reachable member has room. -/
theorem Hub.dropped_of_room (hroom : ∀ k ∈ g.reachables p, g.hasRoom p.frame.blocks k = true) : g.dropped p = g := by
  unfold Hub.dropped
  rw [List.filter_eq_nil_iff.mpr fun k hk => by rw [hroom k hk]; decide]
  rfl

theorem Hub.dropped_counters (hu : Hub.Unpended h g) (k : Slot) : (g.dropped p).ports[k].counters =
    if (Mask.has p.targets k = true ∧ h.slots[k].state.reachable = true) ∧ ¬ h.occupancy k + p.frame.blocks ≤ h.tables.ports[k].limit then
      { h.ports[k].counters with portLimitDrops := h.ports[k].counters.portLimitDrops + 1 } else h.ports[k].counters := by
  unfold Hub.dropped
  rw [Hub.egressDrops_counters _ ((g.reachables_nodup p).filter _)]
  rw [show g.ports[k].counters = h.ports[k].counters by rw [hu.ports k]]
  refine if_congr ?_ rfl rfl
  rw [List.mem_filter, hu.mem_reached, Bool.not_eq_true', ← Bool.not_eq_true, hu.hasRoom_iff]

theorem Hub.dropped_isActive (hu : Hub.Unpended h g) {k : Slot} (hk : Mask.has p.targets k = true ∧ h.slots[k].state.reachable = true)
    (hroom : ¬ h.occupancy k + p.frame.blocks ≤ h.tables.ports[k].limit) (hlen : h.alarms.recs.length < 48) :
    (g.dropped p).isActive (.slot k .egressDrops) = true := by
  refine Hub.egressDrops_isActive _ (by rw [hu.alarms]; exact hlen) (List.mem_filter.mpr ⟨hu.mem_reached.mpr hk, ?_⟩)
  rw [Bool.not_eq_true', ← Bool.not_eq_true, hu.hasRoom_iff]
  exact hroom

theorem Hub.dropped_passes (hu : Hub.Unpended h g) (cls : TrafficClass) (blocks : Nat) :
    (g.dropped p).store.passes cls blocks = h.store.passes cls blocks := by
  unfold Store.passes Store.freeShared
  rw [(g.dropped_relayed p).shared, hu.shared]

/-! ## What stands where nothing is stored -/

theorem Hub.Relayed.notStored {d : Hub} (hu : Hub.Unpended h g) (hd : Hub.Relayed g d) : d.store.sharedUsed = h.store.sharedUsed ∧
    (∀ k : Slot, d.ports[k].bulkQ = h.ports[k].bulkQ) ∧ ∀ f ∈ d.store.frames, f ∈ h.store.frames ∨ f.fromAgent = true := by
  refine ⟨hd.shared.trans hu.shared, fun k => ?_, fun f hf => ?_⟩
  · rw [hd.ports k]
    show g.ports[k].bulkQ = _
    rw [hu.ports k]
  · obtain ⟨added, hadded, hagent⟩ := hd.frames
    rw [hadded, hu.frames] at hf
    exact (List.mem_append.mp hf).imp id (hagent f)

theorem Hub.Relayed.pending {d : Hub} (hd : Hub.Relayed g d) (k : Slot) :
    d.ports[k].pendControl = g.ports[k].pendControl ∧ d.ports[k].pendBulk = g.ports[k].pendBulk := by
  rw [hd.ports k]
  exact ⟨rfl, rfl⟩

/-! ## The outcomes of a service -/

theorem Hub.reachables_of_single (ht : p.targets = Mask.single m) (hu : Hub.Unpended h g) :
    g.reachables p = if h.slots[m].state.reachable = true then [m] else [] := by
  have hsingle : ∀ m : Slot, Mask.slots (Mask.single m) = [m] := by decide
  unfold Hub.reachables
  rw [ht, hsingle, hu.slots]
  rw [List.filter_singleton, Bool.cond_eq_ite]

theorem Hub.roomy_of_single (ht : p.targets = Mask.single m) (hu : Hub.Unpended h g)
    (hroom : h.slots[m].state.reachable = true ∧ h.occupancy m + p.frame.blocks ≤ h.tables.ports[m].limit) : g.roomy p = [m] := by
  unfold Hub.roomy
  rw [Hub.reachables_of_single ht hu, if_pos hroom.1, List.filter_cons_of_pos (hu.hasRoom_iff.mpr hroom.2), List.filter_nil]

theorem Hub.dropped_of_single (ht : p.targets = Mask.single m) (hu : Hub.Unpended h g)
    (hroom : h.slots[m].state.reachable = true ∧ h.occupancy m + p.frame.blocks ≤ h.tables.ports[m].limit) : g.dropped p = g := by
  refine Hub.dropped_of_room fun k hk => ?_
  rw [Hub.reachables_of_single ht hu, if_pos hroom.1, List.mem_singleton] at hk
  subst hk
  exact hu.hasRoom_iff.mpr hroom.2

theorem Hub.serveFrame_taken (hu : Hub.Unpended h g) (hne : g.roomy p ≠ []) (hpasses : h.store.passes p.frame.cls p.frame.blocks = true) :
    g.serveFrame n p = (g.dropped p).takeIn p.frame (g.roomy p) := by
  have hreached : g.reachables p ≠ [] := fun he => hne (by unfold Hub.roomy; rw [he, List.filter_nil])
  rw [Hub.serveFrame_reached hreached, if_neg fun he => hne (List.isEmpty_iff.mp he), if_pos (by rw [Hub.dropped_passes hu]; exact hpasses)]

theorem Hub.serveFrame_storeFull (hu : Hub.Unpended h g) (hne : g.roomy p ≠ []) (hfull : h.store.passes p.frame.cls p.frame.blocks = false) :
    g.serveFrame n p = (g.dropped p).storeFull n := by
  have hreached : g.reachables p ≠ [] := fun he => hne (by unfold Hub.roomy; rw [he, List.filter_nil])
  rw [Hub.serveFrame_reached hreached, if_neg fun he => hne (List.isEmpty_iff.mp he), if_neg (by rw [Hub.dropped_passes hu, hfull]; decide)]

theorem Hub.serveFrame_crowded (hreached : g.reachables p ≠ []) (hnone : g.roomy p = []) : g.serveFrame n p = g.dropped p := by
  rw [Hub.serveFrame_reached hreached, if_pos (List.isEmpty_iff.mpr hnone)]

/-- A frame for one slot, stored and entered. -/
theorem Hub.single_taken (hu : Hub.Unpended h g) (hid : g.store.nextId = h.store.nextId ∧ g.store.reserveUsed = h.store.reserveUsed)
    (ht : p.targets = Mask.single m)
    (hroom : h.slots[m].state.reachable = true ∧ h.occupancy m + p.frame.blocks ≤ h.tables.ports[m].limit)
    (hpasses : h.store.passes p.frame.cls p.frame.blocks = true) :
    let t := g.serveFrame n p
    (t.store.frames = h.store.frames ++ [{ id := h.store.nextId, frame := p.frame, blocks := p.frame.blocks, refs := 1, fromAgent := false }] ∧
      t.store.sharedUsed = h.store.sharedUsed + p.frame.blocks ∧ t.store.reserveUsed = h.store.reserveUsed) ∧
    t.store.lastControl = g.store.lastControl ∧ t.store.lastBulk = g.store.lastBulk ∧ t.slots = h.slots ∧ t.tables = h.tables ∧
    ∀ k : Slot, t.ports[k] = if k = m then g.ports[k].enter p.frame.cls.place h.store.nextId else g.ports[k] := by
  have hroomy := Hub.roomy_of_single ht hu hroom
  simp only
  rw [Hub.serveFrame_taken hu (by rw [hroomy]; exact List.cons_ne_nil _ _) hpasses, hroomy, Hub.dropped_of_single ht hu hroom, Hub.takeIn_store]
  refine ⟨⟨?_, ?_, hid.2⟩, rfl, rfl, ?_, ?_, fun k => ?_⟩
  · show g.store.frames ++ [{ id := g.store.nextId, frame := p.frame, blocks := p.frame.blocks, refs := 1, fromAgent := false }] = _
    rw [hu.frames, hid.1]
  · show g.store.sharedUsed + p.frame.blocks = _
    rw [hu.shared]
  · rw [Hub.takeIn_frame]
    exact hu.slots
  · rw [Hub.takeIn_frame]
    exact hu.tables
  · rw [Hub.takeIn_ports _ _ _ (List.nodup_singleton m), hid.1]
    simp only [List.mem_singleton]

/-- A frame for one slot, refused by the shared pool. -/
theorem Hub.single_storeFull (hu : Hub.Unpended h g) (ht : p.targets = Mask.single m)
    (hroom : h.slots[m].state.reachable = true ∧ h.occupancy m + p.frame.blocks ≤ h.tables.ports[m].limit)
    (hfull : h.store.passes p.frame.cls p.frame.blocks = false) :
    let t := g.serveFrame n p
    (t.ports[n].pendControl = g.ports[n].pendControl ∧ t.ports[n].pendBulk = g.ports[n].pendBulk) ∧
    (t.store.sharedUsed = h.store.sharedUsed ∧ (∀ k : Slot, t.ports[k].bulkQ = h.ports[k].bulkQ) ∧
      ∀ f ∈ t.store.frames, f ∈ h.store.frames ∨ f.fromAgent = true) ∧ t.slots = h.slots ∧
    (∀ j : Slot, t.ports[j].counters =
      if j = n then { h.ports[n].counters with storeFull := h.ports[n].counters.storeFull + 1 } else h.ports[j].counters) ∧
    (h.AlarmRoom → t.isActive (.hub .storeExhausted) = true) := by
  have hroomy := Hub.roomy_of_single ht hu hroom
  simp only
  rw [Hub.serveFrame_storeFull hu (by rw [hroomy]; exact List.cons_ne_nil _ _) hfull, Hub.dropped_of_single ht hu hroom]
  have hd := (Hub.Relayed.refl g).storeFull n
  have hcounters (k : Slot) : g.ports[k].counters = h.ports[k].counters := by rw [hu.ports k]
  refine ⟨hd.pending n, hd.notStored hu, hd.slots.trans hu.slots, fun j => ?_, fun ⟨_, hlen⟩ => ?_⟩
  · rw [Hub.storeFull_counters, hcounters, hcounters]
  · refine Hub.raise_isActive (.inl ?_)
    show g.alarms.recs.length < 63
    rw [hu.alarms]
    exact Nat.lt_of_lt_of_le hlen (by decide)

/-- A frame for one slot that has no room for it. -/
theorem Hub.single_crowded (hu : Hub.Unpended h g) (ht : p.targets = Mask.single m) (hreach : h.slots[m].state.reachable = true)
    (hroom : ¬ h.occupancy m + p.frame.blocks ≤ h.tables.ports[m].limit) :
    let t := g.serveFrame n p
    (t.store.sharedUsed = h.store.sharedUsed ∧ (∀ k : Slot, t.ports[k].bulkQ = h.ports[k].bulkQ) ∧
      ∀ f ∈ t.store.frames, f ∈ h.store.frames ∨ f.fromAgent = true) ∧ t.slots = h.slots ∧
    (∀ j : Slot, t.ports[j].counters =
      if j = m then { h.ports[m].counters with portLimitDrops := h.ports[m].counters.portLimitDrops + 1 } else h.ports[j].counters) ∧
    (h.AlarmRoom → t.isActive (.slot m .egressDrops) = true) := by
  have hreached : g.reachables p = [m] := (Hub.reachables_of_single ht hu).trans (if_pos hreach)
  have hno : g.hasRoom p.frame.blocks m = false := by
    rw [← Bool.not_eq_true, hu.hasRoom_iff]
    exact hroom
  have hroomy : g.roomy p = [] := by
    unfold Hub.roomy
    rw [hreached, List.filter_cons_of_neg (by rw [hno]; decide), List.filter_nil]
  have hdropped : g.dropped p = g.egressDrop m := by
    unfold Hub.dropped
    rw [hreached, List.filter_cons_of_pos (by rw [hno]; rfl), List.filter_nil]
    rfl
  simp only
  rw [Hub.serveFrame_crowded (by rw [hreached]; exact List.cons_ne_nil _ _) hroomy]
  have hd := g.dropped_relayed p
  have hcounters (k : Slot) : g.ports[k].counters = h.ports[k].counters := by rw [hu.ports k]
  refine ⟨hd.notStored hu, hd.slots.trans hu.slots, fun j => ?_, fun ⟨_, hlen⟩ => ?_⟩
  · rw [hdropped, Hub.egressDrop_counters, hcounters, hcounters]
  · rw [hdropped]
    refine Hub.raise_isActive (.inl ?_)
    show g.alarms.recs.length < 63
    rw [hu.alarms]
    exact Nat.lt_of_lt_of_le hlen (by decide)

end

end Sys2Proof.Machine
end

section
/-! PROOFS. A group's frame at the arbiter, and the arbiter settled (R39 to R41). -/

namespace Sys2Proof.Machine

/-- A member of a target set that is reachable (R39). -/
abbrev Hub.Reaches (h : Hub) (targets : SlotMask) (k : Slot) : Prop := Mask.has targets k = true ∧ h.slots[k].state.reachable = true

/-- A member that has room for a frame of so many blocks (R39). -/
abbrev Hub.Fits (h : Hub) (blocks : Nat) (k : Slot) : Prop := h.occupancy k + blocks ≤ h.tables.ports[k].limit

section

variable {h g t : Hub} {n : Slot} {p : PendingFrame}

/-- The drops of a service, for each slot. -/
theorem Hub.dropped_drops (hu : Hub.Unpended h g)
    (hcount : ∀ k : Slot, t.ports[k].counters.portLimitDrops = (g.dropped p).ports[k].counters.portLimitDrops)
    (hactive : ∀ k : Slot, (g.dropped p).isActive (.slot k .egressDrops) = true → t.isActive (.slot k .egressDrops) = true) (k : Slot) :
    (h.Reaches p.targets k ∧ ¬ h.Fits p.frame.blocks k →
      t.ports[k].counters.portLimitDrops = h.ports[k].counters.portLimitDrops + 1 ∧
      (h.alarms.Legal → h.alarms.recs.length < 48 → t.isActive (.slot k .egressDrops) = true)) ∧
    (¬ (h.Reaches p.targets k ∧ ¬ h.Fits p.frame.blocks k) → t.ports[k].counters.portLimitDrops = h.ports[k].counters.portLimitDrops) := by
  rw [hcount, Hub.dropped_counters hu]
  refine ⟨fun hk => ?_, fun hk => by rw [if_neg hk]⟩
  rw [if_pos hk]
  exact ⟨rfl, fun _ hlen => hactive k (Hub.dropped_isActive hu hk.1 hk.2 hlen)⟩

/-- A group with no reachable member. -/
theorem Hub.group_unreached {i : Fin 16} (hu : Hub.Unpended h g) (ht : p.target = .group i) (hnone : ∀ k : Slot, ¬ h.Reaches p.targets k) :
    let t := g.serveFrame n p
    (t.store.sharedUsed = h.store.sharedUsed ∧ (∀ k : Slot, t.ports[k].bulkQ = h.ports[k].bulkQ) ∧
      ∀ f ∈ t.store.frames, f ∈ h.store.frames ∨ f.fromAgent = true) ∧ t.slots = h.slots ∧ t.alarms = h.alarms ∧
    ∀ j : Slot, t.ports[j].counters =
      if j = n then { h.ports[n].counters with noReachableTarget := h.ports[n].counters.noReachableTarget + 1 } else h.ports[j].counters := by
  have hempty : g.reachables p = [] := List.eq_nil_iff_forall_not_mem.mpr fun k hk => hnone k (hu.mem_reached.mp hk)
  simp only
  rw [Hub.serveFrame_group ht hempty]
  refine ⟨((Hub.Relayed.refl g).count _).notStored hu, hu.slots, hu.alarms, fun j => ?_⟩
  rw [Hub.count_counters, show g.ports[n].counters = h.ports[n].counters by rw [hu.ports n],
    show g.ports[j].counters = h.ports[j].counters by rw [hu.ports j]]

/-- A group with a reachable member, none of which has room. -/
theorem Hub.group_crowded (hu : Hub.Unpended h g) (hreached : ∃ k : Slot, h.Reaches p.targets k)
    (hnone : ∀ k : Slot, ¬ (h.Reaches p.targets k ∧ h.Fits p.frame.blocks k)) : g.serveFrame n p = g.dropped p := by
  obtain ⟨k, hk⟩ := hreached
  exact Hub.serveFrame_crowded (List.ne_nil_of_mem (hu.mem_reached.mpr hk))
    (List.eq_nil_iff_forall_not_mem.mpr fun k hk => hnone k (hu.mem_roomy.mp hk))

theorem Hub.roomy_ne_nil (hu : Hub.Unpended h g) (hroom : ∃ k : Slot, h.Reaches p.targets k ∧ h.Fits p.frame.blocks k) : g.roomy p ≠ [] := by
  obtain ⟨k, hk⟩ := hroom
  exact List.ne_nil_of_mem (hu.mem_roomy.mpr hk)

/-- A group's frame refused by the shared pool. -/
theorem Hub.group_storeFull (hu : Hub.Unpended h g) (hroom : ∃ k : Slot, h.Reaches p.targets k ∧ h.Fits p.frame.blocks k)
    (hfull : h.store.passes p.frame.cls p.frame.blocks = false) :
    let t := g.serveFrame n p
    (t.store.sharedUsed = h.store.sharedUsed ∧ (∀ k : Slot, t.ports[k].bulkQ = h.ports[k].bulkQ) ∧
      ∀ f ∈ t.store.frames, f ∈ h.store.frames ∨ f.fromAgent = true) ∧
    (∀ k : Slot, (h.Reaches p.targets k ∧ ¬ h.Fits p.frame.blocks k →
        t.ports[k].counters.portLimitDrops = h.ports[k].counters.portLimitDrops + 1 ∧
        (h.alarms.Legal → h.alarms.recs.length < 48 → t.isActive (.slot k .egressDrops) = true)) ∧
      (¬ (h.Reaches p.targets k ∧ ¬ h.Fits p.frame.blocks k) → t.ports[k].counters.portLimitDrops = h.ports[k].counters.portLimitDrops)) ∧
    t.slots = h.slots ∧
    (∀ k : Slot, t.ports[k].counters.storeFull = if k = n then h.ports[k].counters.storeFull + 1 else h.ports[k].counters.storeFull) ∧
    (h.tables.relay = none → ∀ k : Slot, t.ports[k].controlQ = h.ports[k].controlQ) ∧
    (h.alarms.Legal → h.alarms.recs.length < 48 → t.isActive (.hub .storeExhausted) = true) := by
  simp only
  rw [Hub.serveFrame_storeFull hu (Hub.roomy_ne_nil hu hroom) hfull]
  have hd : Hub.Relayed g ((g.dropped p).storeFull n) := (g.dropped_relayed p).storeFull n
  refine ⟨hd.notStored hu, fun k => Hub.dropped_drops hu (fun k => ?_) (fun k hactive => ?_) k, hd.slots.trans hu.slots, fun k => ?_,
    fun hrelay k => ?_, fun _ hlen => ?_⟩
  · rw [Hub.storeFull_counters]
    split
    · next hk => rw [hk]
    · rfl
  · exact ((g.dropped p).storeFull_run n).isActive hactive fun _ => False.elim
  · rw [Hub.storeFull_counters, Hub.dropped_counters hu, Hub.dropped_counters hu]
    by_cases hk : k = n
    · subst hk
      rw [if_pos rfl, if_pos rfl]
      split <;> rfl
    · rw [if_neg hk, if_neg hk]
      split <;> rfl
  · obtain ⟨relayed, hq, hnone, -⟩ := hd.relays k
    rw [hq, hnone (by rw [hu.tables, hrelay]; exact (Option.some_ne_none k).symm), List.append_nil, hu.ports k]
  · exact Hub.storeFull_isActive _ n (by rw [hu.alarms]; exact hlen)

theorem Port.enter_bulkQ (p : Port) (c : TrafficClass) (id : Nat) : (p.enter c.place id).bulkQ = p.bulkQ ++ if c = .bulk then [id] else [] := by
  cases c
  · exact (List.append_nil _).symm
  · exact (List.append_nil _).symm
  · rfl

theorem Port.enter_controlQ (p : Port) (c : TrafficClass) (id : Nat) :
    (p.enter c.place id).controlQ = p.controlQ ++ if c = .control then [id] else [] := by
  cases c
  · exact (List.append_nil _).symm
  · rfl
  · exact (List.append_nil _).symm

/-- A group's frame taken in by the members that have room. -/
theorem Hub.group_taken (hu : Hub.Unpended h g) (hroom : ∃ k : Slot, h.Reaches p.targets k ∧ h.Fits p.frame.blocks k)
    (hpasses : h.store.passes p.frame.cls p.frame.blocks = true) :
    let t := g.serveFrame n p
    (∀ k : Slot, (h.Reaches p.targets k ∧ ¬ h.Fits p.frame.blocks k →
        t.ports[k].counters.portLimitDrops = h.ports[k].counters.portLimitDrops + 1 ∧
        (h.alarms.Legal → h.alarms.recs.length < 48 → t.isActive (.slot k .egressDrops) = true)) ∧
      (¬ (h.Reaches p.targets k ∧ ¬ h.Fits p.frame.blocks k) → t.ports[k].counters.portLimitDrops = h.ports[k].counters.portLimitDrops)) ∧
    t.slots = h.slots ∧ t.store.sharedUsed = h.store.sharedUsed + p.frame.blocks ∧
    ∃ stored ∈ t.store.frames, stored.frame = p.frame ∧ stored.fromAgent = false ∧ stored.blocks = p.frame.blocks ∧
      stored.refs = (allSlots.filter fun k => decide (h.Reaches p.targets k ∧ h.Fits p.frame.blocks k)).length ∧
      ∀ k : Slot,
        let entry : List Nat := if h.Reaches p.targets k ∧ h.Fits p.frame.blocks k then [stored.id] else []
        t.ports[k].bulkQ = h.ports[k].bulkQ ++ (if p.frame.cls = .bulk then entry else []) ∧
        ∃ relayed : List Nat,
          t.ports[k].controlQ = h.ports[k].controlQ ++ relayed ++ (if p.frame.cls = .control then entry else []) ∧
          (h.tables.relay ≠ some k → relayed = []) ∧
          ∀ id ∈ relayed, ∃ f ∈ t.store.frames, f.id = id ∧ f.fromAgent = true ∧ f.frame.kind = Kind.alarmRelay := by
  have hd := g.dropped_relayed p
  have hports := (g.dropped p).takeIn_ports p.frame (g.roomy p) (g.roomy_nodup p)
  have hstore := (g.dropped p).takeIn_store p.frame (g.roomy p)
  have hframe := (g.dropped p).takeIn_frame p.frame (g.roomy p)
  have hlength := Hub.roomy_length hu (fun k => decide (h.Reaches p.targets k ∧ h.Fits p.frame.blocks k)) fun k => decide_eq_true_iff
  simp only
  rw [Hub.serveFrame_taken hu (Hub.roomy_ne_nil hu hroom) hpasses]
  have hdrops := Hub.dropped_drops (t := (g.dropped p).takeIn p.frame (g.roomy p)) hu (fun k => by
    rw [hports]
    split
    · cases p.frame.cls <;> rfl
    · rfl) (fun k hactive => by rw [hframe]; exact hactive)
  refine ⟨hdrops, by rw [hframe]; exact hd.slots.trans hu.slots, ?_, ?_⟩
  · rw [hstore]
    show (g.dropped p).store.sharedUsed + p.frame.blocks = _
    rw [hd.shared, hu.shared]
  rw [hstore]
  refine ⟨{ id := (g.dropped p).store.nextId, frame := p.frame, blocks := p.frame.blocks, refs := (g.roomy p).length, fromAgent := false },
    List.mem_append_right _ (List.mem_singleton_self _), rfl, rfl, rfl, hlength, fun k => ?_⟩
  have hbulk : (g.dropped p).ports[k].bulkQ = h.ports[k].bulkQ := (hd.notStored hu).2.1 k
  obtain ⟨relayed, hq, hnone, hids⟩ := hd.relays k
  have hcontrol : (g.dropped p).ports[k].controlQ = h.ports[k].controlQ ++ relayed := by rw [hq, hu.ports k]
  rw [hports]
  refine ⟨?_, relayed, ?_, fun hne => hnone (by rw [hu.tables]; exact hne), fun id hid => ?_⟩
  · by_cases hk : h.Reaches p.targets k ∧ h.Fits p.frame.blocks k
    · rw [if_pos (hu.mem_roomy.mpr hk), if_pos hk, Port.enter_bulkQ, hbulk]
    · rw [if_neg (mt hu.mem_roomy.mp hk), if_neg hk, hbulk, ite_self, List.append_nil]
  · by_cases hk : h.Reaches p.targets k ∧ h.Fits p.frame.blocks k
    · rw [if_pos (hu.mem_roomy.mpr hk), if_pos hk, Port.enter_controlQ, hcontrol]
    · rw [if_neg (mt hu.mem_roomy.mp hk), if_neg hk, hcontrol, ite_self, List.append_nil]
  · obtain ⟨f, hf, hrest⟩ := hids id hid
    exact ⟨f, List.mem_append_left _ hf, hrest⟩

end

theorem exec_arbiter_control {s : State} {n : Slot} {p : PendingFrame} {rest : List PendingFrame}
    (hp : (rotation s.hub.store.lastControl).find? (fun k => !s.hub.ports[k].pendControl.isEmpty) = some n ∧ s.hub.ports[n].pendControl = p :: rest) :
    exec .arbiterService s = .next { s with hub := (s.hub.takenControl n rest).serveFrame n p } :=
  State.onHub_to (Hub.arbitrate_control hp.1 hp.2)

theorem exec_arbiter_bulk {s : State} {n : Slot} {p : PendingFrame} {rest : List PendingFrame}
    (hp : (∀ k : Slot, s.hub.ports[k].pendControl = []) ∧
      (rotation s.hub.store.lastBulk).find? (fun k => !s.hub.ports[k].pendBulk.isEmpty) = some n ∧ s.hub.ports[n].pendBulk = p :: rest) :
    exec .arbiterService s = .next { s with hub := (s.hub.takenBulk n rest).serveFrame n p } :=
  State.onHub_to (Hub.arbitrate_bulk hp.1 hp.2.1 hp.2.2)

/-- What the arbiter serves, of either class. -/
theorem arbitrate_either {s : State} {n : Slot} {p : PendingFrame} {rest : List PendingFrame}
    (hp : (rotation s.hub.store.lastControl).find? (fun k => !s.hub.ports[k].pendControl.isEmpty) = some n ∧ s.hub.ports[n].pendControl = p :: rest ∨
      (∀ k : Slot, s.hub.ports[k].pendControl = []) ∧
      (rotation s.hub.store.lastBulk).find? (fun k => !s.hub.ports[k].pendBulk.isEmpty) = some n ∧ s.hub.ports[n].pendBulk = p :: rest) :
    ∃ g : Hub, Hub.Unpended s.hub g ∧ s.hub.arbitrate = g.serveFrame n p :=
  hp.elim (fun hc => ⟨_, s.hub.takenControl_unpended n rest, Hub.arbitrate_control hc.1 hc.2⟩)
    fun hb => ⟨_, s.hub.takenBulk_unpended n rest, Hub.arbitrate_bulk hb.1 hb.2.1 hb.2.2⟩

theorem Store.passes_of_control {st : Store} {f : Frame} (hc : f.cls = .control) : st.passes f.cls f.blocks = decide (f.blocks ≤ st.freeShared) := by
  rw [hc]
  rfl

theorem Store.passes_of_bulk {st : Store} {f : Frame} (hb : f.cls = .bulk) : st.passes f.cls f.blocks = decide (64 + f.blocks ≤ st.freeShared) := by
  rw [hb]
  rfl

/-- Settles O44: the first pending frame is taken, and its reachable members with room share one copy where the shared pool takes it. -/
theorem arbiterService : Obligations.ArbiterService := by
  intro s n m f rest h first controlOf bulkOf single control bulk fits room counted notStored storeFull taken
  refine ⟨fun hp hroom hcls hpool => ?_, fun hp hroom hcls hpool => ?_, fun hp hroom hcls hpool => ?_, fun hp hroom hcls hpool => ?_,
    fun hp hreach hfits => ?_, fun hp hreach => ?_, fun hp hreach => ?_, fun i mask => ?_, fun hnone => ?_⟩
  · have hu := s.hub.takenControl_unpended n rest
    obtain ⟨hstored, hlast, -, hslots, htables, hports⟩ := Hub.single_taken (n := n) (p := single) hu ⟨rfl, rfl⟩ rfl hroom
      ((Store.passes_of_control hcls).trans (decide_eq_true hpool))
    refine ⟨_, exec_arbiter_control hp, hstored, hlast, ?_, ?_, hslots, htables⟩
    · show (((s.hub.takenControl n rest).serveFrame n single).ports[n]).pendControl = rest
      rw [hports n, hcls]
      split
      · exact s.hub.takenControl_pending n rest
      · exact s.hub.takenControl_pending n rest
    · show (((s.hub.takenControl n rest).serveFrame n single).ports[m]).controlQ = _
      rw [hports m, if_pos rfl, hcls, hu.ports m]
      rfl
  · have hu := s.hub.takenBulk_unpended n rest
    obtain ⟨hstored, -, hlast, hslots, htables, hports⟩ := Hub.single_taken (n := n) (p := single) hu ⟨rfl, rfl⟩ rfl hroom
      ((Store.passes_of_bulk hcls).trans (decide_eq_true hpool))
    refine ⟨_, exec_arbiter_bulk hp, hstored, hlast, ?_, ?_, hslots, htables⟩
    · show (((s.hub.takenBulk n rest).serveFrame n single).ports[n]).pendBulk = rest
      rw [hports n, hcls]
      split
      · exact s.hub.takenBulk_pending n rest
      · exact s.hub.takenBulk_pending n rest
    · show (((s.hub.takenBulk n rest).serveFrame n single).ports[m]).bulkQ = _
      rw [hports m, if_pos rfl, hcls, hu.ports m]
      rfl
  · obtain ⟨⟨-, hpending⟩, hnot, hslots, hcounters, hactive⟩ := Hub.single_storeFull (n := n) (p := single) (s.hub.takenBulk_unpended n rest) rfl hroom
      ((Store.passes_of_bulk hcls).trans (decide_eq_false (Nat.not_le_of_lt hpool)))
    exact ⟨_, exec_arbiter_bulk hp, hpending.trans (s.hub.takenBulk_pending n rest), hnot, hslots, hcounters, hactive⟩
  · obtain ⟨⟨hpending, -⟩, hnot, hslots, hcounters, hactive⟩ := Hub.single_storeFull (n := n) (p := single) (s.hub.takenControl_unpended n rest) rfl hroom
      ((Store.passes_of_control hcls).trans (decide_eq_false (Nat.not_le_of_lt hpool)))
    exact ⟨_, exec_arbiter_control hp, hpending.trans (s.hub.takenControl_pending n rest), hnot, hslots, hcounters, hactive⟩
  · obtain ⟨g, hu, hserves⟩ := arbitrate_either hp
    exact ⟨_, State.onHub_to hserves, Hub.single_crowded hu rfl hreach hfits⟩
  · have hu := s.hub.takenControl_unpended n rest
    have hserved := Hub.serveFrame_slot (n := n) (p := single) (m := m) rfl
      ((Hub.reachables_of_single (p := single) rfl hu).trans (if_neg (by rw [hreach]; decide)))
    refine ⟨_, State.onHub_to ((Hub.arbitrate_control hp.1 hp.2).trans hserved), rfl, ?_, rfl, fun j => ?_⟩
    · exact (((Hub.Relayed.refl _).count _).pending n).1.trans (s.hub.takenControl_pending n rest)
    · rw [Hub.count_counters, hu.ports m, hu.ports j]
  · have hu := s.hub.takenBulk_unpended n rest
    have hserved := Hub.serveFrame_slot (n := n) (p := single) (m := m) rfl
      ((Hub.reachables_of_single (p := single) rfl hu).trans (if_neg (by rw [hreach]; decide)))
    refine ⟨_, State.onHub_to ((Hub.arbitrate_bulk hp.1 hp.2.1 hp.2.2).trans hserved), rfl, ?_, rfl, fun j => ?_⟩
    · exact (((Hub.Relayed.refl _).count _).pending n).2.trans (s.hub.takenBulk_pending n rest)
    · rw [Hub.count_counters, hu.ports m, hu.ports j]
  · intro p reached drops
    refine ⟨fun hp hnone => ?_, fun hp hreached hnone => ?_, fun hp hroom => ?_, fun hp hroom => ?_⟩
    · obtain ⟨g, hu, hserves⟩ := arbitrate_either hp
      exact ⟨_, State.onHub_to hserves, Hub.group_unreached hu rfl hnone⟩
    · obtain ⟨g, hu, hserves⟩ := arbitrate_either hp
      have hserved := Hub.group_crowded (n := n) (p := p) hu hreached hnone
      have hd := g.dropped_relayed p
      refine ⟨_, State.onHub_to (hserves.trans hserved), hd.notStored hu, Hub.dropped_drops (p := p) hu (fun _ => rfl) fun _ hactive => hactive,
        hd.slots.trans hu.slots, ?_⟩
      show ((g.dropped p).ports[n]).counters.storeFull = _
      rw [Hub.dropped_counters hu]
      split <;> rfl
    · obtain ⟨g, hu, hserves⟩ := arbitrate_either (hp.imp And.left And.left)
      have hfull : h.store.passes p.frame.cls p.frame.blocks = false := hp.elim
        (fun hc => (Store.passes_of_control hc.2.1).trans (decide_eq_false (Nat.not_le_of_lt hc.2.2)))
        fun hb => (Store.passes_of_bulk hb.2.1).trans (decide_eq_false (Nat.not_le_of_lt hb.2.2))
      exact ⟨_, State.onHub_to hserves, Hub.group_storeFull hu hroom hfull⟩
    · obtain ⟨g, hu, hserves⟩ := arbitrate_either (hp.imp And.left And.left)
      have hpasses : h.store.passes p.frame.cls p.frame.blocks = true := hp.elim
        (fun hc => (Store.passes_of_control hc.2.1).trans (decide_eq_true hc.2.2))
        fun hb => (Store.passes_of_bulk hb.2.1).trans (decide_eq_true hb.2.2)
      exact ⟨_, State.onHub_to hserves, Hub.group_taken hu hroom hpasses⟩
  · exact State.onHub_same (Hub.arbitrate_nothing hnone)

end Sys2Proof.Machine
end

section
/-! PROOFS. The clock and its boundaries (sections 6.1, 6.5 and 7.2). -/

namespace Sys2Proof.Machine

/-! ## The boundaries that the clock passes (R98) -/

theorem HubTime.total_mod_nsPerFrame (t : HubTime) : t.total % nsPerFrame = t.ns % nsPerFrame := by
  unfold HubTime.total nsPerSec nsPerFrame
  omega

theorem HubTime.eq_ofTotal_iff {v : Nat} (hv : v < 2 ^ 48 * nsPerSec) (t : HubTime) :
    t = HubTime.ofTotal v ↔ t.Legal ∧ t.total = v := by
  refine ⟨fun he => he ▸ ⟨HubTime.ofTotal_legal v, HubTime.total_ofTotal hv⟩, fun ⟨⟨hsec, hns⟩, htotal⟩ => ?_⟩
  obtain ⟨sec, ns⟩ := t
  subst htotal
  simp only [HubTime.ofTotal, HubTime.total, nsPerSec, HubTime.mk.injEq] at *
  omega

theorem mem_boundariesAt {v : Nat} (hv : v < 2 ^ 48 * nsPerSec) (b : Boundary) :
    b ∈ boundariesAt v ↔ b.time.Legal ∧ b.time.total = v ∧ (b.sort = .second → b.time.ns = 0) := by
  rw [← and_assoc, ← HubTime.eq_ofTotal_iff hv]
  obtain ⟨sort, time⟩ := b
  unfold boundariesAt
  cases sort
  · simp
  · simp only [List.mem_cons, Boundary.mk.injEq, reduceCtorEq, false_and, false_or, forall_const]
    split
    · next hns => exact ⟨fun hb => by simp_all, fun hb => by simp_all⟩
    · next hns => exact ⟨fun hb => by simp_all, fun ⟨ht, hz⟩ => absurd (ht ▸ hz) hns⟩

/-- The multiples of the frame period above `total` and up to `total + gap` (R98). -/
theorem exists_frame_iff (total gap v : Nat) :
    (∃ i < (total + gap) / nsPerFrame - total / nsPerFrame, v = (total / nsPerFrame + 1 + i) * nsPerFrame) ↔
      v % nsPerFrame = 0 ∧ total < v ∧ v ≤ total + gap := by
  unfold nsPerFrame
  constructor
  · rintro ⟨i, hi, rfl⟩
    omega
  · intro ⟨hmod, hlo, hhi⟩
    exact ⟨v / 10000000 - total / 10000000 - 1, by omega, by omega⟩

theorem frame_lt_wrap {total gap i : Nat} (hwrap : total + gap < 2 ^ 48 * nsPerSec)
    (hi : i < (total + gap) / nsPerFrame - total / nsPerFrame) : (total / nsPerFrame + 1 + i) * nsPerFrame < 2 ^ 48 * nsPerSec :=
  (((exists_frame_iff total gap _).mp ⟨i, hi, rfl⟩).2.2).trans_lt hwrap

theorem mem_boundariesPassed {total gap : Nat} (hwrap : total + gap < 2 ^ 48 * nsPerSec) (b : Boundary) :
    b ∈ boundariesPassed total gap ↔ b.time.Legal ∧ b.time.ns % nsPerFrame = 0 ∧ (b.sort = .second → b.time.ns = 0) ∧
      total < b.time.total ∧ b.time.total ≤ total + gap := by
  have hframe := exists_frame_iff total gap b.time.total
  rw [HubTime.total_mod_nsPerFrame] at hframe
  simp only [boundariesPassed, List.mem_flatMap, List.mem_range]
  constructor
  · rintro ⟨i, hi, hb⟩
    obtain ⟨hlegal, htotal, hsecond⟩ := (mem_boundariesAt (frame_lt_wrap hwrap hi) b).mp hb
    obtain ⟨hmod, hrange⟩ := hframe.mp ⟨i, hi, htotal⟩
    exact ⟨hlegal, hmod, hsecond, hrange⟩
  · rintro ⟨hlegal, hmod, hsecond, hrange⟩
    obtain ⟨i, hi, htotal⟩ := hframe.mpr ⟨hmod, hrange⟩
    exact ⟨i, hi, (mem_boundariesAt (frame_lt_wrap hwrap hi) b).mpr ⟨hlegal, htotal, hsecond⟩⟩

/-- The boundaries passed come in order, a frame boundary before the second boundary of the same time. -/
theorem boundariesPassed_pairwise {total gap : Nat} (hwrap : total + gap < 2 ^ 48 * nsPerSec) :
    (boundariesPassed total gap).Pairwise fun a b =>
      a.time.total < b.time.total ∨ a.time = b.time ∧ a.sort = .frame ∧ b.sort = .second := by
  refine List.pairwise_flatMap.mpr ⟨fun i _ => ?_, List.Pairwise.imp_of_mem ?_ List.pairwise_lt_range⟩
  · unfold boundariesAt
    simp only
    split <;> simp
  · intro i j hi hj hij a ha b hb
    have hit := ((mem_boundariesAt (frame_lt_wrap hwrap (List.mem_range.mp hi)) a).mp ha).2.1
    have hjt := ((mem_boundariesAt (frame_lt_wrap hwrap (List.mem_range.mp hj)) b).mp hb).2.1
    refine .inl ?_
    rw [hit, hjt]
    exact Nat.mul_lt_mul_of_pos_right (by omega) (by decide)

/-- The clock that does not wrap in a run (R98, R110). -/
theorem Clock.run_of_room {clock : Clock} {k : Int} {dt : Nat} (hlo : -1000 ≤ k) (hhi : k ≤ 1000) (hcarry : clock.carry < nsPerSec)
    (hroom : clock.now.total + 2 * dt + 1 < 2 ^ 48 * nsPerSec) :
    (clock.gain k dt : Int) = dt * (nsPerSec + k) + clock.carry ∧ clock.now.total + clock.gain k dt / nsPerSec < 2 ^ 48 * nsPerSec := by
  have hpos : (0 : Int) ≤ dt * (nsPerSec + k) := mul_nonneg (by omega) (by unfold nsPerSec; omega)
  have hgain : (clock.gain k dt : Int) = dt * (nsPerSec + k) + clock.carry := by
    unfold Clock.gain
    omega
  refine ⟨hgain, ?_⟩
  have hle : (dt : Int) * (nsPerSec + k) ≤ dt * (2 * nsPerSec) := mul_le_mul_of_nonneg_left (by unfold nsPerSec; omega) (by omega)
  have hdiv : clock.gain k dt / nsPerSec ≤ 2 * dt := by
    refine Nat.lt_succ_iff.mp ((Nat.div_lt_iff_lt_mul (by decide)).mpr ?_)
    unfold nsPerSec at *
    omega
  omega

/-! ## FRAME_BOUNDARY -/

theorem Clock.take_first_frame {c : Clock} {earlier later : List Boundary} {time : HubTime}
    (hdue : c.due = earlier ++ { sort := .frame, time } :: later) (hearlier : ∀ b ∈ earlier, b.sort = .second) :
    c.first .frame = some { sort := .frame, time } ∧ c.take .frame = { c with due := earlier ++ later } := by
  have hnone : ∀ b ∈ earlier, ¬ (b.sort == BoundarySort.frame) = true := fun b hb => by rw [hearlier b hb]; decide
  unfold Clock.first Clock.take
  rw [hdue, List.find?_append, List.find?_eq_none.mpr hnone, List.eraseP_append_right _ hnone]
  simp

theorem Hub.frameBoundary_of_due {h : Hub} {earlier later : List Boundary} {time : HubTime}
    (hdue : h.clock.due = earlier ++ { sort := .frame, time } :: later) (hearlier : ∀ b ∈ earlier, b.sort = .second) :
    h.frameBoundary = ({ h with clock := { h.clock with due := earlier ++ later } } : Hub).countFrame time := by
  obtain ⟨hfirst, htake⟩ := Clock.take_first_frame hdue hearlier
  unfold Hub.frameBoundary
  simp only [hfirst, Option.isSome_some, if_true, htake]

/-- The clock run on to its next frame boundary, where hub time does not wrap. -/
theorem Clock.toFrame_of_room {c : Clock} (hlegal : c.now.Legal) (hroom : c.now.sec + 1 < 2 ^ 48) :
    c.toFrame.now.ns % nsPerFrame = 0 ∧ c.now.total < c.toFrame.now.total ∧ c.toFrame.now.total ≤ c.now.total + nsPerFrame ∧
      c.toFrame.elapsed + c.now.total = c.elapsed + c.toFrame.now.total ∧
      c.toFrame.due = c.due ++ { sort := .frame, time := c.toFrame.now } ::
        if c.toFrame.now.ns = 0 then [{ sort := .second, time := c.toFrame.now }] else [] := by
  obtain ⟨-, hns⟩ := hlegal
  have hmod := c.now.total_mod_nsPerFrame
  have hnext : c.now.total + (nsPerFrame - c.now.ns % nsPerFrame) = (c.now.total / nsPerFrame + 1 + 0) * nsPerFrame := by
    unfold nsPerFrame at *
    omega
  have hwrap : c.now.total + (nsPerFrame - c.now.ns % nsPerFrame) < 2 ^ 48 * nsPerSec := by
    unfold HubTime.total nsPerSec nsPerFrame at *
    omega
  have htotal : c.toFrame.now.total = c.now.total + (nsPerFrame - c.now.ns % nsPerFrame) := HubTime.total_ofTotal hwrap
  have hless : c.now.ns % nsPerFrame < nsPerFrame := Nat.mod_lt _ (by decide)
  refine ⟨?_, by omega, by omega, ?_, ?_⟩
  · rw [← HubTime.total_mod_nsPerFrame, htotal, hnext, Nat.mul_mod_left]
  · show c.elapsed + _ + _ = _
    omega
  · have hone : (c.now.total + (nsPerFrame - c.now.ns % nsPerFrame)) / nsPerFrame - c.now.total / nsPerFrame = 1 := by
      rw [hnext, Nat.mul_div_cancel _ (by decide)]
      omega
    show c.due ++ boundariesPassed _ _ = _
    unfold boundariesPassed
    rw [hone]
    show _ ++ (boundariesAt _ ++ []) = _
    rw [← hnext, List.append_nil]
    rfl

theorem Hub.frameBoundary_of_none {h : Hub} (hdue : ∀ b ∈ h.clock.due, b.sort = .second) (hlegal : h.clock.now.Legal)
    (hroom : h.clock.now.sec + 1 < 2 ^ 48) :
    h.frameBoundary = ({ h with clock := { h.clock.toFrame with
      due := h.clock.due ++ if h.clock.toFrame.now.ns = 0 then [{ sort := .second, time := h.clock.toFrame.now }] else [] } } : Hub).countFrame
        h.clock.toFrame.now := by
  obtain ⟨-, -, -, -, hpassed⟩ := Clock.toFrame_of_room hlegal hroom
  obtain ⟨hfirst, htake⟩ := Clock.take_first_frame hpassed hdue
  have hnone : h.clock.first .frame = none :=
    List.find?_eq_none.mpr fun b hb => by rw [hdue b hb]; decide
  unfold Hub.frameBoundary
  simp only [hnone, Option.isSome_none, Bool.false_eq_true, if_false, hfirst, htake]

/-! ## ANNOUNCE_BOUNDARY without a boundary to take -/

theorem Hub.takeAnnounce_of_nil {h : Hub} (hnone : h.clock.announces = []) : h.takeAnnounce = h := by
  unfold Hub.takeAnnounce
  rw [hnone]

theorem Hub.takeAnnounce_of_cons {h : Hub} {time : HubTime} {later : List HubTime} (hdue : h.clock.announces = time :: later) :
    h.takeAnnounce = ({ h with clock := { h.clock with announces := later } } : Hub).announce time := by
  unfold Hub.takeAnnounce
  rw [hdue]

theorem Hub.announceBoundary_of_due {h : Hub} {time : HubTime} {later : List HubTime} (hdue : h.clock.announces = time :: later) :
    h.announceBoundary = ({ h with clock := { h.clock with announces := later } } : Hub).announce time := by
  unfold Hub.announceBoundary
  rw [if_neg (by rw [hdue]; simp), Hub.takeAnnounce_of_cons hdue]

theorem Hub.announceBoundary_of_not_reached {h : Hub} (hnone : h.clock.announces = [])
    (hreach : ¬ h.tables.timing.announceInterval ≤ h.timing.announceCount + 1) : h.announceBoundary = h := by
  unfold Hub.announceBoundary
  rw [if_neg fun hboth => hreach hboth.2, Hub.takeAnnounce_of_nil hnone]

/-- A frame boundary that brings the announce counter to N leaves an announce boundary due, or changes nothing. -/
theorem Hub.frameBoundary_of_reached {h : Hub} (hreach : h.tables.timing.announceInterval ≤ h.timing.announceCount + 1) :
    h.frameBoundary = h ∨ ∃ time earlier, h.frameBoundary.clock.announces = earlier ++ [time] := by
  unfold Hub.frameBoundary
  simp only
  split
  · exact .inr ⟨_, _, by unfold Hub.countFrame; rw [if_pos hreach]⟩
  · exact .inl rfl

theorem Hub.announceBoundary_frameBoundary {h : Hub} (hnone : h.clock.announces = [])
    (hreach : h.tables.timing.announceInterval ≤ h.timing.announceCount + 1) : h.announceBoundary = h.frameBoundary.announceBoundary := by
  rcases Hub.frameBoundary_of_reached hreach with hsame | ⟨time, earlier, hdue⟩
  · rw [hsame]
  · have hleft : h.announceBoundary = h.frameBoundary.takeAnnounce := by
      unfold Hub.announceBoundary
      rw [if_pos ⟨hnone, hreach⟩]
    have hright : h.frameBoundary.announceBoundary = h.frameBoundary.takeAnnounce := by
      conv_lhs => unfold Hub.announceBoundary
      rw [if_neg (by rw [hdue]; simp)]
    rw [hleft, hright]

end Sys2Proof.Machine
end

section
/-! PROOFS. The work of an announce boundary for one slot (section 7.2). -/

namespace Sys2Proof.Machine

/-! ## The timing record -/

/-- A record after a miss: the third in a row loses the path (R124). -/
def TimingRec.missed (r : TimingRec) : TimingRec :=
  { r with misses := min 3 (r.misses + 1), pathLost := r.pathLost || decide (2 ≤ r.misses) }

/-- A record whose outstanding probe, if it has one, counts as missed (R124). -/
def TimingRec.outstandingMissed (r : TimingRec) : TimingRec := if r.probe.isSome then { r with probe := none }.missed else r

/-- A record after a probe attempt, whose DELAY_PROBE has been placed or not (R123). -/
def TimingRec.probed (r : TimingRec) (sent : Bool) : TimingRec :=
  if sent then { r with sequence := r.sequence + 1, probe := some { sequence := r.sequence + 1, t1 := none } }
  else { r with sequence := r.sequence + 1 }.missed

/-- A record after an announce boundary (R121). -/
def TimingRec.announced (r : TimingRec) (sent : Bool) : TimingRec := r.outstandingMissed.probed sent

/-- `g` differs from `h` in the timing records by `f` at one slot, and in permits. -/
def Hub.TrecBy (n : Slot) (f : TimingRec → TimingRec) (h g : Hub) : Prop :=
  ∀ m : Slot, g.trecs[m] = { (if n = m then f h.trecs[m] else h.trecs[m]) with granted := g.trecs[m].granted }

/-- A change of a record that does not look at the permit and leaves it. -/
def TimingRec.SparesPermit (f : TimingRec → TimingRec) : Prop := ∀ (r : TimingRec) b, f { r with granted := b } = { f r with granted := b }

theorem TimingRec.missed_spares : TimingRec.SparesPermit TimingRec.missed := fun _ _ => rfl

theorem TimingRec.outstandingMissed_spares : TimingRec.SparesPermit TimingRec.outstandingMissed := by
  intro r b
  unfold TimingRec.outstandingMissed
  split <;> rfl

theorem TimingRec.probed_spares (sent : Bool) : TimingRec.SparesPermit (TimingRec.probed · sent) := by
  intro r b
  cases sent <;> rfl

theorem TimingRec.announced_spares (sent : Bool) : TimingRec.SparesPermit (TimingRec.announced · sent) := fun r b =>
  (congrArg (TimingRec.probed · sent) (TimingRec.outstandingMissed_spares r b)).trans (TimingRec.probed_spares sent _ b)

theorem Hub.TrecBy.of_quiet {h g : Hub} (n : Slot) (q : Hub.Quiet h g) : Hub.TrecBy n id h g := fun m =>
  (q.trecs m).trans (by rw [id_def, ite_self])

theorem Hub.TrecBy.modTrec (h : Hub) (n : Slot) (f : TimingRec → TimingRec) : Hub.TrecBy n f h (h.modTrec n f) := fun m => by
  rw [Hub.modTrec_trecs]
  by_cases hm : n = m
  · subst hm
    rw [if_pos rfl]
  · rw [if_neg hm, if_neg hm]

theorem Hub.TrecBy.trans {n : Slot} {f f' : TimingRec → TimingRec} {h g k : Hub} (hf' : TimingRec.SparesPermit f')
    (a : Hub.TrecBy n f h g) (b : Hub.TrecBy n f' g k) : Hub.TrecBy n (f' ∘ f) h k := fun m => by
  rw [b m, a m]
  by_cases hm : n = m
  · simp only [if_pos hm]
    rw [hf']
    rfl
  · simp only [if_neg hm]

/-- What follows a change of one record, where nothing but permits change. -/
theorem Hub.TrecBy.quiet {n : Slot} {f : TimingRec → TimingRec} {h g k : Hub} (a : Hub.TrecBy n f h g) (q : Hub.Quiet g k) :
    Hub.TrecBy n f h k := Hub.TrecBy.trans (f' := id) (fun _ _ => rfl) a (.of_quiet n q)

theorem Hub.TrecBy.congr {n : Slot} {f f' : TimingRec → TimingRec} {h g : Hub} (a : Hub.TrecBy n f h g)
    (he : f h.trecs[n] = f' h.trecs[n]) : Hub.TrecBy n f' h g := fun m => by
  rw [a m]
  by_cases hm : n = m
  · subst hm
    simp only [if_true, he]
  · simp only [if_neg hm]

theorem Hub.TrecBy.self {n : Slot} {f : TimingRec → TimingRec} {h g : Hub} (a : Hub.TrecBy n f h g) :
    g.trecs[n] = { f h.trecs[n] with granted := g.trecs[n].granted } := (a n).trans (by rw [if_pos rfl])

theorem Hub.TrecBy.other {n : Slot} {f : TimingRec → TimingRec} {h g : Hub} (a : Hub.TrecBy n f h g) {m : Slot} (hm : n ≠ m) :
    g.trecs[m] = { h.trecs[m] with granted := g.trecs[m].granted } := (a m).trans (by rw [if_neg hm])

/-! ## What an announce boundary leaves -/

/-- `g` has the slots, the settings, the clock and the Timing Unit's record of `h`. -/
structure Hub.Steady (h g : Hub) : Prop where
  slots : g.slots = h.slots
  tables : g.tables = h.tables
  clock : g.clock = h.clock
  timing : g.timing = h.timing

theorem Hub.Steady.refl (h : Hub) : Hub.Steady h h := ⟨rfl, rfl, rfl, rfl⟩

theorem Hub.Steady.trans {h g k : Hub} (a : Hub.Steady h g) (b : Hub.Steady g k) : Hub.Steady h k :=
  ⟨b.slots.trans a.slots, b.tables.trans a.tables, b.clock.trans a.clock, b.timing.trans a.timing⟩

theorem Hub.Quiet.steady {h g : Hub} (q : Hub.Quiet h g) : Hub.Steady h g := ⟨q.slots, q.tables, q.clock, q.timing⟩

theorem Hub.Steady.modTrec (h : Hub) (n : Slot) (f : TimingRec → TimingRec) : Hub.Steady h (h.modTrec n f) := ⟨rfl, rfl, rfl, rfl⟩

/-- The hub with no free reserve block keeps its store and its queues through every move of the Alarm Unit. -/
theorem AlarmClosed.reserveEmpty {store : Store} (hfull : store.freeReserve = 0) (ports : Vector Port 12) :
    AlarmClosed fun h => h.store = store ∧ h.ports = ports where
  alarms _ _ _ hh := hh
  notice _ _ _ hh := hh
  permit _ _ _ hh := hh
  fence _ _ hh := hh
  refusal _ hh := hh
  placed _ _ _ _ _ _ _ hroom hh := absurd (hh.1 ▸ hfull) hroom

/-! ## A miss -/

theorem Hub.miss_spec (h : Hub) (n : Slot) :
    Hub.Steady h (h.miss n) ∧ Hub.TrecBy n TimingRec.missed h (h.miss n) ∧
      (h.store.freeReserve = 0 → (h.miss n).store = h.store ∧ (h.miss n).ports = h.ports) := by
  unfold Hub.miss
  simp only
  split
  · next hlost =>
    simp only [Bool.and_eq_true, decide_eq_true_eq, Bool.not_eq_true'] at hlost
    obtain ⟨hthree, hpath⟩ := hlost
    have q := ((h.modTrec n fun r => { r with misses := min 3 (h.trecs[n].misses + 1), pathLost := true }).raise_quiet
      (.slot n .timingPathLost)).trans (Hub.judgePermit_quiet _ .path n)
    refine ⟨(Hub.Steady.modTrec h n _).trans q.steady, ((Hub.TrecBy.modTrec h n _).quiet q).congr ?_, fun hfull => ?_⟩
    · unfold TimingRec.missed
      rw [decide_eq_true (by omega), Bool.or_true]
    · have hP := AlarmClosed.reserveEmpty hfull h.ports
      exact hP.judgePermit (hP.raise (h := h.modTrec n _) ⟨rfl, rfl⟩ _) _ _
  · next hkeeps =>
    refine ⟨.modTrec h n _, (Hub.TrecBy.modTrec h n _).congr ?_, fun _ => ⟨rfl, rfl⟩⟩
    simp only [Bool.and_eq_true, decide_eq_true_eq, Bool.not_eq_true', not_and, Bool.not_eq_false] at hkeeps
    unfold TimingRec.missed
    have hsame : (h.trecs[n].pathLost || decide (2 ≤ h.trecs[n].misses)) = h.trecs[n].pathLost := by
      by_cases hthree : 2 ≤ h.trecs[n].misses
      · rw [hkeeps (by omega), Bool.true_or]
      · rw [decide_eq_false hthree, Bool.or_false]
    rw [hsame]

/-- A miss that is not the third changes the record alone. -/
theorem Hub.miss_of_lt {h : Hub} {n : Slot} (hless : h.trecs[n].misses < 2) : h.miss n = h.modTrec n TimingRec.missed := by
  unfold Hub.miss
  simp only
  rw [if_neg (by simp only [Bool.and_eq_true, decide_eq_true_eq]; omega)]
  unfold Hub.modTrec TimingRec.missed
  rw [decide_eq_false (by omega), Bool.or_false]

theorem Hub.miss_run {raises clears : AlarmKey → Prop} (h : Hub) (n : Slot) (hlost : raises (.slot n .timingPathLost)) :
    Hub.AlarmRun raises clears h (h.miss n) := by
  unfold Hub.miss
  simp only
  split
  · exact (Hub.AlarmRun.of_eq (g := h.modTrec n _) rfl).trans ((Hub.AlarmRun.raise _ hlost).trans (Hub.AlarmRun.judgePermit _ _ _))
  · exact .of_eq rfl

/-- A third miss loses the path, and TIMING_PATH_LOST is ACTIVE (R124). -/
theorem Hub.miss_isActive {h : Hub} {n : Slot} (hmisses : 2 ≤ h.trecs[n].misses) (hpath : h.trecs[n].pathLost = false)
    (hroom : h.alarms.recs.length < 63 ∨ h.alarms.find (.slot n .timingPathLost) ≠ none) :
    (h.miss n).isActive (.slot n .timingPathLost) = true := by
  unfold Hub.miss
  simp only
  rw [if_pos (by rw [hpath]; simp only [Bool.and_eq_true, decide_eq_true_eq]; exact ⟨by omega, rfl⟩)]
  refine (Hub.AlarmRun.judgePermit (raises := fun _ => True) (clears := fun _ => False) _ _ _).isActive ?_ fun _ hk => hk.elim
  exact Hub.raise_isActive hroom

/-! ## A TIMING frame for a slot in service -/

theorem Frame.blocks_eq_one {f : Frame} (hlen : f.payload.length ≤ 52) : f.blocks = 1 := by
  have := f.blocks_le_one hlen
  unfold Frame.blocks at *
  omega

theorem Store.put_freeReserve (st : Store) {frame : Frame} (hlen : frame.payload.length ≤ 52) (refs : Nat) :
    (st.put frame true refs).freeReserve = st.freeReserve - 1 := by
  show 64 - (st.reserveUsed + frame.blocks) = 64 - st.reserveUsed - 1
  rw [Frame.blocks_eq_one hlen]
  omega

/-- What a TIMING frame placed at a FORWARDING slot changes, where a reserve block is free. -/
structure Hub.Entered (h g : Hub) (n : Slot) (frame : Frame) : Prop where
  store : g.store = h.store.put frame true 1
  ports : ∀ m : Slot, g.ports[m] = if n = m then { h.ports[m] with timingQ := h.ports[m].timingQ ++ [h.store.nextId] } else h.ports[m]
  trecs : g.trecs = h.trecs
  alarms : g.alarms = h.alarms
  steady : Hub.Steady h g

/-- What becomes of a TIMING frame for a FORWARDING slot: placed, or refused with AGENT_OVERLOAD. -/
theorem Hub.place_timing {h : Hub} {n : Slot} (hstate : h.slots[n].state = .forwarding) (frame : Frame) (hlen : frame.payload.length ≤ 52) :
    ((h.place n .timing frame).2 = decide (h.store.freeReserve ≠ 0)) ∧
      (h.store.freeReserve ≠ 0 → Hub.Entered h (h.place n .timing frame).1 n frame) ∧
      (h.store.freeReserve = 0 → (h.place n .timing frame).1.store = h.store ∧ (h.place n .timing frame).1.ports = h.ports) := by
  have htakes : h.slots[n].state.takesAgent .timing = true := by rw [hstate]; rfl
  refine ⟨?_, fun hroom => ?_, fun hfull => ?_⟩
  · unfold Hub.place Hub.placeWith
    simp only [htakes]
    by_cases hfull : h.store.freeReserve = 0 <;> simp [hfull]
  · have hone := Hub.place_of_room (frame := frame) (by decide) htakes hroom
    have hothers := Hub.schedule_others (({ h with store := h.store.put frame true 1 } : Hub).modPort n (·.enter .timing h.store.nextId)) n
    rw [hone]
    refine ⟨h.placed_store n .timing frame, fun m => h.placed_port n .timing frame m, ?_, ?_, (Hub.Quiet.placed h n .timing frame (.inl rfl)).steady⟩
    · rw [hothers.1]
      rfl
    · rw [hothers.1]
      rfl
  · exact (AlarmClosed.reserveEmpty hfull h.ports).place ⟨rfl, rfl⟩ n .timing frame (.inl rfl) hlen

/-- A refused frame leaves AGENT_OVERLOAD ACTIVE where the table has room for it. -/
theorem Hub.place_overload {h : Hub} {n : Slot} (hstate : h.slots[n].state = .forwarding) (frame : Frame)
    (hfull : h.store.freeReserve = 0) (hroom : h.alarms.recs.length < 63 ∨ h.alarms.find (.hub .agentOverload) ≠ none) :
    (h.place n .timing frame).1.isActive (.hub .agentOverload) = true := by
  have htakes : h.slots[n].state.takesAgent .timing = true := by rw [hstate]; rfl
  rw [Hub.place_of_full (by decide) htakes hfull]
  exact Hub.raise_isActive hroom

/-! ## The probe outstanding, and the probe attempt -/

/-- The outstanding probe of a slot, if there is one, counts as missed (R124). -/
def Hub.missOutstanding (h : Hub) (n : Slot) : Hub :=
  if h.trecs[n].probe.isSome then (h.modTrec n fun r => { r with probe := none }).miss n else h

/-- The DELAY_PROBE of a slot's next attempt (R123). -/
def Hub.probeFrame (h : Hub) (n : Slot) : Frame := agentFrame .timing Kind.delayProbe 0 (h.trecs[n].sequence + 1) n []

theorem Hub.announceSlot_eq (b : HubTime) (h : Hub) (n : Slot) :
    h.announceSlot b n = ((h.missOutstanding n).place n .timing ((h.missOutstanding n).announceFrame b n)).1.probeAttempt n := rfl

theorem Hub.missOutstanding_spec (h : Hub) (n : Slot) :
    Hub.Steady h (h.missOutstanding n) ∧ Hub.TrecBy n TimingRec.outstandingMissed h (h.missOutstanding n) ∧
      (h.store.freeReserve = 0 → (h.missOutstanding n).store = h.store ∧ (h.missOutstanding n).ports = h.ports) := by
  unfold Hub.missOutstanding
  split
  · next hprobe =>
    obtain ⟨hsteady, htrec, hstore⟩ := (h.modTrec n fun r => { r with probe := none }).miss_spec n
    refine ⟨(Hub.Steady.modTrec h n _).trans hsteady, ((Hub.TrecBy.modTrec h n _).trans TimingRec.missed_spares htrec).congr ?_, hstore⟩
    unfold TimingRec.outstandingMissed
    rw [if_pos hprobe]
    rfl
  · next hprobe =>
    refine ⟨.refl h, (Hub.TrecBy.of_quiet n (.refl h)).congr ?_, fun _ => ⟨rfl, rfl⟩⟩
    unfold TimingRec.outstandingMissed
    rw [if_neg hprobe]
    rfl

theorem Hub.missOutstanding_of_lt {h : Hub} {n : Slot} (hless : h.trecs[n].misses < 2) :
    h.missOutstanding n = h.modTrec n TimingRec.outstandingMissed := by
  unfold Hub.missOutstanding TimingRec.outstandingMissed
  split
  · next hprobe =>
    rw [Hub.miss_of_lt (by rw [Hub.modTrec_self]; exact hless), Hub.modTrec_modTrec]
    unfold Hub.modTrec
    simp only [hprobe, if_true]
    rfl
  · next hprobe =>
    unfold Hub.modTrec
    simp only [hprobe]
    simp

theorem Hub.missOutstanding_run {raises clears : AlarmKey → Prop} (h : Hub) (n : Slot) (hlost : raises (.slot n .timingPathLost)) :
    Hub.AlarmRun raises clears h (h.missOutstanding n) := by
  unfold Hub.missOutstanding
  split
  · exact (Hub.AlarmRun.of_eq (g := h.modTrec n _) rfl).trans (Hub.miss_run _ n hlost)
  · exact .refl h

theorem Hub.probeFrame_length (h : Hub) (n : Slot) : (h.probeFrame n).payload.length ≤ 52 := by simp [Hub.probeFrame, agentFrame]

/-- The hub at the placing of a slot's DELAY_PROBE (R123). -/
def Hub.probing (h : Hub) (n : Slot) : Hub := h.modTrec n fun r => { r with sequence := h.trecs[n].sequence + 1 }

theorem Hub.probeAttempt_eq (h : Hub) (n : Slot) :
    h.probeAttempt n =
      if ((h.probing n).place n .timing (h.probeFrame n)).2 then
        ((h.probing n).place n .timing (h.probeFrame n)).1.modTrec n fun r =>
          { r with probe := some { sequence := h.trecs[n].sequence + 1, t1 := none } }
      else ((h.probing n).place n .timing (h.probeFrame n)).1.miss n := rfl

theorem Hub.probeAttempt_of_room {h : Hub} {n : Slot} (hstate : h.slots[n].state = .forwarding) (hroom : h.store.freeReserve ≠ 0) :
    h.probeAttempt n = ((h.probing n).place n .timing (h.probeFrame n)).1.modTrec n fun r =>
      { r with probe := some { sequence := h.trecs[n].sequence + 1, t1 := none } } := by
  rw [Hub.probeAttempt_eq, (Hub.place_timing (h := h.probing n) hstate _ (h.probeFrame_length n)).1, if_pos (decide_eq_true (show (h.probing n).store.freeReserve ≠ 0 from hroom))]

theorem Hub.probeAttempt_of_full {h : Hub} {n : Slot} (hstate : h.slots[n].state = .forwarding) (hfull : h.store.freeReserve = 0) :
    h.probeAttempt n = ((h.probing n).place n .timing (h.probeFrame n)).1.miss n := by
  rw [Hub.probeAttempt_eq, (Hub.place_timing (h := h.probing n) hstate _ (h.probeFrame_length n)).1,
    if_neg (by rw [show (h.probing n).store = h.store from rfl, hfull]; decide)]

theorem Hub.probeAttempt_spec {h : Hub} {n : Slot} (hstate : h.slots[n].state = .forwarding) :
    Hub.Steady h (h.probeAttempt n) ∧
      Hub.TrecBy n (TimingRec.probed · (decide (h.store.freeReserve ≠ 0))) h (h.probeAttempt n) ∧
      (h.store.freeReserve = 0 → (h.probeAttempt n).store = h.store ∧ (h.probeAttempt n).ports = h.ports) := by
  have hq := (h.probing n).place_quiet n .timing (h.probeFrame n) (.inl rfl) (h.probeFrame_length n)
  have hseq := (Hub.TrecBy.modTrec h n fun r => { r with sequence := h.trecs[n].sequence + 1 }).quiet hq
  by_cases hfull : h.store.freeReserve = 0
  · rw [Hub.probeAttempt_of_full hstate hfull]
    obtain ⟨-, -, hkept⟩ := Hub.place_timing (h := h.probing n) hstate (h.probeFrame n) (h.probeFrame_length n)
    obtain ⟨hstore, hports⟩ := hkept hfull
    obtain ⟨hsteady, htrec, hmissKept⟩ := Hub.miss_spec ((h.probing n).place n .timing (h.probeFrame n)).1 n
    refine ⟨((Hub.Steady.modTrec h n _).trans hq.steady).trans hsteady, (hseq.trans TimingRec.missed_spares htrec).congr ?_, fun _ => ?_⟩
    · rw [decide_eq_false (by rw [hfull]; exact fun hn => hn rfl)]
      rfl
    · obtain ⟨hstore', hports'⟩ := hmissKept (by rw [hstore]; exact hfull)
      exact ⟨hstore'.trans hstore, hports'.trans hports⟩
  · rw [Hub.probeAttempt_of_room hstate hfull]
    refine ⟨((Hub.Steady.modTrec h n _).trans hq.steady).trans (.modTrec _ n _), ?_, fun h0 => absurd h0 hfull⟩
    refine (hseq.trans (fun _ _ => rfl) (Hub.TrecBy.modTrec _ n _)).congr ?_
    rw [decide_eq_true hfull]
    rfl

theorem Hub.probeAttempt_run {raises clears : AlarmKey → Prop} (h : Hub) (n : Slot) (hlost : raises (.slot n .timingPathLost)) :
    Hub.AlarmRun raises clears h (h.probeAttempt n) := by
  rw [Hub.probeAttempt_eq]
  have hplace : Hub.AlarmRun raises clears h ((h.probing n).place n .timing (h.probeFrame n)).1 :=
    (Hub.AlarmRun.of_eq (g := h.probing n) rfl).trans (Hub.AlarmRun.place _ n .timing _ (.inl rfl) (h.probeFrame_length n))
  split
  · exact hplace.trans (.of_eq rfl)
  · exact hplace.trans (Hub.miss_run _ n hlost)

end Sys2Proof.Machine
end

section
/-! PROOFS. The event of an announce boundary (section 7.2). -/

namespace Sys2Proof.Machine

/-! ## One slot -/

theorem Hub.announceFrame_congr {h g : Hub} {n : Slot} (b : HubTime) (hsteady : Hub.Steady h g)
    (happlied : g.trecs[n].applied = h.trecs[n].applied) (hgranted : g.trecs[n].granted = h.trecs[n].granted) :
    g.announceFrame b n = h.announceFrame b n := by
  unfold Hub.announceFrame Hub.inSpec
  simp only
  rw [happlied, hgranted, hsteady.clock, hsteady.timing]

/-- The free reserve after the ANNOUNCE of a slot has taken its block, or found none. -/
theorem Hub.place_timing_freeReserve {h : Hub} {n : Slot} (hstate : h.slots[n].state = .forwarding) (frame : Frame)
    (hlen : frame.payload.length ≤ 52) : (h.place n .timing frame).1.store.freeReserve = h.store.freeReserve - 1 := by
  obtain ⟨-, hentered, hkept⟩ := Hub.place_timing hstate frame hlen
  by_cases hfull : h.store.freeReserve = 0
  · rw [(hkept hfull).1, hfull]
  · rw [(hentered hfull).store, Store.put_freeReserve _ hlen]

/-- What the work for one slot does in every case (R121). -/
theorem Hub.announceSlot_spec (b : HubTime) {h : Hub} {n : Slot} (hstate : h.slots[n].state = .forwarding) :
    Hub.Steady h (h.announceSlot b n) ∧
      Hub.TrecBy n (TimingRec.announced · (decide (1 < (h.missOutstanding n).store.freeReserve))) h (h.announceSlot b n) ∧
      (h.store.freeReserve = 0 → (h.announceSlot b n).store = h.store ∧ (h.announceSlot b n).ports = h.ports) := by
  rw [Hub.announceSlot_eq]
  obtain ⟨hsteady, htrec, hkept⟩ := h.missOutstanding_spec n
  set p := h.missOutstanding n
  have hlen := p.announceFrame_length b n
  have hp : p.slots[n].state = .forwarding := by rw [hsteady.slots]; exact hstate
  have hq := p.place_quiet n .timing (p.announceFrame b n) (.inl rfl) hlen
  have hreserve := Hub.place_timing_freeReserve hp (p.announceFrame b n) hlen
  obtain ⟨-, -, hplaceKept⟩ := Hub.place_timing hp (p.announceFrame b n) hlen
  set q := (p.place n .timing (p.announceFrame b n)).1
  obtain ⟨hsteady', htrec', hkept'⟩ := Hub.probeAttempt_spec (h := q) (n := n) (by rw [hq.slots]; exact hp)
  refine ⟨(hsteady.trans hq.steady).trans hsteady', ?_, fun hfull => ?_⟩
  · have hsent : (1 < p.store.freeReserve) = (q.store.freeReserve ≠ 0) := by
      rw [hreserve]
      exact propext (by omega)
    simp only [hsent]
    exact (htrec.quiet hq).trans (TimingRec.probed_spares _) htrec'
  · obtain ⟨hstore, hports⟩ := hkept hfull
    obtain ⟨hstoreQ, hportsQ⟩ := hplaceKept (by rw [hstore]; exact hfull)
    obtain ⟨hstoreR, hportsR⟩ := hkept' (by rw [hstoreQ, hstore]; exact hfull)
    exact ⟨hstoreR.trans (hstoreQ.trans hstore), hportsR.trans (hportsQ.trans hports)⟩

/-- The keys that an announce boundary may raise. -/
def announceKeys : List AlarmKey := .hub .agentOverload :: allSlots.map (.slot · .timingPathLost)

theorem slot_mem_announceKeys (n : Slot) : .slot n .timingPathLost ∈ announceKeys :=
  List.mem_cons_of_mem _ (List.mem_map.mpr ⟨n, by revert n; decide, rfl⟩)

/-- A run of the Alarm Unit that raises those keys and clears nothing. -/
def Hub.AnnounceRun (h g : Hub) : Prop := Hub.AlarmRun (· ∈ announceKeys) (fun _ => False) h g

theorem Hub.AnnounceRun.room {h g : Hub} (hrun : Hub.AnnounceRun h g) (hlen : h.alarms.recs.length < 40) {key : AlarmKey}
    (hkey : key ∈ announceKeys) : g.alarms.recs.length < 63 ∨ g.alarms.find key ≠ none :=
  Hub.AlarmRun.room hrun announceKeys (by decide) (fun _ hk => hk) (Nat.add_le_add hlen.le (by decide) |>.trans (by decide : 40 + 13 ≤ 63)) hkey

theorem Hub.AnnounceRun.isActive {h g : Hub} (hrun : Hub.AnnounceRun h g) {key : AlarmKey} (hh : h.isActive key = true) :
    g.isActive key = true := Hub.AlarmRun.isActive hrun hh fun _ hk => hk.elim

theorem Hub.announceSlot_run (b : HubTime) (h : Hub) (n : Slot) : Hub.AnnounceRun h (h.announceSlot b n) := by
  rw [Hub.announceSlot_eq]
  exact ((h.missOutstanding_run n (slot_mem_announceKeys n)).trans
    (Hub.AlarmRun.place _ n .timing _ (.inl rfl) (Hub.announceFrame_length _ b n))).trans (Hub.probeAttempt_run _ n (slot_mem_announceKeys n))

/-- A third miss in the work of a slot leaves TIMING_PATH_LOST ACTIVE (R124). -/
theorem Hub.announceSlot_pathLost (b : HubTime) {h₀ h : Hub} {n : Slot} (hrun : Hub.AnnounceRun h₀ h)
    (hlen : h₀.alarms.recs.length < 40) (hprobe : h.trecs[n].probe.isSome = true) (hmisses : 2 ≤ h.trecs[n].misses)
    (hpath : h.trecs[n].pathLost = false) : (h.announceSlot b n).isActive (.slot n .timingPathLost) = true := by
  rw [Hub.announceSlot_eq]
  have hmissed : (h.missOutstanding n).isActive (.slot n .timingPathLost) = true := by
    unfold Hub.missOutstanding
    rw [if_pos hprobe]
    exact Hub.miss_isActive (by rw [Hub.modTrec_self]; exact hmisses) (by rw [Hub.modTrec_self]; exact hpath)
      (hrun.room hlen (slot_mem_announceKeys n))
  exact Hub.AnnounceRun.isActive ((Hub.AlarmRun.place _ n .timing _ (.inl rfl) (Hub.announceFrame_length _ b n)).trans
    (Hub.probeAttempt_run _ n (slot_mem_announceKeys n))) hmissed

/-- Where the reserve does not hold both frames of a slot, AGENT_OVERLOAD is ACTIVE (R43). -/
theorem Hub.announceSlot_overload (b : HubTime) {h₀ h : Hub} {n : Slot} (hstate : h.slots[n].state = .forwarding)
    (hrun : Hub.AnnounceRun h₀ h) (hlen : h₀.alarms.recs.length < 40)
    (hshort : (h.missOutstanding n).store.freeReserve < 2) : (h.announceSlot b n).isActive (.hub .agentOverload) = true := by
  rw [Hub.announceSlot_eq]
  obtain ⟨hsteady, -, -⟩ := h.missOutstanding_spec n
  have hrunP := hrun.trans (h.missOutstanding_run n (slot_mem_announceKeys n))
  set p := h.missOutstanding n
  have hp : p.slots[n].state = .forwarding := by rw [hsteady.slots]; exact hstate
  have hframe := p.announceFrame_length b n
  have hq := p.place_quiet n .timing (p.announceFrame b n) (.inl rfl) hframe
  have hreserve := Hub.place_timing_freeReserve hp (p.announceFrame b n) hframe
  have hrunQ : Hub.AnnounceRun h₀ (p.place n .timing (p.announceFrame b n)).1 := hrunP.trans (Hub.AlarmRun.place _ n .timing _ (.inl rfl) hframe)
  by_cases hfull : p.store.freeReserve = 0
  · exact Hub.AnnounceRun.isActive (Hub.probeAttempt_run _ n (slot_mem_announceKeys n))
      (Hub.place_overload hp _ hfull (Hub.AnnounceRun.room hrunP hlen (by decide)))
  · set q := (p.place n .timing (p.announceFrame b n)).1
    have hqstate : q.slots[n].state = .forwarding := by rw [hq.slots]; exact hp
    have hqfull : q.store.freeReserve = 0 := by omega
    rw [Hub.probeAttempt_of_full hqstate hqfull]
    refine Hub.AnnounceRun.isActive (Hub.miss_run _ n (slot_mem_announceKeys n)) ?_
    exact Hub.place_overload (h := q.probing n) hqstate _ hqfull (hrunQ.room hlen (by decide))

/-! ## One slot that loses no path -/

/-- Whether a record has an outstanding probe, as a number of misses. -/
def TimingRec.missedNow (r : TimingRec) : Nat := if r.probe.isSome then 1 else 0

/-- The names that the two frames of a slot take, as far as the reserve goes (R43). -/
def Store.fresh (st : Store) : List Nat :=
  (if 0 < st.freeReserve then [st.nextId] else []) ++ if 1 < st.freeReserve then [st.nextId + 1] else []

/-- What the work for a slot does that loses no path. -/
structure Hub.Announced (b : HubTime) (h g : Hub) (n : Slot) : Prop where
  reserve : g.store.freeReserve = h.store.freeReserve - 2
  ports : ∀ m : Slot, g.ports[m] = if n = m then { h.ports[m] with timingQ := h.ports[m].timingQ ++ h.store.fresh } else h.ports[m]
  trec : Hub.TrecBy n (TimingRec.announced · (decide (1 < h.store.freeReserve))) h g
  store : 1 < h.store.freeReserve → g.store = (h.store.put (h.announceFrame b n) true 1).put (h.probeFrame n) true 1
  trecs : 1 < h.store.freeReserve → ∀ m : Slot, g.trecs[m] = if n = m then h.trecs[m].announced true else h.trecs[m]

/-- A probe attempt whose DELAY_PROBE is placed (R123). -/
theorem Hub.probeAttempt_sent {q : Hub} {n : Slot} (hstate : q.slots[n].state = .forwarding) (hroom : q.store.freeReserve ≠ 0) :
    (q.probeAttempt n).store = q.store.put (q.probeFrame n) true 1 ∧
      (∀ m : Slot, (q.probeAttempt n).ports[m] =
        if n = m then { q.ports[m] with timingQ := q.ports[m].timingQ ++ [q.store.nextId] } else q.ports[m]) ∧
      ∀ m : Slot, (q.probeAttempt n).trecs[m] = if n = m then q.trecs[m].probed true else q.trecs[m] := by
  obtain ⟨-, hentered, -⟩ := Hub.place_timing (h := q.probing n) hstate (q.probeFrame n) (q.probeFrame_length n)
  have hplaced := hentered hroom
  rw [Hub.probeAttempt_of_room hstate hroom]
  refine ⟨hplaced.store, hplaced.ports, fun m => ?_⟩
  by_cases hm : n = m
  · subst hm
    rw [Hub.modTrec_self, hplaced.trecs, if_pos rfl]
    unfold Hub.probing
    rw [Hub.modTrec_self]
    rfl
  · rw [Hub.modTrec_other _ _ _ _ hm, hplaced.trecs, if_neg hm]
    exact Hub.modTrec_other _ _ _ _ hm

theorem TimingRec.outstandingMissed_keeps (r : TimingRec) :
    r.outstandingMissed.applied = r.applied ∧ r.outstandingMissed.granted = r.granted ∧ r.outstandingMissed.sequence = r.sequence := by
  unfold TimingRec.outstandingMissed
  split <;> exact ⟨rfl, rfl, rfl⟩

/-- Where both frames are placed. -/
theorem Hub.announceSlot_announced_of_room (b : HubTime) {h : Hub} {n : Slot} (hstate : h.slots[n].state = .forwarding)
    (hless : h.trecs[n].misses < 2) (hroom : 1 < h.store.freeReserve) : Hub.Announced b h (h.announceSlot b n) n := by
  obtain ⟨happlied, hgranted, hsequence⟩ := h.trecs[n].outstandingMissed_keeps
  have hrec : (h.modTrec n TimingRec.outstandingMissed).trecs[n] = h.trecs[n].outstandingMissed := Hub.modTrec_self ..
  have hframe : (h.modTrec n TimingRec.outstandingMissed).announceFrame b n = h.announceFrame b n :=
    Hub.announceFrame_congr b (.modTrec h n _) (by rw [hrec, happlied]) (by rw [hrec, hgranted])
  rw [Hub.announceSlot_eq, Hub.missOutstanding_of_lt hless, hframe]
  obtain ⟨-, hentered, -⟩ := Hub.place_timing (h := h.modTrec n TimingRec.outstandingMissed) hstate (h.announceFrame b n) (h.announceFrame_length b n)
  have hfirst := hentered (by show h.store.freeReserve ≠ 0; omega)
  generalize ((h.modTrec n TimingRec.outstandingMissed).place n .timing (h.announceFrame b n)).1 = q at hfirst ⊢
  have hstore : q.store = h.store.put (h.announceFrame b n) true 1 := hfirst.store
  have hreserve : q.store.freeReserve = h.store.freeReserve - 1 := by rw [hstore, Store.put_freeReserve _ (h.announceFrame_length b n)]
  obtain ⟨hstore', hports', htrecs'⟩ := Hub.probeAttempt_sent (q := q) (n := n) (by rw [hfirst.steady.slots]; exact hstate) (by omega)
  have hprobe : q.probeFrame n = h.probeFrame n := by
    unfold Hub.probeFrame
    rw [hfirst.trecs, hrec, hsequence]
  have htrecs : ∀ m : Slot, (q.probeAttempt n).trecs[m] = if n = m then h.trecs[m].announced true else h.trecs[m] := by
    intro m
    rw [htrecs' m, hfirst.trecs, Hub.modTrec_trecs]
    by_cases hm : n = m
    · subst hm
      rw [if_pos rfl, if_pos rfl, if_pos rfl]
      rfl
    · rw [if_neg hm, if_neg hm, if_neg hm]
  refine ⟨?_, fun m => ?_, fun m => ?_, fun _ => ?_, fun _ => htrecs⟩
  · rw [hstore', Store.put_freeReserve _ (q.probeFrame_length n), hreserve]
    omega
  · have hport : q.ports[m] = if n = m then { h.ports[m] with timingQ := h.ports[m].timingQ ++ [h.store.nextId] } else h.ports[m] := hfirst.ports m
    have hnext : q.store.nextId = h.store.nextId + 1 := by rw [hstore]; rfl
    have hfresh : h.store.fresh = [h.store.nextId] ++ [h.store.nextId + 1] := by
      unfold Store.fresh
      rw [if_pos (by omega), if_pos hroom]
    rw [hports' m, hport, hnext, hfresh, ← List.append_assoc]
    by_cases hm : n = m
    · simp only [if_pos hm]
    · simp only [if_neg hm]
  · rw [htrecs m, decide_eq_true hroom]
  · rw [hstore', hstore, hprobe]

/-- Where the reserve holds one frame or none. -/
theorem Hub.announceSlot_announced_of_short (b : HubTime) {h : Hub} {n : Slot} (hstate : h.slots[n].state = .forwarding)
    (hless : h.trecs[n].misses < 2) (hshort : ¬ 1 < h.store.freeReserve) : Hub.Announced b h (h.announceSlot b n) n := by
  obtain ⟨-, htrec, hkept⟩ := Hub.announceSlot_spec b hstate
  have hpstore : (h.missOutstanding n).store = h.store := by rw [Hub.missOutstanding_of_lt hless]; rfl
  rw [hpstore] at htrec
  suffices hparts : (h.announceSlot b n).store.freeReserve = h.store.freeReserve - 2 ∧ ∀ m : Slot, (h.announceSlot b n).ports[m] =
      if n = m then { h.ports[m] with timingQ := h.ports[m].timingQ ++ h.store.fresh } else h.ports[m] from
    ⟨hparts.1, hparts.2, htrec, fun h1 => absurd h1 hshort, fun h1 => absurd h1 hshort⟩
  unfold Store.fresh
  rw [if_neg hshort, List.append_nil]
  by_cases hfull : h.store.freeReserve = 0
  · obtain ⟨hstore, hports⟩ := hkept hfull
    rw [hstore, hports, hfull]
    refine ⟨rfl, fun m => ?_⟩
    rw [if_neg (Nat.lt_irrefl 0), List.append_nil]
    exact (ite_self _).symm
  · rw [if_pos (by omega), Hub.announceSlot_eq, Hub.missOutstanding_of_lt hless]
    set p := h.modTrec n TimingRec.outstandingMissed
    have hframe := p.announceFrame_length b n
    obtain ⟨-, hentered, -⟩ := Hub.place_timing (h := p) hstate (p.announceFrame b n) hframe
    have hfirst := hentered hfull
    have hreserve := Hub.place_timing_freeReserve (h := p) hstate (p.announceFrame b n) hframe
    set q := (p.place n .timing (p.announceFrame b n)).1
    have hqfull : q.store.freeReserve = 0 := by
      rw [hreserve]
      show h.store.freeReserve - 1 = 0
      omega
    obtain ⟨-, -, hkept'⟩ := Hub.probeAttempt_spec (h := q) (n := n) (by rw [hfirst.steady.slots]; exact hstate)
    obtain ⟨hstore, hports⟩ := hkept' hqfull
    rw [hstore, hports, hqfull]
    exact ⟨by omega, hfirst.ports⟩

theorem Hub.announceSlot_announced (b : HubTime) {h : Hub} {n : Slot} (hstate : h.slots[n].state = .forwarding)
    (hless : h.trecs[n].misses < 2) : Hub.Announced b h (h.announceSlot b n) n := by
  by_cases hroom : 1 < h.store.freeReserve
  · exact Hub.announceSlot_announced_of_room b hstate hless hroom
  · exact Hub.announceSlot_announced_of_short b hstate hless hroom

end Sys2Proof.Machine
end

section
/-! PROOFS. An announce boundary over every eligible slot (section 7.2). -/

namespace Sys2Proof.Machine

/-! ## The boundary's work, slot after slot -/

theorem TimingRec.announced_congr {r r' : TimingRec} {before : Bool} (sent granted : Bool) (he : r' = { r with granted := before }) :
    { r'.announced sent with granted } = { r.announced sent with granted } := by
  subst he
  exact congrArg (fun x : TimingRec => { x with granted }) (TimingRec.announced_spares sent r before)

/-- What one slot's work leaves to the slots behind it. -/
theorem Hub.announceSlot_states (b : HubTime) {h : Hub} {n : Slot} (hstate : h.slots[n].state = .forwarding) {l : List Slot}
    (hl : ∀ m ∈ l, h.slots[m].state = .forwarding) : ∀ m ∈ l, (h.announceSlot b n).slots[m].state = .forwarding := by
  rw [(Hub.announceSlot_spec b hstate).1.slots]
  exact hl

theorem Hub.announceAll_steady (b : HubTime) (l : List Slot) {h : Hub} (hl : ∀ m ∈ l, h.slots[m].state = .forwarding) :
    Hub.Steady h (l.foldl (Hub.announceSlot b) h) := by
  induction l generalizing h with
  | nil => exact .refl h
  | cons n l ih =>
    have hn := hl n (List.mem_cons_self ..)
    exact (Hub.announceSlot_spec b hn).1.trans (ih (Hub.announceSlot_states b hn fun m hm => hl m (List.mem_cons_of_mem _ hm)))

theorem Hub.announceAll_run (b : HubTime) (l : List Slot) (h : Hub) : Hub.AnnounceRun h (l.foldl (Hub.announceSlot b) h) := by
  induction l generalizing h with
  | nil => exact Hub.AlarmRun.refl h
  | cons n l ih => exact (h.announceSlot_run b n).trans (ih _)

/-- A slot outside the list keeps its timing record, but for the permit. -/
theorem Hub.announceAll_other (b : HubTime) (l : List Slot) {h : Hub} (hl : ∀ m ∈ l, h.slots[m].state = .forwarding) {n : Slot}
    (hn : n ∉ l) : ∃ granted, (l.foldl (Hub.announceSlot b) h).trecs[n] = { h.trecs[n] with granted } := by
  induction l generalizing h with
  | nil => exact ⟨_, rfl⟩
  | cons m l ih =>
    have hm := hl m (List.mem_cons_self ..)
    obtain ⟨granted, hrec⟩ := ih (Hub.announceSlot_states b hm fun k hk => hl k (List.mem_cons_of_mem _ hk))
      fun hk => hn (List.mem_cons_of_mem _ hk)
    refine ⟨granted, hrec.trans ?_⟩
    rw [(Hub.announceSlot_spec b hm).2.1.other fun he => hn (he ▸ List.mem_cons_self ..)]

/-- The record of each slot of the list after the boundary; with no free reserve block no probe is sent, and the store and the queues
stand. -/
theorem Hub.announceAll_trecs (b : HubTime) {l : List Slot} (hnodup : l.Nodup) {h : Hub} (hl : ∀ m ∈ l, h.slots[m].state = .forwarding) :
    (∀ n ∈ l, ∃ sent granted, (l.foldl (Hub.announceSlot b) h).trecs[n] = { h.trecs[n].announced sent with granted } ∧
      (h.store.freeReserve = 0 → sent = false)) ∧
    (h.store.freeReserve = 0 → (l.foldl (Hub.announceSlot b) h).store = h.store ∧ (l.foldl (Hub.announceSlot b) h).ports = h.ports) := by
  induction l generalizing h with
  | nil => exact ⟨fun _ hn => absurd hn List.not_mem_nil, fun _ => ⟨rfl, rfl⟩⟩
  | cons m l ih =>
    obtain ⟨hm, hl'⟩ := List.forall_mem_cons.mp hl
    obtain ⟨hfresh, hnodup'⟩ := List.nodup_cons.mp hnodup
    obtain ⟨-, htrec, hkept⟩ := Hub.announceSlot_spec b hm
    have hstates := Hub.announceSlot_states b hm hl'
    obtain ⟨hrest, hrestKept⟩ := ih hnodup' hstates
    refine ⟨fun n hn => ?_, fun hfull => ?_⟩
    · rcases List.mem_cons.mp hn with rfl | hn'
      · obtain ⟨granted, hother⟩ := Hub.announceAll_other b l hstates hfresh
        refine ⟨_, granted, hother.trans (by rw [htrec.self]), fun hfull => ?_⟩
        rw [((h.missOutstanding_spec n).2.2 hfull).1, hfull]
        rfl
      · obtain ⟨sent, granted, hrec, hsent⟩ := hrest n hn'
        refine ⟨sent, granted, hrec.trans ?_, fun hfull => hsent (by rw [(hkept hfull).1]; exact hfull)⟩
        exact TimingRec.announced_congr sent granted (htrec.other fun he => hfresh (he ▸ hn'))
    · obtain ⟨hstore, hports⟩ := hkept hfull
      obtain ⟨hstore', hports'⟩ := hrestKept (by rw [hstore]; exact hfull)
      exact ⟨hstore'.trans hstore, hports'.trans hports⟩

/-- A third miss in the boundary leaves its slot's TIMING_PATH_LOST ACTIVE (R124). -/
theorem Hub.announceAll_pathLost (b : HubTime) {l : List Slot} (hnodup : l.Nodup) {h₀ h : Hub} (hrun : Hub.AnnounceRun h₀ h)
    (hlen : h₀.alarms.recs.length < 40) (hl : ∀ m ∈ l, h.slots[m].state = .forwarding) {n : Slot} (hn : n ∈ l)
    (hprobe : h.trecs[n].probe.isSome = true) (hmisses : 2 ≤ h.trecs[n].misses) (hpath : h.trecs[n].pathLost = false) :
    (l.foldl (Hub.announceSlot b) h).isActive (.slot n .timingPathLost) = true := by
  induction l generalizing h with
  | nil => exact absurd hn List.not_mem_nil
  | cons m l ih =>
    obtain ⟨hm, hl'⟩ := List.forall_mem_cons.mp hl
    obtain ⟨hfresh, hnodup'⟩ := List.nodup_cons.mp hnodup
    rcases List.mem_cons.mp hn with rfl | hn'
    · exact Hub.AnnounceRun.isActive (Hub.announceAll_run b l _) (Hub.announceSlot_pathLost b hrun hlen hprobe hmisses hpath)
    · have hother := (Hub.announceSlot_spec b hm).2.1.other fun he => hfresh (he ▸ hn')
      exact ih hnodup' (hrun.trans (h.announceSlot_run b m)) (Hub.announceSlot_states b hm hl') hn' (by rw [hother]; exact hprobe)
        (by rw [hother]; exact hmisses) (by rw [hother]; exact hpath)

/-- With no free reserve block AGENT_OVERLOAD is ACTIVE after the boundary (R43). -/
theorem Hub.announceAll_overload_of_full (b : HubTime) {l : List Slot} (hne : l ≠ []) {h : Hub} (hlen : h.alarms.recs.length < 40)
    (hl : ∀ m ∈ l, h.slots[m].state = .forwarding) (hfull : h.store.freeReserve = 0) :
    (l.foldl (Hub.announceSlot b) h).isActive (.hub .agentOverload) = true := by
  obtain ⟨n, rest, rfl⟩ := List.exists_cons_of_ne_nil hne
  refine Hub.AnnounceRun.isActive (Hub.announceAll_run b rest _)
    (Hub.announceSlot_overload b (hl n (List.mem_cons_self ..)) (Hub.AlarmRun.refl h) hlen ?_)
  rw [((h.missOutstanding_spec n).2.2 hfull).1, hfull]
  decide

/-! ## A boundary at which no path is lost -/

/-- No slot of the list has its third miss by the probe outstanding at the boundary. -/
def Hub.Calm (h : Hub) (l : List Slot) : Prop :=
  ∀ n ∈ l, h.slots[n].state = .forwarding ∧ h.trecs[n].misses + h.trecs[n].missedNow < 2

theorem TimingRec.misses_of_granted {r r' : TimingRec} {b : Bool} (he : r' = { r with granted := b })
    (hless : r.misses + r.missedNow < 2) : r'.misses + r'.missedNow < 2 := by
  subst he
  exact hless

theorem Hub.Calm.tail {h : Hub} {n : Slot} {l : List Slot} (b : HubTime) (hfresh : n ∉ l) (hcalm : h.Calm (n :: l)) :
    (h.announceSlot b n).Calm l := by
  obtain ⟨hstate, -⟩ := hcalm n (List.mem_cons_self ..)
  obtain ⟨hsteady, htrec, -⟩ := Hub.announceSlot_spec b hstate
  intro m hm
  obtain ⟨hstate', hless'⟩ := hcalm m (List.mem_cons_of_mem _ hm)
  exact ⟨by rw [hsteady.slots]; exact hstate', TimingRec.misses_of_granted (htrec.other (ne_of_mem_of_not_mem hm hfresh).symm) hless'⟩

theorem Hub.Calm.head {h : Hub} {n : Slot} {l : List Slot} (b : HubTime) (hcalm : h.Calm (n :: l)) :
    Hub.Announced b h (h.announceSlot b n) n := by
  obtain ⟨hstate, hless⟩ := hcalm n (List.mem_cons_self ..)
  exact Hub.announceSlot_announced b hstate (by omega)

theorem Hub.Calm.states {h : Hub} {l : List Slot} (hcalm : h.Calm l) : ∀ n ∈ l, h.slots[n].state = .forwarding := fun n hn => (hcalm n hn).1

/-- The names of the frames of the slot in place `i / 2`, as far as the reserve goes. -/
def Store.freshAt (st : Store) (i : Nat) : List Nat :=
  (if i < st.freeReserve then [st.nextId + i] else []) ++ if i + 1 < st.freeReserve then [st.nextId + i + 1] else []

/-- After one slot's two frames the names run on. -/
theorem Hub.Announced.freshAt {b : HubTime} {h g : Hub} {n : Slot} (hone : Hub.Announced b h g n) (i : Nat) :
    g.store.freshAt i = h.store.freshAt (i + 2) := by
  unfold Store.freshAt
  rw [hone.reserve]
  by_cases hroom : i + 2 < h.store.freeReserve
  · have hid : g.store.nextId = h.store.nextId + 2 := by
      rw [hone.store (by omega)]
      rfl
    rw [hid, if_pos (by omega), if_pos hroom]
    have hnext : h.store.nextId + 2 + i = h.store.nextId + (i + 2) := by omega
    have hless : (i + 1 < h.store.freeReserve - 2) = (i + 2 + 1 < h.store.freeReserve) := propext (by omega)
    rw [hnext]
    simp only [hless]
  · rw [if_neg (by omega), if_neg (by omega), if_neg hroom, if_neg (by omega)]

/-- The queue and the record of each slot of the list: its two frames take the reserve's blocks in turn. -/
theorem Hub.announceAll_calm (b : HubTime) {l : List Slot} (hnodup : l.Nodup) {h : Hub} (hcalm : h.Calm l) :
    (∀ n ∉ l, (l.foldl (Hub.announceSlot b) h).ports[n] = h.ports[n]) ∧
    ∀ n ∈ l, (l.foldl (Hub.announceSlot b) h).ports[n].timingQ = h.ports[n].timingQ ++ h.store.freshAt (2 * l.idxOf n) ∧
      ∃ granted, (l.foldl (Hub.announceSlot b) h).trecs[n] =
        { h.trecs[n].announced (decide (2 * l.idxOf n + 1 < h.store.freeReserve)) with granted } := by
  induction l generalizing h with
  | nil => exact ⟨fun _ _ => rfl, fun _ hn => absurd hn List.not_mem_nil⟩
  | cons m l ih =>
    obtain ⟨hfresh, hnodup'⟩ := List.nodup_cons.mp hnodup
    have hcalm' := hcalm.tail b hfresh
    have hone := hcalm.head b
    obtain ⟨hothers, heach⟩ := ih hnodup' hcalm'
    refine ⟨fun n hn => ?_, fun n hn => ?_⟩
    · obtain ⟨hne, hn'⟩ := not_or.mp (List.mem_cons.not.mp hn)
      exact (hothers n hn').trans ((hone.ports n).trans (if_neg fun he => hne he.symm))
    · rcases List.mem_cons.mp hn with rfl | hn'
      · rw [List.idxOf_cons_self]
        refine ⟨(congrArg Port.timingQ ((hothers n hfresh).trans ((hone.ports n).trans (if_pos rfl)))).trans rfl, ?_⟩
        obtain ⟨granted, hother⟩ := Hub.announceAll_other b l hcalm'.states hfresh
        exact ⟨granted, hother.trans (by rw [hone.trec.self])⟩
      · have hne : m ≠ n := fun he => hfresh (he ▸ hn')
        obtain ⟨hqueue, granted, hrec⟩ := heach n hn'
        have hidx : (m :: l).idxOf n = l.idxOf n + 1 := List.idxOf_cons_ne _ hne
        rw [hidx, Nat.mul_add]
        refine ⟨hqueue.trans ?_, granted, hrec.trans ?_⟩
        · rw [hone.freshAt, hone.ports n, if_neg hne]
        · rw [hone.reserve, show decide (2 * l.idxOf n + 1 < h.store.freeReserve - 2) =
            decide (2 * l.idxOf n + 2 * 1 + 1 < h.store.freeReserve) from decide_eq_decide.mpr (by omega)]
          exact TimingRec.announced_congr _ granted (hone.trec.other hne)

/-- Where the reserve does not hold every frame of the boundary, AGENT_OVERLOAD is ACTIVE after it (R43). -/
theorem Hub.announceAll_overload (b : HubTime) {l : List Slot} (hnodup : l.Nodup) {h₀ h : Hub} (hrun : Hub.AnnounceRun h₀ h)
    (hlen : h₀.alarms.recs.length < 40) (hcalm : h.Calm l) (hshort : h.store.freeReserve < 2 * l.length) :
    (l.foldl (Hub.announceSlot b) h).isActive (.hub .agentOverload) = true := by
  induction l generalizing h with
  | nil => exact absurd hshort (Nat.not_lt_zero _)
  | cons m l ih =>
    obtain ⟨hfresh, hnodup'⟩ := List.nodup_cons.mp hnodup
    have hcalm' := hcalm.tail b hfresh
    have hone := hcalm.head b
    obtain ⟨hstate, hless⟩ := hcalm m (List.mem_cons_self ..)
    by_cases hroom : h.store.freeReserve < 2
    · refine Hub.AnnounceRun.isActive (Hub.announceAll_run b l _) (Hub.announceSlot_overload b hstate hrun hlen ?_)
      rw [Hub.missOutstanding_of_lt (by omega)]
      exact hroom
    · refine ih hnodup' (hrun.trans (h.announceSlot_run b m)) hcalm' ?_
      rw [hone.reserve]
      rw [List.length_cons] at hshort
      omega

/-! ## A boundary for which the reserve is enough -/

theorem Hub.announceAll_ample (b : HubTime) {l : List Slot} (hnodup : l.Nodup) {h : Hub}
    (hl : ∀ n ∈ l, h.slots[n].state = .forwarding ∧ h.trecs[n].misses < 2) (hroom : 2 * l.length ≤ h.store.freeReserve) :
    (∀ x ∈ h.store.frames, x ∈ (l.foldl (Hub.announceSlot b) h).store.frames) ∧
    (∀ n ∉ l, (l.foldl (Hub.announceSlot b) h).trecs[n] = h.trecs[n] ∧ (l.foldl (Hub.announceSlot b) h).ports[n] = h.ports[n]) ∧
    ∀ n ∈ l, (l.foldl (Hub.announceSlot b) h).trecs[n] = h.trecs[n].announced true ∧
      ∃ a c : StoredFrame, (l.foldl (Hub.announceSlot b) h).ports[n].timingQ = h.ports[n].timingQ ++ [a.id, c.id] ∧
        a ∈ (l.foldl (Hub.announceSlot b) h).store.frames ∧ a.frame = h.announceFrame b n ∧
        c ∈ (l.foldl (Hub.announceSlot b) h).store.frames ∧ c.frame = h.probeFrame n := by
  induction l generalizing h with
  | nil => exact ⟨fun _ hx => hx, fun _ _ => ⟨rfl, rfl⟩, fun _ hn => absurd hn List.not_mem_nil⟩
  | cons m l ih =>
    obtain ⟨hfresh, hnodup'⟩ := List.nodup_cons.mp hnodup
    obtain ⟨⟨hstate, hless⟩, hl'⟩ := List.forall_mem_cons.mp hl
    rw [List.length_cons] at hroom
    have hone := Hub.announceSlot_announced b hstate hless
    have htwo : 1 < h.store.freeReserve := by omega
    have hstore := hone.store htwo
    have hsteady := (Hub.announceSlot_spec b hstate).1
    have htrec : ∀ n : Slot, m ≠ n → (h.announceSlot b m).trecs[n] = h.trecs[n] := fun n hne => (hone.trecs htwo n).trans (if_neg hne)
    obtain ⟨hframes, hothers, heach⟩ := ih (h := h.announceSlot b m) hnodup'
      (fun n hn => by rw [hsteady.slots, htrec n fun he => hfresh (he ▸ hn)]; exact hl' n hn) (by rw [hone.reserve]; omega)
    have hkept : ∀ x ∈ h.store.frames, x ∈ (h.announceSlot b m).store.frames := fun x hx => by
      rw [hstore]
      exact List.mem_append_left _ (List.mem_append_left _ hx)
    refine ⟨fun x hx => hframes x (hkept x hx), fun n hn => ?_, fun n hn => ?_⟩
    · obtain ⟨hne, hn'⟩ := not_or.mp (List.mem_cons.not.mp hn)
      have hne' : m ≠ n := fun he => hne he.symm
      obtain ⟨hrec, hport⟩ := hothers n hn'
      exact ⟨hrec.trans (htrec n hne'), hport.trans ((hone.ports n).trans (if_neg hne'))⟩
    · rcases List.mem_cons.mp hn with rfl | hn'
      · obtain ⟨hrec, hport⟩ := hothers n hfresh
        refine ⟨hrec.trans ((hone.trecs htwo n).trans (if_pos rfl)),
          { id := h.store.nextId, frame := h.announceFrame b n, blocks := (h.announceFrame b n).blocks, refs := 1, fromAgent := true },
          { id := h.store.nextId + 1, frame := h.probeFrame n, blocks := (h.probeFrame n).blocks, refs := 1, fromAgent := true },
          ?_, hframes _ ?_, rfl, hframes _ ?_, rfl⟩
        · rw [List.foldl_cons, hport, hone.ports n, if_pos rfl]
          unfold Store.fresh
          rw [if_pos (by omega), if_pos htwo]
          rfl
        · rw [hstore]
          exact List.mem_append_left _ (List.mem_append_right _ (List.mem_singleton.mpr rfl))
        · rw [hstore]
          exact List.mem_append_right _ (List.mem_singleton.mpr rfl)
      · have hne : m ≠ n := fun he => hfresh (he ▸ hn')
        obtain ⟨hrec, a, c, hqueue, ha, haf, hc, hcf⟩ := heach n hn'
        refine ⟨hrec.trans (by rw [htrec n hne]), a, c, hqueue.trans (by rw [hone.ports n, if_neg hne]), ha, haf.trans ?_, hc, hcf.trans ?_⟩
        · exact Hub.announceFrame_congr b hsteady (by rw [htrec n hne]) (by rw [htrec n hne])
        · unfold Hub.probeFrame
          rw [htrec n hne]

end Sys2Proof.Machine
end

section
/-! PROOFS. The clock's boundaries, settled (sections 6.1, 6.5, 7.2 and 7.3). -/

namespace Sys2Proof.Machine

/-! ## A record after a boundary, field by field -/

/-- Where the DELAY_PROBE is not sent, that counts as a miss too (R124). -/
theorem TimingRec.announced_unsent (r : TimingRec) :
    r.announced false = { r with
      sequence := r.sequence + 1, probe := none
      misses := min 3 (r.misses + r.missedNow + 1), pathLost := r.pathLost || decide (2 ≤ r.misses + r.missedNow) } := by
  unfold TimingRec.announced TimingRec.outstandingMissed TimingRec.missedNow
  by_cases hprobe : r.probe.isSome = true
  · rw [if_pos hprobe, if_pos hprobe]
    have hmisses : min 3 (min 3 (r.misses + 1) + 1) = min 3 (r.misses + 1 + 1) := by omega
    have hlost : (r.pathLost || decide (2 ≤ r.misses) || decide (2 ≤ min 3 (r.misses + 1))) = (r.pathLost || decide (2 ≤ r.misses + 1)) := by
      rw [Bool.or_assoc, ← Bool.decide_or]
      congr 1
      exact decide_eq_decide.mpr (by omega)
    show ({ r with probe := none, sequence := _, misses := min 3 (min 3 (r.misses + 1) + 1), pathLost := _ } : TimingRec) = _
    rw [hmisses]
    exact congrArg (fun pathLost => { r with probe := none, sequence := r.sequence + 1, misses := min 3 (r.misses + 1 + 1), pathLost }) hlost
  · have hnone : r.probe = none := by simpa using hprobe
    rw [if_neg hprobe, if_neg hprobe, ← hnone]
    rfl

/-- Where it is sent, the probe outstanding counts alone (R123, R124). -/
theorem TimingRec.announced_sent {r : TimingRec} (hless : r.misses < 2) :
    r.announced true = { r with
      sequence := r.sequence + 1, probe := some { sequence := r.sequence + 1, t1 := none }
      misses := if r.probe.isSome then r.misses + 1 else r.misses } := by
  unfold TimingRec.announced TimingRec.outstandingMissed
  by_cases hprobe : r.probe.isSome = true
  · rw [if_pos hprobe, if_pos hprobe]
    unfold TimingRec.probed TimingRec.missed
    simp only [if_true, decide_eq_false (show ¬ 2 ≤ r.misses by omega), Bool.or_false, show min 3 (r.misses + 1) = r.misses + 1 by omega]
  · rw [if_neg hprobe, if_neg hprobe]
    rfl

/-- A record that does not come to its third miss. -/
theorem TimingRec.announced_calm {r : TimingRec} (hless : r.misses + r.missedNow < 2) (sent : Bool) :
    r.announced sent = { r with
      sequence := r.sequence + 1, probe := if sent then some { sequence := r.sequence + 1, t1 := none } else none
      misses := r.misses + r.missedNow + if sent then 0 else 1 } := by
  cases sent
  · rw [TimingRec.announced_unsent, decide_eq_false (by omega), Bool.or_false, Nat.min_eq_right (by omega)]
    rfl
  · rw [TimingRec.announced_sent (by omega)]
    unfold TimingRec.missedNow
    by_cases hprobe : r.probe.isSome = true
    · rw [if_pos hprobe, if_pos hprobe]
      rfl
    · rw [if_neg hprobe, if_neg hprobe]
      rfl

/-- Two misses before the boundary and a probe outstanding at it lose the path (R124). -/
theorem TimingRec.announced_lost {r : TimingRec} (hprobe : r.probe.isSome = true) (hmisses : 2 ≤ r.misses) (sent : Bool) :
    (r.announced sent).misses = 3 ∧ (r.announced sent).pathLost = true := by
  have hnow : r.missedNow = 1 := if_pos hprobe
  cases sent
  · rw [TimingRec.announced_unsent, hnow]
    exact ⟨by show min 3 _ = 3; omega, by show (_ || _) = true; rw [decide_eq_true (by omega), Bool.or_true]⟩
  · unfold TimingRec.announced TimingRec.outstandingMissed
    rw [if_pos hprobe]
    exact ⟨by show min 3 (r.misses + 1) = 3; omega, by show (_ || _) = true; rw [decide_eq_true (by omega), Bool.or_true]⟩

/-! ## The slots of a boundary -/

/-- The slots that a boundary serves, in ascending number (R121). -/
def Hub.eligibles (h : Hub) : List Slot := allSlots.filter h.eligible

theorem Hub.mem_eligibles {h : Hub} {n : Slot} : n ∈ h.eligibles ↔ h.eligible n = true :=
  List.mem_filter.trans (and_iff_right (by revert n; decide))

theorem Hub.eligibles_nodup (h : Hub) : h.eligibles.Nodup := (by decide : allSlots.Nodup).filter _

theorem Hub.eligibles_states (h : Hub) : ∀ n ∈ h.eligibles, h.slots[n].state = .forwarding := fun n hn => by
  have heligible := Hub.mem_eligibles.mp hn
  unfold Hub.eligible at heligible
  exact beq_iff_eq.mp (Bool.and_eq_true_iff.mp heligible).1

theorem Hub.eligibles_length (h : Hub) : h.eligibles.length ≤ 12 := List.length_filter_le ..

theorem Hub.announce_eq (h : Hub) (b : HubTime) :
    h.announce b = { h.eligibles.foldl (Hub.announceSlot b) h with
      clock := { (h.eligibles.foldl (Hub.announceSlot b) h).clock with timeStepped := false } } := rfl

theorem Hub.announce_frame (h : Hub) (b : HubTime) :
    (h.announce b).clock = { h.clock with timeStepped := false } ∧ (h.announce b).slots = h.slots ∧ (h.announce b).tables = h.tables := by
  have hsteady := Hub.announceAll_steady b h.eligibles h.eligibles_states
  rw [Hub.announce_eq]
  refine ⟨?_, hsteady.slots, hsteady.tables⟩
  show { (h.eligibles.foldl (Hub.announceSlot b) h).clock with timeStepped := false } = _
  rw [hsteady.clock]

/-! ## The boundary in the three cases of the reserve -/

/-- The reserve is enough for every slot's two frames. -/
theorem Hub.announce_ample (b : HubTime) {h : Hub} (hroom : 24 ≤ h.store.freeReserve) (hmisses : ∀ n : Slot, h.trecs[n].misses < 2) (n : Slot) :
    (h.eligible n = false → (h.announce b).trecs[n] = h.trecs[n] ∧ (h.announce b).ports[n] = h.ports[n]) ∧
    (h.eligible n = true →
      (h.announce b).trecs[n] = { h.trecs[n] with
        sequence := h.trecs[n].sequence + 1, probe := some { sequence := h.trecs[n].sequence + 1, t1 := none }
        misses := if h.trecs[n].probe.isSome then h.trecs[n].misses + 1 else h.trecs[n].misses } ∧
      ∃ a c : StoredFrame, (h.announce b).ports[n].timingQ = h.ports[n].timingQ ++ [a.id, c.id] ∧
        a ∈ (h.announce b).store.frames ∧ a.frame = h.announceFrame b n ∧ c ∈ (h.announce b).store.frames ∧ c.frame = h.probeFrame n) := by
  obtain ⟨-, hothers, heach⟩ := Hub.announceAll_ample b h.eligibles_nodup (h := h) (fun n hn => ⟨h.eligibles_states n hn, hmisses n⟩)
    (by have := h.eligibles_length; omega)
  refine ⟨fun hno => hothers n fun hn => ?_, fun hyes => ?_⟩
  · rw [Hub.mem_eligibles.mp hn] at hno
    cases hno
  · obtain ⟨hrec, hframes⟩ := heach n (Hub.mem_eligibles.mpr hyes)
    exact ⟨hrec.trans (TimingRec.announced_sent (hmisses n)), hframes⟩

/-- A slot whose third miss is the probe outstanding at the boundary. -/
theorem Hub.announce_lost (b : HubTime) {h : Hub} {n : Slot} (hn : n ∈ h.eligibles) (hprobe : h.trecs[n].probe.isSome = true)
    (hmisses : 2 ≤ h.trecs[n].misses) :
    (h.announce b).trecs[n].misses = 3 ∧ (h.announce b).trecs[n].pathLost = true ∧
      (h.alarms.Legal ∧ h.alarms.recs.length < 40 → h.trecs[n].pathLost = false → (h.announce b).isActive (.slot n .timingPathLost) = true) := by
  obtain ⟨heach, -⟩ := Hub.announceAll_trecs b h.eligibles_nodup h.eligibles_states
  obtain ⟨sent, granted, hrec, -⟩ := heach n hn
  obtain ⟨hthree, hlost⟩ := TimingRec.announced_lost hprobe hmisses sent
  exact ⟨(congrArg TimingRec.misses hrec).trans hthree, (congrArg TimingRec.pathLost hrec).trans hlost, fun ⟨_, hlen⟩ hpath =>
    Hub.announceAll_pathLost b h.eligibles_nodup (Hub.AlarmRun.refl h) hlen h.eligibles_states hn hprobe hmisses hpath⟩

/-- No reserve block is free. -/
theorem Hub.announce_full (b : HubTime) {h : Hub} (hfull : h.store.freeReserve = 0) :
    (h.announce b).ports = h.ports ∧ (h.announce b).store = h.store ∧
      (h.alarms.Legal ∧ h.alarms.recs.length < 40 → h.eligibles ≠ [] → (h.announce b).isActive (.hub .agentOverload) = true) ∧
      ∀ n ∈ h.eligibles, ∃ granted, (h.announce b).trecs[n] = { h.trecs[n] with
        granted, sequence := h.trecs[n].sequence + 1, probe := none
        misses := min 3 (h.trecs[n].misses + h.trecs[n].missedNow + 1)
        pathLost := h.trecs[n].pathLost || decide (2 ≤ h.trecs[n].misses + h.trecs[n].missedNow) } := by
  obtain ⟨heach, hkept⟩ := Hub.announceAll_trecs b h.eligibles_nodup h.eligibles_states
  obtain ⟨hstore, hports⟩ := hkept hfull
  refine ⟨hports, hstore, fun ⟨_, hlen⟩ hne => Hub.announceAll_overload_of_full b hne hlen h.eligibles_states hfull, fun n hn => ?_⟩
  obtain ⟨sent, granted, hrec, hsent⟩ := heach n hn
  rw [hsent hfull, TimingRec.announced_unsent] at hrec
  exact ⟨granted, hrec⟩

/-- No slot comes to its third miss by the probe outstanding at the boundary. -/
theorem Hub.announce_calm (b : HubTime) {h : Hub} (hcalm : h.Calm h.eligibles) :
    (h.alarms.Legal ∧ h.alarms.recs.length < 40 → h.store.freeReserve < 2 * h.eligibles.length →
      (h.announce b).isActive (.hub .agentOverload) = true) ∧
    ∀ n ∈ h.eligibles, (h.announce b).ports[n].timingQ = h.ports[n].timingQ ++ h.store.freshAt (2 * h.eligibles.idxOf n) ∧
      ∃ granted, (h.announce b).trecs[n] =
        { h.trecs[n].announced (decide (2 * h.eligibles.idxOf n + 1 < h.store.freeReserve)) with granted } :=
  ⟨fun ⟨_, hlen⟩ hshort => Hub.announceAll_overload b h.eligibles_nodup (Hub.AlarmRun.refl h) hlen hcalm hshort,
    (Hub.announceAll_calm b h.eligibles_nodup hcalm).2⟩

/-! ## The obligation -/

/-- The clock's run: its gain, and the boundaries it reaches. -/
theorem Clock.run_spec {clock : Clock} {k : Int} {dt : Nat} (hcarry : clock.carry < nsPerSec) (hlo : -1000 ≤ k) (hhi : k ≤ 1000)
    (hroom : clock.now.total + 2 * dt + 1 < 2 ^ 48 * nsPerSec) :
    ((((clock.run k dt).now.total * nsPerSec + (clock.run k dt).carry : Nat) : Int) =
        (clock.now.total * nsPerSec + clock.carry : Nat) + dt * (nsPerSec + k)) ∧
      (clock.run k dt).now.Legal ∧ (clock.run k dt).carry < nsPerSec ∧
      (clock.run k dt).elapsed + clock.now.total = clock.elapsed + (clock.run k dt).now.total ∧
      (clock.run k dt).announces = clock.announces ∧ (clock.run k dt).timeStepped = clock.timeStepped ∧
      ∃ passed, (clock.run k dt).due = clock.due ++ passed ∧
        (∀ b : Boundary, b ∈ passed ↔ b.time.Legal ∧ b.time.ns % nsPerFrame = 0 ∧ (b.sort = .second → b.time.ns = 0) ∧
          clock.now.total < b.time.total ∧ b.time.total ≤ (clock.run k dt).now.total) ∧
        passed.Pairwise fun a b => a.time.total < b.time.total ∨ a.time = b.time ∧ a.sort = .frame ∧ b.sort = .second := by
  obtain ⟨hgain, hwrap⟩ := Clock.run_of_room hlo hhi hcarry hroom
  obtain ⟨htotal, hless, helapsed⟩ := clock.run_total k dt hwrap
  have hnow : (clock.run k dt).now.total = clock.now.total + clock.gain k dt / nsPerSec := HubTime.total_ofTotal hwrap
  refine ⟨?_, Clock.run_legal _ _ _, hless, helapsed, rfl, rfl, boundariesPassed clock.now.total (clock.gain k dt / nsPerSec), rfl, ?_, ?_⟩
  · rw [htotal, Nat.cast_add, Nat.cast_add, hgain]
    ring
  · rw [hnow]
    exact mem_boundariesPassed hwrap
  · exact boundariesPassed_pairwise hwrap

/-- Settles O46: the clock by its arithmetic, FRAME_BOUNDARY by the first frame boundary that is due, and ANNOUNCE_BOUNDARY by induction on
the eligible slots. -/
theorem clockBoundaries : Obligations.ClockBoundaries := by
  refine ⟨fun clock k dt _ hcarry hlo hhi hroom => Clock.run_spec hcarry hlo hhi hroom, fun s => ?_⟩
  intro h reaches counted
  have hcounted : ∀ (c : Clock) (time : HubTime), ({ h with clock := c } : Hub).countFrame time = counted c time := fun _ _ => rfl
  refine ⟨fun earlier later time hdue hearlier => ?_, fun hdue hlegal hroom => ?_, fun hnone hreach => ?_, fun hnone hreach t ht => ?_,
    fun time later hdue hreserve hmisses => ?_, fun time later hdue => ?_⟩
  · exact State.onHub_to ((Hub.frameBoundary_of_due hdue hearlier).trans (hcounted _ _))
  · obtain ⟨hframe, hafter, hbefore, helapsed, -⟩ := Clock.toFrame_of_room hlegal hroom
    exact ⟨{ h.clock.toFrame with
        due := h.clock.due ++ if h.clock.toFrame.now.ns = 0 then [{ sort := .second, time := h.clock.toFrame.now }] else [] },
      State.onHub_to (f := Hub.frameBoundary) ((Hub.frameBoundary_of_none hdue hlegal hroom).trans (hcounted _ _)), hframe, hafter, hbefore, helapsed, rfl, rfl⟩
  · exact State.onHub_to (Hub.announceBoundary_of_not_reached hnone hreach)
  · obtain rfl := Host.Outcome.next.inj ht
    exact State.onHub_to (Hub.announceBoundary_frameBoundary hnone hreach)
  · set g : Hub := { h with clock := { h.clock with announces := later } }
    have heach := Hub.announce_ample time (h := g) hreserve hmisses
    exact ⟨_, State.onHub_to (Hub.announceBoundary_of_due hdue), (g.announce_frame time).1, (g.announce_frame time).2.1, (g.announce_frame time).2.2, heach⟩
  · set g : Hub := { h with clock := { h.clock with announces := later } }
    obtain ⟨hclock, hslots, htables⟩ := g.announce_frame time
    refine ⟨_, State.onHub_to (Hub.announceBoundary_of_due hdue), hclock, hslots, htables, fun n hn hprobe hmisses =>
      Hub.announce_lost time (h := g) hn hprobe hmisses, fun hfull => Hub.announce_full time (h := g) hfull, fun hless => ?_⟩
    obtain ⟨hover, heach⟩ := Hub.announce_calm time (h := g) fun n hn => ⟨g.eligibles_states n hn, hless n hn⟩
    refine ⟨hover, fun n hn => ?_⟩
    obtain ⟨hqueue, granted, hrec⟩ := heach n hn
    refine ⟨hqueue.trans (List.append_assoc _ _ _).symm, granted, hrec.trans ?_⟩
    rw [TimingRec.announced_calm (hless n hn)]
    simp only [decide_eq_true_eq]
    rfl

end Sys2Proof.Machine
end

section
/-! PROOFS. The second judgment at the hub: what it leaves, and what it tells (sections 6.4 and 6.6). -/

namespace Sys2Proof.Machine

/-! ## A property that a judgment keeps -/

/-- A property of the hub that every move of a judgment keeps: those of the Alarm Unit, and any change of the clock, the Timing Unit's record,
the links, a slot's measurement and the free choices. -/
structure JudgeClosed (P : Hub → Prop) : Prop extends AlarmClosed P where
  clock : ∀ (h : Hub) c, P h → P { h with clock := c }
  timing : ∀ (h : Hub) t, P h → P { h with timing := t }
  links : ∀ (h : Hub) n f, P h → P (h.modLink n f)
  measurement : ∀ (h : Hub) n, P h → P (h.modTrec n TimingRec.dropMeasurement)
  draws : ∀ (h : Hub) d, P h → P { h with draws := d }

section

variable {P : Hub → Prop} {h : Hub}

theorem AlarmClosed.timingResults (hP : AlarmClosed P) (htiming : ∀ (h : Hub) t, P h → P { h with timing := t }) (old : TimingState)
    (mayRaise : Bool) (hh : P h) : P (h.timingResults old mayRaise) := by
  unfold Hub.timingResults Hub.followReference
  simp only
  have hfollowed := hP.follow (hP.follow (hP.follow (htiming h { h.timing with refLost := h.timing.lost && (h.timing.refLost || mayRaise) } hh)
    .referenceLost h.timing.refLost (h.timing.lost && (h.timing.refLost || mayRaise))) .holdoverActive (old == .holdover)
    (h.timing.state == .holdover)) .holdoverLapsed old.lapsed h.timing.state.lapsed
  split
  · exact hfollowed
  · exact hP.judgeOutputs (hP.judgePermits hfollowed _)

variable (hP : JudgeClosed P)
include hP

theorem JudgeClosed.judgeErroredSeconds (hh : P h) : P h.judgeErroredSeconds := by
  unfold Hub.judgeErroredSeconds
  refine foldl_keeps (P := P) (f := Hub.judgeErrored) (fun g n hg => ?_) _ hh
  unfold Hub.judgeErrored
  simp only
  split
  · exact hP.clear (hP.links _ _ _ hg) _
  · exact hP.links _ _ _ hg

theorem JudgeClosed.stepTo (target : Int) (hh : P h) : P (h.stepTo target) := by
  have hcount : ∀ (g : Hub) time, P g → P (g.countFrame time) := fun g time hg => by
    unfold Hub.countFrame
    split
    · exact hP.clock { g with timing := { g.timing with announceCount := 0 } } { g.clock with announces := g.clock.announces ++ [time] }
        (hP.timing _ _ hg)
    · exact hP.timing _ _ hg
  unfold Hub.stepTo
  simp only
  have hclock := hP.clock h { h.clock with now := HubTime.ofTotal (target % (2 ^ 48 * nsPerSec : Nat)).toNat, timeStepped := true } hh
  split
  · refine hcount _ _ ?_
    split
    · exact hP.judgeErroredSeconds hclock
    · exact hclock
  · split
    · exact hP.judgeErroredSeconds hclock
    · exact hclock

theorem JudgeClosed.consumeMeasurement (hh : P h) : P h.consumeMeasurement := by
  unfold Hub.consumeMeasurement
  split
  · exact hP.timing _ _ hh
  · exact hP.measurement _ _ hh
  · exact hh

theorem JudgeClosed.useMeasurement (mid : Timing) (offset : Option Int) (hh : P h) : P (h.useMeasurement mid offset) := by
  unfold Hub.useMeasurement
  cases offset with
  | none => exact hh
  | some o =>
    simp only
    split
    · exact hP.stepTo _ (hP.consumeMeasurement hh)
    · exact hP.consumeMeasurement hh

/-- What the judgment keeps from its notice on. -/
theorem JudgeClosed.judgeReference (hh : P h.judgedNotice) : P h.judgeReference := by
  unfold Hub.judgeReference Hub.judgedTiming
  exact hP.timingResults hP.timing _ _ (hP.useMeasurement _ _ (hP.timing _ _ (hP.timingResults hP.timing _ _ hh)))

theorem JudgeClosed.judgedNotice (hh : P h) : P h.judgedNotice := by
  have hnotice : P (({ h with timing := h.midTiming } : Hub).timingNotice h.timing h.newTiming
      (pickReason h.draws (judgmentReasons h.timing h.midTiming h.newTiming))) := by
    unfold Hub.timingNotice
    split
    · exact hP.timing _ _ hh
    · exact hP.notice _ _ _ (hP.timing _ _ hh)
  unfold Hub.judgedNotice
  simp only
  split
  · exact hP.draws _ _ hnotice
  · exact hnotice

end

/-- No judgment touches the slots or the settings. -/
theorem JudgeClosed.slots (slots : Vector SlotRec 12) (tables : Tables) : JudgeClosed fun h => h.slots = slots ∧ h.tables = tables where
  alarms _ _ _ hh := hh
  notice _ _ _ hh := hh
  permit _ _ _ hh := hh
  fence _ _ hh := hh
  refusal _ hh := hh
  placed h n place frame _ _ _ _ hh := by
    rw [(Hub.schedule_others _ _).1]
    exact hh
  clock _ _ hh := hh
  timing _ _ hh := hh
  links _ _ _ hh := hh
  measurement _ _ hh := hh
  draws _ _ hh := hh

/-- What waits to be driven to the host stays, and what is produced comes behind it. -/
theorem JudgeClosed.outbound (first : List Message) : JudgeClosed fun h => first <+: h.port.outbound where
  alarms _ _ _ hh := hh
  notice h code body hh := by
    rw [Hub.notice_port]
    unfold HostPort.notice
    split
    · exact hh
    · exact hh.trans (List.prefix_append _ _)
  permit _ _ _ hh := hh
  fence _ _ hh := hh
  refusal _ hh := hh
  placed h n place frame _ _ _ _ hh := by
    rw [(Hub.schedule_others _ _).1]
    exact hh
  clock _ _ hh := hh
  timing _ _ hh := hh
  links _ _ _ hh := hh
  measurement _ _ hh := hh
  draws _ _ hh := hh

/-! ## The Timing Unit's record after a judgment -/

/-- A record of the Timing Unit that differs at most in the announce count, the pending EXT measurement and REFERENCE_LOST. -/
def Timing.Shows (t new : Timing) : Prop :=
  t = { new with announceCount := t.announceCount, extPending := t.extPending, refLost := t.refLost }

theorem Timing.Shows.trans {a b c : Timing} (hab : a.Shows b) (hbc : b.Shows c) : a.Shows c := by
  unfold Timing.Shows at *
  rw [hab, hbc]

section

variable {h : Hub}

theorem Hub.timingResults_shows (old : TimingState) (mayRaise : Bool) : (h.timingResults old mayRaise).timing.Shows h.timing := by
  rw [Hub.timingResults_timing]
  rfl

theorem Hub.countFrame_shows (time : HubTime) : (h.countFrame time).timing.Shows h.timing := by
  unfold Hub.countFrame
  split <;> rfl

theorem Hub.stepTo_shows (target : Int) : (h.stepTo target).timing.Shows h.timing := by
  unfold Hub.stepTo
  simp only
  have hsecond : ∀ c : Clock, (({ h with clock := c } : Hub).judgeErroredSeconds).timing = h.timing := fun c =>
    Hub.judgeErroredSeconds_timing _
  split
  · refine (Hub.countFrame_shows _).trans ?_
    split
    · rw [hsecond]
      rfl
    · rfl
  · split
    · rw [hsecond]
      rfl
    · rfl

theorem Hub.consumeMeasurement_shows : h.consumeMeasurement.timing.Shows h.timing := by
  unfold Hub.consumeMeasurement
  split <;> rfl

theorem Hub.useMeasurement_shows (mid : Timing) (offset : Option Int) : (h.useMeasurement mid offset).timing.Shows h.timing := by
  unfold Hub.useMeasurement
  cases offset with
  | none => rfl
  | some o =>
    simp only
    split
    · exact (Hub.stepTo_shows _).trans Hub.consumeMeasurement_shows
    · exact Hub.consumeMeasurement_shows

theorem Hub.judgedTiming_shows : h.judgedTiming.timing.Shows h.newTiming := rfl

/-- A judgment leaves the timing state that its fifth part gives (R103). -/
theorem Hub.judgeReference_shows : h.judgeReference.timing.Shows h.newTiming :=
  (Hub.timingResults_shows _ _).trans ((Hub.useMeasurement_shows _ _).trans Hub.judgedTiming_shows)

/-! ## Hub time and the measurement -/

theorem Hub.timingResults_clock (old : TimingState) (mayRaise : Bool) : (h.timingResults old mayRaise).clock = h.clock :=
  AlarmClosed.timingResults (P := fun g => g.clock = h.clock)
    { alarms := fun _ _ _ hh => hh, notice := fun _ _ _ hh => hh, permit := fun _ _ _ hh => hh, fence := fun _ _ hh => hh
      refusal := fun _ hh => hh, placed := fun _ _ _ _ _ _ _ _ hh => by rw [(Hub.schedule_others _ _).1]; exact hh }
    (fun _ _ hh => hh) _ _ rfl

/-- What follows a change of timing state leaves of a timing record everything but the permit. -/
theorem Hub.timingResults_report (old : TimingState) (mayRaise : Bool) (n : Slot) :
    (h.timingResults old mayRaise).trecs[n].report = h.trecs[n].report :=
  AlarmClosed.timingResults (P := fun g => g.trecs[n].report = h.trecs[n].report)
    { alarms := fun _ _ _ hh => hh, notice := fun _ _ _ hh => hh
      permit := fun g m b hh => by
        by_cases hm : m = n
        · subst hm
          rw [Hub.modTrec_self]
          exact hh
        · rw [Hub.modTrec_other _ _ _ _ hm]
          exact hh
      fence := fun _ _ hh => hh, refusal := fun _ hh => hh
      placed := fun _ _ _ _ _ _ _ _ hh => by rw [(Hub.schedule_others _ _).1]; exact hh }
    (fun _ _ hh => hh) _ _ rfl

theorem Hub.judgedNotice_frame : h.judgedNotice.clock = h.clock ∧ h.judgedNotice.trecs = h.trecs := by
  unfold Hub.judgedNotice Hub.timingNotice
  simp only
  split <;> split <;> exact ⟨rfl, rfl⟩

theorem Hub.judgedTiming_clock : h.judgedTiming.clock = h.clock :=
  (Hub.timingResults_clock _ _).trans Hub.judgedNotice_frame.1

theorem Hub.judgedTiming_report (n : Slot) : h.judgedTiming.trecs[n].report = h.trecs[n].report :=
  (Hub.timingResults_report _ _ n).trans (by rw [Hub.judgedNotice_frame.2])

theorem Hub.consumeMeasurement_clock : h.consumeMeasurement.clock = h.clock := by
  unfold Hub.consumeMeasurement
  split <;> rfl

/-- A judgment that takes no step leaves the clock. -/
theorem Hub.judgeReference_clock (hno : ∀ o, h.judgedOffset = some o → h.midTiming.steps o = false) : h.judgeReference.clock = h.clock := by
  refine (Hub.timingResults_clock _ _).trans (Eq.trans ?_ Hub.judgedTiming_clock)
  unfold Hub.useMeasurement
  cases hoffset : h.judgedOffset with
  | none => rfl
  | some o =>
    simp only
    rw [if_neg (by rw [hno o hoffset]; decide)]
    exact Hub.consumeMeasurement_clock

theorem Hub.countFrame_now (time : HubTime) : (h.countFrame time).clock.now = h.clock.now ∧ (h.countFrame time).clock.timeStepped = h.clock.timeStepped := by
  unfold Hub.countFrame
  split <;> exact ⟨rfl, rfl⟩

theorem Hub.judgeErroredSeconds_clock : h.judgeErroredSeconds.clock = h.clock := by
  unfold Hub.judgeErroredSeconds
  refine foldl_keeps (P := fun g : Hub => g.clock = h.clock) (f := Hub.judgeErrored) (fun g n hg => ?_) _ rfl
  unfold Hub.judgeErrored
  simp only
  split
  · exact (Hub.clear_quiet _ _).clock.trans hg
  · exact hg

/-- A step takes hub time to its target, modulo 2^48 s (R99). -/
theorem Hub.stepTo_now (target : Int) :
    (h.stepTo target).clock.now = HubTime.ofTotal (target % (2 ^ 48 * nsPerSec : Nat)).toNat ∧ (h.stepTo target).clock.timeStepped = true := by
  unfold Hub.stepTo
  simp only
  split
  · rw [(Hub.countFrame_now _).1, (Hub.countFrame_now _).2]
    split
    · rw [Hub.judgeErroredSeconds_clock]
      exact ⟨rfl, rfl⟩
    · exact ⟨rfl, rfl⟩
  · split
    · rw [Hub.judgeErroredSeconds_clock]
      exact ⟨rfl, rfl⟩
    · exact ⟨rfl, rfl⟩

/-- The first offset of an acquisition steps hub time (R111). -/
theorem Hub.judgeReference_steps {o : Int} (hoffset : h.judgedOffset = some o) (hsteps : h.midTiming.steps o = true) :
    h.judgeReference.clock.now = HubTime.ofTotal (((h.clock.now.total : Int) + o) % (2 ^ 48 * nsPerSec : Nat)).toNat ∧
      h.judgeReference.clock.timeStepped = true := by
  unfold Hub.judgeReference
  rw [Hub.timingResults_clock]
  unfold Hub.useMeasurement
  rw [hoffset]
  simp only
  rw [if_pos hsteps, Hub.consumeMeasurement_clock, Hub.judgedTiming_clock]
  exact Hub.stepTo_now _

theorem Hub.useMeasurement_of_no_step {mid : Timing} {o : Int} (hno : mid.steps o = false) :
    h.useMeasurement mid (some o) = h.consumeMeasurement := if_neg (by rw [hno]; decide)

/-- The measurement of EXT is used up (R103). -/
theorem Hub.judgeReference_extPending {o : Int} (hoffset : h.judgedOffset = some o) (hno : h.midTiming.steps o = false)
    (hselection : h.newTiming.selection = some .ext) : h.judgeReference.timing.extPending = none := by
  unfold Hub.judgeReference
  rw [Hub.timingResults_timing, hoffset, Hub.useMeasurement_of_no_step hno]
  unfold Hub.consumeMeasurement
  rw [show h.judgedTiming.timing.selection = some .ext from hselection]

/-- The measurement of a slot is used up (R103). -/
theorem Hub.judgeReference_report {o : Int} {n : Slot} (hoffset : h.judgedOffset = some o) (hno : h.midTiming.steps o = false)
    (hselection : h.newTiming.selection = some (.slot n)) :
    h.judgeReference.trecs[n].report = h.trecs[n].report.map fun r => { r with pending := false } := by
  unfold Hub.judgeReference
  rw [Hub.timingResults_report, hoffset, Hub.useMeasurement_of_no_step hno]
  unfold Hub.consumeMeasurement
  rw [show h.judgedTiming.timing.selection = some (.slot n) from hselection]
  simp only
  rw [Hub.modTrec_self]
  exact congrArg (Option.map _) (Hub.judgedTiming_report n)

/-! ## What it tells -/

/-- A change of the timing state or the selection is told first, in one TIMING_CHANGED (R113). -/
theorem Hub.judgeReference_tells (hroom : h.port.notices < 24)
    (hchange : ¬ (h.timing.state = h.newTiming.state ∧ h.timing.selection = h.newTiming.selection)) :
    ∃ later, h.judgeReference.port.outbound = h.port.outbound ++ {
      isReply := false, code := Code.timingChanged, tag := 0, status := .ok, overrun := false, noticesLost := h.port.noticesLost
      body := .timingChanged h.timing.state h.newTiming.state h.timing.selected h.newTiming.selected h.newTiming.state.inSpec
        h.newTiming.holdover h.clock.now (pickReason h.draws (judgmentReasons h.timing h.midTiming h.newTiming)) } :: later := by
  have hnotice : h.judgedNotice.port.outbound = h.port.outbound ++ [{
      isReply := false, code := Code.timingChanged, tag := 0, status := .ok, overrun := false, noticesLost := h.port.noticesLost
      body := .timingChanged h.timing.state h.newTiming.state h.timing.selected h.newTiming.selected h.newTiming.state.inSpec
        h.newTiming.holdover h.clock.now (pickReason h.draws (judgmentReasons h.timing h.midTiming h.newTiming)) }] := by
    have hport : ∀ body, (h.port.notice Code.timingChanged body).outbound = h.port.outbound ++ [{
        isReply := false, code := Code.timingChanged, tag := 0, status := .ok, overrun := false, noticesLost := h.port.noticesLost, body }] :=
      fun body => by
        unfold HostPort.notice
        rw [if_neg (by omega)]
    unfold Hub.judgedNotice Hub.timingNotice
    simp only
    rw [if_neg hchange]
    split <;> exact hport _
  obtain ⟨later, hlater⟩ := JudgeClosed.judgeReference (JudgeClosed.outbound h.judgedNotice.port.outbound) (List.prefix_refl _)
  refine ⟨later, ?_⟩
  rw [← hlater, hnotice, List.append_assoc]
  rfl

end

end Sys2Proof.Machine
end

section
/-! PROOFS. SECOND_JUDGMENT when its boundary is due (sections 6.3 to 6.6). -/

namespace Sys2Proof.Machine

/-! ## The second that ends -/

/-- The hub with its second boundary taken and the errored seconds judged. -/
def Hub.secondEnded (h : Hub) : Hub := ({ h with clock := h.clock.take .second } : Hub).judgeErroredSeconds

section

variable {h : Hub}

theorem Hub.secondEnded_timing : h.secondEnded.timing = h.timing := Hub.judgeErroredSeconds_timing _

theorem Hub.secondEnded_clock : h.secondEnded.clock = h.clock.take .second := Hub.judgeErroredSeconds_clock

theorem Hub.secondEnded_frame : h.secondEnded.slots = h.slots ∧ h.secondEnded.tables = h.tables := by
  unfold Hub.secondEnded
  exact JudgeClosed.judgeErroredSeconds (P := fun g => g.slots = h.slots ∧ g.tables = h.tables) (h := { h with clock := h.clock.take .second })
    (JudgeClosed.slots h.slots h.tables) ⟨rfl, rfl⟩

theorem Hub.judgeErrored_trecBy {g : Hub} {n : Slot} (m : Slot) (hg : Hub.TrecBy n id h g) : Hub.TrecBy n id h (g.judgeErrored m) := by
  unfold Hub.judgeErrored
  simp only
  split
  · exact Hub.TrecBy.quiet (g := g.modLink m _) hg (Hub.clear_quiet _ _)
  · exact hg

theorem Hub.secondEnded_trecs (n : Slot) : h.secondEnded.trecs[n] = { h.trecs[n] with granted := h.secondEnded.trecs[n].granted } := by
  have hsame : Hub.TrecBy n id h h := Hub.TrecBy.of_quiet n (.refl h)
  have hstart : Hub.TrecBy n id h { h with clock := h.clock.take .second } := hsame
  have hend : Hub.TrecBy n id h h.secondEnded := by
    unfold Hub.secondEnded Hub.judgeErroredSeconds
    exact foldl_keeps (P := Hub.TrecBy n id h) (f := Hub.judgeErrored) (fun _ m hg => Hub.judgeErrored_trecBy m hg) allSlots hstart
  exact hend.self

/-- Where no LINK_ERRORS is ACTIVE the end of a second tells nothing. -/
theorem Hub.secondEnded_port (hoff : ∀ n : Slot, h.isActive (.slot n .linkErrors) = false) : h.secondEnded.port = h.port := by
  unfold Hub.secondEnded Hub.judgeErroredSeconds
  refine (foldl_keeps (P := fun g : Hub => g.port = h.port ∧ g.alarms = h.alarms) (f := Hub.judgeErrored) (fun g m hg => ?_) _
    (⟨rfl, rfl⟩ : ({ h with clock := h.clock.take .second } : Hub).port = h.port ∧ _)).1
  have hm : g.isActive (.slot m .linkErrors) = false := by
    unfold Hub.isActive
    rw [hg.2]
    exact hoff m
  unfold Hub.judgeErrored
  simp only [hm, Bool.and_false, Bool.false_eq_true, if_false]
  exact hg

/-! ## The judgment's own parts do not depend on the second's end -/

theorem Hub.sourceValid_congr {g : Hub} (htiming : g.timing = h.timing) (hslots : g.slots = h.slots) (helapsed : g.clock.elapsed = h.clock.elapsed)
    (htrecs : ∀ n : Slot, g.trecs[n] = { h.trecs[n] with granted := g.trecs[n].granted }) : g.sourceValid = h.sourceValid := by
  funext s
  cases s with
  | ext =>
    unfold Hub.sourceValid
    rw [htiming, helapsed]
  | slot n =>
    unfold Hub.sourceValid Hub.hasCap
    simp only
    rw [hslots, helapsed, htrecs n]
    rfl

theorem Hub.secondEnded_midTiming : h.secondEnded.midTiming = h.midTiming := by
  unfold Hub.midTiming
  rw [Hub.sourceValid_congr Hub.secondEnded_timing Hub.secondEnded_frame.1 (by rw [Hub.secondEnded_clock]; rfl) Hub.secondEnded_trecs,
    Hub.secondEnded_timing, Hub.secondEnded_frame.2]

theorem Hub.secondEnded_judgedOffset : h.secondEnded.judgedOffset = h.judgedOffset := by
  unfold Hub.judgedOffset Hub.measuredOffset
  rw [Hub.secondEnded_midTiming]
  simp only
  split
  · rfl
  · rfl
  · next n _ => rw [Hub.secondEnded_trecs n]

theorem Hub.secondEnded_newTiming : h.secondEnded.newTiming = h.newTiming := by
  unfold Hub.newTiming
  rw [Hub.secondEnded_midTiming, Hub.secondEnded_judgedOffset, Hub.secondEnded_frame.2]

/-! ## The event -/

theorem Hub.takeSecond_eq (hdue : h.clock.due.any (·.sort == .second) = true) : h.takeSecond = h.secondEnded.applyTimeSet.judgeReference := by
  have hfirst : (h.clock.first .second).isSome = true := by
    unfold Clock.first
    rw [List.find?_isSome]
    exact List.any_eq_true.mp hdue
  unfold Hub.takeSecond
  simp only
  rw [if_pos hfirst, Hub.secondJudgment_eq]
  rfl

theorem Hub.applyTimeSet_of_none (hnone : h.timing.pendingTime = none) : h.applyTimeSet = h := by
  unfold Hub.applyTimeSet
  rw [hnone]

/-- A TIMING_CHANGED is told first (R113). -/
def Hub.TellsTiming (h g : Hub) (old new : Option (Nat × Source)) (inSpec : Bool) (reason : TimingReason) : Prop :=
  h.port.notices < 24 → (∀ n : Slot, h.isActive (.slot n .linkErrors) = false) →
  ∃ later, g.port.outbound = h.port.outbound ++ {
    isReply := false, code := Code.timingChanged, tag := 0, status := .ok, overrun := false, noticesLost := h.port.noticesLost
    body := .timingChanged h.timing.state g.timing.state old new inSpec g.timing.holdover h.clock.now reason } :: later

/-- What a due judgment with no time setting pending leaves: `mid` is the Timing Unit's record after its fourth part, `new` the one after
its fifth, `offset` the offset it uses. -/
structure Hub.Judged (h : Hub) (mid new : Timing) (offset : Option Int) (g : Hub) : Prop where
  timing : g.timing.Shows new
  now : (∀ o, offset = some o → mid.steps o = false) → g.clock.now = h.clock.now
  stepped : ∀ o, offset = some o → mid.steps o = true →
    g.clock.now = HubTime.ofTotal (((h.clock.now.total : Int) + o) % (2 ^ 48 * nsPerSec : Nat)).toNat ∧ g.clock.timeStepped = true
  extUsed : ∀ o, offset = some o → mid.steps o = false → new.selection = some .ext → g.timing.extPending = none
  slotUsed : ∀ o n, offset = some o → mid.steps o = false → new.selection = some (.slot n) →
    g.trecs[n].report = h.trecs[n].report.map fun r => { r with pending := false }
  tells : ∀ reason, judgmentReasons h.timing mid new = [reason] → ¬ (h.timing.state = new.state ∧ h.timing.selection = new.selection) →
    h.TellsTiming g h.timing.selected new.selected new.state.inSpec reason

theorem Timing.Shows.fields {t new : Timing} (hshows : t.Shows new) :
    t.state = new.state ∧ t.selection = new.selection ∧ t.cands = new.cands ∧ t.holdover = new.holdover ∧ t.correction = new.correction ∧
      t.lockCount = new.lockCount ∧ t.unlockCount = new.unlockCount ∧ t.firstOffset = new.firstOffset ∧ t.pendingTime = new.pendingTime := by
  rw [hshows]
  exact ⟨rfl, rfl, rfl, rfl, rfl, rfl, rfl, rfl, rfl⟩

theorem Hub.takeSecond_judged (hdue : h.clock.due.any (·.sort == .second) = true) (hnone : h.timing.pendingTime = none) :
    Hub.Judged h h.midTiming h.newTiming h.judgedOffset h.takeSecond := by
  rw [Hub.takeSecond_eq hdue, Hub.applyTimeSet_of_none (by rw [Hub.secondEnded_timing]; exact hnone)]
  have hshows := Hub.judgeReference_shows (h := h.secondEnded)
  have hclock := Hub.judgeReference_clock (h := h.secondEnded)
  have hsteps := fun o => Hub.judgeReference_steps (h := h.secondEnded) (o := o)
  have hext := fun o => Hub.judgeReference_extPending (h := h.secondEnded) (o := o)
  have hslot := fun o n => Hub.judgeReference_report (h := h.secondEnded) (o := o) (n := n)
  have htells := Hub.judgeReference_tells (h := h.secondEnded)
  have hnow : h.secondEnded.clock.now = h.clock.now := by
    rw [Hub.secondEnded_clock]
    rfl
  rw [Hub.secondEnded_midTiming] at hclock htells
  rw [Hub.secondEnded_judgedOffset] at hclock
  rw [Hub.secondEnded_newTiming] at hshows htells
  simp only [Hub.secondEnded_midTiming, Hub.secondEnded_judgedOffset, Hub.secondEnded_newTiming, hnow] at hsteps hext hslot
  obtain ⟨hstate, -, -, hholdover, -⟩ := hshows.fields
  refine ⟨hshows, fun hno => (congrArg Clock.now (hclock hno)).trans hnow, hsteps, hext, fun o n ho hno hsel => ?_, fun reason hreason hchange hroom hoff => ?_⟩
  · rw [hslot o n ho hno hsel, Hub.secondEnded_trecs n]
  · rw [Hub.secondEnded_timing, Hub.secondEnded_port hoff, hreason, hnow] at htells
    obtain ⟨later, htold⟩ := htells hroom hchange
    rw [hstate, hholdover]
    exact ⟨later, htold⟩

/-- The same, where the parts of the judgment are known. -/
theorem Hub.takeSecond_judged_of {mid new : Timing} {offset : Option Int} (hdue : h.clock.due.any (·.sort == .second) = true)
    (hnone : h.timing.pendingTime = none) (hmid : h.midTiming = mid) (hoffset : h.judgedOffset = offset)
    (hnew : mid.useOffset h.tables.timing offset = new) : Hub.Judged h mid new offset h.takeSecond := by
  have hjudged := Hub.takeSecond_judged hdue hnone
  unfold Hub.newTiming at hjudged
  rwa [hmid, hoffset, hnew] at hjudged

end

end Sys2Proof.Machine
end

section
/-! PROOFS. The parts of a second judgment, case by case (sections 6.3 to 6.5). -/

namespace Sys2Proof.Machine

/-! ## A candidate judged (R103, third part) -/

theorem Candidate.judge_invalid (c : Candidate) (q : Nat) : c.judge q false = { c with status := .unavailable, count := 0 } := rfl

theorem Candidate.judge_qualified {c : Candidate} (q : Nat) (hstatus : c.status = .qualified) : c.judge q true = { c with count := q } := by
  unfold Candidate.judge Candidate.normal
  simp only [hstatus, if_true, Bool.not_true, Bool.false_eq_true, if_false, Nat.le_succ]

/-- A candidate that fills the qualification period qualifies. -/
theorem Candidate.judge_qualifies {c : Candidate} {q : Nat} (hstatus : c.status = .qualifying) (hcount : c.count + 1 = q) :
    c.judge q true = { c with status := .qualified, count := q } := by
  have hmin : min c.count q = c.count := by omega
  unfold Candidate.judge Candidate.normal
  simp only [hstatus, reduceCtorEq, if_false, Bool.not_true, Bool.false_eq_true, hmin, hcount, le_refl, if_true]

/-! ## The selection (R105, R106) -/

section

variable {t : Timing} {revertive : Bool}

theorem Timing.reselect_of_appeared {s : Source} (hn : t.newSelection revertive = some s) (hs : t.selection = none) :
    t.reselect revertive = { t with selection := some s, state := t.state.appear, lockCount := 0, firstOffset := true } := by
  unfold Timing.reselect
  rw [hn, hs]
  rfl

theorem Timing.reselect_of_replaced {s s' : Source} (hn : t.newSelection revertive = some s') (hs : t.selection = some s) (hne : s' ≠ s) :
    t.reselect revertive = { t with selection := some s', state := t.state.change, lockCount := 0, firstOffset := true } := by
  unfold Timing.reselect
  rw [hn, hs]
  simp only
  rw [if_neg fun he => hne (Option.some.inj he)]
  rfl

/-- A single candidate that is QUALIFIED is selected, whatever the list. -/
theorem Timing.newSelection_single {c : Candidate} (hc : t.cands = [c]) (hstatus : c.status = .qualified) :
    t.newSelection revertive = some c.source := by
  have hbest : t.best = some c.source := by
    unfold Timing.best
    rw [hc, List.find?_cons_of_pos (by rw [hstatus]; rfl)]
    rfl
  unfold Timing.newSelection
  rw [hbest]
  split
  · next hholds =>
    simp only [Timing.selectionHolds, hc, List.any_cons, List.any_nil, Bool.or_false, Bool.and_eq_true, beq_iff_eq] at hholds
    exact hholds.2.2
  · rfl

/-- With no QUALIFIED candidate nothing is selected. -/
theorem Timing.newSelection_none (hc : ∀ c ∈ t.cands, c.status ≠ .qualified) : t.newSelection revertive = none := by
  have hholds : t.selectionHolds = false := by
    unfold Timing.selectionHolds
    refine List.any_eq_false.mpr fun c hm => ?_
    rw [Bool.and_eq_true, beq_iff_eq]
    exact fun he => hc c hm he.1
  have hbest : t.best = none := by
    unfold Timing.best
    rw [List.find?_eq_none.mpr fun c hm => by rw [beq_iff_eq]; exact hc c hm]
    rfl
  unfold Timing.newSelection
  rw [hholds, hbest, Bool.and_false]
  rfl

/-- The first of a QUALIFIED list is taken where the list is revertive, and where the selection is not among the QUALIFIED. -/
theorem Timing.newSelection_best (hlost : revertive = true ∨ t.selectionHolds = false) : t.newSelection revertive = t.best := by
  unfold Timing.newSelection
  refine if_neg ?_
  rcases hlost with hrev | hholds
  · rw [hrev]
    exact Bool.false_ne_true
  · rw [hholds, Bool.and_false]
    exact Bool.false_ne_true

end

/-! ## The Timing Unit's record after the fourth part -/

theorem Timing.advanceHoldover_of_not_running {t : Timing} (limit : Nat) (hs : t.state.running = false) : t.advanceHoldover limit = t :=
  if_pos (by rw [hs]; rfl)

section

variable {h : Hub}

/-- The Timing Unit's record when the candidates have been judged, before the selection. -/
def Hub.heldWith (h : Hub) (cands : List Candidate) : Timing := { h.timing.advanceHoldover h.tables.timing.holdoverLimit with cands }

theorem Hub.midTiming_of_cands {cands : List Candidate}
    (hjudged : h.timing.cands.map (fun c => c.judge h.tables.timing.q (h.sourceValid c.source)) = cands) :
    h.midTiming = (h.heldWith cands).reselect h.tables.revertive := by
  unfold Hub.midTiming Timing.judgeCands Hub.heldWith
  rw [Timing.advanceHoldover_cands, hjudged]

theorem Hub.heldWith_selection (cands : List Candidate) : (h.heldWith cands).selection = h.timing.selection := Timing.advanceHoldover_selection _ _

theorem Hub.heldWith_of_not_running (cands : List Candidate) (hs : h.timing.state.running = false) : h.heldWith cands = { h.timing with cands } := by
  unfold Hub.heldWith
  rw [Timing.advanceHoldover_of_not_running _ hs]

/-- A single candidate that is selected, QUALIFIED and valid stays so. -/
theorem Hub.midTiming_kept {c : Candidate} (hc : h.timing.cands = [c]) (hstatus : c.status = .qualified)
    (hsel : h.timing.selection = some c.source) (hvalid : h.sourceValid c.source = true) :
    h.midTiming = h.heldWith [{ c with count := h.tables.timing.q }] := by
  have hcands := Hub.midTiming_of_cands (h := h) (cands := [{ c with count := h.tables.timing.q }]) (by
    rw [hc, List.map_singleton, hvalid, Candidate.judge_qualified _ hstatus])
  rw [hcands, Timing.reselect_of_same]
  rw [Hub.heldWith_selection, hsel]
  exact Timing.newSelection_single (c := { c with count := h.tables.timing.q }) rfl hstatus

/-- A single candidate that is selected and no longer valid is lost (R106). -/
theorem Hub.midTiming_lost {c : Candidate} (hc : h.timing.cands = [c]) (hsel : h.timing.selection = some c.source)
    (hvalid : h.sourceValid c.source = false) (hs : h.timing.state.running = false) :
    h.midTiming = { h.timing with
      cands := [{ c with status := .unavailable, count := 0 }], selection := none, state := h.timing.state.lose, correction := 0 } := by
  have hcands := Hub.midTiming_of_cands (h := h) (cands := [{ c with status := .unavailable, count := 0 }]) (by
    rw [hc, List.map_singleton, hvalid, Candidate.judge_invalid])
  rw [hcands, Hub.heldWith_of_not_running _ hs, Timing.reselect_of_lost ?_ (by simp only [hsel]; rfl)]
  exact Timing.newSelection_none fun d hd => by
    rw [List.mem_singleton.mp hd]
    exact CandStatus.noConfusion

/-- A single candidate that fills the qualification period is selected where nothing was (R105, R106). -/
theorem Hub.midTiming_appeared {c : Candidate} (hc : h.timing.cands = [c]) (hstatus : c.status = .qualifying)
    (hcount : c.count + 1 = h.tables.timing.q) (hsel : h.timing.selection = none) (hvalid : h.sourceValid c.source = true)
    (hs : h.timing.state.running = false) :
    h.midTiming = { h.timing with
      cands := [{ c with status := .qualified, count := h.tables.timing.q }], selection := some c.source, state := h.timing.state.appear
      lockCount := 0, firstOffset := true } := by
  have hcands := Hub.midTiming_of_cands (h := h) (cands := [{ c with status := .qualified, count := h.tables.timing.q }]) (by
    rw [hc, List.map_singleton, hvalid, Candidate.judge_qualifies hstatus hcount])
  rw [hcands, Hub.heldWith_of_not_running _ hs, Timing.reselect_of_appeared (s := c.source) ?_ (by exact hsel)]
  exact Timing.newSelection_single (c := { c with status := .qualified, count := h.tables.timing.q }) rfl rfl

/-- With an empty list and no selection the fourth part finds nothing to do. -/
theorem Hub.midTiming_empty (hc : h.timing.cands = []) (hsel : h.timing.selection = none) : h.midTiming = h.heldWith [] := by
  have hcands := Hub.midTiming_of_cands (h := h) (cands := []) (by rw [hc]; rfl)
  rw [hcands, Timing.reselect_of_same]
  rw [Hub.heldWith_selection, hsel]
  exact Timing.newSelection_of_empty _ rfl

/-! ## The offset (R108, R109) -/

theorem Hub.judgedOffset_none (hsel : h.midTiming.selection = none) : h.judgedOffset = none := by
  unfold Hub.judgedOffset Hub.measuredOffset
  simp only [hsel]

theorem Hub.judgedOffset_ext (hsel : h.midTiming.selection = some .ext) : h.judgedOffset = h.midTiming.extPending.map extOffset := by
  unfold Hub.judgedOffset Hub.measuredOffset
  simp only [hsel]

theorem Hub.judgedOffset_slot {n : Slot} {r : Report} (hsel : h.midTiming.selection = some (.slot n)) (hr : h.trecs[n].report = some r) :
    h.judgedOffset = if r.pending && r.traceable then r.comp.map (slotOffset r.refSec r.arrival.time.total) else none := by
  unfold Hub.judgedOffset Hub.measuredOffset
  simp only [hsel, hr]

end

/-! ## The fifth part (R110, R111) -/

section

variable {t : Timing} {p : TimingParams} {o : Int}

theorem Timing.steps_of_not_acquiring (hs : t.state = .locked) : t.steps o = false := by
  unfold Timing.steps
  rw [hs]
  simp

theorem Timing.steps_of_le (hle : o.natAbs ≤ 1000) : t.steps o = false := by
  unfold Timing.steps
  rw [decide_eq_false (by omega), Bool.and_false]

theorem Timing.useOffset_of_steps (hsteps : t.steps o = true) :
    t.useOffset p (some o) = { t.recordOffset o with correction := 0, lockCount := 0, firstOffset := false } := if_pos hsteps

theorem Timing.useOffset_of_no_step (hno : t.steps o = false) :
    t.useOffset p (some o) =
      ({ t.recordOffset o with correction := clampInt p.slewLimit o, firstOffset := false } : Timing).countOffset p o :=
  if_neg (by rw [show (t.recordOffset o).steps o = t.steps o from rfl, hno]; decide)

/-- An offset within the unlock threshold keeps the lock. -/
theorem Timing.useOffset_within (hs : t.state = .locked) (hle : o.natAbs ≤ p.unlockThreshold) :
    t.useOffset p (some o) = { t.recordOffset o with correction := clampInt p.slewLimit o, firstOffset := false, unlockCount := 0 } := by
  rw [Timing.useOffset_of_no_step (Timing.steps_of_not_acquiring hs)]
  unfold Timing.countOffset
  simp only [show (t.recordOffset o).state = .locked from hs, if_neg (Nat.not_lt.mpr hle)]

/-- An offset above it is counted. -/
theorem Timing.useOffset_beyond (hs : t.state = .locked) (hlt : p.unlockThreshold < o.natAbs) (hcount : t.unlockCount < 2) :
    t.useOffset p (some o) =
      { t.recordOffset o with correction := clampInt p.slewLimit o, firstOffset := false, unlockCount := t.unlockCount + 1 } := by
  rw [Timing.useOffset_of_no_step (Timing.steps_of_not_acquiring hs)]
  unfold Timing.countOffset
  simp only [show (t.recordOffset o).state = .locked from hs, if_pos hlt]
  rw [if_neg (by show ¬ 3 ≤ t.unlockCount + 1; omega)]
  rfl

/-- The third above it in a row loses the lock. -/
theorem Timing.useOffset_unlocks (hs : t.state = .locked) (hlt : p.unlockThreshold < o.natAbs) (hcount : t.unlockCount = 2) :
    t.useOffset p (some o) =
      { t.recordOffset o with
        correction := clampInt p.slewLimit o, firstOffset := true, unlockCount := 3, state := .acquiring .locked, lockCount := 0 } := by
  rw [Timing.useOffset_of_no_step (Timing.steps_of_not_acquiring hs)]
  unfold Timing.countOffset
  simp only [show (t.recordOffset o).state = .locked from hs, if_pos hlt]
  rw [if_pos (by show 3 ≤ t.unlockCount + 1; omega)]

/-- The eighth offset in a row within the lock window locks. -/
theorem Timing.useOffset_locks {origin : Origin} (hs : t.state = .acquiring origin) (hno : t.steps o = false) (hle : o.natAbs ≤ p.lockWindow)
    (hcount : t.lockCount = 7) :
    t.useOffset p (some o) =
      { t.recordOffset o with
        correction := clampInt p.slewLimit o, firstOffset := false, lockCount := 8, state := .locked, unlockCount := 0, holdover := 0 } := by
  rw [Timing.useOffset_of_no_step hno]
  unfold Timing.countOffset
  simp only [show (t.recordOffset o).state = .acquiring origin from hs, if_pos hle, show (t.recordOffset o).lockCount = 7 from hcount]
  rfl

end

/-! ## The reason told (R113) -/

theorem judgmentReasons_selection {old mid new : Timing} (hsel : old.selection ≠ mid.selection) (hstate : mid.state = new.state)
    (hrun : old.state.running = false) : judgmentReasons old mid new = [.selection] := by
  unfold judgmentReasons
  rw [hrun, if_pos hsel, if_neg (not_not.mpr hstate)]
  rfl

theorem judgmentReasons_lock {old mid new : Timing} (hsel : old.selection = mid.selection) (hstate : mid.state ≠ new.state)
    (hrun : (old.state.running && !mid.state.running && mid.state.lapsed) = false) :
    judgmentReasons old mid new = [if new.state = .locked then .lockAchieved else .lockLost] := by
  unfold judgmentReasons
  rw [hrun, if_neg (not_not.mpr hsel), if_pos hstate, if_neg Bool.false_ne_true]
  split <;> rfl

end Sys2Proof.Machine
end

section
/-! PROOFS. Each judgment of a second that O47 names (sections 6.3 to 6.6). -/

namespace Sys2Proof.Machine

/-! ## Validity and the selection as told -/

section

variable {h : Hub} {t : Timing}

theorem Timing.selected_eq (t : Timing) : t.selected = t.selection.map fun s => ((t.cands.map (·.source)).findIdx (· == s) + 1, s) := by
  unfold Timing.selected
  simp only [List.findIdx_map, Function.comp_def]

theorem Timing.selected_single {s : Source} (hc : t.cands.map (·.source) = [s]) (hs : t.selection = some s) : t.selected = some (1, s) := by
  rw [Timing.selected_eq, hc, hs]
  simp [List.findIdx_cons]

theorem Timing.selected_first {s s' : Source} (hc : t.cands.map (·.source) = [s, s']) (hs : t.selection = some s) : t.selected = some (1, s) := by
  rw [Timing.selected_eq, hc, hs]
  simp [List.findIdx_cons]

theorem Timing.selected_second {s s' : Source} (hne : s ≠ s') (hc : t.cands.map (·.source) = [s, s']) (hs : t.selection = some s') :
    t.selected = some (2, s') := by
  rw [Timing.selected_eq, hc, hs]
  simp [List.findIdx_cons, beq_eq_false_iff_ne.mpr hne]

theorem Timing.selected_none (hs : t.selection = none) : t.selected = none := by
  rw [Timing.selected_eq, hs]
  rfl

/-- EXT with no pulse is not valid (R101). -/
theorem Hub.sourceValid_ext_of_no_pulse (hpulse : h.timing.pulse = none) : h.sourceValid .ext = false := by
  unfold Hub.sourceValid
  rw [hpulse]
  rfl

/-- A slot with a traceable recent report, settled in FORWARDING with the capability, is valid (R102). -/
theorem Hub.sourceValid_slot {n : Slot} {r : Report} (hstate : h.slots[n].state = .forwarding) (hcap : h.hasCap n (·.timeSource) = true)
    (hsettled : h.trecs[n].settled = true) (hr : h.trecs[n].report = some r) (htrace : r.traceable = true)
    (hage : h.clock.elapsed ≤ r.arrival.elapsed + 1100 * nsPerMs) : h.sourceValid (.slot n) = true := by
  unfold Hub.sourceValid
  simp only [hstate, hcap, hsettled, hr, Option.any_some, htrace, Bool.true_and, beq_self_eq_true]
  exact decide_eq_true hage

theorem Hub.sourceValid_slot_of_no_report {n : Slot} (hr : h.trecs[n].report = none) : h.sourceValid (.slot n) = false := by
  unfold Hub.sourceValid
  simp only [hr, Option.any_none, Bool.and_false]

end

/-! ## A hub LOCKED to EXT, or acquiring it -/

section

variable {h : Hub} {m : Int} {c : Candidate}

theorem Timing.advanceHoldover_keeps (t : Timing) (limit : Nat) :
    (t.advanceHoldover limit).extPending = t.extPending ∧ (t.advanceHoldover limit).lockCount = t.lockCount := by
  unfold Timing.advanceHoldover Timing.holdoverLimit
  split
  · exact ⟨rfl, rfl⟩
  · split
    · split <;> exact ⟨rfl, rfl⟩
    · exact ⟨rfl, rfl⟩

theorem Timing.advanceHoldover_acquiring {t : Timing} {origin : Origin} (limit : Nat) (hs : t.state = .acquiring origin) :
    (∃ origin', (t.advanceHoldover limit).state = .acquiring origin') ∧
      ((origin = .locked → t.holdover + 1 < limit) → (t.advanceHoldover limit).state = .acquiring origin) := by
  unfold Timing.advanceHoldover Timing.holdoverLimit
  rw [hs]
  cases origin with
  | fresh => exact ⟨⟨_, hs⟩, fun _ => hs⟩
  | lapsed => exact ⟨⟨_, hs⟩, fun _ => hs⟩
  | locked =>
    simp only [TimingState.running, Bool.not_true, Bool.false_eq_true, if_false]
    by_cases hlimit : limit ≤ t.holdover + 1
    · rw [if_pos hlimit]
      exact ⟨⟨_, rfl⟩, fun hless => absurd (hless trivial) (by omega)⟩
    · rw [if_neg hlimit]
      exact ⟨⟨_, rfl⟩, fun _ => rfl⟩

/-- A candidate that EXT keeps selected gives its measurement as the offset. -/
theorem Hub.judgedOffset_kept (hc : h.timing.cands = [c]) (hext : c.source = .ext) (hstatus : c.status = .qualified)
    (hsel : h.timing.selection = some .ext) (hvalid : h.sourceValid .ext = true) (hm : h.timing.extPending = some m) :
    h.midTiming = h.heldWith [{ c with count := h.tables.timing.q }] ∧ h.judgedOffset = some (extOffset m) := by
  have hmid := Hub.midTiming_kept hc hstatus (by rw [hext]; exact hsel) (by rw [hext]; exact hvalid)
  refine ⟨hmid, ?_⟩
  rw [Hub.judgedOffset_ext (by rw [hmid, Hub.heldWith_selection, hsel]), hmid]
  show (h.timing.advanceHoldover _).extPending.map extOffset = _
  rw [(Timing.advanceHoldover_keeps _ _).1, hm]
  rfl

end

/-! ## The judgment, with what the command leaves -/

/-- A judged second that takes a step in no case leaves hub time. -/
theorem Hub.Judged.now_of_none {h g : Hub} {mid new : Timing} (hj : Hub.Judged h mid new none g) : g.clock.now = h.clock.now :=
  hj.now fun _ ho => absurd ho (by simp)

theorem Hub.Judged.now_of_no_step {h g : Hub} {mid new : Timing} {o : Int} (hj : Hub.Judged h mid new (some o) g)
    (hno : mid.steps o = false) : g.clock.now = h.clock.now := hj.now fun _ ho => Option.some.inj ho ▸ hno

/-- What is told, in the words of the notice. -/
theorem Hub.Judged.told {h g : Hub} {mid new : Timing} {offset : Option Int} (hj : Hub.Judged h mid new offset g)
    {old sel : Option (Nat × Source)} {inSpec : Bool} {reason : TimingReason} (hreason : judgmentReasons h.timing mid new = [reason])
    (hchange : h.timing.state ≠ new.state ∨ h.timing.selection ≠ new.selection) (hold : h.timing.selected = old) (hsel : new.selected = sel)
    (hspec : new.state.inSpec = inSpec) : h.TellsTiming g old sel inSpec reason := by
  subst hold hsel hspec
  exact hj.tells reason hreason fun hboth => hchange.elim (fun hn => hn hboth.1) fun hn => hn hboth.2

end Sys2Proof.Machine
end

section
/-! PROOFS. SECOND_JUDGMENT, HOLDOVER_LIMIT_REACHED and LINK_ERRORS_CLEAR, settled (sections 1.4 and 6.3 to 6.6). -/

namespace Sys2Proof.Machine

/-! ## Each case of a due judgment -/

/-- A due second whose judgment finds one candidate, EXT, that is selected, QUALIFIED and valid and has a measurement. -/
structure Hub.OnExt (h : Hub) (c : Candidate) (m : Int) : Prop where
  due : h.clock.due.any (·.sort == .second) = true
  noSetting : h.timing.pendingTime = none
  selection : h.timing.selection = some .ext
  cands : h.timing.cands = [c]
  source : c.source = .ext
  status : c.status = .qualified
  valid : h.sourceValid .ext = true
  measured : h.timing.extPending = some m

/-- The record of the Timing Unit with one candidate, whose count is that of a QUALIFIED one. -/
def Hub.withOne (h : Hub) (c : Candidate) : Timing := { h.timing with cands := [{ c with count := h.tables.timing.q }] }

section

variable {h : Hub} {c : Candidate} {m : Int} (hon : h.OnExt c m)
include hon

theorem Hub.OnExt.parts : h.midTiming = h.heldWith [{ c with count := h.tables.timing.q }] ∧ h.judgedOffset = some (extOffset m) :=
  Hub.judgedOffset_kept hon.cands hon.source hon.status hon.selection hon.valid hon.measured

theorem Hub.OnExt.judged_of {new : Timing} (hrun : h.timing.state.running = false)
    (hnew : (h.withOne c).useOffset h.tables.timing (some (extOffset m)) = new) :
    Hub.Judged h (h.withOne c) new (some (extOffset m)) h.takeSecond := by
  obtain ⟨hmid, hoffset⟩ := hon.parts
  rw [Hub.heldWith_of_not_running _ hrun] at hmid
  exact Hub.takeSecond_judged_of hon.due hon.noSetting hmid hoffset hnew

/-- LOCKED to EXT with an offset within the unlock threshold. -/
theorem Hub.OnExt.judged_within (hs : h.timing.state = .locked) (hle : (extOffset m).natAbs ≤ h.tables.timing.unlockThreshold) :
    Hub.Judged h (h.withOne c)
      { (h.withOne c).recordOffset (extOffset m) with
        correction := clampInt h.tables.timing.slewLimit (extOffset m), firstOffset := false, unlockCount := 0 }
      (some (extOffset m)) h.takeSecond := hon.judged_of (by rw [hs]; rfl) (Timing.useOffset_within hs hle)

/-- LOCKED to EXT with an offset above it. -/
theorem Hub.OnExt.judged_beyond (hs : h.timing.state = .locked) (hlt : h.tables.timing.unlockThreshold < (extOffset m).natAbs)
    (hcount : h.timing.unlockCount < 2) :
    Hub.Judged h (h.withOne c)
      { (h.withOne c).recordOffset (extOffset m) with
        correction := clampInt h.tables.timing.slewLimit (extOffset m), firstOffset := false, unlockCount := h.timing.unlockCount + 1 }
      (some (extOffset m)) h.takeSecond := hon.judged_of (by rw [hs]; rfl) (Timing.useOffset_beyond hs hlt hcount)

/-- The third in a row above it. -/
theorem Hub.OnExt.judged_unlocks (hs : h.timing.state = .locked) (hlt : h.tables.timing.unlockThreshold < (extOffset m).natAbs)
    (hcount : h.timing.unlockCount = 2) :
    Hub.Judged h (h.withOne c)
      { (h.withOne c).recordOffset (extOffset m) with
        correction := clampInt h.tables.timing.slewLimit (extOffset m), firstOffset := true, unlockCount := 3, state := .acquiring .locked
        lockCount := 0 }
      (some (extOffset m)) h.takeSecond := hon.judged_of (by rw [hs]; rfl) (Timing.useOffset_unlocks hs hlt hcount)

/-- The eighth offset in a row within the lock window. -/
theorem Hub.OnExt.judged_locks {origin : Origin} (hs : h.timing.state = .acquiring origin) (hcount : h.timing.lockCount = 7)
    (hle : (extOffset m).natAbs ≤ h.tables.timing.lockWindow) (hwindow : h.tables.timing.lockWindow ≤ 1000) :
    Hub.Judged h (h.heldWith [{ c with count := h.tables.timing.q }])
      { (h.heldWith [{ c with count := h.tables.timing.q }]).recordOffset (extOffset m) with
        correction := clampInt h.tables.timing.slewLimit (extOffset m), firstOffset := false, lockCount := 8, state := .locked, unlockCount := 0
        holdover := 0 }
      (some (extOffset m)) h.takeSecond := by
  obtain ⟨hmid, hoffset⟩ := hon.parts
  obtain ⟨⟨origin', hs'⟩, -⟩ := Timing.advanceHoldover_acquiring h.tables.timing.holdoverLimit hs
  exact Hub.takeSecond_judged_of hon.due hon.noSetting hmid hoffset (Timing.useOffset_locks hs' (Timing.steps_of_le (hle.trans hwindow)) hle
    ((Timing.advanceHoldover_keeps _ _).2.trans hcount))

/-- The first offset of an acquisition steps hub time (R111). -/
theorem Hub.OnExt.judged_steps (hs : h.timing.state = .acquiring .fresh) (hfirst : h.timing.firstOffset = true) (hlt : 1000 < (extOffset m).natAbs) :
    (h.withOne c).steps (extOffset m) = true ∧
    Hub.Judged h (h.withOne c)
      { (h.withOne c).recordOffset (extOffset m) with correction := 0, lockCount := 0, firstOffset := false }
      (some (extOffset m)) h.takeSecond := by
  have hsteps : (h.withOne c).steps (extOffset m) = true := by
    unfold Timing.steps Hub.withOne
    simp only [hfirst, hs, beq_self_eq_true, Bool.true_or, Bool.true_and, hlt, decide_true]
  exact ⟨hsteps, hon.judged_of (by rw [hs]; rfl) (Timing.useOffset_of_steps hsteps)⟩

end

section

variable {h : Hub} {c : Candidate}

/-- LOCKED to a single candidate that is no longer valid. -/
theorem Hub.judged_lost (hdue : h.clock.due.any (·.sort == .second) = true) (hnone : h.timing.pendingTime = none) (hs : h.timing.state = .locked)
    (hsel : h.timing.selection = some c.source) (hc : h.timing.cands = [c]) (hvalid : h.sourceValid c.source = false) :
    Hub.Judged h { h.timing with
        cands := [{ c with status := .unavailable, count := 0 }], selection := none, state := h.timing.state.lose, correction := 0 }
      { h.timing with
        cands := [{ c with status := .unavailable, count := 0 }], selection := none, state := h.timing.state.lose, correction := 0 }
      none h.takeSecond := by
  have hmid := Hub.midTiming_lost hc hsel hvalid (by rw [hs]; rfl)
  exact Hub.takeSecond_judged_of hdue hnone hmid (Hub.judgedOffset_none (by rw [hmid])) rfl

/-- FREE_RUN, with a candidate that fills the qualification period. -/
theorem Hub.judged_appeared (hdue : h.clock.due.any (·.sort == .second) = true) (hnone : h.timing.pendingTime = none) (hs : h.timing.state = .freeRun)
    (hsel : h.timing.selection = none) (hc : h.timing.cands = [c]) (hext : c.source = .ext) (hstatus : c.status = .qualifying)
    (hcount : c.count + 1 = h.tables.timing.q) (hvalid : h.sourceValid .ext = true) (hm : h.timing.extPending = none) :
    Hub.Judged h
      { h.timing with
        cands := [{ c with status := .qualified, count := h.tables.timing.q }], selection := some c.source, state := h.timing.state.appear
        lockCount := 0, firstOffset := true }
      { h.timing with
        cands := [{ c with status := .qualified, count := h.tables.timing.q }], selection := some c.source, state := h.timing.state.appear
        lockCount := 0, firstOffset := true, correction := 0 }
      none h.takeSecond := by
  have hmid := Hub.midTiming_appeared hc hstatus hcount hsel (by rw [hext]; exact hvalid) (by rw [hs]; rfl)
  refine Hub.takeSecond_judged_of hdue hnone hmid ?_ rfl
  rw [Hub.judgedOffset_ext (by rw [hmid, hext]), hmid]
  show h.timing.extPending.map extOffset = none
  rw [hm]
  rfl

/-- The clock's last second of HOLDOVER. -/
theorem Hub.judged_lapses (hdue : h.clock.due.any (·.sort == .second) = true) (hnone : h.timing.pendingTime = none) (hs : h.timing.state = .holdover)
    (hc : h.timing.cands = []) (hsel : h.timing.selection = none) (hlimit : h.tables.timing.holdoverLimit ≤ h.timing.holdover + 1) :
    Hub.Judged h { h.timing with cands := [], holdover := h.tables.timing.holdoverLimit, state := .holdoverLapsed }
      { h.timing with cands := [], holdover := h.tables.timing.holdoverLimit, state := .holdoverLapsed, correction := 0 } none h.takeSecond := by
  have hheld : h.heldWith [] = { h.timing with cands := [], holdover := h.tables.timing.holdoverLimit, state := .holdoverLapsed } := by
    unfold Hub.heldWith Timing.advanceHoldover Timing.holdoverLimit
    rw [hs, if_neg (by decide), if_pos hlimit]
  have hmid := (Hub.midTiming_empty hc hsel).trans hheld
  exact Hub.takeSecond_judged_of hdue hnone hmid (Hub.judgedOffset_none (by rw [hmid]; exact hsel)) rfl

end

/-! ## Two candidates -/

/-- A due second of a hub LOCKED, with two candidates, EXT and then a slot, QUALIFIED and valid, whose report is used up. -/
structure Hub.OnTwo (h : Hub) (c d : Candidate) (n : Slot) : Prop where
  due : h.clock.due.any (·.sort == .second) = true
  noSetting : h.timing.pendingTime = none
  state : h.timing.state = .locked
  cands : h.timing.cands = [c, d]
  source : c.source = .ext
  source' : d.source = .slot n
  status' : d.status = .qualified
  valid' : h.sourceValid (.slot n) = true
  used : ∃ r, h.trecs[n].report = some r ∧ r.pending = false

section

variable {h : Hub} {c d : Candidate} {n : Slot} (htwo : h.OnTwo c d n)
include htwo

/-- The selection re-evaluated over the two judged candidates. -/
theorem Hub.OnTwo.midTiming {judged : Candidate} (hjudged : c.judge h.tables.timing.q (h.sourceValid .ext) = judged) :
    h.midTiming = ({ h.timing with cands := [judged, { d with count := h.tables.timing.q }] } : Timing).reselect h.tables.revertive := by
  rw [Hub.midTiming_of_cands (cands := [judged, { d with count := h.tables.timing.q }]) ?_,
    Hub.heldWith_of_not_running _ (by rw [htwo.state]; rfl)]
  rw [htwo.cands, List.map_cons, List.map_singleton, htwo.source, hjudged, htwo.source', htwo.valid', Candidate.judge_qualified _ htwo.status',
    ← htwo.source']

theorem Hub.OnTwo.judgedOffset (hsel : h.midTiming.selection = some (.slot n)) : h.judgedOffset = none := by
  obtain ⟨r, hr, hpending⟩ := htwo.used
  rw [Hub.judgedOffset_slot hsel hr, hpending]
  rfl

/-- EXT, before the selected slot in a revertive list, takes the selection when it qualifies. -/
theorem Hub.OnTwo.judged_reverts (hsel : h.timing.selection = some (.slot n)) (hstatus : c.status = .qualifying)
    (hcount : c.count + 1 = h.tables.timing.q) (hvalid : h.sourceValid .ext = true) (hm : h.timing.extPending = none)
    (hrev : h.tables.revertive = true) :
    Hub.Judged h
      { h.timing with
        cands := [{ c with status := .qualified, count := h.tables.timing.q }, { d with count := h.tables.timing.q }], selection := some .ext
        state := h.timing.state.change, lockCount := 0, firstOffset := true }
      { h.timing with
        cands := [{ c with status := .qualified, count := h.tables.timing.q }, { d with count := h.tables.timing.q }], selection := some .ext
        state := h.timing.state.change, lockCount := 0, firstOffset := true, correction := 0 }
      none h.takeSecond := by
  have hmid := htwo.midTiming (by rw [hvalid, Candidate.judge_qualifies hstatus hcount])
  rw [Timing.reselect_of_replaced (s := .slot n) (s' := .ext) ?_ (by exact hsel) (by simp)] at hmid
  · refine Hub.takeSecond_judged_of htwo.due htwo.noSetting hmid ?_ rfl
    rw [Hub.judgedOffset_ext (by rw [hmid]), hmid]
    show h.timing.extPending.map extOffset = none
    rw [hm]
    rfl
  · rw [Timing.newSelection_best (.inl hrev)]
    exact congrArg some htwo.source

/-- In a list that is not revertive the selection stays. -/
theorem Hub.OnTwo.judged_stays (hsel : h.timing.selection = some (.slot n)) (hstatus : c.status = .qualifying)
    (hcount : c.count + 1 = h.tables.timing.q) (hvalid : h.sourceValid .ext = true) (hrev : h.tables.revertive = false) :
    Hub.Judged h
      { h.timing with cands := [{ c with status := .qualified, count := h.tables.timing.q }, { d with count := h.tables.timing.q }] }
      { h.timing with
        cands := [{ c with status := .qualified, count := h.tables.timing.q }, { d with count := h.tables.timing.q }], correction := 0 }
      none h.takeSecond := by
  have hmid := htwo.midTiming (by rw [hvalid, Candidate.judge_qualifies hstatus hcount])
  rw [Timing.reselect_of_same] at hmid
  · exact Hub.takeSecond_judged_of htwo.due htwo.noSetting hmid (htwo.judgedOffset (by rw [hmid]; exact hsel)) rfl
  · rw [hrev]
    refine Timing.newSelection_of_holds ?_
    unfold Timing.selectionHolds
    simp only [List.any_cons, htwo.status', htwo.source', hsel, beq_self_eq_true, Bool.and_self, Bool.true_or, Bool.or_true]

/-- The slot takes the selection from EXT that is lost. -/
theorem Hub.OnTwo.judged_falls (hsel : h.timing.selection = some .ext) (hvalid : h.sourceValid .ext = false) :
    Hub.Judged h
      { h.timing with
        cands := [{ c with status := .unavailable, count := 0 }, { d with count := h.tables.timing.q }], selection := some (.slot n)
        state := h.timing.state.change, lockCount := 0, firstOffset := true }
      { h.timing with
        cands := [{ c with status := .unavailable, count := 0 }, { d with count := h.tables.timing.q }], selection := some (.slot n)
        state := h.timing.state.change, lockCount := 0, firstOffset := true, correction := 0 }
      none h.takeSecond := by
  have hmid := htwo.midTiming (by rw [hvalid, Candidate.judge_invalid])
  rw [Timing.reselect_of_replaced (s := .ext) (s' := .slot n) ?_ (by exact hsel) (by simp)] at hmid
  · exact Hub.takeSecond_judged_of htwo.due htwo.noSetting hmid (htwo.judgedOffset (by rw [hmid])) rfl
  · rw [Timing.newSelection_best (.inr ?_)]
    · unfold Timing.best
      rw [List.find?_cons_of_neg (by simp), List.find?_cons_of_pos (by simp only [htwo.status']; rfl)]
      exact congrArg some htwo.source'
    · unfold Timing.selectionHolds
      simp only [List.any_cons, htwo.source', hsel, List.any_nil]
      simp

end

/-! ## A slot as the reference -/

/-- A due second of a hub LOCKED to a slot, its only candidate, QUALIFIED and valid, whose traceable report is pending. -/
structure Hub.OnSlot (h : Hub) (n : Slot) (c : Candidate) (r : Report) (comp : Nat) : Prop where
  due : h.clock.due.any (·.sort == .second) = true
  noSetting : h.timing.pendingTime = none
  state : h.timing.state = .locked
  selection : h.timing.selection = some (.slot n)
  cands : h.timing.cands = [c]
  source : c.source = .slot n
  status : c.status = .qualified
  valid : h.sourceValid (.slot n) = true
  report : h.trecs[n].report = some r
  traceable : r.traceable = true
  pending : r.pending = true
  comp : r.comp = some comp

/-- An offset within the unlock threshold keeps the lock. -/
theorem Hub.OnSlot.judged {h : Hub} {n : Slot} {c : Candidate} {r : Report} {comp : Nat} (hon : h.OnSlot n c r comp)
    (hle : (slotOffset r.refSec r.arrival.time.total comp).natAbs ≤ h.tables.timing.unlockThreshold) :
    Hub.Judged h (h.withOne c)
      { (h.withOne c).recordOffset (slotOffset r.refSec r.arrival.time.total comp) with
        correction := clampInt h.tables.timing.slewLimit (slotOffset r.refSec r.arrival.time.total comp), firstOffset := false, unlockCount := 0 }
      (some (slotOffset r.refSec r.arrival.time.total comp)) h.takeSecond := by
  have hmid := Hub.midTiming_kept hon.cands hon.status (by rw [hon.source]; exact hon.selection) (by rw [hon.source]; exact hon.valid)
  rw [Hub.heldWith_of_not_running _ (by rw [hon.state]; rfl)] at hmid
  refine Hub.takeSecond_judged_of hon.due hon.noSetting hmid ?_ (Timing.useOffset_within hon.state hle)
  rw [Hub.judgedOffset_slot (by rw [hmid]; exact hon.selection) hon.report, hon.pending, hon.traceable, hon.comp]
  rfl

end Sys2Proof.Machine
end

section
/-! PROOFS. A time setting applied, the holdover limit, and LINK_ERRORS cleared (sections 1.4, 6.4 and 6.7). -/

namespace Sys2Proof.Machine

/-! ## A pending time setting (R116) -/

theorem HubTime.ofTotal_sec {sec : Nat} (hsec : sec < 2 ^ 48) :
    HubTime.ofTotal (((sec * nsPerSec : Nat) : Int) % (2 ^ 48 * nsPerSec : Nat)).toNat = { sec, ns := 0 } := by
  have hmod : (((sec * nsPerSec : Nat) : Int) % (2 ^ 48 * nsPerSec : Nat)).toNat = sec * nsPerSec := by
    rw [← Int.natCast_mod, Int.toNat_natCast, Nat.mod_eq_of_lt (Nat.mul_lt_mul_of_pos_right hsec (by decide))]
  rw [hmod]
  unfold HubTime.ofTotal
  rw [Nat.mul_div_cancel _ (by decide), Nat.mul_mod_left, Nat.mod_eq_of_lt hsec]

section

variable {h : Hub}

theorem Hub.applyTimeSet_of_some {sec : Nat} (hpending : h.timing.pendingTime = some sec) (hsec : sec < 2 ^ 48) :
    h.applyTimeSet.clock.now = { sec, ns := 0 } ∧ h.applyTimeSet.clock.timeStepped = true ∧ h.applyTimeSet.timing.Shows { h.timing with pendingTime := none } := by
  unfold Hub.applyTimeSet
  rw [hpending]
  simp only
  set g : Hub := { h with timing := { h.timing with pendingTime := none, extPending := none }, trecs := mapEach TimingRec.dropMeasurement h.trecs }
  obtain ⟨hnow, hstepped⟩ := Hub.stepTo_now (h := g) ((sec * nsPerSec : Nat) : Int)
  exact ⟨hnow.trans (HubTime.ofTotal_sec hsec), hstepped,
    (Hub.stepTo_shows (h := g) _).trans (show g.timing.Shows { h.timing with pendingTime := none } from rfl)⟩

/-- A time setting applied in FREE_RUN with an empty list. -/
theorem Hub.takeSecond_sets {sec : Nat} (hdue : h.clock.due.any (·.sort == .second) = true) (hs : h.timing.state = .freeRun)
    (hc : h.timing.cands = []) (hsel : h.timing.selection = none) (hpending : h.timing.pendingTime = some sec) (hsec : sec < 2 ^ 48) :
    h.takeSecond.clock.now = { sec, ns := 0 } ∧ h.takeSecond.clock.timeStepped = true ∧ h.takeSecond.timing.pendingTime = none ∧ h.takeSecond.timing.state = .freeRun := by
  have htiming := Hub.secondEnded_timing (h := h)
  obtain ⟨hnow, hstepped, hshows⟩ := Hub.applyTimeSet_of_some (h := h.secondEnded) (by rw [htiming]; exact hpending) hsec
  rw [Hub.takeSecond_eq hdue]
  generalize h.secondEnded.applyTimeSet = g at *
  rw [htiming] at hshows
  obtain ⟨hstate, hselection, hcands, -, -, -, -, -, hset⟩ := hshows.fields
  have hsel' : g.timing.selection = none := hselection.trans hsel
  have hmid : g.midTiming = { g.timing with cands := [] } := by
    rw [Hub.midTiming_empty (hcands.trans hc) hsel', Hub.heldWith_of_not_running _ (by rw [hstate, show _ = TimingState.freeRun from hs]; rfl)]
  have hoffset := Hub.judgedOffset_none (h := g) (by rw [hmid]; exact hsel')
  have hclock := Hub.judgeReference_clock (h := g) fun o ho => by
    rw [hoffset] at ho
    cases ho
  have hnew := Hub.judgeReference_shows (h := g)
  unfold Hub.newTiming at hnew
  rw [hmid, hoffset] at hnew
  obtain ⟨hstate', -, -, -, -, -, -, -, hset'⟩ := hnew.fields
  rw [hclock]
  exact ⟨hnow, hstepped, hset'.trans hset, hstate'.trans (hstate.trans hs)⟩

/-! ## HOLDOVER_LIMIT_REACHED (R107) -/

theorem Hub.setTiming_frame (new : Timing) (reason : TimingReason) (mayRaise : Bool) :
    (h.setTiming new reason mayRaise).slots = h.slots ∧ (h.setTiming new reason mayRaise).clock = h.clock := by
  have hP : AlarmClosed fun g => g.slots = h.slots ∧ g.clock = h.clock :=
    { alarms := fun _ _ _ hh => hh, notice := fun _ _ _ hh => hh, permit := fun _ _ _ hh => hh, fence := fun _ _ hh => hh
      refusal := fun _ hh => hh, placed := fun _ _ _ _ _ _ _ _ hh => by rw [(Hub.schedule_others _ _).1]; exact hh }
  unfold Hub.setTiming
  refine hP.timingResults (fun _ _ hh => hh) _ _ ?_
  unfold Hub.timingNotice
  split <;> exact ⟨rfl, rfl⟩

theorem Hub.holdoverReached_lapses (hs : h.timing.state = .holdover) (hlimit : h.tables.timing.holdoverLimit ≤ h.timing.holdover + 1) :
    h.holdoverReached.timing.state = .holdoverLapsed ∧ h.holdoverReached.timing.holdover = h.tables.timing.holdoverLimit ∧
      h.holdoverReached.slots = h.slots ∧ h.holdoverReached.clock = h.clock := by
  have hrun : h.timing.state.running = true := by rw [hs]; rfl
  have hreached : h.timing.holdoverLimit h.tables.timing.holdoverLimit =
      { h.timing with holdover := h.tables.timing.holdoverLimit, state := .holdoverLapsed } := by
    unfold Timing.holdoverLimit
    rw [hs]
  unfold Hub.holdoverReached
  rw [if_pos (by rw [hrun, decide_eq_true hlimit]; rfl), hreached, Hub.setTiming_timing]
  exact ⟨rfl, rfl, Hub.setTiming_frame _ _ _⟩

/-! ## LINK_ERRORS_CLEAR (R11) -/

/-- Records of a key that are not ACTIVE stay so, while nothing raises the key. -/
theorem AlarmSteps.allInactive {k : AlarmKey} (hover : k ≠ .hub .agentOverload) (hfull : k.kind ≠ .alarmTableFull) :
    AlarmSteps (fun key => key ≠ k) (fun _ => True) fun h => ∀ x ∈ h.alarms.recs, x.key = k → x.active = false where
  toTellClosed := TellClosed.ofRecords fun _ recs => ∀ x ∈ recs, x.key = k → x.active = false
  renewed h key reported hk hh x hx hkey := by
    have hx' : x ∈ (h.alarms.update key (·.raised (h.kindEntry key.kind) reported h.stamp)).recs := hx
    unfold Alarms.update at hx'
    split at hx'
    · exact hh x hx' hkey
    · obtain ⟨y, hy, rfl⟩ := List.mem_map.mp hx'
      split at hkey
      · next hsame => exact absurd (hsame.symm.trans hkey) hk
      · next hother =>
        rw [if_neg hother]
        exact hh y hy hkey
  created h key reported a hk _ hc hh x hx hkey := by
    rcases Alarms.mem_create hc hx with hmem | rfl
    · exact hh x hmem hkey
    · exact absurd hkey hk
  lapsed h key _ hh x hx hkey := by
    have hx' : x ∈ (h.alarms.update key fun r => { r with active := false, lastChange := h.stamp }).recs := hx
    unfold Alarms.update at hx'
    split at hx'
    · exact hh x hx' hkey
    · obtain ⟨y, hy, rfl⟩ := List.mem_map.mp hx'
      split
      · rfl
      · next hother =>
        rw [if_neg hother] at hkey
        exact hh y hy hkey
  overload := hover.symm
  tableFull := fun he => hfull (he ▸ rfl)

theorem Hub.isActive_of_allInactive {k : AlarmKey} (hfull : k.kind ≠ .alarmTableFull) (hoff : ∀ x ∈ h.alarms.recs, x.key = k → x.active = false) :
    h.isActive k = false := by
  rw [Hub.isActive_iff]
  unfold Alarms.record
  rw [if_neg hfull]
  cases hfind : h.alarms.recs.find? fun r => r.key == k with
  | none => rfl
  | some x => exact hoff x (List.mem_of_find?_eq_some hfind) (by simpa using List.find?_some hfind)

/-- A clear leaves no ACTIVE record of its key, whatever the table. -/
theorem Hub.clear_isActive {k : AlarmKey} (hover : k ≠ .hub .agentOverload) (hfull : k.kind ≠ .alarmTableFull) :
    (h.clear k).isActive k = false := by
  obtain ⟨-, hr⟩ | ⟨hoff, hr⟩ := h.clear_cases k
  · have hsteps := AlarmSteps.allInactive hover hfull
    rw [hr]
    refine Hub.isActive_of_allInactive hfull (hsteps.changedWith hsteps.raiseOverload ?_ k .cleared)
    intro x hx hkey
    have hx' : x ∈ (h.alarms.update k fun r => { r with active := false, lastChange := h.stamp }).recs := hx
    unfold Alarms.update at hx'
    rw [if_neg hfull] at hx'
    obtain ⟨y, hy, rfl⟩ := List.mem_map.mp hx'
    split
    · rfl
    · next hother => exact absurd (by rwa [if_neg hother] at hkey) hother
  · rw [hr]
    exact hoff

theorem Hub.linkErrorsClear_clears {n : Slot} (hreached : h.links[n].monitor.reached = false) (hrun : 9 ≤ h.links[n].monitor.clearRun)
    (hactive : h.isActive (.slot n .linkErrors) = true) :
    (h.linkErrorsClear n).links[n].monitor = {} ∧ (h.linkErrorsClear n).isActive (.slot n .linkErrors) = false ∧
      (h.linkErrorsClear n).slots = h.slots := by
  have hcleared : (!h.links[n].monitor.reached && decide (10 ≤ h.links[n].monitor.clearRun + 1) && h.isActive (.slot n .linkErrors)) = true := by
    rw [hreached, hactive, decide_eq_true (by omega)]
    rfl
  unfold Hub.linkErrorsClear Hub.judgeErrored
  simp only [hcleared, if_true, Bool.or_true]
  set g := h.modLink n fun l => { l with monitor := { errored := 0, reached := false, clearRun := 0 } } with hg
  have hq := g.clear_quiet (.slot n .linkErrors)
  refine ⟨?_, Hub.clear_isActive (by simp [AlarmKey.hub, AlarmKey.slot]) (by simp [AlarmKey.slot]), hq.slots⟩
  rw [hq.links n, hg, Hub.modLink_self]

end

end Sys2Proof.Machine
end

section
/-! PROOFS. What each judgment of a second leaves and tells, and the second judgment settled (sections 1.4 and 6.2 to 6.7). -/

namespace Sys2Proof.Machine

theorem Timing.recordOffset_sources (t : Timing) (v : Int) : (t.recordOffset v).cands.map (·.source) = t.cands.map (·.source) := by
  rw [Timing.recordOffset, Timing.ListLegal.map _ fun c => by split <;> rfl]

section

variable {h : Hub} {c d : Candidate} {m : Int} {n : Slot}

/-- No due judgment touches the slots or the settings. -/
theorem Hub.takeSecond_frame (hdue : h.clock.due.any (·.sort == .second) = true) : h.takeSecond.slots = h.slots ∧ h.takeSecond.tables = h.tables := by
  obtain ⟨hslots, htables⟩ := Hub.secondEnded_frame (h := h)
  rw [Hub.takeSecond_eq hdue, ← hslots, ← htables]
  generalize h.secondEnded = g
  have hP := JudgeClosed.slots g.slots g.tables
  refine hP.judgeReference (hP.judgedNotice ?_)
  unfold Hub.applyTimeSet
  split
  · exact ⟨rfl, rfl⟩
  · exact hP.stepTo _ ⟨rfl, rfl⟩

theorem Hub.OnExt.selected (hon : h.OnExt c m) : h.timing.selected = some (1, .ext) :=
  Timing.selected_single (by rw [hon.cands, List.map_singleton, hon.source]) hon.selection

/-! ## EXT the only candidate -/

theorem Hub.OnExt.stays_locked (hon : h.OnExt c m) (hs : h.timing.state = .locked)
    (hle : (extOffset m).natAbs ≤ h.tables.timing.unlockThreshold) :
    h.takeSecond.timing.state = .locked ∧ h.takeSecond.timing.selection = some .ext ∧
      h.takeSecond.timing.correction = clampInt h.tables.timing.slewLimit (extOffset m) ∧ h.takeSecond.timing.unlockCount = 0 ∧
      h.takeSecond.timing.extPending = none ∧ h.takeSecond.clock.now = h.clock.now := by
  have hj := hon.judged_within hs hle
  obtain ⟨hstate, hsel, -, -, hcorr, -, hunlock, -⟩ := hj.timing.fields
  have hno : (h.withOne c).steps (extOffset m) = false := Timing.steps_of_not_acquiring hs
  exact ⟨hstate.trans hs, hsel.trans hon.selection, hcorr, hunlock, hj.extUsed _ rfl hno hon.selection, hj.now_of_no_step hno⟩

theorem Hub.OnExt.locks (hon : h.OnExt c m) {origin : Origin} (hs : h.timing.state = .acquiring origin) (hcount : h.timing.lockCount = 7)
    (hle : (extOffset m).natAbs ≤ h.tables.timing.lockWindow) (hwindow : h.tables.timing.lockWindow ≤ 1000) :
    h.takeSecond.timing.state = .locked ∧ h.takeSecond.timing.selection = some .ext ∧ h.takeSecond.timing.holdover = 0 ∧
      h.takeSecond.timing.unlockCount = 0 ∧ h.takeSecond.timing.correction = clampInt h.tables.timing.slewLimit (extOffset m) ∧
      h.takeSecond.clock.now = h.clock.now ∧
      ((origin = .locked → h.timing.holdover + 1 < h.tables.timing.holdoverLimit) →
        h.TellsTiming h.takeSecond (some (1, .ext)) (some (1, .ext)) true .lockAchieved) := by
  have hj := hon.judged_locks hs hcount hle hwindow
  obtain ⟨hstate, hsel, -, hholdover, hcorr, -, hunlock, -⟩ := hj.timing.fields
  obtain ⟨⟨origin', hheld⟩, hkept⟩ := Timing.advanceHoldover_acquiring h.tables.timing.holdoverLimit hs
  have hselected := Hub.heldWith_selection (h := h) [{ c with count := h.tables.timing.q }]
  refine ⟨hstate, hsel.trans (hselected.trans hon.selection), hholdover, hunlock, hcorr,
    hj.now_of_no_step (Timing.steps_of_le (hle.trans hwindow)), fun hless => ?_⟩
  have hreason : judgmentReasons h.timing (h.heldWith [{ c with count := h.tables.timing.q }])
      { (h.heldWith [{ c with count := h.tables.timing.q }]).recordOffset (extOffset m) with
        correction := clampInt h.tables.timing.slewLimit (extOffset m), firstOffset := false, lockCount := 8, state := .locked, unlockCount := 0
        holdover := 0 } = [.lockAchieved] := by
    refine judgmentReasons_lock hselected.symm (fun he => TimingState.noConfusion (hheld.symm.trans he)) ?_
    rw [show (h.heldWith [{ c with count := h.tables.timing.q }]).state = h.timing.state from (hkept hless).trans hs.symm]
    cases h.timing.state.running <;> rfl
  exact hj.told hreason (.inl fun he => TimingState.noConfusion (hs.symm.trans he)) hon.selected
    (Timing.selected_single ((Timing.recordOffset_sources _ _).trans (congrArg (fun x => [x]) hon.source)) (hselected.trans hon.selection)) rfl

theorem Hub.OnExt.counts_unlock (hon : h.OnExt c m) (hs : h.timing.state = .locked)
    (hlt : h.tables.timing.unlockThreshold < (extOffset m).natAbs) (hcount : h.timing.unlockCount < 2) :
    h.takeSecond.timing.state = .locked ∧ h.takeSecond.timing.unlockCount = h.timing.unlockCount + 1 := by
  obtain ⟨hstate, -, -, -, -, -, hunlock, -⟩ := (hon.judged_beyond hs hlt hcount).timing.fields
  exact ⟨hstate.trans hs, hunlock⟩

theorem Hub.OnExt.unlocks (hon : h.OnExt c m) (hs : h.timing.state = .locked)
    (hlt : h.tables.timing.unlockThreshold < (extOffset m).natAbs) (hcount : h.timing.unlockCount = 2) :
    h.takeSecond.timing.state = .acquiring .locked ∧ h.takeSecond.timing.selection = some .ext ∧ h.takeSecond.timing.lockCount = 0 ∧
      h.takeSecond.timing.firstOffset = true ∧ h.takeSecond.timing.correction = clampInt h.tables.timing.slewLimit (extOffset m) ∧
      h.takeSecond.clock.now = h.clock.now ∧ h.TellsTiming h.takeSecond (some (1, .ext)) (some (1, .ext)) true .lockLost := by
  have hj := hon.judged_unlocks hs hlt hcount
  obtain ⟨hstate, hsel, -, -, hcorr, hlock, -, hfirst, -⟩ := hj.timing.fields
  have hne : h.timing.state ≠ .acquiring .locked := by
    rw [hs]
    exact TimingState.noConfusion
  refine ⟨hstate, hsel.trans hon.selection, hlock, hfirst, hcorr, hj.now_of_no_step (Timing.steps_of_not_acquiring hs), ?_⟩
  exact hj.told (judgmentReasons_lock rfl hne (by rw [hs]; rfl)) (.inl hne) hon.selected
    (Timing.selected_single ((Timing.recordOffset_sources _ _).trans (congrArg (fun x => [x]) hon.source)) hon.selection) rfl

theorem Hub.OnExt.first_steps (hon : h.OnExt c m) (hs : h.timing.state = .acquiring .fresh) (hfirst : h.timing.firstOffset = true)
    (hlt : 1000 < (extOffset m).natAbs) :
    h.takeSecond.clock.now = HubTime.ofTotal (((h.clock.now.total : Int) + extOffset m) % (2 ^ 48 * nsPerSec : Nat)).toNat ∧
      h.takeSecond.clock.timeStepped = true ∧ h.takeSecond.timing.correction = 0 ∧ h.takeSecond.timing.firstOffset = false ∧
      h.takeSecond.timing.state = .acquiring .fresh := by
  obtain ⟨hsteps, hj⟩ := hon.judged_steps hs hfirst hlt
  obtain ⟨hstate, -, -, -, hcorr, -, -, hfirst', -⟩ := hj.timing.fields
  obtain ⟨hnow, hstepped⟩ := hj.stepped _ rfl hsteps
  exact ⟨hnow, hstepped, hcorr, hfirst', hstate.trans hs⟩

/-! ## The selection lost, or found -/

theorem Hub.takeSecond_lost (hdue : h.clock.due.any (·.sort == .second) = true) (hnone : h.timing.pendingTime = none) (hs : h.timing.state = .locked)
    (hsel : h.timing.selection = some c.source) (hc : h.timing.cands = [c]) (hvalid : h.sourceValid c.source = false) :
    h.takeSecond.timing.state = .holdover ∧ h.takeSecond.timing.selection = none ∧ h.takeSecond.timing.correction = 0 ∧
      h.takeSecond.timing.holdover = h.timing.holdover ∧ h.takeSecond.timing.cands.map (·.status) = [.unavailable] ∧
      h.takeSecond.clock.now = h.clock.now ∧ h.TellsTiming h.takeSecond (some (1, c.source)) none true .selection := by
  have hj := Hub.judged_lost hdue hnone hs hsel hc hvalid
  rw [hs] at hj
  obtain ⟨hstate, hsel', hcands, hholdover, hcorr, -⟩ := hj.timing.fields
  have hne : h.timing.selection ≠ none := by
    rw [hsel]
    exact Option.some_ne_none _
  refine ⟨hstate, hsel', hcorr, hholdover, by rw [hcands]; rfl, hj.now_of_none, ?_⟩
  exact hj.told (judgmentReasons_selection hne rfl (by rw [hs]; rfl)) (.inr hne)
    (Timing.selected_single (by rw [hc]; rfl) hsel) (Timing.selected_none rfl) rfl

theorem Hub.takeSecond_appeared (hdue : h.clock.due.any (·.sort == .second) = true) (hnone : h.timing.pendingTime = none)
    (hs : h.timing.state = .freeRun) (hsel : h.timing.selection = none) (hc : h.timing.cands = [c]) (hext : c.source = .ext)
    (hstatus : c.status = .qualifying) (hcount : c.count + 1 = h.tables.timing.q) (hvalid : h.sourceValid .ext = true)
    (hm : h.timing.extPending = none) :
    h.takeSecond.timing.state = .acquiring .fresh ∧ h.takeSecond.timing.selection = some .ext ∧ h.takeSecond.timing.firstOffset = true ∧
      h.takeSecond.timing.cands.map (fun c => (c.status, c.count)) = [(.qualified, h.tables.timing.q)] ∧
      h.TellsTiming h.takeSecond none (some (1, .ext)) false .selection := by
  have hj := Hub.judged_appeared hdue hnone hs hsel hc hext hstatus hcount hvalid hm
  rw [hs, hext] at hj
  obtain ⟨hstate, hsel', hcands, -, -, -, -, hfirst, -⟩ := hj.timing.fields
  have hne : h.timing.selection ≠ some .ext := by
    rw [hsel]
    exact (Option.some_ne_none _).symm
  refine ⟨hstate, hsel', hfirst, by rw [hcands]; rfl, ?_⟩
  exact hj.told (judgmentReasons_selection hne rfl (by rw [hs]; rfl)) (.inr hne) (Timing.selected_none hsel) (Timing.selected_single rfl rfl) rfl

theorem Hub.takeSecond_lapses (hdue : h.clock.due.any (·.sort == .second) = true) (hnone : h.timing.pendingTime = none)
    (hs : h.timing.state = .holdover) (hc : h.timing.cands = []) (hsel : h.timing.selection = none)
    (hlimit : h.tables.timing.holdoverLimit ≤ h.timing.holdover + 1) :
    h.takeSecond.timing.state = .holdoverLapsed ∧ h.takeSecond.timing.holdover = h.tables.timing.holdoverLimit ∧
      h.TellsTiming h.takeSecond none none false .holdoverExpired := by
  have hj := Hub.judged_lapses hdue hnone hs hc hsel hlimit
  obtain ⟨hstate, -, -, hholdover, -⟩ := hj.timing.fields
  refine ⟨hstate, hholdover, hj.told ?_ (.inl (by rw [hs]; exact TimingState.noConfusion)) (Timing.selected_none hsel) (Timing.selected_none hsel) rfl⟩
  unfold judgmentReasons
  rw [hs]
  simp [TimingState.running, TimingState.lapsed]

/-! ## EXT and a slot -/

theorem Hub.OnTwo.reverts (htwo : h.OnTwo c d n) (hsel : h.timing.selection = some (.slot n)) (hstatus : c.status = .qualifying)
    (hcount : c.count + 1 = h.tables.timing.q) (hvalid : h.sourceValid .ext = true) (hm : h.timing.extPending = none)
    (hrev : h.tables.revertive = true) :
    h.takeSecond.timing.state = .acquiring .locked ∧ h.takeSecond.timing.selection = some .ext ∧ h.takeSecond.timing.lockCount = 0 ∧
      h.takeSecond.timing.firstOffset = true ∧ h.TellsTiming h.takeSecond (some (2, .slot n)) (some (1, .ext)) true .selection := by
  have hj := htwo.judged_reverts hsel hstatus hcount hvalid hm hrev
  rw [htwo.state] at hj
  obtain ⟨hstate, hsel', -, -, -, hlock, -, hfirst, -⟩ := hj.timing.fields
  have hne : h.timing.selection ≠ some .ext := by
    rw [hsel]
    simp
  refine ⟨hstate, hsel', hlock, hfirst, ?_⟩
  exact hj.told (judgmentReasons_selection hne rfl (by rw [htwo.state]; rfl)) (.inr hne)
    (Timing.selected_second (s := .ext) (by simp) (by rw [htwo.cands, List.map_cons, List.map_singleton, htwo.source, htwo.source']) hsel)
    (Timing.selected_first (s' := .slot n) (by simp [htwo.source, htwo.source']) rfl) rfl

theorem Hub.OnTwo.stays (htwo : h.OnTwo c d n) (hsel : h.timing.selection = some (.slot n)) (hstatus : c.status = .qualifying)
    (hcount : c.count + 1 = h.tables.timing.q) (hvalid : h.sourceValid .ext = true) (hrev : h.tables.revertive = false) :
    h.takeSecond.timing.state = .locked ∧ h.takeSecond.timing.selection = some (.slot n) ∧
      h.takeSecond.timing.cands.map (·.status) = [.qualified, .qualified] := by
  obtain ⟨hstate, hsel', hcands, -⟩ := (htwo.judged_stays hsel hstatus hcount hvalid hrev).timing.fields
  exact ⟨hstate.trans htwo.state, hsel'.trans hsel, by rw [hcands, List.map_cons, List.map_singleton, htwo.status']⟩

theorem Hub.OnTwo.falls (htwo : h.OnTwo c d n) (hsel : h.timing.selection = some .ext) (hvalid : h.sourceValid .ext = false) :
    h.takeSecond.timing.state = .acquiring .locked ∧ h.takeSecond.timing.selection = some (.slot n) ∧ h.takeSecond.timing.lockCount = 0 ∧
      h.takeSecond.timing.firstOffset = true ∧ h.takeSecond.timing.cands.map (·.status) = [.unavailable, .qualified] ∧
      h.TellsTiming h.takeSecond (some (1, .ext)) (some (2, .slot n)) true .selection := by
  have hj := htwo.judged_falls hsel hvalid
  rw [htwo.state] at hj
  obtain ⟨hstate, hsel', hcands, -, -, hlock, -, hfirst, -⟩ := hj.timing.fields
  have hne : h.timing.selection ≠ some (.slot n) := by
    rw [hsel]
    simp
  refine ⟨hstate, hsel', hlock, hfirst, by rw [hcands, List.map_cons, List.map_singleton, htwo.status'], ?_⟩
  exact hj.told (judgmentReasons_selection hne rfl (by rw [htwo.state]; rfl)) (.inr hne)
    (Timing.selected_first (s' := .slot n) (by rw [htwo.cands, List.map_cons, List.map_singleton, htwo.source, htwo.source']) hsel)
    (Timing.selected_second (s := .ext) (by simp) (by simp [htwo.source, htwo.source']) rfl) rfl

/-! ## A slot the only candidate -/

theorem Hub.OnSlot.stays_locked {r : Report} {comp : Nat} (hon : h.OnSlot n c r comp)
    (hle : (slotOffset r.refSec r.arrival.time.total comp).natAbs ≤ h.tables.timing.unlockThreshold) :
    h.takeSecond.timing.state = .locked ∧ h.takeSecond.timing.selection = some (.slot n) ∧
      h.takeSecond.timing.correction = clampInt h.tables.timing.slewLimit (slotOffset r.refSec r.arrival.time.total comp) ∧
      h.takeSecond.timing.unlockCount = 0 ∧ h.takeSecond.trecs[n].report = some { r with pending := false } ∧
      h.takeSecond.timing.cands =
        [{ c with count := h.tables.timing.q, lastOffset := some (slotOffset r.refSec r.arrival.time.total comp) }] ∧
      h.takeSecond.clock.now = h.clock.now := by
  have hj := hon.judged hle
  obtain ⟨hstate, hsel, hcands, -, hcorr, -, hunlock, -⟩ := hj.timing.fields
  have hno : (h.withOne c).steps (slotOffset r.refSec r.arrival.time.total comp) = false := Timing.steps_of_not_acquiring hon.state
  refine ⟨hstate.trans hon.state, hsel.trans hon.selection, hcorr, hunlock,
    (hj.slotUsed _ n rfl hno hon.selection).trans (by rw [hon.report]; rfl), hcands.trans ?_, hj.now_of_no_step hno⟩
  unfold Timing.recordOffset Hub.withOne
  simp only [List.map_cons, List.map_nil, hon.selection, hon.source, if_true]

end

/-! ## The obligation -/

/-- A judged state of a due second. -/
theorem exec_secondJudgment_of {s : State} (hdue : s.hub.clock.due.any (·.sort == .second) = true) {P : State → Prop}
    (hP : P { s with hub := s.hub.takeSecond }) :
    ∃ t, exec .secondJudgment s = .next t ∧ t.hub.slots = s.hub.slots ∧ t.hub.tables = s.hub.tables ∧ P t :=
  ⟨_, rfl, (Hub.takeSecond_frame hdue).1, (Hub.takeSecond_frame hdue).2, hP⟩

/-- Settles O47: each part of a judgment by its case, on the Timing Unit's record; the hub around it by what a judgment keeps. -/
theorem secondJudgment : Obligations.SecondJudgment := by
  intro s
  dsimp only
  refine ⟨?_, ?_, ?_, ?_, ?_, ?_, ?_, ?_, ?_, ?_, ?_, ?_, ?_⟩
  · rintro ⟨hdue, hnone⟩ hs hsel ⟨o, hc⟩ hpulsed m hm hle
    have hon : Hub.OnExt s.hub _ m := ⟨hdue, hnone, hsel, hc, rfl, rfl, hpulsed, hm⟩
    exact exec_secondJudgment_of hdue (by dsimp only; exact hon.stays_locked hs hle)
  · rintro ⟨hdue, hnone⟩ hs hsel ⟨o, hc⟩ hpulse
    exact exec_secondJudgment_of hdue (by dsimp only; exact Hub.takeSecond_lost hdue hnone hs hsel hc (Hub.sourceValid_ext_of_no_pulse hpulse))
  · rintro origin m ⟨hdue, hnone⟩ hs hsel ⟨o, hc⟩ hpulsed hcount hm hle hwindow
    have hon : Hub.OnExt s.hub _ m := ⟨hdue, hnone, hsel, hc, rfl, rfl, hpulsed, hm⟩
    exact exec_secondJudgment_of hdue (by dsimp only; exact hon.locks hs hcount hle hwindow)
  · rintro m ⟨hdue, hnone⟩ hs hsel ⟨o, hc⟩ hpulsed hm hlt
    have hon : Hub.OnExt s.hub _ m := ⟨hdue, hnone, hsel, hc, rfl, rfl, hpulsed, hm⟩
    exact ⟨fun hcount => exec_secondJudgment_of hdue (by dsimp only; exact hon.counts_unlock hs hlt hcount),
      fun hcount => exec_secondJudgment_of hdue (by dsimp only; exact hon.unlocks hs hlt hcount)⟩
  · rintro n count ⟨hdue, hnone⟩ hs hsel hm hpulsed ⟨hstate, hcap, hsettled, r, hr, htrace, hpending, hage⟩ ⟨o1, o2, hc⟩ hcount
    have htwo : Hub.OnTwo s.hub _ _ n := ⟨hdue, hnone, hs, hc, rfl, rfl, rfl, Hub.sourceValid_slot hstate hcap hsettled hr htrace hage, r, hr, hpending⟩
    exact ⟨fun hrev => exec_secondJudgment_of hdue (by dsimp only; exact htwo.reverts hsel rfl hcount hpulsed hm hrev),
      fun hrev => exec_secondJudgment_of hdue (by dsimp only; exact htwo.stays hsel rfl hcount hpulsed hrev)⟩
  · rintro n count ⟨hdue, hnone⟩ hs hsel hpulse ⟨hstate, hcap, hsettled, r, hr, htrace, hpending, hage⟩ ⟨o1, o2, hc⟩
    have htwo : Hub.OnTwo s.hub _ _ n := ⟨hdue, hnone, hs, hc, rfl, rfl, rfl, Hub.sourceValid_slot hstate hcap hsettled hr htrace hage, r, hr, hpending⟩
    exact exec_secondJudgment_of hdue (by dsimp only; exact htwo.falls hsel (Hub.sourceValid_ext_of_no_pulse hpulse))
  · rintro n count o ⟨hdue, hnone⟩ hs hsel hc
    refine ⟨fun hstate hcap hsettled r comp hr htrace hpending hcomp hage hle => ?_, fun hr => ?_⟩
    · have hon : Hub.OnSlot s.hub n _ r comp := ⟨hdue, hnone, hs, hsel, hc, rfl, rfl,
        Hub.sourceValid_slot hstate hcap hsettled hr htrace hage, hr, htrace, hpending, hcomp⟩
      exact exec_secondJudgment_of hdue (by dsimp only; exact hon.stays_locked hle)
    · obtain ⟨hstate, hsel', hcorr, -, hstatus, hnow, -⟩ := Hub.takeSecond_lost hdue hnone hs hsel hc (Hub.sourceValid_slot_of_no_report hr)
      exact exec_secondJudgment_of hdue (by dsimp only; exact ⟨hstate, hsel', hcorr, hstatus, hnow⟩)
  · rintro ⟨hdue, hnone⟩ hs hsel hpulsed hm count ⟨o, hc⟩ hcount
    exact exec_secondJudgment_of hdue (by dsimp only; exact Hub.takeSecond_appeared hdue hnone hs hsel hc rfl rfl hcount hpulsed hm)
  · rintro ⟨hdue, hnone⟩ hs hsel ⟨o, hc⟩ hpulsed hfirst m hm hlt
    have hon : Hub.OnExt s.hub _ m := ⟨hdue, hnone, hsel, hc, rfl, rfl, hpulsed, hm⟩
    exact exec_secondJudgment_of hdue (by dsimp only; exact hon.first_steps hs hfirst hlt)
  · rintro ⟨hdue, hnone⟩ hs hc hsel hlimit
    exact exec_secondJudgment_of hdue (by dsimp only; exact Hub.takeSecond_lapses hdue hnone hs hc hsel hlimit)
  · intro hdue hs hc hsel sec hpending hsec
    exact exec_secondJudgment_of hdue (by dsimp only; exact Hub.takeSecond_sets hdue hs hc hsel hpending hsec)
  · intro hs hlimit
    exact ⟨{ s with hub := s.hub.holdoverReached }, rfl, by dsimp only; exact Hub.holdoverReached_lapses hs hlimit⟩
  · intro n hreached hrun hactive
    exact ⟨{ s with hub := s.hub.linkErrorsClear n }, rfl, by dsimp only; exact Hub.linkErrorsClear_clears hreached hrun hactive⟩

end Sys2Proof.Machine
end
